-- ==== Sys2Proof/Word.lean ====
section
/-! DEFINITION. The plain data shapes every other file uses: a byte, a sparse table, one value for each of the four
station ports, one value for each of the two frame contexts. Their operations are in Machine/Table.lean. -/

namespace Sys2Proof

/-- One byte on a station port, on the head link or in the settings memory (R177, R47, R191). -/
abbrev Byte := BitVec 8

/-- A table of numbered entries, most of them free: the entries in use as (number, content), numbers strictly rising.
A number that is not listed is a FREE (or EMPTY) entry. -/
abbrev Table (α : Type) := List (Nat × α)

/-- The four station ports (00_scope, Table 1). -/
inductive Port where
  | a | b | c | d
deriving DecidableEq, Repr

/-- The four ports in order A to D. -/
def Port.all : List Port := [.a, .b, .c, .d]

/-- One value for each station port. -/
structure PerPort (α : Type) where
  a : α
  b : α
  c : α
  d : α
deriving DecidableEq, Repr

/-- The two frame contexts of FCU, numbered 0 and 1 (section 4.1). -/
inductive CtxId where
  | c0 | c1
deriving DecidableEq, Repr

/-- One value for each of the two frame contexts. -/
structure Two (α : Type) where
  zero : α
  one  : α
deriving DecidableEq, Repr

end Sys2Proof
end

