-- ==== Sys2Proof/Syntax.lean ====
section
/-! DEFINITION. The commands of the GJ-440: one constructor of `Instr` for each row of spec/opcode_table.json, in the
table's order. A command is a request on a station port, a report of the scanner head, a change of an input, a tick of
the time base, the expiry of a timer, or a step of the settings memory preload. -/

namespace Sys2Proof

/-- What every request frame carries beside its operands: the port it came on and the tag the station chose
(Table 10-1). -/
structure Rq where
  port : Port
  tag  : Byte
deriving DecidableEq, Repr

/-- Why the preload ends: the byte at offset 256 is not 0xA5 or a record has N = 0 (R191, no error), or a value's index
is beyond 127 or a byte lies at offset 4096 or beyond (R192, PRELOAD_ERROR). -/
inductive PreloadEnd where
  | badSignature | endRecord | indexBeyond | areaEnd
deriving DecidableEq, Repr

/-- Operands of SET_SETTING (Table 10-6). -/
structure SettingArgs where
  index : Byte
  value : BitVec 16
deriving DecidableEq, Repr

/-- Operands of ADMIT (Table 1-4). -/
structure AdmitArgs where
  catalogue : BitVec 24
  gauge     : Byte
  acidity   : Byte
  slot      : Byte
deriving DecidableEq, Repr

/-- Operands of SET_CONDITION (Table 1-4). -/
structure ConditionArgs where
  handle  : Byte
  acidity : Byte
deriving DecidableEq, Repr

/-- Operands of RELEASE (Table 1-4). A force flag of 1 is the row RELEASE_FORCE. -/
structure ReleaseArgs where
  handle : Byte
  force  : Byte
deriving DecidableEq, Repr

/-- Operands of SHUTTLE (Table 2-3). -/
structure ShuttleArgs where
  direction : Byte
  speed     : BitVec 16
deriving DecidableEq, Repr

/-- Operands of STAGE_PITCH (Table 3-4). -/
structure PitchArgs where
  pInt : BitVec 16
  f1   : BitVec 16
  f2   : BitVec 16
  m2   : BitVec 16
deriving DecidableEq, Repr

/-- Operands of STAGE_REG (Table 3-4). -/
structure RegArgs where
  lw     : BitVec 16
  index  : Byte
  search : BitVec 16
  w      : Byte
  g      : Byte
  adapt  : Byte
deriving DecidableEq, Repr

/-- Operands of RELEASE_CLAIM (Table 6-3): a record is named by its entry and its creation sequence. -/
structure ClaimArgs where
  index : BitVec 16
  seq   : BitVec 32
deriving DecidableEq, Repr

/-- Operands of COMPLETE (Table 6-3). -/
structure CompleteArgs where
  index   : BitVec 16
  seq     : BitVec 32
  outcome : Byte
deriving DecidableEq, Repr

/-- Operands of DAMAGE_LIST (R122). -/
structure DamageListArgs where
  handle : Byte
  first  : BitVec 16
  pass   : BitVec 16
  count  : Byte
deriving DecidableEq, Repr

/-- Operands of RESCAN_ADD (Table 6-3). -/
structure RescanArgs where
  handle : Byte
  first  : BitVec 16
  last   : BitVec 16
deriving DecidableEq, Repr

/-- Operands of SHOT_LIST (Table 8-3). -/
structure ShotListArgs where
  handle : Byte
  first  : BitVec 16
  count  : Byte
deriving DecidableEq, Repr

/-- A channel entry as a station sends it: an unsigned gain, then a signed lift (section 8.3). -/
structure ChannelArgs where
  gain : BitVec 16
  lift : BitVec 16
deriving DecidableEq, Repr

/-- Layer values as a station sends them, for R, G and B (section 8.3). -/
structure LayerArgs where
  r : ChannelArgs
  g : ChannelArgs
  b : ChannelArgs
deriving DecidableEq, Repr

/-- Operands of SET_BASE (Table 8-3). -/
structure BaseArgs where
  handle : Byte
  layer  : LayerArgs
deriving DecidableEq, Repr

/-- Operands of PUSH_LAYER (Table 8-3). -/
structure PushArgs where
  shot  : BitVec 16
  layer : LayerArgs
deriving DecidableEq, Repr

/-- Operands of SET_LAYER (Table 8-3). -/
structure SetLayerArgs where
  shot  : BitVec 16
  level : Byte
  layer : LayerArgs
deriving DecidableEq, Repr

/-- Operands of SET_FLICKER (Table 8-3). -/
structure FlickerArgs where
  shot   : BitVec 16
  enable : Byte
deriving DecidableEq, Repr

/-- Operands of SPLIT (Table 8-3). -/
structure SplitArgs where
  shot  : BitVec 16
  frame : BitVec 16
deriving DecidableEq, Repr

/-- Operands of GRADE_QUERY (Table 8-3). -/
structure GradeQueryArgs where
  handle : Byte
  frame  : BitVec 16
deriving DecidableEq, Repr

/-- Operands of RETRY and CANCEL_MOVE (Table 9-4). -/
structure MoveArgs where
  entry  : Byte
  handle : Byte
deriving DecidableEq, Repr

/-- Operands of POSITIONS (R167). -/
structure PositionsArgs where
  kind  : Byte
  first : Byte
  count : Byte
deriving DecidableEq, Repr

/-- The commands, one for each row of the opcode table. A request that has operands carries them as an `Option`: `none`
is a request whose operand length is shorter than its command's operands need (R178, check 3). -/
inductive Instr where
  -- start-up and inputs
  | reset
  /-- A value of the settings memory: where its first byte lies, the setting index i + k it is for, the value. -/
  | preloadValue (offset index value : BitVec 16)
  | preloadEnd (why : PreloadEnd)
  | estopAsserted
  | estopReleased
  -- time base
  | millisecondTick
  | secondTick
  | minuteTick
  -- head link (Table 2-5)
  | position (pos : BitVec 32)
  | frameLine (pos : BitVec 32)
  /-- The edge byte: 0 falling, 1 rising. -/
  | spliceEdge (edge : Byte) (pos : BitVec 32)
  | tension (gf : BitVec 16)
  | gateTemp (temp : BitVec 16)
  | row (frame : BitVec 16) (index : Byte) (ir visible : List (BitVec 16))
  | headMessageDiscarded
  -- expiries
  | tensionHighExpiry
  | tensionLowExpiry
  | headSilenceExpiry
  | reportAgeExpiry
  | gateDelayExpiry
  | holdLightExpiry
  | contextAgeExpiry
  | confirmationExpiry (port : Port)
  | bayTimerExpiry
  -- station frames
  | frameIgnored (port : Port)
  /-- The tag, if the tag byte arrived. -/
  | requestMalformed (port : Port) (tag : Option Byte)
  | unknownCommand (rq : Rq) (code : Byte)
  /-- A response read frame: how many bytes the station clocked after the marker. -/
  | responseRead (port : Port) (clocked : Nat)
  -- PORT group (Table 10-6)
  | readAlerts (rq : Rq)
  | ackAlerts (rq : Rq) (kinds : Option (BitVec 32))
  | setAlertMask (rq : Rq) (kinds : Option (BitVec 32))
  | getSetting (rq : Rq) (index : Option Byte)
  | setSetting (rq : Rq) (args : Option SettingArgs)
  | portReset (rq : Rq)
  -- REEL group (Table 1-4)
  | reelQuery (rq : Rq) (handle : Option Byte)
  | reelFind (rq : Rq) (catalogue : Option (BitVec 24))
  | admitReel (rq : Rq) (args : Option AdmitArgs)
  | setCondition (rq : Rq) (args : Option ConditionArgs)
  | request (rq : Rq) (handle : Option Byte)
  | cancel (rq : Rq) (handle : Option Byte)
  | returnReel (rq : Rq) (handle : Option Byte)
  | release (rq : Rq) (args : Option ReleaseArgs)
  | releaseForce (rq : Rq) (handle : Byte)
  -- TRANSPORT group (Table 2-3)
  | thread (rq : Rq) (handle : Option Byte)
  | unthread (rq : Rq)
  | setOrigin (rq : Rq)
  | inch (rq : Rq) (distance : Option (BitVec 32))
  | shuttle (rq : Rq) (args : Option ShuttleArgs)
  | scan (rq : Rq) (speed : Option (BitVec 16))
  | pause (rq : Rq)
  | resume (rq : Rq)
  | stop (rq : Rq)
  | clearFault (rq : Rq)
  | stagePitch (rq : Rq) (args : Option PitchArgs)
  | stageReg (rq : Rq) (args : Option RegArgs)
  | commit (rq : Rq)
  | readPitch (rq : Rq)
  | readFrames (rq : Rq) (count : Option Byte)
  | clearGate (rq : Rq)
  | transportStatus (rq : Rq)
  -- REPAIR group (Table 6-3)
  | claimNext (rq : Rq) (handle : Option Byte)
  | complete (rq : Rq) (args : Option CompleteArgs)
  | releaseClaim (rq : Rq) (args : Option ClaimArgs)
  | releaseAll (rq : Rq)
  | damageList (rq : Rq) (args : Option DamageListArgs)
  | rescanAdd (rq : Rq) (args : Option RescanArgs)
  -- GRADE group (Table 8-3)
  | shotList (rq : Rq) (args : Option ShotListArgs)
  | setBase (rq : Rq) (args : Option BaseArgs)
  | pushLayer (rq : Rq) (args : Option PushArgs)
  | popLayer (rq : Rq) (shot : Option (BitVec 16))
  | setLayer (rq : Rq) (args : Option SetLayerArgs)
  | setFlicker (rq : Rq) (args : Option FlickerArgs)
  | split (rq : Rq) (args : Option SplitArgs)
  | merge (rq : Rq) (shot : Option (BitVec 16))
  | approve (rq : Rq) (shot : Option (BitVec 16))
  | reopen (rq : Rq) (shot : Option (BitVec 16))
  | gradeQuery (rq : Rq) (args : Option GradeQueryArgs)
  -- VAULT group (Table 9-4)
  | takeMove (rq : Rq)
  | moveDone (rq : Rq)
  | moveFailed (rq : Rq)
  | retry (rq : Rq) (args : Option MoveArgs)
  | cancelMove (rq : Rq) (args : Option MoveArgs)
  | bayClimate (rq : Rq) (climate : Option Byte)
  | positions (rq : Rq) (args : Option PositionsArgs)
  | moveList (rq : Rq)
deriving DecidableEq, Repr

end Sys2Proof
end

