-- ==== Sys2Proof/WellFormed.lean ====
section
/-! DEFINITION. The operand ranges the manual gives where an operand's type is wider than them. `exec` gives EVERY
command a meaning, the ill-formed ones too; nothing but a statement that says so rests on these checks. -/

namespace Sys2Proof

/-- Is the code a command code of Table 10-4? -/
def commandCode (c : Nat) : Bool :=
  c ≤ 0x05 || (0x10 ≤ c && c ≤ 0x17) || (0x20 ≤ c && c ≤ 0x30) || (0x40 ≤ c && c ≤ 0x45) ||
  (0x50 ≤ c && c ≤ 0x5A) || (0x60 ≤ c && c ≤ 0x67)

/-- 32 cell means, each 0 to 1023 (Table 4-2). -/
def cellsOk (cells : List (BitVec 16)) : Bool :=
  cells.length == 32 && cells.all (fun v => v.toNat ≤ 1023)

/-- The ranges of Table 3 (tension, gate temperature, cell means), Table 2-5 (the edge byte), Table 10-3 (where a
settings memory value can lie, and the indices), R178 (UNKNOWN) and Table 1-4 (the force flag of a RELEASE that is not
a RELEASE FORCE). -/
def WellFormed : Instr → Bool
  | .preloadValue offset index _ => 259 ≤ offset.toNat && offset.toNat + 1 < 4096 && index.toNat ≤ 127
  | .spliceEdge edge _ => edge.toNat ≤ 1
  | .tension gf => gf.toNat ≤ 1000
  | .gateTemp temp => temp.toNat ≤ 1000
  | .row _ _ ir visible => cellsOk ir && cellsOk visible
  | .unknownCommand _ code => !commandCode code.toNat
  | .release _ (some args) => args.force != 1
  | _ => true

end Sys2Proof
end

