-- ==== Sys2Proof/Decode.lean ====
section
/-! DEFINITION. From bytes to commands. The rows of spec/opcode_table.json give no bits, so `decodeTableWord` answers
`none`. What the part itself reads byte by byte is here too: a select frame of a station port (R175, R178, Table 10-1),
a message of the head link (R47, Table 2-5) and the settings memory (R191, R192, Table 10-3). All three are total:
what the manual does not accept becomes the command the table has for it (FRAME_IGNORED, REQUEST_MALFORMED,
UNKNOWN_COMMAND, HEAD_MESSAGE_DISCARDED, PRELOAD_END). -/

namespace Sys2Proof

/-- The command a word spells by the table's bits: no row of the table has any. -/
def decodeTableWord (_nbits _w : Nat) : Option Instr := none

/-- Multi-byte numbers come least significant byte first (section 10.2). -/
def le16 (b0 b1 : Byte) : BitVec 16 := b1 ++ b0
def le24 (b0 b1 b2 : Byte) : BitVec 24 := b2 ++ b1 ++ b0
def le32 (b0 b1 b2 b3 : Byte) : BitVec 32 := b3 ++ b2 ++ b1 ++ b0

/-- The operands of one byte, two, three or four bytes; `none` when the operands are too short (R178). Bytes beyond
what a command needs are ignored (R175, R178). -/
def operand8 : List Byte → Option Byte
  | b0 :: _ => some b0
  | _ => none
def operand16 : List Byte → Option (BitVec 16)
  | b0 :: b1 :: _ => some (le16 b0 b1)
  | _ => none
def operand24 : List Byte → Option (BitVec 24)
  | b0 :: b1 :: b2 :: _ => some (le24 b0 b1 b2)
  | _ => none
def operand32 : List Byte → Option (BitVec 32)
  | b0 :: b1 :: b2 :: b3 :: _ => some (le32 b0 b1 b2 b3)
  | _ => none

/-- Layer values: gain and lift of R, G and B (R177). -/
def operandLayer : List Byte → Option LayerArgs
  | r0 :: r1 :: r2 :: r3 :: g0 :: g1 :: g2 :: g3 :: b0 :: b1 :: b2 :: b3 :: _ =>
    some ⟨⟨le16 r0 r1, le16 r2 r3⟩, ⟨le16 g0 g1, le16 g2 g3⟩, ⟨le16 b0 b1, le16 b2 b3⟩⟩
  | _ => none

def operandSetting : List Byte → Option SettingArgs
  | i :: v0 :: v1 :: _ => some ⟨i, le16 v0 v1⟩
  | _ => none
def operandAdmit : List Byte → Option AdmitArgs
  | c0 :: c1 :: c2 :: g :: a :: sl :: _ => some ⟨le24 c0 c1 c2, g, a, sl⟩
  | _ => none
def operandCondition : List Byte → Option ConditionArgs
  | h :: a :: _ => some ⟨h, a⟩
  | _ => none
def operandShuttle : List Byte → Option ShuttleArgs
  | d :: v0 :: v1 :: _ => some ⟨d, le16 v0 v1⟩
  | _ => none
def operandPitch : List Byte → Option PitchArgs
  | p0 :: p1 :: f0 :: f1 :: s0 :: s1 :: m0 :: m1 :: _ => some ⟨le16 p0 p1, le16 f0 f1, le16 s0 s1, le16 m0 m1⟩
  | _ => none
def operandReg : List Byte → Option RegArgs
  | l0 :: l1 :: i :: s0 :: s1 :: w :: g :: a :: _ => some ⟨le16 l0 l1, i, le16 s0 s1, w, g, a⟩
  | _ => none
def operandComplete : List Byte → Option CompleteArgs
  | i0 :: i1 :: s0 :: s1 :: s2 :: s3 :: o :: _ => some ⟨le16 i0 i1, le32 s0 s1 s2 s3, o⟩
  | _ => none
def operandClaim : List Byte → Option ClaimArgs
  | i0 :: i1 :: s0 :: s1 :: s2 :: s3 :: _ => some ⟨le16 i0 i1, le32 s0 s1 s2 s3⟩
  | _ => none
def operandDamageList : List Byte → Option DamageListArgs
  | h :: f0 :: f1 :: p0 :: p1 :: c :: _ => some ⟨h, le16 f0 f1, le16 p0 p1, c⟩
  | _ => none
def operandRescan : List Byte → Option RescanArgs
  | h :: f0 :: f1 :: l0 :: l1 :: _ => some ⟨h, le16 f0 f1, le16 l0 l1⟩
  | _ => none
def operandShotList : List Byte → Option ShotListArgs
  | h :: f0 :: f1 :: c :: _ => some ⟨h, le16 f0 f1, c⟩
  | _ => none
def operandBase : List Byte → Option BaseArgs
  | h :: rest => (operandLayer rest).map (fun l => ⟨h, l⟩)
  | _ => none
def operandPush : List Byte → Option PushArgs
  | s0 :: s1 :: rest => (operandLayer rest).map (fun l => ⟨le16 s0 s1, l⟩)
  | _ => none
def operandSetLayer : List Byte → Option SetLayerArgs
  | s0 :: s1 :: v :: rest => (operandLayer rest).map (fun l => ⟨le16 s0 s1, v, l⟩)
  | _ => none
def operandFlicker : List Byte → Option FlickerArgs
  | s0 :: s1 :: e :: _ => some ⟨le16 s0 s1, e⟩
  | _ => none
def operandSplit : List Byte → Option SplitArgs
  | s0 :: s1 :: f0 :: f1 :: _ => some ⟨le16 s0 s1, le16 f0 f1⟩
  | _ => none
def operandGradeQuery : List Byte → Option GradeQueryArgs
  | h :: f0 :: f1 :: _ => some ⟨h, le16 f0 f1⟩
  | _ => none
def operandMove : List Byte → Option MoveArgs
  | e :: h :: _ => some ⟨e, h⟩
  | _ => none
def operandPositions : List Byte → Option PositionsArgs
  | k :: f :: c :: _ => some ⟨k, f, c⟩
  | _ => none

/-- RELEASE and RELEASE FORCE share code 0x17; the force flag tells them apart (Table 1-4). -/
def decodeRelease (rq : Rq) : List Byte → Instr
  | h :: f :: _ => if f = 1 then .releaseForce rq h else .release rq (some ⟨h, f⟩)
  | _ => .release rq none

/-- The command a request names by its code (Table 10-4 and the group tables), with its operand bytes. -/
def decodeCommand (rq : Rq) (code : Byte) (ops : List Byte) : Instr :=
  match code.toNat with
  | 0x00 => .readAlerts rq
  | 0x01 => .ackAlerts rq (operand32 ops)
  | 0x02 => .setAlertMask rq (operand32 ops)
  | 0x03 => .getSetting rq (operand8 ops)
  | 0x04 => .setSetting rq (operandSetting ops)
  | 0x05 => .portReset rq
  | 0x10 => .reelQuery rq (operand8 ops)
  | 0x11 => .reelFind rq (operand24 ops)
  | 0x12 => .admitReel rq (operandAdmit ops)
  | 0x13 => .setCondition rq (operandCondition ops)
  | 0x14 => .request rq (operand8 ops)
  | 0x15 => .cancel rq (operand8 ops)
  | 0x16 => .returnReel rq (operand8 ops)
  | 0x17 => decodeRelease rq ops
  | 0x20 => .thread rq (operand8 ops)
  | 0x21 => .unthread rq
  | 0x22 => .setOrigin rq
  | 0x23 => .inch rq (operand32 ops)
  | 0x24 => .shuttle rq (operandShuttle ops)
  | 0x25 => .scan rq (operand16 ops)
  | 0x26 => .pause rq
  | 0x27 => .resume rq
  | 0x28 => .stop rq
  | 0x29 => .clearFault rq
  | 0x2A => .stagePitch rq (operandPitch ops)
  | 0x2B => .stageReg rq (operandReg ops)
  | 0x2C => .commit rq
  | 0x2D => .readPitch rq
  | 0x2E => .readFrames rq (operand8 ops)
  | 0x2F => .clearGate rq
  | 0x30 => .transportStatus rq
  | 0x40 => .claimNext rq (operand8 ops)
  | 0x41 => .complete rq (operandComplete ops)
  | 0x42 => .releaseClaim rq (operandClaim ops)
  | 0x43 => .releaseAll rq
  | 0x44 => .damageList rq (operandDamageList ops)
  | 0x45 => .rescanAdd rq (operandRescan ops)
  | 0x50 => .shotList rq (operandShotList ops)
  | 0x51 => .setBase rq (operandBase ops)
  | 0x52 => .pushLayer rq (operandPush ops)
  | 0x53 => .popLayer rq (operand16 ops)
  | 0x54 => .setLayer rq (operandSetLayer ops)
  | 0x55 => .setFlicker rq (operandFlicker ops)
  | 0x56 => .split rq (operandSplit ops)
  | 0x57 => .merge rq (operand16 ops)
  | 0x58 => .approve rq (operand16 ops)
  | 0x59 => .reopen rq (operand16 ops)
  | 0x5A => .gradeQuery rq (operandGradeQuery ops)
  | 0x60 => .takeMove rq
  | 0x61 => .moveDone rq
  | 0x62 => .moveFailed rq
  | 0x63 => .retry rq (operandMove ops)
  | 0x64 => .cancelMove rq (operandMove ops)
  | 0x65 => .bayClimate rq (operand8 ops)
  | 0x66 => .positions rq (operandPositions ops)
  | 0x67 => .moveList rq
  | _ => .unknownCommand rq code

/-- One select frame of a port, as the bytes the station clocked: the marker, then a request's header and operands
(R175, Table 10-1). The framing checks are made here; UNKNOWN, the access check and short operands are decided when
the command is carried out, after the preload check (R175, R178). -/
def decodeFrame (p : Port) : List Byte → Instr
  | [] => .frameIgnored p
  | marker :: rest =>
    if marker = 0x01 then
      match rest with
      | code :: tag :: len :: ops =>
        if len.toNat ≤ 128 ∧ len.toNat ≤ ops.length then decodeCommand ⟨p, tag⟩ code (ops.take len.toNat)
        else .requestMalformed p (some tag)
      | _ :: tag :: _ => .requestMalformed p (some tag)
      | _ => .requestMalformed p none
    else if marker = 0x02 then .responseRead p rest.length
    else .frameIgnored p

/-- Two-byte fields, least significant byte first. -/
def fields16 : List Byte → List (BitVec 16)
  | b0 :: b1 :: rest => le16 b0 b1 :: fields16 rest
  | _ => []

/-- A message from the head (R47, Table 2-5): a type code and fields of exactly its type's length. Any other message is
discarded. -/
def decodeHeadMessage : List Byte → Instr
  | [t, p0, p1, p2, p3] =>
    if t = 0x01 then .position (le32 p0 p1 p2 p3)
    else if t = 0x02 then .frameLine (le32 p0 p1 p2 p3)
    else .headMessageDiscarded
  | [t, e, p0, p1, p2, p3] => if t = 0x03 then .spliceEdge e (le32 p0 p1 p2 p3) else .headMessageDiscarded
  | [t, v0, v1] =>
    if t = 0x04 then .tension (le16 v0 v1)
    else if t = 0x05 then .gateTemp (le16 v0 v1)
    else .headMessageDiscarded
  | t :: k0 :: k1 :: r :: cells =>
    if t = 0x06 ∧ cells.length = 128 then
      .row (le16 k0 k1) r (fields16 (cells.take 64)) (fields16 (cells.drop 64))
    else .headMessageDiscarded
  | _ => .headMessageDiscarded

/-- A byte of the settings memory; a byte that does not answer reads as 0xFF (R191). -/
def memoryByte (mem : List Byte) (offset : Nat) : Byte := mem.getD offset 0xFF

/-- The values of one record from the k-th on, `left` of them: first index `i`, first value byte at `offset`. Answers the
commands, and whether the preload ended within the record (R191, R192). -/
def preloadValues (mem : List Byte) : (left i offset : Nat) → List Instr × Bool
  | 0, _, _ => ([], false)
  | left + 1, i, offset =>
    if i > 127 then ([.preloadEnd .indexBeyond], true)
    else if offset + 1 ≥ 4096 then ([.preloadEnd .areaEnd], true)
    else
      let rest := preloadValues mem left (i + 1) (offset + 2)
      (.preloadValue (BitVec.ofNat 16 offset) (BitVec.ofNat 16 i)
        (le16 (memoryByte mem offset) (memoryByte mem (offset + 1))) :: rest.1, rest.2)

/-- The records from `offset` on. A record takes at least four bytes, so 1024 of them pass offset 4096. -/
def preloadRecords (mem : List Byte) : (fuel offset : Nat) → List Instr
  | 0, _ => [.preloadEnd .areaEnd]
  | fuel + 1, offset =>
    if offset + 1 ≥ 4096 then [.preloadEnd .areaEnd]
    else
      let n := (memoryByte mem (offset + 1)).toNat
      if n = 0 then [.preloadEnd .endRecord]
      else
        let values := preloadValues mem n (memoryByte mem offset).toNat (offset + 2)
        if values.2 then values.1 else values.1 ++ preloadRecords mem fuel (offset + 2 + 2 * n)

/-- The commands a settings memory gives the preload, byte n of the list at offset n (R191, R192, Table 10-3). -/
def decodeSettingsMemory (mem : List Byte) : List Instr :=
  if memoryByte mem 256 = 0xA5 then preloadRecords mem 1024 257 else [.preloadEnd .badSignature]

end Sys2Proof
end

