-- ==== Sys2Proof/Config.lean ====
section
/-! DEFINITION. The sizes and fixed times the manual gives the part. They are no settings: nothing writes them.
The manual leaves no RESULT of a command open (NOTES.md, Assumptions), so there is no free value here. -/

namespace Sys2Proof.Config

/-- Reel table entries (section 1.1). -/
abbrev reels : Nat := 96
/-- Ranges in a rescan list (R18). -/
abbrev rescanRanges : Nat := 8
/-- Milliseconds a force confirmation stays open (R15). -/
abbrev confirmMs : Nat := 10000
/-- Entries of the splice queue (R42). -/
abbrev splices : Nat := 4
/-- Milliseconds without a head report before the link is silent or no longer alive (R38). -/
abbrev silenceMs : Nat := 50
/-- Age in milliseconds at which an open frame context closes (R78). -/
abbrev contextMs : Nat := 100
/-- Millisecond ticks of a second, second ticks of a minute (R190). -/
abbrev secondMs : Nat := 1000
abbrev minuteSeconds : Nat := 60
/-- Queue length that adds BACKPRESSURE, and the length at or below which it is removed (R34). -/
abbrev pressureOn : Nat := 30
abbrev pressureOff : Nat := 16
/-- The last frame number (R46). -/
abbrev lastFrame : Nat := 65535
/-- Entries of a region table (section 5.1). -/
abbrev regions : Nat := 24
/-- Damage records (section 6.1). -/
abbrev damage : Nat := 1024
/-- Claims a port may hold (R104). -/
abbrev claims : Nat := 16
/-- Gate-dirt entries, and record references of a chain (R103, Table 6-2). -/
abbrev gateEntries : Nat := 8
abbrev chainRefs : Nat := 15
/-- Shot records (R127), and layers of a stack (Table 8-1). -/
abbrev shots : Nat := 512
abbrev layers : Nat := 7
/-- Slots, the first slot of the ISOLATION zone, bay and staging positions, move queue entries (Tables 9-1 and 9-2). -/
abbrev slots : Nat := 80
abbrev isolation : Nat := 64
abbrev bays : Nat := 8
abbrev stagings : Nat := 8
abbrev moves : Nat := 16
/-- Film tension below which TENSION_LOW counts (Table 2-2). -/
abbrev tensionLow : Nat := 20

end Sys2Proof.Config
end

