-- ==== Sys2Proof/Machine/Table.lean ====
section
/-! DEFINITION. The operations of the plain data shapes of Word.lean: sparse tables in one canonical form (numbers
strictly rising), one value per port, one value per frame context, and a stable ordering of lists. -/

namespace Sys2Proof

/-- The content of entry `i`; `none` when the entry is free. -/
def Table.read {α : Type} : Table α → Nat → Option α
  | [], _ => none
  | (k, v) :: rest, i => if k = i then some v else Table.read rest i

/-- Fill entry `i`, in its place. -/
def Table.write {α : Type} : Table α → Nat → α → Table α
  | [], i, x => [(i, x)]
  | (k, v) :: rest, i, x =>
    if i < k then (i, x) :: (k, v) :: rest
    else if i = k then (i, x) :: rest
    else (k, v) :: Table.write rest i x

/-- Free entry `i`. -/
def Table.erase {α : Type} (t : Table α) (i : Nat) : Table α := t.filter (fun e => e.1 != i)

/-- Change entry `i`, if it is in use. -/
def Table.modify {α : Type} (t : Table α) (i : Nat) (f : α → α) : Table α :=
  match t.read i with
  | some x => t.write i (f x)
  | none => t

/-- The first free entry among `count` entries from `i` on. -/
def Table.firstFreeFrom {α : Type} (t : Table α) : (count i : Nat) → Option Nat
  | 0, _ => none
  | count + 1, i => if (t.read i).isNone then some i else Table.firstFreeFrom t count (i + 1)

/-- The lowest-numbered free entry of a table of `n` entries. -/
def Table.firstFree {α : Type} (t : Table α) (n : Nat) : Option Nat := Table.firstFreeFrom t n 0

/-- The canonical form: entry numbers strictly rising. -/
def Table.wf {α : Type} (t : Table α) : Bool := (t.map (·.1)).Pairwise (· < ·)

def PerPort.same {α : Type} (x : α) : PerPort α := ⟨x, x, x, x⟩

def PerPort.get {α : Type} (v : PerPort α) : Port → α
  | .a => v.a
  | .b => v.b
  | .c => v.c
  | .d => v.d

def PerPort.set {α : Type} (v : PerPort α) (p : Port) (x : α) : PerPort α :=
  match p with
  | .a => { v with a := x }
  | .b => { v with b := x }
  | .c => { v with c := x }
  | .d => { v with d := x }

def PerPort.map {α β : Type} (f : α → β) (v : PerPort α) : PerPort β := ⟨f v.a, f v.b, f v.c, f v.d⟩

/-- The number of a port, A to D (Table 10-8, damage state). -/
def Port.number : Port → Nat
  | .a => 0
  | .b => 1
  | .c => 2
  | .d => 3

def Two.same {α : Type} (x : α) : Two α := ⟨x, x⟩

def Two.get {α : Type} (v : Two α) : CtxId → α
  | .c0 => v.zero
  | .c1 => v.one

def Two.set {α : Type} (v : Two α) (c : CtxId) (x : α) : Two α :=
  match c with
  | .c0 => { v with zero := x }
  | .c1 => { v with one := x }

def CtxId.other : CtxId → CtxId
  | .c0 => .c1
  | .c1 => .c0

/-- Insert `x` before the first element that is strictly after it. -/
def insertBy {α : Type} (before : α → α → Bool) (x : α) : List α → List α
  | [] => [x]
  | y :: rest => if before x y then x :: y :: rest else y :: insertBy before x rest

/-- Order a list; elements neither of which comes before the other keep their order. -/
def sortBy {α : Type} (before : α → α → Bool) (l : List α) : List α := l.foldl (fun acc x => insertBy before x acc) []

/-- A value held within [lo, hi] (section 5.3). -/
def clampNat (lo hi v : Nat) : Nat := if v < lo then lo else if hi < v then hi else v
def clampInt (lo hi v : Int) : Int := if v < lo then lo else if hi < v then hi else v

/-- round_div(a, b) half away from zero, for b above 0 (section 5.3). -/
def roundDiv (a : Int) (b : Nat) : Int :=
  if a < 0 then -(((2 * (-a) + b) / (2 * b) : Int)) else (2 * a + b) / (2 * b)

end Sys2Proof
end

