-- ==== Sys2Proof/Machine/Settings.lean ====
section
/-! DEFINITION. The settings of CFG (R189, Table 11-3; Tables 2-4, 5-6, 6-4, 7-4, 9-5, 10-7, 11-2): index, default and
what a write stores. -/

namespace Sys2Proof

/-- What a write of a setting stores: a value clamped to a range, or only the route bits of a route setting (R186). -/
inductive SettingRange where
  | span (lo hi : Nat)
  | route (bits : Nat)
deriving DecidableEq, Repr

/-- One row of Table 11-3. -/
structure SettingRow where
  index   : Nat
  default : Nat
  range   : SettingRange
deriving DecidableEq, Repr

namespace Setting
abbrev roleA : Nat := 0
abbrev accessCheck : Nat := 4
abbrev routeA : Nat := 8
abbrev inchSpeed : Nat := 16
abbrev spliceSpeed : Nat := 17
abbrev lightFull : Nat := 18
abbrev lightHold : Nat := 19
abbrev holdLightLimit : Nat := 20
abbrev tensionDelay : Nat := 21
abbrev gateTempLimit : Nat := 22
abbrev gateTempRecover : Nat := 23
abbrev gateTempDelay : Nat := 24
abbrev spliceLead : Nat := 25
abbrev spliceMargin : Nat := 26
abbrev irThreshold : Nat := 48
abbrev gatePersist : Nat := 49
abbrev gateAbsent : Nat := 50
abbrev cutThreshold : Nat := 64
abbrev minShot : Nat := 65
abbrev flickerShift : Nat := 66
abbrev flickerMin : Nat := 67
abbrev flickerMax : Nat := 68
abbrev acclimOut35 : Nat := 80
abbrev acclimOut16 : Nat := 81
abbrev acclimFragileExtra : Nat := 82
abbrev acclimIn : Nat := 83
end Setting

/-- Bits a low half stores: all but bit 14, CLAIM_VOIDED (R186). -/
def routeLowBits : Nat := 0xBFFF
/-- Bits a high half stores: bits 0 to 7, kinds 16 to 23 (R186). -/
def routeHighBits : Nat := 0x00FF

/-- Table 11-3, in index order. -/
def settingRows : List SettingRow := [
  ⟨0, 1, .span 0 4⟩, ⟨1, 2, .span 0 4⟩, ⟨2, 3, .span 0 4⟩, ⟨3, 4, .span 0 4⟩,
  ⟨4, 1, .span 0 1⟩,
  ⟨8, 40959, .route routeLowBits⟩, ⟨9, 32, .route routeHighBits⟩,
  ⟨10, 46080, .route routeLowBits⟩, ⟨11, 0, .route routeHighBits⟩,
  ⟨12, 32768, .route routeLowBits⟩, ⟨13, 3, .route routeHighBits⟩,
  ⟨14, 0, .route routeLowBits⟩, ⟨15, 252, .route routeHighBits⟩,
  ⟨16, 20, .span 1 50⟩, ⟨17, 20, .span 5 60⟩,
  ⟨18, 900, .span 0 1023⟩, ⟨19, 150, .span 0 204⟩, ⟨20, 30, .span 5 300⟩,
  ⟨21, 10, .span 0 50⟩,
  ⟨22, 450, .span 200 900⟩, ⟨23, 400, .span 100 890⟩, ⟨24, 2, .span 0 10⟩,
  ⟨25, 60000, .span 10000 65000⟩, ⟨26, 5000, .span 0 20000⟩,
  ⟨48, 600, .span 0 1023⟩, ⟨49, 5, .span 3 16⟩, ⟨50, 8, .span 2 64⟩,
  ⟨64, 96, .span 16 1023⟩, ⟨65, 6, .span 1 48⟩, ⟨66, 3, .span 2 6⟩,
  ⟨67, 3277, .span 2048 4096⟩, ⟨68, 4915, .span 4096 8192⟩,
  ⟨80, 240, .span 10 720⟩, ⟨81, 150, .span 10 720⟩, ⟨82, 60, .span 10 720⟩, ⟨83, 90, .span 10 720⟩]

/-- The row of an index; `none` when the index names no setting. -/
def settingRow (i : Nat) : Option SettingRow := settingRows.find? (fun r => r.index == i)

/-- What a write of `v` stores (R189, R186). -/
def SettingRange.store : SettingRange → Nat → Nat
  | .span lo hi, v => clampNat lo hi v
  | .route bits, v => v &&& bits

/-- Is `v` a value the setting can hold? -/
def SettingRange.admits : SettingRange → Nat → Bool
  | .span lo hi, v => lo ≤ v && v ≤ hi
  | .route bits, v => v &&& bits == v

/-- Every setting at its default (R189). -/
def settingDefaults : Table Nat := settingRows.map (fun r => (r.index, r.default))

/-- The index of a port's role setting (Table 10-7). -/
def roleIndex (p : Port) : Nat := Setting.roleA + p.number

/-- The indices of a port's route settings, low and high half (R186). -/
def routeLowIndex (p : Port) : Nat := Setting.routeA + 2 * p.number
def routeHighIndex (p : Port) : Nat := Setting.routeA + 2 * p.number + 1

/-- The port a role setting belongs to. -/
def rolePort : Nat → Option Port
  | 0 => some .a
  | 1 => some .b
  | 2 => some .c
  | 3 => some .d
  | _ => none

/-- Role codes (R180). -/
inductive Role where
  | none | scan | repair | grade | vault
deriving DecidableEq, Repr

def Role.ofCode : Nat → Role
  | 1 => .scan
  | 2 => .repair
  | 3 => .grade
  | 4 => .vault
  | _ => .none

end Sys2Proof
end

