-- ==== Sys2Proof/Machine/State.lean ====
section
/-! DEFINITION. Everything the manual says the GJ-440 holds, block by block (00_scope, Table 2), as plain data, and the
state after RESET. INVENTORY.md lists each field with the rule that names it. -/

namespace Sys2Proof.Machine

/-! ### REG: the reel table (chapter 1) -/

/-- Film gauges (00_scope, Table 4). -/
inductive Gauge where
  | g35x4 | g35x3 | g16
deriving DecidableEq, Repr

/-- Where a reel, or a move's end, can be (Table 1-1, Table 9-1, Table 10-8). -/
inductive Place where
  | slot (n : Nat)
  | bay (n : Nat)
  | staging (n : Nat)
  | transport
  | gripper
  | exit
deriving DecidableEq, Repr

/-- Circulation states (Table 1-2). -/
inductive Circulation where
  | shelved | outbound | ready | threaded | inbound | dispatching
deriving DecidableEq, Repr

/-- A frame range [first, last] (R18). -/
structure FrameRange where
  first : Nat
  last  : Nat
deriving DecidableEq, Repr

/-- One channel entry of a layer: a gain in Q4.12 and a lift (section 8.1). -/
structure Channel where
  gain : Nat
  lift : Int
deriving DecidableEq, Repr

/-- A grade layer, one entry for each of R, G and B. -/
structure Layer where
  r : Channel
  g : Channel
  b : Channel
deriving DecidableEq, Repr

/-- The record of an admitted reel (Table 1-1). The home slot is never absent in an admitted record; the shots are the
reel's records of the shot pool. -/
structure Reel where
  catalogue   : Nat
  gauge       : Gauge
  acidity     : Nat
  shrinkage   : Option Nat
  fragile     : Bool
  location    : Place
  home        : Nat
  circulation : Circulation
  relocation  : Bool
  frontier    : Nat
  rescan      : List FrameRange
  queued      : Nat
  claimed     : Nat
  closed      : Nat
  lostArea    : Nat
  splices     : Nat
  base        : Layer
deriving DecidableEq, Repr

/-- An open force confirmation (R15). -/
structure Confirmation where
  handle    : Nat
  remaining : Nat
deriving DecidableEq, Repr

structure Reg where
  reels   : Table Reel
  confirm : PerPort (Option Confirmation)
deriving DecidableEq, Repr

/-! ### TRC: the transport (chapter 2) -/

/-- A timer: idle, or running with the ticks that remain. `some 0` has reached 0 and its expiry has not been taken. -/
abbrev Timer := Option Nat

inductive TransportState where
  | unthreaded | threaded | inching | shuttle | scanning | hold | backup | fault
deriving DecidableEq, Repr

inductive FaultCause where
  | tensionHigh | tensionLow | headSilent | estop
deriving DecidableEq, Repr

/-- The hold-cause set (R34). -/
structure HoldSet where
  backpressure : Bool
  gateHot      : Bool
  operator     : Bool
deriving DecidableEq, Repr

/-- Transport profiles (Table 2-2). -/
inductive Profile where
  | normal | fragile
deriving DecidableEq, Repr

/-- A splice queue entry (R42): the fall position is absent while the entry is open. -/
structure Splice where
  rise : Int
  fall : Option Int
deriving DecidableEq, Repr

/-- A running inch (R29): its target, and whether its distance is positive. -/
structure Inch where
  target  : Int
  forward : Bool
deriving DecidableEq, Repr

structure Trc where
  state         : TransportState
  fault         : Option FaultCause
  holds         : HoldSet
  profile       : Profile
  scanSpeed     : Nat
  shuttleTarget : Int
  capstan       : Int
  light         : Nat
  position      : Int
  handle        : Option Nat
  inch          : Option Inch
  backupTarget  : Option Int
  spliceQueue   : List Splice
  edgeMark      : Int
  inZone        : Bool
  tensionHigh   : Timer
  tensionLow    : Timer
  holdLight     : Timer
  gateDelay     : Timer
  gateHot       : Bool
  reportAge     : Nat
  silence       : Nat
  estop         : Bool
  linkSeen      : Bool
deriving DecidableEq, Repr

/-! ### PRU: pitch and registration (chapter 3) -/

/-- A pitch: integer part, primary fraction F1/65536, secondary fraction F2/(M2·65536) (00_scope, 5.2). -/
structure Pitch where
  pInt : Nat
  f1   : Nat
  f2   : Nat
  m2   : Nat
deriving DecidableEq, Repr

/-- The registration values (section 3.1). -/
structure RegValues where
  lw     : Nat
  index  : Nat
  search : Nat
  w      : Nat
  g      : Nat
  adapt  : Nat
deriving DecidableEq, Repr

inductive LockState where
  | unlocked | locked | seeking
deriving DecidableEq, Repr

/-- A film position with the frame number it belongs to: an anchor, or an expectation (Table 3-2). -/
structure Mark where
  pos   : Int
  frame : Nat
deriving DecidableEq, Repr

/-- The last line (Table 3-2). -/
structure LastLine where
  frame    : Nat
  pos      : Int
  measured : Bool
deriving DecidableEq, Repr

/-- The adaptation window (Table 3-2). -/
inductive AdaptWindow where
  | off
  | restart
  | frame (n : Nat)
deriving DecidableEq, Repr

structure Pru where
  live          : Pitch
  staged        : Pitch
  liveReg       : RegValues
  stagedReg     : RegValues
  commitPending : Bool
  gauge         : Gauge
  origin        : Option Int
  anchor        : Option Mark
  a1            : Nat
  a2            : Nat
  expect        : Option Mark
  lastEdge      : Option Int
  lastLine      : Option LastLine
  lock          : LockState
  count         : Nat
  missing       : Nat
  reanchor      : Bool
  window        : AdaptWindow
  adapted       : Bool
  strays        : Nat
  /-- The frame whose line entered SEEKING, which PRU gives with the re-anchoring line (R60). -/
  seekFrom      : Option Nat
  /-- The present scan run has no further frame line (R51; R57, step 6). -/
  linesOver     : Bool
deriving DecidableEq, Repr

/-! ### FCU: frame contexts and frame records (chapter 4) -/

/-- An OPEN frame context (Table 4-1). `edge` is the registration error of a measured line, `none` a missing line. -/
structure Ctx where
  handle   : Nat
  frame    : Nat
  error    : Option Int
  offset   : Int
  locked   : Bool
  splice   : Bool
  reanch   : Bool
  skipped  : Nat
  nextRow  : Nat
  age      : Nat
deriving DecidableEq, Repr

/-- One gain and lift for each of R, G and B (R138). -/
structure Grade where
  r : Channel
  g : Channel
  b : Channel
deriving DecidableEq, Repr

/-- A frame record (Table 4-3). -/
structure FrameRecord where
  handle      : Nat
  frame       : Nat
  locked      : Bool
  lineMissing : Bool
  splice      : Bool
  incomplete  : Bool
  rescan      : Bool
  regionsFull : Bool
  damageLost  : Bool
  cut         : Bool
  cutLost     : Bool
  densityHeld : Bool
  error       : Int
  skipped     : Nat
  density     : Nat
  flicker     : Nat
  recorded    : Nat
  suppressed  : Nat
  shot        : Nat
  grade       : Grade
deriving DecidableEq, Repr

structure Fcu where
  /-- `none` is a FREE context. -/
  ctx       : Two (Option Ctx)
  /-- The context opened last: the newer of two OPEN contexts. -/
  newest    : CtxId
  nextFrame : Nat
  skips     : Nat
  strayRows : Nat
  queue     : List FrameRecord
deriving DecidableEq, Repr

/-! ### DSU: the damage survey (chapter 5) -/

/-- A column interval (Table 5-1). -/
structure Span where
  lo : Nat
  hi : Nat
deriving DecidableEq, Repr

/-- A box of rows and columns of the cell grid. -/
structure Box where
  rowMin : Nat
  rowMax : Nat
  colMin : Nat
  colMax : Nat
deriving DecidableEq, Repr

/-- A region table entry that is OPEN or CLOSED (Table 5-1). -/
structure Region where
  isOpen   : Bool
  box      : Box
  area     : Nat
  depth    : Nat
  previous : Option Span
  current  : Option Span
  extended : Bool
deriving DecidableEq, Repr

/-- A survey context (section 5.1). The mask is the list of the defective columns, rising. -/
structure Survey where
  regions   : Table Region
  threshold : Nat
  offset    : Int
  mask      : List Nat
  lostArea  : Nat
  full      : Bool
deriving DecidableEq, Repr

/-! ### RPQ: damage records and gate dirt (chapter 6) -/

inductive DamageClass where
  | dust | blotch | scratch
deriving DecidableEq, Repr

inductive Severity where
  | minor | moderate | major
deriving DecidableEq, Repr

inductive DamageOutcome where
  | repaired | accepted | needsRescan | gate | superseded | withdrawn
deriving DecidableEq, Repr

inductive DamageState where
  | queued
  | claimed (p : Port)
  | closed (o : DamageOutcome)
deriving DecidableEq, Repr

/-- A damage record (Table 6-1). -/
structure Damage where
  seq      : BitVec 32
  handle   : Nat
  frame    : Nat
  cls      : DamageClass
  severity : Severity
  film     : Box
  area     : Nat
  depth    : Nat
  state    : DamageState
  suspect  : Bool
  stale    : Bool
deriving DecidableEq, Repr

/-- A gate-dirt list entry (R114, R116). -/
structure GateEntry where
  box    : Box
  cls    : DamageClass
  absent : Nat
  hit    : Bool
deriving DecidableEq, Repr

/-- A reference to a damage record: its entry and its creation sequence (Table 6-2). -/
structure DamageRef where
  index : Nat
  seq   : BitVec 32
deriving DecidableEq, Repr

/-- A previous-frame region entry (Table 6-2). -/
structure PrevRegion where
  box    : Box
  cls    : DamageClass
  length : Nat
  refs   : List DamageRef
deriving DecidableEq, Repr

/-- The reel and frame number the previous-frame region list was built from (R110). -/
structure BuiltFrom where
  handle : Nat
  frame  : Nat
deriving DecidableEq, Repr

structure Rpq where
  damage     : Table Damage
  closedList : List Nat
  counter    : BitVec 32
  claims     : PerPort Nat
  gate       : List GateEntry
  prev       : List PrevRegion
  prevFrom   : Option BuiltFrom
deriving DecidableEq, Repr

/-! ### SHT and GRU: density, shots, grades (chapters 7 and 8) -/

/-- A density accumulator (Table 7-1). -/
structure Accumulator where
  sum   : Nat
  count : Nat
deriving DecidableEq, Repr

inductive ShotState where
  | editable | approved
deriving DecidableEq, Repr

inductive ShotOrigin where
  | detected | edited
deriving DecidableEq, Repr

/-- A shot record in use (Table 7-2). The state `editable` is the manual's OPEN. -/
structure Shot where
  handle  : Nat
  first   : Nat
  state   : ShotState
  flicker : Bool
  origin  : ShotOrigin
  stack   : List Layer
deriving DecidableEq, Repr

structure Sht where
  acc          : Two Accumulator
  previousM    : Option Nat
  lastFrame    : Option Nat
  firstPending : Bool
  ref16        : Nat
  previousF    : Nat
  pool         : Table Shot
deriving DecidableEq, Repr

/-! ### CAB: positions and moves (chapter 9) -/

/-- The occupancy of a position that is not EMPTY (section 9.1). -/
inductive Occupancy where
  | holding (handle : Nat)
  | reserved (entry : Nat)
  | held (entry : Nat)
deriving DecidableEq, Repr

inductive TimerState where
  | idle | running | done
deriving DecidableEq, Repr

inductive Direction where
  | outward | inward
deriving DecidableEq, Repr

/-- A bay timer (R155). -/
structure BayTimer where
  state     : TimerState
  direction : Direction
  remaining : Nat
deriving DecidableEq, Repr

inductive MoveKind where
  | fetchOut | toStaging | stageBack | shelve | relocate | dispatch
deriving DecidableEq, Repr

inductive MoveState where
  | queued | moving | blocked
deriving DecidableEq, Repr

/-- A move (Table 9-3). -/
structure Move where
  entry  : Nat
  kind   : MoveKind
  handle : Nat
  source : Place
  dest   : Option Place
  state  : MoveState
deriving DecidableEq, Repr

/-- A leg-due mark (R158). -/
structure LegDue where
  handle : Nat
  kind   : MoveKind
deriving DecidableEq, Repr

/-- The gripper when it holds a reel (R155). -/
structure Grip where
  handle : Nat
  entry  : Nat
deriving DecidableEq, Repr

structure Cab where
  slots      : Table Occupancy
  bays       : Table Occupancy
  stagings   : Table Occupancy
  bayTimers  : List BayTimer
  climateOut : Bool
  gripper    : Option Grip
  /-- The moves in the queue, in creation order; the entries no move names are free. -/
  moves      : List Move
  legDue     : List LegDue
  isoFull    : Bool
  eligible   : Bool
deriving DecidableEq, Repr

/-! ### SPT, ALT, CFG, TMB (chapters 10 and 11) -/

/-- A stored response: tag, status code and result bytes (Table 10-1). -/
structure Response where
  tag     : Byte
  status  : Byte
  results : List Byte
deriving DecidableEq, Repr

/-- What SPT holds for a port beside its role, which is a setting (R174). READY is asserted while a response is
pending. -/
structure PortState where
  response : Option Response
  overrun  : Bool
deriving DecidableEq, Repr

/-- A set of the 27 event kinds, one bit for each (Table 11-1). -/
abbrev AlertSet := BitVec 27

/-- What ALT holds for a port (R185). ALERT is driven low while `latched` and `mask` have a kind in common. -/
structure AlertState where
  latched : AlertSet
  mask    : AlertSet
deriving DecidableEq, Repr

structure Cfg where
  settings : Table Nat
  /-- The preload state: RUNNING or ENDED. -/
  running  : Bool
  offset   : Nat
deriving DecidableEq, Repr

/-- The counters of TMB (R190): 25 MHz cycles, millisecond ticks, second ticks. A count of 1000 ms or 60 s has wrapped,
and the tick it gives is still to be taken (assumption 9). -/
structure Tmb where
  cycles  : Nat
  millis  : Nat
  seconds : Nat
deriving DecidableEq, Repr

/-- A command to the head (Table 2-5). -/
inductive HeadCommand where
  | capstan (target : Int)
  | light (level : Nat)
  | capture (frame : Nat) (error : Int)
deriving DecidableEq, Repr

/-- What the part sent while it took the last command: commands to the head, in order, and the bytes shifted out of a
port in a response read frame, after the marker. The MODEL's own field. -/
structure Out where
  head    : List HeadCommand
  station : List Byte
deriving DecidableEq, Repr

/-! ### The whole part -/

structure State where
  reg     : Reg
  trc     : Trc
  pru     : Pru
  fcu     : Fcu
  dsu     : Two Survey
  rpq     : Rpq
  sht     : Sht
  cab     : Cab
  spt     : PerPort PortState
  alt     : PerPort AlertState
  cfg     : Cfg
  tmb     : Tmb
  out     : Out
  /-- The commands that wait, first in first out. The MODEL's own field. -/
  pending : List Instr
deriving DecidableEq, Repr

/-- No command of this part stops it: the manual gives every row of the opcode table an effect or an answer, so no
fault is named here, and that no step faults holds by the type. Safe. -/
inductive Fault where
deriving DecidableEq, Repr

/-- Refusals. -/
inductive Refusal where
  /-- Raised by `exec` alone, for a command whose meaning is not written yet; no arm of `exec` uses it now. Safe: the
  model stops where the part goes on. -/
  | notModelled (mnemonic : String)
deriving DecidableEq, Repr

/-! ### RESET -/

/-- All three causes absent. -/
def HoldSet.empty : HoldSet := ⟨false, false, false⟩

def Reg.reset : Reg := { reels := [], confirm := .same none }

/-- R22, R38, R41. The edge mark (0), the ESTOP level (released), the shuttle target (0), the inch target and the backup
target (both absent) are DESIGN CHOICES (assumptions 1 and 2). -/
def Trc.reset : Trc where
  state := .unthreaded
  fault := none
  holds := .empty
  profile := .normal
  scanSpeed := 0
  shuttleTarget := 0
  capstan := 0
  light := 0
  position := 0
  handle := none
  inch := none
  backupTarget := none
  spliceQueue := []
  edgeMark := 0
  inZone := false
  tensionHigh := none
  tensionLow := none
  holdLight := none
  gateDelay := none
  gateHot := false
  reportAge := 50
  silence := 0
  estop := false
  linkSeen := false

/-- Table 3-2. -/
def Pitch.reset : Pitch := ⟨19000, 0, 0, 2⟩
def RegValues.reset : RegValues := ⟨120, 2, 800, 4, 1, 1⟩

def Pru.reset : Pru where
  live := .reset
  staged := .reset
  liveReg := .reset
  stagedReg := .reset
  commitPending := false
  gauge := .g35x4
  origin := none
  anchor := none
  a1 := 0
  a2 := 0
  expect := none
  lastEdge := none
  lastLine := none
  lock := .unlocked
  count := 0
  missing := 0
  reanchor := false
  window := .off
  adapted := false
  strays := 0
  seekFrom := none
  linesOver := false

/-- R71. Which context counts as opened last before any was opened is a DESIGN CHOICE (assumption 1). -/
def Fcu.reset : Fcu :=
  { ctx := .same none, newest := .c1, nextFrame := 0, skips := 0, strayRows := 0, queue := [] }

/-- R84. -/
def Survey.reset : Survey := { regions := [], threshold := 0, offset := 0, mask := [], lostArea := 0, full := false }

/-- R103. -/
def Rpq.reset : Rpq :=
  { damage := [], closedList := [], counter := 0, claims := .same 0, gate := [], prev := [], prevFrom := none }

/-- R124, R127. -/
def Sht.reset : Sht :=
  { acc := .same ⟨0, 0⟩, previousM := none, lastFrame := none, firstPending := true, ref16 := 0, previousF := 4096,
    pool := [] }

/-- R155. The direction of an IDLE bay timer after RESET (OUT) is a DESIGN CHOICE (assumption 1). -/
def BayTimer.reset : BayTimer := ⟨.idle, .outward, 0⟩

def Cab.reset : Cab :=
  { slots := [], bays := [], stagings := [], bayTimers := List.replicate 8 .reset, climateOut := false, gripper := none,
    moves := [], legDue := [], isoFull := false, eligible := false }

/-- R185: nothing latched, all 27 kinds in the mask. -/
def AlertState.reset : AlertState := ⟨0, BitVec.allOnes 27⟩

/-- R189, R191: every setting at its default, the preload RUNNING, its first byte at offset 256. -/
def Cfg.reset : Cfg := { settings := settingDefaults, running := true, offset := 256 }

/-- The part right after RESET (R191), with no command waiting. -/
def State.reset : State where
  reg := .reset
  trc := .reset
  pru := .reset
  fcu := .reset
  dsu := .same .reset
  rpq := .reset
  sht := .reset
  cab := .reset
  spt := .same ⟨none, false⟩
  alt := .same .reset
  cfg := .reset
  tmb := ⟨0, 0, 0⟩
  out := ⟨[], []⟩
  pending := []

end Sys2Proof.Machine
end

