-- ==== Sys2Proof/Machine/Access.lean ====
section
/-! DEFINITION. The one way each block's state is replaced, and how a setting, a role and a route are read. -/

namespace Sys2Proof.Machine

def State.setReg (s : State) (x : Reg) : State := { s with reg := x }
def State.setTrc (s : State) (x : Trc) : State := { s with trc := x }
def State.setPru (s : State) (x : Pru) : State := { s with pru := x }
def State.setFcu (s : State) (x : Fcu) : State := { s with fcu := x }
def State.setDsu (s : State) (x : Two Survey) : State := { s with dsu := x }
def State.setRpq (s : State) (x : Rpq) : State := { s with rpq := x }
def State.setSht (s : State) (x : Sht) : State := { s with sht := x }
def State.setCab (s : State) (x : Cab) : State := { s with cab := x }
def State.setSpt (s : State) (x : PerPort PortState) : State := { s with spt := x }
def State.setAlt (s : State) (x : PerPort AlertState) : State := { s with alt := x }
def State.setCfg (s : State) (x : Cfg) : State := { s with cfg := x }
def State.setTmb (s : State) (x : Tmb) : State := { s with tmb := x }
def State.setOut (s : State) (x : Out) : State := { s with out := x }
def State.setPending (s : State) (x : List Instr) : State := { s with pending := x }

/-- The value of a setting as it stands (R189). -/
def State.setting (s : State) (i : Nat) : Nat := (s.cfg.settings.read i).getD 0

/-- The role of a port (R174, R180). -/
def State.role (s : State) (p : Port) : Role := Role.ofCode (s.setting (roleIndex p))

/-- The route set of a port: bits 0 to 15 from the low half, bits 16 to 26 from the high half (R186). -/
def State.route (s : State) (p : Port) : AlertSet :=
  BitVec.ofNat 27 (s.setting (routeLowIndex p) % 65536 + s.setting (routeHighIndex p) * 65536)

/-- The record of an admitted reel. -/
def State.reel (s : State) (h : Nat) : Option Reel := s.reg.reels.read h

/-- READY of a port: asserted while a response is pending (R175, R176). -/
def State.ready (s : State) (p : Port) : Bool := (s.spt.get p).response.isSome

/-- ALERT of a port, true when the output is driven low (R185). -/
def State.alertLow (s : State) (p : Port) : Bool := (s.alt.get p).latched &&& (s.alt.get p).mask != 0

/-- The head link is alive (R38). -/
def State.linkAlive (s : State) : Bool := s.trc.reportAge < Config.silenceMs

/-- Change the record of an admitted reel. -/
def State.modReel (s : State) (h : Nat) (f : Reel → Reel) : State :=
  s.setReg { s.reg with reels := s.reg.reels.modify h f }

/-- Change what SPT holds for a port. -/
def State.setPort (s : State) (p : Port) (x : PortState) : State := s.setSpt (s.spt.set p x)

/-- Send a command to the head. -/
def State.send (s : State) (c : HeadCommand) : State := s.setOut { s.out with head := s.out.head ++ [c] }

end Sys2Proof.Machine
end

