-- ==== Sys2Proof/Machine/Flags.lean ====
section
/-! DEFINITION. The part's flags: the event kinds and the latched alert sets (R185, R186), and the raw conditions
(R188). -/

namespace Sys2Proof.Machine

/-- The 27 event kinds, in the order of their bits (Table 11-1). -/
inductive Event where
  | lockGained | lockLost | seeking | pitchLimit | holdEntered | transportFault | gateHot | frameLimit
  | framesWaiting | frameSkipped | gateDirt | gateListFull | damageLost | repairWaiting | claimVoided | rescanAdded
  | shotsFull | shotReopened | moveReady | moveFailed | isolationFull | reelReady | relocationQueued | acclimDone
  | portOverrun | accessDenied | preloadError
deriving DecidableEq, Repr

/-- The bit of an event kind (Table 11-1). -/
def Event.bit : Event → Nat
  | .lockGained => 0
  | .lockLost => 1
  | .seeking => 2
  | .pitchLimit => 3
  | .holdEntered => 4
  | .transportFault => 5
  | .gateHot => 6
  | .frameLimit => 7
  | .framesWaiting => 8
  | .frameSkipped => 9
  | .gateDirt => 10
  | .gateListFull => 11
  | .damageLost => 12
  | .repairWaiting => 13
  | .claimVoided => 14
  | .rescanAdded => 15
  | .shotsFull => 16
  | .shotReopened => 17
  | .moveReady => 18
  | .moveFailed => 19
  | .isolationFull => 20
  | .reelReady => 21
  | .relocationQueued => 22
  | .acclimDone => 23
  | .portOverrun => 24
  | .accessDenied => 25
  | .preloadError => 26

/-- The alert set that holds one kind. -/
def Event.mask (e : Event) : AlertSet := BitVec.ofNat 27 (2 ^ e.bit)

/-- Does a set hold a kind? -/
def AlertSet.has (a : AlertSet) (e : Event) : Bool := a &&& e.mask != 0

/-- Latch a kind for a port (R185). A kind already latched stays latched. -/
def AlertState.latch (x : AlertState) (e : Event) : AlertState := { x with latched := x.latched ||| e.mask }

/-- Raise an event with a fixed route of one port: CLAIM_VOIDED, PORT_OVERRUN, ACCESS_DENIED (R186). -/
def raiseFor (p : Port) (e : Event) (s : State) : State := s.setAlt (s.alt.set p ((s.alt.get p).latch e))

/-- Raise an event for all four ports: PRELOAD_ERROR (R186). -/
def raiseAll (e : Event) (s : State) : State := s.setAlt (s.alt.map (fun x => x.latch e))

/-- What ALT latches for one port when an event with a routed kind is raised (R186). -/
def routed (e : Event) (s : State) (p : Port) : AlertState :=
  if AlertSet.has (s.route p) e then (s.alt.get p).latch e else s.alt.get p

/-- Raise an event: it is latched for the ports whose route includes its kind as the routes stand now (R185, R186). -/
def raise (e : Event) (s : State) : State :=
  s.setAlt ⟨routed e s .a, routed e s .b, routed e s .c, routed e s .d⟩

/-- Raise an event when a condition holds. -/
def raiseIf (c : Bool) (e : Event) (s : State) : State := if c then raise e s else s

/-- A damage record is QUEUED. -/
def Damage.isQueued (d : Damage) : Bool := d.state == .queued

/-- At least one damage record is QUEUED (R108, R188). -/
def State.repairWaiting (s : State) : Bool := s.rpq.damage.any (fun e => e.2.isQueued)

/-- The weight of a bit in a byte. -/
def bitIf (c : Bool) (n : Nat) : Nat := if c then 2 ^ n else 0

/-- The raw conditions, one bit each (R188). -/
def State.rawConditions (s : State) : Byte :=
  BitVec.ofNat 8 (bitIf (s.trc.state == .fault) 0 + bitIf s.trc.gateHot 1 + bitIf s.cab.isoFull 2 +
    bitIf s.cab.climateOut 3 + bitIf (!s.rpq.gate.isEmpty) 4 + bitIf s.repairWaiting 5 + bitIf s.cab.eligible 6 +
    bitIf (!s.fcu.queue.isEmpty) 7)

/-- The hold-cause set as one byte (Table 10-8). -/
def HoldSet.code (h : HoldSet) : Nat := bitIf h.backpressure 0 + bitIf h.gateHot 1 + bitIf h.operator 2

/-- The flags of a frame record (Table 10-2). -/
def FrameRecord.flags (r : FrameRecord) : Nat :=
  bitIf r.locked 0 + bitIf r.lineMissing 1 + bitIf r.splice 2 + bitIf r.incomplete 3 + bitIf r.rescan 4 +
    bitIf r.regionsFull 5 + bitIf r.damageLost 6 + bitIf r.cut 7 + bitIf r.cutLost 8 + bitIf r.densityHeld 9

end Sys2Proof.Machine
end

