-- ==== Sys2Proof/Machine/Operands.lean ====
section
/-! DEFINITION. How operands are read as quantities and how results are laid out in bytes (section 10.2, R177, R182,
Tables 10-2, 10-5, 10-8 and 2-5). -/

namespace Sys2Proof.Machine

/-! ### Numbers as bytes: least significant byte first, signed numbers in two's complement -/

def bytesOf : (n v : Nat) → List Byte
  | 0, _ => []
  | n + 1, v => BitVec.ofNat 8 (v % 256) :: bytesOf n (v / 256)

abbrev u8 (v : Nat) : List Byte := bytesOf 1 v
abbrev u16 (v : Nat) : List Byte := bytesOf 2 v
abbrev u24 (v : Nat) : List Byte := bytesOf 3 v
abbrev u32 (v : Nat) : List Byte := bytesOf 4 v
def i16 (v : Int) : List Byte := bytesOf 2 (v % 65536).toNat
def i32 (v : Int) : List Byte := bytesOf 4 (v % 4294967296).toNat

/-- A yes-or-no item, a flag, a presence flag. -/
def flag (b : Bool) : List Byte := u8 (if b then 1 else 0)

/-- A presence flag and its field, which is sent as zeros when absent (R177). -/
def optional {α : Type} (width : Nat) (f : α → List Byte) : Option α → List Byte
  | some x => flag true ++ f x
  | none => flag false ++ bytesOf width 0

/-- A list: its count, then its entries in order (R177). -/
def listOf {α : Type} (f : α → List Byte) (l : List α) : List Byte := u8 l.length ++ l.flatMap f

/-! ### Status codes (Table 10-5) -/

inductive Status where
  | ok | okClamped | confirm | none | denied | badArg | state | busy | full | noRoom | noLine | duplicate
  | wrongZone | pendingWork | notReady | unknown
deriving DecidableEq, Repr

def Status.code : Status → Byte
  | .ok => 0
  | .okClamped => 1
  | .confirm => 2
  | .none => 3
  | .denied => 4
  | .badArg => 5
  | .state => 6
  | .busy => 7
  | .full => 8
  | .noRoom => 9
  | .noLine => 10
  | .duplicate => 11
  | .wrongZone => 12
  | .pendingWork => 13
  | .notReady => 14
  | .unknown => 15

/-- The answer of a command: a status, and the results a status OK, OK_CLAMPED or NONE carries (R182). -/
structure Reply where
  status  : Status
  results : List Byte
deriving DecidableEq, Repr

/-- Every status but OK, OK_CLAMPED and NONE answers with result length 0 (R182). -/
def Reply.only (st : Status) : Reply := ⟨st, []⟩
def Reply.ok (results : List Byte) : Reply := ⟨.ok, results⟩
/-- OK, or OK_CLAMPED when a value was clamped. -/
def Reply.clamped (c : Bool) (results : List Byte) : Reply := ⟨if c then .okClamped else .ok, results⟩

/-! ### Result codes (Table 10-8 and the operand codes of the commands) -/

def Gauge.code : Gauge → Nat
  | .g35x4 => 0
  | .g35x3 => 1
  | .g16 => 2

def Gauge.ofCode : Nat → Option Gauge
  | 0 => some .g35x4
  | 1 => some .g35x3
  | 2 => some .g16
  | _ => none

def Circulation.code : Circulation → Nat
  | .shelved => 0
  | .outbound => 1
  | .ready => 2
  | .threaded => 3
  | .inbound => 4
  | .dispatching => 5

/-- A location, position or destination: kind, then number, 0 where the kind has none. -/
def Place.bytes : Place → List Byte
  | .slot n => u8 0 ++ u8 n
  | .bay n => u8 1 ++ u8 n
  | .staging n => u8 2 ++ u8 n
  | .transport => u8 3 ++ u8 0
  | .gripper => u8 4 ++ u8 0
  | .exit => u8 5 ++ u8 0

def destBytes : Option Place → List Byte
  | some p => p.bytes
  | none => u8 255 ++ u8 0

def TransportState.code : TransportState → Nat
  | .unthreaded => 0
  | .threaded => 1
  | .inching => 2
  | .shuttle => 3
  | .scanning => 4
  | .hold => 5
  | .backup => 6
  | .fault => 7

def FaultCause.code : FaultCause → Nat
  | .tensionHigh => 1
  | .tensionLow => 2
  | .headSilent => 3
  | .estop => 4

def faultCode : Option FaultCause → Nat
  | some c => c.code
  | none => 0

def Profile.code : Profile → Nat
  | .normal => 0
  | .fragile => 1

def LockState.code : LockState → Nat
  | .unlocked => 0
  | .locked => 1
  | .seeking => 2

/-- The adaptation window: code, then the window frame, 0 unless the code is 2. Of a window frame above 65535 the low 16
bits are sent (assumption 23). -/
def AdaptWindow.bytes : AdaptWindow → List Byte
  | .off => u8 0 ++ u16 0
  | .restart => u8 1 ++ u16 0
  | .frame n => u8 2 ++ u16 n

def DamageClass.code : DamageClass → Nat
  | .dust => 0
  | .blotch => 1
  | .scratch => 2

def Severity.code : Severity → Nat
  | .minor => 0
  | .moderate => 1
  | .major => 2

def DamageOutcome.code : DamageOutcome → Nat
  | .repaired => 0
  | .accepted => 1
  | .needsRescan => 2
  | .gate => 3
  | .superseded => 4
  | .withdrawn => 5

/-- Outcome operands of COMPLETE (section 6.5). -/
def DamageOutcome.ofCode : Nat → Option DamageOutcome
  | 0 => some .repaired
  | 1 => some .accepted
  | 2 => some .needsRescan
  | _ => none

/-- Damage state with the claiming port, then the outcome (Table 10-8). -/
def DamageState.bytes : DamageState → List Byte
  | .queued => u8 0 ++ u8 255 ++ u8 255
  | .claimed p => u8 1 ++ u8 p.number ++ u8 255
  | .closed o => u8 2 ++ u8 255 ++ u8 o.code

def ShotState.code : ShotState → Nat
  | .editable => 0
  | .approved => 1

def ShotOrigin.code : ShotOrigin → Nat
  | .detected => 0
  | .edited => 1

def MoveKind.code : MoveKind → Nat
  | .fetchOut => 0
  | .toStaging => 1
  | .stageBack => 2
  | .shelve => 3
  | .relocate => 4
  | .dispatch => 5

def MoveState.code : MoveState → Nat
  | .queued => 0
  | .moving => 1
  | .blocked => 2

def TimerState.code : TimerState → Nat
  | .idle => 0
  | .running => 1
  | .done => 2

def Direction.code : Direction → Nat
  | .outward => 0
  | .inward => 1

/-! ### Compound items -/

def Channel.bytes (c : Channel) : List Byte := u16 c.gain ++ i16 c.lift
def Layer.bytes (l : Layer) : List Byte := l.r.bytes ++ l.g.bytes ++ l.b.bytes
def Grade.bytes (g : Grade) : List Byte := g.r.bytes ++ g.g.bytes ++ g.b.bytes
def FrameRange.bytes (x : FrameRange) : List Byte := u16 x.first ++ u16 x.last
def Box.bytes (x : Box) : List Byte := u8 x.rowMin ++ u8 x.rowMax ++ u8 x.colMin ++ u8 x.colMax
def Pitch.bytes (p : Pitch) : List Byte := u16 p.pInt ++ u16 p.f1 ++ u16 p.f2 ++ u16 p.m2
def RegValues.bytes (v : RegValues) : List Byte :=
  u16 v.lw ++ u8 v.index ++ u16 v.search ++ u8 v.w ++ u8 v.g ++ u8 v.adapt

/-- A frame record as READ_FRAMES returns it, 28 bytes (Table 10-2). -/
def FrameRecord.bytes (r : FrameRecord) : List Byte :=
  u8 r.handle ++ u8 r.skipped ++ u16 r.frame ++ u16 r.flags ++ i16 r.error ++ u16 r.density ++ u16 r.flicker ++
    u8 r.recorded ++ u8 r.suppressed ++ u16 r.shot ++ r.grade.bytes

/-- A damage record with its entry index: every field of Table 6-1, then the index (section 6.5). -/
def Damage.bytes (index : Nat) (d : Damage) : List Byte :=
  u32 d.seq.toNat ++ u8 d.handle ++ u16 d.frame ++ u8 d.cls.code ++ u8 d.severity.code ++ d.film.bytes ++
    u16 d.area ++ u16 d.depth ++ d.state.bytes ++ flag d.suspect ++ flag d.stale ++ u16 index

/-- A command to the head as a link message (R47, Table 2-5). -/
def HeadCommand.bytes : HeadCommand → List Byte
  | .capstan v => u8 0x81 ++ i32 v
  | .light v => u8 0x82 ++ u16 v
  | .capture k e => u8 0x83 ++ u16 k ++ i16 e

/-! ### Operands as quantities -/

/-- Layer values with each lift clamped to −1023 to +1023 (R140). -/
def channelOf (c : ChannelArgs) : Channel := ⟨c.gain.toNat, clampInt (-1023) 1023 c.lift.toInt⟩
def layerOf (l : LayerArgs) : Layer := ⟨channelOf l.r, channelOf l.g, channelOf l.b⟩

/-- A lift lies outside −1023 to +1023. -/
def liftClamped (c : ChannelArgs) : Bool := (channelOf c).lift != c.lift.toInt
def layerClamped (l : LayerArgs) : Bool := liftClamped l.r || liftClamped l.g || liftClamped l.b

/-- An alert set as a station sends it: bits 27 to 31 are ignored (R187). -/
def alertSet (v : BitVec 32) : AlertSet := v.setWidth 27

end Sys2Proof.Machine
end

