-- ==== Sys2Proof/Machine/Ops.lean ====
section
/-! DEFINITION. How SPT takes a request (R175 to R184): the response that is displaced, the force confirmation that is
cancelled, the preload, the access check, short operands, the answer. Every request command is `serve` of a body. -/

namespace Sys2Proof.Machine

/-- What a command does to the state, and its answer. -/
abbrev Body := State → State × Reply

/-- The outputs of the command before are gone; the outputs of this one are collected from here. -/
def quiet (s : State) : State := s.setOut ⟨[], []⟩

/-- A request displaces an unread response: it is discarded, the overrun flag is set and PORT_OVERRUN is raised for
that port (R179). -/
def displace (p : Port) (s : State) : State :=
  match (s.spt.get p).response with
  | some _ => raiseFor p .portOverrun (s.setPort p ⟨none, true⟩)
  | none => s

/-- A port's force confirmation becomes absent (R15). -/
def dropConfirmation (p : Port) (s : State) : State :=
  s.setReg { s.reg with confirm := s.reg.confirm.set p none }

/-- What every request does before it is carried out: it displaces an unread response (R179) and cancels the port's
force confirmation (R15; a confirming RELEASE FORCE closes it too, R16). -/
def arrive (p : Port) (s : State) : State := dropConfirmation p (displace p (quiet s))

/-- Store a response as the port's pending response (R175, R179). -/
def answer (rq : Rq) (r : Reply) (s : State) : State :=
  s.setPort rq.port { s.spt.get rq.port with response := some ⟨rq.tag, r.status.code, r.results⟩ }

/-- The role a command needs (R181). -/
inductive Need where
  | any
  | role (r : Role)
deriving DecidableEq, Repr

/-- The access check refuses: ACCESS_CHECK is 1 and the port's role is not the role the command needs (R181). -/
def denied (need : Need) (p : Port) (s : State) : Bool :=
  match need with
  | .any => false
  | .role r => s.setting Setting.accessCheck != 0 && s.role p != r

/-- Take a request: NOT_READY while the preload runs (R184), DENIED by the access check (R181), else the body. -/
def serve (rq : Rq) (need : Need) (body : Body) (s : State) : State :=
  let s := arrive rq.port s
  if s.cfg.running then answer rq (.only .notReady) s
  else if denied need rq.port s then answer rq (.only .denied) (raiseFor rq.port .accessDenied s)
  else
    let r := body s
    answer rq r.2 r.1

/-- A refusal: the answer alone, no state changed. -/
def refuse (st : Status) : Body := fun s => (s, .only st)

/-- A body that needs operands; a request whose operands are too short is answered BAD_ARG (R178). -/
def withOperands {α : Type} (args : Option α) (body : α → Body) : Body :=
  match args with
  | some a => body a
  | none => refuse .badArg

end Sys2Proof.Machine
end

