-- ==== Sys2Proof/Machine/ShotOps.lean ====
section
/-! DEFINITION. The shots of a reel (R127, R128), their ranges (R146), and their reopening (R151). -/

namespace Sys2Proof.Machine

/-- The scan frontier of a reel (R20). -/
def State.frontier (s : State) (h : Nat) : Nat :=
  match s.reel h with
  | some r => r.frontier
  | none => 0

/-- The shots of a reel with their record numbers, ordered by first frame (R127). -/
def State.shotsOf (s : State) (h : Nat) : List (Nat × Shot) :=
  sortBy (fun x y => decide (x.2.first < y.2.first)) (s.sht.pool.filter (fun e => e.2.handle == h))

/-- The shot that follows a shot in its reel's list. -/
def State.nextShot (s : State) (x : Shot) : Option (Nat × Shot) :=
  (s.shotsOf x.handle).find? (fun y => decide (x.first < y.2.first))

/-- One above the last frame of a shot: the next shot's first frame, or the frontier for the reel's last shot (R127).
The range is empty when this is not above the first frame. -/
def State.shotStop (s : State) (x : Shot) : Nat :=
  match s.nextShot x with
  | some y => y.2.first
  | none => s.frontier x.handle

/-- The reel's last shot. -/
def State.lastShot (s : State) (h : Nat) : Option (Nat × Shot) := (s.shotsOf h).getLast?

/-- The shot a frame is assigned to: the one whose range contains it, or the last shot for a frame at or above the
frontier (R128, R148). -/
def State.shotAt (s : State) (h f : Nat) : Option (Nat × Shot) :=
  if s.frontier h ≤ f then s.lastShot h
  else ((s.shotsOf h).filter (fun y => decide (y.2.first ≤ f))).getLast?

/-- Does the shot's range contain the frame? -/
def State.shotHas (s : State) (x : Shot) (f : Nat) : Bool := x.first ≤ f && f < s.shotStop x

/-- Change a shot record. -/
def State.modShot (s : State) (r : Nat) (f : Shot → Shot) : State :=
  s.setSht { s.sht with pool := s.sht.pool.modify r f }

/-- Reopen a shot if it is APPROVED, and raise SHOT_REOPENED (R151). -/
def reopenShot (r : Nat) (s : State) : State :=
  match s.sht.pool.read r with
  | some x =>
    if x.state = .approved then raise .shotReopened (s.modShot r (fun y => { y with state := .editable })) else s
  | none => s

/-- Reopen every shot of a reel that meets a condition on its range, in list order. -/
def reopenWhere (h : Nat) (cond : Shot → Bool) (s : State) : State :=
  (s.shotsOf h).foldl (fun t y => if cond y.2 then reopenShot y.1 t else t) s

/-- Take the lowest-numbered free shot record for a new shot (R127). -/
def State.freeShot (s : State) : Option Nat := s.sht.pool.firstFree Config.shots

/-- Put a shot into a record of the pool. -/
def State.putShot (s : State) (r : Nat) (x : Shot) : State :=
  s.setSht { s.sht with pool := s.sht.pool.write r x }

/-- A shot as ADMIT and a cut make it: OPEN, flicker on, DETECTED, no layers (R9, R131). -/
def detectedShot (h first : Nat) : Shot :=
  { handle := h, first, state := .editable, flicker := true, origin := .detected, stack := [] }

end Sys2Proof.Machine
end

