-- ==== Sys2Proof/Machine/ReelOps.lean ====
section
/-! DEFINITION. REG's own arithmetic (chapter 1): the fragile flag, the rescan list, the frontier, the counters. -/

namespace Sys2Proof.Machine

/-- The fragile flag (R2). -/
def fragileOf (acidity : Nat) (shrinkage : Option Nat) : Bool :=
  2 ≤ acidity ||
    (match shrinkage with
      | some x => 150 ≤ x
      | none => false)

/-- Two ranges overlap or adjoin (R19). -/
def FrameRange.touches (x y : FrameRange) : Bool := x.first ≤ y.last + 1 && y.first ≤ x.last + 1

/-- The least range that covers two. -/
def FrameRange.union (x y : FrameRange) : FrameRange := ⟨min x.first y.first, max x.last y.last⟩

/-- Merging: the new range united with every range it overlaps or adjoins, at its ordered place (R19). -/
def mergeRange (l : List FrameRange) (x : FrameRange) : List FrameRange :=
  insertBy (fun p q => decide (p.first < q.first)) ((l.filter (fun y => y.touches x)).foldl FrameRange.union x)
    (l.filter (fun y => !y.touches x))

/-- The frames between two neighbouring ranges (R19). -/
def rangeGap (x y : FrameRange) : Nat := y.first - x.last - 1

/-- The smallest gap between neighbours. -/
def smallestGap : List FrameRange → Option Nat
  | x :: y :: rest =>
    match smallestGap (y :: rest) with
    | some g => some (min (rangeGap x y) g)
    | none => some (rangeGap x y)
  | _ => none

/-- Join the first neighbouring pair whose gap is `g`. -/
def joinFirst (g : Nat) : List FrameRange → List FrameRange
  | x :: y :: rest => if rangeGap x y = g then ⟨x.first, y.last⟩ :: rest else x :: joinFirst g (y :: rest)
  | l => l

/-- Joining: a list of more than 8 ranges has the neighbouring pair with the smallest gap joined (R19). -/
def joinRanges (l : List FrameRange) : List FrameRange :=
  if l.length ≤ Config.rescanRanges then l
  else
    match smallestGap l with
    | some g => joinFirst g l
    | none => l

/-- A rescan list with a range added (R19). -/
def addRange (l : List FrameRange) (x : FrameRange) : List FrameRange := joinRanges (mergeRange l x)

/-- A rescan list with a completely recorded frame trimmed (R20, step 2). -/
def trimFrame (l : List FrameRange) (f : Nat) : List FrameRange :=
  l.flatMap (fun x =>
    if f < x.first ∨ x.last < f then [x]
    else if x.first = x.last then []
    else if f = x.first then [⟨f + 1, x.last⟩]
    else if f = x.last then [⟨x.first, f - 1⟩]
    else if l.length < Config.rescanRanges then [⟨x.first, f - 1⟩, ⟨f + 1, x.last⟩]
    else [x])

/-- Is a frame in a rescan list? -/
def inRanges (l : List FrameRange) (f : Nat) : Bool := l.any (fun x => x.first ≤ f && f ≤ x.last)

/-- Does a rescan list hold a frame of [lo, stop)? -/
def rangesMeet (l : List FrameRange) (lo stop : Nat) : Bool :=
  l.any (fun x => max x.first lo ≤ x.last && max x.first lo < stop)

/-- The first frame from `f` on that an ordered list does not hold. -/
def firstUnlisted (l : List FrameRange) (f : Nat) : Nat :=
  l.foldl (fun cur x => if x.first ≤ cur ∧ cur ≤ x.last then x.last + 1 else cur) f

/-- Does `new` hold a frame of [lo, stop) that `old` does not? -/
def freshFrames (old new : List FrameRange) (lo stop : Nat) : Bool :=
  new.any (fun x =>
    let a := firstUnlisted old (max x.first lo)
    a ≤ x.last && a < stop)

/-- REG adds a range to a reel's rescan list: RESCAN_ADDED if the list changes, and every APPROVED shot with a frame
that is new to the list reopened (R19). -/
def rescanAdd (h : Nat) (x : FrameRange) (s : State) : State :=
  match s.reel h with
  | none => s
  | some r =>
    let l := addRange r.rescan x
    if l = r.rescan then s
    else
      let t := raise .rescanAdded (s.modReel h (fun y => { y with rescan := l }))
      reopenWhere h (fun y => freshFrames r.rescan l y.first (t.shotStop y)) t

/-- REG takes the report that a frame was recorded: the frontier, the rescan list, the last shot (R20). -/
def frameRecorded (h f : Nat) (complete : Bool) (s : State) : State :=
  let rose := s.frontier h ≤ f
  let s := if rose then s.modReel h (fun r => { r with frontier := f + 1 }) else s
  let s :=
    if complete then s.modReel h (fun r => { r with rescan := trimFrame r.rescan f }) else rescanAdd h ⟨f, f⟩ s
  if rose then
    match s.lastShot h, s.reel h with
    | some y, some r => if rangesMeet r.rescan y.2.first (s.shotStop y.2) then reopenShot y.1 s else s
    | _, _ => s
  else s

/-- REG adds lost cells to the unrecorded damage area, which stops at 65535 (R21). -/
def addLostArea (h area : Nat) (s : State) : State :=
  s.modReel h (fun r => { r with lostArea := min 65535 (r.lostArea + area) })

end Sys2Proof.Machine
end

