-- ==== Sys2Proof/Machine/CabOps.lean ====
section
/-! DEFINITION. Positions, the move queue and the leg-due list (sections 9.1 and 9.2), and REG's relocation check
(R5), which asks CAB for a move. -/

namespace Sys2Proof.Machine

/-- The occupancy of a position; `none` is EMPTY (section 9.1). -/
def Cab.occupancy (c : Cab) : Place → Option Occupancy
  | .slot n => c.slots.read n
  | .bay n => c.bays.read n
  | .staging n => c.stagings.read n
  | _ => none

/-- A table of positions with one occupancy set; `none` makes it EMPTY. -/
def setEntry (t : Table Occupancy) (n : Nat) : Option Occupancy → Table Occupancy
  | some o => t.write n o
  | none => t.erase n

/-- Set the occupancy of a position. -/
def Cab.occupy (c : Cab) (p : Place) (o : Option Occupancy) : Cab :=
  match p with
  | .slot n => { c with slots := setEntry c.slots n o }
  | .bay n => { c with bays := setEntry c.bays n o }
  | .staging n => { c with stagings := setEntry c.stagings n o }
  | _ => c

def State.occupy (s : State) (p : Place) (o : Option Occupancy) : State := s.setCab (s.cab.occupy p o)

/-- The lowest-numbered free slot of a zone, bay position, staging position: free is EMPTY (section 9.1). -/
def Cab.freeStandard (c : Cab) : Option Nat := c.slots.firstFreeFrom Config.isolation 0
def Cab.freeIsolation (c : Cab) : Option Nat := c.slots.firstFreeFrom (Config.slots - Config.isolation) Config.isolation
def Cab.freeBay (c : Cab) : Option Nat := c.bays.firstFree Config.bays
def Cab.freeStaging (c : Cab) : Option Nat := c.stagings.firstFree Config.stagings

/-- The lowest-numbered free entry of the move queue (R157). -/
def Cab.freeEntry (c : Cab) : Option Nat :=
  (List.range Config.moves).find? (fun e => c.moves.all (fun m => m.entry != e))

/-- The move in flight. -/
def Cab.moving (c : Cab) : Option Move := c.moves.find? (fun m => m.state == .moving)

/-- The move of a reel. -/
def Cab.moveOf (c : Cab) (h : Nat) : Option Move := c.moves.find? (fun m => m.handle == h)

/-- Change the move in an entry. -/
def Cab.modMove (c : Cab) (e : Nat) (f : Move → Move) : Cab :=
  { c with moves := c.moves.map (fun m => if m.entry = e then f m else m) }

/-- Take the move of an entry out of the queue; the others keep their order (R157). -/
def Cab.removeMove (c : Cab) (e : Nat) : Cab := { c with moves := c.moves.filter (fun m => m.entry != e) }

/-- Is a slot of the ISOLATION zone (Table 9-1)? -/
def isolationSlot (n : Nat) : Bool := Config.isolation ≤ n

/-- The slot a SHELVE goes to now: the home slot if it is free and of the right zone, else the lowest-numbered free
slot of the reel's zone (R159). -/
def shelveSlot (c : Cab) (r : Reel) : Option Nat :=
  if (c.slots.read r.home).isNone ∧ (isolationSlot r.home ∨ r.acidity < 2) then some r.home
  else if 2 ≤ r.acidity then c.freeIsolation
  else c.freeStandard

/-- The destination a move would be given now (R159). -/
def State.chooseDest (s : State) (m : Move) : Option Place :=
  match m.kind with
  | .fetchOut | .stageBack => s.cab.freeBay.map .bay
  | .toStaging => s.cab.freeStaging.map .staging
  | .shelve =>
    match s.reel m.handle with
    | some r => (shelveSlot s.cab r).map .slot
    | none => none
  | .relocate => s.cab.freeIsolation.map .slot
  | .dispatch => some .exit

/-- The oldest eligible move (R159, R162). -/
def State.oldestEligible (s : State) : Option Move :=
  if s.cab.moving.isSome then none
  else s.cab.moves.find? (fun m => m.state == .queued && (s.chooseDest m).isSome)

/-- A QUEUED move that needs an ISOLATION slot (R161). -/
def State.needsIsolation (s : State) (m : Move) : Bool :=
  m.state == .queued &&
    (m.kind == .relocate ||
      (m.kind == .shelve &&
        (match s.reel m.handle with
          | some r => 2 ≤ r.acidity
          | none => false)))

/-- The two conditions CAB keeps (R160, R161), as they stand. -/
def State.eligibleNow (s : State) : Bool := s.oldestEligible.isSome
def State.isoFullNow (s : State) : Bool := s.cab.moves.any s.needsIsolation && s.cab.freeIsolation.isNone

/-- CAB re-evaluates both conditions at the end of an event: MOVE_READY when eligible move present goes from no to yes,
ISOLATION_FULL when its condition becomes active (R160, R161). -/
def refreshCab (s : State) : State :=
  let e := s.eligibleNow
  let f := s.isoFullNow
  raiseIf (f && !s.cab.isoFull) .isolationFull
    (raiseIf (e && !s.cab.eligible) .moveReady (s.setCab { s.cab with eligible := e, isoFull := f }))

/-- CAB places a move in entry e, last in the creation order: source the reel's location, destination absent, QUEUED
(R157). -/
def createMoveIn (e h : Nat) (kind : MoveKind) (s : State) : State :=
  match s.reel h with
  | some r =>
    s.setCab { s.cab with
      moves := s.cab.moves ++ [{ entry := e, kind, handle := h, source := r.location, dest := none, state := .queued }] }
  | none => s

/-- CAB creates a move in the lowest-numbered free entry (R157). -/
def createMove (h : Nat) (kind : MoveKind) (s : State) : State :=
  match s.cab.freeEntry with
  | some e => createMoveIn e h kind s
  | none => s

/-- An automatic move enters the queue; a RELOCATE raises RELOCATION_QUEUED (R158). -/
def enterAuto (h : Nat) (kind : MoveKind) (s : State) : State :=
  raiseIf (kind == .relocate) .relocationQueued (createMove h kind s)

/-- An automatic move is asked for: created at once when an entry is free, else marked leg due (R158). -/
def autoMove (h : Nat) (kind : MoveKind) (s : State) : State :=
  if s.cab.freeEntry.isSome then enterAuto h kind s
  else s.setCab { s.cab with legDue := s.cab.legDue ++ [⟨h, kind⟩] }

/-- Drain marks, oldest first, while an entry is free (R158). -/
def drainMarks : List LegDue → State → State
  | [], s => s
  | m :: rest, s =>
    if s.cab.freeEntry.isSome then drainMarks rest (enterAuto m.handle m.kind (s.setCab { s.cab with legDue := rest }))
    else s

/-- An entry became free: the leg-due list is drained (R158). -/
def drain (s : State) : State := drainMarks s.cab.legDue s

/-- REG's relocation check (R5). -/
def relocationCheck (h : Nat) (s : State) : State :=
  match s.reel h with
  | some r =>
    match r.location with
    | .slot n =>
      if r.circulation = .shelved ∧ n < Config.isolation ∧ 2 ≤ r.acidity ∧ r.relocation = false then
        autoMove h .relocate (s.modReel h (fun y => { y with relocation := true }))
      else s
    | _ => s
  | none => s

/-- The reel returns to SHELVED with a relocation check: a cancelled REQUEST, FETCH_OUT or DISPATCH (Table 1-3, R12). -/
def backToShelved (h : Nat) (s : State) : State :=
  relocationCheck h (s.modReel h (fun r => { r with circulation := .shelved }))

end Sys2Proof.Machine
end

