-- ==== Sys2Proof/Machine/RepairOps.lean ====
section
/-! DEFINITION. RPQ (chapter 6): the damage table and its counts, the closed list, claims, the repair queue's order,
chains, the gate-dirt test and its ageing. -/

namespace Sys2Proof.Machine

/-! ### Counts (R21, R104) -/

/-- One record more, one record less, in a state, on the reel's damage counts (R21). -/
def Reel.addCount (st : DamageState) (r : Reel) : Reel :=
  match st with
  | .queued => { r with queued := r.queued + 1 }
  | .claimed _ => { r with claimed := r.claimed + 1 }
  | .closed _ => { r with closed := r.closed + 1 }

def Reel.subCount (st : DamageState) (r : Reel) : Reel :=
  match st with
  | .queued => { r with queued := r.queued - 1 }
  | .claimed _ => { r with claimed := r.claimed - 1 }
  | .closed _ => { r with closed := r.closed - 1 }

/-- The port's claim count when a record enters or leaves a state (R104). -/
def claimsUp (c : PerPort Nat) : DamageState → PerPort Nat
  | .claimed p => c.set p (c.get p + 1)
  | _ => c

def claimsDown (c : PerPort Nat) : DamageState → PerPort Nat
  | .claimed p => c.set p (c.get p - 1)
  | _ => c

/-! ### Transitions of a record (R104) -/

/-- A record passes to another state: the reel's counts and the claim counts go with it. -/
def moveDamage (i : Nat) (st : DamageState) (s : State) : State :=
  match s.rpq.damage.read i with
  | none => s
  | some d =>
    (s.setRpq { s.rpq with
      damage := s.rpq.damage.write i { d with state := st }
      claims := claimsUp (claimsDown s.rpq.claims d.state) st }).modReel d.handle
      (fun r => (r.subCount d.state).addCount st)

/-- A record closes and joins the tail of the closed list (R106). -/
def closeDamage (o : DamageOutcome) (s : State) (i : Nat) : State :=
  let t := moveDamage i (.closed o) s
  t.setRpq { t.rpq with closedList := t.rpq.closedList ++ [i] }

/-- Set a flag of a record. -/
def State.modDamage (s : State) (i : Nat) (f : Damage → Damage) : State :=
  s.setRpq { s.rpq with damage := s.rpq.damage.modify i f }

/-- The records that meet a condition, in rising creation sequence (R106, R121). -/
def State.damageBySeq (s : State) (cond : Damage → Bool) : List Nat :=
  (sortBy (fun x y => decide (x.2.seq.toNat < y.2.seq.toNat)) (s.rpq.damage.filter (fun e => cond e.2))).map (·.1)

/-- A record is CLAIMED by a port. -/
def Damage.claimedBy (d : Damage) (p : Port) : Bool := d.state == .claimed p

/-- A record is CLAIMED. -/
def Damage.isClaimed (d : Damage) : Bool :=
  match d.state with
  | .claimed _ => true
  | _ => false

/-- Release every claim a port holds, in rising creation sequence; REPAIR_WAITING if the queue was empty (R121, R123). -/
def releaseClaims (p : Port) (s : State) : State :=
  let t := (s.damageBySeq (·.claimedBy p)).foldl (fun u i => moveDamage i .queued u) s
  raiseIf (!s.repairWaiting && t.repairWaiting) .repairWaiting t

/-- Free every damage record of a reel, and take its references out of the closed list (R17, R106). -/
def freeDamage (h : Nat) (s : State) : State :=
  let mine : List Nat := (s.rpq.damage.filter (fun e => e.2.handle == h)).map (·.1)
  s.setRpq { s.rpq with
    damage := s.rpq.damage.filter (fun e => e.2.handle != h)
    closedList := s.rpq.closedList.filter (fun i => !mine.contains i) }

/-! ### The repair queue (R118) -/

/-- The age of a record, by the sequence counter modulo 2^32. -/
def State.age (s : State) (d : Damage) : Nat := (s.rpq.counter - d.seq).toNat

/-- One QUEUED record comes before another: severity first, then age. -/
def State.beforeInQueue (s : State) (x y : Nat × Damage) : Bool :=
  decide (y.2.severity.code < x.2.severity.code) ||
    (x.2.severity == y.2.severity && decide (s.age y.2 < s.age x.2))

/-- The QUEUED records that meet a condition, in queue order. -/
def State.queueOrder (s : State) (cond : Damage → Bool) : List (Nat × Damage) :=
  sortBy s.beforeInQueue (s.rpq.damage.filter (fun e => e.2.isQueued && cond e.2))

/-- The order of DAMAGE_LIST: rising frame, within one frame oldest first (R122). -/
def State.beforeInList (s : State) (x y : Nat × Damage) : Bool :=
  decide (x.2.frame < y.2.frame) || (x.2.frame == y.2.frame && decide (s.age y.2 < s.age x.2))

/-- A reel's records at or above a frame, in that order. -/
def State.damageOf (s : State) (h f : Nat) : List (Nat × Damage) :=
  sortBy s.beforeInList (s.rpq.damage.filter (fun e => e.2.handle == h && f ≤ e.2.frame))

/-! ### Creating records (R105, R107) -/

/-- A closed region as DSU hands it over (R100), with the entry of the region table it stands in. -/
structure Found where
  entry    : Nat
  box      : Box
  film     : Box
  area     : Nat
  depth    : Nat
  cls      : DamageClass
  severity : Severity
deriving DecidableEq, Repr

/-- An entry for a new record: the lowest-numbered free one, else the one of the oldest closed record, which is
reclaimed (R105). -/
def allocDamage (s : State) : Option (Nat × State) :=
  match s.rpq.damage.firstFree Config.damage with
  | some i => some (i, s)
  | none =>
    match s.rpq.closedList with
    | [] => none
    | i :: rest =>
      let t := s.setRpq { s.rpq with closedList := rest }
      match s.rpq.damage.read i with
      | some d => some (i, t.modReel d.handle (fun r => r.subCount d.state))
      | none => some (i, t)

/-- RPQ makes a damage record of a region, or loses the region: then its area goes to REG (R105). REPAIR_WAITING when
the queue was empty (R108). A MAJOR record reopens the APPROVED shot that contains its frame (R107). -/
def createDamage (h k : Nat) (x : Found) (s : State) : State × Option DamageRef :=
  match allocDamage s with
  | none => (addLostArea h x.area s, none)
  | some (i, t) =>
    let d : Damage :=
      { seq := t.rpq.counter, handle := h, frame := k, cls := x.cls, severity := x.severity, film := x.film,
        area := x.area, depth := x.depth / x.area, state := .queued, suspect := false, stale := false }
    let u := (t.setRpq { t.rpq with damage := t.rpq.damage.write i d, counter := t.rpq.counter + 1 }).modReel h
      (fun r => r.addCount .queued)
    let u := raiseIf (!t.repairWaiting) .repairWaiting u
    let u := if x.severity = .major then reopenWhere h (fun y => u.shotHas y k) u else u
    (u, some ⟨i, d.seq⟩)

/-! ### Chains and gate dirt (section 6.3) -/

/-- The previous-frame region list is emptied and noted as built from no frame (R110). -/
def breakChains (s : State) : State := s.setRpq { s.rpq with prev := [], prevFrom := none }

/-- Two edges lie within one cell of each other. -/
def near (a b : Nat) : Bool := a ≤ b + 1 && b ≤ a + 1

/-- Two regions match (R111): both DUST or both BLOTCH, each edge within one cell. -/
def regionsMatch (c c' : DamageClass) (x y : Box) : Bool :=
  c == c' && c != .scratch && near x.rowMin y.rowMin && near x.rowMax y.rowMax && near x.colMin y.colMin &&
    near x.colMax y.colMax

/-- Mark the first gate-dirt entry a region matches as hit; `none` when it matches none (R112). -/
def hitGate (x : Found) : List GateEntry → Option (List GateEntry)
  | [] => none
  | e :: rest =>
    if regionsMatch x.cls e.cls x.box e.box then some ({ e with hit := true } :: rest)
    else (hitGate x rest).map (e :: ·)

/-- Take the first matching region out of the previous regions no chain has taken up yet (R113). -/
def takeChain (x : Found) : List PrevRegion → Option (PrevRegion × List PrevRegion)
  | [] => none
  | y :: rest =>
    if regionsMatch x.cls y.cls x.box y.box then some (y, rest)
    else (takeChain x rest).map (fun z => (z.1, y :: z.2))

/-- Withdraw one record a promoted chain has left (R114, step 3). -/
def withdrawRef (s : State) (r : DamageRef) : State :=
  match s.rpq.damage.read r.index with
  | none => s
  | some d =>
    if d.seq ≠ r.seq then s
    else
      match d.state with
      | .queued => closeDamage .gate s r.index
      | .claimed _ => s.modDamage r.index (fun x => { x with suspect := true })
      | .closed _ => s

/-- A chain becomes gate dirt (R114). -/
def promote (x : Found) (refs : List DamageRef) (s : State) : State :=
  refs.foldl withdrawRef
    (raise .gateDirt (s.setRpq { s.rpq with gate := s.rpq.gate ++ [⟨x.box, x.cls, 0, true⟩] }))

/-- What RPQ carries through the regions of one frame (R108): counts, whether a region was lost or a promotion
refused, the previous regions no chain has taken up, the regions for the next list. -/
structure FrameDamage where
  recorded   : Nat
  suppressed : Nat
  lost       : Bool
  refused    : Bool
  work       : List PrevRegion
  next       : List PrevRegion
deriving DecidableEq, Repr

/-- The last 15 references (R113). -/
def keepRefs (l : List DamageRef) : List DamageRef := l.drop (l.length - Config.chainRefs)

/-- Record a region, and carry its chain into the next list when it has one (R108 step 4, R113). -/
def recordRegion (h k : Nat) (x : Found) (chain : Option (Nat × List DamageRef)) (acc : FrameDamage × State) :
    FrameDamage × State :=
  let r := createDamage h k x acc.2
  let next :=
    match chain with
    | none => []
    | some (len, refs) =>
      [⟨x.box, x.cls, len,
        match r.2 with
        | some ref => keepRefs (refs ++ [ref])
        | none => refs⟩]
  ({ acc.1 with
      recorded := acc.1.recorded + (if r.2.isSome then 1 else 0)
      lost := acc.1.lost || r.2.isNone
      next := acc.1.next ++ next }, r.1)

/-- The chain of a region: that of the previous region it matches, one frame longer, or a new one. Answers its length,
its references and the previous regions that are left (R113). -/
def chainOf (x : Found) (work : List PrevRegion) : Nat × List DamageRef × List PrevRegion :=
  match takeChain x work with
  | some (y, rest) => (min 65535 (y.length + 1), y.refs, rest)
  | none => (1, [], work)

/-- The gate-dirt test for one region (R111 to R115). -/
def takeRegion (h k : Nat) (acc : FrameDamage × State) (x : Found) : FrameDamage × State :=
  if x.cls = .scratch then recordRegion h k x none acc
  else
    match hitGate x acc.2.rpq.gate with
    | some gate =>
      ({ acc.1 with suppressed := acc.1.suppressed + 1 }, acc.2.setRpq { acc.2.rpq with gate })
    | none =>
      let chain := chainOf x acc.1.work
      let acc := ({ acc.1 with work := chain.2.2 }, acc.2)
      if chain.1 < acc.2.setting Setting.gatePersist then recordRegion h k x (some (chain.1, chain.2.1)) acc
      else if acc.2.rpq.gate.length < Config.gateEntries then
        ({ acc.1 with suppressed := acc.1.suppressed + 1 }, promote x chain.2.1 acc.2)
      else
        recordRegion h k x (some (chain.1, chain.2.1)) ({ acc.1 with refused := true }, acc.2)

/-- Ageing of the gate-dirt list at a complete frame (R116). -/
def ageGate (limit : Nat) (l : List GateEntry) : List GateEntry :=
  (l.map (fun e => if e.hit then { e with absent := 0, hit := false } else { e with absent := e.absent + 1 })).filter
    (fun e => decide (e.absent < limit))

/-- A rescan frame supersedes the reel's records of the frame (R109). -/
def supersede (h k : Nat) (s : State) : State :=
  let queued := s.damageBySeq (fun d => d.handle == h && d.frame == k && d.isQueued)
  let claimed := s.damageBySeq (fun d => d.handle == h && d.frame == k && d.isClaimed)
  claimed.foldl (fun t i => t.modDamage i (fun d => { d with stale := true }))
    (queued.foldl (closeDamage .superseded) s)

/-- RPQ records the damage of a complete frame (R108). Answers the counts and whether a region was lost. -/
def recordDamage (h k : Nat) (rescan reanch : Bool) (found : List Found) (s : State) : FrameDamage × State :=
  let s := if rescan then supersede h k s else s
  let fits := !reanch && s.rpq.prevFrom == (if k = 0 then none else some ⟨h, k - 1⟩) && s.rpq.prevFrom.isSome
  let work := if fits then s.rpq.prev else []
  let r := found.foldl (takeRegion h k)
    ({ recorded := 0, suppressed := 0, lost := false, refused := false, work, next := [] }, s)
  let t := r.2.setRpq { r.2.rpq with
    gate := ageGate (s.setting Setting.gateAbsent) r.2.rpq.gate, prev := r.1.next, prevFrom := some ⟨h, k⟩ }
  (r.1, raiseIf r.1.refused .gateListFull (raiseIf r.1.lost .damageLost t))

end Sys2Proof.Machine
end

