-- ==== Sys2Proof/Machine/SurveyOps.lean ====
section
/-! DEFINITION. DSU (chapter 5): defect mask, runs, regions row by row, classes, severities, film coordinates. All of it
acts on one survey context. -/

namespace Sys2Proof.Machine

/-- A cell's value in a row. -/
def cellAt (cells : List (BitVec 16)) (j : Nat) : Nat := (cells.getD j 0).toNat

/-- The defective columns of a row: IR below the latched threshold (R87). -/
def defectMask (threshold : Nat) (ir : List (BitVec 16)) : List Nat :=
  (List.range 32).filter (fun j => cellAt ir j < threshold)

/-- The runs of a row from its defective columns, left to right (R88). -/
def runsOf : List Nat → List Span
  | [] => []
  | a :: rest =>
    match runsOf rest with
    | [] => [⟨a, a⟩]
    | x :: more => if a + 1 = x.lo then ⟨a, x.hi⟩ :: more else ⟨a, a⟩ :: x :: more

/-- The cells of a run. -/
def Span.width (x : Span) : Nat := x.hi - x.lo + 1

/-- The depths of a run's cells: threshold minus IR (R87). -/
def runDepth (threshold : Nat) (ir : List (BitVec 16)) (x : Span) : Nat :=
  ((List.range x.width).map (fun d => threshold - cellAt ir (x.lo + d))).sum

/-- A run touches an OPEN region by the columns it covered in the row above (R90). -/
def touchesRegion (x : Span) (g : Region) : Bool :=
  g.isOpen &&
    (match g.previous with
      | some p => x.lo ≤ p.hi + 1 && p.lo ≤ x.hi + 1
      | none => false)

/-- The least interval covering two. -/
def Span.cover (x y : Span) : Span := ⟨min x.lo y.lo, max x.hi y.hi⟩

def coverOpt : Option Span → Option Span → Option Span
  | some x, some y => some (x.cover y)
  | some x, none => some x
  | none, y => y

/-- A run's cells join a region (R91). -/
def extendRegion (row : Nat) (x : Span) (depth : Nat) (g : Region) : Region :=
  { g with
    box := { g.box with rowMax := row, colMin := min g.box.colMin x.lo, colMax := max g.box.colMax x.hi }
    area := g.area + x.width
    depth := g.depth + depth
    current := coverOpt g.current (some x)
    extended := true }

/-- Another touched region's figures join the survivor's (R92). -/
def absorbRegion (g o : Region) : Region :=
  { g with
    box := ⟨min g.box.rowMin o.box.rowMin, max g.box.rowMax o.box.rowMax, min g.box.colMin o.box.colMin,
      max g.box.colMax o.box.colMax⟩
    area := g.area + o.area
    depth := g.depth + o.depth
    previous := coverOpt g.previous o.previous
    current := coverOpt g.current o.current }

/-- A region that a run starts (R93). -/
def newRegion (row : Nat) (x : Span) (depth : Nat) : Region :=
  { isOpen := true, box := ⟨row, row, x.lo, x.hi⟩, area := x.width, depth, previous := none, current := some x,
    extended := true }

/-- One run of a row: it extends a region, merges the regions it touches into the lowest-numbered, starts one, or is
lost (R90 to R94). -/
def takeRun (row : Nat) (ir : List (BitVec 16)) (v : Survey) (x : Span) : Survey :=
  let depth := runDepth v.threshold ir x
  match v.regions.filter (fun e => touchesRegion x e.2) with
  | (i, g) :: others =>
    let g := extendRegion row x depth (others.foldl (fun a e => absorbRegion a e.2) g)
    { v with regions := (others.foldl (fun t e => t.erase e.1) v.regions).write i g }
  | [] =>
    match v.regions.firstFree Config.regions with
    | some i => { v with regions := v.regions.write i (newRegion row x depth) }
    | none => { v with lostArea := v.lostArea + x.width, full := true }

/-- A region at the end of a row (R95). -/
def endRow (g : Region) : Region :=
  if g.isOpen = false then g
  else if g.extended then { g with previous := g.current, current := none, extended := false }
  else { g with isOpen := false, previous := none }

/-- One row taken in order: mask, runs, end of row (R87 to R95). -/
def takeRow (row : Nat) (ir : List (BitVec 16)) (v : Survey) : Survey :=
  let mask := defectMask v.threshold ir
  let w := (runsOf mask).foldl (takeRun row ir) { v with mask }
  { w with regions := w.regions.map (fun e => (e.1, endRow e.2)) }

/-- A survey context set up for a frame (R86). -/
def openSurvey (threshold : Nat) (offset : Int) : Survey :=
  { regions := [], threshold, offset, mask := [], lostArea := 0, full := false }

/-- Every region still OPEN at the end of row 23 closes (R96). -/
def closeRegions (v : Survey) : Survey :=
  { v with regions := v.regions.map (fun e => (e.1, { e.2 with isOpen := false })) }

def Box.width (b : Box) : Nat := b.colMax - b.colMin + 1
def Box.height (b : Box) : Nat := b.rowMax - b.rowMin + 1

/-- The class of a region (R97, Table 5-4). -/
def classOf (b : Box) (area : Nat) : DamageClass :=
  if b.width ≤ 2 ∧ 12 ≤ b.height then .scratch else if area ≤ 4 then .dust else .blotch

/-- The severity of a region (R98, Table 5-5). -/
def severityOf (c : DamageClass) (b : Box) (area : Nat) : Severity :=
  match c with
  | .dust => .minor
  | .blotch => if area ≤ 24 then .moderate else .major
  | .scratch => if b.height < 24 then .moderate else .major

/-- A sensor row mapped to the film (R99). -/
def filmRow (row : Nat) (offset : Int) : Nat := (clampInt 0 23 (row - offset)).toNat

/-- The film box of a region (R99). -/
def filmBox (b : Box) (offset : Int) : Box := ⟨filmRow b.rowMin offset, filmRow b.rowMax offset, b.colMin, b.colMax⟩

/-- The regions DSU hands to RPQ, in rising entry index (R100). -/
def foundRegions (v : Survey) : List Found :=
  v.regions.map (fun e =>
    let c := classOf e.2.box e.2.area
    { entry := e.1, box := e.2.box, film := filmBox e.2.box v.offset, area := e.2.area, depth := e.2.depth, cls := c,
      severity := severityOf c e.2.box e.2.area })

end Sys2Proof.Machine
end

