-- ==== Sys2Proof/Machine/TransportOps.lean ====
section
/-! DEFINITION. TRC's outputs, state changes, timers and hold causes (chapter 2). -/

namespace Sys2Proof.Machine

/-! ### Capstan and light (R23, R24) -/

/-- The capstan target of the state, in µm/s (R23). -/
def State.capstanTarget (s : State) : Int :=
  match s.trc.state with
  | .scanning =>
    let speed := if s.trc.inZone then min s.trc.scanSpeed (s.setting Setting.spliceSpeed) else s.trc.scanSpeed
    ((speed * s.pru.live.pInt / 10 : Nat) : Int)
  | .shuttle => s.trc.shuttleTarget
  | .inching =>
    match s.trc.inch with
    | some i => if i.forward then 1000 * (s.setting Setting.inchSpeed : Int) else -(1000 * (s.setting Setting.inchSpeed : Int))
    | none => 0
  | .backup => -(1000 * (s.setting Setting.inchSpeed : Int))
  | .unthreaded | .threaded | .hold | .fault => 0

/-- The light level of the state (R24). -/
def State.lightLevel (s : State) : Nat :=
  if s.trc.gateHot then 0
  else
    match s.trc.state with
    | .scanning => s.setting Setting.lightFull
    | .threaded | .inching | .hold => if s.trc.holdLight.isSome then s.setting Setting.lightHold else 0
    | .unthreaded | .shuttle | .backup | .fault => 0

/-- Hold a capstan target and send it. While the target is 0 the silence count is held at 0 (R38). -/
def sendCapstan (v : Int) (s : State) : State :=
  (s.setTrc { s.trc with capstan := v, silence := if v = 0 then 0 else s.trc.silence }).send (.capstan v)

/-- Hold a light level and send it. -/
def sendLight (v : Nat) (s : State) : State := (s.setTrc { s.trc with light := v }).send (.light v)

/-- Recompute the target; one that differs from the last one sent goes to the head at once (R23). -/
def refreshCapstan (s : State) : State :=
  if s.capstanTarget = s.trc.capstan then s else sendCapstan s.capstanTarget s

/-- Set the level; a change goes to the head at once (R24). -/
def refreshLight (s : State) : State :=
  if s.lightLevel = s.trc.light then s else sendLight s.lightLevel s

/-! ### State changes -/

/-- The hold-light timer is used in these states (R24). -/
def TransportState.usesHoldLight : TransportState → Bool
  | .threaded | .inching | .hold => true
  | _ => false

/-- Tension high is watched in these states (R37). -/
def TransportState.watchesHigh : TransportState → Bool
  | .unthreaded | .fault => false
  | _ => true

/-- Tension low is watched in these states (R37). -/
def TransportState.watchesLow : TransportState → Bool
  | .scanning | .shuttle | .backup => true
  | _ => false

/-- Load of the hold-light timer, in milliseconds (R24). -/
def State.holdLightLoad (s : State) : Nat := s.setting Setting.holdLightLimit * 1000

/-- The transport enters a state: the hold-light timer is loaded in the states that use it and stops in the others
(R24), a tension timer returns to idle where it is not watched (R37), the inch and backup targets end with their
states, PRU drops its expectation outside SCANNING (R55), capstan and light follow. When both change, CAPSTAN is sent
before LIGHT (assumption 34). -/
def enter (st : TransportState) (s : State) : State :=
  let t := s.trc
  let s := s.setTrc { t with
    state := st
    holdLight := if st.usesHoldLight then some s.holdLightLoad else none
    tensionHigh := if st.watchesHigh then t.tensionHigh else none
    tensionLow := if st.watchesLow then t.tensionLow else none
    inch := if st = .inching then t.inch else none
    backupTarget := if st = .backup then t.backupTarget else none }
  let s := if st = .scanning then s else s.setPru { s.pru with expect := none }
  refreshLight (refreshCapstan s)

/-- The splice queue is emptied (R42). -/
def clearSplices (s : State) : State := s.setTrc { s.trc with spliceQueue := [], inZone := false }

/-! ### Hold causes (R34, R36) -/

/-- The members of the hold-cause set. -/
inductive HoldCause where
  | backpressure | gateHot | operator
deriving DecidableEq, Repr

def HoldSet.has (h : HoldSet) : HoldCause → Bool
  | .backpressure => h.backpressure
  | .gateHot => h.gateHot
  | .operator => h.operator

def HoldSet.put (h : HoldSet) (c : HoldCause) (b : Bool) : HoldSet :=
  match c with
  | .backpressure => { h with backpressure := b }
  | .gateHot => { h with gateHot := b }
  | .operator => { h with operator := b }

def HoldSet.isEmpty (h : HoldSet) : Bool := !h.backpressure && !h.gateHot && !h.operator

/-- A hold cause is added: in SCANNING and BACKUP the transport enters HOLD, and HOLD_ENTERED is raised (R34). -/
def addHold (c : HoldCause) (s : State) : State :=
  if s.trc.holds.has c then s
  else
    let t := s.setTrc { s.trc with holds := s.trc.holds.put c true }
    if s.trc.state = .scanning ∨ s.trc.state = .backup then raise .holdEntered (enter .hold t) else t

/-- The backup starts: 3 pitches back from the current position (R36). -/
def startBackup (s : State) : State :=
  enter .backup (s.setTrc { s.trc with backupTarget := some (s.trc.position - 3 * (s.pru.live.pInt : Int)) })

/-- A hold cause is removed: when that empties the set in HOLD, the backup starts (R34, R36). -/
def removeHold (c : HoldCause) (s : State) : State :=
  if s.trc.holds.has c then
    let t := s.setTrc { s.trc with holds := s.trc.holds.put c false }
    if t.trc.holds.isEmpty ∧ s.trc.state = .hold then startBackup t else t
  else s

/-! ### Timers -/

/-- Millisecond ticks for a timer. A timer at 0 waits for its expiry to be taken (R190; assumption 4). -/
def passTimer (n : Nat) : Timer → Timer := Option.map (fun left => left - n)

/-! ### Profiles and splices -/

/-- The profile of a reel, by its fragile flag (R25). -/
def profileOf (fragile : Bool) : Profile := if fragile then .fragile else .normal

/-- Table 2-2. -/
def Profile.maxSpeed : Profile → Nat
  | .normal => 240
  | .fragile => 60
def Profile.tensionHigh : Profile → Nat
  | .normal => 250
  | .fragile => 120

/-- The fragile flag of a reel, as REG holds it. -/
def State.fragile (s : State) (h : Nat) : Bool :=
  match s.reel h with
  | some r => r.fragile
  | none => false

/-- The start and end of an entry's splice zone at the gate; an open entry's zone has no end (R44). -/
def State.zoneStart (s : State) (x : Splice) : Int :=
  x.rise + s.setting Setting.spliceLead - s.setting Setting.spliceMargin
def State.zoneEnd (s : State) (x : Splice) : Option Int :=
  x.fall.map (fun f => f + s.setting Setting.spliceLead + s.setting Setting.spliceMargin)

/-- A position lies in the zone of an entry (R44). -/
def State.inZoneOf (s : State) (p : Int) (x : Splice) : Bool :=
  s.zoneStart x ≤ p &&
    (match s.zoneEnd x with
      | some e => p ≤ e
      | none => true)

/-- A position lies above the zone end of an entry (R45). -/
def State.pastZone (s : State) (p : Int) (x : Splice) : Bool :=
  match s.zoneEnd x with
  | some e => e < p
  | none => false

/-- TRC tests the current position against the zones and recomputes the target (R44). -/
def testZones (s : State) : State :=
  refreshCapstan
    (s.setTrc { s.trc with inZone := s.trc.spliceQueue.any (s.inZoneOf s.trc.position) })

/-- The SPLICE flag of a line at a position (R44). -/
def State.spliceFlag (s : State) (p : Int) : Bool :=
  s.trc.spliceQueue.any (fun x =>
    x.rise + s.setting Setting.spliceLead ≤ p &&
      (match x.fall with
        | some f => p ≤ f + s.setting Setting.spliceLead
        | none => true))

/-- The last entry of the splice queue changed. -/
def modLast (f : Splice → Splice) : List Splice → List Splice
  | [] => []
  | [x] => [f x]
  | x :: y :: rest => x :: modLast f (y :: rest)

/-- The newest entry is open: its fall position is absent (R42). -/
def newestOpen (q : List Splice) : Bool :=
  match q.getLast? with
  | some x => x.fall.isNone
  | none => false

/-- A rising edge acts on the queue (R43). -/
def risingEdge (p : Int) (q : List Splice) : List Splice :=
  if newestOpen q then q
  else if q.length < Config.splices then q ++ [⟨p, none⟩]
  else modLast (fun x => { x with fall := none }) q

/-- A falling edge acts on the queue (R43). -/
def fallingEdge (p : Int) (q : List Splice) : List Splice :=
  if newestOpen q then modLast (fun x => { x with fall := some p }) q else q

/-! ### Reports -/

/-- Any report from the head resets both counts (R38). The first report since RESET has the capstan target and the
light level sent (R22). -/
def headReport (s : State) : State :=
  let t := s.setTrc { s.trc with reportAge := 0, silence := 0, linkSeen := true }
  if s.trc.linkSeen then t else (t.send (.capstan t.trc.capstan)).send (.light t.trc.light)

end Sys2Proof.Machine
end

