-- ==== Sys2Proof/Machine/PitchOps.lean ====
section
/-! DEFINITION. PRU's arithmetic (chapter 3): pitch limits, prediction, anchors, the lock detector, adaptation, the
commit. -/

namespace Sys2Proof.Machine

/-! ### The pitch and its limits (R49; 00_scope, Table 4) -/

/-- Nominal pitch of a gauge, in ticks. -/
def Gauge.nominal : Gauge → Nat
  | .g35x4 => 19000
  | .g35x3 => 14250
  | .g16 => 7620

def Gauge.pitchMin (g : Gauge) : Nat := g.nominal * 94 / 100
def Gauge.pitchMax (g : Gauge) : Nat := g.nominal * 101 / 100

/-- Pu: the pitch in units of 1/65536 tick, without the secondary fraction (00_scope, 5.2). -/
def Pitch.pu (p : Pitch) : Nat := p.pInt * 65536 + p.f1

/-- The clamp of a pitch about to become live (R49). -/
def clampPitch (g : Gauge) (p : Pitch) : Pitch :=
  if p.pu < g.pitchMin * 65536 then { p with pInt := g.pitchMin, f1 := 0, f2 := 0 }
  else if g.pitchMax * 65536 < p.pu ∨ (p.pu = g.pitchMax * 65536 ∧ 0 < p.f2) then
    { p with pInt := g.pitchMax, f1 := 0, f2 := 0 }
  else p

/-- A pitch becomes live through the clamp; PITCH_LIMIT when the clamp changes it (R49). -/
def makeLive (p : Pitch) (s : State) : State :=
  let q := clampPitch s.pru.gauge p
  raiseIf (q != p) .pitchLimit (s.setPru { s.pru with live := q })

/-- The starting pitch of a reel (R26). -/
def startPitch (g : Gauge) (shrinkage : Option Nat) : Pitch :=
  match shrinkage with
  | some x =>
    let pu := g.nominal * 65536 * (10000 - x) / 10000
    ⟨pu / 65536, pu % 65536, 0, 2⟩
  | none => ⟨g.nominal, 0, 0, 2⟩

/-- The shrinkage of a pitch (R69). -/
def shrinkageOf (g : Gauge) (p : Pitch) : Nat :=
  (clampInt 0 999 (((g.nominal * 65536 : Nat) - (p.pu : Int)) * 10000 / ((g.nominal * 65536 : Nat) : Int))).toNat

/-! ### Prediction (R50, R51) -/

/-- The pitch as the fraction `num / den` ticks. -/
def Pitch.num (p : Pitch) : Nat := p.pu * p.m2 + p.f2
def Pitch.den (p : Pitch) : Nat := 65536 * p.m2

/-- The predicted position of the n-th line after the anchor (R51). -/
def predict (p : Pitch) (anchor : Int) (n : Int) : Int :=
  anchor + n * p.pInt + (n * ((p.f1 * p.m2 + p.f2 : Nat) : Int)) / (p.den : Int)

/-- One step of the prediction: accumulators A1 and A2, and the ticks the prediction rises by (R50). -/
structure Stepped where
  a1   : Nat
  a2   : Nat
  rise : Nat
deriving DecidableEq, Repr

def stepPitch (p : Pitch) (a1 a2 : Nat) : Stepped :=
  let c2 := if p.m2 ≤ a2 + p.f2 then 1 else 0
  let b2 := if p.m2 ≤ a2 + p.f2 then a2 + p.f2 - p.m2 else a2 + p.f2
  let c1 := if 65536 ≤ a1 + p.f1 + c2 then 1 else 0
  let b1 := if 65536 ≤ a1 + p.f1 + c2 then a1 + p.f1 + c2 - 65536 else a1 + p.f1 + c2
  ⟨b1, b2, p.pInt + c1⟩

/-- The least n whose prediction lies above a position (R51): with d = position − anchor, the least n with
n·num ≥ (d + 1)·den. -/
def leastAhead (p : Pitch) (anchor position : Int) : Int :=
  -((-((position - anchor + 1) * (p.den : Int))) / (p.num : Int))

/-- The frame expected first ahead of a position: the least frame number from 0 whose prediction lies above it; none
beyond 65535 (R51). -/
def placeFrame (p : Pitch) (anchor : Mark) (position : Int) : Option Nat :=
  let k := (max 0 ((anchor.frame : Int) + leastAhead p anchor.pos position)).toNat
  if k ≤ Config.lastFrame then some k else none

/-- PRU holds no expectation for the rest of the scan run (R51; R57, step 6). -/
def endLines (s : State) : State := s.setPru { s.pru with expect := none, linesOver := true }

/-- PRU places its expectation directly from the anchor (R51); placed beyond the window frame, the adaptation window
is marked restart pending (R63). With no line ahead of the position the run has its last line behind it. -/
def placeExpectation (s : State) : State :=
  match s.pru.anchor with
  | none => s.setPru { s.pru with expect := none }
  | some m =>
    match placeFrame s.pru.live m s.trc.position with
    | none => endLines s
    | some k =>
      let n : Int := (k : Int) - m.frame
      let p := s.pru.live
      s.setPru { s.pru with
        expect := some ⟨predict p m.pos n, k⟩
        a2 := ((n * p.f2) % (p.m2 : Int)).toNat
        a1 := ((n * p.f1 + (n * p.f2) / (p.m2 : Int)) % 65536).toNat
        window :=
          match s.pru.window with
          | .frame wf => if wf < k then .restart else .frame wf
          | w => w }

/-- The expectation steps to the next frame line (R50). -/
def stepExpectation (s : State) : State :=
  match s.pru.expect with
  | none => s
  | some m =>
    let x := stepPitch s.pru.live s.pru.a1 s.pru.a2
    s.setPru { s.pru with expect := some ⟨m.pos + x.rise, m.frame + 1⟩, a1 := x.a1, a2 := x.a2 }

/-- The effective search half-width (R56). -/
def Pru.halfWidth (u : Pru) : Int := min (u.liveReg.search : Int) ((u.live.pInt / 2 : Nat) - 1)

/-- The half-width of the expected frame's window: widened while re-anchor pending is yes (R54, R56). -/
def Pru.windowHalf (u : Pru) : Int := if u.reanchor then ((u.live.pInt / 2 : Nat) : Int) else u.halfWidth

/-! ### The lock (R54, R58 to R61) -/

/-- The lock becomes UNLOCKED with count 0; LOCK_LOST when it was LOCKED (R61). -/
def unlock (s : State) : State :=
  raiseIf (s.pru.lock == .locked) .lockLost
    (s.setPru { s.pru with lock := .unlocked, count := 0, seekFrom := none })

/-- The lock count selected by the index (Table 3-1). -/
def lockCount (index : Nat) : Nat := 2 ^ (index + 1)

/-- A measured line in the lock detector (R58). -/
def lockMeasured (e : Int) (s : State) : State :=
  let u := { s.pru with missing := 0 }
  let good := decide (e.natAbs ≤ u.liveReg.lw)
  match u.lock with
  | .unlocked =>
    if good then
      if lockCount u.liveReg.index ≤ u.count + 1 then
        raise .lockGained (s.setPru { u with count := min 64 (u.count + 1), lock := .locked })
      else s.setPru { u with count := u.count + 1 }
    else s.setPru { u with count := 0 }
  | .locked =>
    if good then s.setPru { u with count := min 64 (u.count + 1) }
    else unlock (s.setPru u)
  | .seeking => s.setPru u

/-- A missing line in the lock detector (R59). -/
def lockMissing (k : Nat) (s : State) : State :=
  let u := { s.pru with count := 0, missing := s.pru.missing + 1 }
  match u.lock with
  | .locked => if 2 ≤ u.missing then unlock (s.setPru u) else s.setPru u
  | .unlocked =>
    if 3 ≤ u.missing then
      raise .seeking (s.setPru { u with missing := 3, lock := .seeking, seekFrom := some k })
    else s.setPru u
  | .seeking => s.setPru u

/-! ### Anchorings (R53) -/

/-- The window after an anchoring at frame k: k + 2^w. -/
def Pru.windowAfter (u : Pru) (k : Nat) : AdaptWindow := .frame (k + 2 ^ u.liveReg.w)

/-- A new anchor: A1 and A2 become 0, and in SCANNING the prediction goes on from the anchor (R50, R53). -/
def anchorAt (m : Mark) (s : State) : State :=
  s.setPru { s.pru with
    anchor := some m, a1 := 0, a2 := 0, expect := if s.trc.state = .scanning then some m else none }

/-- A window anchoring, at the end of an adaptation window (R62, R63). -/
def windowAnchor (m : Mark) (s : State) : State :=
  let t := anchorAt m s
  t.setPru { t.pru with window := t.pru.windowAfter m.frame }

/-- A re-anchoring (R53). -/
def reanchorAt (m : Mark) (s : State) : State :=
  let t := unlock (anchorAt m s)
  t.setPru { t.pru with
    missing := 0, reanchor := false,
    window := if t.pru.liveReg.adapt = 1 then t.pru.windowAfter m.frame else .off }

/-! ### Adaptation (R62, R63) -/

/-- A pitch with Pu moved by `c` units of 1/65536 tick (R62). -/
def correctPitch (p : Pitch) (c : Int) : Pitch :=
  let pu := ((p.pu : Int) + c).toNat
  { p with pInt := pu / 65536, f1 := pu % 65536 }

/-- The adaptation correction at the window frame's measured edge (R62). -/
def correction (e edge : Int) (k : Nat) (s : State) : State :=
  let old := s.pru.live
  let t := makeLive (correctPitch old (e * 2 ^ (16 - s.pru.liveReg.w - s.pru.liveReg.g))) s
  let t := t.setPru { t.pru with adapted := t.pru.adapted || t.pru.live != old }
  refreshCapstan (windowAnchor ⟨edge, k⟩ t)

/-- The adaptation step of a completed line (R62, R63): `edge` with its error for a measured line. -/
def adaptStep (k : Nat) (edge : Option (Int × Int)) (s : State) : State :=
  match s.pru.window, edge with
  | .off, _ => s
  | .restart, some (pos, _) => windowAnchor ⟨pos, k⟩ s
  | .restart, none => s
  | .frame wf, some (pos, e) =>
    if k = wf then
      if s.pru.lock = .locked then correction e pos k s else windowAnchor ⟨pos, k⟩ s
    else s
  | .frame wf, none => if k = wf then s.setPru { s.pru with window := .restart } else s

/-! ### The commit (R66, R67) -/

/-- What changes of w and ADAPT_ENABLE do to the window (R63). With ADAPT_ENABLE at 0 after the commit there is no window
(R62), and a change of w marks nothing (assumption 35). -/
def windowOnCommit (old new : RegValues) (w : AdaptWindow) : AdaptWindow :=
  if new.adapt = 0 then (if old.adapt = 0 then w else .off)
  else if old.adapt = 0 ∨ old.w ≠ new.w then .restart
  else w

/-- The application of a commit (R67): `place` is the line position and frame, or the mark in THREADED, a changed pitch
re-anchors at; `none` where no anchor is made. -/
def applyCommit (place : Option Mark) (s : State) : State :=
  let old := s.pru.live
  let oldReg := s.pru.liveReg
  let t := makeLive s.pru.staged s
  let t := t.setPru { t.pru with
    liveReg := t.pru.stagedReg, commitPending := false,
    window := windowOnCommit oldReg t.pru.stagedReg t.pru.window }
  if t.pru.live = old then t
  else
    refreshCapstan
      (match place with
        | some m => reanchorAt m t
        | none => unlock t)

/-- Where a changed pitch re-anchors in THREADED: the last line, else the present anchor, else nowhere; and nowhere in
UNTHREADED (R67). -/
def State.commitPlace (s : State) : Option Mark :=
  if s.trc.state = .unthreaded then none
  else
    match s.pru.lastLine with
    | some l => some ⟨l.pos, l.frame⟩
    | none => s.pru.anchor

/-- A pending commit applies on the entry into THREADED (R66). -/
def applyPending (s : State) : State := if s.pru.commitPending then applyCommit s.commitPlace s else s

/-- The transport enters THREADED by STOP, the end of an inch, the frame limit or CLEAR_FAULT (R66). -/
def enterThreaded (s : State) : State := applyPending (enter .threaded s)

/-- STOP from a moving or holding state: THREADED, OPERATOR removed, the run ends and the splice queue is emptied
(R32). -/
def stopRun (s : State) : State :=
  enterThreaded (clearSplices (s.setTrc { s.trc with holds := s.trc.holds.put .operator false }))

/-- PRU is told of a splice passage (R54). -/
def splicePassage (s : State) : State :=
  if s.pru.lock = .seeking then s
  else
    let t := unlock s
    t.setPru { t.pru with reanchor := true }

end Sys2Proof.Machine
end

