-- ==== Sys2Proof/Machine/GradeOps.lean ====
section
/-! DEFINITION. SHT's density, cuts and flicker gain (chapter 7) and GRU's composition (R138). -/

namespace Sys2Proof.Machine

/-! ### Composition (R138) -/

/-- One layer's channel entry applied to the pair (g, l). -/
def applyChannel (x c : Channel) : Channel :=
  ⟨min 65535 ((x.gain * c.gain + 2048) / 4096), clampInt (-1023) 1023 ((x.lift * (c.gain : Int) + 2048) / 4096 + c.lift)⟩

/-- A starting gain under a base layer and a stack, level 0 first. -/
def compose (start : Nat) (base : Layer) (stack : List Layer) : Grade :=
  let layers := base :: stack
  { r := (layers.map (·.r)).foldl applyChannel ⟨start, 0⟩
    g := (layers.map (·.g)).foldl applyChannel ⟨start, 0⟩
    b := (layers.map (·.b)).foldl applyChannel ⟨start, 0⟩ }

/-- The identity channel and layer: gain 1.0 and lift 0. -/
def Channel.unit : Channel := ⟨4096, 0⟩
def Layer.unit : Layer := ⟨.unit, .unit, .unit⟩

/-- The base layer of a reel, and the stack of a shot record. -/
def State.baseOf (s : State) (h : Nat) : Layer :=
  match s.reel h with
  | some r => r.base
  | none => .unit
def State.stackOf (s : State) (r : Nat) : List Layer :=
  match s.sht.pool.read r with
  | some x => x.stack
  | none => []

/-- The grade of a frame of a reel in a shot record, from a starting gain (R139, R148). -/
def State.gradeFrom (s : State) (start h r : Nat) : Grade := compose start (s.baseOf h) (s.stackOf r)

/-! ### Density (R125, R126) -/

/-- A row's clean cells added to an accumulator (R125): every column the mask leaves out. -/
def accumulate (visible : List (BitVec 16)) (mask : List Nat) (a : Accumulator) : Accumulator :=
  let clean := (List.range 32).filter (fun j => !mask.contains j)
  ⟨a.sum + (clean.map (cellAt visible)).sum, a.count + clean.length⟩

/-- A frame's density, and whether it is held. -/
structure Density where
  m    : Nat
  held : Bool
deriving DecidableEq, Repr

/-- The density of a closing frame (R126). -/
def densityOf (complete : Bool) (a : Accumulator) (previous : Option Nat) : Density :=
  if complete ∧ 384 ≤ a.count then ⟨a.sum / a.count, false⟩
  else ⟨previous.getD 512, true⟩

/-! ### Cuts (R129, R130) -/

/-- The threshold of the cut test (R129). -/
def State.cutThreshold (s : State) (splice : Bool) : Nat :=
  if splice then s.setting Setting.cutThreshold / 2 else s.setting Setting.cutThreshold

/-- A cut candidate at frame k (R129): a new frame, complete and not held, directly after the last frame recorded in
this run, with a jump at or above the threshold. -/
def State.cutCandidate (s : State) (k : Nat) (newFrame splice : Bool) (d : Density) : Bool :=
  newFrame && !d.held && 0 < k && s.sht.lastFrame == some (k - 1) &&
    (match s.sht.previousM with
      | some m => s.cutThreshold splice ≤ ((d.m : Int) - m).natAbs
      | none => false)

/-- The candidate is suppressed: the reel's last shot is younger than MIN_SHOT (R130). -/
def State.cutSuppressed (s : State) (h k : Nat) : Bool :=
  match s.lastShot h with
  | some y => k - y.2.first < s.setting Setting.minShot
  | none => true

/-! ### Flicker (R133, R134) -/

/-- The flicker reference after a frame (R133). -/
def nextRef (u : Sht) (shift : Nat) (d : Density) (cut : Bool) : Nat :=
  if d.held then u.ref16
  else if u.firstPending ∨ cut then d.m * 256
  else ((u.ref16 : Int) + (((d.m * 256 : Nat) : Int) - u.ref16) / 2 ^ shift).toNat

/-- The flicker gain of a frame (R134). -/
def flickerGain (ref16 lo hi : Nat) (previous : Nat) (d : Density) (enable : Bool) : Nat :=
  if d.held then previous
  else if enable = false ∨ d.m < 16 then 4096
  else clampNat lo hi ((ref16 * 32 + d.m) / (2 * d.m))

/-- What SHT hands for a closing frame (R135). -/
structure ShotResult where
  density : Density
  cut     : Bool
  cutLost : Bool
  shot    : Nat
  gain    : Nat
deriving DecidableEq, Repr

/-- SHT takes a closing frame at step 3 of R80: density, cut, assignment, reference, gain (R126 to R134). -/
def takeFrame (c : CtxId) (h k : Nat) (complete newFrame splice : Bool) (s : State) : ShotResult × State :=
  let d := densityOf complete (s.sht.acc.get c) s.sht.previousM
  let isCut := s.cutCandidate k newFrame splice d && !s.cutSuppressed h k
  let free := s.freeShot
  let t :=
    if isCut then
      match free with
      | some r => s.putShot r (detectedShot h k)
      | none => raise .shotsFull s
    else s
  let shot := t.shotAt h k
  let enable :=
    match shot with
    | some y => y.2.flicker
    | none => true
  let ref := nextRef t.sht (t.setting Setting.flickerShift) d isCut
  let gain := flickerGain ref (t.setting Setting.flickerMin) (t.setting Setting.flickerMax) t.sht.previousF d enable
  ({ density := d, cut := isCut && free.isSome, cutLost := isCut && free.isNone, gain
     shot :=
      match shot with
      | some y => y.1
      | none => 0 },
   t.setSht { t.sht with
    previousM := some d.m, lastFrame := some k, firstPending := t.sht.firstPending && d.held, ref16 := ref,
    previousF := gain })

/-- The density context at a start of a scan run (R124). -/
def Sht.startRun (u : Sht) : Sht := { u with lastFrame := none, firstPending := true }

/-- The density context at THREAD and UNTHREAD (R124). -/
def Sht.clearContext (u : Sht) : Sht :=
  { u with previousM := none, lastFrame := none, firstPending := true, ref16 := 0, previousF := 4096 }

end Sys2Proof.Machine
end

