-- ==== Sys2Proof/Machine/CaptureOps.lean ====
section
/-! DEFINITION. FCU: taking a frame line, opening, closing and abandoning contexts, the frame record queue (chapter 4);
the entry into FAULT (R39). -/

namespace Sys2Proof.Machine

def State.setCtx (s : State) (c : CtxId) (x : Option Ctx) : State := s.setFcu { s.fcu with ctx := s.fcu.ctx.set c x }

/-! ### Closing a context (R80) -/

/-- FCU appends a record: FRAMES_WAITING from empty, and TRC is given the queue's length (R82, R34). -/
def appendRecord (x : FrameRecord) (s : State) : State :=
  let t := raiseIf s.fcu.queue.isEmpty .framesWaiting (s.setFcu { s.fcu with queue := s.fcu.queue ++ [x] })
  if Config.pressureOn ≤ t.fcu.queue.length then addHold .backpressure t else t

/-- Step 2 of R80: DSU closes and hands over a complete frame's regions, and reports lost cells to REG (R96, R100); it
hands nothing for an INCOMPLETE frame (R101). -/
def surveyDone (c : CtxId) (h : Nat) (complete : Bool) (s : State) : State :=
  if complete then
    let v := closeRegions (s.dsu.get c)
    let t := s.setDsu (s.dsu.set c v)
    if 0 < v.lostArea then addLostArea h v.lostArea t else t
  else s

/-- Step 5 of R80: RPQ takes a complete frame's regions (R108), or is told of an INCOMPLETE frame (R110). -/
def damageDone (x : Ctx) (complete rescan : Bool) (found : List Found) (s : State) : FrameDamage × State :=
  if complete then recordDamage x.handle x.frame rescan x.reanch found s
  else ({ recorded := 0, suppressed := 0, lost := false, refused := false, work := [], next := [] }, breakChains s)

/-- The close of a context, complete or INCOMPLETE, steps 1 to 7 (R80, R81). -/
def closeCtx (c : CtxId) (complete : Bool) (s : State) : State :=
  match s.fcu.ctx.get c with
  | none => s
  | some x =>
    let rescan := decide (x.frame < s.frontier x.handle)
    let s2 := surveyDone c x.handle complete s
    let v := s2.dsu.get c
    let s3 := takeFrame c x.handle x.frame complete (!rescan) x.splice s2
    let s4 := frameRecorded x.handle x.frame complete s3.2
    let s5 := damageDone x complete rescan (foundRegions v) s4
    let rec7 : FrameRecord :=
      { handle := x.handle, frame := x.frame, locked := x.locked, lineMissing := x.error.isNone, splice := x.splice
        incomplete := !complete, rescan, regionsFull := complete && v.full, damageLost := s5.1.lost
        cut := s3.1.cut, cutLost := s3.1.cutLost, densityHeld := s3.1.density.held
        error := clampInt (-32767) 32767 (x.error.getD 0), skipped := x.skipped
        density := s3.1.density.m, flicker := s3.1.gain, recorded := s5.1.recorded, suppressed := s5.1.suppressed
        shot := s3.1.shot, grade := s5.2.gradeFrom s3.1.gain x.handle s3.1.shot }
    appendRecord rec7 (s5.2.setCtx c none)

/-! ### The order of the contexts (section 4.1) -/

/-- The older of two OPEN contexts is the one not opened last. -/
def Fcu.older (u : Fcu) : CtxId := u.newest.other

/-- The OPEN context a row's frame number matches, the older first (R77). -/
def Fcu.matching (u : Fcu) (k : Nat) : Option CtxId :=
  let has := fun c => match u.ctx.get c with
    | some x => x.frame == k
    | none => false
  if has u.older then some u.older else if has u.newest then some u.newest else none

/-- The lowest-numbered FREE context (R72). -/
def Fcu.freeCtx (u : Fcu) : Option CtxId :=
  if u.ctx.zero.isNone then some .c0 else if u.ctx.one.isNone then some .c1 else none

/-! ### Taking a line report (R72 to R76) -/

/-- A line as PRU reports it to FCU, with TRC's SPLICE flag (R57, R44). `edge` is the error of a measured line;
`seekFrom` the frame whose line entered SEEKING, given with the re-anchoring line that ends it (R60). -/
structure LineReport where
  frame    : Nat
  error    : Option Int
  offset   : Int
  lock     : LockState
  reanch   : Bool
  splice   : Bool
  seekFrom : Option Nat
deriving DecidableEq, Repr

/-- FCU asks REG to add a range to the threaded reel's rescan list. -/
def rescanThreaded (x : FrameRange) (s : State) : State :=
  match s.trc.handle with
  | some h => rescanAdd h x s
  | none => s

/-- FCU opens context c for a line: SHT and DSU set theirs up, and CAPTURE goes to the head (R73, R86, R125). -/
def openCtx (c : CtxId) (x : LineReport) (s : State) : State :=
  let ctx : Ctx :=
    { handle := s.trc.handle.getD 0, frame := x.frame, error := x.error, offset := x.offset
      locked := x.lock == .locked, splice := x.splice, reanch := x.reanch, skipped := s.fcu.skips, nextRow := 0, age := 0 }
  let t := s.setFcu { s.fcu with
    ctx := s.fcu.ctx.set c (some ctx), newest := c, nextFrame := x.frame + 1, skips := 0 }
  let t := t.setDsu (t.dsu.set c (openSurvey (t.setting Setting.irThreshold) x.offset))
  let t := t.setSht { t.sht with acc := t.sht.acc.set c ⟨0, 0⟩ }
  t.send (.capture x.frame (x.error.getD 0))

/-- The frame is captured in context c. The other context, when it is OPEN for the same frame, is first closed
INCOMPLETE (R73). If that close put the transport into HOLD, no capture is issued (R34) and the line opens no context
(assumption 6). -/
def captureLine (c : CtxId) (x : LineReport) (s : State) : State :=
  let same :=
    match s.fcu.ctx.get c.other with
    | some y => y.frame == x.frame
    | none => false
  let t := if same then closeCtx c.other false s else s
  if t.trc.state = .scanning then openCtx c x t else t

/-- The frame is skipped: both contexts are OPEN (R74). -/
def skipLine (k : Nat) (s : State) : State :=
  let t := rescanThreaded ⟨k, k⟩ s
  let t := t.setFcu { t.fcu with skips := min 255 (t.fcu.skips + 1), nextFrame := k + 1 }
  breakChains (raise .frameSkipped t)

/-- The seeking gap before a re-anchoring line (R75). -/
def seekingGap (x : LineReport) (s : State) : State :=
  match x.seekFrom with
  | none => s
  | some from_ =>
    let f := max s.fcu.nextFrame (from_ + 1)
    if f + 1 ≤ x.frame then rescanThreaded ⟨f, x.frame - 1⟩ s else s

/-- FCU has taken the line report of frame 65535: TRC acts as for STOP and raises FRAME_LIMIT (R46, R76). A report is taken
in SCANNING, and the run ends also where the close of the same frame's other context has entered HOLD meanwhile (R73,
R34). -/
def frameLimit (k : Nat) (s : State) : State :=
  if k = Config.lastFrame then raise .frameLimit (stopRun s) else s

/-- FCU takes a line report in SCANNING (R72, R75, R76). -/
def takeLine (x : LineReport) (s : State) : State :=
  frameLimit x.frame
    (if x.lock = .seeking then
      if s.fcu.nextFrame ≤ x.frame then
        let t := rescanThreaded ⟨x.frame, x.frame⟩ s
        t.setFcu { t.fcu with nextFrame := x.frame + 1 }
      else s
    else
      let s := seekingGap x s
      if x.frame < s.fcu.nextFrame then s
      else
        match s.fcu.freeCtx with
        | some c => captureLine c x s
        | none => skipLine x.frame s)

/-! ### Rows (R77) -/

/-- A row in order: DSU takes the IR means and returns the mask, SHT the visible means with it; next row rises, and
row 23 closes the context complete (R77, R87, R125). -/
def rowInOrder (c : CtxId) (x : Ctx) (row : Nat) (ir visible : List (BitVec 16)) (s : State) : State :=
  let v := takeRow row ir (s.dsu.get c)
  let t := s.setDsu (s.dsu.set c v)
  let t := t.setSht { t.sht with acc := t.sht.acc.set c (accumulate visible v.mask (t.sht.acc.get c)) }
  let t := t.setCtx c (some { x with nextRow := row + 1 })
  if row + 1 = 24 then closeCtx c true t else t

/-- FCU takes a row message (R77). -/
def takeRowMessage (k row : Nat) (ir visible : List (BitVec 16)) (s : State) : State :=
  match s.fcu.matching k with
  | none => s.setFcu { s.fcu with strayRows := min 65535 (s.fcu.strayRows + 1) }
  | some c =>
    let s := if c = s.fcu.newest then closeCtx s.fcu.older false s else s
    match s.fcu.ctx.get c with
    | none => s
    | some x => if row = x.nextRow ∧ row < 24 then rowInOrder c x row ir visible s else closeCtx c false s

/-! ### FAULT (R39, R79) -/

/-- FCU abandons a context at a fault (R79). -/
def abandonCtx (c : CtxId) (s : State) : State :=
  match s.fcu.ctx.get c with
  | none => s
  | some x =>
    let t := rescanAdd x.handle ⟨x.frame, x.frame⟩ s
    let t := t.setSht { t.sht with acc := t.sht.acc.set c ⟨0, 0⟩ }
    breakChains (t.setCtx c none)

/-- PRU at a fault: UNLOCKED with count 0 and missing run 0, re-anchor pending no, SEEKING ended, no LOCK_LOST (R39, R54,
R61). -/
def Pru.atFault (u : Pru) : Pru :=
  { u with lock := .unlocked, count := 0, missing := 0, reanchor := false, seekFrom := none }

/-- The entry into FAULT, when a protection fires in any state but UNTHREADED and FAULT (R39). -/
def enterFault (cause : FaultCause) (s : State) : State :=
  if s.trc.state = .unthreaded ∨ s.trc.state = .fault then s
  else
    let t := s.setTrc { s.trc with fault := some cause, holds := s.trc.holds.put .operator false }
    let t := enter .fault (sendLight 0 (sendCapstan 0 (clearSplices t)))
    let t := abandonCtx t.fcu.newest (abandonCtx t.fcu.older t)
    raise .transportFault (t.setPru t.pru.atFault)

end Sys2Proof.Machine
end

