-- ==== Sys2Proof/Machine/LineOps.lean ====
section
/-! DEFINITION. PRU's processing of frame lines in SCANNING (R54 to R57, R60, R70) and what TRC does with splice
passages (R45). -/

namespace Sys2Proof.Machine

/-- The registration row offset of a line (R70). -/
def rowOffset (p : Pitch) : Option Int → Int
  | some e => roundDiv e (p.pInt / 24)
  | none => 0

/-- Step 5 of R57: the line is reported to FCU as PRU stands after step 4, with TRC's SPLICE flag. -/
def reportLine (m : Mark) (error : Option Int) (reanch : Bool) (seekFrom : Option Nat) (s : State) : State :=
  takeLine
    { frame := m.frame, error, offset := rowOffset s.pru.live error, lock := s.pru.lock, reanch,
      splice := s.spliceFlag m.pos, seekFrom } s

/-- Step 6 of R57: the expectation steps on; it is dropped when the lock is SEEKING (R59) or the transport has left
SCANNING (R55), and after frame 65535 it is over for the run. -/
def afterReport (k : Nat) (s : State) : State :=
  if Config.lastFrame ≤ k then endLines s
  else if s.trc.state = .scanning ∧ s.pru.lock ≠ .seeking then stepExpectation s
  else s.setPru { s.pru with expect := none }

/-- Step 4 of R57: a pending commit applies at this line. Answers whether it re-anchored. -/
def commitAtLine (m : Mark) (s : State) : Bool × State :=
  if s.pru.commitPending then
    let t := applyCommit (some m) s
    (t.pru.live != s.pru.live, t)
  else (false, s)

/-- The line of frame k, predicted at `pk`, completes: measured at `edge`, or missing (R57). A measured line while
re-anchor pending is yes re-anchors in place of the lock test (R54). -/
def completeLine (k : Nat) (pk : Int) (edge : Option Int) (s : State) : State :=
  let m : Mark := ⟨edge.getD pk, k⟩
  let error := edge.map (fun x => x - pk)
  let reEdge := s.pru.reanchor && edge.isSome
  let s := s.setPru { s.pru with lastLine := some ⟨k, m.pos, edge.isSome⟩ }
  let s :=
    if reEdge then reanchorAt m s
    else
      match error with
      | some e => lockMeasured e s
      | none => lockMissing k s
  let s := adaptStep k (error.map (fun e => (m.pos, e))) s
  let c := commitAtLine m s
  afterReport k (reportLine m error (reEdge || c.1) none c.2)

/-- The frame number of the edge that ends SEEKING (R60). -/
def seekFrame (p : Pitch) (origin edge : Int) (seekFrom : Nat) : Nat :=
  let n := ((edge - origin) * 65536 + ((p.pu / 2 : Nat) : Int)) / (p.pu : Int)
  min Config.lastFrame (max n ((seekFrom : Int) + 1)).toNat

/-- The first edge in SEEKING: PRU re-anchors there and reports the line (R60). -/
def seekingEdge (edge : Int) (s : State) : State :=
  let from_ := s.pru.seekFrom.getD 0
  let m : Mark := ⟨edge, seekFrame s.pru.live (s.pru.origin.getD 0) edge from_⟩
  let s := s.setPru { s.pru with lastLine := some ⟨m.frame, edge, true⟩ }
  let c := commitAtLine m (reanchorAt m s)
  afterReport m.frame (reportLine m (some 0) true (some from_) c.2)

/-- A report above the window's end declares the line missing, and further lines while it lies beyond their windows
(R56). At most five lines in one report: the third missing line of a run enters SEEKING, and one pending commit can
restart the run. -/
def declareMissing : (fuel : Nat) → (p : Int) → State → State
  | 0, _, s => s
  | fuel + 1, p, s =>
    match s.pru.expect with
    | none => s
    | some m =>
      if s.trc.state = .scanning ∧ m.pos + s.pru.windowHalf < p then
        declareMissing fuel p (completeLine m.frame m.pos none s)
      else s

def missingFuel : Nat := 8

/-- A stray edge (R56). -/
def strayEdge (s : State) : State := s.setPru { s.pru with strays := min 65535 (s.pru.strays + 1) }

/-- The edge of a report, after the missing lines it declares (R56, R60). An edge whose own report took the transport out
of SCANNING counts as nothing (assumption 37). The window tested is that of the expected frame, also where it meets the
window of the frame measured before it (assumption 38). -/
def takeEdge (p : Int) (s : State) : State :=
  if s.trc.state ≠ .scanning then s
  else if s.pru.lock = .seeking then seekingEdge p s
  else
    match s.pru.expect with
    | none => strayEdge s
    | some m => if p < m.pos - s.pru.windowHalf then strayEdge s else completeLine m.frame m.pos (some p) s

/-- One splice passage: REG's count, and PRU told to re-anchor (R45, R21). -/
def onePassage (s : State) : State :=
  splicePassage
    (match s.trc.handle with
      | some h => s.modReel h (fun r => { r with splices := min 255 (r.splices + 1) })
      | none => s)

/-- The entries whose zone end the position lies above leave the queue, oldest first (R45). After a report whose own
line has taken the transport out of SCANNING they stay for the first report in SCANNING again (assumption 40). -/
def takePassages (s : State) : State :=
  if s.trc.state ≠ .scanning then s
  else
    let gone := s.trc.spliceQueue.filter (s.pastZone s.trc.position)
    if gone.isEmpty then s
    else
      let rest := s.trc.spliceQueue.filter (fun x => !s.pastZone s.trc.position x)
      testZones (gone.foldl (fun t _ => onePassage t) (s.setTrc { s.trc with spliceQueue := rest }))

/-- The end of a backup: SCANNING again with the speed of the run, and PRU places its expectation unless SEEKING (R36,
R51) or the run has no further line (R51, R57; assumption 36). -/
def resumeScanning (s : State) : State :=
  let t := s.setTrc { s.trc with inZone := s.trc.spliceQueue.any (s.inZoneOf s.trc.position) }
  let t := if t.pru.lock = .seeking ∨ t.pru.linesOver then t else placeExpectation t
  enter .scanning t

/-- An inch has reached its target (R29). -/
def inchReached (p : Int) : Option Inch → Bool
  | some i => if i.forward then i.target ≤ p else p ≤ i.target
  | none => false

/-- A position report acts by the transport state (R22, R29, R36, R44, R45, R56). -/
def takePosition (p : Int) (s : State) : State :=
  let s := s.setTrc { s.trc with position := p }
  match s.trc.state with
  | .inching => if inchReached p s.trc.inch then enterThreaded s else s
  | .backup =>
    match s.trc.backupTarget with
    | some b => if p ≤ b then resumeScanning s else s
    | none => s
  | .scanning => takePassages (declareMissing missingFuel p (testZones s))
  | _ => s

/-- A frame-line edge report (R52, R56): the last-edge record while a reel is threaded (assumption 27), then the test in
SCANNING. The current position stays as it is (assumption 10). -/
def takeFrameLine (p : Int) (s : State) : State :=
  let s := if s.trc.state = .unthreaded then s else s.setPru { s.pru with lastEdge := some p }
  if s.trc.state = .scanning then takeEdge p (declareMissing missingFuel p s) else s

end Sys2Proof.Machine
end

