-- ==== Sys2Proof/Machine/StartUp.lean ====
section
/-! DEFINITION. RESET, the settings memory preload and the ESTOP input (R191 to R193, R39, R40); the one operation that
writes a setting (R189), which SET_SETTING and the preload share. -/

namespace Sys2Proof.Machine

/-! ### Writing a setting -/

/-- The port's role setting changes: claims are released when the new role is not REPAIR (R123), the force confirmation
is cancelled when the role changes away from VAULT (R15, R180). -/
def roleChanged (p : Port) (old : Role) (s : State) : State :=
  let t := if s.role p = .repair then s else releaseClaims p s
  if old = .vault ∧ s.role p ≠ .vault then dropConfirmation p t else t

/-- The value of a setting is replaced. -/
def State.putSetting (s : State) (i v : Nat) : State := s.setCfg { s.cfg with settings := s.cfg.settings.write i v }

/-- A setting takes a value in its range, with the effects its rule gives: INCH_SPEED and SPLICE_SPEED have the capstan
target recomputed (R23), a role change acts on claims and confirmation (R180). -/
def storeSetting (i v : Nat) (s : State) : State :=
  let t := s.putSetting i v
  match rolePort i with
  | some p => roleChanged p (s.role p) t
  | none => if i = Setting.inchSpeed ∨ i = Setting.spliceSpeed then refreshCapstan t else t

/-- The role code would give SCAN or VAULT to a port while another port holds that role (R180). -/
def duplicateRole (p : Port) (code : Nat) (s : State) : Bool :=
  (code == 1 || code == 4) && Port.all.any (fun q => q != p && s.setting (roleIndex q) == code)

/-- The write of setting `i` would duplicate a role. -/
def duplicateWrite (i v : Nat) (s : State) : Bool :=
  match rolePort i with
  | some p => duplicateRole p v s
  | none => false

/-! ### Commands -/

/-- RESET (R191): every block at its reset state, the preload RUNNING. The level of the ESTOP input is not the part's to
change, and the commands that wait go on waiting (assumptions 2 and 3). -/
def execReset (s : State) : Host.Outcome State Fault Refusal :=
  .next { State.reset with trc := { Trc.reset with estop := s.trc.estop }, pending := s.pending }

/-- The preload ends; with an error, PRELOAD_ERROR is raised for all four ports (R191, R192). The read offset stays just
after the last value that was read (assumption 39). -/
def endPreload (error : Bool) (s : State) : State :=
  let t := s.setCfg { s.cfg with running := false }
  if error then raiseAll .preloadError t else t

/-- A preload value for a setting that exists: clamped or masked, and a duplicate role becomes NONE with PRELOAD_ERROR
(R191, R192). -/
def preloadStore (row : SettingRow) (v : Nat) (s : State) : State :=
  if duplicateWrite row.index (row.range.store v) s then raiseAll .preloadError (storeSetting row.index 0 s)
  else storeSetting row.index (row.range.store v) s

/-- One value of the settings memory (R191, R192). Outside the preload it has no effect (assumption 5). -/
def takePreloadValue (offset index v : Nat) (s : State) : State :=
  if s.cfg.running = false then s
  else if 127 < index ∨ 4096 ≤ offset + 1 then endPreload true s
  else
    let t := s.setCfg { s.cfg with offset := offset + 2 }
    match settingRow index with
    | some row => preloadStore row v t
    | none => t

/-- PRELOAD_VALUE (R191). -/
def execPreloadValue (offset index value : BitVec 16) (s : State) : Host.Outcome State Fault Refusal :=
  .next (takePreloadValue offset.toNat index.toNat value.toNat (quiet s))

/-- The ends of the preload that R192 counts as faults of the settings memory. -/
def PreloadEnd.isError : PreloadEnd → Bool
  | .badSignature | .endRecord => false
  | .indexBeyond | .areaEnd => true

/-- PRELOAD_END (R191, R192). Outside the preload it has no effect (assumption 5). -/
def execPreloadEnd (why : PreloadEnd) (s : State) : Host.Outcome State Fault Refusal :=
  let q := quiet s
  .next (if q.cfg.running then endPreload (PreloadEnd.isError why) q else q)

/-- ESTOP_ASSERTED (R39): the input goes from released to asserted. An input already asserted does not fire again. -/
def execEstopAsserted (s : State) : Host.Outcome State Fault Refusal :=
  let q := quiet s
  .next (if q.trc.estop then q else enterFault .estop (q.setTrc { q.trc with estop := true }))

/-- ESTOP_RELEASED (R40): THREAD and CLEAR_FAULT can be taken again. -/
def execEstopReleased (s : State) : Host.Outcome State Fault Refusal :=
  let q := quiet s
  .next (q.setTrc { q.trc with estop := false })

end Sys2Proof.Machine
end

