-- ==== Sys2Proof/Machine/Ticks.lean ====
section
/-! DEFINITION. The ticks of TMB (R190) and what each delivers: the millisecond timers and counts of TRC, FCU and REG,
the minute timers of CAB. A tick counts; that a timer has run out is taken by the timer's own expiry (assumption 4), but
a force confirmation is absent from the tick that leaves it no time (R15).

A counter that wraps is 0 again and gives its tick in the same step. SECOND_TICK and MINUTE_TICK stand for all that is
left of the period: the ticks still to come before the wrap are delivered, and the wrap is made (assumption 9). -/

namespace Sys2Proof.Machine

/-- Millisecond ticks for the timers and counts of TRC (R24, R37, R38, R41). Report age stops at 50; silence counts
while the capstan target is not 0. -/
def Trc.pass (n : Nat) (t : Trc) : Trc :=
  { t with
    tensionHigh := passTimer n t.tensionHigh
    tensionLow := passTimer n t.tensionLow
    holdLight := passTimer n t.holdLight
    gateDelay := passTimer n t.gateDelay
    reportAge := min Config.silenceMs (t.reportAge + n)
    silence := if t.capstan = 0 then 0 else min Config.silenceMs (t.silence + n) }

/-- The age of a context, 0 to 100 ms (R78, Table 4-1). -/
def Ctx.pass (n : Nat) (x : Ctx) : Ctx := { x with age := min Config.contextMs (x.age + n) }

/-- The remaining time of a force confirmation; at 0 the confirmation is absent (R15). -/
def Confirmation.pass (n : Nat) (c : Confirmation) : Option Confirmation :=
  if c.remaining ≤ n then none else some { c with remaining := c.remaining - n }

/-- `n` millisecond ticks are delivered to every timer that counts them (R190). -/
def passMillis (n : Nat) (s : State) : State :=
  let t := s.setTrc (s.trc.pass n)
  let t := t.setFcu { t.fcu with ctx := ⟨t.fcu.ctx.zero.map (Ctx.pass n), t.fcu.ctx.one.map (Ctx.pass n)⟩ }
  t.setReg { t.reg with confirm := t.reg.confirm.map (·.bind (Confirmation.pass n)) }

/-- One minute of good climate for a RUNNING bay timer (R170). -/
def BayTimer.tick (t : BayTimer) : BayTimer :=
  if t.state = .running then { t with remaining := t.remaining - 1 } else t

/-- The minute counter wraps and gives the minute tick: the bay timers count, but not while the bay climate is OUT
(R190, R170). -/
def minuteTick (s : State) : State :=
  let t := s.setTmb ⟨0, 0, 0⟩
  if t.cab.climateOut then t else t.setCab { t.cab with bayTimers := t.cab.bayTimers.map BayTimer.tick }

/-- The second counter wraps and gives the second tick, which the minute counter counts (R190). No timer of the part
counts seconds. -/
def secondTick (s : State) : State :=
  if s.tmb.seconds + 1 < Config.minuteSeconds then s.setTmb ⟨0, 0, s.tmb.seconds + 1⟩ else minuteTick s

/-- The millisecond counter has wrapped: its tick is delivered, and the second counter counts it (R190). -/
def millisecondTick (s : State) : State :=
  let t := passMillis 1 s
  if t.tmb.millis + 1 < Config.secondMs then t.setTmb ⟨0, t.tmb.millis + 1, t.tmb.seconds⟩ else secondTick t

/-- The millisecond ticks up to the next wrap of the second counter, of the minute counter, that wrap's own included. -/
def Tmb.restOfSecond (t : Tmb) : Nat := Config.secondMs - t.millis
def Tmb.restOfMinute (t : Tmb) : Nat := (Config.minuteSeconds - t.seconds) * Config.secondMs - t.millis

/-- MILLISECOND_TICK (R190). -/
def execMillisecondTick (s : State) : Host.Outcome State Fault Refusal := .next (millisecondTick (quiet s))

/-- SECOND_TICK (R190). -/
def execSecondTick (s : State) : Host.Outcome State Fault Refusal :=
  let q := quiet s
  .next (secondTick (passMillis q.tmb.restOfSecond q))

/-- MINUTE_TICK (R190, R170). -/
def execMinuteTick (s : State) : Host.Outcome State Fault Refusal :=
  let q := quiet s
  .next (minuteTick (passMillis q.tmb.restOfMinute q))

end Sys2Proof.Machine
end

