-- ==== Sys2Proof/Machine/Head.lean ====
section
/-! DEFINITION. The reports of the scanner head (R47, Table 2-5). Every one of them but a discarded message resets the
report age and the silence count (R38). -/

namespace Sys2Proof.Machine

/-- POSITION (R22, R29, R36, R44, R45, R56). -/
def execPosition (pos : BitVec 32) (s : State) : Host.Outcome State Fault Refusal :=
  .next (takePosition pos.toInt (headReport (quiet s)))

/-- FRAME_LINE (R52, R56, R60). -/
def execFrameLine (pos : BitVec 32) (s : State) : Host.Outcome State Fault Refusal :=
  .next (takeFrameLine pos.toInt (headReport (quiet s)))

/-- A splice sensor edge (R43): ignored outside SCANNING and at or below the edge mark; in SCANNING the mark rises to the
position of every edge. -/
def takeSpliceEdge (rising : Bool) (p : Int) (s : State) : State :=
  if s.trc.state = .scanning then
    s.setTrc { s.trc with
      spliceQueue :=
        if p ≤ s.trc.edgeMark then s.trc.spliceQueue
        else if rising then risingEdge p s.trc.spliceQueue
        else fallingEdge p s.trc.spliceQueue
      edgeMark := max s.trc.edgeMark p }
  else s

/-- SPLICE_EDGE (R43). An edge byte above 1 names no edge: the report only resets the counts (assumption 7). -/
def execSpliceEdge (edge : Byte) (pos : BitVec 32) (s : State) : Host.Outcome State Fault Refusal :=
  let t := headReport (quiet s)
  .next
    (if edge.toNat = 1 then takeSpliceEdge true pos.toInt t
    else if edge.toNat = 0 then takeSpliceEdge false pos.toInt t
    else t)

/-- A tension timer at a reading (R37): started when idle and the reading is beyond the limit, idle when it is not. -/
def watchTension (delay : Nat) (beyond : Bool) : Timer → Timer
  | none => if beyond then some delay else none
  | some n => if beyond then some n else none

/-- A tension reading beyond a limit fires at once when TENSION_DELAY is 0 (R37). -/
def firesAtOnce (delay : Nat) (beyond : Bool) (t : Timer) : Bool := delay == 0 && beyond && t.isNone

/-- A tension reading in the state as it stands (R37, R39). -/
def takeTension (gf : Nat) (s : State) : State :=
  let delay := s.setting Setting.tensionDelay
  let high := s.trc.state.watchesHigh && decide (s.trc.profile.tensionHigh < gf)
  let low := s.trc.state.watchesLow && decide (gf < Config.tensionLow)
  if firesAtOnce delay high s.trc.tensionHigh then enterFault .tensionHigh s
  else if firesAtOnce delay low s.trc.tensionLow then enterFault .tensionLow s
  else
    s.setTrc { s.trc with
      tensionHigh := watchTension delay high s.trc.tensionHigh
      tensionLow := watchTension delay low s.trc.tensionLow }

/-- TENSION (R37). -/
def execTension (gf : BitVec 16) (s : State) : Host.Outcome State Fault Refusal :=
  .next (takeTension gf.toNat (headReport (quiet s)))

/-- The gate heat condition becomes active: GATE_HOT is raised, the hold cause added, the light goes to 0 (R41). -/
def heatActive (s : State) : State :=
  refreshLight (addHold .gateHot (raise .gateHot (s.setTrc { s.trc with gateHot := true, gateDelay := none })))

/-- The gate heat condition clears: the hold cause is removed, the light returns (R41). -/
def heatClear (s : State) : State := refreshLight (removeHold .gateHot (s.setTrc { s.trc with gateHot := false }))

/-- The recovery level R (R41). -/
def State.recoverLevel (s : State) : Nat :=
  min (s.setting Setting.gateTempRecover) (s.setting Setting.gateTempLimit - 10)

/-- A gate temperature reading (R41). -/
def takeGateTemp (temp : Nat) (s : State) : State :=
  if s.trc.gateHot then
    if temp ≤ s.recoverLevel then heatClear s else s
  else if s.setting Setting.gateTempLimit ≤ temp then
    match s.trc.gateDelay with
    | some _ => s
    | none =>
      if s.setting Setting.gateTempDelay = 0 then heatActive s
      else s.setTrc { s.trc with gateDelay := some (s.setting Setting.gateTempDelay * 1000) }
  else s.setTrc { s.trc with gateDelay := none }

/-- GATE_TEMP (R41). -/
def execGateTemp (temp : BitVec 16) (s : State) : Host.Outcome State Fault Refusal :=
  .next (takeGateTemp temp.toNat (headReport (quiet s)))

/-- ROW (R77). A row that does not carry 32 IR and 32 visible means does not fit its type and is discarded (R47). -/
def execRow (frame : BitVec 16) (index : Byte) (ir visible : List (BitVec 16)) (s : State) :
    Host.Outcome State Fault Refusal :=
  if ir.length = 32 ∧ visible.length = 32 then
    .next (takeRowMessage frame.toNat index.toNat ir visible (headReport (quiet s)))
  else .next (quiet s)

/-- HEAD_MESSAGE_DISCARDED (R47): it resets no count. -/
def execHeadMessageDiscarded (s : State) : Host.Outcome State Fault Refusal := .next (quiet s)

end Sys2Proof.Machine
end

