-- ==== Sys2Proof/Machine/Expiries.lean ====
section
/-! DEFINITION. The expiries of the part's timers. An expiry that is not due, its timer not having reached its end,
changes nothing (assumption 4). -/

namespace Sys2Proof.Machine

/-- TENSION_HIGH_EXPIRY (R37, R39). -/
def execTensionHighExpiry (s : State) : Host.Outcome State Fault Refusal :=
  let q := quiet s
  .next
    (if q.trc.tensionHigh = some 0 then enterFault .tensionHigh (q.setTrc { q.trc with tensionHigh := none }) else q)

/-- TENSION_LOW_EXPIRY (R37, R39). -/
def execTensionLowExpiry (s : State) : Host.Outcome State Fault Refusal :=
  let q := quiet s
  .next (if q.trc.tensionLow = some 0 then enterFault .tensionLow (q.setTrc { q.trc with tensionLow := none }) else q)

/-- HEAD_SILENCE_EXPIRY (R38, R39). -/
def execHeadSilenceExpiry (s : State) : Host.Outcome State Fault Refusal :=
  let q := quiet s
  .next (if Config.silenceMs ≤ q.trc.silence then enterFault .headSilent q else q)

/-- REPORT_AGE_EXPIRY (R38): from the tick that brought the count to 50 the head link is not alive
(`State.linkAlive`), and nothing else follows. -/
def execReportAgeExpiry (s : State) : Host.Outcome State Fault Refusal := .next (quiet s)

/-- GATE_DELAY_EXPIRY (R41). -/
def execGateDelayExpiry (s : State) : Host.Outcome State Fault Refusal :=
  let q := quiet s
  .next (if q.trc.gateDelay = some 0 then heatActive q else q)

/-- HOLD_LIGHT_EXPIRY (R24). -/
def execHoldLightExpiry (s : State) : Host.Outcome State Fault Refusal :=
  let q := quiet s
  .next (if q.trc.holdLight = some 0 then refreshLight (q.setTrc { q.trc with holdLight := none }) else q)

/-- A context is OPEN and its age has reached 100 ms (R78). -/
def Fcu.due (u : Fcu) (c : CtxId) : Bool :=
  match u.ctx.get c with
  | some x => Config.contextMs ≤ x.age
  | none => false

/-- CONTEXT_AGE_EXPIRY (R78): one context closes INCOMPLETE, the older of two that are due. -/
def execContextAgeExpiry (s : State) : Host.Outcome State Fault Refusal :=
  let q := quiet s
  .next
    (if q.fcu.due q.fcu.older then closeCtx q.fcu.older false q
    else if q.fcu.due q.fcu.newest then closeCtx q.fcu.newest false q
    else q)

/-- CONFIRMATION_EXPIRY (R15). The tick that brings the remaining time to 0 has made the confirmation absent already
(assumption 4). -/
def execConfirmationExpiry (port : Port) (s : State) : Host.Outcome State Fault Refusal :=
  let q := quiet s
  .next
    (match q.reg.confirm.get port with
    | some c => if c.remaining = 0 then dropConfirmation port q else q
    | none => q)

/-- The bay timer of a position. -/
def Cab.bayTimer (c : Cab) (n : Nat) : BayTimer := c.bayTimers.getD n .reset

/-- Replace the bay timer of a position. -/
def State.setBayTimer (s : State) (n : Nat) (t : BayTimer) : State :=
  s.setCab { s.cab with bayTimers := s.cab.bayTimers.set n t }

/-- A bay timer has reached 0 and its expiry has not been taken. -/
def BayTimer.due (t : BayTimer) : Bool := t.state == .running && t.remaining == 0

/-- The next leg an expired bay timer asks for (R170). -/
def Direction.nextLeg : Direction → MoveKind
  | .outward => .toStaging
  | .inward => .shelve

/-- The reel of bay position n asks for its next leg. -/
def askNextLeg (n : Nat) (kind : MoveKind) (s : State) : State :=
  match s.cab.bays.read n with
  | some (.holding h) => autoMove h kind s
  | _ => s

/-- The timer of bay position n becomes DONE (R170). -/
def expireBay (n : Nat) (s : State) : State :=
  let t := s.cab.bayTimer n
  refreshCab (askNextLeg n t.direction.nextLeg (raise .acclimDone (s.setBayTimer n { t with state := .done })))

/-- BAY_TIMER_EXPIRY (R170): of several timers that are due, that of the lowest position. -/
def execBayTimerExpiry (s : State) : Host.Outcome State Fault Refusal :=
  let q := quiet s
  .next
    (match (List.range Config.bays).find? (fun n => (q.cab.bayTimer n).due) with
    | some n => expireBay n q
    | none => q)

end Sys2Proof.Machine
end

