-- ==== Sys2Proof/Machine/Frames.lean ====
section
/-! DEFINITION. The frames of a station port that carry no command of a group: ignored frames, malformed requests,
unknown codes, response reads (R175, R176, R178). -/

namespace Sys2Proof.Machine

/-- FRAME_IGNORED (R175, check 1): no request, no response, no state changed. -/
def execFrameIgnored (_port : Port) (s : State) : Host.Outcome State Fault Refusal := .next (quiet s)

/-- REQUEST_MALFORMED (R175, check 3): answered BAD_ARG with the tag if it arrived, and 0 otherwise. While the preload runs
it is answered NOT_READY (R184), with tag 0 too where the tag byte did not arrive (assumption 42). -/
def execRequestMalformed (port : Port) (tag : Option Byte) (s : State) : Host.Outcome State Fault Refusal :=
  .next (serve ⟨port, tag.getD 0⟩ .any (refuse .badArg) s)

/-- UNKNOWN_COMMAND (R178, check 1). -/
def execUnknownCommand (rq : Rq) (_code : Byte) (s : State) : Host.Outcome State Fault Refusal :=
  .next (serve rq .any (refuse .unknown) s)

/-- The bytes of a response after the marker (Table 10-1): tag, status, flags, result length, results. -/
def responseBytes (r : Response) (overrun : Bool) : List Byte :=
  [r.tag, r.status] ++ flag overrun ++ u16 r.results.length ++ r.results

/-- What a read frame sends when no response is pending (R176): tag 0, status NONE, flags 0, result length 0. -/
def noResponse : Response := ⟨0, Status.none.code, []⟩

/-- `n` bytes shifted out of a list, 0x00 beyond its end (R176). -/
def shiftOut (n : Nat) (l : List Byte) : List Byte := (l ++ List.replicate n 0).take n

/-- RESPONSE_READ (R176): the response is read when every byte of header and results has been shifted out. -/
def execResponseRead (port : Port) (clocked : Nat) (s : State) : Host.Outcome State Fault Refusal :=
  let q := quiet s
  let x := q.spt.get port
  .next
    (match x.response with
    | some r =>
      let bytes := responseBytes r x.overrun
      let t := q.setOut { q.out with station := shiftOut clocked bytes }
      if bytes.length ≤ clocked then t.setPort port ⟨none, false⟩ else t
    | none => q.setOut { q.out with station := shiftOut clocked (responseBytes noResponse false) })

end Sys2Proof.Machine
end

