-- ==== Sys2Proof/Machine/PortCmds.lean ====
section
/-! DEFINITION. The PORT group (Table 10-6; R183, R187, R189). Any port may issue these commands. -/

namespace Sys2Proof.Machine

/-- Change what ALT holds for a port. -/
def State.setAlert (s : State) (p : Port) (x : AlertState) : State := s.setAlt (s.alt.set p x)

/-- READ_ALERTS (R187, R188). -/
def readAlertsBody (p : Port) : Body := fun s =>
  (s, .ok (u32 (s.alt.get p).latched.toNat ++ u32 (s.alt.get p).mask.toNat ++ [s.rawConditions]))

def execReadAlerts (rq : Rq) (s : State) : Host.Outcome State Fault Refusal :=
  .next (serve rq .any (readAlertsBody rq.port) s)

/-- ACK_ALERTS (R187). -/
def ackAlertsBody (p : Port) (kinds : BitVec 32) : Body := fun s =>
  (s.setAlert p { s.alt.get p with latched := (s.alt.get p).latched &&& ~~~(alertSet kinds) }, .ok [])

def execAckAlerts (rq : Rq) (kinds : Option (BitVec 32)) (s : State) : Host.Outcome State Fault Refusal :=
  .next (serve rq .any (withOperands kinds (ackAlertsBody rq.port)) s)

/-- SET_ALERT_MASK (R187). -/
def setAlertMaskBody (p : Port) (kinds : BitVec 32) : Body := fun s =>
  (s.setAlert p { s.alt.get p with mask := alertSet kinds }, .ok [])

def execSetAlertMask (rq : Rq) (kinds : Option (BitVec 32)) (s : State) : Host.Outcome State Fault Refusal :=
  .next (serve rq .any (withOperands kinds (setAlertMaskBody rq.port)) s)

/-- GET_SETTING (R189). An index above 127 names no setting. -/
def getSettingBody (index : Byte) : Body := fun s =>
  match settingRow index.toNat with
  | some row => (s, .ok (u16 (s.setting row.index)))
  | none => (s, .only .badArg)

def execGetSetting (rq : Rq) (index : Option Byte) (s : State) : Host.Outcome State Fault Refusal :=
  .next (serve rq .any (withOperands index getSettingBody) s)

/-- SET_SETTING (R189, R180, R186). -/
def setSettingBody (a : SettingArgs) : Body := fun s =>
  match settingRow a.index.toNat with
  | none => (s, .only .badArg)
  | some row =>
    let v := row.range.store a.value.toNat
    if duplicateWrite row.index v s then (s, .only .state)
    else (storeSetting row.index v s, .clamped (v != a.value.toNat) [])

def execSetSetting (rq : Rq) (args : Option SettingArgs) (s : State) : Host.Outcome State Fault Refusal :=
  .next (serve rq .any (withOperands args setSettingBody) s)

/-- PORT_RESET (R183). -/
def portResetBody (p : Port) : Body := fun s =>
  (releaseClaims p (dropConfirmation p ((s.setAlert p .reset).setPort p ⟨none, false⟩)), .ok [])

def execPortReset (rq : Rq) (s : State) : Host.Outcome State Fault Refusal :=
  .next (serve rq .any (portResetBody rq.port) s)

end Sys2Proof.Machine
end

