-- ==== Sys2Proof/Machine/ReelCmds.lean ====
section
/-! DEFINITION. The REEL group (Table 1-4; R7 to R17). -/

namespace Sys2Proof.Machine

/-- The checks of a reel handle (R7): above 95 BAD_ARG, a free entry `free`; else the body with the reel's record. -/
def withReel (h : Nat) (free : Status) (body : Reel → Body) : Body := fun s =>
  if Config.reels ≤ h then (s, .only .badArg)
  else
    match s.reel h with
    | some r => body r s
    | none => (s, .only free)

/-! ### REEL_QUERY and REEL_FIND (R8) -/

/-- The reel's current move: kind, entry, state; a relocation that is leg due has entry 255 and state 3; no move has
state 255 (R8, Table 10-8). -/
def currentMoveBytes (h : Nat) (s : State) : List Byte :=
  match s.cab.moveOf h with
  | some m => u8 m.kind.code ++ u8 m.entry ++ u8 m.state.code
  | none =>
    if s.cab.legDue.any (fun d => d.handle == h && d.kind == .relocate) then u8 MoveKind.relocate.code ++ u8 255 ++ u8 3
    else u8 0 ++ u8 0 ++ u8 255

/-- Every field of Table 1-1 in order, then the current move (R8). -/
def reelBytes (h : Nat) (r : Reel) (s : State) : List Byte :=
  u24 r.catalogue ++ u8 r.gauge.code ++ u8 r.acidity ++ optional 2 u16 r.shrinkage ++ flag r.fragile ++
    r.location.bytes ++ (flag true ++ u8 r.home) ++ u8 r.circulation.code ++ flag r.relocation ++ u32 r.frontier ++
    listOf FrameRange.bytes r.rescan ++ u16 r.queued ++ u16 r.claimed ++ u16 r.closed ++ u16 r.lostArea ++
    u8 r.splices ++ r.base.bytes ++ u16 (s.shotsOf h).length ++ currentMoveBytes h s

def reelQueryBody (h : Byte) : Body :=
  withReel h.toNat .none (fun r s => (s, .ok (reelBytes h.toNat r s)))

/-- REEL_QUERY (R8). -/
def execReelQuery (rq : Rq) (handle : Option Byte) (s : State) : Host.Outcome State Fault Refusal :=
  .next (serve rq .any (withOperands handle reelQueryBody) s)

/-- The handle of the admitted reel with a catalogue number. -/
def State.findReel (s : State) (catalogue : Nat) : Option Nat :=
  (s.reg.reels.find? (fun e => e.2.catalogue == catalogue)).map (·.1)

def reelFindBody (catalogue : BitVec 24) : Body := fun s =>
  if catalogue.toNat = 0 then (s, .only .badArg)
  else
    match s.findReel catalogue.toNat with
    | some h => (s, .ok (u8 h))
    | none => (s, .only .none)

/-- REEL_FIND (R8). -/
def execReelFind (rq : Rq) (catalogue : Option (BitVec 24)) (s : State) : Host.Outcome State Fault Refusal :=
  .next (serve rq .any (withOperands catalogue reelFindBody) s)

/-! ### ADMIT (R9) -/

/-- The record of a reel just admitted (R9). -/
def newReel (catalogue : Nat) (g : Gauge) (acidity slot : Nat) : Reel :=
  { catalogue, gauge := g, acidity, shrinkage := none, fragile := fragileOf acidity none, location := .slot slot
    home := slot, circulation := .shelved, relocation := false, frontier := 0, rescan := [], queued := 0, claimed := 0
    closed := 0, lostArea := 0, splices := 0, base := .unit }

/-- ADMIT carried out into entry `h` with the first shot in record `r` (R9). -/
def admitReel (h r catalogue : Nat) (g : Gauge) (acidity slot : Nat) (s : State) : State :=
  let t := s.setReg { s.reg with reels := s.reg.reels.write h (newReel catalogue g acidity slot) }
  refreshCab ((t.putShot r (detectedShot h 0)).occupy (.slot slot) (some (.holding h)))

/-- The checks of R9 in order. -/
def admitChecks (catalogue : Nat) (g : Gauge) (acidity slot : Nat) : Body := fun s =>
  if (s.findReel catalogue).isSome then (s, .only .duplicate)
  else
    match s.cab.slots.read slot with
    | some (.held _) => (s, .only .state)
    | some _ => (s, .only .noRoom)
    | none =>
      if 2 ≤ acidity ∧ slot < Config.isolation then (s, .only .wrongZone)
      else
        match s.reg.reels.firstFree Config.reels, s.freeShot with
        | some h, some r => (admitReel h r catalogue g acidity slot s, .ok (u8 h))
        | _, _ => (s, .only .full)

def admitBody (a : AdmitArgs) : Body := fun s =>
  match Gauge.ofCode a.gauge.toNat with
  | none => (s, .only .badArg)
  | some g =>
    if a.catalogue.toNat = 0 ∨ 3 < a.acidity.toNat ∨ Config.slots ≤ a.slot.toNat then (s, .only .badArg)
    else admitChecks a.catalogue.toNat g a.acidity.toNat a.slot.toNat s

/-- ADMIT (R9). -/
def execAdmit (rq : Rq) (args : Option AdmitArgs) (s : State) : Host.Outcome State Fault Refusal :=
  .next (serve rq (.role .vault) (withOperands args admitBody) s)

/-! ### SET_CONDITION (R10) -/

/-- A reel's record with another acidity class, the fragile flag recomputed (R2). -/
def Reel.withAcidity (r : Reel) (acidity : Nat) : Reel :=
  { r with acidity, fragile := fragileOf acidity r.shrinkage }

def setConditionBody (a : ConditionArgs) : Body :=
  withReel a.handle.toNat .badArg (fun r s =>
    if 3 < a.acidity.toNat then (s, .only .badArg)
    else
      let t := s.modReel a.handle.toNat (fun x => x.withAcidity a.acidity.toNat)
      let rises := r.circulation == .shelved && decide (r.acidity < 2) && decide (2 ≤ a.acidity.toNat)
      (refreshCab (if rises then relocationCheck a.handle.toNat t else t),
        .ok (flag (fragileOf a.acidity.toNat r.shrinkage))))

/-- SET_CONDITION (R10). -/
def execSetCondition (rq : Rq) (args : Option ConditionArgs) (s : State) : Host.Outcome State Fault Refusal :=
  .next (serve rq (.role .vault) (withOperands args setConditionBody) s)

/-! ### REQUEST, CANCEL, RETURN (R11 to R13) -/

/-- A reel's circulation state set. -/
def State.circulate (s : State) (h : Nat) (c : Circulation) : State := s.modReel h (fun r => { r with circulation := c })

/-- The reel's RELOCATE in the queue. -/
def State.relocateOf (s : State) (h : Nat) : Option Move :=
  match s.cab.moveOf h with
  | some m => if m.kind = .relocate then some m else none
  | none => none

/-- REQUEST withdraws the reel's relocation: the move or the leg-due mark goes, relocation pending is cleared, no drain
is made (R11, R158). -/
def withdrawRelocation (h : Nat) (s : State) : State :=
  let t :=
    match s.relocateOf h with
    | some m => s.setCab (s.cab.removeMove m.entry)
    | none => s.setCab { s.cab with legDue := s.cab.legDue.filter (fun d => !(d.handle == h && d.kind == MoveKind.relocate)) }
  t.modReel h (fun r => { r with relocation := false })

/-- REQUEST queues the FETCH_OUT: in the entry that the withdrawn RELOCATE frees (R158; assumption 41), else in the
lowest-numbered free entry (R157). -/
def createFetchOut (h : Nat) (s : State) : State :=
  match s.relocateOf h with
  | some m => createMoveIn m.entry h .fetchOut (withdrawRelocation h s)
  | none => createMove h .fetchOut (withdrawRelocation h s)

/-- REQUEST carried out (R11). -/
def requestReel (h : Nat) (s : State) : State := refreshCab ((createFetchOut h s).circulate h .outbound)

def requestBody (h : Byte) : Body :=
  withReel h.toNat .badArg (fun r s =>
    if r.circulation ≠ .shelved then (s, .only .state)
    else
      match s.relocateOf h.toNat with
      | some m => if m.state = .moving then (s, .only .busy) else (requestReel h.toNat s, .ok [])
      | none => if s.cab.freeEntry.isNone then (s, .only .full) else (requestReel h.toNat s, .ok []))

/-- REQUEST (R11). -/
def execRequest (rq : Rq) (handle : Option Byte) (s : State) : Host.Outcome State Fault Refusal :=
  .next (serve rq (.role .scan) (withOperands handle requestBody) s)

def cancelBody (h : Byte) : Body :=
  withReel h.toNat .badArg (fun r s =>
    match s.cab.moveOf h.toNat with
    | some m =>
      if r.circulation = .outbound ∧ m.kind = .fetchOut ∧ m.state = .queued then
        (refreshCab (backToShelved h.toNat (drain (s.setCab (s.cab.removeMove m.entry)))), .ok [])
      else (s, .only .state)
    | none => (s, .only .state))

/-- CANCEL (R12). -/
def execCancel (rq : Rq) (handle : Option Byte) (s : State) : Host.Outcome State Fault Refusal :=
  .next (serve rq (.role .scan) (withOperands handle cancelBody) s)

def returnBody (h : Byte) : Body :=
  withReel h.toNat .badArg (fun r s =>
    if r.circulation ≠ .ready then (s, .only .state)
    else if s.cab.freeEntry.isNone then (s, .only .full)
    else (refreshCab ((createMove h.toNat .stageBack s).circulate h.toNat .inbound), .ok []))

/-- RETURN (R13). -/
def execReturnReel (rq : Rq) (handle : Option Byte) (s : State) : Host.Outcome State Fault Refusal :=
  .next (serve rq (.role .scan) (withOperands handle returnBody) s)

/-! ### RELEASE and RELEASE FORCE (R14 to R16) -/

/-- A DISPATCH is queued and the reel becomes DISPATCHING. -/
def dispatchReel (h : Nat) (s : State) : State :=
  refreshCab ((createMove h .dispatch s).circulate h .dispatching)

/-- A plain RELEASE (R14). -/
def plainRelease (h : Nat) : Body :=
  withReel h .badArg (fun r s =>
    if r.circulation ≠ .shelved then (s, .only .state)
    else if r.relocation then (s, .only .busy)
    else if r.rescan ≠ [] ∨ 0 < r.queued ∨ 0 < r.claimed then (s, .only .pendingWork)
    else if s.cab.freeEntry.isNone then (s, .only .full)
    else (dispatchReel h s, .ok []))

/-- A claimed record of a released reel is closed WITHDRAWN and its claim voided (R16, step 3). -/
def voidClaim (s : State) (i : Nat) : State :=
  match s.rpq.damage.read i with
  | some d =>
    match d.state with
    | .claimed p => raiseFor p .claimVoided (closeDamage .withdrawn s i)
    | _ => s
  | none => s

/-- The withdrawal of all work of a reel (R16, steps 1 to 3). -/
def withdrawWork (h : Nat) (s : State) : State :=
  let t := s.modReel h (fun r => { r with rescan := [] })
  let queued := t.damageBySeq (fun d => d.handle == h && d.isQueued)
  let claimed := t.damageBySeq (fun d => d.handle == h && d.isClaimed)
  claimed.foldl voidClaim (queued.foldl (closeDamage .withdrawn) t)

/-- The confirmation stands for handle h: it names it and has not expired (R15). -/
def Confirmation.confirms (h : Nat) (c : Confirmation) : Bool := c.handle == h && decide (0 < c.remaining)

/-- RELEASE FORCE (R15, R16): `open_` is the port's force confirmation as the request found it. -/
def forceRelease (p : Port) (open_ : Option Confirmation) (h : Nat) : Body :=
  withReel h .badArg (fun r s =>
    if r.circulation ≠ .shelved then (s, .only .state)
    else if r.relocation then (s, .only .busy)
    else if open_.any (Confirmation.confirms h) then
      if s.cab.freeEntry.isNone then (s, .only .full) else (dispatchReel h (withdrawWork h s), .ok [])
    else
      (s.setReg { s.reg with confirm := s.reg.confirm.set p (some ⟨h, Config.confirmMs⟩) }, .only .confirm))

/-- A force flag of 1 is a RELEASE FORCE, above 1 it is BAD_ARG (R7). -/
def releaseBody (p : Port) (open_ : Option Confirmation) (a : ReleaseArgs) : Body :=
  if 1 < a.force.toNat then refuse .badArg
  else if a.force.toNat = 1 then forceRelease p open_ a.handle.toNat
  else plainRelease a.handle.toNat

/-- RELEASE (R14). -/
def execRelease (rq : Rq) (args : Option ReleaseArgs) (s : State) : Host.Outcome State Fault Refusal :=
  .next (serve rq (.role .vault) (withOperands args (releaseBody rq.port (s.reg.confirm.get rq.port))) s)

/-- RELEASE FORCE (R15, R16). -/
def execReleaseForce (rq : Rq) (handle : Byte) (s : State) : Host.Outcome State Fault Refusal :=
  .next (serve rq (.role .vault) (forceRelease rq.port (s.reg.confirm.get rq.port) handle.toNat) s)

end Sys2Proof.Machine
end

