-- ==== Sys2Proof/Machine/TransportCmds.lean ====
section
/-! DEFINITION. The TRANSPORT group (Table 2-3): motion (chapter 2), the pitch and registration commands (chapter 3),
READ_FRAMES (chapter 4), CLEAR_GATE (chapter 6). -/

namespace Sys2Proof.Machine

/-! ### THREAD and UNTHREAD (R26, R27, R52) -/

/-- PRU prepares for a new reel, but for the clamp of the live pitch (R26, R52). -/
def Pru.threaded (u : Pru) (g : Gauge) (p : Pitch) : Pru :=
  { u with
    gauge := g, staged := p, liveReg := u.stagedReg, commitPending := false
    origin := none, anchor := none, a1 := 0, a2 := 0, expect := none, lastEdge := none, lastLine := none
    lock := .unlocked, count := 0, missing := 0, reanchor := false, seekFrom := none
    window := .off, adapted := false, strays := 0 }

/-- PRU when the reel leaves (R52). -/
def Pru.unthreaded (u : Pru) : Pru :=
  { u with
    origin := none, anchor := none, expect := none, lastEdge := none, lastLine := none
    lock := .unlocked, count := 0, missing := 0, reanchor := false, seekFrom := none
    window := .off, adapted := false }

/-- The starting pitch goes into both copies, through the clamp into the live one (R26, R52, R49). -/
def threadPru (r : Reel) (s : State) : State :=
  let p := startPitch r.gauge r.shrinkage
  makeLive p (s.setPru (s.pru.threaded r.gauge p))

/-- The reel goes from its staging position to TRANSPORT (R6, R3). -/
def reelToTransport (h : Nat) (r : Reel) (s : State) : State :=
  (s.occupy r.location none).modReel h (fun x => { x with location := .transport, circulation := .threaded })

/-- THREAD carried out (R26). -/
def threadReel (h : Nat) (r : Reel) (s : State) : State :=
  let t := reelToTransport h r s
  let t := clearSplices (t.setTrc { t.trc with handle := some h, profile := profileOf r.fragile })
  let t := breakChains (threadPru r t)
  let t := t.setFcu { t.fcu with strayRows := 0 }
  refreshCab (enter .threaded (t.setSht t.sht.clearContext))

def threadBody (h : Byte) : Body :=
  withReel h.toNat .badArg (fun r s =>
    if s.trc.state ≠ .unthreaded then (s, .only .state)
    else if s.trc.estop then (s, .only .state)
    else if r.circulation ≠ .ready then (s, .only .state)
    else (threadReel h.toNat r s, .ok []))

/-- THREAD (R26). -/
def execThread (rq : Rq) (handle : Option Byte) (s : State) : Host.Outcome State Fault Refusal :=
  .next (serve rq (.role .scan) (withOperands handle threadBody) s)

/-- A reel's record with a measured shrinkage, the fragile flag recomputed (R6, R2). -/
def Reel.withShrinkage (r : Reel) (x : Nat) : Reel :=
  { r with shrinkage := some x, fragile := fragileOf r.acidity (some x) }

/-- The shrinkage PRU hands over at UNTHREAD, when pitch adaptation changed the pitch (R69). -/
def Pru.handover (u : Pru) : Option Nat := if u.adapted then some (shrinkageOf u.gauge u.live) else none

/-- REG takes the report of an UNTHREAD (R6). -/
def reelToStaging (h n : Nat) (shrinkage : Option Nat) (s : State) : State :=
  (s.occupy (.staging n) (some (.holding h))).modReel h (fun r =>
    let x := { r with location := .staging n, circulation := .ready }
    match shrinkage with
    | some v => x.withShrinkage v
    | none => x)

/-- UNTHREAD carried out, to staging position n (R27). TRC stops its timers: the gate delay timer here, the others with
the state. The watch of R41 starts it anew at the next reading (assumption 16). -/
def unthreadReel (n : Nat) (s : State) : State :=
  let t :=
    match s.trc.handle with
    | some h => reelToStaging h n s.pru.handover s
    | none => s
  let t := clearSplices (t.setTrc { t.trc with handle := none, gateDelay := none })
  let t := breakChains (t.setPru t.pru.unthreaded)
  refreshCab (enter .unthreaded (t.setSht t.sht.clearContext))

def unthreadBody : Body := fun s =>
  if s.trc.state ≠ .threaded then (s, .only .state)
  else if s.fcu.ctx.zero.isSome ∨ s.fcu.ctx.one.isSome then (s, .only .busy)
  else
    match s.cab.freeStaging with
    | none => (s, .only .noRoom)
    | some n => (unthreadReel n s, .ok (Place.staging n).bytes)

/-- UNTHREAD (R27). -/
def execUnthread (rq : Rq) (s : State) : Host.Outcome State Fault Refusal :=
  .next (serve rq (.role .scan) unthreadBody s)

/-! ### SET_ORIGIN, INCH, SHUTTLE, SCAN (R28 to R31) -/

/-- The origin is set at an edge (R28, R53). -/
def setOriginAt (e : Int) (s : State) : State :=
  let t := reanchorAt ⟨e, 0⟩ s
  breakChains (t.setPru { t.pru with origin := some e, lastLine := none })

def setOriginBody : Body := fun s =>
  if s.trc.state ≠ .threaded then (s, .only .state)
  else
    match s.pru.lastEdge with
    | none => (s, .only .noLine)
    | some e =>
      if s.pru.live.pInt / 2 < (e - s.trc.position).natAbs then (s, .only .noLine)
      else (setOriginAt e s, .ok (i32 e))

/-- SET_ORIGIN (R28). -/
def execSetOrigin (rq : Rq) (s : State) : Host.Outcome State Fault Refusal :=
  .next (serve rq (.role .scan) setOriginBody s)

/-- INCH carried out (R29). -/
def startInch (d : Int) (s : State) : State :=
  enter .inching (s.setTrc { s.trc with inch := some ⟨s.trc.position + d, decide (0 < d)⟩ })

def inchBody (d : BitVec 32) : Body := fun s =>
  if d.toInt = 0 ∨ 2000000 < d.toInt.natAbs then (s, .only .badArg)
  else if s.trc.state = .inching then (s, .only .busy)
  else if s.trc.state ≠ .threaded then (s, .only .state)
  else (startInch d.toInt s, .ok [])

/-- INCH (R29). -/
def execInch (rq : Rq) (distance : Option (BitVec 32)) (s : State) : Host.Outcome State Fault Refusal :=
  .next (serve rq (.role .scan) (withOperands distance inchBody) s)

/-- SHUTTLE carried out at v mm/s (R30). -/
def startShuttle (reverse : Bool) (v : Nat) (s : State) : State :=
  enter .shuttle (s.setTrc { s.trc with shuttleTarget := if reverse then -(1000 * (v : Int)) else 1000 * (v : Int) })

def shuttleBody (a : ShuttleArgs) : Body := fun s =>
  if 1 < a.direction.toNat then (s, .only .badArg)
  else if s.trc.state ≠ .threaded then (s, .only .state)
  else
    let v := clampNat 50 2000 a.speed.toNat
    (startShuttle (a.direction.toNat == 1) v s, .clamped (v != a.speed.toNat) (u16 v))

/-- SHUTTLE (R30). -/
def execShuttle (rq : Rq) (args : Option ShuttleArgs) (s : State) : Host.Outcome State Fault Refusal :=
  .next (serve rq (.role .scan) (withOperands args shuttleBody) s)

/-- The threaded reel's profile as REG's fragile flag gives it now (R25). -/
def State.scanProfile (s : State) : Profile :=
  match s.trc.handle with
  | some h => profileOf (s.fragile h)
  | none => .normal

/-- A scan run begins (R31): profile, speed, splice queue and edge mark; PRU places its expectation unless SEEKING
(R51), FCU and SHT start the run (R71, R124). -/
def startScan (profile : Profile) (speed : Nat) (s : State) : State :=
  let t := clearSplices (s.setTrc { s.trc with
    profile, scanSpeed := speed, edgeMark := s.trc.position
    tensionHigh := if profile = s.trc.profile then s.trc.tensionHigh else none })
  let t := t.setPru { t.pru with linesOver := false }
  let t := if t.pru.lock = .seeking then t else placeExpectation t
  let t := t.setFcu { t.fcu with nextFrame := 0, skips := 0 }
  enter .scanning (t.setSht t.sht.startRun)

def scanBody (speed : BitVec 16) : Body := fun s =>
  if s.trc.state ≠ .threaded then (s, .only .state)
  else if s.pru.origin.isNone then (s, .only .state)
  else if s.trc.holds.isEmpty = false then (s, .only .busy)
  else
    let v := clampNat 1 s.scanProfile.maxSpeed speed.toNat
    (startScan s.scanProfile v s, .clamped (v != speed.toNat) (u16 v ++ u8 s.scanProfile.code))

/-- SCAN (R31). -/
def execScan (rq : Rq) (speed : Option (BitVec 16)) (s : State) : Host.Outcome State Fault Refusal :=
  .next (serve rq (.role .scan) (withOperands speed scanBody) s)

/-! ### PAUSE, RESUME, STOP, CLEAR_FAULT (R32, R35, R40) -/

/-- The states of a scan run: PAUSE and RESUME are taken in these (R35). -/
def TransportState.inRun : TransportState → Bool
  | .scanning | .hold | .backup => true
  | _ => false

def pauseBody : Body := fun s =>
  if s.trc.state.inRun then (addHold .operator s, .ok []) else (s, .only .state)

/-- PAUSE (R35). -/
def execPause (rq : Rq) (s : State) : Host.Outcome State Fault Refusal :=
  .next (serve rq (.role .scan) pauseBody s)

def resumeBody : Body := fun s =>
  if s.trc.state.inRun then (removeHold .operator s, .ok []) else (s, .only .state)

/-- RESUME (R35). -/
def execResume (rq : Rq) (s : State) : Host.Outcome State Fault Refusal :=
  .next (serve rq (.role .scan) resumeBody s)

def stopBody : Body := fun s =>
  match s.trc.state with
  | .inching | .shuttle | .scanning | .hold | .backup => (stopRun s, .ok [])
  | .threaded => (s, .ok [])
  | .unthreaded | .fault => (s, .only .state)

/-- STOP (R32). -/
def execStop (rq : Rq) (s : State) : Host.Outcome State Fault Refusal :=
  .next (serve rq (.role .scan) stopBody s)

def clearFaultBody : Body := fun s =>
  if s.trc.state = .fault ∧ s.trc.estop = false ∧ s.linkAlive then
    (enterThreaded (s.setTrc { s.trc with fault := none }), .ok [])
  else (s, .only .state)

/-- CLEAR_FAULT (R40). -/
def execClearFault (rq : Rq) (s : State) : Host.Outcome State Fault Refusal :=
  .next (serve rq (.role .scan) clearFaultBody s)

/-! ### STAGE_PITCH, STAGE_REG, COMMIT, READ_PITCH (R64 to R68) -/

/-- The pitch values as STAGE_PITCH stores them (R64). -/
def stagedPitch (a : PitchArgs) : Pitch :=
  let m2 := max 2 a.m2.toNat
  ⟨max 1 a.pInt.toNat, a.f1.toNat, min (m2 - 1) a.f2.toNat, m2⟩

def stagePitchBody (a : PitchArgs) : Body := fun s =>
  let p := stagedPitch a
  (s.setPru { s.pru with staged := p },
    .clamped (p != ⟨a.pInt.toNat, a.f1.toNat, a.f2.toNat, a.m2.toNat⟩) [])

/-- STAGE_PITCH (R64). -/
def execStagePitch (rq : Rq) (args : Option PitchArgs) (s : State) : Host.Outcome State Fault Refusal :=
  .next (serve rq (.role .scan) (withOperands args stagePitchBody) s)

/-- The registration values as STAGE_REG stores them (R65). -/
def stagedReg (a : RegArgs) : RegValues :=
  { lw := clampNat 8 2000 a.lw.toNat, index := clampNat 0 5 a.index.toNat, search := clampNat 100 4000 a.search.toNat
    w := clampNat 3 6 a.w.toNat, g := clampNat 0 3 a.g.toNat, adapt := clampNat 0 1 a.adapt.toNat }

def stageRegBody (a : RegArgs) : Body := fun s =>
  let v := stagedReg a
  (s.setPru { s.pru with stagedReg := v },
    .clamped (v != ⟨a.lw.toNat, a.index.toNat, a.search.toNat, a.w.toNat, a.g.toNat, a.adapt.toNat⟩) [])

/-- STAGE_REG (R65). -/
def execStageReg (rq : Rq) (args : Option RegArgs) (s : State) : Host.Outcome State Fault Refusal :=
  .next (serve rq (.role .scan) (withOperands args stageRegBody) s)

def commitBody : Body := fun s =>
  if s.pru.commitPending then (s, .ok [])
  else if s.trc.state = .unthreaded ∨ s.trc.state = .threaded then (applyCommit s.commitPlace s, .ok [])
  else (s.setPru { s.pru with commitPending := true }, .ok [])

/-- COMMIT (R66, R67). -/
def execCommit (rq : Rq) (s : State) : Host.Outcome State Fault Refusal :=
  .next (serve rq (.role .scan) commitBody s)

/-- PRU's state as READ_PITCH lists it (R68). The last line is 1 when measured and 0 when missing, the model's code
(assumption 23). -/
def Pru.bytes (u : Pru) : List Byte :=
  u.live.bytes ++ u.staged.bytes ++ u32 u.live.pu ++ u.liveReg.bytes ++ u.stagedReg.bytes ++ i16 u.halfWidth ++
    flag u.commitPending ++ u8 u.gauge.code ++ optional 4 i32 u.origin ++
    optional 6 (fun m => i32 m.pos ++ u16 m.frame) u.anchor ++ u16 u.a1 ++ u16 u.a2 ++
    optional 6 (fun m => u16 m.frame ++ i32 m.pos) u.expect ++ optional 4 i32 u.lastEdge ++
    optional 7 (fun l => u16 l.frame ++ i32 l.pos ++ flag l.measured) u.lastLine ++ u8 u.lock.code ++ u8 u.count ++
    u8 u.missing ++ flag u.reanchor ++ u.window.bytes ++ flag u.adapted ++ u16 u.strays

def readPitchBody : Body := fun s => (s, .ok s.pru.bytes)

/-- READ_PITCH (R68). -/
def execReadPitch (rq : Rq) (s : State) : Host.Outcome State Fault Refusal :=
  .next (serve rq (.role .scan) readPitchBody s)

/-! ### READ_FRAMES, CLEAR_GATE, TRANSPORT_STATUS (R83, R117, R33) -/

/-- A frame context in the prefix of READ_FRAMES: state, frame number, next row (Table 10-2). -/
def ctxBytes : Option Ctx → List Byte
  | some x => u8 1 ++ u16 x.frame ++ u8 x.nextRow
  | none => u8 0 ++ u16 0 ++ u8 0

/-- The results of READ_FRAMES: the 12-byte prefix, then the records (Table 10-2). -/
def framesBytes (out : List FrameRecord) (left : Nat) (u : Fcu) : List Byte :=
  u8 out.length ++ u8 left ++ u16 u.strayRows ++ ctxBytes u.ctx.zero ++ ctxBytes u.ctx.one ++
    out.flatMap FrameRecord.bytes

/-- Records leave the head of the queue, and TRC is given its length (R82, R83, R34). -/
def removeFrames (n : Nat) (s : State) : State :=
  let t := s.setFcu { s.fcu with queue := s.fcu.queue.drop n }
  if t.fcu.queue.length ≤ Config.pressureOff then removeHold .backpressure t else t

def readFramesBody (count : Byte) : Body := fun s =>
  if count.toNat = 0 ∨ 4 < count.toNat then (s, .only .badArg)
  else
    let out := s.fcu.queue.take count.toNat
    let results := framesBytes out (s.fcu.queue.length - out.length) s.fcu
    if s.fcu.queue.isEmpty then (s, ⟨.none, results⟩) else (removeFrames count.toNat s, .ok results)

/-- READ_FRAMES (R83). -/
def execReadFrames (rq : Rq) (count : Option Byte) (s : State) : Host.Outcome State Fault Refusal :=
  .next (serve rq (.role .scan) (withOperands count readFramesBody) s)

def clearGateBody : Body := fun s => (breakChains (s.setRpq { s.rpq with gate := [] }), .ok [])

/-- CLEAR_GATE (R117). -/
def execClearGate (rq : Rq) (s : State) : Host.Outcome State Fault Refusal :=
  .next (serve rq (.role .scan) clearGateBody s)

/-- A splice queue entry: rise position, then the fall position with its presence (R33). -/
def Splice.bytes (x : Splice) : List Byte := i32 x.rise ++ optional 4 i32 x.fall

/-- TRC's state as TRANSPORT_STATUS lists it (R33). -/
def statusBytes (s : State) : List Byte :=
  let t := s.trc
  u8 t.state.code ++ u8 (faultCode t.fault) ++ u8 t.holds.code ++ u8 t.profile.code ++ u8 (t.handle.getD 255) ++
    u16 t.scanSpeed ++ i32 t.capstan ++ u16 t.light ++ i32 t.position ++
    i32 (match t.inch with
      | some i => i.target
      | none => 0) ++
    i32 (t.backupTarget.getD 0) ++ optional 4 i32 s.pru.origin ++ flag t.estop ++ flag s.linkAlive ++ flag t.gateHot ++
    listOf Splice.bytes t.spliceQueue

def transportStatusBody : Body := fun s => (s, .ok (statusBytes s))

/-- TRANSPORT_STATUS (R33). -/
def execTransportStatus (rq : Rq) (s : State) : Host.Outcome State Fault Refusal :=
  .next (serve rq .any transportStatusBody s)

end Sys2Proof.Machine
end

