-- ==== Sys2Proof/Machine/RepairCmds.lean ====
section
/-! DEFINITION. The REPAIR group (Table 6-3; R118 to R123, R18). -/

namespace Sys2Proof.Machine

/-! ### CLAIM_NEXT (R119) -/

/-- CLAIM_NEXT among the QUEUED records that meet a condition (R119, checks 3 and 4). -/
def claimFirst (p : Port) (cond : Damage → Bool) : Body := fun s =>
  if Config.claims ≤ s.rpq.claims.get p then (s, .only .full)
  else
    match s.queueOrder cond with
    | [] => (s, .only .none)
    | (i, d) :: _ => (moveDamage i (.claimed p) s, .ok (Damage.bytes i { d with state := .claimed p }))

/-- CLAIM_NEXT makes its own role test whatever ACCESS_CHECK is (R119, check 1). -/
def claimNextBody (p : Port) (h : Byte) : Body := fun s =>
  if s.role p ≠ .repair then (raiseFor p .accessDenied s, .only .denied)
  else if h.toNat = 255 then claimFirst p (fun _ => true) s
  else withReel h.toNat .badArg (fun _ => claimFirst p (fun d => d.handle == h.toNat)) s

def execClaimNext (rq : Rq) (handle : Option Byte) (s : State) : Host.Outcome State Fault Refusal :=
  .next (serve rq (.role .repair) (withOperands handle (claimNextBody rq.port)) s)

/-! ### COMPLETE, RELEASE_CLAIM, RELEASE_ALL (R120, R121) -/

/-- The record an entry holds, if it has the creation sequence and is CLAIMED by the port (R120, R121). -/
def State.claimedRecord (s : State) (p : Port) (index : Nat) (seq : BitVec 32) : Option Damage :=
  match s.rpq.damage.read index with
  | some d => if d.seq = seq ∧ d.claimedBy p then some d else none
  | none => none

/-- COMPLETE carried out (R120). -/
def completeRecord (i : Nat) (d : Damage) (o : DamageOutcome) (s : State) : State :=
  let t := closeDamage o s i
  if o = .needsRescan then rescanAdd d.handle ⟨d.frame, d.frame⟩ t else t

def completeBody (p : Port) (a : CompleteArgs) : Body := fun s =>
  match DamageOutcome.ofCode a.outcome.toNat with
  | none => (s, .only .badArg)
  | some o =>
    if Config.damage ≤ a.index.toNat then (s, .only .badArg)
    else
      match s.claimedRecord p a.index.toNat a.seq with
      | some d => (completeRecord a.index.toNat d o s, .ok [])
      | none => (s, .only .state)

/-- COMPLETE (R120). -/
def execComplete (rq : Rq) (args : Option CompleteArgs) (s : State) : Host.Outcome State Fault Refusal :=
  .next (serve rq (.role .repair) (withOperands args (completeBody rq.port)) s)

def releaseClaimBody (p : Port) (a : ClaimArgs) : Body := fun s =>
  if Config.damage ≤ a.index.toNat then (s, .only .badArg)
  else
    match s.claimedRecord p a.index.toNat a.seq with
    | some _ => (raiseIf (!s.repairWaiting) .repairWaiting (moveDamage a.index.toNat .queued s), .ok [])
    | none => (s, .only .state)

/-- RELEASE_CLAIM (R121). -/
def execReleaseClaim (rq : Rq) (args : Option ClaimArgs) (s : State) : Host.Outcome State Fault Refusal :=
  .next (serve rq (.role .repair) (withOperands args (releaseClaimBody rq.port)) s)

def releaseAllBody (p : Port) : Body := fun s =>
  (releaseClaims p s, .ok (u8 (s.damageBySeq (fun d => d.claimedBy p)).length))

/-- RELEASE_ALL (R121). -/
def execReleaseAll (rq : Rq) (s : State) : Host.Outcome State Fault Refusal :=
  .next (serve rq (.role .repair) (releaseAllBody rq.port) s)

/-! ### DAMAGE_LIST (R122) and RESCAN_ADD (R18) -/

def damageListBody (a : DamageListArgs) : Body :=
  withReel a.handle.toNat .badArg (fun _ s =>
    if 1023 < a.pass.toNat ∨ a.count.toNat = 0 ∨ 4 < a.count.toNat then (s, .only .badArg)
    else
      let rest := (s.damageOf a.handle.toNat a.first.toNat).drop a.pass.toNat
      let out := rest.take a.count.toNat
      if out.isEmpty then (s, .only .none)
      else (s, .ok (listOf (fun e => Damage.bytes e.1 e.2) out ++ u16 (rest.length - out.length))))

/-- DAMAGE_LIST (R122). -/
def execDamageList (rq : Rq) (args : Option DamageListArgs) (s : State) : Host.Outcome State Fault Refusal :=
  .next (serve rq .any (withOperands args damageListBody) s)

def rescanAddBody (a : RescanArgs) : Body :=
  withReel a.handle.toNat .badArg (fun r s =>
    if a.last.toNat < a.first.toNat ∨ r.frontier ≤ a.last.toNat then (s, .only .badArg)
    else if r.circulation = .dispatching then (s, .only .state)
    else (rescanAdd a.handle.toNat ⟨a.first.toNat, a.last.toNat⟩ s, .ok []))

/-- RESCAN_ADD (R18). -/
def execRescanAdd (rq : Rq) (args : Option RescanArgs) (s : State) : Host.Outcome State Fault Refusal :=
  .next (serve rq (.role .repair) (withOperands args rescanAddBody) s)

end Sys2Proof.Machine
end

