-- ==== Sys2Proof/Machine/GradeCmds.lean ====
section
/-! DEFINITION. The GRADE group (Table 8-3; R140 to R150). -/

namespace Sys2Proof.Machine

/-- The checks of a shot record number (R140): above 511 or not in use is BAD_ARG. -/
def withShot (n : Nat) (body : Shot → Body) : Body := fun s =>
  match s.sht.pool.read n with
  | some x => if Config.shots ≤ n then (s, .only .badArg) else body x s
  | none => (s, .only .badArg)

/-- An edit of an OPEN shot; an APPROVED one is refused STATE (R140, check 3). -/
def withOpenShot (n : Nat) (body : Shot → Body) : Body :=
  withShot n (fun x => if x.state = .approved then refuse .state else body x)

/-! ### SHOT_LIST (R141) -/

/-- A shot as SHOT_LIST returns it: the last frame with a presence flag, absent for an empty range. -/
def shotBytes (s : State) (e : Nat × Shot) : List Byte :=
  u16 e.1 ++ u16 e.2.first ++
    optional 2 u16 (if e.2.first < s.shotStop e.2 then some (s.shotStop e.2 - 1) else none) ++ u8 e.2.state.code ++
    flag e.2.flicker ++ u8 e.2.origin.code ++ listOf Layer.bytes e.2.stack

/-- The reel's shots from the one a frame is assigned to onward (R141). -/
def State.shotsFrom (s : State) (h f : Nat) : List (Nat × Shot) :=
  match s.shotAt h f with
  | some x => (s.shotsOf h).filter (fun y => decide (x.2.first ≤ y.2.first))
  | none => []

def shotListBody (a : ShotListArgs) : Body :=
  withReel a.handle.toNat .badArg (fun _ s =>
    if a.count.toNat = 0 ∨ 8 < a.count.toNat then (s, .only .badArg)
    else
      let all := s.shotsFrom a.handle.toNat a.first.toNat
      let out := all.take a.count.toNat
      (s, .ok (listOf (shotBytes s) out ++ u16 (all.length - out.length))))

/-- SHOT_LIST (R141). -/
def execShotList (rq : Rq) (args : Option ShotListArgs) (s : State) : Host.Outcome State Fault Refusal :=
  .next (serve rq .any (withOperands args shotListBody) s)

/-! ### Layers (R142 to R145) -/

def setBaseBody (a : BaseArgs) : Body :=
  withReel a.handle.toNat .badArg (fun _ s =>
    if (s.shotsOf a.handle.toNat).any (fun y => y.2.state == .approved) then (s, .only .state)
    else (s.modReel a.handle.toNat (fun r => { r with base := layerOf a.layer }), .clamped (layerClamped a.layer) []))

/-- SET_BASE (R142). -/
def execSetBase (rq : Rq) (args : Option BaseArgs) (s : State) : Host.Outcome State Fault Refusal :=
  .next (serve rq (.role .grade) (withOperands args setBaseBody) s)

def pushLayerBody (a : PushArgs) : Body :=
  withOpenShot a.shot.toNat (fun x s =>
    if Config.layers ≤ x.stack.length then (s, .only .full)
    else
      (s.modShot a.shot.toNat (fun y => { y with stack := y.stack ++ [layerOf a.layer] }),
        .clamped (layerClamped a.layer) (u8 (x.stack.length + 1))))

/-- PUSH_LAYER (R143). -/
def execPushLayer (rq : Rq) (args : Option PushArgs) (s : State) : Host.Outcome State Fault Refusal :=
  .next (serve rq (.role .grade) (withOperands args pushLayerBody) s)

def popLayerBody (n : BitVec 16) : Body :=
  withOpenShot n.toNat (fun x s =>
    if x.stack.isEmpty then (s, .only .state)
    else (s.modShot n.toNat (fun y => { y with stack := y.stack.dropLast }), .ok (u8 (x.stack.length - 1))))

/-- POP_LAYER (R143). -/
def execPopLayer (rq : Rq) (shot : Option (BitVec 16)) (s : State) : Host.Outcome State Fault Refusal :=
  .next (serve rq (.role .grade) (withOperands shot popLayerBody) s)

/-- A level above 6 is BAD_ARG before everything (R140), a level at or above the count after the STATE check (R144). -/
def setLayerBody (a : SetLayerArgs) : Body :=
  if Config.layers ≤ a.level.toNat then refuse .badArg
  else
    withOpenShot a.shot.toNat (fun x s =>
      if x.stack.length ≤ a.level.toNat then (s, .only .badArg)
      else
        (s.modShot a.shot.toNat (fun y => { y with stack := y.stack.set a.level.toNat (layerOf a.layer) }),
          .clamped (layerClamped a.layer) []))

/-- SET_LAYER (R144). -/
def execSetLayer (rq : Rq) (args : Option SetLayerArgs) (s : State) : Host.Outcome State Fault Refusal :=
  .next (serve rq (.role .grade) (withOperands args setLayerBody) s)

def setFlickerBody (a : FlickerArgs) : Body :=
  if 1 < a.enable.toNat then refuse .badArg
  else
    withOpenShot a.shot.toNat (fun _ s =>
      (s.modShot a.shot.toNat (fun y => { y with flicker := a.enable.toNat == 1 }), .ok []))

/-- SET_FLICKER (R145). -/
def execSetFlicker (rq : Rq) (args : Option FlickerArgs) (s : State) : Host.Outcome State Fault Refusal :=
  .next (serve rq (.role .grade) (withOperands args setFlickerBody) s)

/-! ### SPLIT and MERGE (R146, R147) -/

/-- The new shot of a SPLIT at frame f (R146). -/
def splitShot (x : Shot) (f : Nat) : Shot := { x with first := f, state := .editable, origin := .edited }

def splitBody (a : SplitArgs) : Body :=
  withOpenShot a.shot.toNat (fun x s =>
    if a.frame.toNat ≤ x.first ∨ s.shotStop x ≤ a.frame.toNat then (s, .only .badArg)
    else
      match s.freeShot with
      | none => (s, .only .full)
      | some n => (s.putShot n (splitShot x a.frame.toNat), .ok (u16 n)))

/-- SPLIT (R146). -/
def execSplit (rq : Rq) (args : Option SplitArgs) (s : State) : Host.Outcome State Fault Refusal :=
  .next (serve rq (.role .grade) (withOperands args splitBody) s)

/-- Shot n takes the following shot in, whose record n' returns to the pool (R147). -/
def mergeShots (n n' : Nat) (s : State) : State :=
  let t := s.modShot n (fun y => { y with origin := .edited })
  t.setSht { t.sht with pool := t.sht.pool.erase n' }

def mergeBody (n : BitVec 16) : Body :=
  withOpenShot n.toNat (fun x s =>
    match s.nextShot x with
    | none => (s, .only .state)
    | some y => if y.2.state = .approved then (s, .only .state) else (mergeShots n.toNat y.1 s, .ok []))

/-- MERGE (R147). -/
def execMerge (rq : Rq) (shot : Option (BitVec 16)) (s : State) : Host.Outcome State Fault Refusal :=
  .next (serve rq (.role .grade) (withOperands shot mergeBody) s)

/-! ### APPROVE, REOPEN, GRADE_QUERY (R148 to R150) -/

/-- A damage record is open work of severity MAJOR: QUEUED or CLAIMED (R149). -/
def Damage.openMajor (d : Damage) : Bool := d.severity == .major && (d.isQueued || d.isClaimed)

/-- Work stands in the way of an approval: an open MAJOR record or a listed frame in the shot's range (R149). -/
def State.pendingWork (s : State) (x : Shot) : Bool :=
  s.rpq.damage.any (fun e => e.2.handle == x.handle && e.2.openMajor && s.shotHas x e.2.frame) ||
    (match s.reel x.handle with
      | some r => rangesMeet r.rescan x.first (s.shotStop x)
      | none => false)

def approveBody (n : BitVec 16) : Body :=
  withShot n.toNat (fun x s =>
    if x.state = .approved then (s, .only .state)
    else if s.pendingWork x then (s, .only .pendingWork)
    else (s.modShot n.toNat (fun y => { y with state := .approved }), .ok []))

/-- APPROVE (R149). -/
def execApprove (rq : Rq) (shot : Option (BitVec 16)) (s : State) : Host.Outcome State Fault Refusal :=
  .next (serve rq (.role .grade) (withOperands shot approveBody) s)

def reopenBody (n : BitVec 16) : Body :=
  withShot n.toNat (fun x s =>
    if x.state = .approved then (s.modShot n.toNat (fun y => { y with state := .editable }), .ok [])
    else (s, .only .state))

/-- REOPEN (R150). -/
def execReopen (rq : Rq) (shot : Option (BitVec 16)) (s : State) : Host.Outcome State Fault Refusal :=
  .next (serve rq (.role .grade) (withOperands shot reopenBody) s)

def gradeQueryBody (a : GradeQueryArgs) : Body :=
  withReel a.handle.toNat .badArg (fun _ s =>
    match s.shotAt a.handle.toNat a.frame.toNat with
    | some x =>
      (s, .ok (u16 x.1 ++ u8 x.2.state.code ++ (s.gradeFrom 4096 a.handle.toNat x.1).bytes))
    | none => (s, .only .none))

/-- GRADE_QUERY (R148). Every admitted reel has a shot, so the answer NONE does not occur in a run (assumption 20). -/
def execGradeQuery (rq : Rq) (args : Option GradeQueryArgs) (s : State) : Host.Outcome State Fault Refusal :=
  .next (serve rq .any (withOperands args gradeQueryBody) s)

end Sys2Proof.Machine
end

