-- ==== Sys2Proof/Machine/VaultCmds.lean ====
section
/-! DEFINITION. The VAULT group (Table 9-4; R162 to R172). -/

namespace Sys2Proof.Machine

/-! ### TAKE_MOVE (R162) -/

/-- The catalogue number of a reel. -/
def State.catalogueOf (s : State) (h : Nat) : Nat :=
  match s.reel h with
  | some r => r.catalogue
  | none => 0

/-- A move as the VAULT commands return it (section 9.3). -/
def moveBytes (s : State) (m : Move) : List Byte :=
  u8 m.entry ++ u8 m.kind.code ++ u8 m.handle ++ u24 (s.catalogueOf m.handle) ++ m.source.bytes ++ destBytes m.dest ++
    u8 m.state.code

/-- A hand-out (R162): the destination chosen and reserved, the source held, the reel in the gripper. -/
def handOut (m : Move) (d : Place) (s : State) : State :=
  let t := s.setCab (s.cab.modMove m.entry (fun x => { x with dest := some d, state := .moving }))
  let t := (t.occupy d (some (.reserved m.entry))).occupy m.source (some (.held m.entry))
  let t := t.setCab { t.cab with gripper := some ⟨m.handle, m.entry⟩ }
  refreshCab (t.modReel m.handle (fun r => { r with location := .gripper }))

def takeMoveBody : Body := fun s =>
  if s.cab.moving.isSome then (s, .only .busy)
  else
    match s.oldestEligible with
    | none => (s, .only .none)
    | some m =>
      match s.chooseDest m with
      | none => (s, .only .none)
      | some d => (handOut m d s, .ok (moveBytes s { m with dest := some d, state := .moving }))

/-- TAKE_MOVE (R162). -/
def execTakeMove (rq : Rq) (s : State) : Host.Outcome State Fault Refusal :=
  .next (serve rq (.role .vault) takeMoveBody s)

/-! ### MOVE_DONE (R163, R169, R17) -/

/-- A record is freed (R17): shots, damage records, confirmations that name the handle, the entry. -/
def freeReel (h : Nat) (s : State) : State :=
  let t := s.setSht { s.sht with pool := s.sht.pool.filter (fun e => e.2.handle != h) }
  let t := freeDamage h t
  t.setReg
    { reels := t.reg.reels.erase h
      confirm := t.reg.confirm.map (fun c => if c.any (fun x => x.handle == h) then none else c) }

/-- The length of an OUT timer for a reel (R169). -/
def State.outMinutes (s : State) (r : Reel) : Nat :=
  (if r.gauge = .g16 then s.setting Setting.acclimOut16 else s.setting Setting.acclimOut35) +
    (if r.fragile then s.setting Setting.acclimFragileExtra else 0)

/-- A bay timer starts for the reel a move has brought (R169). -/
def startBay (n : Nat) (d : Direction) (minutes : Nat) (s : State) : State := s.setBayTimer n ⟨.running, d, minutes⟩

/-- The timer of the bay position a reel has left becomes IDLE (R170). -/
def idleBay (p : Place) (s : State) : State :=
  match p with
  | .bay n => s.setBayTimer n { s.cab.bayTimer n with state := .idle, remaining := 0 }
  | _ => s

/-- A reel's location. -/
def State.locate (s : State) (h : Nat) (p : Place) : State := s.modReel h (fun r => { r with location := p })

/-- A reel shelved: location, home slot. -/
def State.home (s : State) (h : Nat) (p : Place) : State :=
  match p with
  | .slot n => s.modReel h (fun r => { r with location := p, home := n })
  | _ => s.locate h p

/-- The OUT timer of the bay a FETCH_OUT has reached. -/
def startOut (h : Nat) (d : Place) (s : State) : State :=
  match d, s.reel h with
  | .bay n, some r => startBay n .outward (s.outMinutes r) s
  | _, _ => s

/-- The IN timer of the bay a STAGE_BACK has reached. -/
def startIn (d : Place) (s : State) : State :=
  match d with
  | .bay n => startBay n .inward (s.setting Setting.acclimIn) s
  | _ => s

/-- REG's update of the record and the follow-up of the kind (R163 steps 3 and 4, Table 1-3). -/
def followUp (m : Move) (d : Place) (s : State) : State :=
  match m.kind with
  | .fetchOut => startOut m.handle d (s.locate m.handle d)
  | .toStaging =>
    raise .reelReady (idleBay m.source ((s.locate m.handle d).circulate m.handle .ready))
  | .stageBack => startIn d (s.locate m.handle d)
  | .shelve =>
    relocationCheck m.handle (idleBay m.source ((s.home m.handle d).circulate m.handle .shelved))
  | .relocate => (s.home m.handle d).modReel m.handle (fun r => { r with relocation := false })
  | .dispatch => freeReel m.handle s

/-- The move in flight is done (R163). -/
def finishMove (m : Move) (d : Place) (s : State) : State :=
  let t := (s.occupy d (some (.holding m.handle))).occupy m.source none
  let t := drain (t.setCab { t.cab.removeMove m.entry with gripper := none })
  refreshCab (followUp m d t)

def moveDoneBody : Body := fun s =>
  match s.cab.moving with
  | none => (s, .only .state)
  | some m => (finishMove m (m.dest.getD .exit) s, .ok (u8 m.entry ++ destBytes m.dest))

/-- MOVE_DONE (R163). -/
def execMoveDone (rq : Rq) (s : State) : Host.Outcome State Fault Refusal :=
  .next (serve rq (.role .vault) moveDoneBody s)

/-! ### MOVE_FAILED, RETRY, CANCEL_MOVE (R164 to R166) -/

/-- The destination a failed move had reserved becomes EMPTY. -/
def freeDest (d : Option Place) (s : State) : State :=
  match d with
  | some p => s.occupy p none
  | none => s

/-- The move in flight has failed (R164). -/
def failMove (m : Move) (s : State) : State :=
  let t := (freeDest m.dest s).occupy m.source (some (.holding m.handle))
  let t := t.setCab { t.cab.modMove m.entry (fun x => { x with dest := none, state := .blocked }) with gripper := none }
  refreshCab (raise .moveFailed (t.locate m.handle m.source))

def moveFailedBody : Body := fun s =>
  match s.cab.moving with
  | none => (s, .only .state)
  | some m => (failMove m s, .ok (u8 m.entry))

/-- MOVE_FAILED (R164). -/
def execMoveFailed (rq : Rq) (s : State) : Host.Outcome State Fault Refusal :=
  .next (serve rq (.role .vault) moveFailedBody s)

/-- The checks of entry and handle that RETRY and CANCEL_MOVE share (R165, R166). -/
def withMove (a : MoveArgs) (body : Move → Body) : Body := fun s =>
  if Config.moves ≤ a.entry.toNat ∨ Config.reels ≤ a.handle.toNat then (s, .only .badArg)
  else
    match s.cab.moves.find? (fun m => m.entry == a.entry.toNat) with
    | some m => if m.handle = a.handle.toNat then body m s else (s, .only .state)
    | none => (s, .only .state)

def retryBody (a : MoveArgs) : Body :=
  withMove a (fun m s =>
    if m.state = .blocked then
      (refreshCab (s.setCab (s.cab.modMove m.entry (fun x => { x with state := .queued }))), .ok [])
    else (s, .only .state))

/-- RETRY (R165). -/
def execRetry (rq : Rq) (args : Option MoveArgs) (s : State) : Host.Outcome State Fault Refusal :=
  .next (serve rq (.role .vault) (withOperands args retryBody) s)

/-- The kinds CANCEL_MOVE withdraws (R166, check 4). -/
def MoveKind.cancellable : MoveKind → Bool
  | .fetchOut | .relocate | .dispatch => true
  | .toStaging | .stageBack | .shelve => false

/-- The move of an entry is withdrawn and the record updated (R166, Table 1-3). -/
def cancelMove (m : Move) (s : State) : State :=
  let t := drain (s.setCab (s.cab.removeMove m.entry))
  refreshCab
    (if m.kind = .relocate then t.modReel m.handle (fun r => { r with relocation := false })
    else backToShelved m.handle t)

def cancelMoveBody (a : MoveArgs) : Body :=
  withMove a (fun m s =>
    if m.state = .moving ∨ m.kind.cancellable = false then (s, .only .state) else (cancelMove m s, .ok []))

/-- CANCEL_MOVE (R166). -/
def execCancelMove (rq : Rq) (args : Option MoveArgs) (s : State) : Host.Outcome State Fault Refusal :=
  .next (serve rq (.role .vault) (withOperands args cancelMoveBody) s)

/-! ### BAY_CLIMATE (R171) -/

def bayClimateBody (v : Byte) : Body := fun s =>
  if 1 < v.toNat then (s, .only .badArg) else (s.setCab { s.cab with climateOut := v.toNat == 1 }, .ok [])

/-- BAY_CLIMATE (R171). -/
def execBayClimate (rq : Rq) (climate : Option Byte) (s : State) : Host.Outcome State Fault Refusal :=
  .next (serve rq (.role .vault) (withOperands climate bayClimateBody) s)

/-! ### POSITIONS and MOVE_LIST (R167, R168, R172) -/

/-- Lamp states (R172). -/
inductive Lamp where
  | off | slow | fast | steady
deriving DecidableEq, Repr

def Lamp.code : Lamp → Nat
  | .off => 0
  | .slow => 1
  | .fast => 2
  | .steady => 3

/-- The lamp of a bay position (R172). -/
def Cab.bayLamp (c : Cab) (n : Nat) : Lamp :=
  match c.bays.read n, (c.bayTimer n).state with
  | some (.holding _), .running => if c.climateOut then .fast else .slow
  | some (.holding _), .done => .steady
  | _, _ => .off

/-- The lamp of a staging position (R172). -/
def State.stagingLamp (s : State) (n : Nat) : Lamp :=
  match s.cab.stagings.read n with
  | some (.reserved _) => .slow
  | some (.holding h) =>
    match s.reel h with
    | some r =>
      match r.circulation with
      | .inbound => .slow
      | .ready => .steady
      | _ => .off
    | none => .off
  | _ => .off

/-- Position kinds of POSITIONS (section 9.3): the position of a number, and the kind's last number. -/
def positionOf : (kind n : Nat) → Place
  | 0, n => .slot n
  | 1, n => .bay n
  | _, n => .staging n
def lastPosition (kind : Nat) : Nat := if kind = 0 then Config.slots - 1 else Config.bays - 1

/-- An occupancy with the reel handle when HOLDING and the move entry when RESERVED or HELD, 0 where they do not
apply. -/
def occupancyBytes : Option Occupancy → List Byte
  | none => u8 0 ++ u8 0 ++ u8 0
  | some (.holding h) => u8 1 ++ u8 h ++ u8 0
  | some (.reserved e) => u8 2 ++ u8 0 ++ u8 e
  | some (.held e) => u8 3 ++ u8 0 ++ u8 e

/-- One entry of POSITIONS (R167): the position, its occupancy, a slot's zone, a bay position's timer, the lamp; zeros
where an item does not apply (R177). -/
def positionBytes (s : State) (p : Place) : List Byte :=
  p.bytes ++ occupancyBytes (s.cab.occupancy p) ++
    (match p with
    | .slot n => flag (isolationSlot n) ++ u8 0 ++ u8 0 ++ u16 0 ++ u8 0
    | .bay n =>
      let t := s.cab.bayTimer n
      u8 0 ++ u8 t.state.code ++ u8 t.direction.code ++ u16 t.remaining ++ u8 (s.cab.bayLamp n).code
    | .staging n => u8 0 ++ u8 0 ++ u8 0 ++ u16 0 ++ u8 (s.stagingLamp n).code
    | _ => bytesOf 6 0)

/-- The gripper: a presence flag, then the reel handle and the move entry. -/
def gripBytes (g : Option Grip) : List Byte := optional 2 (fun x => u8 x.handle ++ u8 x.entry) g

def positionsBody (a : PositionsArgs) : Body := fun s =>
  if 2 < a.kind.toNat ∨ lastPosition a.kind.toNat < a.first.toNat ∨ a.count.toNat = 0 ∨ 16 < a.count.toNat then
    (s, .only .badArg)
  else
    let n := min a.count.toNat (lastPosition a.kind.toNat + 1 - a.first.toNat)
    let places := (List.range n).map (fun i => positionOf a.kind.toNat (a.first.toNat + i))
    (s, .ok (listOf (positionBytes s) places ++ flag s.cab.climateOut ++ gripBytes s.cab.gripper))

/-- POSITIONS (R167). -/
def execPositions (rq : Rq) (args : Option PositionsArgs) (s : State) : Host.Outcome State Fault Refusal :=
  .next (serve rq .any (withOperands args positionsBody) s)

/-- The leg-due list as MOVE_LIST gives it: the number of marks, the handle and kind of the oldest, 0 without one. -/
def legDueBytes (l : List LegDue) : List Byte :=
  u8 l.length ++
    (match l with
    | [] => u8 0 ++ u8 0
    | d :: _ => u8 d.handle ++ u8 d.kind.code)

def moveListBody : Body := fun s => (s, .ok (listOf (moveBytes s) s.cab.moves ++ legDueBytes s.cab.legDue))

/-- MOVE_LIST (R168). -/
def execMoveList (rq : Rq) (s : State) : Host.Outcome State Fault Refusal :=
  .next (serve rq .any moveListBody s)

end Sys2Proof.Machine
end

