-- ==== Sys2Proof/Machine/Dispatch.lean ====
section
/-! DEFINITION. One command on one state: each command's own meaning. -/

namespace Sys2Proof.Machine

def exec (i : Instr) (s : State) : Host.Outcome State Fault Refusal :=
  match i with
  | .reset => Sys2Proof.Machine.execReset s
  | .preloadValue offset index value => Sys2Proof.Machine.execPreloadValue offset index value s
  | .preloadEnd why => Sys2Proof.Machine.execPreloadEnd why s
  | .estopAsserted => Sys2Proof.Machine.execEstopAsserted s
  | .estopReleased => Sys2Proof.Machine.execEstopReleased s
  | .millisecondTick => Sys2Proof.Machine.execMillisecondTick s
  | .secondTick => Sys2Proof.Machine.execSecondTick s
  | .minuteTick => Sys2Proof.Machine.execMinuteTick s
  | .position pos => Sys2Proof.Machine.execPosition pos s
  | .frameLine pos => Sys2Proof.Machine.execFrameLine pos s
  | .spliceEdge edge pos => Sys2Proof.Machine.execSpliceEdge edge pos s
  | .tension gf => Sys2Proof.Machine.execTension gf s
  | .gateTemp temp => Sys2Proof.Machine.execGateTemp temp s
  | .row frame index ir visible => Sys2Proof.Machine.execRow frame index ir visible s
  | .headMessageDiscarded => Sys2Proof.Machine.execHeadMessageDiscarded s
  | .tensionHighExpiry => Sys2Proof.Machine.execTensionHighExpiry s
  | .tensionLowExpiry => Sys2Proof.Machine.execTensionLowExpiry s
  | .headSilenceExpiry => Sys2Proof.Machine.execHeadSilenceExpiry s
  | .reportAgeExpiry => Sys2Proof.Machine.execReportAgeExpiry s
  | .gateDelayExpiry => Sys2Proof.Machine.execGateDelayExpiry s
  | .holdLightExpiry => Sys2Proof.Machine.execHoldLightExpiry s
  | .contextAgeExpiry => Sys2Proof.Machine.execContextAgeExpiry s
  | .confirmationExpiry port => Sys2Proof.Machine.execConfirmationExpiry port s
  | .bayTimerExpiry => Sys2Proof.Machine.execBayTimerExpiry s
  | .frameIgnored port => Sys2Proof.Machine.execFrameIgnored port s
  | .requestMalformed port tag => Sys2Proof.Machine.execRequestMalformed port tag s
  | .unknownCommand rq code => Sys2Proof.Machine.execUnknownCommand rq code s
  | .responseRead port clocked => Sys2Proof.Machine.execResponseRead port clocked s
  | .readAlerts rq => Sys2Proof.Machine.execReadAlerts rq s
  | .ackAlerts rq kinds => Sys2Proof.Machine.execAckAlerts rq kinds s
  | .setAlertMask rq kinds => Sys2Proof.Machine.execSetAlertMask rq kinds s
  | .getSetting rq index => Sys2Proof.Machine.execGetSetting rq index s
  | .setSetting rq args => Sys2Proof.Machine.execSetSetting rq args s
  | .portReset rq => Sys2Proof.Machine.execPortReset rq s
  | .reelQuery rq handle => Sys2Proof.Machine.execReelQuery rq handle s
  | .reelFind rq catalogue => Sys2Proof.Machine.execReelFind rq catalogue s
  | .admitReel rq args => Sys2Proof.Machine.execAdmit rq args s
  | .setCondition rq args => Sys2Proof.Machine.execSetCondition rq args s
  | .request rq handle => Sys2Proof.Machine.execRequest rq handle s
  | .cancel rq handle => Sys2Proof.Machine.execCancel rq handle s
  | .returnReel rq handle => Sys2Proof.Machine.execReturnReel rq handle s
  | .release rq args => Sys2Proof.Machine.execRelease rq args s
  | .releaseForce rq handle => Sys2Proof.Machine.execReleaseForce rq handle s
  | .thread rq handle => Sys2Proof.Machine.execThread rq handle s
  | .unthread rq => Sys2Proof.Machine.execUnthread rq s
  | .setOrigin rq => Sys2Proof.Machine.execSetOrigin rq s
  | .inch rq distance => Sys2Proof.Machine.execInch rq distance s
  | .shuttle rq args => Sys2Proof.Machine.execShuttle rq args s
  | .scan rq speed => Sys2Proof.Machine.execScan rq speed s
  | .pause rq => Sys2Proof.Machine.execPause rq s
  | .resume rq => Sys2Proof.Machine.execResume rq s
  | .stop rq => Sys2Proof.Machine.execStop rq s
  | .clearFault rq => Sys2Proof.Machine.execClearFault rq s
  | .stagePitch rq args => Sys2Proof.Machine.execStagePitch rq args s
  | .stageReg rq args => Sys2Proof.Machine.execStageReg rq args s
  | .commit rq => Sys2Proof.Machine.execCommit rq s
  | .readPitch rq => Sys2Proof.Machine.execReadPitch rq s
  | .readFrames rq count => Sys2Proof.Machine.execReadFrames rq count s
  | .clearGate rq => Sys2Proof.Machine.execClearGate rq s
  | .transportStatus rq => Sys2Proof.Machine.execTransportStatus rq s
  | .claimNext rq handle => Sys2Proof.Machine.execClaimNext rq handle s
  | .complete rq args => Sys2Proof.Machine.execComplete rq args s
  | .releaseClaim rq args => Sys2Proof.Machine.execReleaseClaim rq args s
  | .releaseAll rq => Sys2Proof.Machine.execReleaseAll rq s
  | .damageList rq args => Sys2Proof.Machine.execDamageList rq args s
  | .rescanAdd rq args => Sys2Proof.Machine.execRescanAdd rq args s
  | .shotList rq args => Sys2Proof.Machine.execShotList rq args s
  | .setBase rq args => Sys2Proof.Machine.execSetBase rq args s
  | .pushLayer rq args => Sys2Proof.Machine.execPushLayer rq args s
  | .popLayer rq shot => Sys2Proof.Machine.execPopLayer rq shot s
  | .setLayer rq args => Sys2Proof.Machine.execSetLayer rq args s
  | .setFlicker rq args => Sys2Proof.Machine.execSetFlicker rq args s
  | .split rq args => Sys2Proof.Machine.execSplit rq args s
  | .merge rq shot => Sys2Proof.Machine.execMerge rq shot s
  | .approve rq shot => Sys2Proof.Machine.execApprove rq shot s
  | .reopen rq shot => Sys2Proof.Machine.execReopen rq shot s
  | .gradeQuery rq args => Sys2Proof.Machine.execGradeQuery rq args s
  | .takeMove rq => Sys2Proof.Machine.execTakeMove rq s
  | .moveDone rq => Sys2Proof.Machine.execMoveDone rq s
  | .moveFailed rq => Sys2Proof.Machine.execMoveFailed rq s
  | .retry rq args => Sys2Proof.Machine.execRetry rq args s
  | .cancelMove rq args => Sys2Proof.Machine.execCancelMove rq args s
  | .bayClimate rq climate => Sys2Proof.Machine.execBayClimate rq climate s
  | .positions rq args => Sys2Proof.Machine.execPositions rq args s
  | .moveList rq => Sys2Proof.Machine.execMoveList rq s

end Sys2Proof.Machine
end

