-- ==== Sys2Proof/Safety.lean ====
section
/-! DEFINITION. The terms the statements are made in: what a command leaves as it was, when a request is carried out and
how it is answered, which alerts an event latches, and the conditions that every step keeps. -/

namespace Sys2Proof.Machine

/-! ### What a command leaves as it was -/

/-- The blocks of the part (00_scope, Table 2), with the model's own outputs and queue. -/
inductive Block where
  | reg | trc | pru | fcu | dsu | rpq | sht | cab | spt | alt | cfg | tmb | out | pending
deriving DecidableEq, Repr

/-- A block is the same in two states. -/
def Block.same (s t : State) : Block → Prop
  | .reg => t.reg = s.reg
  | .trc => t.trc = s.trc
  | .pru => t.pru = s.pru
  | .fcu => t.fcu = s.fcu
  | .dsu => t.dsu = s.dsu
  | .rpq => t.rpq = s.rpq
  | .sht => t.sht = s.sht
  | .cab => t.cab = s.cab
  | .spt => t.spt = s.spt
  | .alt => t.alt = s.alt
  | .cfg => t.cfg = s.cfg
  | .tmb => t.tmb = s.tmb
  | .out => t.out = s.out
  | .pending => t.pending = s.pending

/-- Every block but those of the list is the same in `t` as in `s`. -/
def Kept (changed : List Block) (s t : State) : Prop := ∀ b : Block, b ∉ changed → b.same s t

/-! ### Requests -/

/-- A request is carried out: the preload has ended (R184), and the port has the role the command needs or ACCESS_CHECK
is 0 (R181). -/
def Served (rq : Rq) (need : Need) (s : State) : Prop :=
  s.cfg.running = false ∧
    (match need with
      | .any => True
      | .role r => s.setting Setting.accessCheck = 0 ∨ s.role rq.port = r)

/-- The port's pending response is the answer to the request (R175, R182). -/
def Responds (rq : Rq) (st : Status) (results : List Byte) (t : State) : Prop :=
  (t.spt.get rq.port).response = some ⟨rq.tag, st.code, results⟩

/-- What a request that is carried out leaves: its own port's pending response is the answer, with the overrun flag as it
stood (R175, R179), the other ports are as they were, and so is every block outside the list. -/
def Answered (rq : Rq) (st : Status) (results : List Byte) (changed : List Block) (s t : State) : Prop :=
  t.spt = s.spt.set rq.port ⟨some ⟨rq.tag, st.code, results⟩, (s.spt.get rq.port).overrun⟩ ∧
    Kept (.spt :: changed) s t

/-- The request a command is, with the role it needs (Tables 1-4, 2-3, 6-3, 8-3, 9-4, 10-6). -/
def requestOf : Instr → Option (Rq × Need)
  | .reset | .preloadValue _ _ _ | .preloadEnd _ | .estopAsserted | .estopReleased => none
  | .millisecondTick | .secondTick | .minuteTick => none
  | .position _ | .frameLine _ | .spliceEdge _ _ | .tension _ | .gateTemp _ | .row _ _ _ _ => none
  | .headMessageDiscarded => none
  | .tensionHighExpiry | .tensionLowExpiry | .headSilenceExpiry | .reportAgeExpiry | .gateDelayExpiry => none
  | .holdLightExpiry | .contextAgeExpiry | .confirmationExpiry _ | .bayTimerExpiry => none
  | .frameIgnored _ | .responseRead _ _ => none
  | .requestMalformed p tag => some (⟨p, tag.getD 0⟩, .any)
  | .unknownCommand rq _ => some (rq, .any)
  | .readAlerts rq | .ackAlerts rq _ | .setAlertMask rq _ | .getSetting rq _ | .setSetting rq _ | .portReset rq =>
    some (rq, .any)
  | .reelQuery rq _ | .reelFind rq _ => some (rq, .any)
  | .admitReel rq _ | .setCondition rq _ | .release rq _ | .releaseForce rq _ => some (rq, .role .vault)
  | .request rq _ | .cancel rq _ | .returnReel rq _ => some (rq, .role .scan)
  | .thread rq _ | .unthread rq | .setOrigin rq | .inch rq _ | .shuttle rq _ | .scan rq _ | .pause rq | .resume rq
  | .stop rq | .clearFault rq | .stagePitch rq _ | .stageReg rq _ | .commit rq | .readPitch rq | .readFrames rq _
  | .clearGate rq => some (rq, .role .scan)
  | .transportStatus rq => some (rq, .any)
  | .claimNext rq _ | .complete rq _ | .releaseClaim rq _ | .releaseAll rq | .rescanAdd rq _ =>
    some (rq, .role .repair)
  | .damageList rq _ => some (rq, .any)
  | .shotList rq _ | .gradeQuery rq _ => some (rq, .any)
  | .setBase rq _ | .pushLayer rq _ | .popLayer rq _ | .setLayer rq _ | .setFlicker rq _ | .split rq _ | .merge rq _
  | .approve rq _ | .reopen rq _ => some (rq, .role .grade)
  | .takeMove rq | .moveDone rq | .moveFailed rq | .retry rq _ | .cancelMove rq _ | .bayClimate rq _ =>
    some (rq, .role .vault)
  | .positions rq _ | .moveList rq => some (rq, .any)

/-- A request whose operands are shorter than its command needs (R178, check 3). -/
def ShortOperands : Instr → Bool
  | .ackAlerts _ none | .setAlertMask _ none | .getSetting _ none | .setSetting _ none => true
  | .reelQuery _ none | .reelFind _ none | .admitReel _ none | .setCondition _ none | .request _ none | .cancel _ none
  | .returnReel _ none | .release _ none => true
  | .thread _ none | .inch _ none | .shuttle _ none | .scan _ none | .stagePitch _ none | .stageReg _ none
  | .readFrames _ none => true
  | .claimNext _ none | .complete _ none | .releaseClaim _ none | .damageList _ none | .rescanAdd _ none => true
  | .shotList _ none | .setBase _ none | .pushLayer _ none | .popLayer _ none | .setLayer _ none
  | .setFlicker _ none | .split _ none | .merge _ none | .approve _ none | .reopen _ none | .gradeQuery _ none => true
  | .retry _ none | .cancelMove _ none | .bayClimate _ none | .positions _ none => true
  | _ => false

/-- A reel handle above 95, or one that names a free entry of the reel table (R7, R140). -/
def NamesNoReel (h : Byte) (s : State) : Prop := 96 ≤ h.toNat ∨ s.reel h.toNat = none

/-- A shot record above 511, or one that is not in use (R140). -/
def NamesNoShot (n : BitVec 16) (s : State) : Prop := 512 ≤ n.toNat ∨ s.sht.pool.read n.toNat = none

/-- A request with an operand out of its range, or one that names a free entry: what a command's rule refuses BAD_ARG
before it looks at anything else (R7, R18, R26, R29, R30, R83, R120, R121, R122, R140, R141, R165, R166, R167, R171,
R189). CLAIM_NEXT makes its own role test first (R119). A REEL_QUERY of a free entry is answered NONE (R7). -/
def BadOperands (s : State) : Instr → Prop
  | .getSetting _ (some i) => settingRow i.toNat = none
  | .setSetting _ (some a) => settingRow a.index.toNat = none
  | .reelQuery _ (some h) => 96 ≤ h.toNat
  | .reelFind _ (some catalogue) => catalogue = 0
  | .admitReel _ (some a) => a.catalogue = 0 ∨ 2 < a.gauge.toNat ∨ 3 < a.acidity.toNat ∨ 80 ≤ a.slot.toNat
  | .setCondition _ (some a) => NamesNoReel a.handle s ∨ 3 < a.acidity.toNat
  | .request _ (some h) | .cancel _ (some h) | .returnReel _ (some h) | .thread _ (some h) | .releaseForce _ h =>
    NamesNoReel h s
  | .release _ (some a) => NamesNoReel a.handle s ∨ 1 < a.force.toNat
  | .inch _ (some d) => d.toInt = 0 ∨ 2000000 < d.toInt.natAbs
  | .shuttle _ (some a) => 1 < a.direction.toNat
  | .readFrames _ (some count) => count = 0 ∨ 4 < count.toNat
  | .claimNext rq (some h) => s.role rq.port = .repair ∧ h ≠ 255 ∧ NamesNoReel h s
  | .complete _ (some a) => 1023 < a.index.toNat ∨ 2 < a.outcome.toNat
  | .releaseClaim _ (some a) => 1023 < a.index.toNat
  | .damageList _ (some a) => NamesNoReel a.handle s ∨ 1023 < a.pass.toNat ∨ a.count = 0 ∨ 4 < a.count.toNat
  | .rescanAdd _ (some a) => NamesNoReel a.handle s ∨ a.last.toNat < a.first.toNat ∨
    ∃ r, s.reel a.handle.toNat = some r ∧ r.frontier ≤ a.last.toNat
  | .shotList _ (some a) => NamesNoReel a.handle s ∨ a.count = 0 ∨ 8 < a.count.toNat
  | .setBase _ (some a) => NamesNoReel a.handle s
  | .gradeQuery _ (some a) => NamesNoReel a.handle s
  | .pushLayer _ (some a) => NamesNoShot a.shot s
  | .split _ (some a) => NamesNoShot a.shot s
  | .popLayer _ (some n) | .merge _ (some n) | .approve _ (some n) | .reopen _ (some n) => NamesNoShot n s
  | .setLayer _ (some a) => NamesNoShot a.shot s ∨ 6 < a.level.toNat
  | .setFlicker _ (some a) => NamesNoShot a.shot s ∨ 1 < a.enable.toNat
  | .retry _ (some a) | .cancelMove _ (some a) => 15 < a.entry.toNat ∨ 95 < a.handle.toNat
  | .bayClimate _ (some climate) => 1 < climate.toNat
  | .positions _ (some a) => 2 < a.kind.toNat ∨ (if a.kind = 0 then 79 else 7) < a.first.toNat ∨ a.count = 0 ∨
    16 < a.count.toNat
  | _ => False

/-- What every request can change: its port's response (R179), the force confirmations (R15), the alerts (R185) and the
model's outputs. -/
abbrev requestBlocks : List Block := [.reg, .spt, .alt, .out]

/-- What an entry into FAULT can change (R39, R79). -/
abbrev faultBlocks : List Block := [.reg, .trc, .pru, .fcu, .rpq, .sht, .alt, .out]

/-- What a report that can complete lines or frames can change: all but CAB, SPT, CFG, TMB and the queue. -/
abbrev lineBlocks : List Block := [.reg, .trc, .pru, .fcu, .dsu, .rpq, .sht, .alt, .out]

/-- The blocks a command can change; it leaves every other block as it is. -/
def mayChange : Instr → List Block
  | .reset => [.reg, .trc, .pru, .fcu, .dsu, .rpq, .sht, .cab, .spt, .alt, .cfg, .tmb, .out]
  | .preloadValue _ _ _ => [.reg, .trc, .rpq, .alt, .cfg, .out]
  | .preloadEnd _ => [.alt, .cfg, .out]
  | .estopAsserted | .tensionHighExpiry | .tensionLowExpiry | .headSilenceExpiry | .tension _ => faultBlocks
  | .estopReleased | .spliceEdge _ _ | .holdLightExpiry => [.trc, .out]
  | .millisecondTick | .secondTick | .minuteTick => [.reg, .trc, .fcu, .cab, .tmb, .out]
  | .position _ | .frameLine _ | .row _ _ _ _ | .contextAgeExpiry => lineBlocks
  | .gateTemp _ | .gateDelayExpiry => [.trc, .pru, .alt, .out]
  | .headMessageDiscarded | .reportAgeExpiry | .frameIgnored _ => [.out]
  | .confirmationExpiry _ => [.reg, .out]
  | .bayTimerExpiry => [.cab, .alt, .out]
  | .responseRead _ _ => [.spt, .out]
  | .requestMalformed _ _ | .unknownCommand _ _ | .readAlerts _ | .ackAlerts _ _ | .setAlertMask _ _
  | .getSetting _ _ | .reelQuery _ _ | .reelFind _ _ | .readPitch _ | .transportStatus _ | .damageList _ _
  | .shotList _ _ | .gradeQuery _ _ | .positions _ _ | .moveList _ | .setBase _ _ => requestBlocks
  | .setSetting _ _ => [.trc, .rpq, .cfg] ++ requestBlocks
  | .portReset _ | .clearGate _ | .claimNext _ _ | .releaseClaim _ _ | .releaseAll _ => .rpq :: requestBlocks
  | .admitReel _ _ => [.sht, .cab] ++ requestBlocks
  | .setCondition _ _ | .request _ _ | .cancel _ _ | .returnReel _ _ | .takeMove _ | .moveFailed _ | .retry _ _
  | .cancelMove _ _ | .bayClimate _ _ => .cab :: requestBlocks
  | .release _ _ | .releaseForce _ _ => [.rpq, .cab] ++ requestBlocks
  | .moveDone _ => [.rpq, .sht, .cab] ++ requestBlocks
  | .thread _ _ => [.trc, .pru, .fcu, .rpq, .sht, .cab] ++ requestBlocks
  | .unthread _ => [.trc, .pru, .rpq, .sht, .cab] ++ requestBlocks
  | .setOrigin _ => [.pru, .rpq] ++ requestBlocks
  | .scan _ _ => [.trc, .pru, .fcu, .sht] ++ requestBlocks
  | .inch _ _ | .shuttle _ _ | .pause _ | .resume _ | .stop _ | .clearFault _ | .commit _ =>
    [.trc, .pru] ++ requestBlocks
  | .stagePitch _ _ | .stageReg _ _ => .pru :: requestBlocks
  | .readFrames _ _ => [.trc, .pru, .fcu] ++ requestBlocks
  | .complete _ _ => [.rpq, .sht] ++ requestBlocks
  | .rescanAdd _ _ | .pushLayer _ _ | .popLayer _ _ | .setLayer _ _ | .setFlicker _ _ | .split _ _ | .merge _ _
  | .approve _ _ | .reopen _ _ => .sht :: requestBlocks

/-! ### Alerts -/

/-- Between `s` and `t` exactly the routed events of the list were latched, for the ports whose route as `s` has it
includes them, and no mask changed (R185, R186). -/
def Latches (events : List Event) (s t : State) : Prop :=
  ∀ p : Port, (t.alt.get p).mask = (s.alt.get p).mask ∧
    ∀ e : Event, AlertSet.has (t.alt.get p).latched e =
      (AlertSet.has (s.alt.get p).latched e || (events.contains e && AlertSet.has (s.route p) e))

/-- No mask changed and nothing latched was lost (R185). -/
def AlertsGrow (s t : State) : Prop :=
  ∀ p : Port, (t.alt.get p).mask = (s.alt.get p).mask ∧
    ∀ e : Event, AlertSet.has (s.alt.get p).latched e → AlertSet.has (t.alt.get p).latched e

/-- A kind is latched for every port its route includes (R185, R186). -/
def LatchedWhereRouted (e : Event) (s t : State) : Prop :=
  ∀ p : Port, AlertSet.has (s.route p) e = true → AlertSet.has (t.alt.get p).latched e = true

/-! ### Ticks -/

/-- n milliseconds have passed for every timer and count that counts them (R190, R24, R37, R38, R41, R78, R15). -/
def TimersPassed (n : Nat) (s t : State) : Prop :=
  t.trc = { s.trc with
    tensionHigh := s.trc.tensionHigh.map (· - n), tensionLow := s.trc.tensionLow.map (· - n),
    holdLight := s.trc.holdLight.map (· - n), gateDelay := s.trc.gateDelay.map (· - n),
    reportAge := min 50 (s.trc.reportAge + n),
    silence := if s.trc.capstan = 0 then 0 else min 50 (s.trc.silence + n) } ∧
  (∀ c, t.fcu.ctx.get c = (s.fcu.ctx.get c).map (fun x => { x with age := min 100 (x.age + n) })) ∧
  t.fcu = { s.fcu with ctx := t.fcu.ctx } ∧
  (∀ p, t.reg.confirm.get p = (s.reg.confirm.get p).bind (fun c =>
    if c.remaining ≤ n then none else some { c with remaining := c.remaining - n })) ∧
  t.reg.reels = s.reg.reels

/-- A minute has passed for every RUNNING bay timer, unless the bay climate is OUT (R170). -/
def MinutePassed (s t : State) : Prop :=
  t.cab = if s.cab.climateOut then s.cab
    else { s.cab with
      bayTimers := s.cab.bayTimers.map (fun x =>
        if x.state = .running then { x with remaining := x.remaining - 1 } else x) }

/-! ### Frame lines and frames -/

/-- The line of frame k is expected at pk: SCANNING, and the lock not SEEKING (R55). -/
def Expected (s : State) (pk : Int) (k : Nat) : Prop :=
  s.trc.state = .scanning ∧ s.pru.expect = some ⟨pk, k⟩ ∧ s.pru.lock ≠ .seeking

/-- The line of frame k closes no context and ends no run: k is not the last frame (R76), and no context is open for it,
unless the frame is passed, being below next frame (R72, R73). -/
def Undisturbed (s : State) (k : Nat) : Prop :=
  k < 65535 ∧ (k < s.fcu.nextFrame ∨ ∀ c x, s.fcu.ctx.get c = some x → x.frame ≠ k)

/-- A line with nothing to do at it but its own: no re-anchoring (R54) and no commit (R66) waits for it, and the
adaptation window neither ends at frame k nor waits to restart (R62, R63). -/
def PlainLine (s : State) (pk : Int) (k : Nat) : Prop :=
  Expected s pk k ∧ s.pru.reanchor = false ∧ s.pru.commitPending = false ∧ s.pru.window ≠ .restart ∧
    s.pru.window ≠ .frame k

/-- The lock detector after a line measured with error e (R58). -/
def LockStepped (e : Int) (s t : State) : Prop :=
  let good := e.natAbs ≤ s.pru.liveReg.lw
  let lc := lockCount s.pru.liveReg.index
  (s.pru.lock = .locked → good → t.pru.lock = .locked ∧ t.pru.count = min 64 (s.pru.count + 1)) ∧
    (s.pru.lock = .locked → ¬good → t.pru.lock = .unlocked ∧ t.pru.count = 0 ∧ LatchedWhereRouted .lockLost s t) ∧
    (s.pru.lock = .unlocked → good → s.pru.count + 1 < lc → t.pru.lock = .unlocked ∧ t.pru.count = s.pru.count + 1) ∧
    (s.pru.lock = .unlocked → good → lc ≤ s.pru.count + 1 →
      t.pru.lock = .locked ∧ t.pru.count = min 64 (s.pru.count + 1) ∧ LatchedWhereRouted .lockGained s t) ∧
    (s.pru.lock = .unlocked → ¬good → t.pru.lock = .unlocked ∧ t.pru.count = 0)

/-- The lock is LOCKED once the detector has taken a line measured with error e (R58). -/
def LocksAt (e : Int) (s : State) : Prop :=
  e.natAbs ≤ s.pru.liveReg.lw ∧ (s.pru.lock = .locked ∨ lockCount s.pru.liveReg.index ≤ s.pru.count + 1)

/-- One step of R50 from accumulators a1 and a2: the secondary carry c2 leaves b2 below M2, the primary carry c1 leaves
b1 below 65536, and the prediction rises by P_INT and the primary carry. -/
def CarriedOn (p : Pitch) (a1 a2 rise b1 b2 : Nat) : Prop :=
  ∃ c1 c2, c2 = (if p.m2 ≤ a2 + p.f2 then 1 else 0) ∧ b2 + c2 * p.m2 = a2 + p.f2 ∧
    c1 = (if 65536 ≤ a1 + p.f1 + c2 then 1 else 0) ∧ b1 + c1 * 65536 = a1 + p.f1 + c2 ∧ rise = p.pInt + c1

/-- The expectation one line on, by R50. -/
def SteppedOn (pk : Int) (k : Nat) (s t : State) : Prop :=
  ∃ rise : Nat, CarriedOn s.pru.live s.pru.a1 s.pru.a2 rise t.pru.a1 t.pru.a2 ∧
    t.pru.expect = some ⟨pk + rise, k + 1⟩ ∧ t.pru.anchor = s.pru.anchor

/-- The adaptation window turned off, or started at an anchoring of frame k: it ends 2^w frames on (R53, R62). -/
def windowFrom (adapt w k : Nat) : AdaptWindow := if adapt = 1 then .frame (k + 2 ^ w) else .off

/-- PRU's prediction goes on from an anchor at frame k: one pitch on, from cleared accumulators (R50, R53). -/
def FromAnchor (p : Pitch) (pos : Int) (k : Nat) (u : Pru) : Prop :=
  ∃ rise : Nat, CarriedOn p 0 0 rise u.a1 u.a2 ∧ u.anchor = some ⟨pos, k⟩ ∧ u.expect = some ⟨pos + rise, k + 1⟩

/-- The predicted position of line k from anchor m: with n = k − anchor frame, the anchor position and n·P_INT and
(n·(F1·M2 + F2)) div (65536·M2) (R51). -/
def linePosition (p : Pitch) (m : Mark) (k : Nat) : Int :=
  let n : Int := (k : Int) - m.frame
  m.pos + n * p.pInt + n * ((p.f1 : Int) * p.m2 + p.f2) / (65536 * (p.m2 : Int))

/-- PRU, which was as in u, has placed its expectation from anchor m at the least line 0 to 65535 that lies above the
position, with the accumulators that stepping would give; the window frame passed over makes the window restart pending.
With no such line the run has its last line behind it (R51, R63). -/
def Placed (position : Int) (m : Mark) (u v : Pru) : Prop :=
  let p := u.live
  let ahead := fun k : Nat => k ≤ 65535 ∧ position < linePosition p m k
  (∀ k, ahead k → (∀ j, j < k → ¬ahead j) →
    let n : Int := (k : Int) - m.frame
    v = { u with
      expect := some ⟨linePosition p m k, k⟩, a2 := (n * p.f2 % (p.m2 : Int)).toNat
      a1 := ((n * p.f1 + n * p.f2 / (p.m2 : Int)) % 65536).toNat, window := v.window } ∧
    (∀ wf, u.window = .frame wf → v.window = if wf < k then .restart else .frame wf) ∧
    ((∀ wf, u.window ≠ .frame wf) → v.window = u.window)) ∧
  ((∀ k, ¬ahead k) → v = { u with expect := none, linesOver := true })

/-- PRU is UNLOCKED with its counts at 0 and waits for no re-anchoring, as a re-anchoring leaves it (R53). -/
def Reanchored (u : Pru) : Prop :=
  u.lock = .unlocked ∧ u.count = 0 ∧ u.missing = 0 ∧ u.reanchor = false ∧ u.seekFrom = none

/-- Context c is the lowest-numbered FREE one (R72). -/
def LowestFree (s : State) (c : CtxId) : Prop :=
  s.fcu.ctx.get c = none ∧ (c = .c1 → s.fcu.ctx.get .c0 ≠ none)

/-- The contents of a context opened in state s for frame k, whose line was measured at a position with error e (R73). -/
def openedFor (s : State) (k : Nat) (pos e : Int) (locked : Bool) : Ctx where
  handle := s.trc.handle.getD 0
  frame := k
  error := some e
  offset := roundDiv e (s.pru.live.pInt / 24)
  locked := locked
  splice := s.spliceFlag pos
  reanch := false
  skipped := s.fcu.skips
  nextRow := 0
  age := 0

/-- Frame k has been captured: context c is OPEN for it, with the error of its line and the re-anchored mark (R73). -/
def CapturedIn (c : CtxId) (k : Nat) (error : Option Int) (reanch : Bool) (t : State) : Prop :=
  ∃ x, t.fcu.ctx.get c = some x ∧ x.frame = k ∧ x.error = error ∧ x.reanch = reanch ∧
    x.locked = decide (t.pru.lock = .locked)

/-- Context c is OPEN with contents x, and it is the older one, or the other context is FREE: a row or an expiry for it
closes no other context (R77, R78). -/
def TakenAlone (s : State) (c : CtxId) (x : Ctx) : Prop :=
  s.fcu.ctx.get c = some x ∧ (s.fcu.ctx.get c.other = none ∨ c ≠ s.fcu.newest)

/-- What the layers of one channel, in order, make of gain g and lift l (R138). -/
def ChannelGraded (g : Nat) (l : Int) : List Channel → Channel → Prop
  | [], out => out = ⟨g, l⟩
  | c :: rest, out => ChannelGraded (min 65535 ((g * c.gain + 2048) / 4096))
      (max (-1023) (min 1023 ((l * (c.gain : Int) + 2048) / 4096 + c.lift))) rest out

/-- A grade composed from a starting gain: in each channel the base layer, then the stack from level 0 upward (R138). -/
def Graded (start : Nat) (base : Layer) (stack : List Layer) (x : Grade) : Prop :=
  ChannelGraded start 0 (base.r :: stack.map (·.r)) x.r ∧ ChannelGraded start 0 (base.g :: stack.map (·.g)) x.g ∧
    ChannelGraded start 0 (base.b :: stack.map (·.b)) x.b

/-- The record r carries the effective grade composed from its flicker gain under the base layer of its reel and the
stack of its shot, at its close (R139); no shot in use has lost its stack or changed it. -/
def RecordGraded (s t : State) (r : FrameRecord) : Prop :=
  (∀ r0 z, s.reel r.handle = some r0 → t.sht.pool.read r.shot = some z → Graded r.flicker r0.base z.stack r.grade) ∧
    ∀ n z, s.sht.pool.read n = some z → ∃ z', t.sht.pool.read n = some z' ∧ z'.stack = z.stack

/-- The record r of the INCOMPLETE close of a context that held x (R80, R81, R126, R134). -/
def IncompleteRecord (s : State) (x : Ctx) (r : FrameRecord) : Prop :=
  r.handle = x.handle ∧ r.frame = x.frame ∧ r.incomplete = true ∧ r.locked = x.locked ∧
    r.lineMissing = x.error.isNone ∧ r.splice = x.splice ∧ r.skipped = x.skipped ∧
    r.error = clampInt (-32767) 32767 (x.error.getD 0) ∧ r.rescan = decide (x.frame < s.frontier x.handle) ∧
    r.recorded = 0 ∧ r.suppressed = 0 ∧ r.regionsFull = false ∧ r.damageLost = false ∧ r.cut = false ∧
    r.cutLost = false ∧ r.densityHeld = true ∧ r.density = s.sht.previousM.getD 512 ∧ r.flicker = s.sht.previousF ∧
    ∀ n y, s.shotAt x.handle x.frame = some (n, y) → r.shot = n

/-- The reel of an INCOMPLETE frame has it on its rescan list, and its frontier above it (R20). -/
def ListedIncomplete (s : State) (x : Ctx) (t : State) : Prop :=
  (∀ r, s.reel x.handle = some r → t.reel x.handle = some { r with
    frontier := max r.frontier (x.frame + 1), rescan := addRange r.rescan ⟨x.frame, x.frame⟩ }) ∧
    ∀ h, h ≠ x.handle → t.reel h = s.reel h

/-! ### Rescan lists -/

/-- The unlisted frames lo to hi stand between two listed ones (R19). -/
def GapOf (listed : Nat → Prop) (lo hi : Nat) : Prop :=
  0 < lo ∧ lo ≤ hi ∧ listed (lo - 1) ∧ listed (hi + 1) ∧ ∀ f, lo ≤ f → f ≤ hi → ¬listed f

/-- The frames of a rescan list `new` that the range a to b has been added to: those of the list and of the range; and,
when eight ranges stood apart from it, those of the smallest gap, the first such one on a tie (R19). -/
def RangeAdded (l : List FrameRange) (a b : Nat) (new : List FrameRange) : Prop :=
  let listed := fun f => inRanges l f = true ∨ (a ≤ f ∧ f ≤ b)
  let apart := 8 ≤ l.length ∧ ∀ x ∈ l, x.last + 1 < a ∨ b + 1 < x.first
  (¬apart → ∀ f, inRanges new f = true ↔ listed f) ∧
    (apart → ∃ lo hi, GapOf listed lo hi ∧
      (∀ lo' hi', GapOf listed lo' hi' → hi - lo < hi' - lo' ∨ (hi - lo = hi' - lo' ∧ lo ≤ lo')) ∧
      ∀ f, inRanges new f = true ↔ listed f ∨ (lo ≤ f ∧ f ≤ hi))

/-- The frames of a rescan list `new` that the completely recorded frame f has been trimmed from: f leaves, unless it lies
strictly inside a range of a list of eight; every other frame stays (R20, step 2). -/
def FrameTrimmed (l : List FrameRange) (f : Nat) (new : List FrameRange) : Prop :=
  (∀ j, j ≠ f → inRanges new j = inRanges l j) ∧
    (inRanges new f = true ↔ 8 ≤ l.length ∧ ∃ x ∈ l, x.first < f ∧ f < x.last)

/-! ### The damage survey -/

/-- The least and the greatest number of a list. -/
def Least (n : Nat) (l : List Nat) : Prop := n ∈ l ∧ ∀ m ∈ l, n ≤ m
def Greatest (n : Nat) (l : List Nat) : Prop := n ∈ l ∧ ∀ m ∈ l, m ≤ n

/-- The runs of a row are its maximal intervals of defective cells, left to right (R88). -/
def RunsOf (defective : Nat → Prop) (runs : List Span) : Prop :=
  (∀ x ∈ runs, x.lo ≤ x.hi ∧ x.hi < 32 ∧ ∀ j, x.lo ≤ j → j ≤ x.hi → defective j) ∧
    runs.Pairwise (fun x y => x.hi + 1 < y.lo) ∧
    ∀ j, j < 32 → defective j → ∃ x ∈ runs, x.lo ≤ j ∧ j ≤ x.hi

/-- A run touches an OPEN region by the span it had in the row above (R90). -/
def Touches (x : Span) (g : Region) : Prop :=
  g.isOpen = true ∧ ∃ p, g.previous = some p ∧ x.lo ≤ p.hi + 1 ∧ p.lo ≤ x.hi + 1

/-- The region that the touched ones `l` and the run become: boxes, areas, depths and spans united (R91, R92). -/
def Joined (row : Nat) (x : Span) (depth : Nat) (l : List Region) (g : Region) : Prop :=
  g.isOpen = true ∧ g.extended = true ∧ g.box.rowMax = row ∧ Least g.box.rowMin (l.map (·.box.rowMin)) ∧
    Least g.box.colMin (x.lo :: l.map (·.box.colMin)) ∧ Greatest g.box.colMax (x.hi :: l.map (·.box.colMax)) ∧
    g.area = (l.map (·.area)).sum + (x.hi - x.lo + 1) ∧ g.depth = (l.map (·.depth)).sum + depth ∧
    (∃ p, g.previous = some p ∧ Least p.lo ((l.filterMap (·.previous)).map (·.lo)) ∧
      Greatest p.hi ((l.filterMap (·.previous)).map (·.hi))) ∧
    ∃ p, g.current = some p ∧ Least p.lo (x.lo :: (l.filterMap (·.current)).map (·.lo)) ∧
      Greatest p.hi (x.hi :: (l.filterMap (·.current)).map (·.hi))

/-- A run that touches no region starts this one (R93). -/
def startedRegion (row : Nat) (x : Span) (depth : Nat) : Region :=
  { isOpen := true, box := ⟨row, row, x.lo, x.hi⟩, area := x.hi - x.lo + 1, depth, previous := none, current := some x,
    extended := true }

/-- One run of a row: it joins the regions it touches into the lowest-numbered of them, and the others become FREE
(R91, R92); touching none it starts a region in the lowest FREE entry (R93), or is lost (R94). -/
def RunTaken (row : Nat) (ir : List (BitVec 16)) (x : Span) (v w : Survey) : Prop :=
  let touched := fun i => ∃ g, v.regions.read i = some g ∧ Touches x g
  let depth := ((List.range (x.hi - x.lo + 1)).map (fun d => v.threshold - cellAt ir (x.lo + d))).sum
  w = { v with regions := w.regions, lostArea := w.lostArea, full := w.full } ∧
    (∀ i, touched i → (∀ j, j < i → ¬touched j) → w.lostArea = v.lostArea ∧ w.full = v.full ∧
      (∃ (js : List Nat) (g : Region), js.Nodup ∧ (∀ j, j ∈ js ↔ touched j) ∧ w.regions.read i = some g ∧
        Joined row x depth (js.filterMap v.regions.read) g) ∧
      ∀ j, j ≠ i → (touched j → w.regions.read j = none) ∧
        (¬touched j → w.regions.read j = v.regions.read j)) ∧
    (∀ i, (∀ j, ¬touched j) → i < 24 → v.regions.read i = none → (∀ j, j < i → v.regions.read j ≠ none) →
      w.lostArea = v.lostArea ∧ w.full = v.full ∧ w.regions.read i = some (startedRegion row x depth) ∧
      ∀ j, j ≠ i → w.regions.read j = v.regions.read j) ∧
    ((∀ j, ¬touched j) → (∀ i, i < 24 → v.regions.read i ≠ none) →
      w = { v with lostArea := v.lostArea + (x.hi - x.lo + 1), full := true })

/-- The runs of a row, one at a time (R88). -/
def RunsTaken (row : Nat) (ir : List (BitVec 16)) : List Span → Survey → Survey → Prop
  | [], v, w => w = v
  | x :: rest, v, w => ∃ u, RunTaken row ir x v u ∧ RunsTaken row ir rest u w

/-- The end of a row: an extended region's span moves up, an OPEN region without a cell in the row closes (R95). -/
def RowEnded (v w : Survey) : Prop :=
  w = { v with regions := w.regions } ∧ ∀ i, w.regions.read i = (v.regions.read i).map (fun g =>
    if g.isOpen = true ∧ g.extended = true then { g with previous := g.current, current := none, extended := false }
    else if g.isOpen = true then { g with isOpen := false, previous := none }
    else g)

/-- A row in order: mask, runs, end of the row (R87, R88, R95). -/
def RowSurveyed (row : Nat) (ir : List (BitVec 16)) (v w : Survey) : Prop :=
  let defective := fun j => cellAt ir j < v.threshold
  ∃ runs u, RunsOf defective runs ∧
    RunsTaken row ir runs { v with mask := (List.range 32).filter (fun j => decide (defective j)) } u ∧ RowEnded u w

/-! ### The end of a complete frame -/

/-- Row 23 arrives in order for context c, which holds x (R77). -/
def LastRow (s : State) (frame : BitVec 16) (ir visible : List (BitVec 16)) (c : CtxId) (x : Ctx) : Prop :=
  ir.length = 32 ∧ visible.length = 32 ∧ TakenAlone s c x ∧ x.frame = frame.toNat ∧ x.nextRow = 23

/-- The class, the severity and the film box of a closed region, by Tables 5-4 and 5-5 and the row offset o (R97 to
R99). -/
def MarkOf (g : Region) (o : Int) (cls : DamageClass) (severity : Severity) (film : Box) : Prop :=
  let height := g.box.rowMax - g.box.rowMin + 1
  let narrow := g.box.colMax - g.box.colMin + 1 ≤ 2 ∧ 12 ≤ height
  (narrow → cls = .scratch) ∧ (¬narrow → g.area ≤ 4 → cls = .dust) ∧ (¬narrow → 4 < g.area → cls = .blotch) ∧
    (cls = .dust → severity = .minor) ∧
    (cls = .blotch → (g.area ≤ 24 → severity = .moderate) ∧ (24 < g.area → severity = .major)) ∧
    (cls = .scratch → (height < 24 → severity = .moderate) ∧ (24 ≤ height → severity = .major)) ∧
    film = ⟨(clampInt 0 23 (g.box.rowMin - o)).toNat, (clampInt 0 23 (g.box.rowMax - o)).toNat, g.box.colMin, g.box.colMax⟩

/-- Two regions match: both DUST or both BLOTCH, each edge within one cell of the other's (R111). -/
def SamePlace (c : DamageClass) (x : Box) (c' : DamageClass) (y : Box) : Prop :=
  let near := fun a b : Nat => a ≤ b + 1 ∧ b ≤ a + 1
  c = c' ∧ c ≠ .scratch ∧ near x.rowMin y.rowMin ∧ near x.rowMax y.rowMax ∧ near x.colMin y.colMin ∧
    near x.colMax y.colMax

/-- The gate-dirt list aged at a complete frame: a hit clears the absent count, a miss adds one, and an entry absent for
the limit goes (R116). -/
def agedGate (limit : Nat) (l : List GateEntry) : List GateEntry :=
  (l.map (fun e => if e.hit then { e with absent := 0, hit := false } else { e with absent := e.absent + 1 })).filter
    (fun e => decide (e.absent < limit))

/-- The chain a region of frame k of reel h takes up: that of the first previous region it matches, when the list was
built from the frame before and the frame carries no re-anchored mark, else a new one (R108, R110, R113). -/
def TakesChain (s : State) (x : Ctx) (c : DamageClass) (b : Box) (len : Nat) (refs : List DamageRef) : Prop :=
  let fits := x.reanch = false ∧ 0 < x.frame ∧ s.rpq.prevFrom = some ⟨x.handle, x.frame - 1⟩
  (fits ∧ ∃ older y rest, s.rpq.prev = older ++ y :: rest ∧ (∀ e ∈ older, ¬SamePlace c b e.cls e.box) ∧
      SamePlace c b y.cls y.box ∧ len = min 65535 (y.length + 1) ∧ refs = y.refs) ∨
    ((¬fits ∨ ∀ e ∈ s.rpq.prev, ¬SamePlace c b e.cls e.box) ∧ len = 1 ∧ refs = [])

/-- A record as a promoted chain leaves it, when the chain refers to it: a QUEUED one closes as GATE, a CLAIMED one is
marked GATE_SUSPECT (R114). -/
def Damage.withdrawn (d : Damage) : Damage :=
  match d.state with
  | .queued => { d with state := .closed .gate }
  | .claimed _ => { d with suspect := true }
  | .closed _ => d

/-- A record as a rescan of its frame leaves it (R109). -/
def Damage.rescanned (d : Damage) : Damage :=
  match d.state with
  | .queued => { d with state := .closed .superseded }
  | .claimed _ => { d with stale := true }
  | .closed _ => d

/-- A damage record as its creation makes it (R105). -/
def newDamage (s : State) (x : Ctx) (g : Region) (cls : DamageClass) (severity : Severity) (film : Box) : Damage where
  seq := s.rpq.counter
  handle := x.handle
  frame := x.frame
  cls := cls
  severity := severity
  film := film
  area := g.area
  depth := g.depth / g.area
  state := .queued
  suspect := false
  stale := false

/-! ### Claims -/

/-- The claims a port held are released: each of its records is QUEUED, and the counts of the reels and the port's claim
count follow (R121, R123, R21, R104); nothing else of REG's reels and of RPQ changes. -/
def ClaimsReleased (p : Port) (s t : State) : Prop :=
  let mine := s.rpq.damage.filter (fun e => e.2.claimedBy p)
  let of := fun h => (mine.filter (fun e => e.2.handle == h)).length
  (∀ i, t.rpq.damage.read i = (s.rpq.damage.read i).map (fun d =>
    if d.claimedBy p then { d with state := .queued } else d)) ∧
    t.rpq = { s.rpq with
      damage := t.rpq.damage, claims := s.rpq.claims.set p (s.rpq.claims.get p - mine.length) } ∧
    ∀ h, t.reel h = (s.reel h).map (fun r => { r with queued := r.queued + of h, claimed := r.claimed - of h })

/-- The release of a port's claims raises REPAIR_WAITING: it held one, and no record was QUEUED (R121, R123). -/
def releaseRaises (p : Port) (s : State) : Bool :=
  !s.repairWaiting && s.rpq.damage.any (fun e => e.2.claimedBy p)

/-! ### Moves -/

/-- REG's relocation check asks for a RELOCATE of a reel with this record (R5). -/
def Reel.mustRelocate (r : Reel) : Bool :=
  r.circulation == .shelved && decide (2 ≤ r.acidity) && !r.relocation &&
    (match r.location with
      | .slot n => decide (n < 64)
      | _ => false)

/-- The queue with a move of a reel at a place joined to its tail, in the lowest-numbered free entry (R157); without a
free entry a mark joins the leg-due list instead (R158). -/
def Cab.ask (c : Cab) (h : Nat) (kind : MoveKind) (source : Place) : Cab :=
  match c.freeEntry with
  | some e => { c with moves := c.moves ++ [⟨e, kind, h, source, none, .queued⟩] }
  | none => { c with legDue := c.legDue ++ [⟨h, kind⟩] }

/-- The queue with the oldest mark of the leg-due list drained into a free entry (R158). -/
def Cab.drainOne (c : Cab) (s : State) : Cab :=
  match c.legDue with
  | [] => c
  | d :: rest =>
    match s.reel d.handle with
    | some r => { c with legDue := rest }.ask d.handle d.kind r.location
    | none => c

/-- One drained mark is all that drains: the list was empty, or its oldest mark takes a free entry and then no entry is
free or no mark is left. R158: the queue has a free entry only while the leg-due list is empty. -/
def Cab.drainedByOne (c : Cab) (s : State) : Prop :=
  c.legDue = [] ∨ ∃ d rest r, c.legDue = d :: rest ∧ s.reel d.handle = some r ∧ c.freeEntry.isSome = true ∧
    ((c.drainOne s).freeEntry = none ∨ rest = [])

/-- RELOCATION_QUEUED when a RELOCATE stands among the moves beyond the first n (R158). -/
def relocationEvents (n : Nat) (c : Cab) : List Event :=
  if (c.moves.drop n).any (fun m => m.kind == .relocate) then [.relocationQueued] else []

/-- CAB after an event that leaves it as `c` says: both conditions as the queue and the positions now give them, and
latched, beside the events of the list, MOVE_READY when a move became eligible and ISOLATION_FULL when its condition
became active (R160, R161). -/
def CabSettled (c : Cab) (events : List Event) (s t : State) : Prop :=
  t.cab = { c with eligible := t.eligibleNow, isoFull := t.isoFullNow } ∧
    Latches (events ++ (if t.cab.eligible && !s.cab.eligible then [.moveReady] else []) ++
      (if t.cab.isoFull && !s.cab.isoFull then [.isolationFull] else [])) s t

/-- A slot, a bay position or a staging position: the places that have an occupancy (section 9.1). -/
def Place.isPosition : Place → Bool
  | .slot _ | .bay _ | .staging _ => true
  | .transport | .gripper | .exit => false

/-- Only the record of one reel is another, and it is `r` now. -/
def OnlyReel (h : Nat) (r : Reel) (s t : State) : Prop :=
  t.reel h = some r ∧ (∀ j, j ≠ h → t.reel j = s.reel j) ∧ t.reg.confirm = s.reg.confirm

/-- Only one shot record is another, and it is `x` now. -/
def OnlyShot (n : Nat) (x : Shot) (s t : State) : Prop :=
  t.sht.pool.read n = some x ∧ (∀ j, j ≠ n → t.sht.pool.read j = s.sht.pool.read j) ∧
    t.sht = { s.sht with pool := t.sht.pool }

/-! ### Conditions that every step keeps -/

/-- Every setting holds a value of its range (R189, R186). -/
def SettingsInRange (s : State) : Prop :=
  ∀ row ∈ settingRows, ∃ v, s.cfg.settings.read row.index = some v ∧ row.range.admits v = true

/-- At most one port holds SCAN and at most one holds VAULT (R180). -/
def RolesExclusive (s : State) : Prop :=
  ∀ p q : Port, s.role p = s.role q → s.role p = .scan ∨ s.role p = .vault → p = q

/-- The light is 0 while GATE_HOT is active, and never above 204 outside SCANNING (R24). -/
def LightSafe (s : State) : Prop :=
  (s.trc.gateHot = true → s.trc.light = 0) ∧ (s.trc.state ≠ .scanning → s.trc.light ≤ 204)

/-- The transport state agrees with what goes with it: no reel exactly in UNTHREADED, a fault cause exactly in FAULT
(R22), no hold cause in SCANNING and BACKUP, at least one in HOLD (R34, R36). -/
def TransportCoherent (s : State) : Prop :=
  (s.trc.state = .unthreaded ↔ s.trc.handle = none) ∧ (s.trc.state = .fault ↔ s.trc.fault ≠ none) ∧
    (s.trc.state = .scanning ∨ s.trc.state = .backup → s.trc.holds = .empty) ∧
    (s.trc.state = .hold → s.trc.holds ≠ .empty)

/-- How many frame contexts are OPEN. -/
def Fcu.openCount (u : Fcu) : Nat :=
  (if u.ctx.zero.isSome then 1 else 0) + (if u.ctx.one.isSome then 1 else 0)

/-- The queue with the frames still open holds at most 31 records, and 30 records stand with BACKPRESSURE (R34). -/
def QueueBounded (s : State) : Prop :=
  s.fcu.queue.length + s.fcu.openCount ≤ 31 ∧ (Config.pressureOn ≤ s.fcu.queue.length → s.trc.holds.backpressure = true)

/-- A pitch lies within the limits of a gauge (R49). -/
def Pitch.within (p : Pitch) (g : Gauge) : Prop :=
  g.pitchMin * 65536 ≤ p.pu ∧ p.pu ≤ g.pitchMax * 65536 ∧ (p.pInt = g.pitchMax → p.f1 = 0 ∧ p.f2 = 0)

/-- The ranges of the fractions and of M2 (Table 3-2). -/
def Pitch.inFields (p : Pitch) : Prop := p.f1 < 65536 ∧ 2 ≤ p.m2 ∧ p.f2 < p.m2

/-- The live pitch lies within the limits of PRU's gauge, and both copies keep their field ranges (R48, R49). -/
def PitchInLimits (s : State) : Prop :=
  s.pru.live.within s.pru.gauge ∧ s.pru.live.inFields ∧ s.pru.staged.inFields

/-- A rescan list holds 0 to 8 ranges, ordered, no two overlapping or adjoining (R18). -/
def rescanOrdered (l : List FrameRange) : Prop :=
  l.length ≤ Config.rescanRanges ∧ (∀ x ∈ l, x.first ≤ x.last) ∧ l.Pairwise (fun x y => x.last + 2 ≤ y.first)

/-- The rescan list of every admitted reel is so (R18). -/
def RescansOrdered (s : State) : Prop := ∀ e ∈ s.reg.reels, rescanOrdered e.2.rescan

/-- CAB's two conditions are as the queue and the positions give them (R160, R161). -/
def CabCurrent (s : State) : Prop := s.cab.eligible = s.eligibleNow ∧ s.cab.isoFull = s.isoFullNow

/-- A place is one of the cabinet's: 80 slots, 8 bay positions, 8 staging positions (Table 9-1). -/
def Place.inRange : Place → Prop
  | .slot n => n < 80
  | .bay n => n < 8
  | .staging n => n < 8
  | .transport | .gripper | .exit => True

/-- The numbered entries in use keep to the sizes of their tables: 96 reels (R3), 1024 damage records (R103), 512 shots
(R127) of at most 7 layers (R143), 24 regions for each context (R84), 80 slots, 8 bay and 8 staging positions with the
reels and moves at them (R155), a timer for each bay position (R155), 16 moves with one entry each (R157), at most 4
splices (R42), 8 entries of gate dirt and 16 claims of a port (R103). The counters of TMB stay within their periods
(R190). -/
def SizesHold (s : State) : Prop :=
  (∀ e ∈ s.reg.reels, e.1 < 96 ∧ e.2.home < 80 ∧ e.2.location.inRange) ∧
    (∀ e ∈ s.rpq.damage, e.1 < 1024) ∧ (∀ i ∈ s.rpq.closedList, i < 1024) ∧
    (∀ e ∈ s.sht.pool, e.1 < 512 ∧ e.2.stack.length ≤ 7) ∧
    (∀ c : CtxId, ∀ e ∈ (s.dsu.get c).regions, e.1 < 24) ∧
    (∀ e ∈ s.cab.slots, e.1 < 80) ∧ (∀ e ∈ s.cab.bays, e.1 < 8) ∧ (∀ e ∈ s.cab.stagings, e.1 < 8) ∧
    (∀ m ∈ s.cab.moves, m.entry < 16 ∧ m.source.inRange ∧ ∀ d ∈ m.dest, d.inRange) ∧
    (s.cab.moves.map (·.entry)).Nodup ∧ s.cab.bayTimers.length = 8 ∧
    s.trc.spliceQueue.length ≤ 4 ∧ s.rpq.gate.length ≤ 8 ∧ (∀ p : Port, s.rpq.claims.get p ≤ 16) ∧
    s.tmb.millis < 1000 ∧ s.tmb.seconds < 60

/-- Every table lists its entries once each, in rising order. -/
def TablesCanonical (s : State) : Prop :=
  s.reg.reels.wf = true ∧ s.rpq.damage.wf = true ∧ s.sht.pool.wf = true ∧ s.cab.slots.wf = true ∧
    s.cab.bays.wf = true ∧ s.cab.stagings.wf = true ∧ s.cfg.settings.wf = true ∧
    (∀ c : CtxId, (s.dsu.get c).regions.wf = true)

end Sys2Proof.Machine
end

