-- ==== Sys2Proof/Certificates/Slice0/Obligations.lean ====
section
/-! DEFINITION. The statements for the provers. A docstring names the rules a statement is about; where a clause is the
model's choice, it names the log entry. -/

open Sys2Proof Sys2Proof.Machine

/-! ### The whole part -/

/-- The command at the front of the queue is taken, whole, with the rest of the queue left waiting; on an empty queue the
part idles. That a command is one whole event is the manual's (R175 for a request, 'What each step holds' for every row of
the table); the queue, its order and the idling are the model's choice (log entry 3). -/
def Obligations.StepTakesTheFrontCommand : Prop :=
  (∀ (c : Instr) (rest : List Instr) (s : State), s.pending = c :: rest → step s = exec c { s with pending := rest }) ∧
    ∀ s : State, s.pending = [] → step s = .next s

/-- No command stops the part, and none changes a block outside those `mayChange` names for it: what comes about inside a
command is what 'What each step holds' lists for it with the governing rules, and with it the port's response (R175) and the
latched alerts (R185). That no command adds to or takes from the queue of waiting commands, RESET included, is the model's
choice (log entry 3), and so is the output that every command may change (log entry 8). -/
def Obligations.EveryCommandKeepsToItsBlocks : Prop :=
  ∀ (c : Instr) (s : State), ∃ t, exec c s = .next t ∧ Kept (mayChange c) s t

/-- RESET brings every block to its state after RESET (R191), whatever it held. The level of the ESTOP input and the
waiting commands stay (the model's choice, log entries 2 and 3). -/
def Obligations.ResetRestoresTheResetState : Prop :=
  ∀ s : State, ∃ t, exec .reset s = .next t ∧
    (t.reg.reels = [] ∧ ∀ p, t.reg.confirm.get p = none) ∧
    (t.trc.state = .unthreaded ∧ t.trc.fault = none ∧ t.trc.holds = ⟨false, false, false⟩ ∧ t.trc.profile = .normal ∧
      t.trc.scanSpeed = 0 ∧ t.trc.capstan = 0 ∧ t.trc.light = 0 ∧ t.trc.linkSeen = false ∧ t.trc.position = 0 ∧
      t.trc.handle = none ∧ t.trc.spliceQueue = [] ∧ t.trc.tensionHigh = none ∧ t.trc.tensionLow = none ∧
      t.trc.holdLight = none ∧ t.trc.gateDelay = none ∧ t.trc.gateHot = false ∧ t.trc.reportAge = 50) ∧
    (t.pru.live = ⟨19000, 0, 0, 2⟩ ∧ t.pru.staged = ⟨19000, 0, 0, 2⟩ ∧ t.pru.liveReg = ⟨120, 2, 800, 4, 1, 1⟩ ∧
      t.pru.stagedReg = ⟨120, 2, 800, 4, 1, 1⟩ ∧ t.pru.commitPending = false ∧ t.pru.gauge = .g35x4 ∧
      t.pru.origin = none ∧ t.pru.anchor = none ∧ t.pru.a1 = 0 ∧ t.pru.a2 = 0 ∧ t.pru.expect = none ∧
      t.pru.lastEdge = none ∧ t.pru.lastLine = none ∧ t.pru.lock = .unlocked ∧ t.pru.count = 0 ∧ t.pru.missing = 0 ∧
      t.pru.reanchor = false ∧ t.pru.window = .off ∧ t.pru.adapted = false ∧ t.pru.strays = 0 ∧
      t.pru.linesOver = false) ∧
    ((∀ c, t.fcu.ctx.get c = none) ∧ t.fcu.nextFrame = 0 ∧ t.fcu.skips = 0 ∧ t.fcu.strayRows = 0 ∧ t.fcu.queue = []) ∧
    (∀ c, t.dsu.get c = ⟨[], 0, 0, [], 0, false⟩) ∧
    (t.rpq.damage = [] ∧ t.rpq.closedList = [] ∧ t.rpq.counter = 0 ∧ (∀ p, t.rpq.claims.get p = 0) ∧ t.rpq.gate = [] ∧
      t.rpq.prev = [] ∧ t.rpq.prevFrom = none) ∧
    ((∀ c, t.sht.acc.get c = ⟨0, 0⟩) ∧ t.sht.previousM = none ∧ t.sht.lastFrame = none ∧ t.sht.firstPending = true ∧
      t.sht.ref16 = 0 ∧ t.sht.previousF = 4096 ∧ t.sht.pool = []) ∧
    (t.cab.slots = [] ∧ t.cab.bays = [] ∧ t.cab.stagings = [] ∧ t.cab.moves = [] ∧ t.cab.legDue = [] ∧
      t.cab.gripper = none ∧ t.cab.climateOut = false ∧ t.cab.isoFull = false ∧ t.cab.eligible = false ∧
      ∀ n, n < 8 → (t.cab.bayTimer n).state = .idle) ∧
    (∀ p, (t.spt.get p).response = none ∧ (t.spt.get p).overrun = false) ∧
    (∀ p, (t.alt.get p).latched = 0 ∧ (t.alt.get p).mask = BitVec.allOnes 27) ∧
    (t.cfg.settings = settingRows.map (fun r => (r.index, r.default)) ∧ t.cfg.running = true ∧ t.cfg.offset = 256) ∧
    (t.tmb = ⟨0, 0, 0⟩) ∧
    (t.trc.estop = s.trc.estop ∧ t.pending = s.pending) ∧
    (s.trc.estop = false → s.pending = [] → t = State.reset)

/-- Each condition of the statements below holds right after RESET. -/
def Obligations.InvariantsHoldAtReset : Prop :=
  SettingsInRange State.reset ∧ RolesExclusive State.reset ∧ LightSafe State.reset ∧ TransportCoherent State.reset ∧
    QueueBounded State.reset ∧ PitchInLimits State.reset ∧ RescansOrdered State.reset ∧ CabCurrent State.reset ∧
    SizesHold State.reset ∧ TablesCanonical State.reset

/-! ### Conditions every step keeps -/

/-- R189: a setting holds a value of its range, whatever is written. -/
def Obligations.SettingsStayInRange : Prop :=
  ∀ s t : State, SettingsInRange s → step s = .next t → SettingsInRange t

/-- R180: at most one port holds SCAN and at most one VAULT. -/
def Obligations.RolesStayExclusive : Prop :=
  ∀ s t : State, RolesExclusive s → step s = .next t → RolesExclusive t

/-- R24: the light is 0 while GATE_HOT is active, and a film standing in the gate is never lit above 204. -/
def Obligations.LightStaysSafe : Prop :=
  ∀ s t : State, SettingsInRange s → LightSafe s → step s = .next t → LightSafe t

/-- R22, R34, R36: the transport state, the threaded handle, the fault cause and the hold-cause set agree. -/
def Obligations.TransportStaysCoherent : Prop :=
  ∀ s t : State, TransportCoherent s → step s = .next t → TransportCoherent t

/-- R34: the frame record queue and the frames still open together never pass 31, so no record lacks room. -/
def Obligations.FrameQueueStaysBounded : Prop :=
  ∀ s t : State, TransportCoherent s → QueueBounded s → step s = .next t → QueueBounded t

/-- R48, R49: the live pitch stays within the limits of PRU's gauge. -/
def Obligations.LivePitchStaysInLimits : Prop :=
  ∀ s t : State, PitchInLimits s → step s = .next t → PitchInLimits t

/-- R18: a rescan list holds at most 8 ranges, ordered, none overlapping or adjoining another. -/
def Obligations.RescanListsStayOrdered : Prop :=
  ∀ s t : State, RescansOrdered s → step s = .next t → RescansOrdered t

/-- R160, R161: CAB's two conditions are, after every event, what the queue and the positions make them. -/
def Obligations.CabConditionsStayCurrent : Prop :=
  ∀ s t : State, CabCurrent s → step s = .next t → CabCurrent t

/-- R3, R42, R84, R103, R127, R143, R155, R157, R190: no table entry beyond its table's size, no slot, bay or staging
position beyond the cabinet's, no stack above 7 layers, no two moves in one entry, at most 4 splices, 8 gate-dirt entries
and 16 claims a port; and every table of the state keeps its canonical form, so equal contents are equal data (the form is
the model's own, log entry 33). TMB's counters stay below 1000 and 60. -/
def Obligations.TablesKeepSizeAndForm : Prop :=
  ∀ s t : State, SizesHold s → TablesCanonical s → step s = .next t → SizesHold t ∧ TablesCanonical t

/-! ### Start-up, the ESTOP input, the ticks -/

/-- R191, R192, R184: while the preload runs, a value of the settings memory is stored as SET_SETTING stores it, a duplicate
role becomes NONE and raises PRELOAD_ERROR for all four ports, an unused index is passed over, and no other setting
changes. A value beyond index 127 or beyond the readable area ends the preload with the error, and so do the two ends
that are errors; every end opens the ports and keeps every setting, and the read offset too (the model's choice, log entry
39). -/
def Obligations.PreloadStoresAndEnds : Prop :=
  (∀ (s : State) (offset index value : BitVec 16), s.cfg.running = true →
      (index.toNat ≤ 127 → offset.toNat + 1 < 4096 →
        ∃ t, exec (.preloadValue offset index value) s = .next t ∧ t.cfg.running = true ∧
          t.cfg.offset = offset.toNat + 2 ∧ Kept [.reg, .trc, .rpq, .alt, .cfg, .out] s t ∧
          (∀ j, j ≠ index.toNat → t.setting j = s.setting j) ∧
          (settingRow index.toNat = none → t.cfg.settings = s.cfg.settings ∧ Kept [.cfg, .out] s t) ∧
          (∀ row, settingRow index.toNat = some row →
            (duplicateWrite index.toNat (row.range.store value.toNat) s = false →
              t.setting index.toNat = row.range.store value.toNat) ∧
            (duplicateWrite index.toNat (row.range.store value.toNat) s = true →
              t.setting index.toNat = 0 ∧ ∀ p, AlertSet.has (t.alt.get p).latched .preloadError = true))) ∧
      (127 < index.toNat ∨ 4096 ≤ offset.toNat + 1 →
        ∃ t, exec (.preloadValue offset index value) s = .next t ∧ t.cfg = { s.cfg with running := false } ∧
          (∀ p, t.alt.get p = (s.alt.get p).latch .preloadError) ∧ Kept [.alt, .cfg, .out] s t)) ∧
    ∀ (s : State) (why : PreloadEnd), s.cfg.running = true →
      ∃ t, exec (.preloadEnd why) s = .next t ∧ t.cfg = { s.cfg with running := false } ∧
        (why = .badSignature ∨ why = .endRecord → t.alt = s.alt) ∧
        (why = .indexBeyond ∨ why = .areaEnd → ∀ p, t.alt.get p = (s.alt.get p).latch .preloadError) ∧
        Kept [.alt, .cfg, .out] s t

/-- R39, R79, R54, R61: a protection that fires in any state but UNTHREADED and FAULT enters FAULT with its cause, capstan
and light at 0 and sent, the run over, both frame contexts abandoned with their frames on the rescan list, the lock
UNLOCKED, TRANSPORT_FAULT raised; the reel, the origin and the frame record queue stay. R110: an abandoned context breaks
the damage chains; without one RPQ stays as it is. That CAPSTAN goes to the head before
LIGHT is the model's choice (log entry 34). -/
def Obligations.ProtectionEntersFault : Prop :=
  ∀ (s : State) (c : Instr) (cause : FaultCause),
    (c = .estopAsserted ∧ cause = .estop ∧ s.trc.estop = false) ∨
      (c = .tensionHighExpiry ∧ cause = .tensionHigh ∧ s.trc.tensionHigh = some 0) ∨
      (c = .tensionLowExpiry ∧ cause = .tensionLow ∧ s.trc.tensionLow = some 0) ∨
      (c = .headSilenceExpiry ∧ cause = .headSilent ∧ 50 ≤ s.trc.silence) →
    s.trc.state ≠ .unthreaded → s.trc.state ≠ .fault →
    ∃ t, exec c s = .next t ∧ t.trc.state = .fault ∧ t.trc.fault = some cause ∧ t.trc.capstan = 0 ∧ t.trc.light = 0 ∧
      t.out = ⟨[.capstan 0, .light 0], []⟩ ∧ t.trc.holds = { s.trc.holds with operator := false } ∧
      t.trc.inch = none ∧ t.trc.backupTarget = none ∧ t.trc.spliceQueue = [] ∧ t.trc.holdLight = none ∧
      t.trc.tensionHigh = none ∧ t.trc.tensionLow = none ∧ t.trc.handle = s.trc.handle ∧
      t.trc.estop = (s.trc.estop || decide (c = .estopAsserted)) ∧
      t.pru = { s.pru with
        lock := .unlocked, count := 0, missing := 0, reanchor := false, expect := none, seekFrom := none } ∧
      (∀ x, t.fcu.ctx.get x = none) ∧ t.fcu.queue = s.fcu.queue ∧ t.fcu.nextFrame = s.fcu.nextFrame ∧
      t.fcu.skips = s.fcu.skips ∧
      (∀ h r, s.reel h = some r → ∃ r', t.reel h = some r' ∧ r' = { r with rescan := r'.rescan }) ∧
      (RescansOrdered s → ∀ i x, s.fcu.ctx.get i = some x → ∀ r', t.reel x.handle = some r' →
        inRanges r'.rescan x.frame = true) ∧
      ((∃ i, s.fcu.ctx.get i ≠ none) → t.rpq = { s.rpq with prev := [], prevFrom := none }) ∧
      ((∀ i, s.fcu.ctx.get i = none) → t.rpq = s.rpq) ∧
      (∀ p, AlertSet.has (s.route p) .transportFault = true → AlertSet.has (t.alt.get p).latched .transportFault = true) ∧
      Kept faultBlocks s t

/-- R39, R40: in UNTHREADED and FAULT an asserted ESTOP changes only the level, and so does a released one in every
state. -/
def Obligations.EstopLevelFollowsTheInput : Prop :=
  (∀ s : State, s.trc.state = .unthreaded ∨ s.trc.state = .fault →
    ∃ t, exec .estopAsserted s = .next t ∧ t.trc = { s.trc with estop := true } ∧ Kept [.trc, .out] s t) ∧
    ∀ s : State, ∃ t, exec .estopReleased s = .next t ∧ t.trc = { s.trc with estop := false } ∧ Kept [.trc, .out] s t

/-- R190, R170: a millisecond tick is delivered to every timer that counts it; the 1000th wraps the second counter to 0
and gives the second tick in the same step, the 60th second tick wraps the minute counter and gives the minute tick, at
which the RUNNING bay timers count while the climate is not OUT. A timer at its end waits for its expiry (the model's
choice, log entry 4). SECOND_TICK and MINUTE_TICK come with the millisecond ticks that are left of their period, as many as
make it 1000 or 60 times 1000, and the counters wrap (the model's choice, log entry 9). -/
def Obligations.TicksCount : Prop :=
  (∀ s : State, s.tmb.millis < 999 →
    ∃ t, exec .millisecondTick s = .next t ∧ t.tmb = ⟨0, s.tmb.millis + 1, s.tmb.seconds⟩ ∧ TimersPassed 1 s t ∧
      Kept [.reg, .trc, .fcu, .tmb, .out] s t) ∧
  (∀ s : State, s.tmb.millis = 999 →
    (s.tmb.seconds < 59 → ∃ t, exec .millisecondTick s = .next t ∧ t.tmb = ⟨0, 0, s.tmb.seconds + 1⟩ ∧
      TimersPassed 1 s t ∧ Kept [.reg, .trc, .fcu, .tmb, .out] s t) ∧
    (s.tmb.seconds = 59 → ∃ t, exec .millisecondTick s = .next t ∧ t.tmb = ⟨0, 0, 0⟩ ∧ TimersPassed 1 s t ∧
      MinutePassed s t ∧ Kept [.reg, .trc, .fcu, .cab, .tmb, .out] s t)) ∧
  (∀ s : State, s.tmb.millis < 1000 →
    (s.tmb.seconds < 59 → ∃ t, exec .secondTick s = .next t ∧ t.tmb = ⟨0, 0, s.tmb.seconds + 1⟩ ∧
      TimersPassed (1000 - s.tmb.millis) s t ∧ Kept [.reg, .trc, .fcu, .tmb, .out] s t) ∧
    (s.tmb.seconds = 59 → ∃ t, exec .secondTick s = .next t ∧ t.tmb = ⟨0, 0, 0⟩ ∧
      TimersPassed (1000 - s.tmb.millis) s t ∧ MinutePassed s t ∧ Kept [.reg, .trc, .fcu, .cab, .tmb, .out] s t)) ∧
  (∀ s : State, s.tmb.millis < 1000 → s.tmb.seconds < 60 →
    ∃ t, exec .minuteTick s = .next t ∧ t.tmb = ⟨0, 0, 0⟩ ∧
      TimersPassed ((60 - s.tmb.seconds) * 1000 - s.tmb.millis) s t ∧ MinutePassed s t ∧
      Kept [.reg, .trc, .fcu, .cab, .tmb, .out] s t)

/-! ### The head link -/

/-- R22, R38: outside SCANNING a position report sets the current position and resets the two counts; the first report
since RESET has capstan target and light sent. R29, R66: a report at the inch target ends the inch in THREADED with the
capstan at 0 and LIGHT_HOLD for a fresh hold-light time. R36, R51: one at or below the backup target resumes SCANNING with
the speed of the run, and PRU places its expectation at the least line ahead of the position, with the accumulators of
stepping and the window frame passed over marked restart pending (R63), unless SEEKING. That the report which ends a
backup declares no line missing and passes no splice is the model's choice (log entry 11), and so are the two
commands ahead of the first report's own effect (log entry 17), CAPSTAN first (log entry 34). A run that once had no line
ahead of its position gets no expectation at the end of a later backup either (R51, R57; log entry 36). -/
def Obligations.PositionReportOutsideScanning : Prop :=
  (∀ (s : State) (p : BitVec 32), s.trc.state ≠ .scanning →
      (s.trc.state = .inching → ∀ i, s.trc.inch = some i → if i.forward then p.toInt < i.target else i.target < p.toInt) →
      (s.trc.state = .backup → ∀ b, s.trc.backupTarget = some b → b < p.toInt) →
      ∃ t, exec (.position p) s = .next t ∧
        t.trc = { s.trc with position := p.toInt, reportAge := 0, silence := 0, linkSeen := true } ∧
        t.out.head = (if s.trc.linkSeen then [] else [.capstan s.trc.capstan, .light s.trc.light]) ∧
        Kept [.trc, .out] s t) ∧
    (∀ (s : State) (p : BitVec 32) (i : Inch), s.trc.state = .inching → s.trc.inch = some i → s.pru.commitPending = false →
      (if i.forward then i.target ≤ p.toInt else p.toInt ≤ i.target) →
      ∃ t, exec (.position p) s = .next t ∧ t.trc.state = .threaded ∧ t.trc.position = p.toInt ∧ t.trc.capstan = 0 ∧
        t.trc.inch = none ∧ t.trc.holdLight = some (s.setting Setting.holdLightLimit * 1000) ∧
        t.trc.light = (if s.trc.gateHot then 0 else s.setting Setting.lightHold) ∧ t.trc.holds = s.trc.holds ∧
        t.trc.handle = s.trc.handle ∧ t.pru = { s.pru with expect := none } ∧ Kept [.trc, .pru, .out] s t) ∧
    (∀ (s : State) (p : BitVec 32) (b : Int), s.trc.state = .backup → s.trc.backupTarget = some b → p.toInt ≤ b →
      ∃ t, exec (.position p) s = .next t ∧ t.trc.state = .scanning ∧ t.trc.position = p.toInt ∧
        t.trc.backupTarget = none ∧ t.trc.scanSpeed = s.trc.scanSpeed ∧
        t.trc.capstan = ((if t.trc.inZone then min s.trc.scanSpeed (s.setting Setting.spliceSpeed)
          else s.trc.scanSpeed) * s.pru.live.pInt / 10 : Nat) ∧
        t.trc.light = (if s.trc.gateHot then 0 else s.setting Setting.lightFull) ∧ t.trc.holdLight = none ∧
        (s.pru.lock = .seeking ∨ s.pru.linesOver = true → t.pru = s.pru) ∧
        (s.pru.lock ≠ .seeking → s.pru.linesOver = false →
          (s.pru.anchor = none → t.pru = { s.pru with expect := none }) ∧
          (PitchInLimits s → ∀ m, s.pru.anchor = some m → Placed p.toInt m s.pru t.pru)) ∧
        Kept [.trc, .pru, .out] s t)

/-- R44, R23: a position report in SCANNING that completes no line and passes no zone end tests the zones and slows the
film to SPLICE_SPEED inside one, and changes nothing else. R45, R21, R54: one beyond the zone ends of entries takes them out
of the queue; each counts one splice for the threaded reel, and the lock becomes UNLOCKED and waits for the next edge to
re-anchor unless SEEKING. -/
def Obligations.PositionReportInScanning : Prop :=
  (∀ (s : State) (p : BitVec 32), s.trc.state = .scanning → s.trc.linkSeen = true →
      (∀ m, s.pru.expect = some m → p.toInt ≤ m.pos + s.pru.windowHalf) →
      (∀ x ∈ s.trc.spliceQueue, ∀ f, x.fall = some f →
        p.toInt ≤ f + s.setting Setting.spliceLead + s.setting Setting.spliceMargin) →
      ∃ t, exec (.position p) s = .next t ∧
        (t.trc.inZone = true ↔ ∃ x ∈ s.trc.spliceQueue,
          x.rise + s.setting Setting.spliceLead - s.setting Setting.spliceMargin ≤ p.toInt ∧
            ∀ f, x.fall = some f → p.toInt ≤ f + s.setting Setting.spliceLead + s.setting Setting.spliceMargin) ∧
        t.trc.capstan = ((if t.trc.inZone then min s.trc.scanSpeed (s.setting Setting.spliceSpeed)
          else s.trc.scanSpeed) * s.pru.live.pInt / 10 : Nat) ∧
        t.trc = { s.trc with
          position := p.toInt, reportAge := 0, silence := 0, linkSeen := true, inZone := t.trc.inZone
          capstan := t.trc.capstan } ∧
        Kept [.trc, .out] s t) ∧
    ∀ (s : State) (p : BitVec 32) (h : Nat) (r : Reel), s.trc.state = .scanning → s.trc.handle = some h →
      s.reel h = some r → (∀ m, s.pru.expect = some m → p.toInt ≤ m.pos + s.pru.windowHalf) →
      ∀ gone rest : List Splice, gone ≠ [] → s.trc.spliceQueue = gone ++ rest →
      (∀ x ∈ gone, ∃ f, x.fall = some f ∧ f + s.setting Setting.spliceLead + s.setting Setting.spliceMargin < p.toInt) →
      (∀ x ∈ rest, ∀ f, x.fall = some f → p.toInt ≤ f + s.setting Setting.spliceLead + s.setting Setting.spliceMargin) →
      ∃ t, exec (.position p) s = .next t ∧ t.trc.spliceQueue = rest ∧ t.trc.state = .scanning ∧
        t.reel h = some { r with splices := min 255 (r.splices + gone.length) } ∧
        (∀ h', h' ≠ h → t.reel h' = s.reel h') ∧ t.reg.confirm = s.reg.confirm ∧
        (s.pru.lock = .seeking → t.pru = s.pru) ∧
        (s.pru.lock ≠ .seeking →
          t.pru = { s.pru with lock := .unlocked, count := 0, reanchor := true, seekFrom := none }) ∧
        Latches (if s.pru.lock = .locked then [.lockLost] else []) s t ∧ Kept [.reg, .trc, .pru, .alt, .out] s t

/-- R52, R55: outside SCANNING an edge only becomes the last edge. That it becomes not even that in UNTHREADED is read from
R28 and R52 by inference (log entry 27), and that an edge report leaves the position TRC holds as it is is the model's
reading of R22 (log entry 10). R56: in SCANNING an edge below the window, or one with no line expected and no SEEKING, is a
stray. -/
def Obligations.EdgeOutsideTheWindow : Prop :=
  (∀ (s : State) (p : BitVec 32), s.trc.state ≠ .scanning →
    ∃ t, exec (.frameLine p) s = .next t ∧
      t.pru = (if s.trc.state = .unthreaded then s.pru else { s.pru with lastEdge := some p.toInt }) ∧
      t.trc = { s.trc with reportAge := 0, silence := 0, linkSeen := true } ∧ Kept [.trc, .pru, .out] s t) ∧
  (∀ (s : State) (p : BitVec 32), s.trc.state = .scanning → s.pru.lock ≠ .seeking →
    (∀ m, s.pru.expect = some m → p.toInt < m.pos - s.pru.windowHalf) → 0 ≤ s.pru.windowHalf →
    ∃ t, exec (.frameLine p) s = .next t ∧
      t.pru = { s.pru with lastEdge := some p.toInt, strays := min 65535 (s.pru.strays + 1) } ∧
      t.trc = { s.trc with reportAge := 0, silence := 0, linkSeen := true } ∧ Kept [.trc, .pru, .out] s t)

/-- R57, R58, R50: an edge in the window of the expected frame is its measurement: it becomes the last line, steps the
lock detector by |e| against LW, and the expectation steps on by R50. R62: at the window frame, LOCKED, the pitch is
corrected by e·2^(16−w−g), clamped, and the adapted flag set when it changed; R63: not LOCKED there, or restart pending,
nothing is corrected; in each case the anchor and the next window start at the edge. R54: with re-anchor pending, an edge
within half a pitch re-anchors in place of the lock test. R66, R67, R63: a pending commit applies at the line after the
lock detector; a changed pitch re-anchors there, with the window set by the new w (log entry 29), an unchanged one keeps
anchor and lock. The model's choices besides: a commit that sets ADAPT_ENABLE to 0 and changes w leaves the window off (log
entry 35), and an edge in the window of k is its measurement also where it lies in the taken window of k − 1, by which R56
gives it as a stray (log entry 38). -/
def Obligations.ExpectedLineStepsTheLock : Prop :=
  ∀ (s : State) (p : BitVec 32) (pk : Int) (k : Nat), Undisturbed s k →
    let e := p.toInt - pk
    let u := s.pru
    let line := fun t : State => exec (.frameLine p) s = .next t ∧ t.pru.lastEdge = some p.toInt ∧
      t.pru.lastLine = some ⟨k, p.toInt, true⟩ ∧ t.pru.missing = 0 ∧ t.pru.strays = u.strays ∧
      t.trc.state = .scanning ∧ Kept lineBlocks s t
    let captured := fun (reanch : Bool) (t : State) => ∀ c, LowestFree s c → s.fcu.nextFrame ≤ k →
      CapturedIn c k (some e) reanch t
    (PlainLine s pk k → e.natAbs ≤ u.halfWidth → ∃ t, line t ∧ LockStepped e s t ∧ SteppedOn pk k s t ∧
      t.pru.live = u.live ∧ t.pru.window = u.window ∧ t.pru.adapted = u.adapted ∧ captured false t) ∧
    (Expected s pk k → u.reanchor = false → u.commitPending = false → u.window = .frame k ∨ u.window = .restart →
      e.natAbs ≤ u.halfWidth →
      let pu := ((u.live.pu : Int) + e * 2 ^ (16 - u.liveReg.w - u.liveReg.g)).toNat
      let moved : Pitch := { u.live with pInt := pu / 65536, f1 := pu % 65536 }
      let corrected := clampPitch u.gauge moved
      ∃ t, line t ∧ LockStepped e s t ∧ FromAnchor t.pru.live p.toInt k t.pru ∧
        t.pru.window = .frame (k + 2 ^ u.liveReg.w) ∧ captured false t ∧
        (u.window = .frame k → LocksAt e s → t.pru.live = corrected ∧
          t.pru.adapted = (u.adapted || corrected != u.live) ∧ t.trc.capstan = t.capstanTarget ∧
          (corrected ≠ moved → LatchedWhereRouted .pitchLimit s t)) ∧
        (u.window = .restart ∨ ¬LocksAt e s → t.pru.live = u.live ∧ t.pru.adapted = u.adapted)) ∧
    (Expected s pk k → u.reanchor = true → u.commitPending = false → e.natAbs ≤ u.live.pInt / 2 →
      ∃ t, line t ∧ Reanchored t.pru ∧ FromAnchor u.live p.toInt k t.pru ∧ t.pru.live = u.live ∧
        t.pru.window = windowFrom u.liveReg.adapt u.liveReg.w k ∧ t.pru.adapted = u.adapted ∧
        (u.lock = .locked → LatchedWhereRouted .lockLost s t) ∧ captured true t) ∧
    (Expected s pk k → u.reanchor = false → u.commitPending = true → u.window ≠ .restart → u.window ≠ .frame k →
      e.natAbs ≤ u.halfWidth →
      let q := clampPitch u.gauge u.staged
      let new := u.stagedReg
      ∃ t, line t ∧ t.pru.live = q ∧ t.pru.liveReg = new ∧ t.pru.commitPending = false ∧ t.pru.adapted = u.adapted ∧
        (q ≠ u.staged → LatchedWhereRouted .pitchLimit s t) ∧
        (q = u.live → LockStepped e s t ∧ SteppedOn pk k s t ∧ captured false t ∧
          (new.adapt = 0 → u.liveReg.adapt ≠ 0 → t.pru.window = .off) ∧
          (new.adapt ≠ 0 → u.liveReg.adapt = 0 ∨ u.liveReg.w ≠ new.w → t.pru.window = .restart) ∧
          (new.adapt ≠ 0 → u.liveReg.adapt ≠ 0 → u.liveReg.w = new.w → t.pru.window = u.window)) ∧
        (q ≠ u.live → Reanchored t.pru ∧ FromAnchor q p.toInt k t.pru ∧ t.pru.window = windowFrom new.adapt new.w k ∧
          t.trc.capstan = t.capstanTarget ∧ (u.lock = .locked → LatchedWhereRouted .lockLost s t) ∧ captured true t))

/-- R72, R73, R86, R125: the line of an expected frame opens the lowest-numbered FREE context for it and CAPTURE goes to the
head with the frame and its error; with both contexts OPEN the frame is skipped (R74), and below next frame it is passed
(R72). A context still OPEN for the same frame is first closed INCOMPLETE (R73), its record graded (R139). When that close
brings the queue to 30 records the transport enters HOLD and the line opens no context (R34; the model's reading, log entry
6). At the line of frame 65535 the run ends as by STOP, with FRAME_LIMIT, in each of these cases (R46, R76). -/
def Obligations.ExpectedLineIsCaptured : Prop :=
  ∀ (s : State) (p : BitVec 32) (pk : Int) (k : Nat), PlainLine s pk k → (p.toInt - pk).natAbs ≤ s.pru.halfWidth →
    s.trc.linkSeen = true →
    let e := p.toInt - pk
    let opened := fun t : State => openedFor s k p.toInt e (decide (t.pru.lock = .locked))
    let closedOther := fun (y : Ctx) (t : State) =>
      (∃ r : FrameRecord, t.fcu.queue = s.fcu.queue ++ [r] ∧ IncompleteRecord s y r ∧ RecordGraded s t r) ∧
        ListedIncomplete s y t
    (k < 65535 → s.fcu.nextFrame ≤ k → (∀ c x, s.fcu.ctx.get c = some x → x.frame ≠ k) → ∀ c, LowestFree s c →
      ∃ t, exec (.frameLine p) s = .next t ∧
        t.fcu = { s.fcu with
          ctx := s.fcu.ctx.set c (some (opened t)), newest := c, nextFrame := k + 1, skips := 0 } ∧
        t.dsu = s.dsu.set c ⟨[], s.setting Setting.irThreshold, roundDiv e (s.pru.live.pInt / 24), [], 0, false⟩ ∧
        t.sht = { s.sht with acc := s.sht.acc.set c ⟨0, 0⟩ } ∧ t.out = ⟨[.capture k e], []⟩ ∧
        Kept [.trc, .pru, .fcu, .dsu, .sht, .alt, .out] s t) ∧
    (k < 65535 → s.fcu.nextFrame ≤ k → (∀ c, s.fcu.ctx.get c ≠ none) → ∃ t, exec (.frameLine p) s = .next t ∧
      t.fcu = { s.fcu with nextFrame := k + 1, skips := min 255 (s.fcu.skips + 1) } ∧
      t.rpq = { s.rpq with prev := [], prevFrom := none } ∧ t.out = ⟨[], []⟩ ∧ LatchedWhereRouted .frameSkipped s t ∧
      (∀ h r, s.trc.handle = some h → s.reel h = some r →
        t.reel h = some { r with rescan := addRange r.rescan ⟨k, k⟩ }) ∧
      Kept [.reg, .trc, .pru, .fcu, .rpq, .sht, .alt, .out] s t) ∧
    (k < 65535 → k < s.fcu.nextFrame → ∃ t, exec (.frameLine p) s = .next t ∧ t.out = ⟨[], []⟩ ∧
      Kept [.trc, .pru, .alt, .out] s t) ∧
    (k < 65535 → s.fcu.nextFrame ≤ k → s.fcu.queue.length + 1 < 30 → ∀ c y, LowestFree s c →
      s.fcu.ctx.get c.other = some y → y.frame = k → ∃ t, exec (.frameLine p) s = .next t ∧
        t.fcu.ctx.get c = some (opened t) ∧ t.fcu.ctx.get c.other = none ∧ t.fcu.newest = c ∧
        t.fcu.nextFrame = k + 1 ∧ t.fcu.skips = 0 ∧
        closedOther y t ∧ t.out = ⟨[.capture k e], []⟩ ∧ t.trc.state = .scanning ∧ Kept lineBlocks s t) ∧
    (k < 65535 → s.fcu.nextFrame ≤ k → 30 ≤ s.fcu.queue.length + 1 → s.trc.holds.backpressure = false →
      ∀ c y, LowestFree s c → s.fcu.ctx.get c.other = some y → y.frame = k → ∃ t, exec (.frameLine p) s = .next t ∧
        closedOther y t ∧ t.fcu.ctx = ⟨none, none⟩ ∧ t.fcu.nextFrame = s.fcu.nextFrame ∧ t.trc.state = .hold ∧
        t.trc.holds = { s.trc.holds with backpressure := true } ∧ t.trc.capstan = 0 ∧ t.pru.expect = none ∧
        LatchedWhereRouted .holdEntered s t ∧ Kept lineBlocks s t) ∧
    (k = 65535 →
      ∃ t, exec (.frameLine p) s = .next t ∧ LatchedWhereRouted .frameLimit s t ∧ t.trc.state = .threaded ∧
        t.trc.spliceQueue = [] ∧ t.trc.holds.operator = false ∧ t.trc.holds.gateHot = s.trc.holds.gateHot ∧
        t.trc.capstan = 0 ∧ t.trc.holdLight = some (s.setting Setting.holdLightLimit * 1000) ∧
        t.trc.light = (if s.trc.gateHot then 0 else s.setting Setting.lightHold) ∧ t.pru.expect = none ∧
        t.pru.linesOver = true ∧ t.pru.lastLine = some ⟨65535, p.toInt, true⟩ ∧ LockStepped e s t ∧
        (65535 < s.fcu.nextFrame → t.fcu = s.fcu ∧ t.trc.holds = { s.trc.holds with operator := false }) ∧
        (s.fcu.nextFrame ≤ 65535 → (∀ c x, s.fcu.ctx.get c = some x → x.frame ≠ 65535) ∨ (∀ c, s.fcu.ctx.get c ≠ none) →
          t.fcu.nextFrame = 65536 ∧ t.trc.holds = { s.trc.holds with operator := false } ∧
          ∀ c, LowestFree s c → CapturedIn c 65535 (some e) false t) ∧
        (s.fcu.nextFrame ≤ 65535 → ∀ c y, LowestFree s c → s.fcu.ctx.get c.other = some y → y.frame = 65535 →
          closedOther y t ∧ t.fcu.ctx.get c.other = none ∧
          (s.fcu.queue.length + 1 < 30 → t.fcu.nextFrame = 65536 ∧ CapturedIn c 65535 (some e) false t ∧
            t.trc.holds = { s.trc.holds with operator := false }) ∧
          (30 ≤ s.fcu.queue.length + 1 → s.trc.holds.backpressure = false → t.fcu.ctx.get c = none ∧
            t.fcu.nextFrame = s.fcu.nextFrame ∧ LatchedWhereRouted .holdEntered s t ∧
            t.trc.holds = { s.trc.holds with backpressure := true, operator := false })) ∧
        Kept lineBlocks s t)

/-- R56, R57, R59: a position report above the window declares the line missing at its prediction; the run of missing lines
unlocks a LOCKED lock at the second and makes an UNLOCKED one SEEKING at the third, which captures nothing (R75). A missing
window frame leaves the window restart pending (R63), and re-anchor pending stays as it is (R54). R60, R75: in SEEKING the
first edge, numbered against the origin, re-anchors and is captured, and the frames between go on the rescan list. -/
def Obligations.MissingLineIsDeclared : Prop :=
  (∀ (s : State) (p : BitVec 32) (pk : Int) (k : Nat), Expected s pk k → s.pru.commitPending = false → Undisturbed s k →
    s.trc.linkSeen = true → s.trc.spliceQueue = [] → pk + s.pru.windowHalf < p.toInt →
    (∀ rise b1 b2, CarriedOn s.pru.live s.pru.a1 s.pru.a2 rise b1 b2 → p.toInt ≤ pk + rise + s.pru.windowHalf) →
    ∃ t, exec (.position p) s = .next t ∧ t.pru.lastLine = some ⟨k, pk, false⟩ ∧ t.pru.count = 0 ∧
      t.pru.reanchor = s.pru.reanchor ∧
      t.pru.window = (if s.pru.window = .frame k then .restart else s.pru.window) ∧
      (s.pru.lock = .locked → s.pru.missing = 0 → t.pru.lock = .locked ∧ t.pru.missing = 1) ∧
      (s.pru.lock = .locked → s.pru.missing = 1 →
        t.pru.lock = .unlocked ∧ t.pru.missing = 2 ∧ LatchedWhereRouted .lockLost s t) ∧
      (s.pru.lock = .unlocked → s.pru.missing ≤ 1 → t.pru.lock = .unlocked ∧ t.pru.missing = s.pru.missing + 1) ∧
      (s.pru.lock = .locked ∨ s.pru.missing ≤ 1 → SteppedOn pk k s t ∧ (k < s.fcu.nextFrame → t.fcu = s.fcu) ∧
        (s.fcu.nextFrame ≤ k → t.fcu.nextFrame = k + 1 ∧ ∀ c, LowestFree s c →
          CapturedIn c k none false t ∧ .capture k 0 ∈ t.out.head)) ∧
      (s.pru.lock = .unlocked → s.pru.missing = 2 →
        t.pru.lock = .seeking ∧ t.pru.missing = 3 ∧ t.pru.expect = none ∧ t.pru.seekFrom = some k ∧
        LatchedWhereRouted .seeking s t ∧ (k < s.fcu.nextFrame → t.fcu = s.fcu) ∧
        (s.fcu.nextFrame ≤ k → t.fcu = { s.fcu with nextFrame := k + 1 } ∧
          ∀ h r, s.trc.handle = some h → s.reel h = some r →
            t.reel h = some { r with rescan := addRange r.rescan ⟨k, k⟩ })) ∧
      Kept lineBlocks s t) ∧
  (∀ (s : State) (p : BitVec 32) (o : Int) (from_ : Nat), s.trc.state = .scanning → s.pru.lock = .seeking →
    s.pru.expect = none → s.pru.origin = some o → s.pru.seekFrom = some from_ → s.pru.commitPending = false →
    let pu := s.pru.live.pu
    let n := min 65535 (max (((p.toInt - o) * 65536 + ((pu / 2 : Nat) : Int)) / (pu : Int)) ((from_ : Int) + 1)).toNat
    let f := max s.fcu.nextFrame (from_ + 1)
    Undisturbed s n →
    ∃ t, exec (.frameLine p) s = .next t ∧ Reanchored t.pru ∧ FromAnchor s.pru.live p.toInt n t.pru ∧
      t.pru.live = s.pru.live ∧ t.pru.window = windowFrom s.pru.liveReg.adapt s.pru.liveReg.w n ∧
      t.pru.lastLine = some ⟨n, p.toInt, true⟩ ∧ t.pru.lastEdge = some p.toInt ∧ t.trc.state = .scanning ∧
      (∀ c, LowestFree s c → s.fcu.nextFrame ≤ n → t.fcu.nextFrame = n + 1 ∧ CapturedIn c n (some 0) true t ∧
        .capture n 0 ∈ t.out.head ∧
        ∀ h r, s.trc.handle = some h → s.reel h = some r → t.reel h = some
          (if f + 1 ≤ n then { r with rescan := addRange r.rescan ⟨f, n - 1⟩ } else r)) ∧
      Kept lineBlocks s t)

/-- R43: the table of splice edges. That the report leaves the current position as it is is the model's reading of R22 (log
entry 10); edge bytes above 1, which R43 does not describe, are left out (log entry 7). -/
def Obligations.SpliceEdgeActsOnTheQueue : Prop :=
  (∀ (s : State) (e : Byte) (p : BitVec 32), e.toNat ≤ 1 →
    ∃ t, exec (.spliceEdge e p) s = .next t ∧
      t.trc = { s.trc with
        spliceQueue := t.trc.spliceQueue, edgeMark := t.trc.edgeMark, reportAge := 0, silence := 0, linkSeen := true } ∧
      (s.trc.state ≠ .scanning ∨ p.toInt ≤ s.trc.edgeMark → t.trc.spliceQueue = s.trc.spliceQueue) ∧
      (s.trc.state ≠ .scanning → t.trc.edgeMark = s.trc.edgeMark) ∧
      (s.trc.state = .scanning → t.trc.edgeMark = max s.trc.edgeMark p.toInt) ∧
      (s.trc.state = .scanning → s.trc.edgeMark < p.toInt →
        (e = 1 → s.trc.spliceQueue = [] → t.trc.spliceQueue = [⟨p.toInt, none⟩]) ∧
        (e = 0 → s.trc.spliceQueue = [] → t.trc.spliceQueue = []) ∧
        ∀ older last, s.trc.spliceQueue = older ++ [last] →
          (e = 1 → last.fall = none → t.trc.spliceQueue = s.trc.spliceQueue) ∧
          (e = 1 → last.fall ≠ none → older.length ≤ 2 → t.trc.spliceQueue = s.trc.spliceQueue ++ [⟨p.toInt, none⟩]) ∧
          (e = 1 → last.fall ≠ none → older.length = 3 → t.trc.spliceQueue = older ++ [⟨last.rise, none⟩]) ∧
          (e = 0 → last.fall = none → t.trc.spliceQueue = older ++ [⟨last.rise, some p.toInt⟩]) ∧
          (e = 0 → last.fall ≠ none → t.trc.spliceQueue = s.trc.spliceQueue)) ∧
      Kept [.trc, .out] s t)

/-- R37: a tension reading beyond a limit starts an idle timer, one within it returns the timer to idle, only in the
states that watch it; with TENSION_DELAY at 0 the reading fires at once when its timer is idle. That a timer which already
runs when TENSION_DELAY is 0 runs on is the model's reading (log entry 18). -/
def Obligations.TensionReadingDrivesTheTimers : Prop :=
  ∀ (s : State) (gf : BitVec 16),
    let high := s.trc.state.watchesHigh = true ∧ s.trc.profile.tensionHigh < gf.toNat
    let low := s.trc.state.watchesLow = true ∧ gf.toNat < 20
    let delay := s.setting Setting.tensionDelay
    (delay ≠ 0 ∨ ((high → s.trc.tensionHigh ≠ none) ∧ (low → s.trc.tensionLow ≠ none)) →
      ∃ t, exec (.tension gf) s = .next t ∧
      (¬high → t.trc.tensionHigh = none) ∧ (high → t.trc.tensionHigh = some (s.trc.tensionHigh.getD delay)) ∧
      (¬low → t.trc.tensionLow = none) ∧ (low → t.trc.tensionLow = some (s.trc.tensionLow.getD delay)) ∧
      t.trc = { s.trc with
        tensionHigh := t.trc.tensionHigh, tensionLow := t.trc.tensionLow, reportAge := 0, silence := 0, linkSeen := true } ∧
      Kept [.trc, .out] s t) ∧
    (delay = 0 → high → s.trc.tensionHigh = none →
      ∃ t, exec (.tension gf) s = .next t ∧ t.trc.state = .fault ∧ t.trc.fault = some .tensionHigh ∧ Kept faultBlocks s t) ∧
    (delay = 0 → low → ¬high → s.trc.tensionLow = none →
      ∃ t, exec (.tension gf) s = .next t ∧ t.trc.state = .fault ∧ t.trc.fault = some .tensionLow ∧ Kept faultBlocks s t)

/-- R41, R34, R24: the gate heat watch. At the end of the delay (or at once when it is 0) the condition becomes active: GATE_HOT
raised, the cause added, the light 0; a reading at or below the recovery level clears it, and the light goes to the level of
the state. A tick that brings a timer to 0 leaves its effect to the expiry command (the model's choice, log entry 4): until
then a cool reading idles a gate delay timer at 0, and a hold-light timer at 0 still gives LIGHT_HOLD. -/
def Obligations.GateHeatHoldsTheLight : Prop :=
  ∀ s : State,
    (∀ temp : BitVec 16, s.trc.gateHot = false →
      (temp.toNat < s.setting Setting.gateTempLimit → ∃ t, exec (.gateTemp temp) s = .next t ∧
        t.trc = { s.trc with gateDelay := none, reportAge := 0, silence := 0, linkSeen := true } ∧ Kept [.trc, .out] s t) ∧
      (s.setting Setting.gateTempLimit ≤ temp.toNat → s.setting Setting.gateTempDelay ≠ 0 →
        ∃ t, exec (.gateTemp temp) s = .next t ∧
          t.trc = { s.trc with
            gateDelay := some (s.trc.gateDelay.getD (s.setting Setting.gateTempDelay * 1000)), reportAge := 0
            silence := 0, linkSeen := true } ∧ Kept [.trc, .out] s t)) ∧
    (∀ c : Instr,
      (c = .gateDelayExpiry ∧ s.trc.gateDelay = some 0) ∨
        (∃ temp : BitVec 16, c = .gateTemp temp ∧ s.trc.gateHot = false ∧ s.setting Setting.gateTempLimit ≤ temp.toNat ∧
          s.setting Setting.gateTempDelay = 0 ∧ s.trc.gateDelay = none) →
      ∃ t, exec c s = .next t ∧ t.trc.gateHot = true ∧ t.trc.gateDelay = none ∧ t.trc.light = 0 ∧
        t.trc.holds = { s.trc.holds with gateHot := true } ∧ LatchedWhereRouted .gateHot s t ∧
        t.trc.state = (if s.trc.holds.gateHot = false ∧ (s.trc.state = .scanning ∨ s.trc.state = .backup) then .hold
          else s.trc.state) ∧
        Kept [.trc, .pru, .alt, .out] s t) ∧
    (∀ temp : BitVec 16, s.trc.gateHot = true →
      (min (s.setting Setting.gateTempRecover) (s.setting Setting.gateTempLimit - 10) < temp.toNat →
        ∃ t, exec (.gateTemp temp) s = .next t ∧
          t.trc = { s.trc with reportAge := 0, silence := 0, linkSeen := true } ∧ Kept [.trc, .out] s t) ∧
      (temp.toNat ≤ min (s.setting Setting.gateTempRecover) (s.setting Setting.gateTempLimit - 10) →
        ∃ t, exec (.gateTemp temp) s = .next t ∧ t.trc.gateHot = false ∧
          t.trc.holds = { s.trc.holds with gateHot := false } ∧
          (s.trc.state = .hold → s.trc.holds = ⟨false, true, false⟩ → t.trc.state = .backup ∧ t.trc.light = 0 ∧
            t.trc.backupTarget = some (s.trc.position - 3 * (s.pru.live.pInt : Int))) ∧
          (s.trc.state ≠ .hold ∨ s.trc.holds ≠ ⟨false, true, false⟩ → t.trc.state = s.trc.state ∧
            (s.trc.state = .scanning → t.trc.light = s.setting Setting.lightFull) ∧
            (s.trc.state ∈ [.threaded, .inching, .hold] →
              t.trc.light = if s.trc.holdLight.isSome then s.setting Setting.lightHold else 0) ∧
            (s.trc.state ∈ [.unthreaded, .shuttle, .backup, .fault] → t.trc.light = 0)) ∧
          Kept [.trc, .pru, .out] s t))

/-- R77, R87, R125: a row in order before the last raises next row, gives its defective columns to the survey and adds its
clean cells to the density accumulator. R88 to R95: the runs of the row are taken left to right, each extending, merging
or starting a region or being lost, and the row ends. A row for the newer context first closes the older INCOMPLETE
(R77, R80); a row no context matches counts as a stray. -/
def Obligations.RowInOrderIsTaken : Prop :=
  (∀ (s : State) (frame : BitVec 16) (row : Byte) (ir visible : List (BitVec 16)) (c : CtxId) (x : Ctx),
    ir.length = 32 → visible.length = 32 → s.fcu.ctx.get c = some x → x.frame = frame.toNat → row.toNat = x.nextRow →
    x.nextRow < 23 → (s.dsu.get c).regions.wf = true →
    let clean := (List.range 32).filter (fun j => (s.dsu.get c).threshold ≤ cellAt ir j)
    let taken := fun t : State => RowSurveyed row.toNat ir (s.dsu.get c) (t.dsu.get c) ∧
      (t.dsu.get c).mask = (List.range 32).filter (fun j => cellAt ir j < (s.dsu.get c).threshold) ∧
      (t.dsu.get c).threshold = (s.dsu.get c).threshold ∧ t.dsu.get c.other = s.dsu.get c.other ∧
      t.sht.acc = s.sht.acc.set c ⟨(s.sht.acc.get c).sum + (clean.map (cellAt visible)).sum,
        (s.sht.acc.get c).count + clean.length⟩
    (TakenAlone s c x → ∃ t, exec (.row frame row ir visible) s = .next t ∧ taken t ∧
      t.fcu = { s.fcu with ctx := s.fcu.ctx.set c (some { x with nextRow := x.nextRow + 1 }) } ∧
      t.sht = { s.sht with acc := t.sht.acc } ∧
      t.trc = { s.trc with reportAge := 0, silence := 0, linkSeen := true } ∧ Kept [.trc, .fcu, .dsu, .sht, .out] s t) ∧
    (∀ y, c = s.fcu.newest → s.fcu.ctx.get c.other = some y → y.frame ≠ x.frame →
      ∃ t, exec (.row frame row ir visible) s = .next t ∧ taken t ∧
        t.fcu.ctx = (s.fcu.ctx.set c.other none).set c (some { x with nextRow := x.nextRow + 1 }) ∧
        t.fcu.nextFrame = s.fcu.nextFrame ∧
        (∃ r : FrameRecord, t.fcu.queue = s.fcu.queue ++ [r] ∧ IncompleteRecord s y r ∧ RecordGraded s t r) ∧ ListedIncomplete s y t ∧
        t.rpq = { s.rpq with prev := [], prevFrom := none } ∧
        (s.fcu.queue = [] → LatchedWhereRouted .framesWaiting s t) ∧ Kept lineBlocks s t)) ∧
  (∀ (s : State) (frame : BitVec 16) (row : Byte) (ir visible : List (BitVec 16)),
    ir.length = 32 → visible.length = 32 → (∀ c x, s.fcu.ctx.get c = some x → x.frame ≠ frame.toNat) →
    ∃ t, exec (.row frame row ir visible) s = .next t ∧
      t.fcu = { s.fcu with strayRows := min 65535 (s.fcu.strayRows + 1) } ∧
      t.trc = { s.trc with reportAge := 0, silence := 0, linkSeen := true } ∧ Kept [.trc, .fcu, .out] s t)

/-- R77, R78, R80, R81, R126, R134, R110: a row out of order, and an age of 100 ms, close a context INCOMPLETE: its record joins
the tail of the queue without damage, with the density held and the gain before it, the frame goes on the rescan list,
the frontier rises, the chains break. R138, R139: its grade is composed from that gain under the base layer and the stack
of the shot the frame is assigned to. Of two OPEN contexts this is about the older; that one expiry closes the older alone
when both are due is the model's choice (log entry 30). -/
def Obligations.ContextClosesIncomplete : Prop :=
  ∀ (s : State) (cmd : Instr) (c : CtxId) (x : Ctx), TakenAlone s c x →
    (cmd = .contextAgeExpiry ∧ 100 ≤ x.age) ∨
      (∃ (frame : BitVec 16) (row : Byte) (ir visible : List (BitVec 16)), cmd = .row frame row ir visible ∧
        ir.length = 32 ∧ visible.length = 32 ∧ x.frame = frame.toNat ∧ (row.toNat ≠ x.nextRow ∨ 24 ≤ row.toNat)) →
    ∃ t, exec cmd s = .next t ∧ t.fcu.ctx = s.fcu.ctx.set c none ∧ t.fcu.nextFrame = s.fcu.nextFrame ∧
      (∃ r : FrameRecord, t.fcu.queue = s.fcu.queue ++ [r] ∧ IncompleteRecord s x r ∧ RecordGraded s t r) ∧
      (s.fcu.queue = [] → LatchedWhereRouted .framesWaiting s t) ∧ t.rpq = { s.rpq with prev := [], prevFrom := none } ∧
      ListedIncomplete s x t ∧ Kept lineBlocks s t

/-- R77, R80, R81, R126, R20, R82: row 23 in order closes the context complete: its record joins the tail of the queue with the
frame's own density when 384 cells were clean, the frontier rises and the frame leaves the rescan list, unless it lies strictly
inside a range of eight. R138, R139: the grade is composed from the frame's gain, its reel's base layer and its shot's
stack. R96: the regions
still OPEN close. R128 to R134: the frame's shot, a cut or a lost cut (R131, R132), the flicker reference and the gain.
R97 to R100, R105 to R116, for a new frame whose survey found one region and lost no cells: the region's class, severity and
film box; it is suppressed by the gate-dirt entry it matches (R112), or its chain is promoted (R114), or it becomes a damage
record in the lowest free entry or the oldest closed one, or is lost (R105). For a frame whose survey found no region: lost
cells count for the reel, and a rescan supersedes the frame's records (R109). -/
def Obligations.CompleteFrameIsRecorded : Prop :=
  ∀ (s : State) (frame : BitVec 16) (ir visible : List (BitVec 16)) (c : CtxId) (x : Ctx),
    LastRow s frame ir visible c x →
    let h := x.handle
    let k := x.frame
    let clean := (List.range 32).filter (fun j => (s.dsu.get c).threshold ≤ cellAt ir j)
    let sum := (s.sht.acc.get c).sum + (clean.map (cellAt visible)).sum
    let count := (s.sht.acc.get c).count + clean.length
    let closes := fun (t : State) (r : FrameRecord) =>
      exec (.row frame 23 ir visible) s = .next t ∧ t.fcu.queue = s.fcu.queue ++ [r]
    (∃ t r, closes t r ∧ t.fcu.ctx = s.fcu.ctx.set c none ∧ r.handle = h ∧ r.frame = k ∧
      r.incomplete = false ∧ r.locked = x.locked ∧ r.lineMissing = x.error.isNone ∧ r.splice = x.splice ∧
      r.skipped = x.skipped ∧ r.error = clampInt (-32767) 32767 (x.error.getD 0) ∧
      r.rescan = decide (k < s.frontier h) ∧
      (384 ≤ count → r.density = sum / count ∧ r.densityHeld = false) ∧
      (count < 384 → r.density = s.sht.previousM.getD 512 ∧ r.densityHeld = true ∧ r.flicker = s.sht.previousF ∧
        r.cut = false ∧ r.cutLost = false ∧ t.sht.ref16 = s.sht.ref16 ∧ t.sht.firstPending = s.sht.firstPending ∧
        ∀ n y, s.shotAt h k = some (n, y) → r.shot = n) ∧
      RecordGraded s t r ∧
      t.sht.previousM = some r.density ∧ t.sht.lastFrame = some k ∧ t.sht.previousF = r.flicker ∧
      (s.fcu.queue = [] → LatchedWhereRouted .framesWaiting s t) ∧ t.rpq.prevFrom = some ⟨h, k⟩ ∧
      (∀ r0, s.reel h = some r0 → ∃ r', t.reel h = some r' ∧ r'.frontier = max r0.frontier (k + 1) ∧
        r'.rescan = trimFrame r0.rescan k ∧ FrameTrimmed r0.rescan k r'.rescan) ∧
      ((s.dsu.get c).regions.wf = true → ∃ v, RowSurveyed 23 ir (s.dsu.get c) v ∧ r.regionsFull = v.full ∧
        t.dsu.get c = { v with regions := v.regions.map (fun e => (e.1, { e.2 with isOpen := false })) }) ∧
      Kept lineBlocks s t) ∧
    (∀ n y, TablesCanonical s → 384 ≤ count → s.shotAt h k = some (n, y) →
      let m := sum / count
      let threshold := if x.splice then s.setting Setting.cutThreshold / 2 else s.setting Setting.cutThreshold
      let jump := s.frontier h ≤ k ∧ 0 < k ∧ s.sht.lastFrame = some (k - 1) ∧
        ∃ m', s.sht.previousM = some m' ∧ threshold ≤ ((m : Int) - m').natAbs
      let isCut := jump ∧ s.setting Setting.minShot ≤ k - y.first
      let gain := fun (ref : Nat) (on : Bool) => if on = false ∨ m < 16 then 4096
        else clampNat (s.setting Setting.flickerMin) (s.setting Setting.flickerMax) ((ref * 32 + m) / (2 * m))
      ∃ t r, closes t r ∧ t.sht.firstPending = false ∧
        (¬isCut → r.cut = false ∧ r.cutLost = false ∧ r.shot = n ∧ r.flicker = gain t.sht.ref16 y.flicker ∧
          t.sht.ref16 = (if s.sht.firstPending then m * 256
            else ((s.sht.ref16 : Int) + (((m * 256 : Nat) : Int) - s.sht.ref16) / 2 ^ s.setting Setting.flickerShift).toNat) ∧
          ∀ j, t.sht.pool.read j = none ↔ s.sht.pool.read j = none) ∧
        (isCut → t.sht.ref16 = m * 256) ∧
        (isCut → y.first < k → ∀ f, f < 512 → s.sht.pool.read f = none → (∀ j, j < f → s.sht.pool.read j ≠ none) →
          r.cut = true ∧ r.cutLost = false ∧ r.shot = f ∧ r.flicker = gain (m * 256) true ∧
          t.sht.pool.read f = some ⟨h, k, .editable, true, .detected, []⟩) ∧
        (isCut → (∀ f, f < 512 → s.sht.pool.read f ≠ none) → r.cut = false ∧ r.cutLost = true ∧ r.shot = n ∧
          r.flicker = gain (m * 256) y.flicker ∧ LatchedWhereRouted .shotsFull s t)) ∧
    (TablesCanonical s → ∀ r0, s.reel h = some r0 →
      let v := takeRow 23 ir (s.dsu.get c)
      let aged := agedGate (s.setting Setting.gateAbsent)
      let persist := s.setting Setting.gatePersist
      let counted := fun (t : State) (r : FrameRecord) (recorded suppressed : Nat) =>
        closes t r ∧ r.recorded = recorded ∧ r.suppressed = suppressed
      (v.regions = [] → ∃ t r, counted t r 0 0 ∧ r.damageLost = false ∧ t.rpq.gate = aged s.rpq.gate ∧
        t.rpq.prev = [] ∧ t.rpq.counter = s.rpq.counter ∧ t.rpq.claims = s.rpq.claims ∧
        (∃ r', t.reel h = some r' ∧
          r'.lostArea = if v.lostArea = 0 then r0.lostArea else min 65535 (r0.lostArea + v.lostArea)) ∧
        (s.frontier h ≤ k → t.rpq.damage = s.rpq.damage ∧ t.rpq.closedList = s.rpq.closedList) ∧
        (k < s.frontier h → (∀ i, t.rpq.damage.read i = (s.rpq.damage.read i).map (fun d =>
            if d.handle = h ∧ d.frame = k then d.rescanned else d)) ∧
          ∃ q, t.rpq.closedList = s.rpq.closedList ++ q ∧ q.Nodup ∧ ∀ i, i ∈ q ↔
            ∃ d, s.rpq.damage.read i = some d ∧ d.isQueued = true ∧ d.handle = h ∧ d.frame = k)) ∧
      (∀ i g cls severity film, v.regions = [(i, g)] → v.lostArea = 0 → s.frontier h ≤ k →
        MarkOf g (s.dsu.get c).offset cls severity film →
        (∀ older e rest, s.rpq.gate = older ++ e :: rest → (∀ a ∈ older, ¬SamePlace cls g.box a.cls a.box) →
          SamePlace cls g.box e.cls e.box → ∃ t r, counted t r 0 1 ∧ r.damageLost = false ∧
            t.rpq = { s.rpq with
              gate := aged (older ++ { e with hit := true } :: rest), prev := [], prevFrom := some ⟨h, k⟩ }) ∧
        (∀ len refs, (∀ a ∈ s.rpq.gate, ¬SamePlace cls g.box a.cls a.box) → TakesChain s x cls g.box len refs →
          let kept := fun l : List DamageRef =>
            if cls = .scratch then [] else [PrevRegion.mk g.box cls len (l.drop (l.length - 15))]
          let full := ∀ j, j < 1024 → s.rpq.damage.read j ≠ none
          let made := fun (j : Nat) (closed : List Nat) => ∃ t r, counted t r 1 0 ∧ r.damageLost = false ∧
            t.rpq.damage.read j = some (newDamage s x g cls severity film) ∧
            (∀ j', j' ≠ j → t.rpq.damage.read j' = s.rpq.damage.read j') ∧ t.rpq.counter = s.rpq.counter + 1 ∧
            t.rpq.closedList = closed ∧ t.rpq.claims = s.rpq.claims ∧ t.rpq.gate = aged s.rpq.gate ∧
            t.rpq.prev = kept (refs ++ [⟨j, s.rpq.counter⟩]) ∧
            (∃ r', t.reel h = some r' ∧ r'.queued = r0.queued + 1) ∧
            (∀ d o r1, s.rpq.damage.read j = some d → d.state = .closed o → s.reel d.handle = some r1 →
              ∃ r', t.reel d.handle = some r' ∧ r'.closed = r1.closed - 1) ∧
            (s.repairWaiting = false → LatchedWhereRouted .repairWaiting s t) ∧
            (cls ≠ .scratch → persist ≤ len → LatchedWhereRouted .gateListFull s t) ∧
            (severity = .major → r.cut = false → ∀ n y, s.lastShot h = some (n, y) → y.state = .approved → y.first ≤ k →
              t.sht.pool.read n = some { y with state := .editable } ∧ LatchedWhereRouted .shotReopened s t)
          (cls ≠ .scratch → persist ≤ len → s.rpq.gate.length < 8 → ∃ t r, counted t r 0 1 ∧ r.damageLost = false ∧
            LatchedWhereRouted .gateDirt s t ∧ t.rpq.gate = aged (s.rpq.gate ++ [⟨g.box, cls, 0, true⟩]) ∧
            t.rpq.prev = [] ∧ t.rpq.counter = s.rpq.counter ∧
            (∀ j, t.rpq.damage.read j = (s.rpq.damage.read j).map (fun d =>
              if (⟨j, d.seq⟩ : DamageRef) ∈ refs then d.withdrawn else d)) ∧
            ((refs.map (·.index)).Nodup → t.rpq.closedList = s.rpq.closedList ++ (refs.filter (fun a =>
              (s.rpq.damage.read a.index).any (fun d => d.seq == a.seq && d.isQueued))).map (·.index))) ∧
          (cls = .scratch ∨ len < persist ∨ 8 ≤ s.rpq.gate.length →
            (∀ j, j < 1024 → s.rpq.damage.read j = none → (∀ j', j' < j → s.rpq.damage.read j' ≠ none) →
              made j s.rpq.closedList) ∧
            (∀ j rest d o, full → s.rpq.closedList = j :: rest → s.rpq.damage.read j = some d → d.state = .closed o →
              made j rest) ∧
            (full → s.rpq.closedList = [] → ∃ t r, counted t r 0 0 ∧ r.damageLost = true ∧
              LatchedWhereRouted .damageLost s t ∧ t.rpq.damage = s.rpq.damage ∧ t.rpq.closedList = [] ∧
              t.rpq.counter = s.rpq.counter ∧ t.rpq.gate = aged s.rpq.gate ∧
              t.rpq.prev = (if cls = .scratch then [] else [⟨g.box, cls, len, refs⟩]) ∧
              (∃ r', t.reel h = some r' ∧ r'.lostArea = min 65535 (r0.lostArea + g.area)) ∧
              (cls ≠ .scratch → persist ≤ len → LatchedWhereRouted .gateListFull s t))))))

/-! ### Expiries -/

/-- R24, R15, R170, R158: what the hold-light timer, a force confirmation and a bay timer do at their end. That one bay
timer expiry serves the lowest due position alone and leaves every other due timer RUNNING for an expiry of its own is the
model's choice (log entry 30). A run reaches no confirmation with 0 left, since the tick has ended it (log entry 4). -/
def Obligations.TimersRunOut : Prop :=
  (∀ s : State, s.trc.holdLight = some 0 → ∃ t, exec .holdLightExpiry s = .next t ∧
    t.trc = { s.trc with holdLight := none, light := t.trc.light } ∧
    (s.trc.state = .threaded ∨ s.trc.state = .inching ∨ s.trc.state = .hold → t.trc.light = 0) ∧ Kept [.trc, .out] s t) ∧
  (∀ (s : State) (p : Port) (c : Confirmation), s.reg.confirm.get p = some c → c.remaining = 0 →
    ∃ t, exec (.confirmationExpiry p) s = .next t ∧ t.reg = { s.reg with confirm := s.reg.confirm.set p none } ∧
      Kept [.reg, .out] s t) ∧
  (∀ (s : State) (n : Nat), n < 8 → (s.cab.bayTimer n).due = true → (∀ m, m < n → (s.cab.bayTimer m).due = false) →
    ∃ t, exec .bayTimerExpiry s = .next t ∧ t.cab.bayTimer n = { s.cab.bayTimer n with state := .done } ∧
      (∀ m, m ≠ n → t.cab.bayTimer m = s.cab.bayTimer m) ∧ LatchedWhereRouted .acclimDone s t ∧
      t.cab.slots = s.cab.slots ∧ t.cab.bays = s.cab.bays ∧ t.cab.stagings = s.cab.stagings ∧
      (∀ h r, s.cab.bays.read n = some (.holding h) → s.reel h = some r →
        let kind : MoveKind := if (s.cab.bayTimer n).direction = .outward then .toStaging else .shelve
        (∀ e, s.cab.freeEntry = some e →
          t.cab.moves = s.cab.moves ++ [⟨e, kind, h, r.location, none, .queued⟩] ∧ t.cab.legDue = s.cab.legDue) ∧
        (s.cab.freeEntry = none → t.cab.moves = s.cab.moves ∧ t.cab.legDue = s.cab.legDue ++ [⟨h, kind⟩])) ∧
      Kept [.cab, .alt, .out] s t)

/-- Commands that change no state: a discarded head message (R47), an ignored frame (R175), the expiry of the report age,
from which the link is no longer alive (R38); and, the model's choice (log entry 4), an expiry whose timer is not at its
end. -/
def Obligations.SomeCommandsChangeNoState : Prop :=
  ∀ (s : State) (c : Instr),
    c = .headMessageDiscarded ∨ (∃ p, c = .frameIgnored p) ∨ (c = .reportAgeExpiry ∧ 50 ≤ s.trc.reportAge) ∨
      (c = .tensionHighExpiry ∧ s.trc.tensionHigh ≠ some 0) ∨ (c = .tensionLowExpiry ∧ s.trc.tensionLow ≠ some 0) ∨
      (c = .headSilenceExpiry ∧ s.trc.silence < 50) ∨ (c = .gateDelayExpiry ∧ s.trc.gateDelay ≠ some 0) ∨
      (c = .holdLightExpiry ∧ s.trc.holdLight ≠ some 0) ∨
      (c = .contextAgeExpiry ∧ ∀ i x, s.fcu.ctx.get i = some x → x.age < 100) ∨
      (∃ p, c = .confirmationExpiry p ∧ ∀ x, s.reg.confirm.get p = some x → x.remaining ≠ 0) ∨
      (c = .bayTimerExpiry ∧ ∀ n, n < 8 → (s.cab.bayTimer n).due = false) →
    ∃ t, exec c s = .next t ∧ t.out = ⟨[], []⟩ ∧ (c = .reportAgeExpiry → t.linkAlive = false) ∧ Kept [.out] s t

/-! ### Station ports -/

/-- R175, R179, R182, R15: every request is answered on its own port with its own tag, displaces an unread response (overrun
flag, PORT_OVERRUN for that port), leaves the other ports alone, and cancels the port's force confirmation, but for a
RELEASE FORCE, which may open one. That a request frame which ended before its tag byte is answered NOT_READY with tag 0
while the preload runs is the model's reading of R182 (log entry 42). -/
def Obligations.EveryRequestIsAnswered : Prop :=
  ∀ (c : Instr) (s : State) (rq : Rq) (need : Need), requestOf c = some (rq, need) →
    ∃ t st results, exec c s = .next t ∧ Responds rq st results t ∧
      (∀ p, p ≠ rq.port → t.spt.get p = s.spt.get p) ∧
      ((∀ q, c ≠ .portReset q) → (t.spt.get rq.port).overrun =
        ((s.spt.get rq.port).overrun || (s.spt.get rq.port).response.isSome)) ∧
      ((∀ q, c ≠ .portReset q) → (∀ q k, c ≠ .ackAlerts q k) → (s.spt.get rq.port).response ≠ none →
        AlertSet.has (t.alt.get rq.port).latched .portOverrun = true) ∧
      ((∀ q h, c ≠ .releaseForce q h) → (∀ q h, c ≠ .release q (some ⟨h, 1⟩)) → t.reg.confirm.get rq.port = none)

/-- R175, R178, R181, R184: the checks of a request in order: NOT_READY while the preload runs, then UNKNOWN or BAD_ARG for
a malformed request, then DENIED (with ACCESS_DENIED for the port), then BAD_ARG for short operands. R7, R18, R26, R29, R30,
R83, R120, R121, R122, R140, R141, R165 to R167, R171, R189: then BAD_ARG for an operand out of its range or one that names
a free entry. A request refused by them changes nothing but what every request changes. The tag 0 of a NOT_READY answer
to a request frame that ended before its tag byte is the model's reading of R182 (log entry 42). -/
def Obligations.RequestsAreCheckedInOrder : Prop :=
  ∀ (c : Instr) (s : State) (rq : Rq) (need : Need), requestOf c = some (rq, need) →
    (s.cfg.running = true → ∃ t, exec c s = .next t ∧ Answered rq .notReady [] [] (arrive rq.port s) t) ∧
    (s.cfg.running = false →
      ((∃ q code, c = .unknownCommand q code) →
        ∃ t, exec c s = .next t ∧ Answered rq .unknown [] [] (arrive rq.port s) t) ∧
      ((∃ p tag, c = .requestMalformed p tag) →
        ∃ t, exec c s = .next t ∧ Answered rq .badArg [] [] (arrive rq.port s) t) ∧
      (∀ r, need = .role r → s.setting Setting.accessCheck ≠ 0 → s.role rq.port ≠ r →
        ∃ t, exec c s = .next t ∧ Answered rq .denied [] [.alt] (arrive rq.port s) t ∧
          t.alt = (arrive rq.port s).alt.set rq.port (((arrive rq.port s).alt.get rq.port).latch .accessDenied)) ∧
      (Served rq need s → ShortOperands c = true ∨ BadOperands s c →
        ∃ t, exec c s = .next t ∧ Answered rq .badArg [] [] (arrive rq.port s) t))

/-- R176: a response read frame shifts out the header and the results of the pending response, zeros beyond its end; when it
took them all the response is read, else it stays; with no response pending the header says NONE and nothing changes. -/
def Obligations.ResponseReadDelivers : Prop :=
  ∀ (s : State) (p : Port) (n : Nat),
    (∀ r, (s.spt.get p).response = some r →
      let header : List Byte := [r.tag, r.status, (if (s.spt.get p).overrun then 1 else 0),
        BitVec.ofNat 8 (r.results.length % 256), BitVec.ofNat 8 (r.results.length / 256 % 256)]
      ∃ t, exec (.responseRead p n) s = .next t ∧
        t.out = ⟨[], ((header ++ r.results) ++ List.replicate n 0).take n⟩ ∧
        (5 + r.results.length ≤ n → t.spt = s.spt.set p ⟨none, false⟩) ∧
        (n < 5 + r.results.length → t.spt = s.spt) ∧ Kept [.spt, .out] s t) ∧
    ((s.spt.get p).response = none → ∃ t, exec (.responseRead p n) s = .next t ∧
      t.out = ⟨[], (([0, 3, 0, 0, 0] : List Byte) ++ List.replicate n 0).take n⟩ ∧ Kept [.out] s t)

/-- R8, R33, R68, R122, R141, R148, R167, R168, R187, R189: the commands that only read answer with what the state holds, laid
out as their rules list it, and change nothing beside the answer. REEL_QUERY of a free entry and REEL_FIND of a number no
reel has answer NONE (R7, R8). GRADE_QUERY composes from 4096 under the base layer and the shot's stack (R138). Where the rule gives a field no width or no code, the
layout is the model's (log entry 23). -/
def Obligations.QueriesAnswerAndChangeNothing : Prop :=
  ∀ (rq : Rq) (s : State), Served rq .any s →
    (∃ t, exec (.readAlerts rq) s = .next t ∧ Answered rq .ok (u32 ((arrive rq.port s).alt.get rq.port).latched.toNat ++
      u32 (s.alt.get rq.port).mask.toNat ++ [s.rawConditions]) [] (arrive rq.port s) t) ∧
    (∀ (i : Byte) (row : SettingRow), settingRow i.toNat = some row →
      ∃ t, exec (.getSetting rq (some i)) s = .next t ∧ Answered rq .ok (u16 (s.setting i.toNat)) [] (arrive rq.port s) t) ∧
    (∀ (h : Byte) (r : Reel), h.toNat < 96 → s.reel h.toNat = some r →
      ∃ t, exec (.reelQuery rq (some h)) s = .next t ∧
        Answered rq .ok (reelBytes h.toNat r s) [] (arrive rq.port s) t) ∧
    (∀ h : Byte, h.toNat < 96 → s.reel h.toNat = none →
      ∃ t, exec (.reelQuery rq (some h)) s = .next t ∧ Answered rq .none [] [] (arrive rq.port s) t) ∧
    (∀ (cat : BitVec 24) (h : Nat), cat.toNat ≠ 0 → s.findReel cat.toNat = some h →
      ∃ t, exec (.reelFind rq (some cat)) s = .next t ∧ Answered rq .ok (u8 h) [] (arrive rq.port s) t) ∧
    (∀ cat : BitVec 24, cat.toNat ≠ 0 → (∀ h r, (h, r) ∈ s.reg.reels → r.catalogue ≠ cat.toNat) →
      ∃ t, exec (.reelFind rq (some cat)) s = .next t ∧ Answered rq .none [] [] (arrive rq.port s) t) ∧
    (∃ t, exec (.transportStatus rq) s = .next t ∧ Answered rq .ok (statusBytes s) [] (arrive rq.port s) t) ∧
    (Served rq (.role .scan) s →
      ∃ t, exec (.readPitch rq) s = .next t ∧ Answered rq .ok s.pru.bytes [] (arrive rq.port s) t) ∧
    (∀ (a : DamageListArgs) (r : Reel), a.handle.toNat < 96 → s.reel a.handle.toNat = some r → a.pass.toNat ≤ 1023 →
      a.count ≠ 0 → a.count.toNat ≤ 4 →
      let all := s.damageOf a.handle.toNat a.first.toNat
      let out := (all.drop a.pass.toNat).take a.count.toNat
      (a.pass.toNat < all.length → ∃ t, exec (.damageList rq (some a)) s = .next t ∧
        Answered rq .ok (listOf (fun e => Damage.bytes e.1 e.2) out ++ u16 (all.length - a.pass.toNat - out.length)) []
          (arrive rq.port s) t) ∧
      (all.length ≤ a.pass.toNat → ∃ t, exec (.damageList rq (some a)) s = .next t ∧
        Answered rq .none [] [] (arrive rq.port s) t)) ∧
    (∀ (a : ShotListArgs) (r : Reel), a.handle.toNat < 96 → s.reel a.handle.toNat = some r → a.count ≠ 0 →
      a.count.toNat ≤ 8 →
      let all := s.shotsFrom a.handle.toNat a.first.toNat
      let out := all.take a.count.toNat
      ∃ t, exec (.shotList rq (some a)) s = .next t ∧
        Answered rq .ok (listOf (shotBytes s) out ++ u16 (all.length - out.length)) [] (arrive rq.port s) t) ∧
    (∀ (a : GradeQueryArgs) (r : Reel) (n : Nat) (x : Shot), a.handle.toNat < 96 → s.reel a.handle.toNat = some r →
      s.shotAt a.handle.toNat a.frame.toNat = some (n, x) →
      ∃ t, exec (.gradeQuery rq (some a)) s = .next t ∧
        Answered rq .ok (u16 n ++ u8 x.state.code ++ (s.gradeFrom 4096 a.handle.toNat n).bytes) [] (arrive rq.port s) t ∧
        ∀ z, s.sht.pool.read n = some z → Graded 4096 r.base z.stack (s.gradeFrom 4096 a.handle.toNat n)) ∧
    (∀ a : PositionsArgs, a.kind.toNat ≤ 2 → a.first.toNat ≤ lastPosition a.kind.toNat → a.count ≠ 0 → a.count.toNat ≤ 16 →
      let n := min a.count.toNat (lastPosition a.kind.toNat + 1 - a.first.toNat)
      ∃ t, exec (.positions rq (some a)) s = .next t ∧
        Answered rq .ok (listOf (positionBytes s) ((List.range n).map (fun i => positionOf a.kind.toNat (a.first.toNat + i)))
          ++ flag s.cab.climateOut ++ gripBytes s.cab.gripper) [] (arrive rq.port s) t) ∧
    (∃ t, exec (.moveList rq) s = .next t ∧
      Answered rq .ok (listOf (moveBytes s) s.cab.moves ++ legDueBytes s.cab.legDue) [] (arrive rq.port s) t)

/-- R187: ACK_ALERTS takes the kinds it names out of the port's latched set, SET_ALERT_MASK replaces its mask; neither
touches another port, and bits 27 to 31 are ignored. -/
def Obligations.AlertCommandsActOnTheirPort : Prop :=
  ∀ (rq : Rq) (s : State) (kinds : BitVec 32), Served rq .any s →
    (∃ t, exec (.ackAlerts rq (some kinds)) s = .next t ∧ Answered rq .ok [] [.alt] (arrive rq.port s) t ∧
      (∀ p, p ≠ rq.port → t.alt.get p = s.alt.get p) ∧ (t.alt.get rq.port).mask = (s.alt.get rq.port).mask ∧
      ∀ e : Event, AlertSet.has (t.alt.get rq.port).latched e =
        (AlertSet.has ((arrive rq.port s).alt.get rq.port).latched e && !kinds.getLsbD e.bit)) ∧
    (∃ t, exec (.setAlertMask rq (some kinds)) s = .next t ∧ Answered rq .ok [] [.alt] (arrive rq.port s) t ∧
      (∀ p, p ≠ rq.port → t.alt.get p = s.alt.get p) ∧
      (t.alt.get rq.port).latched = ((arrive rq.port s).alt.get rq.port).latched ∧
      ∀ e : Event, AlertSet.has (t.alt.get rq.port).mask e = kinds.getLsbD e.bit)

/-- R189, R186, R180, R23: SET_SETTING stores a value clamped to the setting's range, or the route bits of a route, answers
OK_CLAMPED when that changed it, changes no other setting, and refuses a second SCAN or VAULT with STATE; INCH_SPEED and
SPLICE_SPEED have the capstan target recomputed. That a write of any other setting from index 5 on changes CFG alone, so
that one of LIGHT_FULL or LIGHT_HOLD sends no light level, is the model's choice (log entry 21). -/
def Obligations.SettingWriteIsClamped : Prop :=
  ∀ (rq : Rq) (s : State) (a : SettingArgs) (row : SettingRow), Served rq .any s →
    settingRow a.index.toNat = some row →
    let v := row.range.store a.value.toNat
    (duplicateWrite a.index.toNat v s = true → ∃ t, exec (.setSetting rq (some a)) s = .next t ∧
      Answered rq .state [] [] (arrive rq.port s) t) ∧
    (duplicateWrite a.index.toNat v s = false → ∃ t, exec (.setSetting rq (some a)) s = .next t ∧
      Answered rq (if v = a.value.toNat then .ok else .okClamped) [] [.reg, .trc, .rpq, .alt, .cfg, .out]
        (arrive rq.port s) t ∧
      t.setting a.index.toNat = v ∧ (∀ j, j ≠ a.index.toNat → t.setting j = s.setting j) ∧
      t.cfg.running = s.cfg.running ∧ t.cfg.offset = s.cfg.offset ∧
      (a.index = 16 ∨ a.index = 17 → t.trc.capstan = t.capstanTarget) ∧
      (5 ≤ a.index.toNat → a.index ≠ 16 → a.index ≠ 17 →
        Answered rq (if v = a.value.toNat then .ok else .okClamped) [] [.cfg] (arrive rq.port s) t))

/-- R180, R123, R15: a role that changes away from REPAIR releases the port's claims, one that changes away from VAULT
cancels its force confirmation. R183: PORT_RESET clears the port's whole latched set, opens its mask, drops its overrun flag
and confirmation and releases its claims; its role stays, and so do the latched sets and masks of the other ports. The
claims are released last: REPAIR_WAITING, when that raises it, is latched for every port that routes it, the issuing one
too (the model's choice, log entry 22). -/
def Obligations.RoleChangeAndPortResetLetGo : Prop :=
  (∀ (rq : Rq) (s : State) (p : Port) (role : BitVec 16), Served rq .any s → role.toNat ≤ 4 →
    duplicateWrite p.number role.toNat s = false →
    ∃ t, exec (.setSetting rq (some ⟨BitVec.ofNat 8 p.number, role⟩)) s = .next t ∧
      Answered rq .ok [] [.reg, .trc, .rpq, .alt, .cfg, .out] (arrive rq.port s) t ∧
      t.role p = Role.ofCode role.toNat ∧ (∀ q, q ≠ p → t.role q = s.role q) ∧
      (role.toNat ≠ 2 → TablesCanonical s → ClaimsReleased p s t ∧
        ∀ i d, t.rpq.damage.read i = some d → d.claimedBy p = false) ∧
      (role.toNat = 2 → t.rpq = s.rpq) ∧
      (s.role p = .vault → role.toNat ≠ 4 → t.reg.confirm.get p = none) ∧
      (∀ q, q ≠ p → q ≠ rq.port → t.reg.confirm.get q = s.reg.confirm.get q)) ∧
  (∀ (rq : Rq) (s : State), Served rq .any s →
    ∃ t, exec (.portReset rq) s = .next t ∧ t.spt = s.spt.set rq.port ⟨some ⟨rq.tag, Status.ok.code, []⟩, false⟩ ∧
      (t.alt.get rq.port).mask = BitVec.allOnes 27 ∧
      (∀ e : Event, AlertSet.has (t.alt.get rq.port).latched e =
        (e == .repairWaiting && releaseRaises rq.port s && AlertSet.has (s.route rq.port) e)) ∧
      (∀ q, q ≠ rq.port → (t.alt.get q).mask = (s.alt.get q).mask ∧ ∀ e : Event, AlertSet.has (t.alt.get q).latched e =
        (AlertSet.has (s.alt.get q).latched e ||
          (e == .repairWaiting && releaseRaises rq.port s && AlertSet.has (s.route q) e))) ∧
      t.reg.confirm.get rq.port = none ∧ (∀ q, q ≠ rq.port → t.reg.confirm.get q = s.reg.confirm.get q) ∧
      (TablesCanonical s → ClaimsReleased rq.port s t ∧
        ∀ i d, t.rpq.damage.read i = some d → d.claimedBy rq.port = false) ∧
      Kept [.reg, .rpq, .spt, .alt, .out] s t)

/-! ### REEL -/

/-- R9, R1: ADMIT makes its checks in order, then fills the lowest free entry with a fresh record, the lowest free shot
record with the reel's first shot, and the slot with the reel. -/
def Obligations.AdmitFillsTheLowestEntry : Prop :=
  ∀ (rq : Rq) (s : State) (a : AdmitArgs) (g : Gauge), Served rq (.role .vault) s →
    Gauge.ofCode a.gauge.toNat = some g → a.catalogue ≠ 0 → a.acidity.toNat ≤ 3 → a.slot.toNat < 80 →
    let u := arrive rq.port s
    let taken := ∃ h r, (h, r) ∈ s.reg.reels ∧ r.catalogue = a.catalogue.toNat
    let wrongZone := 2 ≤ a.acidity.toNat ∧ a.slot.toNat < 64
    let refused := fun st => ∃ t, exec (.admitReel rq (some a)) s = .next t ∧ Answered rq st [] [] u t
    (taken → refused .duplicate) ∧
    (¬taken → ∀ e, s.cab.slots.read a.slot.toNat = some (.held e) → refused .state) ∧
    (¬taken → ∀ e, s.cab.slots.read a.slot.toNat = some (.reserved e) → refused .noRoom) ∧
    (¬taken → ∀ h, s.cab.slots.read a.slot.toNat = some (.holding h) → refused .noRoom) ∧
    (¬taken → s.cab.slots.read a.slot.toNat = none → wrongZone → refused .wrongZone) ∧
    (¬taken → s.cab.slots.read a.slot.toNat = none → ¬wrongZone →
      ((∀ h, h < 96 → s.reel h ≠ none) ∨ (∀ n, n < 512 → s.sht.pool.read n ≠ none)) → refused .full) ∧
    (¬taken → s.cab.slots.read a.slot.toNat = none → ¬wrongZone → ∀ h n, h < 96 → s.reel h = none →
      (∀ j, j < h → s.reel j ≠ none) → n < 512 → s.sht.pool.read n = none → (∀ j, j < n → s.sht.pool.read j ≠ none) →
      ∃ t, exec (.admitReel rq (some a)) s = .next t ∧
        Answered rq .ok [BitVec.ofNat 8 h] [.reg, .sht, .cab, .alt] u t ∧
        OnlyReel h
          { catalogue := a.catalogue.toNat, gauge := g, acidity := a.acidity.toNat, shrinkage := none
            fragile := decide (2 ≤ a.acidity.toNat), location := .slot a.slot.toNat, home := a.slot.toNat
            circulation := .shelved, relocation := false, frontier := 0, rescan := [], queued := 0, claimed := 0
            closed := 0, lostArea := 0, splices := 0, base := ⟨⟨4096, 0⟩, ⟨4096, 0⟩, ⟨4096, 0⟩⟩ } u t ∧
        OnlyShot n { handle := h, first := 0, state := .editable, flicker := true, origin := .detected, stack := [] } u t ∧
        t.cab.slots.read a.slot.toNat = some (.holding h) ∧
        (∀ j, j ≠ a.slot.toNat → t.cab.slots.read j = s.cab.slots.read j) ∧
        CabSettled { s.cab with slots := t.cab.slots } [] u t)

/-- R10, R2, R5: SET_CONDITION records the class and the fragile flag that follows from it; a SHELVED reel whose class rises
to 2 or 3 in a STANDARD slot has a RELOCATE asked for. -/
def Obligations.SetConditionRecordsTheClass : Prop :=
  ∀ (rq : Rq) (s : State) (a : ConditionArgs) (r : Reel), Served rq (.role .vault) s → a.handle.toNat < 96 →
    s.reel a.handle.toNat = some r → a.acidity.toNat ≤ 3 →
    let u := arrive rq.port s
    let fragile := decide (2 ≤ a.acidity.toNat) || r.shrinkage.any (fun x => decide (150 ≤ x))
    let r' : Reel := { r with acidity := a.acidity.toNat, fragile }
    let asked := decide (r.acidity < 2) && Reel.mustRelocate r'
    ∃ t, exec (.setCondition rq (some a)) s = .next t ∧
      Answered rq .ok [if fragile then 1 else 0] [.reg, .cab, .alt] u t ∧
      OnlyReel a.handle.toNat { r' with relocation := r.relocation || asked } u t ∧
      CabSettled (if asked then s.cab.ask a.handle.toNat .relocate r.location else s.cab)
        (relocationEvents s.cab.moves.length t.cab) u t

/-- R11: REQUEST of a SHELVED reel queues a FETCH_OUT and makes the reel OUTBOUND; a RELOCATE that is QUEUED, BLOCKED or leg
due is withdrawn first, and its entry is not drained: the FETCH_OUT takes it (R158), also where a lower entry is free (the
model's reading against R157, log entry 41), and with no entry freed the lowest free one (R157). R12: CANCEL of a queued
FETCH_OUT takes the move out, drains, and returns the reel to SHELVED with a relocation check. -/
def Obligations.RequestAndCancelMoveTheReel : Prop :=
  ∀ (rq : Rq) (s : State) (h : Byte) (r : Reel), Served rq (.role .scan) s → h.toNat < 96 → s.reel h.toNat = some r →
    let u := arrive rq.port s
    let refused := fun c st => ∃ t, exec c s = .next t ∧ Answered rq st [] [] u t
    let fetched := fun (c : Cab) (e : Nat) => ∃ t, exec (.request rq (some h)) s = .next t ∧
      Answered rq .ok [] [.reg, .cab, .alt] u t ∧
      OnlyReel h.toNat { r with circulation := .outbound, relocation := false } u t ∧
      CabSettled { c with moves := c.moves ++ [⟨e, .fetchOut, h.toNat, r.location, none, .queued⟩] } [] u t
    (r.circulation ≠ .shelved → refused (.request rq (some h)) .state) ∧
    (r.circulation = .shelved → ∀ m, s.cab.moveOf h.toNat = some m → m.kind = .relocate →
      (m.state = .moving → refused (.request rq (some h)) .busy) ∧
      (m.state ≠ .moving → fetched (s.cab.removeMove m.entry) m.entry)) ∧
    (r.circulation = .shelved → (∀ m, s.cab.moveOf h.toNat = some m → m.kind ≠ .relocate) →
      (s.cab.freeEntry = none → refused (.request rq (some h)) .full) ∧
      ∀ e, s.cab.freeEntry = some e →
        fetched { s.cab with legDue := s.cab.legDue.filter (fun d => d != ⟨h.toNat, .relocate⟩) } e) ∧
    (∀ m, s.cab.moveOf h.toNat = some m → r.circulation = .outbound → m.kind = .fetchOut → m.state = .queued →
      let c := s.cab.removeMove m.entry
      let r' : Reel := { r with circulation := .shelved }
      ∃ t, exec (.cancel rq (some h)) s = .next t ∧ Answered rq .ok [] [.reg, .cab, .alt] u t ∧
        OnlyReel h.toNat { r' with relocation := r.relocation || r'.mustRelocate } u t ∧
        (c.drainedByOne s → CabSettled
          (if r'.mustRelocate then (c.drainOne s).ask h.toNat .relocate r.location else c.drainOne s)
          (relocationEvents c.moves.length t.cab) u t)) ∧
    ((∀ m, s.cab.moveOf h.toNat = some m → r.circulation ≠ .outbound ∨ m.kind ≠ .fetchOut ∨ m.state ≠ .queued) →
      refused (.cancel rq (some h)) .state)

/-- R13: RETURN sends a READY reel back with a STAGE_BACK from its staging position. R14: a plain RELEASE of a SHELVED reel
without relocation, listed frames or open damage queues a DISPATCH. Both are refused by the first check that fails. -/
def Obligations.ReturnAndReleaseQueueAMove : Prop :=
  ∀ (rq : Rq) (s : State) (h : Byte) (r : Reel), h.toNat < 96 → s.reel h.toNat = some r →
    let u := arrive rq.port s
    let refused := fun c st => ∃ t, exec c s = .next t ∧ Answered rq st [] [] u t
    let queued := fun c kind circulation => ∀ e, s.cab.freeEntry = some e → ∃ t, exec c s = .next t ∧
      Answered rq .ok [] [.reg, .cab, .alt] u t ∧ OnlyReel h.toNat { r with circulation } u t ∧
      CabSettled { s.cab with moves := s.cab.moves ++ [⟨e, kind, h.toNat, r.location, none, .queued⟩] } [] u t
    (Served rq (.role .scan) s →
      let c := Instr.returnReel rq (some h)
      (r.circulation ≠ .ready → refused c .state) ∧
      (r.circulation = .ready → s.cab.freeEntry = none → refused c .full) ∧
      (r.circulation = .ready → queued c .stageBack .inbound)) ∧
    (Served rq (.role .vault) s →
      let c := Instr.release rq (some ⟨h, 0⟩)
      let work := r.rescan ≠ [] ∨ 0 < r.queued ∨ 0 < r.claimed
      (r.circulation ≠ .shelved → refused c .state) ∧
      (r.circulation = .shelved → r.relocation = true → refused c .busy) ∧
      (r.circulation = .shelved → r.relocation = false → work → refused c .pendingWork) ∧
      (r.circulation = .shelved → r.relocation = false → ¬work → s.cab.freeEntry = none → refused c .full) ∧
      (r.circulation = .shelved → r.relocation = false → ¬work → queued c .dispatch .dispatching))

/-- R15, R16: the first RELEASE FORCE opens the port's confirmation for 10 000 ms and answers CONFIRM; the second, for the
same handle and before it has expired, empties the rescan list, closes the QUEUED and then the CLAIMED records of the reel
as WITHDRAWN, all of them and each group in rising creation sequence (R106), voids the claims, and queues a DISPATCH. R21,
R104: the reel's counts and the ports' claim counts follow; where the queued and claimed counts are the numbers of the
reel's records, as R21 has them, both are 0 after it. -/
def Obligations.ForceReleaseTakesTwoRequests : Prop :=
  ∀ (rq : Rq) (s : State) (h : Byte) (r : Reel), Served rq (.role .vault) s → h.toNat < 96 →
    s.reel h.toNat = some r →
    let c := Instr.releaseForce rq h
    let u := arrive rq.port s
    let listed := fun (l : List Nat) (state : Damage → Bool) => l.Nodup ∧
      (∀ i, i ∈ l ↔ ∃ d, s.rpq.damage.read i = some d ∧ state d = true ∧ d.handle = h.toNat) ∧
      l.Pairwise (fun i j => ∀ x y, s.rpq.damage.read i = some x → s.rpq.damage.read j = some y →
        x.seq.toNat ≤ y.seq.toNat)
    let confirming := ∃ x, s.reg.confirm.get rq.port = some x ∧ x.handle = h.toNat ∧ 0 < x.remaining
    let refused := fun st => ∃ t, exec c s = .next t ∧ Answered rq st [] [] u t
    (r.circulation ≠ .shelved → refused .state) ∧
    (r.circulation = .shelved → r.relocation = true → refused .busy) ∧
    (r.circulation = .shelved → r.relocation = false → ¬confirming →
      ∃ t, exec c s = .next t ∧ Answered rq .confirm [] [.reg] u t ∧
        t.reg = { s.reg with confirm := s.reg.confirm.set rq.port (some ⟨h.toNat, 10000⟩) }) ∧
    (r.circulation = .shelved → r.relocation = false → confirming → s.cab.freeEntry = none → refused .full) ∧
    (r.circulation = .shelved → r.relocation = false → confirming → TablesCanonical s → ∀ e, s.cab.freeEntry = some e →
      ∃ t, exec c s = .next t ∧ Answered rq .ok [] [.reg, .rpq, .cab, .alt] u t ∧
        t.reg.confirm = s.reg.confirm.set rq.port none ∧
        (∀ j, j ≠ h.toNat → t.reel j = s.reel j) ∧
        (∀ i, t.rpq.damage.read i = (s.rpq.damage.read i).map (fun d =>
          if d.handle = h.toNat ∧ (d.isQueued = true ∨ d.isClaimed = true) then { d with state := .closed .withdrawn }
          else d)) ∧
        (∃ q k : List Nat, listed q Damage.isQueued ∧ listed k Damage.isClaimed ∧
          t.rpq = { s.rpq with
            damage := t.rpq.damage, claims := t.rpq.claims, closedList := s.rpq.closedList ++ q ++ k } ∧
          (∀ p, t.rpq.claims.get p = s.rpq.claims.get p -
            (k.filter (fun i => (s.rpq.damage.read i).any (·.claimedBy p))).length) ∧
          ∃ r', t.reel h.toNat = some r' ∧ r' = { r with
              rescan := [], circulation := .dispatching, queued := r.queued - q.length
              claimed := r.claimed - k.length, closed := r.closed + q.length + k.length } ∧
            (r.queued = q.length → r.claimed = k.length → r'.queued = 0 ∧ r'.claimed = 0)) ∧
        (∀ i d p, s.rpq.damage.read i = some d → d.handle = h.toNat → d.state = .claimed p →
          AlertSet.has (t.alt.get p).latched .claimVoided = true) ∧
        t.cab = { s.cab with
          moves := s.cab.moves ++ [⟨e, .dispatch, h.toNat, r.location, none, .queued⟩]
          eligible := t.eligibleNow, isoFull := t.isoFullNow })

/-! ### TRANSPORT -/

/-- R26, R52, R49, R6, R25: THREAD takes a READY reel onto an UNTHREADED transport with ESTOP released; every other case is
refused STATE. The starting pitch goes through the clamp into the live copy, PRU starts afresh, the chains break. That the
staged copy keeps the pitch before the clamp is the model's choice (log entry 19). -/
def Obligations.ThreadTakesAReadyReel : Prop :=
  ∀ (rq : Rq) (s : State) (h : Byte) (r : Reel), Served rq (.role .scan) s → h.toNat < 96 → s.reel h.toNat = some r →
    let u := arrive rq.port s
    let p : Pitch :=
      match r.shrinkage with
      | some x =>
        ⟨r.gauge.nominal * 65536 * (10000 - x) / 10000 / 65536, r.gauge.nominal * 65536 * (10000 - x) / 10000 % 65536, 0, 2⟩
      | none => ⟨r.gauge.nominal, 0, 0, 2⟩
    (s.trc.state ≠ .unthreaded ∨ s.trc.estop = true ∨ r.circulation ≠ .ready →
      ∃ t, exec (.thread rq (some h)) s = .next t ∧ Answered rq .state [] [] u t) ∧
    (s.trc.state = .unthreaded → s.trc.estop = false → r.circulation = .ready →
      ∃ t, exec (.thread rq (some h)) s = .next t ∧
        Answered rq .ok [] [.reg, .trc, .pru, .fcu, .rpq, .sht, .cab, .alt, .out] u t ∧
        OnlyReel h.toNat { r with location := .transport, circulation := .threaded } u t ∧
        t.trc.state = .threaded ∧ t.trc.handle = some h.toNat ∧
        t.trc.profile = (if r.fragile then .fragile else .normal) ∧ t.trc.spliceQueue = [] ∧ t.trc.capstan = 0 ∧
        t.trc.holdLight = some (s.setting Setting.holdLightLimit * 1000) ∧
        t.trc.light = (if s.trc.gateHot then 0 else s.setting Setting.lightHold) ∧ t.trc.holds = s.trc.holds ∧
        t.trc.position = s.trc.position ∧
        t.pru = { s.pru with
          gauge := r.gauge, live := clampPitch r.gauge p, staged := p, liveReg := s.pru.stagedReg, commitPending := false
          origin := none, anchor := none, a1 := 0, a2 := 0, expect := none, lastEdge := none, lastLine := none
          lock := .unlocked, count := 0, missing := 0, reanchor := false, window := .off, adapted := false, strays := 0
          seekFrom := none } ∧
        t.fcu = { s.fcu with strayRows := 0 } ∧ t.rpq = { s.rpq with prev := [], prevFrom := none } ∧
        t.sht = { s.sht with
          previousM := none, lastFrame := none, firstPending := true, ref16 := 0, previousF := 4096 } ∧
        ∀ n, r.location = .staging n →
          CabSettled { s.cab with stagings := s.cab.stagings.erase n }
            (if clampPitch r.gauge p = p then [] else [.pitchLimit]) u t)

/-- R27, R6, R52, R69: UNTHREAD needs THREADED, both frame contexts FREE and a free staging position, the lowest of which
takes the reel; a pitch that was adapted leaves its shrinkage in the record, floor((N·65536 − Pu)·10000/(N·65536)) held
within 0 to 999. The layout of the result bytes is the model's
(log entry 23), and that the timers TRC stops are all four, the gate delay timer too, is its reading of R27 (log entry 16). -/
def Obligations.UnthreadPutsTheReelAtStaging : Prop :=
  ∀ (rq : Rq) (s : State), Served rq (.role .scan) s →
    let u := arrive rq.port s
    let refused := fun st => ∃ t, exec (.unthread rq) s = .next t ∧ Answered rq st [] [] u t
    let isOpen := ∃ c x, s.fcu.ctx.get c = some x
    (s.trc.state ≠ .threaded → refused .state) ∧
    (s.trc.state = .threaded → isOpen → refused .busy) ∧
    (s.trc.state = .threaded → ¬isOpen → (∀ n, n < 8 → s.cab.stagings.read n ≠ none) → refused .noRoom) ∧
    (s.trc.state = .threaded → ¬isOpen → ∀ n h r, n < 8 → s.cab.stagings.read n = none →
      (∀ j, j < n → s.cab.stagings.read j ≠ none) → s.trc.handle = some h → s.reel h = some r →
      let nominal := s.pru.gauge.nominal * 65536
      let pu := s.pru.live.pInt * 65536 + s.pru.live.f1
      let x := (max 0 (min 999 (((nominal : Int) - pu) * 10000 / nominal))).toNat
      ∃ t, exec (.unthread rq) s = .next t ∧
        Answered rq .ok (Place.staging n).bytes [.reg, .trc, .pru, .rpq, .sht, .cab, .alt, .out] u t ∧
        OnlyReel h
          (if s.pru.adapted then
            { r with
              location := .staging n, circulation := .ready, shrinkage := some x
              fragile := decide (2 ≤ r.acidity) || decide (150 ≤ x) }
          else { r with location := .staging n, circulation := .ready }) u t ∧
        t.trc.state = .unthreaded ∧ t.trc.handle = none ∧ t.trc.capstan = 0 ∧ t.trc.light = 0 ∧
        t.trc.spliceQueue = [] ∧ t.trc.holdLight = none ∧ t.trc.tensionHigh = none ∧ t.trc.tensionLow = none ∧
        t.trc.gateDelay = none ∧ t.trc.profile = s.trc.profile ∧
        t.pru = { s.pru with
          origin := none, anchor := none, expect := none, lastEdge := none, lastLine := none, lock := .unlocked
          count := 0, missing := 0, reanchor := false, window := .off, adapted := false, seekFrom := none } ∧
        CabSettled { s.cab with stagings := s.cab.stagings.write n (.holding h) } [] u t)

/-- R28, R53: SET_ORIGIN makes the last edge, within half a pitch of the position, the origin and the anchor of frame 0.
R29: INCH and R30: SHUTTLE start from THREADED. -/
def Obligations.MotionCommandsStartFromThreaded : Prop :=
  ∀ (rq : Rq) (s : State), Served rq (.role .scan) s →
    let u := arrive rq.port s
    let refused := fun c st => ∃ t, exec c s = .next t ∧ Answered rq st [] [] u t
    let far := ∀ e, s.pru.lastEdge = some e → s.pru.live.pInt / 2 < (e - s.trc.position).natAbs
    (s.trc.state ≠ .threaded → refused (.setOrigin rq) .state) ∧
    (s.trc.state = .threaded → far → refused (.setOrigin rq) .noLine) ∧
    (s.trc.state = .threaded → ∀ e, s.pru.lastEdge = some e →
      (e - s.trc.position).natAbs ≤ s.pru.live.pInt / 2 →
      ∃ t, exec (.setOrigin rq) s = .next t ∧ Answered rq .ok (i32 e) [.pru, .rpq, .alt] u t ∧
        t.pru = { s.pru with
          origin := some e, anchor := some ⟨e, 0⟩, a1 := 0, a2 := 0, expect := none, lastLine := none, lock := .unlocked
          count := 0, missing := 0, reanchor := false, seekFrom := none
          window := if s.pru.liveReg.adapt = 1 then .frame (2 ^ s.pru.liveReg.w) else .off } ∧
        t.rpq = { s.rpq with prev := [], prevFrom := none } ∧
        Latches (if s.pru.lock = .locked then [.lockLost] else []) u t) ∧
    (∀ d : BitVec 32,
      let c := Instr.inch rq (some d)
      let good := d.toInt ≠ 0 ∧ d.toInt.natAbs ≤ 2000000
      (¬good → refused c .badArg) ∧
      (good → s.trc.state = .inching → refused c .busy) ∧
      (good → s.trc.state ≠ .inching → s.trc.state ≠ .threaded → refused c .state) ∧
      (good → s.trc.state = .threaded →
        ∃ t, exec c s = .next t ∧ Answered rq .ok [] [.trc, .pru, .out] u t ∧ t.trc.state = .inching ∧
          t.trc.inch = some ⟨s.trc.position + d.toInt, decide (0 < d.toInt)⟩ ∧
          t.trc.capstan = (if 0 < d.toInt then 1000 * (s.setting Setting.inchSpeed : Int)
            else -(1000 * (s.setting Setting.inchSpeed : Int))) ∧
          t.trc.holdLight = some (s.setting Setting.holdLightLimit * 1000) ∧
          t.trc.light = (if s.trc.gateHot then 0 else s.setting Setting.lightHold) ∧
          t.trc.position = s.trc.position ∧ t.trc.handle = s.trc.handle ∧ t.trc.holds = s.trc.holds ∧
          t.pru = { s.pru with expect := none })) ∧
    (∀ a : ShuttleArgs,
      let c := Instr.shuttle rq (some a)
      let v := max 50 (min 2000 a.speed.toNat)
      (1 < a.direction.toNat → refused c .badArg) ∧
      (a.direction.toNat ≤ 1 → s.trc.state ≠ .threaded → refused c .state) ∧
      (a.direction.toNat ≤ 1 → s.trc.state = .threaded →
        ∃ t, exec c s = .next t ∧
          Answered rq (if v = a.speed.toNat then .ok else .okClamped) (u16 v) [.trc, .pru, .out] u t ∧
          t.trc.state = .shuttle ∧ t.trc.capstan = (if a.direction = 1 then -(1000 * (v : Int)) else 1000 * (v : Int)) ∧
          t.trc.light = 0 ∧ t.trc.holdLight = none ∧ t.trc.position = s.trc.position ∧ t.trc.handle = s.trc.handle ∧
          t.trc.holds = s.trc.holds ∧ t.pru = { s.pru with expect := none }))

/-- R31, R25, R23, R24, R51, R71, R124: SCAN starts a run from THREADED with an origin set and no hold cause: the profile and
the clamped speed, an empty splice queue, the edge mark at the position, next frame 0, and the expectation at the least line
ahead of the position, with the accumulators of stepping and, beyond the window frame, restart pending (R51, R63). -/
def Obligations.ScanStartsARun : Prop :=
  ∀ (rq : Rq) (s : State) (speed : BitVec 16), Served rq (.role .scan) s →
    let u := arrive rq.port s
    let c := Instr.scan rq (some speed)
    let refused := fun st => ∃ t, exec c s = .next t ∧ Answered rq st [] [] u t
    let fragile := ∃ h r, s.trc.handle = some h ∧ s.reel h = some r ∧ r.fragile = true
    (s.trc.state ≠ .threaded ∨ s.pru.origin = none → refused .state) ∧
    (s.trc.state = .threaded → s.pru.origin ≠ none → s.trc.holds ≠ ⟨false, false, false⟩ → refused .busy) ∧
    (s.trc.state = .threaded → s.pru.origin ≠ none → s.trc.holds = ⟨false, false, false⟩ →
      ∀ profile, (profile = .fragile ↔ fragile) →
      let v := max 1 (min (if profile = .fragile then 60 else 240) speed.toNat)
      ∃ t, exec c s = .next t ∧
        Answered rq (if v = speed.toNat then .ok else .okClamped)
          (u16 v ++ [if profile = .fragile then 1 else 0]) [.trc, .pru, .fcu, .sht, .out] u t ∧
        t.trc.state = .scanning ∧ t.trc.profile = profile ∧ t.trc.scanSpeed = v ∧ t.trc.spliceQueue = [] ∧
        t.trc.edgeMark = s.trc.position ∧ t.trc.position = s.trc.position ∧ t.trc.inZone = false ∧
        t.trc.capstan = (v * s.pru.live.pInt / 10 : Nat) ∧
        t.trc.light = (if s.trc.gateHot then 0 else s.setting Setting.lightFull) ∧ t.trc.holdLight = none ∧
        (profile ≠ s.trc.profile → t.trc.tensionHigh = none) ∧ t.trc.handle = s.trc.handle ∧
        t.trc.holds = s.trc.holds ∧
        (s.pru.lock = .seeking → t.pru = { s.pru with linesOver := false }) ∧
        (s.pru.lock ≠ .seeking →
          (s.pru.anchor = none → t.pru = { s.pru with linesOver := false, expect := none }) ∧
          (PitchInLimits s → ∀ m, s.pru.anchor = some m →
            Placed s.trc.position m { s.pru with linesOver := false } t.pru)) ∧
        t.pru.live = s.pru.live ∧ t.pru.lock = s.pru.lock ∧ t.pru.anchor = s.pru.anchor ∧
        t.fcu = { s.fcu with nextFrame := 0, skips := 0 } ∧
        t.sht = { s.sht with lastFrame := none, firstPending := true })

/-- R35, R34, R36: PAUSE adds OPERATOR and holds the scan, RESUME removes it and starts the backup when it was the last
cause. R32: STOP, and R40: CLEAR_FAULT, bring the transport to THREADED, where a pending commit applies (R66). -/
def Obligations.HoldAndStopCommands : Prop :=
  ∀ (rq : Rq) (s : State), Served rq (.role .scan) s →
    let u := arrive rq.port s
    let refused := fun c st => ∃ t, exec c s = .next t ∧ Answered rq st [] [] u t
    let nothing := fun c => ∃ t, exec c s = .next t ∧ Answered rq .ok [] [] u t
    let holdsOnly := fun c holds => ∃ t, exec c s = .next t ∧ Answered rq .ok [] [.trc] u t ∧ t.trc = { s.trc with holds }
    let inRun := s.trc.state = .scanning ∨ s.trc.state = .hold ∨ s.trc.state = .backup
    let moving := s.trc.state = .inching ∨ s.trc.state = .shuttle ∨ inRun
    let halted := fun t : State => t.trc.state = .threaded ∧ t.trc.fault = none ∧ t.trc.capstan = 0 ∧
      t.trc.holdLight = some (s.setting Setting.holdLightLimit * 1000) ∧
      t.trc.light = (if s.trc.gateHot then 0 else s.setting Setting.lightHold) ∧ t.trc.inch = none ∧
      t.trc.backupTarget = none ∧ t.trc.handle = s.trc.handle ∧ t.trc.position = s.trc.position ∧
      (s.pru.commitPending = false → t.pru = { s.pru with expect := none } ∧ t.alt = u.alt) ∧
      (s.pru.commitPending = true → t.pru.commitPending = false ∧ t.pru.live = clampPitch s.pru.gauge s.pru.staged ∧
        t.pru.liveReg = s.pru.stagedReg)
    (¬inRun → refused (.pause rq) .state ∧ refused (.resume rq) .state) ∧
    (inRun → s.trc.holds.operator = true → nothing (.pause rq)) ∧
    (s.trc.state = .hold → s.trc.holds.operator = false →
      holdsOnly (.pause rq) { s.trc.holds with operator := true }) ∧
    (s.trc.state = .scanning ∨ s.trc.state = .backup → s.trc.holds.operator = false →
      ∃ t, exec (.pause rq) s = .next t ∧ Answered rq .ok [] [.trc, .pru, .alt, .out] u t ∧ t.trc.state = .hold ∧
        t.trc.holds = { s.trc.holds with operator := true } ∧ t.trc.capstan = 0 ∧ t.trc.backupTarget = none ∧
        t.trc.holdLight = some (s.setting Setting.holdLightLimit * 1000) ∧
        t.trc.light = (if s.trc.gateHot then 0 else s.setting Setting.lightHold) ∧
        t.pru = { s.pru with expect := none } ∧ Latches [.holdEntered] u t) ∧
    (inRun → s.trc.holds.operator = false → nothing (.resume rq)) ∧
    (inRun → s.trc.holds.operator = true → ¬(s.trc.state = .hold ∧ s.trc.holds = ⟨false, false, true⟩) →
      holdsOnly (.resume rq) { s.trc.holds with operator := false }) ∧
    (s.trc.state = .hold → s.trc.holds = ⟨false, false, true⟩ →
      ∃ t, exec (.resume rq) s = .next t ∧ Answered rq .ok [] [.trc, .pru, .out] u t ∧ t.trc.state = .backup ∧
        t.trc.holds = ⟨false, false, false⟩ ∧
        t.trc.backupTarget = some (s.trc.position - 3 * (s.pru.live.pInt : Int)) ∧
        t.trc.capstan = -(1000 * (s.setting Setting.inchSpeed : Int)) ∧ t.trc.light = 0 ∧
        t.pru = { s.pru with expect := none }) ∧
    (s.trc.state = .threaded → nothing (.stop rq)) ∧
    (s.trc.state = .unthreaded ∨ s.trc.state = .fault → refused (.stop rq) .state) ∧
    (moving → s.trc.fault = none → ∃ t, exec (.stop rq) s = .next t ∧ Answered rq .ok [] [.trc, .pru, .alt, .out] u t ∧
      t.trc.holds = { s.trc.holds with operator := false } ∧ t.trc.spliceQueue = [] ∧ halted t) ∧
    (s.trc.state ≠ .fault ∨ s.trc.estop = true ∨ 50 ≤ s.trc.reportAge → refused (.clearFault rq) .state) ∧
    (s.trc.state = .fault → s.trc.estop = false → s.trc.reportAge < 50 →
      ∃ t, exec (.clearFault rq) s = .next t ∧ Answered rq .ok [] [.trc, .pru, .alt, .out] u t ∧
        t.trc.holds = s.trc.holds ∧ halted t)

/-- R64, R65: what STAGE_PITCH and STAGE_REG store. R66, R67: COMMIT applies the staged copy at once in UNTHREADED and THREADED, and waits in
every other state; a changed pitch re-anchors at the last line, else at the present anchor, else unlocks. R63: the window
after the commit. The model's choices: in THREADED a changed pitch ends SEEKING too (log entry 13), the window that the
re-anchoring starts runs by the new w (log entry 29), and a commit that sets ADAPT_ENABLE to 0 and changes w leaves the
window off (log entry 35). -/
def Obligations.StagingAndCommit : Prop :=
  ∀ (rq : Rq) (s : State), Served rq (.role .scan) s →
    let u := arrive rq.port s
    (∀ a : PitchArgs,
      let pInt := if a.pInt = 0 then 1 else a.pInt.toNat
      let m2 := if a.m2.toNat < 2 then 2 else a.m2.toNat
      let f2 := if m2 - 1 < a.f2.toNat then m2 - 1 else a.f2.toNat
      ∃ t, exec (.stagePitch rq (some a)) s = .next t ∧
        Answered rq (if a.pInt = 0 ∨ a.m2.toNat < 2 ∨ m2 - 1 < a.f2.toNat then .okClamped else .ok) [] [.pru] u t ∧
        t.pru = { s.pru with staged := ⟨pInt, a.f1.toNat, f2, m2⟩ }) ∧
    (∀ a : RegArgs,
      let v : RegValues := ⟨max 8 (min 2000 a.lw.toNat), min 5 a.index.toNat, max 100 (min 4000 a.search.toNat),
        max 3 (min 6 a.w.toNat), min 3 a.g.toNat, min 1 a.adapt.toNat⟩
      ∃ t, exec (.stageReg rq (some a)) s = .next t ∧
        Answered rq
          (if v = ⟨a.lw.toNat, a.index.toNat, a.search.toNat, a.w.toNat, a.g.toNat, a.adapt.toNat⟩ then .ok
            else .okClamped) [] [.pru] u t ∧
        t.pru = { s.pru with stagedReg := v }) ∧
    (s.pru.commitPending = true → ∃ t, exec (.commit rq) s = .next t ∧ Answered rq .ok [] [] u t) ∧
    (s.pru.commitPending = false → s.trc.state ≠ .unthreaded → s.trc.state ≠ .threaded →
      ∃ t, exec (.commit rq) s = .next t ∧ Answered rq .ok [] [.pru] u t ∧
        t.pru = { s.pru with commitPending := true }) ∧
    (s.pru.commitPending = false → s.trc.state = .unthreaded ∨ s.trc.state = .threaded →
      ∃ t, exec (.commit rq) s = .next t ∧ Answered rq .ok [] [.trc, .pru, .alt, .out] u t ∧
        t.pru.live = clampPitch s.pru.gauge s.pru.staged ∧ t.pru.liveReg = s.pru.stagedReg ∧
        t.pru.commitPending = false ∧ t.pru.staged = s.pru.staged ∧ t.pru.stagedReg = s.pru.stagedReg ∧
        t.pru.adapted = s.pru.adapted ∧ t.pru.gauge = s.pru.gauge ∧ t.pru.origin = s.pru.origin ∧
        (t.pru.live = s.pru.live → t.pru = { s.pru with
            liveReg := s.pru.stagedReg, commitPending := false, window := t.pru.window } ∧
          (s.pru.stagedReg.adapt = 0 → s.pru.liveReg.adapt ≠ 0 → t.pru.window = .off) ∧
          (s.pru.stagedReg.adapt ≠ 0 → s.pru.liveReg.adapt = 0 ∨ s.pru.liveReg.w ≠ s.pru.stagedReg.w →
            t.pru.window = .restart) ∧
          (s.pru.stagedReg.adapt = s.pru.liveReg.adapt → s.pru.stagedReg.w = s.pru.liveReg.w →
            t.pru.window = s.pru.window)) ∧
        (t.pru.live ≠ s.pru.live → t.pru.lock = .unlocked ∧ t.pru.count = 0 ∧
          (s.trc.state = .unthreaded ∨ s.pru.lastLine = none ∧ s.pru.anchor = none → t.pru.anchor = s.pru.anchor) ∧
          ∀ m : Mark, s.trc.state = .threaded →
            (∃ l, s.pru.lastLine = some l ∧ m = ⟨l.pos, l.frame⟩) ∨ s.pru.lastLine = none ∧ s.pru.anchor = some m →
            t.pru.anchor = some m ∧ t.pru.a1 = 0 ∧ t.pru.a2 = 0 ∧ t.pru.missing = 0 ∧ t.pru.reanchor = false ∧
              t.pru.window = (if s.pru.stagedReg.adapt = 1 then .frame (m.frame + 2 ^ s.pru.stagedReg.w) else .off)))

/-- R83, R34, R36: READ_FRAMES gives the oldest records and takes them out of the queue; at 16 or fewer BACKPRESSURE goes,
and a scan held for it alone backs up. R117: CLEAR_GATE empties the gate-dirt and the previous-frame list. That an empty
queue leaves BACKPRESSURE alone is the model's choice (log entry 24). -/
def Obligations.ReadFramesAndClearGate : Prop :=
  ∀ (rq : Rq) (s : State), Served rq (.role .scan) s →
    let u := arrive rq.port s
    (∀ count : Byte,
      let c := Instr.readFrames rq (some count)
      let n := min count.toNat s.fcu.queue.length
      let left := s.fcu.queue.length - n
      let good := 1 ≤ count.toNat ∧ count.toNat ≤ 4
      let drops := left ≤ 16 ∧ s.trc.holds.backpressure = true
      let holds := { s.trc.holds with backpressure := false }
      (¬good → ∃ t, exec c s = .next t ∧ Answered rq .badArg [] [] u t) ∧
      (good → s.fcu.queue = [] → ∃ t, exec c s = .next t ∧ Answered rq .none (framesBytes [] 0 s.fcu) [] u t) ∧
      (good → s.fcu.queue ≠ [] → ∃ t, exec c s = .next t ∧
        Answered rq .ok (framesBytes (s.fcu.queue.take n) left s.fcu) [.trc, .pru, .fcu, .out] u t ∧
        t.fcu = { s.fcu with queue := s.fcu.queue.drop n } ∧
        (¬drops → t.trc = s.trc ∧ t.pru = s.pru) ∧
        (drops → ¬(s.trc.state = .hold ∧ s.trc.holds = ⟨true, false, false⟩) → t.trc = { s.trc with holds } ∧
          t.pru = s.pru) ∧
        (drops → s.trc.state = .hold → s.trc.holds = ⟨true, false, false⟩ →
          t.trc.state = .backup ∧ t.trc.holds = holds ∧
          t.trc.backupTarget = some (s.trc.position - 3 * (s.pru.live.pInt : Int)) ∧
          t.trc.capstan = -(1000 * (s.setting Setting.inchSpeed : Int)) ∧ t.trc.light = 0 ∧
          t.pru = { s.pru with expect := none }))) ∧
    (∃ t, exec (.clearGate rq) s = .next t ∧ Answered rq .ok [] [.rpq] u t ∧
      t.rpq = { s.rpq with gate := [], prev := [], prevFrom := none })

/-! ### REPAIR -/

/-- R118, R119: CLAIM_NEXT hands the port the first QUEUED record by severity, then age. R120: COMPLETE closes a record the
port holds. R121: RELEASE_CLAIM gives one claim back, RELEASE_ALL every one the port holds. Claim counts, reel counts and
the closed list follow (R104, R21, R106). -/
def Obligations.ClaimsAreHandedOutAndBack : Prop :=
  ∀ (rq : Rq) (s : State), Served rq (.role .repair) s → TablesCanonical s →
    let u := arrive rq.port s
    let refused := fun c st => ∃ t, exec c s = .next t ∧ Answered rq st [] [] u t
    let held := s.rpq.claims.get rq.port
    let onlyRecord := fun (i : Nat) (d' : Damage) (n : Nat) (t : State) => t.rpq.damage.read i = some d' ∧
      (∀ j, j ≠ i → t.rpq.damage.read j = s.rpq.damage.read j) ∧ t.rpq.claims = s.rpq.claims.set rq.port n
    (∀ h : Byte,
      let c := Instr.claimNext rq (some h)
      let named := h = 255 ∨ h.toNat < 96 ∧ s.reel h.toNat ≠ none
      let offered := fun (i : Nat) (d : Damage) =>
        (i, d) ∈ s.rpq.damage ∧ d.isQueued = true ∧ (h = 255 ∨ d.handle = h.toNat)
      (s.role rq.port ≠ .repair → ∃ t, exec c s = .next t ∧ Answered rq .denied [] [.alt] u t ∧
        t.alt = u.alt.set rq.port ((u.alt.get rq.port).latch .accessDenied)) ∧
      (s.role rq.port = .repair → ¬named → refused c .badArg) ∧
      (s.role rq.port = .repair → named → 16 ≤ held → refused c .full) ∧
      (s.role rq.port = .repair → named → held < 16 → (∀ i d, ¬offered i d) → refused c .none) ∧
      (s.role rq.port = .repair → named → held < 16 → ∀ i d r, offered i d → s.reel d.handle = some r →
        (∀ j d', offered j d' → j ≠ i → d'.severity.code < d.severity.code ∨ d'.severity = d.severity ∧
          (s.rpq.counter - d'.seq).toNat < (s.rpq.counter - d.seq).toNat) →
        ∃ t, exec c s = .next t ∧
          Answered rq .ok (Damage.bytes i { d with state := .claimed rq.port }) [.reg, .rpq] u t ∧
          onlyRecord i { d with state := .claimed rq.port } (held + 1) t ∧ t.rpq.closedList = s.rpq.closedList ∧
          OnlyReel d.handle { r with queued := r.queued - 1, claimed := r.claimed + 1 } u t)) ∧
    (∀ (a : CompleteArgs) (o : DamageOutcome), DamageOutcome.ofCode a.outcome.toNat = some o → a.index.toNat < 1024 →
      let i := a.index.toNat
      ((∀ d, s.rpq.damage.read i = some d → d.seq = a.seq → d.state ≠ .claimed rq.port) →
        refused (.complete rq (some a)) .state) ∧
      ∀ d r, s.rpq.damage.read i = some d → d.seq = a.seq → d.state = .claimed rq.port → s.reel d.handle = some r →
        ∃ t, exec (.complete rq (some a)) s = .next t ∧ Answered rq .ok [] [.reg, .rpq, .sht, .alt] u t ∧
          onlyRecord i { d with state := .closed o } (held - 1) t ∧
          t.rpq.closedList = s.rpq.closedList ++ [i] ∧
          OnlyReel d.handle { r with
            claimed := r.claimed - 1, closed := r.closed + 1
            rescan := if o = .needsRescan then addRange r.rescan ⟨d.frame, d.frame⟩ else r.rescan } u t ∧
          (o ≠ .needsRescan → t.sht = s.sht ∧ t.alt = u.alt)) ∧
    (∀ a : ClaimArgs, a.index.toNat < 1024 →
      let i := a.index.toNat
      ((∀ d, s.rpq.damage.read i = some d → d.seq = a.seq → d.state ≠ .claimed rq.port) →
        refused (.releaseClaim rq (some a)) .state) ∧
      ∀ d r, s.rpq.damage.read i = some d → d.seq = a.seq → d.state = .claimed rq.port → s.reel d.handle = some r →
        ∃ t, exec (.releaseClaim rq (some a)) s = .next t ∧ Answered rq .ok [] [.reg, .rpq, .alt] u t ∧
          onlyRecord i { d with state := .queued } (held - 1) t ∧ t.rpq.closedList = s.rpq.closedList ∧
          OnlyReel d.handle { r with claimed := r.claimed - 1, queued := r.queued + 1 } u t ∧
          Latches (if s.repairWaiting then [] else [.repairWaiting]) u t) ∧
    (let mine := s.rpq.damage.filter (fun e => e.2.claimedBy rq.port)
      ∃ t, exec (.releaseAll rq) s = .next t ∧ Answered rq .ok (u8 mine.length) [.reg, .rpq, .alt] u t ∧
        ClaimsReleased rq.port s t ∧ t.rpq.closedList = s.rpq.closedList ∧ t.reg.confirm = u.reg.confirm ∧
        (∀ h, s.reel h = none → t.reel h = none) ∧
        (∀ h r, s.reel h = some r →
          let k := (mine.filter (fun e => e.2.handle == h)).length
          t.reel h = some { r with queued := r.queued + k, claimed := r.claimed - k }) ∧
        Latches (if releaseRaises rq.port s then [.repairWaiting] else []) u t)

/-- R18, R19, R151: RESCAN_ADD below the frontier adds its frames, and beyond eight ranges the frames of the smallest gap, the
first on a tie; a list it changes raises RESCAN_ADDED, and reopens every
APPROVED shot of the reel with a frame that is new to the list. -/
def Obligations.RescanAddListsTheRange : Prop :=
  ∀ (rq : Rq) (s : State) (a : RescanArgs) (r : Reel), Served rq (.role .repair) s → a.handle.toNat < 96 →
    s.reel a.handle.toNat = some r → TablesCanonical s → RescansOrdered s →
    let u := arrive rq.port s
    let c := Instr.rescanAdd rq (some a)
    let good := a.first.toNat ≤ a.last.toNat ∧ a.last.toNat < r.frontier
    let new := addRange r.rescan ⟨a.first.toNat, a.last.toNat⟩
    let fresh := fun x : Shot => ∃ f, x.first ≤ f ∧ f < s.shotStop x ∧ inRanges new f = true ∧ inRanges r.rescan f = false
    (¬good → ∃ t, exec c s = .next t ∧ Answered rq .badArg [] [] u t) ∧
    (good → RangeAdded r.rescan a.first.toNat a.last.toNat new) ∧
    (good → r.circulation = .dispatching → ∃ t, exec c s = .next t ∧ Answered rq .state [] [] u t) ∧
    (good → r.circulation ≠ .dispatching → new = r.rescan → ∃ t, exec c s = .next t ∧ Answered rq .ok [] [] u t) ∧
    (good → r.circulation ≠ .dispatching → new ≠ r.rescan →
      ∃ t, exec c s = .next t ∧ Answered rq .ok [] [.reg, .sht, .alt] u t ∧
        OnlyReel a.handle.toNat { r with rescan := new } u t ∧ LatchedWhereRouted .rescanAdded s t ∧
        t.sht = { s.sht with pool := t.sht.pool } ∧
        (∀ n, s.sht.pool.read n = none → t.sht.pool.read n = none) ∧
        ∀ n x, s.sht.pool.read n = some x →
          (x.handle = a.handle.toNat → x.state = .approved → fresh x →
            t.sht.pool.read n = some { x with state := .editable } ∧ LatchedWhereRouted .shotReopened s t) ∧
          (x.handle ≠ a.handle.toNat ∨ x.state = .editable ∨ ¬fresh x → t.sht.pool.read n = some x))

/-! ### GRADE -/

/-- R140, R142, R143, R145: SET_BASE replaces the reel's base layer while no shot of it is APPROVED; PUSH_LAYER, POP_LAYER and
SET_FLICKER edit an OPEN shot and are refused STATE on an APPROVED one. -/
def Obligations.LayerEditsActOnOpenShots : Prop :=
  ∀ (rq : Rq) (s : State), Served rq (.role .grade) s →
    let u := arrive rq.port s
    let refused := fun c st => ∃ t, exec c s = .next t ∧ Answered rq st [] [] u t
    let good := fun l : LayerArgs => if layerClamped l then Status.okClamped else Status.ok
    (∀ (a : BaseArgs) (r : Reel), a.handle.toNat < 96 → s.reel a.handle.toNat = some r →
      let locked := ∃ n x, (n, x) ∈ s.sht.pool ∧ x.handle = a.handle.toNat ∧ x.state = .approved
      (locked → refused (.setBase rq (some a)) .state) ∧
      (¬locked → ∃ t, exec (.setBase rq (some a)) s = .next t ∧ Answered rq (good a.layer) [] [.reg] u t ∧
        OnlyReel a.handle.toNat { r with base := layerOf a.layer } u t)) ∧
    (∀ (n : BitVec 16) (x : Shot), n.toNat < 512 → s.sht.pool.read n.toNat = some x →
      (x.state = .approved →
        (∀ l, refused (.pushLayer rq (some ⟨n, l⟩)) .state) ∧ refused (.popLayer rq (some n)) .state ∧
        ∀ e : Byte, e.toNat ≤ 1 → refused (.setFlicker rq (some ⟨n, e⟩)) .state) ∧
      (x.state = .editable →
        (∀ l, 7 ≤ x.stack.length → refused (.pushLayer rq (some ⟨n, l⟩)) .full) ∧
        (∀ l, x.stack.length < 7 → ∃ t, exec (.pushLayer rq (some ⟨n, l⟩)) s = .next t ∧
          Answered rq (good l) (u8 (x.stack.length + 1)) [.sht] u t ∧
          OnlyShot n.toNat { x with stack := x.stack ++ [layerOf l] } u t) ∧
        (x.stack = [] → refused (.popLayer rq (some n)) .state) ∧
        (x.stack ≠ [] → ∃ t, exec (.popLayer rq (some n)) s = .next t ∧
          Answered rq .ok (u8 (x.stack.length - 1)) [.sht] u t ∧
          OnlyShot n.toNat { x with stack := x.stack.dropLast } u t) ∧
        (∀ e : Byte, e.toNat ≤ 1 → ∃ t, exec (.setFlicker rq (some ⟨n, e⟩)) s = .next t ∧ Answered rq .ok [] [.sht] u t ∧
          OnlyShot n.toNat { x with flicker := decide (e = 1) } u t)) ∧
      (∀ e : Byte, 1 < e.toNat → refused (.setFlicker rq (some ⟨n, e⟩)) .badArg))

/-- R144: SET_LAYER. A level above 6 is out of the operand's range and refused before the shot's state is looked at (R140);
a level at or above the stack's count is refused after it. -/
def Obligations.SetLayerOverwritesALevel : Prop :=
  ∀ (rq : Rq) (s : State) (a : SetLayerArgs) (x : Shot), Served rq (.role .grade) s → a.shot.toNat < 512 →
    s.sht.pool.read a.shot.toNat = some x →
    let u := arrive rq.port s
    let c := Instr.setLayer rq (some a)
    let level := a.level.toNat
    (6 < level → ∃ t, exec c s = .next t ∧ Answered rq .badArg [] [] u t) ∧
    (level ≤ 6 → x.state = .approved → ∃ t, exec c s = .next t ∧ Answered rq .state [] [] u t) ∧
    (level ≤ 6 → x.state = .editable → x.stack.length ≤ level →
      ∃ t, exec c s = .next t ∧ Answered rq .badArg [] [] u t) ∧
    (level ≤ 6 → x.state = .editable → level < x.stack.length →
      ∃ t, exec c s = .next t ∧ Answered rq (if layerClamped a.layer then .okClamped else .ok) [] [.sht] u t ∧
        ∃ stack : List Layer, OnlyShot a.shot.toNat { x with stack } u t ∧ stack.length = x.stack.length ∧
          stack[level]? = some (layerOf a.layer) ∧ ∀ k, k ≠ level → stack[k]? = x.stack[k]?)

/-- R146: SPLIT makes the lowest free record a new shot from the frame on. R147: MERGE takes the following shot in. -/
def Obligations.SplitAndMergeShots : Prop :=
  ∀ (rq : Rq) (s : State) (n : BitVec 16) (x : Shot), Served rq (.role .grade) s → n.toNat < 512 →
    s.sht.pool.read n.toNat = some x → TablesCanonical s →
    let u := arrive rq.port s
    let refused := fun c st => ∃ t, exec c s = .next t ∧ Answered rq st [] [] u t
    let following := fun (m : Nat) (y : Shot) => (m, y) ∈ s.sht.pool ∧ y.handle = x.handle ∧ x.first < y.first ∧
      ∀ k z, (k, z) ∈ s.sht.pool → z.handle = x.handle → x.first < z.first → k ≠ m → y.first < z.first
    (x.state = .approved →
      (∀ f, refused (.split rq (some ⟨n, f⟩)) .state) ∧ refused (.merge rq (some n)) .state) ∧
    (x.state = .editable →
      (∀ f : BitVec 16, f.toNat ≤ x.first ∨ s.shotStop x ≤ f.toNat → refused (.split rq (some ⟨n, f⟩)) .badArg) ∧
      (∀ f : BitVec 16, x.first < f.toNat → f.toNat < s.shotStop x →
        ((∀ m, m < 512 → s.sht.pool.read m ≠ none) → refused (.split rq (some ⟨n, f⟩)) .full) ∧
        ∀ m, m < 512 → s.sht.pool.read m = none → (∀ k, k < m → s.sht.pool.read k ≠ none) →
          ∃ t, exec (.split rq (some ⟨n, f⟩)) s = .next t ∧ Answered rq .ok (u16 m) [.sht] u t ∧
            OnlyShot m { x with first := f.toNat, state := .editable, origin := .edited } u t) ∧
      ((∀ m y, (m, y) ∈ s.sht.pool → y.handle = x.handle → y.first ≤ x.first) →
        refused (.merge rq (some n)) .state) ∧
      (∀ m y, following m y →
        (y.state = .approved → refused (.merge rq (some n)) .state) ∧
        (y.state = .editable → ∃ t, exec (.merge rq (some n)) s = .next t ∧ Answered rq .ok [] [.sht] u t ∧
          t.sht = { s.sht with pool := t.sht.pool } ∧ t.sht.pool.read n.toNat = some { x with origin := .edited } ∧
          t.sht.pool.read m = none ∧ ∀ k, k ≠ n.toNat → k ≠ m → t.sht.pool.read k = s.sht.pool.read k)))

/-- R149: APPROVE is refused while a QUEUED or CLAIMED MAJOR record or a frame of the rescan list lies in the shot's range. -/
def Obligations.ApproveNeedsAClearRange : Prop :=
  ∀ (rq : Rq) (s : State) (n : BitVec 16) (x : Shot) (r : Reel), Served rq (.role .grade) s → n.toNat < 512 →
    s.sht.pool.read n.toNat = some x → s.reel x.handle = some r →
    let u := arrive rq.port s
    let c := Instr.approve rq (some n)
    let major := ∃ i d, (i, d) ∈ s.rpq.damage ∧ d.handle = x.handle ∧ d.severity = .major ∧
      (d.isQueued = true ∨ d.isClaimed = true) ∧ x.first ≤ d.frame ∧ d.frame < s.shotStop x
    let listed := ∃ f, x.first ≤ f ∧ f < s.shotStop x ∧ inRanges r.rescan f = true
    (x.state = .approved → ∃ t, exec c s = .next t ∧ Answered rq .state [] [] u t) ∧
    (x.state = .editable → major ∨ listed → ∃ t, exec c s = .next t ∧ Answered rq .pendingWork [] [] u t) ∧
    (x.state = .editable → ¬major → ¬listed → ∃ t, exec c s = .next t ∧ Answered rq .ok [] [.sht] u t ∧
      OnlyShot n.toNat { x with state := .approved } u t)

/-- R150: REOPEN. Only the answer reports it: no block but SHT changes, so SHOT_REOPENED is not raised. -/
def Obligations.ReopenReturnsAShotToOpen : Prop :=
  ∀ (rq : Rq) (s : State) (n : BitVec 16) (x : Shot), Served rq (.role .grade) s → n.toNat < 512 →
    s.sht.pool.read n.toNat = some x → TablesCanonical s →
    (x.state = .editable → ∃ t, exec (.reopen rq (some n)) s = .next t ∧
      Answered rq .state [] [] (arrive rq.port s) t) ∧
    (x.state = .approved → ∃ t, exec (.reopen rq (some n)) s = .next t ∧
      Answered rq .ok [] [.sht] (arrive rq.port s) t ∧
      OnlyShot n.toNat { x with state := .editable } (arrive rq.port s) t ∧
      t.shotStop { x with state := .editable } = s.shotStop x)

/-! ### VAULT -/

/-- R162, R159, R156: TAKE_MOVE hands out the oldest move that is QUEUED and has a destination now: the destination is
reserved, the source held, the reel in the gripper. R159: the destinations of each kind. -/
def Obligations.TakeMoveHandsOutTheOldestEligible : Prop :=
  ∀ (rq : Rq) (s : State), Served rq (.role .vault) s →
    let u := arrive rq.port s
    let c := Instr.takeMove rq
    let ready := fun m : Move => m.state = .queued ∧ s.chooseDest m ≠ none
    let free := fun (t : Table Occupancy) (lo hi n : Nat) =>
      lo ≤ n ∧ n < hi ∧ t.read n = none ∧ ∀ k, lo ≤ k → k < n → t.read k ≠ none
    (∀ m, m ∈ s.cab.moves → m.state = .moving → ∃ t, exec c s = .next t ∧ Answered rq .busy [] [] u t) ∧
    ((∀ m, m ∈ s.cab.moves → m.state ≠ .moving ∧ ¬ready m) →
      ∃ t, exec c s = .next t ∧ Answered rq .none [] [] u t) ∧
    ((∀ m, m ∈ s.cab.moves → m.state ≠ .moving) → (s.cab.moves.map (·.entry)).Nodup → ∀ older m rest d,
      s.cab.moves = older ++ m :: rest → (∀ x ∈ older, ¬ready x) → m.state = .queued → s.chooseDest m = some d →
      let m' : Move := { m with dest := some d, state := .moving }
      ∃ t, exec c s = .next t ∧ Answered rq .ok (moveBytes s m') [.reg, .cab, .alt] u t ∧
        (∀ r, s.reel m.handle = some r → OnlyReel m.handle { r with location := .gripper } u t) ∧
        (∀ p, Place.isPosition p = true → t.cab.occupancy p =
          if p = m.source then some (.held m.entry) else if p = d then some (.reserved m.entry)
          else s.cab.occupancy p) ∧
        CabSettled { s.cab with
          slots := t.cab.slots, bays := t.cab.bays, stagings := t.cab.stagings, moves := older ++ m' :: rest
          gripper := some ⟨m.handle, m.entry⟩ } [] u t ∧ t.cab.eligible = false) ∧
    (∀ (m : Move) (n : Nat),
      (m.kind = .fetchOut ∨ m.kind = .stageBack → free s.cab.bays 0 8 n → s.chooseDest m = some (.bay n)) ∧
      (m.kind = .toStaging → free s.cab.stagings 0 8 n → s.chooseDest m = some (.staging n)) ∧
      (m.kind = .relocate → free s.cab.slots 64 80 n → s.chooseDest m = some (.slot n)) ∧
      (m.kind = .dispatch → s.chooseDest m = some .exit) ∧
      (m.kind = .shelve → ∀ r, s.reel m.handle = some r →
        let homeFits := s.cab.slots.read r.home = none ∧ (64 ≤ r.home ∨ r.acidity < 2)
        (homeFits → s.chooseDest m = some (.slot r.home)) ∧
        (¬homeFits → 2 ≤ r.acidity → free s.cab.slots 64 80 n → s.chooseDest m = some (.slot n)) ∧
        (¬homeFits → r.acidity < 2 → free s.cab.slots 0 64 n → s.chooseDest m = some (.slot n))))

/-- R163, R4, R5, R6, R17, R158, R169: MOVE_DONE puts the reel at the destination, takes the move out of the queue, drains, and
updates the record by the kind; a DISPATCH frees it with its shots and its damage records, whose references leave the
closed list, the others in their order (R106).
A bay timer made IDLE keeps the direction it had (the model's choice, log entry 1). -/
def Obligations.MoveDoneUpdatesByKind : Prop :=
  ∀ (rq : Rq) (s : State), Served rq (.role .vault) s →
    let u := arrive rq.port s
    ((∀ m, m ∈ s.cab.moves → m.state ≠ .moving) →
      ∃ t, exec (.moveDone rq) s = .next t ∧ Answered rq .state [] [] u t) ∧
    (∀ m d r, s.cab.moving = some m → m.dest = some d → s.reel m.handle = some r → s.cab.bayTimers.length = 8 →
      let c := s.cab.removeMove m.entry
      let idled := fun t : State => ∀ n, n < 8 → t.cab.bayTimer n =
        if m.source = .bay n then ⟨.idle, (s.cab.bayTimer n).direction, 0⟩ else s.cab.bayTimer n
      let started := fun (t : State) (k : Nat) (x : BayTimer) => ∀ n, n < 8 → t.cab.bayTimer n =
        if n = k then x else s.cab.bayTimer n
      let drained := fun t : State => c.drainedByOne s →
        t.cab.moves = (c.drainOne s).moves ∧ t.cab.legDue = (c.drainOne s).legDue
      ∃ t, exec (.moveDone rq) s = .next t ∧
        Answered rq .ok (u8 m.entry ++ d.bytes) [.reg, .rpq, .sht, .cab, .alt] u t ∧
        (∀ p, Place.isPosition p = true → t.cab.occupancy p =
          if p = m.source then none else if p = d then some (.holding m.handle) else s.cab.occupancy p) ∧
        t.cab.gripper = none ∧ t.cab.climateOut = s.cab.climateOut ∧ t.cab.eligible = t.eligibleNow ∧
        t.cab.isoFull = t.isoFullNow ∧
        (∀ n, n < 8 → m.kind = .fetchOut → d = .bay n → OnlyReel m.handle { r with location := d } u t ∧
          started t n ⟨.running, .outward,
            (if r.gauge = .g16 then s.setting Setting.acclimOut16 else s.setting Setting.acclimOut35) +
              (if r.fragile then s.setting Setting.acclimFragileExtra else 0)⟩ ∧ drained t) ∧
        (m.kind = .toStaging → OnlyReel m.handle { r with location := d, circulation := .ready } u t ∧ idled t ∧
          LatchedWhereRouted .reelReady s t ∧ drained t) ∧
        (∀ n, n < 8 → m.kind = .stageBack → d = .bay n → OnlyReel m.handle { r with location := d } u t ∧
          started t n ⟨.running, .inward, s.setting Setting.acclimIn⟩ ∧ drained t) ∧
        (∀ n, m.kind = .shelve → d = .slot n →
          let r' : Reel := { r with location := d, home := n, circulation := .shelved }
          OnlyReel m.handle { r' with relocation := r.relocation || r'.mustRelocate } u t ∧ idled t ∧
          (c.drainedByOne s →
            let k := if r'.mustRelocate then (c.drainOne s).ask m.handle .relocate d else c.drainOne s
            t.cab.moves = k.moves ∧ t.cab.legDue = k.legDue)) ∧
        (∀ n, m.kind = .relocate → d = .slot n →
          OnlyReel m.handle { r with location := d, home := n, relocation := false } u t ∧ drained t) ∧
        (m.kind = .dispatch → TablesCanonical s → t.reel m.handle = none ∧
          (∀ j, j ≠ m.handle → t.reel j = s.reel j) ∧
          (∀ n, t.sht.pool.read n = (s.sht.pool.read n).filter (fun x => x.handle != m.handle)) ∧
          (∀ i, t.rpq.damage.read i = (s.rpq.damage.read i).filter (fun x => x.handle != m.handle)) ∧
          t.rpq.closedList = s.rpq.closedList.filter (fun i =>
            !(s.rpq.damage.read i).any (fun x => x.handle == m.handle)) ∧
          (∀ p x, t.reg.confirm.get p = some x → x.handle ≠ m.handle) ∧ drained t))

/-- R164: MOVE_FAILED puts the reel back and blocks the move. R165: RETRY queues it again at its place. R166: CANCEL_MOVE
withdraws a FETCH_OUT, RELOCATE or DISPATCH that is not MOVING. R171: BAY_CLIMATE. -/
def Obligations.FailedRetriedAndCancelledMoves : Prop :=
  ∀ (rq : Rq) (s : State), Served rq (.role .vault) s → (s.cab.moves.map (·.entry)).Nodup →
    let u := arrive rq.port s
    let refused := fun c st => ∃ t, exec c s = .next t ∧ Answered rq st [] [] u t
    ((∀ m, m ∈ s.cab.moves → m.state ≠ .moving) → refused (.moveFailed rq) .state) ∧
    (∀ older m rest d r, s.cab.moves = older ++ m :: rest → (∀ x ∈ older, x.state ≠ .moving) → m.state = .moving →
      m.dest = some d → s.reel m.handle = some r →
      ∃ t, exec (.moveFailed rq) s = .next t ∧ Answered rq .ok (u8 m.entry) [.reg, .cab, .alt] u t ∧
        OnlyReel m.handle { r with location := m.source } u t ∧
        (∀ p, Place.isPosition p = true → t.cab.occupancy p =
          if p = m.source then some (.holding m.handle) else if p = d then none else s.cab.occupancy p) ∧
        CabSettled { s.cab with
          slots := t.cab.slots, bays := t.cab.bays, stagings := t.cab.stagings, gripper := none
          moves := older ++ { m with dest := none, state := .blocked } :: rest } [.moveFailed] u t) ∧
    (∀ older m rest (a : MoveArgs), s.cab.moves = older ++ m :: rest → m.entry = a.entry.toNat → a.entry.toNat < 16 →
      a.handle.toNat < 96 →
      (m.handle ≠ a.handle.toNat → refused (.retry rq (some a)) .state ∧ refused (.cancelMove rq (some a)) .state) ∧
      (m.handle = a.handle.toNat →
        (m.state ≠ .blocked → refused (.retry rq (some a)) .state) ∧
        (m.state = .blocked → ∃ t, exec (.retry rq (some a)) s = .next t ∧ Answered rq .ok [] [.cab, .alt] u t ∧
          CabSettled { s.cab with moves := older ++ { m with state := .queued } :: rest } [] u t) ∧
        (m.state = .moving ∨ m.kind = .toStaging ∨ m.kind = .stageBack ∨ m.kind = .shelve →
          refused (.cancelMove rq (some a)) .state) ∧
        (m.state ≠ .moving → m.kind = .fetchOut ∨ m.kind = .relocate ∨ m.kind = .dispatch →
          ∀ r, s.reel m.handle = some r →
          let c : Cab := { s.cab with moves := older ++ rest }
          let back : Reel := if m.kind = .relocate then { r with relocation := false } else { r with circulation := .shelved }
          let asked := decide (m.kind ≠ .relocate) && back.mustRelocate
          ∃ t, exec (.cancelMove rq (some a)) s = .next t ∧ Answered rq .ok [] [.reg, .cab, .alt] u t ∧
            OnlyReel m.handle { back with relocation := back.relocation || asked } u t ∧
            (c.drainedByOne s →
              CabSettled (if asked then (c.drainOne s).ask m.handle .relocate r.location else c.drainOne s)
                (relocationEvents c.moves.length t.cab) u t)))) ∧
    (∀ a : MoveArgs, a.entry.toNat < 16 → a.handle.toNat < 96 → (∀ m, m ∈ s.cab.moves → m.entry ≠ a.entry.toNat) →
      refused (.retry rq (some a)) .state ∧ refused (.cancelMove rq (some a)) .state) ∧
    (∀ a : MoveArgs, 16 ≤ a.entry.toNat ∨ 96 ≤ a.handle.toNat →
      refused (.retry rq (some a)) .badArg ∧ refused (.cancelMove rq (some a)) .badArg) ∧
    (∀ v : Byte, (1 < v.toNat → refused (.bayClimate rq (some v)) .badArg) ∧
      (v.toNat ≤ 1 → ∃ t, exec (.bayClimate rq (some v)) s = .next t ∧ Answered rq .ok [] [.cab] u t ∧
        t.cab = { s.cab with climateOut := decide (v = 1) }))
end

