-- ==== Sys2Proof/Laws/State.lean ====
section
/-! SUPPORT. What every update of a block leaves as it was, one lemma per field per update. -/

namespace Sys2Proof.Machine

variable (s : State)

@[simp] theorem State.setReg_reg (x : Reg) : (s.setReg x).reg = x := rfl
@[simp] theorem State.setReg_trc (x : Reg) : (s.setReg x).trc = s.trc := rfl
@[simp] theorem State.setReg_pru (x : Reg) : (s.setReg x).pru = s.pru := rfl
@[simp] theorem State.setReg_fcu (x : Reg) : (s.setReg x).fcu = s.fcu := rfl
@[simp] theorem State.setReg_dsu (x : Reg) : (s.setReg x).dsu = s.dsu := rfl
@[simp] theorem State.setReg_rpq (x : Reg) : (s.setReg x).rpq = s.rpq := rfl
@[simp] theorem State.setReg_sht (x : Reg) : (s.setReg x).sht = s.sht := rfl
@[simp] theorem State.setReg_cab (x : Reg) : (s.setReg x).cab = s.cab := rfl
@[simp] theorem State.setReg_spt (x : Reg) : (s.setReg x).spt = s.spt := rfl
@[simp] theorem State.setReg_alt (x : Reg) : (s.setReg x).alt = s.alt := rfl
@[simp] theorem State.setReg_cfg (x : Reg) : (s.setReg x).cfg = s.cfg := rfl
@[simp] theorem State.setReg_tmb (x : Reg) : (s.setReg x).tmb = s.tmb := rfl
@[simp] theorem State.setReg_out (x : Reg) : (s.setReg x).out = s.out := rfl
@[simp] theorem State.setReg_pending (x : Reg) : (s.setReg x).pending = s.pending := rfl
@[simp] theorem State.setTrc_reg (x : Trc) : (s.setTrc x).reg = s.reg := rfl
@[simp] theorem State.setTrc_trc (x : Trc) : (s.setTrc x).trc = x := rfl
@[simp] theorem State.setTrc_pru (x : Trc) : (s.setTrc x).pru = s.pru := rfl
@[simp] theorem State.setTrc_fcu (x : Trc) : (s.setTrc x).fcu = s.fcu := rfl
@[simp] theorem State.setTrc_dsu (x : Trc) : (s.setTrc x).dsu = s.dsu := rfl
@[simp] theorem State.setTrc_rpq (x : Trc) : (s.setTrc x).rpq = s.rpq := rfl
@[simp] theorem State.setTrc_sht (x : Trc) : (s.setTrc x).sht = s.sht := rfl
@[simp] theorem State.setTrc_cab (x : Trc) : (s.setTrc x).cab = s.cab := rfl
@[simp] theorem State.setTrc_spt (x : Trc) : (s.setTrc x).spt = s.spt := rfl
@[simp] theorem State.setTrc_alt (x : Trc) : (s.setTrc x).alt = s.alt := rfl
@[simp] theorem State.setTrc_cfg (x : Trc) : (s.setTrc x).cfg = s.cfg := rfl
@[simp] theorem State.setTrc_tmb (x : Trc) : (s.setTrc x).tmb = s.tmb := rfl
@[simp] theorem State.setTrc_out (x : Trc) : (s.setTrc x).out = s.out := rfl
@[simp] theorem State.setTrc_pending (x : Trc) : (s.setTrc x).pending = s.pending := rfl
@[simp] theorem State.setPru_reg (x : Pru) : (s.setPru x).reg = s.reg := rfl
@[simp] theorem State.setPru_trc (x : Pru) : (s.setPru x).trc = s.trc := rfl
@[simp] theorem State.setPru_pru (x : Pru) : (s.setPru x).pru = x := rfl
@[simp] theorem State.setPru_fcu (x : Pru) : (s.setPru x).fcu = s.fcu := rfl
@[simp] theorem State.setPru_dsu (x : Pru) : (s.setPru x).dsu = s.dsu := rfl
@[simp] theorem State.setPru_rpq (x : Pru) : (s.setPru x).rpq = s.rpq := rfl
@[simp] theorem State.setPru_sht (x : Pru) : (s.setPru x).sht = s.sht := rfl
@[simp] theorem State.setPru_cab (x : Pru) : (s.setPru x).cab = s.cab := rfl
@[simp] theorem State.setPru_spt (x : Pru) : (s.setPru x).spt = s.spt := rfl
@[simp] theorem State.setPru_alt (x : Pru) : (s.setPru x).alt = s.alt := rfl
@[simp] theorem State.setPru_cfg (x : Pru) : (s.setPru x).cfg = s.cfg := rfl
@[simp] theorem State.setPru_tmb (x : Pru) : (s.setPru x).tmb = s.tmb := rfl
@[simp] theorem State.setPru_out (x : Pru) : (s.setPru x).out = s.out := rfl
@[simp] theorem State.setPru_pending (x : Pru) : (s.setPru x).pending = s.pending := rfl
@[simp] theorem State.setFcu_reg (x : Fcu) : (s.setFcu x).reg = s.reg := rfl
@[simp] theorem State.setFcu_trc (x : Fcu) : (s.setFcu x).trc = s.trc := rfl
@[simp] theorem State.setFcu_pru (x : Fcu) : (s.setFcu x).pru = s.pru := rfl
@[simp] theorem State.setFcu_fcu (x : Fcu) : (s.setFcu x).fcu = x := rfl
@[simp] theorem State.setFcu_dsu (x : Fcu) : (s.setFcu x).dsu = s.dsu := rfl
@[simp] theorem State.setFcu_rpq (x : Fcu) : (s.setFcu x).rpq = s.rpq := rfl
@[simp] theorem State.setFcu_sht (x : Fcu) : (s.setFcu x).sht = s.sht := rfl
@[simp] theorem State.setFcu_cab (x : Fcu) : (s.setFcu x).cab = s.cab := rfl
@[simp] theorem State.setFcu_spt (x : Fcu) : (s.setFcu x).spt = s.spt := rfl
@[simp] theorem State.setFcu_alt (x : Fcu) : (s.setFcu x).alt = s.alt := rfl
@[simp] theorem State.setFcu_cfg (x : Fcu) : (s.setFcu x).cfg = s.cfg := rfl
@[simp] theorem State.setFcu_tmb (x : Fcu) : (s.setFcu x).tmb = s.tmb := rfl
@[simp] theorem State.setFcu_out (x : Fcu) : (s.setFcu x).out = s.out := rfl
@[simp] theorem State.setFcu_pending (x : Fcu) : (s.setFcu x).pending = s.pending := rfl
@[simp] theorem State.setDsu_reg (x : Two Survey) : (s.setDsu x).reg = s.reg := rfl
@[simp] theorem State.setDsu_trc (x : Two Survey) : (s.setDsu x).trc = s.trc := rfl
@[simp] theorem State.setDsu_pru (x : Two Survey) : (s.setDsu x).pru = s.pru := rfl
@[simp] theorem State.setDsu_fcu (x : Two Survey) : (s.setDsu x).fcu = s.fcu := rfl
@[simp] theorem State.setDsu_dsu (x : Two Survey) : (s.setDsu x).dsu = x := rfl
@[simp] theorem State.setDsu_rpq (x : Two Survey) : (s.setDsu x).rpq = s.rpq := rfl
@[simp] theorem State.setDsu_sht (x : Two Survey) : (s.setDsu x).sht = s.sht := rfl
@[simp] theorem State.setDsu_cab (x : Two Survey) : (s.setDsu x).cab = s.cab := rfl
@[simp] theorem State.setDsu_spt (x : Two Survey) : (s.setDsu x).spt = s.spt := rfl
@[simp] theorem State.setDsu_alt (x : Two Survey) : (s.setDsu x).alt = s.alt := rfl
@[simp] theorem State.setDsu_cfg (x : Two Survey) : (s.setDsu x).cfg = s.cfg := rfl
@[simp] theorem State.setDsu_tmb (x : Two Survey) : (s.setDsu x).tmb = s.tmb := rfl
@[simp] theorem State.setDsu_out (x : Two Survey) : (s.setDsu x).out = s.out := rfl
@[simp] theorem State.setDsu_pending (x : Two Survey) : (s.setDsu x).pending = s.pending := rfl
@[simp] theorem State.setRpq_reg (x : Rpq) : (s.setRpq x).reg = s.reg := rfl
@[simp] theorem State.setRpq_trc (x : Rpq) : (s.setRpq x).trc = s.trc := rfl
@[simp] theorem State.setRpq_pru (x : Rpq) : (s.setRpq x).pru = s.pru := rfl
@[simp] theorem State.setRpq_fcu (x : Rpq) : (s.setRpq x).fcu = s.fcu := rfl
@[simp] theorem State.setRpq_dsu (x : Rpq) : (s.setRpq x).dsu = s.dsu := rfl
@[simp] theorem State.setRpq_rpq (x : Rpq) : (s.setRpq x).rpq = x := rfl
@[simp] theorem State.setRpq_sht (x : Rpq) : (s.setRpq x).sht = s.sht := rfl
@[simp] theorem State.setRpq_cab (x : Rpq) : (s.setRpq x).cab = s.cab := rfl
@[simp] theorem State.setRpq_spt (x : Rpq) : (s.setRpq x).spt = s.spt := rfl
@[simp] theorem State.setRpq_alt (x : Rpq) : (s.setRpq x).alt = s.alt := rfl
@[simp] theorem State.setRpq_cfg (x : Rpq) : (s.setRpq x).cfg = s.cfg := rfl
@[simp] theorem State.setRpq_tmb (x : Rpq) : (s.setRpq x).tmb = s.tmb := rfl
@[simp] theorem State.setRpq_out (x : Rpq) : (s.setRpq x).out = s.out := rfl
@[simp] theorem State.setRpq_pending (x : Rpq) : (s.setRpq x).pending = s.pending := rfl
@[simp] theorem State.setSht_reg (x : Sht) : (s.setSht x).reg = s.reg := rfl
@[simp] theorem State.setSht_trc (x : Sht) : (s.setSht x).trc = s.trc := rfl
@[simp] theorem State.setSht_pru (x : Sht) : (s.setSht x).pru = s.pru := rfl
@[simp] theorem State.setSht_fcu (x : Sht) : (s.setSht x).fcu = s.fcu := rfl
@[simp] theorem State.setSht_dsu (x : Sht) : (s.setSht x).dsu = s.dsu := rfl
@[simp] theorem State.setSht_rpq (x : Sht) : (s.setSht x).rpq = s.rpq := rfl
@[simp] theorem State.setSht_sht (x : Sht) : (s.setSht x).sht = x := rfl
@[simp] theorem State.setSht_cab (x : Sht) : (s.setSht x).cab = s.cab := rfl
@[simp] theorem State.setSht_spt (x : Sht) : (s.setSht x).spt = s.spt := rfl
@[simp] theorem State.setSht_alt (x : Sht) : (s.setSht x).alt = s.alt := rfl
@[simp] theorem State.setSht_cfg (x : Sht) : (s.setSht x).cfg = s.cfg := rfl
@[simp] theorem State.setSht_tmb (x : Sht) : (s.setSht x).tmb = s.tmb := rfl
@[simp] theorem State.setSht_out (x : Sht) : (s.setSht x).out = s.out := rfl
@[simp] theorem State.setSht_pending (x : Sht) : (s.setSht x).pending = s.pending := rfl
@[simp] theorem State.setCab_reg (x : Cab) : (s.setCab x).reg = s.reg := rfl
@[simp] theorem State.setCab_trc (x : Cab) : (s.setCab x).trc = s.trc := rfl
@[simp] theorem State.setCab_pru (x : Cab) : (s.setCab x).pru = s.pru := rfl
@[simp] theorem State.setCab_fcu (x : Cab) : (s.setCab x).fcu = s.fcu := rfl
@[simp] theorem State.setCab_dsu (x : Cab) : (s.setCab x).dsu = s.dsu := rfl
@[simp] theorem State.setCab_rpq (x : Cab) : (s.setCab x).rpq = s.rpq := rfl
@[simp] theorem State.setCab_sht (x : Cab) : (s.setCab x).sht = s.sht := rfl
@[simp] theorem State.setCab_cab (x : Cab) : (s.setCab x).cab = x := rfl
@[simp] theorem State.setCab_spt (x : Cab) : (s.setCab x).spt = s.spt := rfl
@[simp] theorem State.setCab_alt (x : Cab) : (s.setCab x).alt = s.alt := rfl
@[simp] theorem State.setCab_cfg (x : Cab) : (s.setCab x).cfg = s.cfg := rfl
@[simp] theorem State.setCab_tmb (x : Cab) : (s.setCab x).tmb = s.tmb := rfl
@[simp] theorem State.setCab_out (x : Cab) : (s.setCab x).out = s.out := rfl
@[simp] theorem State.setCab_pending (x : Cab) : (s.setCab x).pending = s.pending := rfl
@[simp] theorem State.setSpt_reg (x : PerPort PortState) : (s.setSpt x).reg = s.reg := rfl
@[simp] theorem State.setSpt_trc (x : PerPort PortState) : (s.setSpt x).trc = s.trc := rfl
@[simp] theorem State.setSpt_pru (x : PerPort PortState) : (s.setSpt x).pru = s.pru := rfl
@[simp] theorem State.setSpt_fcu (x : PerPort PortState) : (s.setSpt x).fcu = s.fcu := rfl
@[simp] theorem State.setSpt_dsu (x : PerPort PortState) : (s.setSpt x).dsu = s.dsu := rfl
@[simp] theorem State.setSpt_rpq (x : PerPort PortState) : (s.setSpt x).rpq = s.rpq := rfl
@[simp] theorem State.setSpt_sht (x : PerPort PortState) : (s.setSpt x).sht = s.sht := rfl
@[simp] theorem State.setSpt_cab (x : PerPort PortState) : (s.setSpt x).cab = s.cab := rfl
@[simp] theorem State.setSpt_spt (x : PerPort PortState) : (s.setSpt x).spt = x := rfl
@[simp] theorem State.setSpt_alt (x : PerPort PortState) : (s.setSpt x).alt = s.alt := rfl
@[simp] theorem State.setSpt_cfg (x : PerPort PortState) : (s.setSpt x).cfg = s.cfg := rfl
@[simp] theorem State.setSpt_tmb (x : PerPort PortState) : (s.setSpt x).tmb = s.tmb := rfl
@[simp] theorem State.setSpt_out (x : PerPort PortState) : (s.setSpt x).out = s.out := rfl
@[simp] theorem State.setSpt_pending (x : PerPort PortState) : (s.setSpt x).pending = s.pending := rfl
@[simp] theorem State.setAlt_reg (x : PerPort AlertState) : (s.setAlt x).reg = s.reg := rfl
@[simp] theorem State.setAlt_trc (x : PerPort AlertState) : (s.setAlt x).trc = s.trc := rfl
@[simp] theorem State.setAlt_pru (x : PerPort AlertState) : (s.setAlt x).pru = s.pru := rfl
@[simp] theorem State.setAlt_fcu (x : PerPort AlertState) : (s.setAlt x).fcu = s.fcu := rfl
@[simp] theorem State.setAlt_dsu (x : PerPort AlertState) : (s.setAlt x).dsu = s.dsu := rfl
@[simp] theorem State.setAlt_rpq (x : PerPort AlertState) : (s.setAlt x).rpq = s.rpq := rfl
@[simp] theorem State.setAlt_sht (x : PerPort AlertState) : (s.setAlt x).sht = s.sht := rfl
@[simp] theorem State.setAlt_cab (x : PerPort AlertState) : (s.setAlt x).cab = s.cab := rfl
@[simp] theorem State.setAlt_spt (x : PerPort AlertState) : (s.setAlt x).spt = s.spt := rfl
@[simp] theorem State.setAlt_alt (x : PerPort AlertState) : (s.setAlt x).alt = x := rfl
@[simp] theorem State.setAlt_cfg (x : PerPort AlertState) : (s.setAlt x).cfg = s.cfg := rfl
@[simp] theorem State.setAlt_tmb (x : PerPort AlertState) : (s.setAlt x).tmb = s.tmb := rfl
@[simp] theorem State.setAlt_out (x : PerPort AlertState) : (s.setAlt x).out = s.out := rfl
@[simp] theorem State.setAlt_pending (x : PerPort AlertState) : (s.setAlt x).pending = s.pending := rfl
@[simp] theorem State.setCfg_reg (x : Cfg) : (s.setCfg x).reg = s.reg := rfl
@[simp] theorem State.setCfg_trc (x : Cfg) : (s.setCfg x).trc = s.trc := rfl
@[simp] theorem State.setCfg_pru (x : Cfg) : (s.setCfg x).pru = s.pru := rfl
@[simp] theorem State.setCfg_fcu (x : Cfg) : (s.setCfg x).fcu = s.fcu := rfl
@[simp] theorem State.setCfg_dsu (x : Cfg) : (s.setCfg x).dsu = s.dsu := rfl
@[simp] theorem State.setCfg_rpq (x : Cfg) : (s.setCfg x).rpq = s.rpq := rfl
@[simp] theorem State.setCfg_sht (x : Cfg) : (s.setCfg x).sht = s.sht := rfl
@[simp] theorem State.setCfg_cab (x : Cfg) : (s.setCfg x).cab = s.cab := rfl
@[simp] theorem State.setCfg_spt (x : Cfg) : (s.setCfg x).spt = s.spt := rfl
@[simp] theorem State.setCfg_alt (x : Cfg) : (s.setCfg x).alt = s.alt := rfl
@[simp] theorem State.setCfg_cfg (x : Cfg) : (s.setCfg x).cfg = x := rfl
@[simp] theorem State.setCfg_tmb (x : Cfg) : (s.setCfg x).tmb = s.tmb := rfl
@[simp] theorem State.setCfg_out (x : Cfg) : (s.setCfg x).out = s.out := rfl
@[simp] theorem State.setCfg_pending (x : Cfg) : (s.setCfg x).pending = s.pending := rfl
@[simp] theorem State.setTmb_reg (x : Tmb) : (s.setTmb x).reg = s.reg := rfl
@[simp] theorem State.setTmb_trc (x : Tmb) : (s.setTmb x).trc = s.trc := rfl
@[simp] theorem State.setTmb_pru (x : Tmb) : (s.setTmb x).pru = s.pru := rfl
@[simp] theorem State.setTmb_fcu (x : Tmb) : (s.setTmb x).fcu = s.fcu := rfl
@[simp] theorem State.setTmb_dsu (x : Tmb) : (s.setTmb x).dsu = s.dsu := rfl
@[simp] theorem State.setTmb_rpq (x : Tmb) : (s.setTmb x).rpq = s.rpq := rfl
@[simp] theorem State.setTmb_sht (x : Tmb) : (s.setTmb x).sht = s.sht := rfl
@[simp] theorem State.setTmb_cab (x : Tmb) : (s.setTmb x).cab = s.cab := rfl
@[simp] theorem State.setTmb_spt (x : Tmb) : (s.setTmb x).spt = s.spt := rfl
@[simp] theorem State.setTmb_alt (x : Tmb) : (s.setTmb x).alt = s.alt := rfl
@[simp] theorem State.setTmb_cfg (x : Tmb) : (s.setTmb x).cfg = s.cfg := rfl
@[simp] theorem State.setTmb_tmb (x : Tmb) : (s.setTmb x).tmb = x := rfl
@[simp] theorem State.setTmb_out (x : Tmb) : (s.setTmb x).out = s.out := rfl
@[simp] theorem State.setTmb_pending (x : Tmb) : (s.setTmb x).pending = s.pending := rfl
@[simp] theorem State.setOut_reg (x : Out) : (s.setOut x).reg = s.reg := rfl
@[simp] theorem State.setOut_trc (x : Out) : (s.setOut x).trc = s.trc := rfl
@[simp] theorem State.setOut_pru (x : Out) : (s.setOut x).pru = s.pru := rfl
@[simp] theorem State.setOut_fcu (x : Out) : (s.setOut x).fcu = s.fcu := rfl
@[simp] theorem State.setOut_dsu (x : Out) : (s.setOut x).dsu = s.dsu := rfl
@[simp] theorem State.setOut_rpq (x : Out) : (s.setOut x).rpq = s.rpq := rfl
@[simp] theorem State.setOut_sht (x : Out) : (s.setOut x).sht = s.sht := rfl
@[simp] theorem State.setOut_cab (x : Out) : (s.setOut x).cab = s.cab := rfl
@[simp] theorem State.setOut_spt (x : Out) : (s.setOut x).spt = s.spt := rfl
@[simp] theorem State.setOut_alt (x : Out) : (s.setOut x).alt = s.alt := rfl
@[simp] theorem State.setOut_cfg (x : Out) : (s.setOut x).cfg = s.cfg := rfl
@[simp] theorem State.setOut_tmb (x : Out) : (s.setOut x).tmb = s.tmb := rfl
@[simp] theorem State.setOut_out (x : Out) : (s.setOut x).out = x := rfl
@[simp] theorem State.setOut_pending (x : Out) : (s.setOut x).pending = s.pending := rfl
@[simp] theorem State.setPending_reg (x : List Instr) : (s.setPending x).reg = s.reg := rfl
@[simp] theorem State.setPending_trc (x : List Instr) : (s.setPending x).trc = s.trc := rfl
@[simp] theorem State.setPending_pru (x : List Instr) : (s.setPending x).pru = s.pru := rfl
@[simp] theorem State.setPending_fcu (x : List Instr) : (s.setPending x).fcu = s.fcu := rfl
@[simp] theorem State.setPending_dsu (x : List Instr) : (s.setPending x).dsu = s.dsu := rfl
@[simp] theorem State.setPending_rpq (x : List Instr) : (s.setPending x).rpq = s.rpq := rfl
@[simp] theorem State.setPending_sht (x : List Instr) : (s.setPending x).sht = s.sht := rfl
@[simp] theorem State.setPending_cab (x : List Instr) : (s.setPending x).cab = s.cab := rfl
@[simp] theorem State.setPending_spt (x : List Instr) : (s.setPending x).spt = s.spt := rfl
@[simp] theorem State.setPending_alt (x : List Instr) : (s.setPending x).alt = s.alt := rfl
@[simp] theorem State.setPending_cfg (x : List Instr) : (s.setPending x).cfg = s.cfg := rfl
@[simp] theorem State.setPending_tmb (x : List Instr) : (s.setPending x).tmb = s.tmb := rfl
@[simp] theorem State.setPending_out (x : List Instr) : (s.setPending x).out = s.out := rfl
@[simp] theorem State.setPending_pending (x : List Instr) : (s.setPending x).pending = x := rfl
@[simp] theorem State.modReel_reg (h : Nat) (f : Reel → Reel) : (s.modReel h f).reg = { s.reg with reels := s.reg.reels.modify h f } := rfl
@[simp] theorem State.modReel_trc (h : Nat) (f : Reel → Reel) : (s.modReel h f).trc = s.trc := rfl
@[simp] theorem State.modReel_pru (h : Nat) (f : Reel → Reel) : (s.modReel h f).pru = s.pru := rfl
@[simp] theorem State.modReel_fcu (h : Nat) (f : Reel → Reel) : (s.modReel h f).fcu = s.fcu := rfl
@[simp] theorem State.modReel_dsu (h : Nat) (f : Reel → Reel) : (s.modReel h f).dsu = s.dsu := rfl
@[simp] theorem State.modReel_rpq (h : Nat) (f : Reel → Reel) : (s.modReel h f).rpq = s.rpq := rfl
@[simp] theorem State.modReel_sht (h : Nat) (f : Reel → Reel) : (s.modReel h f).sht = s.sht := rfl
@[simp] theorem State.modReel_cab (h : Nat) (f : Reel → Reel) : (s.modReel h f).cab = s.cab := rfl
@[simp] theorem State.modReel_spt (h : Nat) (f : Reel → Reel) : (s.modReel h f).spt = s.spt := rfl
@[simp] theorem State.modReel_alt (h : Nat) (f : Reel → Reel) : (s.modReel h f).alt = s.alt := rfl
@[simp] theorem State.modReel_cfg (h : Nat) (f : Reel → Reel) : (s.modReel h f).cfg = s.cfg := rfl
@[simp] theorem State.modReel_tmb (h : Nat) (f : Reel → Reel) : (s.modReel h f).tmb = s.tmb := rfl
@[simp] theorem State.modReel_out (h : Nat) (f : Reel → Reel) : (s.modReel h f).out = s.out := rfl
@[simp] theorem State.modReel_pending (h : Nat) (f : Reel → Reel) : (s.modReel h f).pending = s.pending := rfl
@[simp] theorem State.setPort_reg (p : Port) (x : PortState) : (s.setPort p x).reg = s.reg := rfl
@[simp] theorem State.setPort_trc (p : Port) (x : PortState) : (s.setPort p x).trc = s.trc := rfl
@[simp] theorem State.setPort_pru (p : Port) (x : PortState) : (s.setPort p x).pru = s.pru := rfl
@[simp] theorem State.setPort_fcu (p : Port) (x : PortState) : (s.setPort p x).fcu = s.fcu := rfl
@[simp] theorem State.setPort_dsu (p : Port) (x : PortState) : (s.setPort p x).dsu = s.dsu := rfl
@[simp] theorem State.setPort_rpq (p : Port) (x : PortState) : (s.setPort p x).rpq = s.rpq := rfl
@[simp] theorem State.setPort_sht (p : Port) (x : PortState) : (s.setPort p x).sht = s.sht := rfl
@[simp] theorem State.setPort_cab (p : Port) (x : PortState) : (s.setPort p x).cab = s.cab := rfl
@[simp] theorem State.setPort_spt (p : Port) (x : PortState) : (s.setPort p x).spt = s.spt.set p x := rfl
@[simp] theorem State.setPort_alt (p : Port) (x : PortState) : (s.setPort p x).alt = s.alt := rfl
@[simp] theorem State.setPort_cfg (p : Port) (x : PortState) : (s.setPort p x).cfg = s.cfg := rfl
@[simp] theorem State.setPort_tmb (p : Port) (x : PortState) : (s.setPort p x).tmb = s.tmb := rfl
@[simp] theorem State.setPort_out (p : Port) (x : PortState) : (s.setPort p x).out = s.out := rfl
@[simp] theorem State.setPort_pending (p : Port) (x : PortState) : (s.setPort p x).pending = s.pending := rfl
@[simp] theorem State.send_reg (c : HeadCommand) : (s.send c).reg = s.reg := rfl
@[simp] theorem State.send_trc (c : HeadCommand) : (s.send c).trc = s.trc := rfl
@[simp] theorem State.send_pru (c : HeadCommand) : (s.send c).pru = s.pru := rfl
@[simp] theorem State.send_fcu (c : HeadCommand) : (s.send c).fcu = s.fcu := rfl
@[simp] theorem State.send_dsu (c : HeadCommand) : (s.send c).dsu = s.dsu := rfl
@[simp] theorem State.send_rpq (c : HeadCommand) : (s.send c).rpq = s.rpq := rfl
@[simp] theorem State.send_sht (c : HeadCommand) : (s.send c).sht = s.sht := rfl
@[simp] theorem State.send_cab (c : HeadCommand) : (s.send c).cab = s.cab := rfl
@[simp] theorem State.send_spt (c : HeadCommand) : (s.send c).spt = s.spt := rfl
@[simp] theorem State.send_alt (c : HeadCommand) : (s.send c).alt = s.alt := rfl
@[simp] theorem State.send_cfg (c : HeadCommand) : (s.send c).cfg = s.cfg := rfl
@[simp] theorem State.send_tmb (c : HeadCommand) : (s.send c).tmb = s.tmb := rfl
@[simp] theorem State.send_out (c : HeadCommand) : (s.send c).out = { s.out with head := s.out.head ++ [c] } := rfl
@[simp] theorem State.send_pending (c : HeadCommand) : (s.send c).pending = s.pending := rfl

end Sys2Proof.Machine
end

