-- ==== Sys2Proof/Laws/Kept.lean ====
section
/-! SUPPORT. One frame lemma for each operation: which parts of the state it can change.
`Kept l s t` says that only the parts in `l` may differ, and each lemma lets an operation be left out
of such a claim once the parts it writes are in `l`. -/

namespace Sys2Proof.Machine

variable {l : List Block} {s t u : State}

@[simp] theorem Kept.refl (l : List Block) (s : State) : Kept l s s := by
  intro b _; cases b <;> rfl

theorem Kept.trans (h : Kept l s t) (k : Kept l t u) : Kept l s u := by
  intro b hb
  have h := h b hb
  have k := k b hb
  cases b <;> exact Eq.trans k h

theorem Kept.symm (h : Kept l s t) : Kept l t s := by
  intro b hb
  have h := h b hb
  cases b <;> exact Eq.symm h

/-- A change that keeps every block outside `l` can be left out. -/
theorem Kept.iff_of (k : Kept l t u) : Kept l s u ↔ Kept l s t :=
  ⟨fun h => h.trans k.symm, fun h => h.trans k⟩

theorem Kept.mono {l' : List Block} (h : l' ⊆ l) (k : Kept l' s t) : Kept l s t := fun b hb => k b (fun c => hb (h c))

/-- A fold of changes, each of which keeps every block outside `l`. -/
@[simp] theorem kept_foldl {α : Type} (f : State → α → State) (h : ∀ u a, Kept l u (f u a)) (xs : List α) :
    Kept l s (xs.foldl f t) ↔ Kept l s t := Kept.iff_of (by
  induction xs generalizing t with
  | nil => simp
  | cons a r ih => exact (h t a).trans ih)

@[simp] theorem kept_setReg (h0 : Block.reg ∈ l) (x : Reg) :
    Kept l s (t.setReg x) ↔ Kept l s t :=
  Kept.iff_of (fun b hb => by cases b <;> first | rfl | exact absurd h0 hb)

@[simp] theorem kept_setTrc (h0 : Block.trc ∈ l) (x : Trc) :
    Kept l s (t.setTrc x) ↔ Kept l s t :=
  Kept.iff_of (fun b hb => by cases b <;> first | rfl | exact absurd h0 hb)

@[simp] theorem kept_setPru (h0 : Block.pru ∈ l) (x : Pru) :
    Kept l s (t.setPru x) ↔ Kept l s t :=
  Kept.iff_of (fun b hb => by cases b <;> first | rfl | exact absurd h0 hb)

@[simp] theorem kept_setFcu (h0 : Block.fcu ∈ l) (x : Fcu) :
    Kept l s (t.setFcu x) ↔ Kept l s t :=
  Kept.iff_of (fun b hb => by cases b <;> first | rfl | exact absurd h0 hb)

@[simp] theorem kept_setDsu (h0 : Block.dsu ∈ l) (x : Two Survey) :
    Kept l s (t.setDsu x) ↔ Kept l s t :=
  Kept.iff_of (fun b hb => by cases b <;> first | rfl | exact absurd h0 hb)

@[simp] theorem kept_setRpq (h0 : Block.rpq ∈ l) (x : Rpq) :
    Kept l s (t.setRpq x) ↔ Kept l s t :=
  Kept.iff_of (fun b hb => by cases b <;> first | rfl | exact absurd h0 hb)

@[simp] theorem kept_setSht (h0 : Block.sht ∈ l) (x : Sht) :
    Kept l s (t.setSht x) ↔ Kept l s t :=
  Kept.iff_of (fun b hb => by cases b <;> first | rfl | exact absurd h0 hb)

@[simp] theorem kept_setCab (h0 : Block.cab ∈ l) (x : Cab) :
    Kept l s (t.setCab x) ↔ Kept l s t :=
  Kept.iff_of (fun b hb => by cases b <;> first | rfl | exact absurd h0 hb)

@[simp] theorem kept_setSpt (h0 : Block.spt ∈ l) (x : PerPort PortState) :
    Kept l s (t.setSpt x) ↔ Kept l s t :=
  Kept.iff_of (fun b hb => by cases b <;> first | rfl | exact absurd h0 hb)

@[simp] theorem kept_setAlt (h0 : Block.alt ∈ l) (x : PerPort AlertState) :
    Kept l s (t.setAlt x) ↔ Kept l s t :=
  Kept.iff_of (fun b hb => by cases b <;> first | rfl | exact absurd h0 hb)

@[simp] theorem kept_setCfg (h0 : Block.cfg ∈ l) (x : Cfg) :
    Kept l s (t.setCfg x) ↔ Kept l s t :=
  Kept.iff_of (fun b hb => by cases b <;> first | rfl | exact absurd h0 hb)

@[simp] theorem kept_setTmb (h0 : Block.tmb ∈ l) (x : Tmb) :
    Kept l s (t.setTmb x) ↔ Kept l s t :=
  Kept.iff_of (fun b hb => by cases b <;> first | rfl | exact absurd h0 hb)

@[simp] theorem kept_setOut (h0 : Block.out ∈ l) (x : Out) :
    Kept l s (t.setOut x) ↔ Kept l s t :=
  Kept.iff_of (fun b hb => by cases b <;> first | rfl | exact absurd h0 hb)

@[simp] theorem kept_modReel (h0 : Block.reg ∈ l) (h : Nat) (f : Reel → Reel) :
    Kept l s (t.modReel h f) ↔ Kept l s t :=
  Kept.iff_of (by first | (simp [State.modReel, *]; done) | (simp only [State.modReel]; (repeat' split) <;> simp [*]))

@[simp] theorem kept_setPort (h0 : Block.spt ∈ l) (p : Port) (x : PortState) :
    Kept l s (t.setPort p x) ↔ Kept l s t :=
  Kept.iff_of (by first | (simp [State.setPort, *]; done) | (simp only [State.setPort]; (repeat' split) <;> simp [*]))

@[simp] theorem kept_send (h0 : Block.out ∈ l) (c : HeadCommand) :
    Kept l s (t.send c) ↔ Kept l s t :=
  Kept.iff_of (by first | (simp [State.send, *]; done) | (simp only [State.send]; (repeat' split) <;> simp [*]))

@[simp] theorem kept_raiseFor (h0 : Block.alt ∈ l) (p : Port) (e : Event) :
    Kept l s (raiseFor p e t) ↔ Kept l s t :=
  Kept.iff_of (by first | (simp [raiseFor, *]; done) | (simp only [raiseFor]; (repeat' split) <;> simp [*]))

@[simp] theorem kept_raiseAll (h0 : Block.alt ∈ l) (e : Event) :
    Kept l s (raiseAll e t) ↔ Kept l s t :=
  Kept.iff_of (by first | (simp [raiseAll, *]; done) | (simp only [raiseAll]; (repeat' split) <;> simp [*]))

@[simp] theorem kept_raise (h0 : Block.alt ∈ l) (e : Event) :
    Kept l s (raise e t) ↔ Kept l s t :=
  Kept.iff_of (by first | (simp [raise, *]; done) | (simp only [raise]; (repeat' split) <;> simp [*]))

@[simp] theorem kept_raiseIf (h0 : Block.alt ∈ l) (c : Bool) (e : Event) :
    Kept l s (raiseIf c e t) ↔ Kept l s t :=
  Kept.iff_of (by first | (simp [raiseIf, *]; done) | (simp only [raiseIf]; (repeat' split) <;> simp [*]))

@[simp] theorem kept_quiet (h0 : Block.out ∈ l) :
    Kept l s (quiet t) ↔ Kept l s t :=
  Kept.iff_of (by first | (simp [quiet, *]; done) | (simp only [quiet]; (repeat' split) <;> simp [*]))

@[simp] theorem kept_displace (h0 : Block.spt ∈ l) (h1 : Block.alt ∈ l) (p : Port) :
    Kept l s (displace p t) ↔ Kept l s t :=
  Kept.iff_of (by first | (simp [displace, *]; done) | (simp only [displace]; (repeat' split) <;> simp [*]))

@[simp] theorem kept_dropConfirmation (h0 : Block.reg ∈ l) (p : Port) :
    Kept l s (dropConfirmation p t) ↔ Kept l s t :=
  Kept.iff_of (by first | (simp [dropConfirmation, *]; done) | (simp only [dropConfirmation]; (repeat' split) <;> simp [*]))

@[simp] theorem kept_arrive (h0 : Block.reg ∈ l) (h1 : Block.spt ∈ l) (h2 : Block.alt ∈ l) (h3 : Block.out ∈ l) (p : Port) :
    Kept l s (arrive p t) ↔ Kept l s t :=
  Kept.iff_of (by first | (simp [arrive, *]; done) | (simp only [arrive]; (repeat' split) <;> simp [*]))

@[simp] theorem kept_answer (h0 : Block.spt ∈ l) (rq : Rq) (r : Reply) :
    Kept l s (answer rq r t) ↔ Kept l s t :=
  Kept.iff_of (by first | (simp [answer, *]; done) | (simp only [answer]; (repeat' split) <;> simp [*]))

@[simp] theorem kept_modShot (h0 : Block.sht ∈ l) (r : Nat) (f : Shot → Shot) :
    Kept l s (t.modShot r f) ↔ Kept l s t :=
  Kept.iff_of (by first | (simp [State.modShot, *]; done) | (simp only [State.modShot]; (repeat' split) <;> simp [*]))

@[simp] theorem kept_reopenShot (h0 : Block.sht ∈ l) (h1 : Block.alt ∈ l) (r : Nat) :
    Kept l s (reopenShot r t) ↔ Kept l s t :=
  Kept.iff_of (by first | (simp [reopenShot, *]; done) | (simp only [reopenShot]; (repeat' split) <;> simp [*]))

@[simp] theorem kept_reopenWhere (h0 : Block.sht ∈ l) (h1 : Block.alt ∈ l) (h : Nat) (c : Shot → Bool) :
    Kept l s (reopenWhere h c t) ↔ Kept l s t :=
  Kept.iff_of (by
    unfold reopenWhere
    rw [kept_foldl _ (by intro u a; split <;> simp [*])]
    simp)

@[simp] theorem kept_putShot (h0 : Block.sht ∈ l) (r : Nat) (x : Shot) :
    Kept l s (t.putShot r x) ↔ Kept l s t :=
  Kept.iff_of (by first | (simp [State.putShot, *]; done) | (simp only [State.putShot]; (repeat' split) <;> simp [*]))

@[simp] theorem kept_rescanAdd (h0 : Block.reg ∈ l) (h1 : Block.sht ∈ l) (h2 : Block.alt ∈ l) (h : Nat) (x : FrameRange) :
    Kept l s (rescanAdd h x t) ↔ Kept l s t :=
  Kept.iff_of (by first | (simp [rescanAdd, *]; done) | (simp only [rescanAdd]; (repeat' split) <;> simp [*]))

@[simp] theorem kept_frameRecorded (h0 : Block.reg ∈ l) (h1 : Block.sht ∈ l) (h2 : Block.alt ∈ l) (h f : Nat) (c : Bool) :
    Kept l s (frameRecorded h f c t) ↔ Kept l s t :=
  Kept.iff_of (by first | (simp [frameRecorded, *]; done) | (simp only [frameRecorded]; (repeat' split) <;> simp [*]))

@[simp] theorem kept_addLostArea (h0 : Block.reg ∈ l) (h a : Nat) :
    Kept l s (addLostArea h a t) ↔ Kept l s t :=
  Kept.iff_of (by first | (simp [addLostArea, *]; done) | (simp only [addLostArea]; (repeat' split) <;> simp [*]))

@[simp] theorem kept_occupy (h0 : Block.cab ∈ l) (p : Place) (o : Option Occupancy) :
    Kept l s (t.occupy p o) ↔ Kept l s t :=
  Kept.iff_of (by first | (simp [State.occupy, *]; done) | (simp only [State.occupy]; (repeat' split) <;> simp [*]))

@[simp] theorem kept_refreshCab (h0 : Block.cab ∈ l) (h1 : Block.alt ∈ l) :
    Kept l s (refreshCab t) ↔ Kept l s t :=
  Kept.iff_of (by first | (simp [refreshCab, *]; done) | (simp only [refreshCab]; (repeat' split) <;> simp [*]))

@[simp] theorem kept_createMoveIn (h0 : Block.cab ∈ l) (e h : Nat) (k : MoveKind) :
    Kept l s (createMoveIn e h k t) ↔ Kept l s t :=
  Kept.iff_of (by simp only [createMoveIn]; split <;> simp [*])

@[simp] theorem kept_createMove (h0 : Block.cab ∈ l) (h : Nat) (k : MoveKind) :
    Kept l s (createMove h k t) ↔ Kept l s t :=
  Kept.iff_of (by first | (simp [createMove, *]; done) | (simp only [createMove]; (repeat' split) <;> simp [*]))

@[simp] theorem kept_enterAuto (h0 : Block.cab ∈ l) (h1 : Block.alt ∈ l) (h : Nat) (k : MoveKind) :
    Kept l s (enterAuto h k t) ↔ Kept l s t :=
  Kept.iff_of (by first | (simp [enterAuto, *]; done) | (simp only [enterAuto]; (repeat' split) <;> simp [*]))

@[simp] theorem kept_autoMove (h0 : Block.cab ∈ l) (h1 : Block.alt ∈ l) (h : Nat) (k : MoveKind) :
    Kept l s (autoMove h k t) ↔ Kept l s t :=
  Kept.iff_of (by first | (simp [autoMove, *]; done) | (simp only [autoMove]; (repeat' split) <;> simp [*]))

@[simp] theorem kept_drainMarks (h0 : Block.cab ∈ l) (h1 : Block.alt ∈ l) (m : List LegDue) :
    Kept l s (drainMarks m t) ↔ Kept l s t :=
  Kept.iff_of (by
    induction m generalizing t with
    | nil => simp [drainMarks]
    | cons a r ih =>
      unfold drainMarks
      split
      · exact Kept.trans (by simp [*]) ih
      · simp)

@[simp] theorem kept_drain (h0 : Block.cab ∈ l) (h1 : Block.alt ∈ l) :
    Kept l s (drain t) ↔ Kept l s t :=
  Kept.iff_of (by first | (simp [drain, *]; done) | (simp only [drain]; (repeat' split) <;> simp [*]))

@[simp] theorem kept_relocationCheck (h0 : Block.reg ∈ l) (h1 : Block.cab ∈ l) (h2 : Block.alt ∈ l) (h : Nat) :
    Kept l s (relocationCheck h t) ↔ Kept l s t :=
  Kept.iff_of (by first | (simp [relocationCheck, *]; done) | (simp only [relocationCheck]; (repeat' split) <;> simp [*]))

@[simp] theorem kept_backToShelved (h0 : Block.reg ∈ l) (h1 : Block.cab ∈ l) (h2 : Block.alt ∈ l) (h : Nat) :
    Kept l s (backToShelved h t) ↔ Kept l s t :=
  Kept.iff_of (by first | (simp [backToShelved, *]; done) | (simp only [backToShelved]; (repeat' split) <;> simp [*]))

@[simp] theorem kept_moveDamage (h0 : Block.reg ∈ l) (h1 : Block.rpq ∈ l) (i : Nat) (st : DamageState) :
    Kept l s (moveDamage i st t) ↔ Kept l s t :=
  Kept.iff_of (by first | (simp [moveDamage, *]; done) | (simp only [moveDamage]; (repeat' split) <;> simp [*]))

@[simp] theorem kept_closeDamage (h0 : Block.reg ∈ l) (h1 : Block.rpq ∈ l) (o : DamageOutcome) (i : Nat) :
    Kept l s (closeDamage o t i) ↔ Kept l s t :=
  Kept.iff_of (by first | (simp [closeDamage, *]; done) | (simp only [closeDamage]; (repeat' split) <;> simp [*]))

@[simp] theorem kept_modDamage (h0 : Block.rpq ∈ l) (i : Nat) (f : Damage → Damage) :
    Kept l s (t.modDamage i f) ↔ Kept l s t :=
  Kept.iff_of (by first | (simp [State.modDamage, *]; done) | (simp only [State.modDamage]; (repeat' split) <;> simp [*]))

@[simp] theorem kept_releaseClaims (h0 : Block.reg ∈ l) (h1 : Block.rpq ∈ l) (h2 : Block.alt ∈ l) (p : Port) :
    Kept l s (releaseClaims p t) ↔ Kept l s t :=
  Kept.iff_of (by unfold releaseClaims; simp [*])

@[simp] theorem kept_freeDamage (h0 : Block.rpq ∈ l) (h : Nat) :
    Kept l s (freeDamage h t) ↔ Kept l s t :=
  Kept.iff_of (by first | (simp [freeDamage, *]; done) | (simp only [freeDamage]; (repeat' split) <;> simp [*]))

@[simp] theorem kept_breakChains (h0 : Block.rpq ∈ l) :
    Kept l s (breakChains t) ↔ Kept l s t :=
  Kept.iff_of (by first | (simp [breakChains, *]; done) | (simp only [breakChains]; (repeat' split) <;> simp [*]))

@[simp] theorem kept_withdrawRef (h0 : Block.reg ∈ l) (h1 : Block.rpq ∈ l) (r : DamageRef) :
    Kept l s (withdrawRef t r) ↔ Kept l s t :=
  Kept.iff_of (by first | (simp [withdrawRef, *]; done) | (simp only [withdrawRef]; (repeat' split) <;> simp [*]))

@[simp] theorem kept_promote (h0 : Block.reg ∈ l) (h1 : Block.rpq ∈ l) (h2 : Block.alt ∈ l) (x : Found) (r : List DamageRef) :
    Kept l s (promote x r t) ↔ Kept l s t :=
  Kept.iff_of (by unfold promote; simp [*])

@[simp] theorem kept_createDamage (h0 : Block.reg ∈ l) (h1 : Block.rpq ∈ l) (h2 : Block.sht ∈ l) (h3 : Block.alt ∈ l) (h k : Nat) (x : Found) :
    Kept l s ((createDamage h k x t).1) ↔ Kept l s t :=
  Kept.iff_of (by
    unfold createDamage allocDamage
    split
    · simp [*]
    · rename_i heq
      split at heq
      · cases heq; dsimp only; split <;> simp [*]
      · split at heq
        · cases heq
        · dsimp only at heq; split at heq <;> cases heq <;> dsimp only <;> split <;> simp [*])

@[simp] theorem kept_supersede (h0 : Block.reg ∈ l) (h1 : Block.rpq ∈ l) (h k : Nat) :
    Kept l s (supersede h k t) ↔ Kept l s t :=
  Kept.iff_of (by unfold supersede; simp [*])

@[simp] theorem kept_sendCapstan (h0 : Block.trc ∈ l) (h1 : Block.out ∈ l) (v : Int) :
    Kept l s (sendCapstan v t) ↔ Kept l s t :=
  Kept.iff_of (by first | (simp [sendCapstan, *]; done) | (simp only [sendCapstan]; (repeat' split) <;> simp [*]))

@[simp] theorem kept_sendLight (h0 : Block.trc ∈ l) (h1 : Block.out ∈ l) (v : Nat) :
    Kept l s (sendLight v t) ↔ Kept l s t :=
  Kept.iff_of (by first | (simp [sendLight, *]; done) | (simp only [sendLight]; (repeat' split) <;> simp [*]))

@[simp] theorem kept_refreshCapstan (h0 : Block.trc ∈ l) (h1 : Block.out ∈ l) :
    Kept l s (refreshCapstan t) ↔ Kept l s t :=
  Kept.iff_of (by first | (simp [refreshCapstan, *]; done) | (simp only [refreshCapstan]; (repeat' split) <;> simp [*]))

@[simp] theorem kept_refreshLight (h0 : Block.trc ∈ l) (h1 : Block.out ∈ l) :
    Kept l s (refreshLight t) ↔ Kept l s t :=
  Kept.iff_of (by first | (simp [refreshLight, *]; done) | (simp only [refreshLight]; (repeat' split) <;> simp [*]))

@[simp] theorem kept_enter (h0 : Block.trc ∈ l) (h1 : Block.pru ∈ l) (h2 : Block.out ∈ l) (st : TransportState) :
    Kept l s (enter st t) ↔ Kept l s t :=
  Kept.iff_of (by first | (simp [enter, *]; done) | (simp only [enter]; (repeat' split) <;> simp [*]))

@[simp] theorem kept_clearSplices (h0 : Block.trc ∈ l) :
    Kept l s (clearSplices t) ↔ Kept l s t :=
  Kept.iff_of (by first | (simp [clearSplices, *]; done) | (simp only [clearSplices]; (repeat' split) <;> simp [*]))

@[simp] theorem kept_addHold (h0 : Block.trc ∈ l) (h1 : Block.pru ∈ l) (h2 : Block.out ∈ l) (h3 : Block.alt ∈ l) (c : HoldCause) :
    Kept l s (addHold c t) ↔ Kept l s t :=
  Kept.iff_of (by first | (simp [addHold, *]; done) | (simp only [addHold]; (repeat' split) <;> simp [*]))

@[simp] theorem kept_startBackup (h0 : Block.trc ∈ l) (h1 : Block.pru ∈ l) (h2 : Block.out ∈ l) :
    Kept l s (startBackup t) ↔ Kept l s t :=
  Kept.iff_of (by first | (simp [startBackup, *]; done) | (simp only [startBackup]; (repeat' split) <;> simp [*]))

@[simp] theorem kept_removeHold (h0 : Block.trc ∈ l) (h1 : Block.pru ∈ l) (h2 : Block.out ∈ l) (c : HoldCause) :
    Kept l s (removeHold c t) ↔ Kept l s t :=
  Kept.iff_of (by first | (simp [removeHold, *]; done) | (simp only [removeHold]; (repeat' split) <;> simp [*]))

@[simp] theorem kept_testZones (h0 : Block.trc ∈ l) (h1 : Block.out ∈ l) :
    Kept l s (testZones t) ↔ Kept l s t :=
  Kept.iff_of (by first | (simp [testZones, *]; done) | (simp only [testZones]; (repeat' split) <;> simp [*]))

@[simp] theorem kept_headReport (h0 : Block.trc ∈ l) (h1 : Block.out ∈ l) :
    Kept l s (headReport t) ↔ Kept l s t :=
  Kept.iff_of (by first | (simp [headReport, *]; done) | (simp only [headReport]; (repeat' split) <;> simp [*]))

@[simp] theorem kept_makeLive (h0 : Block.pru ∈ l) (h1 : Block.alt ∈ l) (p : Pitch) :
    Kept l s (makeLive p t) ↔ Kept l s t :=
  Kept.iff_of (by first | (simp [makeLive, *]; done) | (simp only [makeLive]; (repeat' split) <;> simp [*]))

@[simp] theorem kept_endLines (h0 : Block.pru ∈ l) : Kept l s (endLines t) ↔ Kept l s t := kept_setPru h0 _

@[simp] theorem kept_placeExpectation (h0 : Block.pru ∈ l) :
    Kept l s (placeExpectation t) ↔ Kept l s t :=
  Kept.iff_of (by first | (simp [placeExpectation, *]; done) | (simp only [placeExpectation]; (repeat' split) <;> simp [*]))

@[simp] theorem kept_stepExpectation (h0 : Block.pru ∈ l) :
    Kept l s (stepExpectation t) ↔ Kept l s t :=
  Kept.iff_of (by first | (simp [stepExpectation, *]; done) | (simp only [stepExpectation]; (repeat' split) <;> simp [*]))

@[simp] theorem kept_unlock (h0 : Block.pru ∈ l) (h1 : Block.alt ∈ l) :
    Kept l s (unlock t) ↔ Kept l s t :=
  Kept.iff_of (by first | (simp [unlock, *]; done) | (simp only [unlock]; (repeat' split) <;> simp [*]))

@[simp] theorem kept_lockMeasured (h0 : Block.pru ∈ l) (h1 : Block.alt ∈ l) (e : Int) :
    Kept l s (lockMeasured e t) ↔ Kept l s t :=
  Kept.iff_of (by first | (simp [lockMeasured, *]; done) | (simp only [lockMeasured]; (repeat' split) <;> simp [*]))

@[simp] theorem kept_lockMissing (h0 : Block.pru ∈ l) (h1 : Block.alt ∈ l) (k : Nat) :
    Kept l s (lockMissing k t) ↔ Kept l s t :=
  Kept.iff_of (by first | (simp [lockMissing, *]; done) | (simp only [lockMissing]; (repeat' split) <;> simp [*]))

@[simp] theorem kept_anchorAt (h0 : Block.pru ∈ l) (m : Mark) :
    Kept l s (anchorAt m t) ↔ Kept l s t :=
  Kept.iff_of (by first | (simp [anchorAt, *]; done) | (simp only [anchorAt]; (repeat' split) <;> simp [*]))

@[simp] theorem kept_windowAnchor (h0 : Block.pru ∈ l) (m : Mark) :
    Kept l s (windowAnchor m t) ↔ Kept l s t :=
  Kept.iff_of (by first | (simp [windowAnchor, *]; done) | (simp only [windowAnchor]; (repeat' split) <;> simp [*]))

@[simp] theorem kept_reanchorAt (h0 : Block.pru ∈ l) (h1 : Block.alt ∈ l) (m : Mark) :
    Kept l s (reanchorAt m t) ↔ Kept l s t :=
  Kept.iff_of (by first | (simp [reanchorAt, *]; done) | (simp only [reanchorAt]; (repeat' split) <;> simp [*]))

@[simp] theorem kept_correction (h0 : Block.trc ∈ l) (h1 : Block.pru ∈ l) (h2 : Block.alt ∈ l) (h3 : Block.out ∈ l) (e p : Int) (k : Nat) :
    Kept l s (correction e p k t) ↔ Kept l s t :=
  Kept.iff_of (by first | (simp [correction, *]; done) | (simp only [correction]; (repeat' split) <;> simp [*]))

@[simp] theorem kept_adaptStep (h0 : Block.trc ∈ l) (h1 : Block.pru ∈ l) (h2 : Block.alt ∈ l) (h3 : Block.out ∈ l) (k : Nat) (e : Option (Int × Int)) :
    Kept l s (adaptStep k e t) ↔ Kept l s t :=
  Kept.iff_of (by first | (simp [adaptStep, *]; done) | (simp only [adaptStep]; (repeat' split) <;> simp [*]))

@[simp] theorem kept_applyCommit (h0 : Block.trc ∈ l) (h1 : Block.pru ∈ l) (h2 : Block.alt ∈ l) (h3 : Block.out ∈ l) (m : Option Mark) :
    Kept l s (applyCommit m t) ↔ Kept l s t :=
  Kept.iff_of (by first | (simp [applyCommit, *]; done) | (simp only [applyCommit]; (repeat' split) <;> simp [*]))

@[simp] theorem kept_applyPending (h0 : Block.trc ∈ l) (h1 : Block.pru ∈ l) (h2 : Block.alt ∈ l) (h3 : Block.out ∈ l) :
    Kept l s (applyPending t) ↔ Kept l s t :=
  Kept.iff_of (by first | (simp [applyPending, *]; done) | (simp only [applyPending]; (repeat' split) <;> simp [*]))

@[simp] theorem kept_enterThreaded (h0 : Block.trc ∈ l) (h1 : Block.pru ∈ l) (h2 : Block.alt ∈ l) (h3 : Block.out ∈ l) :
    Kept l s (enterThreaded t) ↔ Kept l s t :=
  Kept.iff_of (by first | (simp [enterThreaded, *]; done) | (simp only [enterThreaded]; (repeat' split) <;> simp [*]))

@[simp] theorem kept_stopRun (h0 : Block.trc ∈ l) (h1 : Block.pru ∈ l) (h2 : Block.alt ∈ l) (h3 : Block.out ∈ l) :
    Kept l s (stopRun t) ↔ Kept l s t :=
  Kept.iff_of (by first | (simp [stopRun, *]; done) | (simp only [stopRun]; (repeat' split) <;> simp [*]))

@[simp] theorem kept_splicePassage (h0 : Block.pru ∈ l) (h1 : Block.alt ∈ l) :
    Kept l s (splicePassage t) ↔ Kept l s t :=
  Kept.iff_of (by first | (simp [splicePassage, *]; done) | (simp only [splicePassage]; (repeat' split) <;> simp [*]))

@[simp] theorem kept_recordRegion (h0 : Block.reg ∈ l) (h1 : Block.rpq ∈ l) (h2 : Block.sht ∈ l) (h3 : Block.alt ∈ l) (h k : Nat) (x : Found) (c : Option (Nat × List DamageRef)) (a : FrameDamage × State) :
    Kept l s ((recordRegion h k x c a).2) ↔ Kept l s a.2 :=
  Kept.iff_of (by simp [recordRegion, *])

@[simp] theorem kept_takeRegion (h0 : Block.reg ∈ l) (h1 : Block.rpq ∈ l) (h2 : Block.sht ∈ l) (h3 : Block.alt ∈ l) (h k : Nat) (a : FrameDamage × State) (x : Found) :
    Kept l s ((takeRegion h k a x).2) ↔ Kept l s a.2 :=
  Kept.iff_of (by
    unfold takeRegion
    split
    · simp [*]
    · split
      · simp [*]
      · dsimp only; (repeat' split) <;> simp [*])

@[simp] theorem kept_recordDamage (h0 : Block.reg ∈ l) (h1 : Block.rpq ∈ l) (h2 : Block.sht ∈ l) (h3 : Block.alt ∈ l) (h k : Nat) (r m : Bool) (x : List Found) :
    Kept l s ((recordDamage h k r m x t).2) ↔ Kept l s t :=
  Kept.iff_of (by
    unfold recordDamage
    have hf : ∀ (xs : List Found) (a : FrameDamage × State), Kept l a.2 (xs.foldl (takeRegion h k) a).2 := by
      intro xs
      induction xs with
      | nil => simp
      | cons x xs ih => intro a; exact Kept.trans (by simp [*]) (ih _)
    simp [*]
    exact Kept.trans (by split <;> simp [*]) (hf _ _))

@[simp] theorem kept_takeFrame (h0 : Block.sht ∈ l) (h1 : Block.alt ∈ l) (c : CtxId) (h k : Nat) (d e f : Bool) :
    Kept l s ((takeFrame c h k d e f t).2) ↔ Kept l s t :=
  Kept.iff_of (by first | (simp [takeFrame, *]; done) | (simp only [takeFrame]; (repeat' split) <;> simp [*]))

@[simp] theorem kept_setCtx (h0 : Block.fcu ∈ l) (c : CtxId) (x : Option Ctx) :
    Kept l s (t.setCtx c x) ↔ Kept l s t :=
  Kept.iff_of (by first | (simp [State.setCtx, *]; done) | (simp only [State.setCtx]; (repeat' split) <;> simp [*]))

@[simp] theorem kept_appendRecord (h0 : Block.trc ∈ l) (h1 : Block.pru ∈ l) (h2 : Block.fcu ∈ l) (h3 : Block.alt ∈ l) (h4 : Block.out ∈ l) (x : FrameRecord) :
    Kept l s (appendRecord x t) ↔ Kept l s t :=
  Kept.iff_of (by first | (simp [appendRecord, *]; done) | (simp only [appendRecord]; (repeat' split) <;> simp [*]))

@[simp] theorem kept_surveyDone (h0 : Block.reg ∈ l) (h1 : Block.dsu ∈ l) (c : CtxId) (h : Nat) (b : Bool) :
    Kept l s (surveyDone c h b t) ↔ Kept l s t :=
  Kept.iff_of (by first | (simp [surveyDone, *]; done) | (simp only [surveyDone]; (repeat' split) <;> simp [*]))

@[simp] theorem kept_damageDone (h0 : Block.reg ∈ l) (h1 : Block.rpq ∈ l) (h2 : Block.sht ∈ l) (h3 : Block.alt ∈ l) (x : Ctx) (b r : Bool) (f : List Found) :
    Kept l s ((damageDone x b r f t).2) ↔ Kept l s t :=
  Kept.iff_of (by first | (simp [damageDone, *]; done) | (simp only [damageDone]; (repeat' split) <;> simp [*]))

@[simp] theorem kept_closeCtx (h0 : lineBlocks ⊆ l) (c : CtxId) (b : Bool) :
    Kept l s (closeCtx c b t) ↔ Kept l s t :=
  Kept.iff_of (Kept.mono h0 (by first | (simp [closeCtx]; done) | (simp only [closeCtx]; (repeat' split) <;> simp)))

@[simp] theorem kept_rescanThreaded (h0 : Block.reg ∈ l) (h1 : Block.sht ∈ l) (h2 : Block.alt ∈ l) (x : FrameRange) :
    Kept l s (rescanThreaded x t) ↔ Kept l s t :=
  Kept.iff_of (by first | (simp [rescanThreaded, *]; done) | (simp only [rescanThreaded]; (repeat' split) <;> simp [*]))

@[simp] theorem kept_openCtx (h0 : Block.fcu ∈ l) (h1 : Block.dsu ∈ l) (h2 : Block.sht ∈ l) (h3 : Block.out ∈ l) (c : CtxId) (x : LineReport) :
    Kept l s (openCtx c x t) ↔ Kept l s t :=
  Kept.iff_of (by first | (simp [openCtx, *]; done) | (simp only [openCtx]; (repeat' split) <;> simp [*]))

@[simp] theorem kept_captureLine (h0 : lineBlocks ⊆ l) (c : CtxId) (x : LineReport) :
    Kept l s (captureLine c x t) ↔ Kept l s t :=
  Kept.iff_of (Kept.mono h0 (by first | (simp [captureLine]; done) | (simp only [captureLine]; (repeat' split) <;> simp)))

@[simp] theorem kept_skipLine (h0 : Block.reg ∈ l) (h1 : Block.sht ∈ l) (h2 : Block.alt ∈ l) (h3 : Block.fcu ∈ l) (h4 : Block.rpq ∈ l) (k : Nat) :
    Kept l s (skipLine k t) ↔ Kept l s t :=
  Kept.iff_of (by first | (simp [skipLine, *]; done) | (simp only [skipLine]; (repeat' split) <;> simp [*]))

@[simp] theorem kept_seekingGap (h0 : Block.reg ∈ l) (h1 : Block.sht ∈ l) (h2 : Block.alt ∈ l) (x : LineReport) :
    Kept l s (seekingGap x t) ↔ Kept l s t :=
  Kept.iff_of (by first | (simp [seekingGap, *]; done) | (simp only [seekingGap]; (repeat' split) <;> simp [*]))

@[simp] theorem kept_frameLimit (h0 : Block.trc ∈ l) (h1 : Block.pru ∈ l) (h2 : Block.alt ∈ l) (h3 : Block.out ∈ l) (k : Nat) :
    Kept l s (frameLimit k t) ↔ Kept l s t :=
  Kept.iff_of (by first | (simp [frameLimit, *]; done) | (simp only [frameLimit]; (repeat' split) <;> simp [*]))

@[simp] theorem kept_takeLine (h0 : lineBlocks ⊆ l) (x : LineReport) :
    Kept l s (takeLine x t) ↔ Kept l s t :=
  Kept.iff_of (Kept.mono h0 (by first | (simp [takeLine]; done) | (simp only [takeLine]; (repeat' split) <;> simp)))

@[simp] theorem kept_rowInOrder (h0 : lineBlocks ⊆ l) (c : CtxId) (x : Ctx) (r : Nat) (ir v : List (BitVec 16)) :
    Kept l s (rowInOrder c x r ir v t) ↔ Kept l s t :=
  Kept.iff_of (Kept.mono h0 (by first | (simp [rowInOrder]; done) | (simp only [rowInOrder]; (repeat' split) <;> simp)))

@[simp] theorem kept_takeRowMessage (h0 : lineBlocks ⊆ l) (k r : Nat) (ir v : List (BitVec 16)) :
    Kept l s (takeRowMessage k r ir v t) ↔ Kept l s t :=
  Kept.iff_of (Kept.mono h0 (by first | (simp [takeRowMessage]; done) | (simp only [takeRowMessage]; (repeat' split) <;> simp)))

@[simp] theorem kept_abandonCtx (h0 : Block.reg ∈ l) (h1 : Block.sht ∈ l) (h2 : Block.alt ∈ l) (h3 : Block.fcu ∈ l) (h4 : Block.rpq ∈ l) (c : CtxId) :
    Kept l s (abandonCtx c t) ↔ Kept l s t :=
  Kept.iff_of (by first | (simp [abandonCtx, *]; done) | (simp only [abandonCtx]; (repeat' split) <;> simp [*]))

@[simp] theorem kept_enterFault (h0 : faultBlocks ⊆ l) (c : FaultCause) :
    Kept l s (enterFault c t) ↔ Kept l s t :=
  Kept.iff_of (Kept.mono h0 (by first | (simp [enterFault]; done) | (simp only [enterFault]; (repeat' split) <;> simp)))

@[simp] theorem kept_reportLine (h0 : lineBlocks ⊆ l) (m : Mark) (e : Option Int) (b : Bool) (f : Option Nat) :
    Kept l s (reportLine m e b f t) ↔ Kept l s t :=
  Kept.iff_of (Kept.mono h0 (by first | (simp [reportLine]; done) | (simp only [reportLine]; (repeat' split) <;> simp)))

@[simp] theorem kept_afterReport (h0 : Block.pru ∈ l) (k : Nat) :
    Kept l s (afterReport k t) ↔ Kept l s t :=
  Kept.iff_of (by first | (simp [afterReport, *]; done) | (simp only [afterReport]; (repeat' split) <;> simp [*]))

@[simp] theorem kept_commitAtLine (h0 : Block.trc ∈ l) (h1 : Block.pru ∈ l) (h2 : Block.alt ∈ l) (h3 : Block.out ∈ l) (m : Mark) :
    Kept l s ((commitAtLine m t).2) ↔ Kept l s t :=
  Kept.iff_of (by first | (simp [commitAtLine, *]; done) | (simp only [commitAtLine]; (repeat' split) <;> simp [*]))

@[simp] theorem kept_completeLine (h0 : lineBlocks ⊆ l) (k : Nat) (p : Int) (e : Option Int) :
    Kept l s (completeLine k p e t) ↔ Kept l s t :=
  Kept.iff_of (Kept.mono h0 (by first | (simp [completeLine]; done) | (simp only [completeLine]; (repeat' split) <;> simp)))

@[simp] theorem kept_seekingEdge (h0 : lineBlocks ⊆ l) (e : Int) :
    Kept l s (seekingEdge e t) ↔ Kept l s t :=
  Kept.iff_of (Kept.mono h0 (by first | (simp [seekingEdge]; done) | (simp only [seekingEdge]; (repeat' split) <;> simp)))

@[simp] theorem kept_declareMissing (h0 : lineBlocks ⊆ l) (n : Nat) (p : Int) :
    Kept l s (declareMissing n p t) ↔ Kept l s t :=
  Kept.iff_of (Kept.mono h0 (by
    induction n generalizing t with
    | zero => simp [declareMissing]
    | succ n ih =>
      unfold declareMissing
      split
      · simp
      · split
        · exact Kept.trans (by simp) ih
        · simp))

@[simp] theorem kept_strayEdge (h0 : Block.pru ∈ l) :
    Kept l s (strayEdge t) ↔ Kept l s t :=
  Kept.iff_of (by first | (simp [strayEdge, *]; done) | (simp only [strayEdge]; (repeat' split) <;> simp [*]))

@[simp] theorem kept_takeEdge (h0 : lineBlocks ⊆ l) (p : Int) :
    Kept l s (takeEdge p t) ↔ Kept l s t :=
  Kept.iff_of (Kept.mono h0 (by first | (simp [takeEdge]; done) | (simp only [takeEdge]; (repeat' split) <;> simp)))

@[simp] theorem kept_onePassage (h0 : Block.reg ∈ l) (h1 : Block.pru ∈ l) (h2 : Block.alt ∈ l) :
    Kept l s (onePassage t) ↔ Kept l s t :=
  Kept.iff_of (by first | (simp [onePassage, *]; done) | (simp only [onePassage]; (repeat' split) <;> simp [*]))

@[simp] theorem kept_takePassages (h0 : Block.trc ∈ l) (h1 : Block.reg ∈ l) (h2 : Block.pru ∈ l) (h3 : Block.alt ∈ l) (h4 : Block.out ∈ l) :
    Kept l s (takePassages t) ↔ Kept l s t :=
  Kept.iff_of (by first | (simp [takePassages, *]; done) | (simp only [takePassages]; (repeat' split) <;> simp [*]))

@[simp] theorem kept_resumeScanning (h0 : Block.trc ∈ l) (h1 : Block.pru ∈ l) (h2 : Block.out ∈ l) :
    Kept l s (resumeScanning t) ↔ Kept l s t :=
  Kept.iff_of (by first | (simp [resumeScanning, *]; done) | (simp only [resumeScanning]; (repeat' split) <;> simp [*]))

@[simp] theorem kept_takePosition (h0 : lineBlocks ⊆ l) (p : Int) :
    Kept l s (takePosition p t) ↔ Kept l s t :=
  Kept.iff_of (Kept.mono h0 (by first | (simp [takePosition]; done) | (simp only [takePosition]; (repeat' split) <;> simp)))

@[simp] theorem kept_takeFrameLine (h0 : lineBlocks ⊆ l) (p : Int) :
    Kept l s (takeFrameLine p t) ↔ Kept l s t :=
  Kept.iff_of (Kept.mono h0 (by first | (simp [takeFrameLine]; done) | (simp only [takeFrameLine]; (repeat' split) <;> simp)))

@[simp] theorem kept_putSetting (h0 : Block.cfg ∈ l) (i v : Nat) :
    Kept l s (t.putSetting i v) ↔ Kept l s t :=
  Kept.iff_of (by first | (simp [State.putSetting, *]; done) | (simp only [State.putSetting]; (repeat' split) <;> simp [*]))

@[simp] theorem kept_roleChanged (h0 : Block.reg ∈ l) (h1 : Block.rpq ∈ l) (h2 : Block.alt ∈ l) (p : Port) (o : Role) :
    Kept l s (roleChanged p o t) ↔ Kept l s t :=
  Kept.iff_of (by first | (simp [roleChanged, *]; done) | (simp only [roleChanged]; (repeat' split) <;> simp [*]))

@[simp] theorem kept_storeSetting (h0 : Block.reg ∈ l) (h1 : Block.trc ∈ l) (h2 : Block.rpq ∈ l) (h3 : Block.alt ∈ l) (h4 : Block.cfg ∈ l) (h5 : Block.out ∈ l) (i v : Nat) :
    Kept l s (storeSetting i v t) ↔ Kept l s t :=
  Kept.iff_of (by first | (simp [storeSetting, *]; done) | (simp only [storeSetting]; (repeat' split) <;> simp [*]))

@[simp] theorem kept_endPreload (h0 : Block.alt ∈ l) (h1 : Block.cfg ∈ l) (b : Bool) :
    Kept l s (endPreload b t) ↔ Kept l s t :=
  Kept.iff_of (by first | (simp [endPreload, *]; done) | (simp only [endPreload]; (repeat' split) <;> simp [*]))

@[simp] theorem kept_preloadStore (h0 : Block.reg ∈ l) (h1 : Block.trc ∈ l) (h2 : Block.rpq ∈ l) (h3 : Block.alt ∈ l) (h4 : Block.cfg ∈ l) (h5 : Block.out ∈ l) (r : SettingRow) (v : Nat) :
    Kept l s (preloadStore r v t) ↔ Kept l s t :=
  Kept.iff_of (by first | (simp [preloadStore, *]; done) | (simp only [preloadStore]; (repeat' split) <;> simp [*]))

@[simp] theorem kept_takePreloadValue (h0 : Block.reg ∈ l) (h1 : Block.trc ∈ l) (h2 : Block.rpq ∈ l) (h3 : Block.alt ∈ l) (h4 : Block.cfg ∈ l) (h5 : Block.out ∈ l) (o i v : Nat) :
    Kept l s (takePreloadValue o i v t) ↔ Kept l s t :=
  Kept.iff_of (by first | (simp [takePreloadValue, *]; done) | (simp only [takePreloadValue]; (repeat' split) <;> simp [*]))

@[simp] theorem kept_takeSpliceEdge (h0 : Block.trc ∈ l) (r : Bool) (p : Int) :
    Kept l s (takeSpliceEdge r p t) ↔ Kept l s t :=
  Kept.iff_of (by first | (simp [takeSpliceEdge, *]; done) | (simp only [takeSpliceEdge]; (repeat' split) <;> simp [*]))

@[simp] theorem kept_takeTension (h0 : faultBlocks ⊆ l) (g : Nat) :
    Kept l s (takeTension g t) ↔ Kept l s t :=
  Kept.iff_of (Kept.mono h0 (by first | (simp [takeTension]; done) | (simp only [takeTension]; (repeat' split) <;> simp)))

@[simp] theorem kept_heatActive (h0 : Block.trc ∈ l) (h1 : Block.pru ∈ l) (h2 : Block.alt ∈ l) (h3 : Block.out ∈ l) :
    Kept l s (heatActive t) ↔ Kept l s t :=
  Kept.iff_of (by first | (simp [heatActive, *]; done) | (simp only [heatActive]; (repeat' split) <;> simp [*]))

@[simp] theorem kept_heatClear (h0 : Block.trc ∈ l) (h1 : Block.pru ∈ l) (h2 : Block.out ∈ l) :
    Kept l s (heatClear t) ↔ Kept l s t :=
  Kept.iff_of (by first | (simp [heatClear, *]; done) | (simp only [heatClear]; (repeat' split) <;> simp [*]))

@[simp] theorem kept_takeGateTemp (h0 : Block.trc ∈ l) (h1 : Block.pru ∈ l) (h2 : Block.alt ∈ l) (h3 : Block.out ∈ l) (g : Nat) :
    Kept l s (takeGateTemp g t) ↔ Kept l s t :=
  Kept.iff_of (by first | (simp [takeGateTemp, *]; done) | (simp only [takeGateTemp]; (repeat' split) <;> simp [*]))

@[simp] theorem kept_setBayTimer (h0 : Block.cab ∈ l) (n : Nat) (x : BayTimer) :
    Kept l s (t.setBayTimer n x) ↔ Kept l s t :=
  Kept.iff_of (by first | (simp [State.setBayTimer, *]; done) | (simp only [State.setBayTimer]; (repeat' split) <;> simp [*]))

@[simp] theorem kept_askNextLeg (h0 : Block.cab ∈ l) (h1 : Block.alt ∈ l) (n : Nat) (k : MoveKind) :
    Kept l s (askNextLeg n k t) ↔ Kept l s t :=
  Kept.iff_of (by first | (simp [askNextLeg, *]; done) | (simp only [askNextLeg]; (repeat' split) <;> simp [*]))

@[simp] theorem kept_expireBay (h0 : Block.cab ∈ l) (h1 : Block.alt ∈ l) (n : Nat) :
    Kept l s (expireBay n t) ↔ Kept l s t :=
  Kept.iff_of (by first | (simp [expireBay, *]; done) | (simp only [expireBay]; (repeat' split) <;> simp [*]))

@[simp] theorem kept_setAlert (h0 : Block.alt ∈ l) (p : Port) (x : AlertState) :
    Kept l s (t.setAlert p x) ↔ Kept l s t :=
  Kept.iff_of (by first | (simp [State.setAlert, *]; done) | (simp only [State.setAlert]; (repeat' split) <;> simp [*]))

@[simp] theorem kept_admitReel (h0 : Block.reg ∈ l) (h1 : Block.sht ∈ l) (h2 : Block.cab ∈ l) (h3 : Block.alt ∈ l) (h r c : Nat) (g : Gauge) (a n : Nat) :
    Kept l s (admitReel h r c g a n t) ↔ Kept l s t :=
  Kept.iff_of (by first | (simp [admitReel, *]; done) | (simp only [admitReel]; (repeat' split) <;> simp [*]))

@[simp] theorem kept_circulate (h0 : Block.reg ∈ l) (h : Nat) (c : Circulation) :
    Kept l s (t.circulate h c) ↔ Kept l s t :=
  Kept.iff_of (by first | (simp [State.circulate, *]; done) | (simp only [State.circulate]; (repeat' split) <;> simp [*]))

@[simp] theorem kept_withdrawRelocation (h0 : Block.reg ∈ l) (h1 : Block.cab ∈ l) (h : Nat) :
    Kept l s (withdrawRelocation h t) ↔ Kept l s t :=
  Kept.iff_of (by first | (simp [withdrawRelocation, *]; done) | (simp only [withdrawRelocation]; (repeat' split) <;> simp [*]))

@[simp] theorem kept_createFetchOut (h0 : Block.reg ∈ l) (h1 : Block.cab ∈ l) (h : Nat) :
    Kept l s (createFetchOut h t) ↔ Kept l s t :=
  Kept.iff_of (by simp only [createFetchOut]; split <;> simp [*])

@[simp] theorem kept_requestReel (h0 : Block.reg ∈ l) (h1 : Block.cab ∈ l) (h2 : Block.alt ∈ l) (h : Nat) :
    Kept l s (requestReel h t) ↔ Kept l s t :=
  Kept.iff_of (by first | (simp [requestReel, *]; done) | (simp only [requestReel]; (repeat' split) <;> simp [*]))

@[simp] theorem kept_dispatchReel (h0 : Block.reg ∈ l) (h1 : Block.cab ∈ l) (h2 : Block.alt ∈ l) (h : Nat) :
    Kept l s (dispatchReel h t) ↔ Kept l s t :=
  Kept.iff_of (by first | (simp [dispatchReel, *]; done) | (simp only [dispatchReel]; (repeat' split) <;> simp [*]))

@[simp] theorem kept_voidClaim (h0 : Block.reg ∈ l) (h1 : Block.rpq ∈ l) (h2 : Block.alt ∈ l) (i : Nat) :
    Kept l s (voidClaim t i) ↔ Kept l s t :=
  Kept.iff_of (by first | (simp [voidClaim, *]; done) | (simp only [voidClaim]; (repeat' split) <;> simp [*]))

@[simp] theorem kept_withdrawWork (h0 : Block.reg ∈ l) (h1 : Block.rpq ∈ l) (h2 : Block.alt ∈ l) (h : Nat) :
    Kept l s (withdrawWork h t) ↔ Kept l s t :=
  Kept.iff_of (by first | (simp [withdrawWork, *]; done) | (simp only [withdrawWork]; (repeat' split) <;> simp [*]))

@[simp] theorem kept_threadPru (h0 : Block.pru ∈ l) (h1 : Block.alt ∈ l) (r : Reel) :
    Kept l s (threadPru r t) ↔ Kept l s t :=
  Kept.iff_of (by first | (simp [threadPru, *]; done) | (simp only [threadPru]; (repeat' split) <;> simp [*]))

@[simp] theorem kept_reelToTransport (h0 : Block.reg ∈ l) (h1 : Block.cab ∈ l) (h : Nat) (r : Reel) :
    Kept l s (reelToTransport h r t) ↔ Kept l s t :=
  Kept.iff_of (by first | (simp [reelToTransport, *]; done) | (simp only [reelToTransport]; (repeat' split) <;> simp [*]))

@[simp] theorem kept_threadReel (h0 : Block.reg ∈ l) (h1 : Block.cab ∈ l) (h2 : Block.trc ∈ l) (h3 : Block.pru ∈ l) (h4 : Block.rpq ∈ l) (h5 : Block.fcu ∈ l) (h6 : Block.sht ∈ l) (h7 : Block.alt ∈ l) (h8 : Block.out ∈ l) (h : Nat) (r : Reel) :
    Kept l s (threadReel h r t) ↔ Kept l s t :=
  Kept.iff_of (by first | (simp [threadReel, *]; done) | (simp only [threadReel]; (repeat' split) <;> simp [*]))

@[simp] theorem kept_reelToStaging (h0 : Block.reg ∈ l) (h1 : Block.cab ∈ l) (h n : Nat) (x : Option Nat) :
    Kept l s (reelToStaging h n x t) ↔ Kept l s t :=
  Kept.iff_of (by first | (simp [reelToStaging, *]; done) | (simp only [reelToStaging]; (repeat' split) <;> simp [*]))

@[simp] theorem kept_unthreadReel (h0 : Block.reg ∈ l) (h1 : Block.cab ∈ l) (h2 : Block.trc ∈ l) (h3 : Block.pru ∈ l) (h4 : Block.rpq ∈ l) (h5 : Block.sht ∈ l) (h6 : Block.alt ∈ l) (h7 : Block.out ∈ l) (n : Nat) :
    Kept l s (unthreadReel n t) ↔ Kept l s t :=
  Kept.iff_of (by first | (simp [unthreadReel, *]; done) | (simp only [unthreadReel]; (repeat' split) <;> simp [*]))

@[simp] theorem kept_setOriginAt (h0 : Block.pru ∈ l) (h1 : Block.rpq ∈ l) (h2 : Block.alt ∈ l) (e : Int) :
    Kept l s (setOriginAt e t) ↔ Kept l s t :=
  Kept.iff_of (by first | (simp [setOriginAt, *]; done) | (simp only [setOriginAt]; (repeat' split) <;> simp [*]))

@[simp] theorem kept_startInch (h0 : Block.trc ∈ l) (h1 : Block.pru ∈ l) (h2 : Block.out ∈ l) (d : Int) :
    Kept l s (startInch d t) ↔ Kept l s t :=
  Kept.iff_of (by first | (simp [startInch, *]; done) | (simp only [startInch]; (repeat' split) <;> simp [*]))

@[simp] theorem kept_startShuttle (h0 : Block.trc ∈ l) (h1 : Block.pru ∈ l) (h2 : Block.out ∈ l) (b : Bool) (v : Nat) :
    Kept l s (startShuttle b v t) ↔ Kept l s t :=
  Kept.iff_of (by first | (simp [startShuttle, *]; done) | (simp only [startShuttle]; (repeat' split) <;> simp [*]))

@[simp] theorem kept_startScan (h0 : Block.trc ∈ l) (h1 : Block.pru ∈ l) (h2 : Block.fcu ∈ l) (h3 : Block.sht ∈ l) (h4 : Block.out ∈ l) (p : Profile) (v : Nat) :
    Kept l s (startScan p v t) ↔ Kept l s t :=
  Kept.iff_of (by first | (simp [startScan, *]; done) | (simp only [startScan]; (repeat' split) <;> simp [*]))

@[simp] theorem kept_removeFrames (h0 : Block.trc ∈ l) (h1 : Block.pru ∈ l) (h2 : Block.fcu ∈ l) (h3 : Block.out ∈ l) (n : Nat) :
    Kept l s (removeFrames n t) ↔ Kept l s t :=
  Kept.iff_of (by first | (simp [removeFrames, *]; done) | (simp only [removeFrames]; (repeat' split) <;> simp [*]))

@[simp] theorem kept_completeRecord (h0 : Block.reg ∈ l) (h1 : Block.rpq ∈ l) (h2 : Block.sht ∈ l) (h3 : Block.alt ∈ l) (i : Nat) (d : Damage) (o : DamageOutcome) :
    Kept l s (completeRecord i d o t) ↔ Kept l s t :=
  Kept.iff_of (by first | (simp [completeRecord, *]; done) | (simp only [completeRecord]; (repeat' split) <;> simp [*]))

@[simp] theorem kept_mergeShots (h0 : Block.sht ∈ l) (n m : Nat) :
    Kept l s (mergeShots n m t) ↔ Kept l s t :=
  Kept.iff_of (by first | (simp [mergeShots, *]; done) | (simp only [mergeShots]; (repeat' split) <;> simp [*]))

@[simp] theorem kept_handOut (h0 : Block.reg ∈ l) (h1 : Block.cab ∈ l) (h2 : Block.alt ∈ l) (m : Move) (d : Place) :
    Kept l s (handOut m d t) ↔ Kept l s t :=
  Kept.iff_of (by first | (simp [handOut, *]; done) | (simp only [handOut]; (repeat' split) <;> simp [*]))

@[simp] theorem kept_freeReel (h0 : Block.reg ∈ l) (h1 : Block.sht ∈ l) (h2 : Block.rpq ∈ l) (h : Nat) :
    Kept l s (freeReel h t) ↔ Kept l s t :=
  Kept.iff_of (by first | (simp [freeReel, *]; done) | (simp only [freeReel]; (repeat' split) <;> simp [*]))

@[simp] theorem kept_startBay (h0 : Block.cab ∈ l) (n : Nat) (d : Direction) (m : Nat) :
    Kept l s (startBay n d m t) ↔ Kept l s t :=
  Kept.iff_of (by first | (simp [startBay, *]; done) | (simp only [startBay]; (repeat' split) <;> simp [*]))

@[simp] theorem kept_idleBay (h0 : Block.cab ∈ l) (p : Place) :
    Kept l s (idleBay p t) ↔ Kept l s t :=
  Kept.iff_of (by first | (simp [idleBay, *]; done) | (simp only [idleBay]; (repeat' split) <;> simp [*]))

@[simp] theorem kept_locate (h0 : Block.reg ∈ l) (h : Nat) (p : Place) :
    Kept l s (t.locate h p) ↔ Kept l s t :=
  Kept.iff_of (by first | (simp [State.locate, *]; done) | (simp only [State.locate]; (repeat' split) <;> simp [*]))

@[simp] theorem kept_home (h0 : Block.reg ∈ l) (h : Nat) (p : Place) :
    Kept l s (t.home h p) ↔ Kept l s t :=
  Kept.iff_of (by first | (simp [State.home, *]; done) | (simp only [State.home]; (repeat' split) <;> simp [*]))

@[simp] theorem kept_startOut (h0 : Block.cab ∈ l) (h : Nat) (d : Place) :
    Kept l s (startOut h d t) ↔ Kept l s t :=
  Kept.iff_of (by first | (simp [startOut, *]; done) | (simp only [startOut]; (repeat' split) <;> simp [*]))

@[simp] theorem kept_startIn (h0 : Block.cab ∈ l) (d : Place) :
    Kept l s (startIn d t) ↔ Kept l s t :=
  Kept.iff_of (by first | (simp [startIn, *]; done) | (simp only [startIn]; (repeat' split) <;> simp [*]))

@[simp] theorem kept_followUp (h0 : Block.reg ∈ l) (h1 : Block.cab ∈ l) (h2 : Block.alt ∈ l) (h3 : Block.sht ∈ l) (h4 : Block.rpq ∈ l) (m : Move) (d : Place) :
    Kept l s (followUp m d t) ↔ Kept l s t :=
  Kept.iff_of (by first | (simp [followUp, *]; done) | (simp only [followUp]; (repeat' split) <;> simp [*]))

@[simp] theorem kept_finishMove (h0 : Block.reg ∈ l) (h1 : Block.cab ∈ l) (h2 : Block.alt ∈ l) (h3 : Block.sht ∈ l) (h4 : Block.rpq ∈ l) (m : Move) (d : Place) :
    Kept l s (finishMove m d t) ↔ Kept l s t :=
  Kept.iff_of (by first | (simp [finishMove, *]; done) | (simp only [finishMove]; (repeat' split) <;> simp [*]))

@[simp] theorem kept_freeDest (h0 : Block.cab ∈ l) (d : Option Place) :
    Kept l s (freeDest d t) ↔ Kept l s t :=
  Kept.iff_of (by first | (simp [freeDest, *]; done) | (simp only [freeDest]; (repeat' split) <;> simp [*]))

@[simp] theorem kept_failMove (h0 : Block.reg ∈ l) (h1 : Block.cab ∈ l) (h2 : Block.alt ∈ l) (m : Move) :
    Kept l s (failMove m t) ↔ Kept l s t :=
  Kept.iff_of (by first | (simp [failMove, *]; done) | (simp only [failMove]; (repeat' split) <;> simp [*]))

@[simp] theorem kept_cancelMove (h0 : Block.reg ∈ l) (h1 : Block.cab ∈ l) (h2 : Block.alt ∈ l) (m : Move) :
    Kept l s (cancelMove m t) ↔ Kept l s t :=
  Kept.iff_of (by first | (simp [cancelMove, *]; done) | (simp only [cancelMove]; (repeat' split) <;> simp [*]))

/-- A request changes what its body changes, its port's response, overrun flag and confirmation, and alerts. -/
@[simp] theorem kept_serve (h0 : Block.reg ∈ l) (h1 : Block.spt ∈ l) (h2 : Block.alt ∈ l) (h3 : Block.out ∈ l) (rq : Rq)
    (n : Need) (b : Body) (hb : ∀ u, Kept l u (b u).1) : Kept l s (serve rq n b t) ↔ Kept l s t :=
  Kept.iff_of (by
    simp only [serve]
    split
    · simp [*]
    · split
      · simp [*]
      · exact Kept.trans (t := arrive rq.port t) (by simp [*])
          (Kept.trans (hb (arrive rq.port t)) (by simp [*])))

@[simp] theorem kept_refuse (st : Status) : Kept l s (refuse st t).1 ↔ Kept l s t := Iff.rfl

@[simp] theorem kept_withOperands {α : Type} (a : Option α) (b : α → Body) (hb : ∀ x u, Kept l u (b x u).1) :
    Kept l s (withOperands a b t).1 ↔ Kept l s t :=
  Kept.iff_of (by cases a <;> simp [withOperands, *])

@[simp] theorem kept_withReel (h : Nat) (f : Status) (b : Reel → Body) (hb : ∀ x u, Kept l u (b x u).1) :
    Kept l s (withReel h f b t).1 ↔ Kept l s t :=
  Kept.iff_of (by simp only [withReel]; (repeat' split) <;> simp [*])

@[simp] theorem kept_withShot (n : Nat) (b : Shot → Body) (hb : ∀ x u, Kept l u (b x u).1) :
    Kept l s (withShot n b t).1 ↔ Kept l s t :=
  Kept.iff_of (by simp only [withShot]; (repeat' split) <;> simp [*])

@[simp] theorem kept_withOpenShot (n : Nat) (b : Shot → Body) (hb : ∀ x u, Kept l u (b x u).1) :
    Kept l s (withOpenShot n b t).1 ↔ Kept l s t :=
  Kept.iff_of (by
    unfold withOpenShot
    rw [kept_withShot _ _ (by intro x u; split <;> simp [*])]
    simp)

@[simp] theorem kept_withMove (a : MoveArgs) (b : Move → Body) (hb : ∀ x u, Kept l u (b x u).1) :
    Kept l s (withMove a b t).1 ↔ Kept l s t :=
  Kept.iff_of (by simp only [withMove]; (repeat' split) <;> simp [*])

@[simp] theorem kept_readAlertsBody  (p : Port) :
    Kept l s ((readAlertsBody p t).1) ↔ Kept l s t :=
  Kept.iff_of (by first | (simp [readAlertsBody, *]; done) | (simp only [readAlertsBody]; (repeat' split) <;> simp [*]))

@[simp] theorem kept_ackAlertsBody (h0 : Block.alt ∈ l) (p : Port) (k : BitVec 32) :
    Kept l s ((ackAlertsBody p k t).1) ↔ Kept l s t :=
  Kept.iff_of (by first | (simp [ackAlertsBody, *]; done) | (simp only [ackAlertsBody]; (repeat' split) <;> simp [*]))

@[simp] theorem kept_setAlertMaskBody (h0 : Block.alt ∈ l) (p : Port) (k : BitVec 32) :
    Kept l s ((setAlertMaskBody p k t).1) ↔ Kept l s t :=
  Kept.iff_of (by first | (simp [setAlertMaskBody, *]; done) | (simp only [setAlertMaskBody]; (repeat' split) <;> simp [*]))

@[simp] theorem kept_getSettingBody  (i : Byte) :
    Kept l s ((getSettingBody i t).1) ↔ Kept l s t :=
  Kept.iff_of (by first | (simp [getSettingBody, *]; done) | (simp only [getSettingBody]; (repeat' split) <;> simp [*]))

@[simp] theorem kept_setSettingBody (h0 : Block.reg ∈ l) (h1 : Block.trc ∈ l) (h2 : Block.rpq ∈ l) (h3 : Block.alt ∈ l) (h4 : Block.cfg ∈ l) (h5 : Block.out ∈ l) (a : SettingArgs) :
    Kept l s ((setSettingBody a t).1) ↔ Kept l s t :=
  Kept.iff_of (by first | (simp [setSettingBody, *]; done) | (simp only [setSettingBody]; (repeat' split) <;> simp [*]))

@[simp] theorem kept_portResetBody (h0 : Block.reg ∈ l) (h1 : Block.rpq ∈ l) (h2 : Block.spt ∈ l) (h3 : Block.alt ∈ l) (p : Port) :
    Kept l s ((portResetBody p t).1) ↔ Kept l s t :=
  Kept.iff_of (by first | (simp [portResetBody, *]; done) | (simp only [portResetBody]; (repeat' split) <;> simp [*]))

@[simp] theorem kept_reelQueryBody  (h : Byte) :
    Kept l s ((reelQueryBody h t).1) ↔ Kept l s t :=
  Kept.iff_of (by
    unfold reelQueryBody
    rw [kept_withReel _ _ _ (by intro x u; (repeat' split) <;> simp [*])]
    simp)

@[simp] theorem kept_reelFindBody  (c : BitVec 24) :
    Kept l s ((reelFindBody c t).1) ↔ Kept l s t :=
  Kept.iff_of (by first | (simp [reelFindBody, *]; done) | (simp only [reelFindBody]; (repeat' split) <;> simp [*]))

@[simp] theorem kept_admitChecks (h0 : Block.reg ∈ l) (h1 : Block.sht ∈ l) (h2 : Block.cab ∈ l) (h3 : Block.alt ∈ l) (c : Nat) (g : Gauge) (a n : Nat) :
    Kept l s ((admitChecks c g a n t).1) ↔ Kept l s t :=
  Kept.iff_of (by first | (simp [admitChecks, *]; done) | (simp only [admitChecks]; (repeat' split) <;> simp [*]))

@[simp] theorem kept_admitBody (h0 : Block.reg ∈ l) (h1 : Block.sht ∈ l) (h2 : Block.cab ∈ l) (h3 : Block.alt ∈ l) (a : AdmitArgs) :
    Kept l s ((admitBody a t).1) ↔ Kept l s t :=
  Kept.iff_of (by first | (simp [admitBody, *]; done) | (simp only [admitBody]; (repeat' split) <;> simp [*]))

@[simp] theorem kept_setConditionBody (h0 : Block.reg ∈ l) (h1 : Block.cab ∈ l) (h2 : Block.alt ∈ l) (a : ConditionArgs) :
    Kept l s ((setConditionBody a t).1) ↔ Kept l s t :=
  Kept.iff_of (by
    unfold setConditionBody
    rw [kept_withReel _ _ _ (by intro x u; dsimp only; (repeat' split) <;> simp [*])]
    simp)

@[simp] theorem kept_requestBody (h0 : Block.reg ∈ l) (h1 : Block.cab ∈ l) (h2 : Block.alt ∈ l) (h : Byte) :
    Kept l s ((requestBody h t).1) ↔ Kept l s t :=
  Kept.iff_of (by
    unfold requestBody
    rw [kept_withReel _ _ _ (by intro x u; (repeat' split) <;> simp [*])]
    simp)

@[simp] theorem kept_cancelBody (h0 : Block.reg ∈ l) (h1 : Block.cab ∈ l) (h2 : Block.alt ∈ l) (h : Byte) :
    Kept l s ((cancelBody h t).1) ↔ Kept l s t :=
  Kept.iff_of (by
    unfold cancelBody
    rw [kept_withReel _ _ _ (by intro x u; (repeat' split) <;> simp [*])]
    simp)

@[simp] theorem kept_returnBody (h0 : Block.reg ∈ l) (h1 : Block.cab ∈ l) (h2 : Block.alt ∈ l) (h : Byte) :
    Kept l s ((returnBody h t).1) ↔ Kept l s t :=
  Kept.iff_of (by
    unfold returnBody
    rw [kept_withReel _ _ _ (by intro x u; (repeat' split) <;> simp [*])]
    simp)

@[simp] theorem kept_plainRelease (h0 : Block.reg ∈ l) (h1 : Block.cab ∈ l) (h2 : Block.alt ∈ l) (h : Nat) :
    Kept l s ((plainRelease h t).1) ↔ Kept l s t :=
  Kept.iff_of (by
    unfold plainRelease
    rw [kept_withReel _ _ _ (by intro x u; (repeat' split) <;> simp [*])]
    simp)

@[simp] theorem kept_forceRelease (h0 : Block.reg ∈ l) (h1 : Block.cab ∈ l) (h2 : Block.alt ∈ l) (h3 : Block.rpq ∈ l) (p : Port) (o : Option Confirmation) (h : Nat) :
    Kept l s ((forceRelease p o h t).1) ↔ Kept l s t :=
  Kept.iff_of (by
    unfold forceRelease
    rw [kept_withReel _ _ _ (by intro x u; (repeat' split) <;> simp [*])]
    simp)

@[simp] theorem kept_releaseBody (h0 : Block.reg ∈ l) (h1 : Block.cab ∈ l) (h2 : Block.alt ∈ l) (h3 : Block.rpq ∈ l) (p : Port) (o : Option Confirmation) (a : ReleaseArgs) :
    Kept l s ((releaseBody p o a t).1) ↔ Kept l s t :=
  Kept.iff_of (by first | (simp [releaseBody, *]; done) | (simp only [releaseBody]; (repeat' split) <;> simp [*]))

@[simp] theorem kept_threadBody (h0 : Block.reg ∈ l) (h1 : Block.cab ∈ l) (h2 : Block.trc ∈ l) (h3 : Block.pru ∈ l) (h4 : Block.rpq ∈ l) (h5 : Block.fcu ∈ l) (h6 : Block.sht ∈ l) (h7 : Block.alt ∈ l) (h8 : Block.out ∈ l) (h : Byte) :
    Kept l s ((threadBody h t).1) ↔ Kept l s t :=
  Kept.iff_of (by
    unfold threadBody
    rw [kept_withReel _ _ _ (by intro x u; (repeat' split) <;> simp [*])]
    simp)

@[simp] theorem kept_unthreadBody (h0 : Block.reg ∈ l) (h1 : Block.cab ∈ l) (h2 : Block.trc ∈ l) (h3 : Block.pru ∈ l) (h4 : Block.rpq ∈ l) (h5 : Block.sht ∈ l) (h6 : Block.alt ∈ l) (h7 : Block.out ∈ l) :
    Kept l s ((unthreadBody t).1) ↔ Kept l s t :=
  Kept.iff_of (by first | (simp [unthreadBody, *]; done) | (simp only [unthreadBody]; (repeat' split) <;> simp [*]))

@[simp] theorem kept_setOriginBody (h0 : Block.pru ∈ l) (h1 : Block.rpq ∈ l) (h2 : Block.alt ∈ l) :
    Kept l s ((setOriginBody t).1) ↔ Kept l s t :=
  Kept.iff_of (by first | (simp [setOriginBody, *]; done) | (simp only [setOriginBody]; (repeat' split) <;> simp [*]))

@[simp] theorem kept_inchBody (h0 : Block.trc ∈ l) (h1 : Block.pru ∈ l) (h2 : Block.out ∈ l) (d : BitVec 32) :
    Kept l s ((inchBody d t).1) ↔ Kept l s t :=
  Kept.iff_of (by first | (simp [inchBody, *]; done) | (simp only [inchBody]; (repeat' split) <;> simp [*]))

@[simp] theorem kept_shuttleBody (h0 : Block.trc ∈ l) (h1 : Block.pru ∈ l) (h2 : Block.out ∈ l) (a : ShuttleArgs) :
    Kept l s ((shuttleBody a t).1) ↔ Kept l s t :=
  Kept.iff_of (by first | (simp [shuttleBody, *]; done) | (simp only [shuttleBody]; (repeat' split) <;> simp [*]))

@[simp] theorem kept_scanBody (h0 : Block.trc ∈ l) (h1 : Block.pru ∈ l) (h2 : Block.fcu ∈ l) (h3 : Block.sht ∈ l) (h4 : Block.out ∈ l) (v : BitVec 16) :
    Kept l s ((scanBody v t).1) ↔ Kept l s t :=
  Kept.iff_of (by first | (simp [scanBody, *]; done) | (simp only [scanBody]; (repeat' split) <;> simp [*]))

@[simp] theorem kept_pauseBody (h0 : Block.trc ∈ l) (h1 : Block.pru ∈ l) (h2 : Block.alt ∈ l) (h3 : Block.out ∈ l) :
    Kept l s ((pauseBody t).1) ↔ Kept l s t :=
  Kept.iff_of (by first | (simp [pauseBody, *]; done) | (simp only [pauseBody]; (repeat' split) <;> simp [*]))

@[simp] theorem kept_resumeBody (h0 : Block.trc ∈ l) (h1 : Block.pru ∈ l) (h2 : Block.out ∈ l) :
    Kept l s ((resumeBody t).1) ↔ Kept l s t :=
  Kept.iff_of (by first | (simp [resumeBody, *]; done) | (simp only [resumeBody]; (repeat' split) <;> simp [*]))

@[simp] theorem kept_stopBody (h0 : Block.trc ∈ l) (h1 : Block.pru ∈ l) (h2 : Block.alt ∈ l) (h3 : Block.out ∈ l) :
    Kept l s ((stopBody t).1) ↔ Kept l s t :=
  Kept.iff_of (by first | (simp [stopBody, *]; done) | (simp only [stopBody]; (repeat' split) <;> simp [*]))

@[simp] theorem kept_clearFaultBody (h0 : Block.trc ∈ l) (h1 : Block.pru ∈ l) (h2 : Block.alt ∈ l) (h3 : Block.out ∈ l) :
    Kept l s ((clearFaultBody t).1) ↔ Kept l s t :=
  Kept.iff_of (by first | (simp [clearFaultBody, *]; done) | (simp only [clearFaultBody]; (repeat' split) <;> simp [*]))

@[simp] theorem kept_stagePitchBody (h0 : Block.pru ∈ l) (a : PitchArgs) :
    Kept l s ((stagePitchBody a t).1) ↔ Kept l s t :=
  Kept.iff_of (by first | (simp [stagePitchBody, *]; done) | (simp only [stagePitchBody]; (repeat' split) <;> simp [*]))

@[simp] theorem kept_stageRegBody (h0 : Block.pru ∈ l) (a : RegArgs) :
    Kept l s ((stageRegBody a t).1) ↔ Kept l s t :=
  Kept.iff_of (by first | (simp [stageRegBody, *]; done) | (simp only [stageRegBody]; (repeat' split) <;> simp [*]))

@[simp] theorem kept_commitBody (h0 : Block.trc ∈ l) (h1 : Block.pru ∈ l) (h2 : Block.alt ∈ l) (h3 : Block.out ∈ l) :
    Kept l s ((commitBody t).1) ↔ Kept l s t :=
  Kept.iff_of (by first | (simp [commitBody, *]; done) | (simp only [commitBody]; (repeat' split) <;> simp [*]))

@[simp] theorem kept_readPitchBody  :
    Kept l s ((readPitchBody t).1) ↔ Kept l s t :=
  Kept.iff_of (by first | (simp [readPitchBody, *]; done) | (simp only [readPitchBody]; (repeat' split) <;> simp [*]))

@[simp] theorem kept_readFramesBody (h0 : Block.trc ∈ l) (h1 : Block.pru ∈ l) (h2 : Block.fcu ∈ l) (h3 : Block.out ∈ l) (n : Byte) :
    Kept l s ((readFramesBody n t).1) ↔ Kept l s t :=
  Kept.iff_of (by first | (simp [readFramesBody, *]; done) | (simp only [readFramesBody]; (repeat' split) <;> simp [*]))

@[simp] theorem kept_clearGateBody (h0 : Block.rpq ∈ l) :
    Kept l s ((clearGateBody t).1) ↔ Kept l s t :=
  Kept.iff_of (by first | (simp [clearGateBody, *]; done) | (simp only [clearGateBody]; (repeat' split) <;> simp [*]))

@[simp] theorem kept_transportStatusBody  :
    Kept l s ((transportStatusBody t).1) ↔ Kept l s t :=
  Kept.iff_of (by first | (simp [transportStatusBody, *]; done) | (simp only [transportStatusBody]; (repeat' split) <;> simp [*]))

@[simp] theorem kept_claimFirst (h0 : Block.reg ∈ l) (h1 : Block.rpq ∈ l) (p : Port) (c : Damage → Bool) :
    Kept l s ((claimFirst p c t).1) ↔ Kept l s t :=
  Kept.iff_of (by first | (simp [claimFirst, *]; done) | (simp only [claimFirst]; (repeat' split) <;> simp [*]))

@[simp] theorem kept_claimNextBody (h0 : Block.reg ∈ l) (h1 : Block.rpq ∈ l) (h2 : Block.alt ∈ l) (p : Port) (h : Byte) :
    Kept l s ((claimNextBody p h t).1) ↔ Kept l s t :=
  Kept.iff_of (by first | (simp [claimNextBody, *]; done) | (simp only [claimNextBody]; (repeat' split) <;> simp [*]))

@[simp] theorem kept_completeBody (h0 : Block.reg ∈ l) (h1 : Block.rpq ∈ l) (h2 : Block.sht ∈ l) (h3 : Block.alt ∈ l) (p : Port) (a : CompleteArgs) :
    Kept l s ((completeBody p a t).1) ↔ Kept l s t :=
  Kept.iff_of (by first | (simp [completeBody, *]; done) | (simp only [completeBody]; (repeat' split) <;> simp [*]))

@[simp] theorem kept_releaseClaimBody (h0 : Block.reg ∈ l) (h1 : Block.rpq ∈ l) (h2 : Block.alt ∈ l) (p : Port) (a : ClaimArgs) :
    Kept l s ((releaseClaimBody p a t).1) ↔ Kept l s t :=
  Kept.iff_of (by first | (simp [releaseClaimBody, *]; done) | (simp only [releaseClaimBody]; (repeat' split) <;> simp [*]))

@[simp] theorem kept_releaseAllBody (h0 : Block.reg ∈ l) (h1 : Block.rpq ∈ l) (h2 : Block.alt ∈ l) (p : Port) :
    Kept l s ((releaseAllBody p t).1) ↔ Kept l s t :=
  Kept.iff_of (by first | (simp [releaseAllBody, *]; done) | (simp only [releaseAllBody]; (repeat' split) <;> simp [*]))

@[simp] theorem kept_damageListBody  (a : DamageListArgs) :
    Kept l s ((damageListBody a t).1) ↔ Kept l s t :=
  Kept.iff_of (by
    unfold damageListBody
    rw [kept_withReel _ _ _ (by intro x u; dsimp only; (repeat' split) <;> simp [*])]
    simp)

@[simp] theorem kept_rescanAddBody (h0 : Block.reg ∈ l) (h1 : Block.sht ∈ l) (h2 : Block.alt ∈ l) (a : RescanArgs) :
    Kept l s ((rescanAddBody a t).1) ↔ Kept l s t :=
  Kept.iff_of (by
    unfold rescanAddBody
    rw [kept_withReel _ _ _ (by intro x u; (repeat' split) <;> simp [*])]
    simp)

@[simp] theorem kept_shotListBody  (a : ShotListArgs) :
    Kept l s ((shotListBody a t).1) ↔ Kept l s t :=
  Kept.iff_of (by
    unfold shotListBody
    rw [kept_withReel _ _ _ (by intro x u; (repeat' split) <;> simp [*])]
    simp)

@[simp] theorem kept_setBaseBody (h0 : Block.reg ∈ l) (a : BaseArgs) :
    Kept l s ((setBaseBody a t).1) ↔ Kept l s t :=
  Kept.iff_of (by
    unfold setBaseBody
    rw [kept_withReel _ _ _ (by intro x u; (repeat' split) <;> simp [*])]
    simp)

@[simp] theorem kept_pushLayerBody (h0 : Block.sht ∈ l) (a : PushArgs) :
    Kept l s ((pushLayerBody a t).1) ↔ Kept l s t :=
  Kept.iff_of (by
    unfold pushLayerBody
    rw [kept_withOpenShot _ _ (by intro x u; (repeat' split) <;> simp [*])]
    simp)

@[simp] theorem kept_popLayerBody (h0 : Block.sht ∈ l) (n : BitVec 16) :
    Kept l s ((popLayerBody n t).1) ↔ Kept l s t :=
  Kept.iff_of (by
    unfold popLayerBody
    rw [kept_withOpenShot _ _ (by intro x u; (repeat' split) <;> simp [*])]
    simp)

@[simp] theorem kept_setLayerBody (h0 : Block.sht ∈ l) (a : SetLayerArgs) :
    Kept l s ((setLayerBody a t).1) ↔ Kept l s t :=
  Kept.iff_of (by
    unfold setLayerBody
    split
    · simp
    · rw [kept_withOpenShot _ _ (by intro x u; (repeat' split) <;> simp [*])]
      simp)

@[simp] theorem kept_setFlickerBody (h0 : Block.sht ∈ l) (a : FlickerArgs) :
    Kept l s ((setFlickerBody a t).1) ↔ Kept l s t :=
  Kept.iff_of (by
    unfold setFlickerBody
    split
    · simp
    · rw [kept_withOpenShot _ _ (by intro x u; (repeat' split) <;> simp [*])]
      simp)

@[simp] theorem kept_splitBody (h0 : Block.sht ∈ l) (a : SplitArgs) :
    Kept l s ((splitBody a t).1) ↔ Kept l s t :=
  Kept.iff_of (by
    unfold splitBody
    rw [kept_withOpenShot _ _ (by intro x u; (repeat' split) <;> simp [*])]
    simp)

@[simp] theorem kept_mergeBody (h0 : Block.sht ∈ l) (n : BitVec 16) :
    Kept l s ((mergeBody n t).1) ↔ Kept l s t :=
  Kept.iff_of (by
    unfold mergeBody
    rw [kept_withOpenShot _ _ (by intro x u; (repeat' split) <;> simp [*])]
    simp)

@[simp] theorem kept_approveBody (h0 : Block.sht ∈ l) (n : BitVec 16) :
    Kept l s ((approveBody n t).1) ↔ Kept l s t :=
  Kept.iff_of (by
    unfold approveBody
    rw [kept_withShot _ _ (by intro x u; (repeat' split) <;> simp [*])]
    simp)

@[simp] theorem kept_reopenBody (h0 : Block.sht ∈ l) (n : BitVec 16) :
    Kept l s ((reopenBody n t).1) ↔ Kept l s t :=
  Kept.iff_of (by
    unfold reopenBody
    rw [kept_withShot _ _ (by intro x u; (repeat' split) <;> simp [*])]
    simp)

@[simp] theorem kept_gradeQueryBody  (a : GradeQueryArgs) :
    Kept l s ((gradeQueryBody a t).1) ↔ Kept l s t :=
  Kept.iff_of (by
    unfold gradeQueryBody
    rw [kept_withReel _ _ _ (by intro x u; (repeat' split) <;> simp [*])]
    simp)

@[simp] theorem kept_takeMoveBody (h0 : Block.reg ∈ l) (h1 : Block.cab ∈ l) (h2 : Block.alt ∈ l) :
    Kept l s ((takeMoveBody t).1) ↔ Kept l s t :=
  Kept.iff_of (by first | (simp [takeMoveBody, *]; done) | (simp only [takeMoveBody]; (repeat' split) <;> simp [*]))

@[simp] theorem kept_moveDoneBody (h0 : Block.reg ∈ l) (h1 : Block.cab ∈ l) (h2 : Block.alt ∈ l) (h3 : Block.sht ∈ l) (h4 : Block.rpq ∈ l) :
    Kept l s ((moveDoneBody t).1) ↔ Kept l s t :=
  Kept.iff_of (by first | (simp [moveDoneBody, *]; done) | (simp only [moveDoneBody]; (repeat' split) <;> simp [*]))

@[simp] theorem kept_moveFailedBody (h0 : Block.reg ∈ l) (h1 : Block.cab ∈ l) (h2 : Block.alt ∈ l) :
    Kept l s ((moveFailedBody t).1) ↔ Kept l s t :=
  Kept.iff_of (by first | (simp [moveFailedBody, *]; done) | (simp only [moveFailedBody]; (repeat' split) <;> simp [*]))

@[simp] theorem kept_retryBody (h0 : Block.cab ∈ l) (h1 : Block.alt ∈ l) (a : MoveArgs) :
    Kept l s ((retryBody a t).1) ↔ Kept l s t :=
  Kept.iff_of (by
    unfold retryBody
    rw [kept_withMove _ _ (by intro x u; (repeat' split) <;> simp [*])]
    simp)

@[simp] theorem kept_cancelMoveBody (h0 : Block.reg ∈ l) (h1 : Block.cab ∈ l) (h2 : Block.alt ∈ l) (a : MoveArgs) :
    Kept l s ((cancelMoveBody a t).1) ↔ Kept l s t :=
  Kept.iff_of (by
    unfold cancelMoveBody
    rw [kept_withMove _ _ (by intro x u; (repeat' split) <;> simp [*])]
    simp)

@[simp] theorem kept_bayClimateBody (h0 : Block.cab ∈ l) (v : Byte) :
    Kept l s ((bayClimateBody v t).1) ↔ Kept l s t :=
  Kept.iff_of (by first | (simp [bayClimateBody, *]; done) | (simp only [bayClimateBody]; (repeat' split) <;> simp [*]))

@[simp] theorem kept_positionsBody  (a : PositionsArgs) :
    Kept l s ((positionsBody a t).1) ↔ Kept l s t :=
  Kept.iff_of (by first | (simp [positionsBody, *]; done) | (simp only [positionsBody]; (repeat' split) <;> simp [*]))

@[simp] theorem kept_moveListBody  :
    Kept l s ((moveListBody t).1) ↔ Kept l s t :=
  Kept.iff_of (by first | (simp [moveListBody, *]; done) | (simp only [moveListBody]; (repeat' split) <;> simp [*]))

end Sys2Proof.Machine
end

