-- ==== Sys2Proof/Laws/Fields.lean ====
section
/-! SUPPORT. What each shared operation leaves as it was, one lemma for each operation and block: read off the frame lemmas
of Laws/Kept.lean, for simp. -/

namespace Sys2Proof.Machine

variable {t : State}

@[simp] theorem modReel_trc (h : Nat) (f : Reel → Reel) : (t.modReel h f).trc = t.trc :=
  ((kept_modReel (l := [.reg]) (by simp) h f).mpr (.refl _ t)) .trc (by simp)
@[simp] theorem modReel_pru (h : Nat) (f : Reel → Reel) : (t.modReel h f).pru = t.pru :=
  ((kept_modReel (l := [.reg]) (by simp) h f).mpr (.refl _ t)) .pru (by simp)
@[simp] theorem modReel_fcu (h : Nat) (f : Reel → Reel) : (t.modReel h f).fcu = t.fcu :=
  ((kept_modReel (l := [.reg]) (by simp) h f).mpr (.refl _ t)) .fcu (by simp)
@[simp] theorem modReel_dsu (h : Nat) (f : Reel → Reel) : (t.modReel h f).dsu = t.dsu :=
  ((kept_modReel (l := [.reg]) (by simp) h f).mpr (.refl _ t)) .dsu (by simp)
@[simp] theorem modReel_rpq (h : Nat) (f : Reel → Reel) : (t.modReel h f).rpq = t.rpq :=
  ((kept_modReel (l := [.reg]) (by simp) h f).mpr (.refl _ t)) .rpq (by simp)
@[simp] theorem modReel_sht (h : Nat) (f : Reel → Reel) : (t.modReel h f).sht = t.sht :=
  ((kept_modReel (l := [.reg]) (by simp) h f).mpr (.refl _ t)) .sht (by simp)
@[simp] theorem modReel_cab (h : Nat) (f : Reel → Reel) : (t.modReel h f).cab = t.cab :=
  ((kept_modReel (l := [.reg]) (by simp) h f).mpr (.refl _ t)) .cab (by simp)
@[simp] theorem modReel_spt (h : Nat) (f : Reel → Reel) : (t.modReel h f).spt = t.spt :=
  ((kept_modReel (l := [.reg]) (by simp) h f).mpr (.refl _ t)) .spt (by simp)
@[simp] theorem modReel_alt (h : Nat) (f : Reel → Reel) : (t.modReel h f).alt = t.alt :=
  ((kept_modReel (l := [.reg]) (by simp) h f).mpr (.refl _ t)) .alt (by simp)
@[simp] theorem modReel_cfg (h : Nat) (f : Reel → Reel) : (t.modReel h f).cfg = t.cfg :=
  ((kept_modReel (l := [.reg]) (by simp) h f).mpr (.refl _ t)) .cfg (by simp)
@[simp] theorem modReel_tmb (h : Nat) (f : Reel → Reel) : (t.modReel h f).tmb = t.tmb :=
  ((kept_modReel (l := [.reg]) (by simp) h f).mpr (.refl _ t)) .tmb (by simp)
@[simp] theorem modReel_out (h : Nat) (f : Reel → Reel) : (t.modReel h f).out = t.out :=
  ((kept_modReel (l := [.reg]) (by simp) h f).mpr (.refl _ t)) .out (by simp)
@[simp] theorem modReel_pending (h : Nat) (f : Reel → Reel) : (t.modReel h f).pending = t.pending :=
  ((kept_modReel (l := [.reg]) (by simp) h f).mpr (.refl _ t)) .pending (by simp)
@[simp] theorem modReel_setting (h : Nat) (f : Reel → Reel) (setting : Nat) : (t.modReel h f).setting setting = t.setting setting := by
  simp [State.setting]
@[simp] theorem setPort_reg (p : Port) (x : PortState) : (t.setPort p x).reg = t.reg :=
  ((kept_setPort (l := [.spt]) (by simp) p x).mpr (.refl _ t)) .reg (by simp)
@[simp] theorem setPort_trc (p : Port) (x : PortState) : (t.setPort p x).trc = t.trc :=
  ((kept_setPort (l := [.spt]) (by simp) p x).mpr (.refl _ t)) .trc (by simp)
@[simp] theorem setPort_pru (p : Port) (x : PortState) : (t.setPort p x).pru = t.pru :=
  ((kept_setPort (l := [.spt]) (by simp) p x).mpr (.refl _ t)) .pru (by simp)
@[simp] theorem setPort_fcu (p : Port) (x : PortState) : (t.setPort p x).fcu = t.fcu :=
  ((kept_setPort (l := [.spt]) (by simp) p x).mpr (.refl _ t)) .fcu (by simp)
@[simp] theorem setPort_dsu (p : Port) (x : PortState) : (t.setPort p x).dsu = t.dsu :=
  ((kept_setPort (l := [.spt]) (by simp) p x).mpr (.refl _ t)) .dsu (by simp)
@[simp] theorem setPort_rpq (p : Port) (x : PortState) : (t.setPort p x).rpq = t.rpq :=
  ((kept_setPort (l := [.spt]) (by simp) p x).mpr (.refl _ t)) .rpq (by simp)
@[simp] theorem setPort_sht (p : Port) (x : PortState) : (t.setPort p x).sht = t.sht :=
  ((kept_setPort (l := [.spt]) (by simp) p x).mpr (.refl _ t)) .sht (by simp)
@[simp] theorem setPort_cab (p : Port) (x : PortState) : (t.setPort p x).cab = t.cab :=
  ((kept_setPort (l := [.spt]) (by simp) p x).mpr (.refl _ t)) .cab (by simp)
@[simp] theorem setPort_alt (p : Port) (x : PortState) : (t.setPort p x).alt = t.alt :=
  ((kept_setPort (l := [.spt]) (by simp) p x).mpr (.refl _ t)) .alt (by simp)
@[simp] theorem setPort_cfg (p : Port) (x : PortState) : (t.setPort p x).cfg = t.cfg :=
  ((kept_setPort (l := [.spt]) (by simp) p x).mpr (.refl _ t)) .cfg (by simp)
@[simp] theorem setPort_tmb (p : Port) (x : PortState) : (t.setPort p x).tmb = t.tmb :=
  ((kept_setPort (l := [.spt]) (by simp) p x).mpr (.refl _ t)) .tmb (by simp)
@[simp] theorem setPort_out (p : Port) (x : PortState) : (t.setPort p x).out = t.out :=
  ((kept_setPort (l := [.spt]) (by simp) p x).mpr (.refl _ t)) .out (by simp)
@[simp] theorem setPort_pending (p : Port) (x : PortState) : (t.setPort p x).pending = t.pending :=
  ((kept_setPort (l := [.spt]) (by simp) p x).mpr (.refl _ t)) .pending (by simp)
@[simp] theorem setPort_setting (p : Port) (x : PortState) (setting : Nat) : (t.setPort p x).setting setting = t.setting setting := by
  simp [State.setting]
@[simp] theorem setPort_reel (p : Port) (x : PortState) (reel : Nat) : (t.setPort p x).reel reel = t.reel reel := by
  simp [State.reel]
@[simp] theorem send_reg (c : HeadCommand) : (t.send c).reg = t.reg :=
  ((kept_send (l := [.out]) (by simp) c).mpr (.refl _ t)) .reg (by simp)
@[simp] theorem send_trc (c : HeadCommand) : (t.send c).trc = t.trc :=
  ((kept_send (l := [.out]) (by simp) c).mpr (.refl _ t)) .trc (by simp)
@[simp] theorem send_pru (c : HeadCommand) : (t.send c).pru = t.pru :=
  ((kept_send (l := [.out]) (by simp) c).mpr (.refl _ t)) .pru (by simp)
@[simp] theorem send_fcu (c : HeadCommand) : (t.send c).fcu = t.fcu :=
  ((kept_send (l := [.out]) (by simp) c).mpr (.refl _ t)) .fcu (by simp)
@[simp] theorem send_dsu (c : HeadCommand) : (t.send c).dsu = t.dsu :=
  ((kept_send (l := [.out]) (by simp) c).mpr (.refl _ t)) .dsu (by simp)
@[simp] theorem send_rpq (c : HeadCommand) : (t.send c).rpq = t.rpq :=
  ((kept_send (l := [.out]) (by simp) c).mpr (.refl _ t)) .rpq (by simp)
@[simp] theorem send_sht (c : HeadCommand) : (t.send c).sht = t.sht :=
  ((kept_send (l := [.out]) (by simp) c).mpr (.refl _ t)) .sht (by simp)
@[simp] theorem send_cab (c : HeadCommand) : (t.send c).cab = t.cab :=
  ((kept_send (l := [.out]) (by simp) c).mpr (.refl _ t)) .cab (by simp)
@[simp] theorem send_spt (c : HeadCommand) : (t.send c).spt = t.spt :=
  ((kept_send (l := [.out]) (by simp) c).mpr (.refl _ t)) .spt (by simp)
@[simp] theorem send_alt (c : HeadCommand) : (t.send c).alt = t.alt :=
  ((kept_send (l := [.out]) (by simp) c).mpr (.refl _ t)) .alt (by simp)
@[simp] theorem send_cfg (c : HeadCommand) : (t.send c).cfg = t.cfg :=
  ((kept_send (l := [.out]) (by simp) c).mpr (.refl _ t)) .cfg (by simp)
@[simp] theorem send_tmb (c : HeadCommand) : (t.send c).tmb = t.tmb :=
  ((kept_send (l := [.out]) (by simp) c).mpr (.refl _ t)) .tmb (by simp)
@[simp] theorem send_pending (c : HeadCommand) : (t.send c).pending = t.pending :=
  ((kept_send (l := [.out]) (by simp) c).mpr (.refl _ t)) .pending (by simp)
@[simp] theorem send_setting (c : HeadCommand) (setting : Nat) : (t.send c).setting setting = t.setting setting := by
  simp [State.setting]
@[simp] theorem send_reel (c : HeadCommand) (reel : Nat) : (t.send c).reel reel = t.reel reel := by
  simp [State.reel]
@[simp] theorem raiseFor_reg (p : Port) (e : Event) : (raiseFor p e t).reg = t.reg :=
  ((kept_raiseFor (l := [.alt]) (by simp) p e).mpr (.refl _ t)) .reg (by simp)
@[simp] theorem raiseFor_trc (p : Port) (e : Event) : (raiseFor p e t).trc = t.trc :=
  ((kept_raiseFor (l := [.alt]) (by simp) p e).mpr (.refl _ t)) .trc (by simp)
@[simp] theorem raiseFor_pru (p : Port) (e : Event) : (raiseFor p e t).pru = t.pru :=
  ((kept_raiseFor (l := [.alt]) (by simp) p e).mpr (.refl _ t)) .pru (by simp)
@[simp] theorem raiseFor_fcu (p : Port) (e : Event) : (raiseFor p e t).fcu = t.fcu :=
  ((kept_raiseFor (l := [.alt]) (by simp) p e).mpr (.refl _ t)) .fcu (by simp)
@[simp] theorem raiseFor_dsu (p : Port) (e : Event) : (raiseFor p e t).dsu = t.dsu :=
  ((kept_raiseFor (l := [.alt]) (by simp) p e).mpr (.refl _ t)) .dsu (by simp)
@[simp] theorem raiseFor_rpq (p : Port) (e : Event) : (raiseFor p e t).rpq = t.rpq :=
  ((kept_raiseFor (l := [.alt]) (by simp) p e).mpr (.refl _ t)) .rpq (by simp)
@[simp] theorem raiseFor_sht (p : Port) (e : Event) : (raiseFor p e t).sht = t.sht :=
  ((kept_raiseFor (l := [.alt]) (by simp) p e).mpr (.refl _ t)) .sht (by simp)
@[simp] theorem raiseFor_cab (p : Port) (e : Event) : (raiseFor p e t).cab = t.cab :=
  ((kept_raiseFor (l := [.alt]) (by simp) p e).mpr (.refl _ t)) .cab (by simp)
@[simp] theorem raiseFor_spt (p : Port) (e : Event) : (raiseFor p e t).spt = t.spt :=
  ((kept_raiseFor (l := [.alt]) (by simp) p e).mpr (.refl _ t)) .spt (by simp)
@[simp] theorem raiseFor_cfg (p : Port) (e : Event) : (raiseFor p e t).cfg = t.cfg :=
  ((kept_raiseFor (l := [.alt]) (by simp) p e).mpr (.refl _ t)) .cfg (by simp)
@[simp] theorem raiseFor_tmb (p : Port) (e : Event) : (raiseFor p e t).tmb = t.tmb :=
  ((kept_raiseFor (l := [.alt]) (by simp) p e).mpr (.refl _ t)) .tmb (by simp)
@[simp] theorem raiseFor_out (p : Port) (e : Event) : (raiseFor p e t).out = t.out :=
  ((kept_raiseFor (l := [.alt]) (by simp) p e).mpr (.refl _ t)) .out (by simp)
@[simp] theorem raiseFor_pending (p : Port) (e : Event) : (raiseFor p e t).pending = t.pending :=
  ((kept_raiseFor (l := [.alt]) (by simp) p e).mpr (.refl _ t)) .pending (by simp)
@[simp] theorem raiseFor_setting (p : Port) (e : Event) (setting : Nat) : (raiseFor p e t).setting setting = t.setting setting := by
  simp [State.setting]
@[simp] theorem raiseFor_reel (p : Port) (e : Event) (reel : Nat) : (raiseFor p e t).reel reel = t.reel reel := by
  simp [State.reel]
@[simp] theorem raiseAll_reg (e : Event) : (raiseAll e t).reg = t.reg :=
  ((kept_raiseAll (l := [.alt]) (by simp) e).mpr (.refl _ t)) .reg (by simp)
@[simp] theorem raiseAll_trc (e : Event) : (raiseAll e t).trc = t.trc :=
  ((kept_raiseAll (l := [.alt]) (by simp) e).mpr (.refl _ t)) .trc (by simp)
@[simp] theorem raiseAll_pru (e : Event) : (raiseAll e t).pru = t.pru :=
  ((kept_raiseAll (l := [.alt]) (by simp) e).mpr (.refl _ t)) .pru (by simp)
@[simp] theorem raiseAll_fcu (e : Event) : (raiseAll e t).fcu = t.fcu :=
  ((kept_raiseAll (l := [.alt]) (by simp) e).mpr (.refl _ t)) .fcu (by simp)
@[simp] theorem raiseAll_dsu (e : Event) : (raiseAll e t).dsu = t.dsu :=
  ((kept_raiseAll (l := [.alt]) (by simp) e).mpr (.refl _ t)) .dsu (by simp)
@[simp] theorem raiseAll_rpq (e : Event) : (raiseAll e t).rpq = t.rpq :=
  ((kept_raiseAll (l := [.alt]) (by simp) e).mpr (.refl _ t)) .rpq (by simp)
@[simp] theorem raiseAll_sht (e : Event) : (raiseAll e t).sht = t.sht :=
  ((kept_raiseAll (l := [.alt]) (by simp) e).mpr (.refl _ t)) .sht (by simp)
@[simp] theorem raiseAll_cab (e : Event) : (raiseAll e t).cab = t.cab :=
  ((kept_raiseAll (l := [.alt]) (by simp) e).mpr (.refl _ t)) .cab (by simp)
@[simp] theorem raiseAll_spt (e : Event) : (raiseAll e t).spt = t.spt :=
  ((kept_raiseAll (l := [.alt]) (by simp) e).mpr (.refl _ t)) .spt (by simp)
@[simp] theorem raiseAll_cfg (e : Event) : (raiseAll e t).cfg = t.cfg :=
  ((kept_raiseAll (l := [.alt]) (by simp) e).mpr (.refl _ t)) .cfg (by simp)
@[simp] theorem raiseAll_tmb (e : Event) : (raiseAll e t).tmb = t.tmb :=
  ((kept_raiseAll (l := [.alt]) (by simp) e).mpr (.refl _ t)) .tmb (by simp)
@[simp] theorem raiseAll_out (e : Event) : (raiseAll e t).out = t.out :=
  ((kept_raiseAll (l := [.alt]) (by simp) e).mpr (.refl _ t)) .out (by simp)
@[simp] theorem raiseAll_pending (e : Event) : (raiseAll e t).pending = t.pending :=
  ((kept_raiseAll (l := [.alt]) (by simp) e).mpr (.refl _ t)) .pending (by simp)
@[simp] theorem raiseAll_setting (e : Event) (setting : Nat) : (raiseAll e t).setting setting = t.setting setting := by
  simp [State.setting]
@[simp] theorem raiseAll_reel (e : Event) (reel : Nat) : (raiseAll e t).reel reel = t.reel reel := by
  simp [State.reel]
@[simp] theorem raise_reg (e : Event) : (raise e t).reg = t.reg :=
  ((kept_raise (l := [.alt]) (by simp) e).mpr (.refl _ t)) .reg (by simp)
@[simp] theorem raise_trc (e : Event) : (raise e t).trc = t.trc :=
  ((kept_raise (l := [.alt]) (by simp) e).mpr (.refl _ t)) .trc (by simp)
@[simp] theorem raise_pru (e : Event) : (raise e t).pru = t.pru :=
  ((kept_raise (l := [.alt]) (by simp) e).mpr (.refl _ t)) .pru (by simp)
@[simp] theorem raise_fcu (e : Event) : (raise e t).fcu = t.fcu :=
  ((kept_raise (l := [.alt]) (by simp) e).mpr (.refl _ t)) .fcu (by simp)
@[simp] theorem raise_dsu (e : Event) : (raise e t).dsu = t.dsu :=
  ((kept_raise (l := [.alt]) (by simp) e).mpr (.refl _ t)) .dsu (by simp)
@[simp] theorem raise_rpq (e : Event) : (raise e t).rpq = t.rpq :=
  ((kept_raise (l := [.alt]) (by simp) e).mpr (.refl _ t)) .rpq (by simp)
@[simp] theorem raise_sht (e : Event) : (raise e t).sht = t.sht :=
  ((kept_raise (l := [.alt]) (by simp) e).mpr (.refl _ t)) .sht (by simp)
@[simp] theorem raise_cab (e : Event) : (raise e t).cab = t.cab :=
  ((kept_raise (l := [.alt]) (by simp) e).mpr (.refl _ t)) .cab (by simp)
@[simp] theorem raise_spt (e : Event) : (raise e t).spt = t.spt :=
  ((kept_raise (l := [.alt]) (by simp) e).mpr (.refl _ t)) .spt (by simp)
@[simp] theorem raise_cfg (e : Event) : (raise e t).cfg = t.cfg :=
  ((kept_raise (l := [.alt]) (by simp) e).mpr (.refl _ t)) .cfg (by simp)
@[simp] theorem raise_tmb (e : Event) : (raise e t).tmb = t.tmb :=
  ((kept_raise (l := [.alt]) (by simp) e).mpr (.refl _ t)) .tmb (by simp)
@[simp] theorem raise_out (e : Event) : (raise e t).out = t.out :=
  ((kept_raise (l := [.alt]) (by simp) e).mpr (.refl _ t)) .out (by simp)
@[simp] theorem raise_pending (e : Event) : (raise e t).pending = t.pending :=
  ((kept_raise (l := [.alt]) (by simp) e).mpr (.refl _ t)) .pending (by simp)
@[simp] theorem raise_setting (e : Event) (setting : Nat) : (raise e t).setting setting = t.setting setting := by
  simp [State.setting]
@[simp] theorem raise_reel (e : Event) (reel : Nat) : (raise e t).reel reel = t.reel reel := by
  simp [State.reel]
@[simp] theorem raiseIf_reg (c : Bool) (e : Event) : (raiseIf c e t).reg = t.reg :=
  ((kept_raiseIf (l := [.alt]) (by simp) c e).mpr (.refl _ t)) .reg (by simp)
@[simp] theorem raiseIf_trc (c : Bool) (e : Event) : (raiseIf c e t).trc = t.trc :=
  ((kept_raiseIf (l := [.alt]) (by simp) c e).mpr (.refl _ t)) .trc (by simp)
@[simp] theorem raiseIf_pru (c : Bool) (e : Event) : (raiseIf c e t).pru = t.pru :=
  ((kept_raiseIf (l := [.alt]) (by simp) c e).mpr (.refl _ t)) .pru (by simp)
@[simp] theorem raiseIf_fcu (c : Bool) (e : Event) : (raiseIf c e t).fcu = t.fcu :=
  ((kept_raiseIf (l := [.alt]) (by simp) c e).mpr (.refl _ t)) .fcu (by simp)
@[simp] theorem raiseIf_dsu (c : Bool) (e : Event) : (raiseIf c e t).dsu = t.dsu :=
  ((kept_raiseIf (l := [.alt]) (by simp) c e).mpr (.refl _ t)) .dsu (by simp)
@[simp] theorem raiseIf_rpq (c : Bool) (e : Event) : (raiseIf c e t).rpq = t.rpq :=
  ((kept_raiseIf (l := [.alt]) (by simp) c e).mpr (.refl _ t)) .rpq (by simp)
@[simp] theorem raiseIf_sht (c : Bool) (e : Event) : (raiseIf c e t).sht = t.sht :=
  ((kept_raiseIf (l := [.alt]) (by simp) c e).mpr (.refl _ t)) .sht (by simp)
@[simp] theorem raiseIf_cab (c : Bool) (e : Event) : (raiseIf c e t).cab = t.cab :=
  ((kept_raiseIf (l := [.alt]) (by simp) c e).mpr (.refl _ t)) .cab (by simp)
@[simp] theorem raiseIf_spt (c : Bool) (e : Event) : (raiseIf c e t).spt = t.spt :=
  ((kept_raiseIf (l := [.alt]) (by simp) c e).mpr (.refl _ t)) .spt (by simp)
@[simp] theorem raiseIf_cfg (c : Bool) (e : Event) : (raiseIf c e t).cfg = t.cfg :=
  ((kept_raiseIf (l := [.alt]) (by simp) c e).mpr (.refl _ t)) .cfg (by simp)
@[simp] theorem raiseIf_tmb (c : Bool) (e : Event) : (raiseIf c e t).tmb = t.tmb :=
  ((kept_raiseIf (l := [.alt]) (by simp) c e).mpr (.refl _ t)) .tmb (by simp)
@[simp] theorem raiseIf_out (c : Bool) (e : Event) : (raiseIf c e t).out = t.out :=
  ((kept_raiseIf (l := [.alt]) (by simp) c e).mpr (.refl _ t)) .out (by simp)
@[simp] theorem raiseIf_pending (c : Bool) (e : Event) : (raiseIf c e t).pending = t.pending :=
  ((kept_raiseIf (l := [.alt]) (by simp) c e).mpr (.refl _ t)) .pending (by simp)
@[simp] theorem raiseIf_setting (c : Bool) (e : Event) (setting : Nat) : (raiseIf c e t).setting setting = t.setting setting := by
  simp [State.setting]
@[simp] theorem raiseIf_reel (c : Bool) (e : Event) (reel : Nat) : (raiseIf c e t).reel reel = t.reel reel := by
  simp [State.reel]
@[simp] theorem quiet_reg : (quiet t).reg = t.reg :=
  ((kept_quiet (l := [.out]) (by simp) ).mpr (.refl _ t)) .reg (by simp)
@[simp] theorem quiet_trc : (quiet t).trc = t.trc :=
  ((kept_quiet (l := [.out]) (by simp) ).mpr (.refl _ t)) .trc (by simp)
@[simp] theorem quiet_pru : (quiet t).pru = t.pru :=
  ((kept_quiet (l := [.out]) (by simp) ).mpr (.refl _ t)) .pru (by simp)
@[simp] theorem quiet_fcu : (quiet t).fcu = t.fcu :=
  ((kept_quiet (l := [.out]) (by simp) ).mpr (.refl _ t)) .fcu (by simp)
@[simp] theorem quiet_dsu : (quiet t).dsu = t.dsu :=
  ((kept_quiet (l := [.out]) (by simp) ).mpr (.refl _ t)) .dsu (by simp)
@[simp] theorem quiet_rpq : (quiet t).rpq = t.rpq :=
  ((kept_quiet (l := [.out]) (by simp) ).mpr (.refl _ t)) .rpq (by simp)
@[simp] theorem quiet_sht : (quiet t).sht = t.sht :=
  ((kept_quiet (l := [.out]) (by simp) ).mpr (.refl _ t)) .sht (by simp)
@[simp] theorem quiet_cab : (quiet t).cab = t.cab :=
  ((kept_quiet (l := [.out]) (by simp) ).mpr (.refl _ t)) .cab (by simp)
@[simp] theorem quiet_spt : (quiet t).spt = t.spt :=
  ((kept_quiet (l := [.out]) (by simp) ).mpr (.refl _ t)) .spt (by simp)
@[simp] theorem quiet_alt : (quiet t).alt = t.alt :=
  ((kept_quiet (l := [.out]) (by simp) ).mpr (.refl _ t)) .alt (by simp)
@[simp] theorem quiet_cfg : (quiet t).cfg = t.cfg :=
  ((kept_quiet (l := [.out]) (by simp) ).mpr (.refl _ t)) .cfg (by simp)
@[simp] theorem quiet_tmb : (quiet t).tmb = t.tmb :=
  ((kept_quiet (l := [.out]) (by simp) ).mpr (.refl _ t)) .tmb (by simp)
@[simp] theorem quiet_pending : (quiet t).pending = t.pending :=
  ((kept_quiet (l := [.out]) (by simp) ).mpr (.refl _ t)) .pending (by simp)
@[simp] theorem quiet_setting (setting : Nat) : (quiet t).setting setting = t.setting setting := by
  simp [State.setting]
@[simp] theorem quiet_reel (reel : Nat) : (quiet t).reel reel = t.reel reel := by
  simp [State.reel]
@[simp] theorem displace_reg (p : Port) : (displace p t).reg = t.reg :=
  ((kept_displace (l := [.spt, .alt]) (by simp) (by simp) p).mpr (.refl _ t)) .reg (by simp)
@[simp] theorem displace_trc (p : Port) : (displace p t).trc = t.trc :=
  ((kept_displace (l := [.spt, .alt]) (by simp) (by simp) p).mpr (.refl _ t)) .trc (by simp)
@[simp] theorem displace_pru (p : Port) : (displace p t).pru = t.pru :=
  ((kept_displace (l := [.spt, .alt]) (by simp) (by simp) p).mpr (.refl _ t)) .pru (by simp)
@[simp] theorem displace_fcu (p : Port) : (displace p t).fcu = t.fcu :=
  ((kept_displace (l := [.spt, .alt]) (by simp) (by simp) p).mpr (.refl _ t)) .fcu (by simp)
@[simp] theorem displace_dsu (p : Port) : (displace p t).dsu = t.dsu :=
  ((kept_displace (l := [.spt, .alt]) (by simp) (by simp) p).mpr (.refl _ t)) .dsu (by simp)
@[simp] theorem displace_rpq (p : Port) : (displace p t).rpq = t.rpq :=
  ((kept_displace (l := [.spt, .alt]) (by simp) (by simp) p).mpr (.refl _ t)) .rpq (by simp)
@[simp] theorem displace_sht (p : Port) : (displace p t).sht = t.sht :=
  ((kept_displace (l := [.spt, .alt]) (by simp) (by simp) p).mpr (.refl _ t)) .sht (by simp)
@[simp] theorem displace_cab (p : Port) : (displace p t).cab = t.cab :=
  ((kept_displace (l := [.spt, .alt]) (by simp) (by simp) p).mpr (.refl _ t)) .cab (by simp)
@[simp] theorem displace_cfg (p : Port) : (displace p t).cfg = t.cfg :=
  ((kept_displace (l := [.spt, .alt]) (by simp) (by simp) p).mpr (.refl _ t)) .cfg (by simp)
@[simp] theorem displace_tmb (p : Port) : (displace p t).tmb = t.tmb :=
  ((kept_displace (l := [.spt, .alt]) (by simp) (by simp) p).mpr (.refl _ t)) .tmb (by simp)
@[simp] theorem displace_out (p : Port) : (displace p t).out = t.out :=
  ((kept_displace (l := [.spt, .alt]) (by simp) (by simp) p).mpr (.refl _ t)) .out (by simp)
@[simp] theorem displace_pending (p : Port) : (displace p t).pending = t.pending :=
  ((kept_displace (l := [.spt, .alt]) (by simp) (by simp) p).mpr (.refl _ t)) .pending (by simp)
@[simp] theorem displace_setting (p : Port) (setting : Nat) : (displace p t).setting setting = t.setting setting := by
  simp [State.setting]
@[simp] theorem displace_reel (p : Port) (reel : Nat) : (displace p t).reel reel = t.reel reel := by
  simp [State.reel]
@[simp] theorem dropConfirmation_trc (p : Port) : (dropConfirmation p t).trc = t.trc :=
  ((kept_dropConfirmation (l := [.reg]) (by simp) p).mpr (.refl _ t)) .trc (by simp)
@[simp] theorem dropConfirmation_pru (p : Port) : (dropConfirmation p t).pru = t.pru :=
  ((kept_dropConfirmation (l := [.reg]) (by simp) p).mpr (.refl _ t)) .pru (by simp)
@[simp] theorem dropConfirmation_fcu (p : Port) : (dropConfirmation p t).fcu = t.fcu :=
  ((kept_dropConfirmation (l := [.reg]) (by simp) p).mpr (.refl _ t)) .fcu (by simp)
@[simp] theorem dropConfirmation_dsu (p : Port) : (dropConfirmation p t).dsu = t.dsu :=
  ((kept_dropConfirmation (l := [.reg]) (by simp) p).mpr (.refl _ t)) .dsu (by simp)
@[simp] theorem dropConfirmation_rpq (p : Port) : (dropConfirmation p t).rpq = t.rpq :=
  ((kept_dropConfirmation (l := [.reg]) (by simp) p).mpr (.refl _ t)) .rpq (by simp)
@[simp] theorem dropConfirmation_sht (p : Port) : (dropConfirmation p t).sht = t.sht :=
  ((kept_dropConfirmation (l := [.reg]) (by simp) p).mpr (.refl _ t)) .sht (by simp)
@[simp] theorem dropConfirmation_cab (p : Port) : (dropConfirmation p t).cab = t.cab :=
  ((kept_dropConfirmation (l := [.reg]) (by simp) p).mpr (.refl _ t)) .cab (by simp)
@[simp] theorem dropConfirmation_spt (p : Port) : (dropConfirmation p t).spt = t.spt :=
  ((kept_dropConfirmation (l := [.reg]) (by simp) p).mpr (.refl _ t)) .spt (by simp)
@[simp] theorem dropConfirmation_alt (p : Port) : (dropConfirmation p t).alt = t.alt :=
  ((kept_dropConfirmation (l := [.reg]) (by simp) p).mpr (.refl _ t)) .alt (by simp)
@[simp] theorem dropConfirmation_cfg (p : Port) : (dropConfirmation p t).cfg = t.cfg :=
  ((kept_dropConfirmation (l := [.reg]) (by simp) p).mpr (.refl _ t)) .cfg (by simp)
@[simp] theorem dropConfirmation_tmb (p : Port) : (dropConfirmation p t).tmb = t.tmb :=
  ((kept_dropConfirmation (l := [.reg]) (by simp) p).mpr (.refl _ t)) .tmb (by simp)
@[simp] theorem dropConfirmation_out (p : Port) : (dropConfirmation p t).out = t.out :=
  ((kept_dropConfirmation (l := [.reg]) (by simp) p).mpr (.refl _ t)) .out (by simp)
@[simp] theorem dropConfirmation_pending (p : Port) : (dropConfirmation p t).pending = t.pending :=
  ((kept_dropConfirmation (l := [.reg]) (by simp) p).mpr (.refl _ t)) .pending (by simp)
@[simp] theorem dropConfirmation_setting (p : Port) (setting : Nat) : (dropConfirmation p t).setting setting = t.setting setting := by
  simp [State.setting]
@[simp] theorem arrive_trc (p : Port) : (arrive p t).trc = t.trc :=
  ((kept_arrive (l := [.reg, .spt, .alt, .out]) (by simp) (by simp) (by simp) (by simp) p).mpr (.refl _ t)) .trc (by simp)
@[simp] theorem arrive_pru (p : Port) : (arrive p t).pru = t.pru :=
  ((kept_arrive (l := [.reg, .spt, .alt, .out]) (by simp) (by simp) (by simp) (by simp) p).mpr (.refl _ t)) .pru (by simp)
@[simp] theorem arrive_fcu (p : Port) : (arrive p t).fcu = t.fcu :=
  ((kept_arrive (l := [.reg, .spt, .alt, .out]) (by simp) (by simp) (by simp) (by simp) p).mpr (.refl _ t)) .fcu (by simp)
@[simp] theorem arrive_dsu (p : Port) : (arrive p t).dsu = t.dsu :=
  ((kept_arrive (l := [.reg, .spt, .alt, .out]) (by simp) (by simp) (by simp) (by simp) p).mpr (.refl _ t)) .dsu (by simp)
@[simp] theorem arrive_rpq (p : Port) : (arrive p t).rpq = t.rpq :=
  ((kept_arrive (l := [.reg, .spt, .alt, .out]) (by simp) (by simp) (by simp) (by simp) p).mpr (.refl _ t)) .rpq (by simp)
@[simp] theorem arrive_sht (p : Port) : (arrive p t).sht = t.sht :=
  ((kept_arrive (l := [.reg, .spt, .alt, .out]) (by simp) (by simp) (by simp) (by simp) p).mpr (.refl _ t)) .sht (by simp)
@[simp] theorem arrive_cab (p : Port) : (arrive p t).cab = t.cab :=
  ((kept_arrive (l := [.reg, .spt, .alt, .out]) (by simp) (by simp) (by simp) (by simp) p).mpr (.refl _ t)) .cab (by simp)
@[simp] theorem arrive_cfg (p : Port) : (arrive p t).cfg = t.cfg :=
  ((kept_arrive (l := [.reg, .spt, .alt, .out]) (by simp) (by simp) (by simp) (by simp) p).mpr (.refl _ t)) .cfg (by simp)
@[simp] theorem arrive_tmb (p : Port) : (arrive p t).tmb = t.tmb :=
  ((kept_arrive (l := [.reg, .spt, .alt, .out]) (by simp) (by simp) (by simp) (by simp) p).mpr (.refl _ t)) .tmb (by simp)
@[simp] theorem arrive_pending (p : Port) : (arrive p t).pending = t.pending :=
  ((kept_arrive (l := [.reg, .spt, .alt, .out]) (by simp) (by simp) (by simp) (by simp) p).mpr (.refl _ t)) .pending (by simp)
@[simp] theorem arrive_setting (p : Port) (setting : Nat) : (arrive p t).setting setting = t.setting setting := by
  simp [State.setting]
@[simp] theorem answer_reg (rq : Rq) (r : Reply) : (answer rq r t).reg = t.reg :=
  ((kept_answer (l := [.spt]) (by simp) rq r).mpr (.refl _ t)) .reg (by simp)
@[simp] theorem answer_trc (rq : Rq) (r : Reply) : (answer rq r t).trc = t.trc :=
  ((kept_answer (l := [.spt]) (by simp) rq r).mpr (.refl _ t)) .trc (by simp)
@[simp] theorem answer_pru (rq : Rq) (r : Reply) : (answer rq r t).pru = t.pru :=
  ((kept_answer (l := [.spt]) (by simp) rq r).mpr (.refl _ t)) .pru (by simp)
@[simp] theorem answer_fcu (rq : Rq) (r : Reply) : (answer rq r t).fcu = t.fcu :=
  ((kept_answer (l := [.spt]) (by simp) rq r).mpr (.refl _ t)) .fcu (by simp)
@[simp] theorem answer_dsu (rq : Rq) (r : Reply) : (answer rq r t).dsu = t.dsu :=
  ((kept_answer (l := [.spt]) (by simp) rq r).mpr (.refl _ t)) .dsu (by simp)
@[simp] theorem answer_rpq (rq : Rq) (r : Reply) : (answer rq r t).rpq = t.rpq :=
  ((kept_answer (l := [.spt]) (by simp) rq r).mpr (.refl _ t)) .rpq (by simp)
@[simp] theorem answer_sht (rq : Rq) (r : Reply) : (answer rq r t).sht = t.sht :=
  ((kept_answer (l := [.spt]) (by simp) rq r).mpr (.refl _ t)) .sht (by simp)
@[simp] theorem answer_cab (rq : Rq) (r : Reply) : (answer rq r t).cab = t.cab :=
  ((kept_answer (l := [.spt]) (by simp) rq r).mpr (.refl _ t)) .cab (by simp)
@[simp] theorem answer_alt (rq : Rq) (r : Reply) : (answer rq r t).alt = t.alt :=
  ((kept_answer (l := [.spt]) (by simp) rq r).mpr (.refl _ t)) .alt (by simp)
@[simp] theorem answer_cfg (rq : Rq) (r : Reply) : (answer rq r t).cfg = t.cfg :=
  ((kept_answer (l := [.spt]) (by simp) rq r).mpr (.refl _ t)) .cfg (by simp)
@[simp] theorem answer_tmb (rq : Rq) (r : Reply) : (answer rq r t).tmb = t.tmb :=
  ((kept_answer (l := [.spt]) (by simp) rq r).mpr (.refl _ t)) .tmb (by simp)
@[simp] theorem answer_out (rq : Rq) (r : Reply) : (answer rq r t).out = t.out :=
  ((kept_answer (l := [.spt]) (by simp) rq r).mpr (.refl _ t)) .out (by simp)
@[simp] theorem answer_pending (rq : Rq) (r : Reply) : (answer rq r t).pending = t.pending :=
  ((kept_answer (l := [.spt]) (by simp) rq r).mpr (.refl _ t)) .pending (by simp)
@[simp] theorem answer_setting (rq : Rq) (r : Reply) (setting : Nat) : (answer rq r t).setting setting = t.setting setting := by
  simp [State.setting]
@[simp] theorem answer_reel (rq : Rq) (r : Reply) (reel : Nat) : (answer rq r t).reel reel = t.reel reel := by
  simp [State.reel]
@[simp] theorem modShot_reg (r : Nat) (f : Shot → Shot) : (t.modShot r f).reg = t.reg :=
  ((kept_modShot (l := [.sht]) (by simp) r f).mpr (.refl _ t)) .reg (by simp)
@[simp] theorem modShot_trc (r : Nat) (f : Shot → Shot) : (t.modShot r f).trc = t.trc :=
  ((kept_modShot (l := [.sht]) (by simp) r f).mpr (.refl _ t)) .trc (by simp)
@[simp] theorem modShot_pru (r : Nat) (f : Shot → Shot) : (t.modShot r f).pru = t.pru :=
  ((kept_modShot (l := [.sht]) (by simp) r f).mpr (.refl _ t)) .pru (by simp)
@[simp] theorem modShot_fcu (r : Nat) (f : Shot → Shot) : (t.modShot r f).fcu = t.fcu :=
  ((kept_modShot (l := [.sht]) (by simp) r f).mpr (.refl _ t)) .fcu (by simp)
@[simp] theorem modShot_dsu (r : Nat) (f : Shot → Shot) : (t.modShot r f).dsu = t.dsu :=
  ((kept_modShot (l := [.sht]) (by simp) r f).mpr (.refl _ t)) .dsu (by simp)
@[simp] theorem modShot_rpq (r : Nat) (f : Shot → Shot) : (t.modShot r f).rpq = t.rpq :=
  ((kept_modShot (l := [.sht]) (by simp) r f).mpr (.refl _ t)) .rpq (by simp)
@[simp] theorem modShot_cab (r : Nat) (f : Shot → Shot) : (t.modShot r f).cab = t.cab :=
  ((kept_modShot (l := [.sht]) (by simp) r f).mpr (.refl _ t)) .cab (by simp)
@[simp] theorem modShot_spt (r : Nat) (f : Shot → Shot) : (t.modShot r f).spt = t.spt :=
  ((kept_modShot (l := [.sht]) (by simp) r f).mpr (.refl _ t)) .spt (by simp)
@[simp] theorem modShot_alt (r : Nat) (f : Shot → Shot) : (t.modShot r f).alt = t.alt :=
  ((kept_modShot (l := [.sht]) (by simp) r f).mpr (.refl _ t)) .alt (by simp)
@[simp] theorem modShot_cfg (r : Nat) (f : Shot → Shot) : (t.modShot r f).cfg = t.cfg :=
  ((kept_modShot (l := [.sht]) (by simp) r f).mpr (.refl _ t)) .cfg (by simp)
@[simp] theorem modShot_tmb (r : Nat) (f : Shot → Shot) : (t.modShot r f).tmb = t.tmb :=
  ((kept_modShot (l := [.sht]) (by simp) r f).mpr (.refl _ t)) .tmb (by simp)
@[simp] theorem modShot_out (r : Nat) (f : Shot → Shot) : (t.modShot r f).out = t.out :=
  ((kept_modShot (l := [.sht]) (by simp) r f).mpr (.refl _ t)) .out (by simp)
@[simp] theorem modShot_pending (r : Nat) (f : Shot → Shot) : (t.modShot r f).pending = t.pending :=
  ((kept_modShot (l := [.sht]) (by simp) r f).mpr (.refl _ t)) .pending (by simp)
@[simp] theorem modShot_setting (r : Nat) (f : Shot → Shot) (setting : Nat) : (t.modShot r f).setting setting = t.setting setting := by
  simp [State.setting]
@[simp] theorem modShot_reel (r : Nat) (f : Shot → Shot) (reel : Nat) : (t.modShot r f).reel reel = t.reel reel := by
  simp [State.reel]
@[simp] theorem reopenShot_reg (r : Nat) : (reopenShot r t).reg = t.reg :=
  ((kept_reopenShot (l := [.sht, .alt]) (by simp) (by simp) r).mpr (.refl _ t)) .reg (by simp)
@[simp] theorem reopenShot_trc (r : Nat) : (reopenShot r t).trc = t.trc :=
  ((kept_reopenShot (l := [.sht, .alt]) (by simp) (by simp) r).mpr (.refl _ t)) .trc (by simp)
@[simp] theorem reopenShot_pru (r : Nat) : (reopenShot r t).pru = t.pru :=
  ((kept_reopenShot (l := [.sht, .alt]) (by simp) (by simp) r).mpr (.refl _ t)) .pru (by simp)
@[simp] theorem reopenShot_fcu (r : Nat) : (reopenShot r t).fcu = t.fcu :=
  ((kept_reopenShot (l := [.sht, .alt]) (by simp) (by simp) r).mpr (.refl _ t)) .fcu (by simp)
@[simp] theorem reopenShot_dsu (r : Nat) : (reopenShot r t).dsu = t.dsu :=
  ((kept_reopenShot (l := [.sht, .alt]) (by simp) (by simp) r).mpr (.refl _ t)) .dsu (by simp)
@[simp] theorem reopenShot_rpq (r : Nat) : (reopenShot r t).rpq = t.rpq :=
  ((kept_reopenShot (l := [.sht, .alt]) (by simp) (by simp) r).mpr (.refl _ t)) .rpq (by simp)
@[simp] theorem reopenShot_cab (r : Nat) : (reopenShot r t).cab = t.cab :=
  ((kept_reopenShot (l := [.sht, .alt]) (by simp) (by simp) r).mpr (.refl _ t)) .cab (by simp)
@[simp] theorem reopenShot_spt (r : Nat) : (reopenShot r t).spt = t.spt :=
  ((kept_reopenShot (l := [.sht, .alt]) (by simp) (by simp) r).mpr (.refl _ t)) .spt (by simp)
@[simp] theorem reopenShot_cfg (r : Nat) : (reopenShot r t).cfg = t.cfg :=
  ((kept_reopenShot (l := [.sht, .alt]) (by simp) (by simp) r).mpr (.refl _ t)) .cfg (by simp)
@[simp] theorem reopenShot_tmb (r : Nat) : (reopenShot r t).tmb = t.tmb :=
  ((kept_reopenShot (l := [.sht, .alt]) (by simp) (by simp) r).mpr (.refl _ t)) .tmb (by simp)
@[simp] theorem reopenShot_out (r : Nat) : (reopenShot r t).out = t.out :=
  ((kept_reopenShot (l := [.sht, .alt]) (by simp) (by simp) r).mpr (.refl _ t)) .out (by simp)
@[simp] theorem reopenShot_pending (r : Nat) : (reopenShot r t).pending = t.pending :=
  ((kept_reopenShot (l := [.sht, .alt]) (by simp) (by simp) r).mpr (.refl _ t)) .pending (by simp)
@[simp] theorem reopenShot_setting (r : Nat) (setting : Nat) : (reopenShot r t).setting setting = t.setting setting := by
  simp [State.setting]
@[simp] theorem reopenShot_reel (r : Nat) (reel : Nat) : (reopenShot r t).reel reel = t.reel reel := by
  simp [State.reel]
@[simp] theorem putShot_reg (r : Nat) (x : Shot) : (t.putShot r x).reg = t.reg :=
  ((kept_putShot (l := [.sht]) (by simp) r x).mpr (.refl _ t)) .reg (by simp)
@[simp] theorem putShot_trc (r : Nat) (x : Shot) : (t.putShot r x).trc = t.trc :=
  ((kept_putShot (l := [.sht]) (by simp) r x).mpr (.refl _ t)) .trc (by simp)
@[simp] theorem putShot_pru (r : Nat) (x : Shot) : (t.putShot r x).pru = t.pru :=
  ((kept_putShot (l := [.sht]) (by simp) r x).mpr (.refl _ t)) .pru (by simp)
@[simp] theorem putShot_fcu (r : Nat) (x : Shot) : (t.putShot r x).fcu = t.fcu :=
  ((kept_putShot (l := [.sht]) (by simp) r x).mpr (.refl _ t)) .fcu (by simp)
@[simp] theorem putShot_dsu (r : Nat) (x : Shot) : (t.putShot r x).dsu = t.dsu :=
  ((kept_putShot (l := [.sht]) (by simp) r x).mpr (.refl _ t)) .dsu (by simp)
@[simp] theorem putShot_rpq (r : Nat) (x : Shot) : (t.putShot r x).rpq = t.rpq :=
  ((kept_putShot (l := [.sht]) (by simp) r x).mpr (.refl _ t)) .rpq (by simp)
@[simp] theorem putShot_cab (r : Nat) (x : Shot) : (t.putShot r x).cab = t.cab :=
  ((kept_putShot (l := [.sht]) (by simp) r x).mpr (.refl _ t)) .cab (by simp)
@[simp] theorem putShot_spt (r : Nat) (x : Shot) : (t.putShot r x).spt = t.spt :=
  ((kept_putShot (l := [.sht]) (by simp) r x).mpr (.refl _ t)) .spt (by simp)
@[simp] theorem putShot_alt (r : Nat) (x : Shot) : (t.putShot r x).alt = t.alt :=
  ((kept_putShot (l := [.sht]) (by simp) r x).mpr (.refl _ t)) .alt (by simp)
@[simp] theorem putShot_cfg (r : Nat) (x : Shot) : (t.putShot r x).cfg = t.cfg :=
  ((kept_putShot (l := [.sht]) (by simp) r x).mpr (.refl _ t)) .cfg (by simp)
@[simp] theorem putShot_tmb (r : Nat) (x : Shot) : (t.putShot r x).tmb = t.tmb :=
  ((kept_putShot (l := [.sht]) (by simp) r x).mpr (.refl _ t)) .tmb (by simp)
@[simp] theorem putShot_out (r : Nat) (x : Shot) : (t.putShot r x).out = t.out :=
  ((kept_putShot (l := [.sht]) (by simp) r x).mpr (.refl _ t)) .out (by simp)
@[simp] theorem putShot_pending (r : Nat) (x : Shot) : (t.putShot r x).pending = t.pending :=
  ((kept_putShot (l := [.sht]) (by simp) r x).mpr (.refl _ t)) .pending (by simp)
@[simp] theorem putShot_setting (r : Nat) (x : Shot) (setting : Nat) : (t.putShot r x).setting setting = t.setting setting := by
  simp [State.setting]
@[simp] theorem putShot_reel (r : Nat) (x : Shot) (reel : Nat) : (t.putShot r x).reel reel = t.reel reel := by
  simp [State.reel]
@[simp] theorem rescanAdd_trc (h : Nat) (x : FrameRange) : (rescanAdd h x t).trc = t.trc :=
  ((kept_rescanAdd (l := [.reg, .sht, .alt]) (by simp) (by simp) (by simp) h x).mpr (.refl _ t)) .trc (by simp)
@[simp] theorem rescanAdd_pru (h : Nat) (x : FrameRange) : (rescanAdd h x t).pru = t.pru :=
  ((kept_rescanAdd (l := [.reg, .sht, .alt]) (by simp) (by simp) (by simp) h x).mpr (.refl _ t)) .pru (by simp)
@[simp] theorem rescanAdd_fcu (h : Nat) (x : FrameRange) : (rescanAdd h x t).fcu = t.fcu :=
  ((kept_rescanAdd (l := [.reg, .sht, .alt]) (by simp) (by simp) (by simp) h x).mpr (.refl _ t)) .fcu (by simp)
@[simp] theorem rescanAdd_dsu (h : Nat) (x : FrameRange) : (rescanAdd h x t).dsu = t.dsu :=
  ((kept_rescanAdd (l := [.reg, .sht, .alt]) (by simp) (by simp) (by simp) h x).mpr (.refl _ t)) .dsu (by simp)
@[simp] theorem rescanAdd_rpq (h : Nat) (x : FrameRange) : (rescanAdd h x t).rpq = t.rpq :=
  ((kept_rescanAdd (l := [.reg, .sht, .alt]) (by simp) (by simp) (by simp) h x).mpr (.refl _ t)) .rpq (by simp)
@[simp] theorem rescanAdd_cab (h : Nat) (x : FrameRange) : (rescanAdd h x t).cab = t.cab :=
  ((kept_rescanAdd (l := [.reg, .sht, .alt]) (by simp) (by simp) (by simp) h x).mpr (.refl _ t)) .cab (by simp)
@[simp] theorem rescanAdd_spt (h : Nat) (x : FrameRange) : (rescanAdd h x t).spt = t.spt :=
  ((kept_rescanAdd (l := [.reg, .sht, .alt]) (by simp) (by simp) (by simp) h x).mpr (.refl _ t)) .spt (by simp)
@[simp] theorem rescanAdd_cfg (h : Nat) (x : FrameRange) : (rescanAdd h x t).cfg = t.cfg :=
  ((kept_rescanAdd (l := [.reg, .sht, .alt]) (by simp) (by simp) (by simp) h x).mpr (.refl _ t)) .cfg (by simp)
@[simp] theorem rescanAdd_tmb (h : Nat) (x : FrameRange) : (rescanAdd h x t).tmb = t.tmb :=
  ((kept_rescanAdd (l := [.reg, .sht, .alt]) (by simp) (by simp) (by simp) h x).mpr (.refl _ t)) .tmb (by simp)
@[simp] theorem rescanAdd_out (h : Nat) (x : FrameRange) : (rescanAdd h x t).out = t.out :=
  ((kept_rescanAdd (l := [.reg, .sht, .alt]) (by simp) (by simp) (by simp) h x).mpr (.refl _ t)) .out (by simp)
@[simp] theorem rescanAdd_pending (h : Nat) (x : FrameRange) : (rescanAdd h x t).pending = t.pending :=
  ((kept_rescanAdd (l := [.reg, .sht, .alt]) (by simp) (by simp) (by simp) h x).mpr (.refl _ t)) .pending (by simp)
@[simp] theorem rescanAdd_setting (h : Nat) (x : FrameRange) (setting : Nat) : (rescanAdd h x t).setting setting = t.setting setting := by
  simp [State.setting]
@[simp] theorem frameRecorded_trc (h f : Nat) (c : Bool) : (frameRecorded h f c t).trc = t.trc :=
  ((kept_frameRecorded (l := [.reg, .sht, .alt]) (by simp) (by simp) (by simp) h f c).mpr (.refl _ t)) .trc (by simp)
@[simp] theorem frameRecorded_pru (h f : Nat) (c : Bool) : (frameRecorded h f c t).pru = t.pru :=
  ((kept_frameRecorded (l := [.reg, .sht, .alt]) (by simp) (by simp) (by simp) h f c).mpr (.refl _ t)) .pru (by simp)
@[simp] theorem frameRecorded_fcu (h f : Nat) (c : Bool) : (frameRecorded h f c t).fcu = t.fcu :=
  ((kept_frameRecorded (l := [.reg, .sht, .alt]) (by simp) (by simp) (by simp) h f c).mpr (.refl _ t)) .fcu (by simp)
@[simp] theorem frameRecorded_dsu (h f : Nat) (c : Bool) : (frameRecorded h f c t).dsu = t.dsu :=
  ((kept_frameRecorded (l := [.reg, .sht, .alt]) (by simp) (by simp) (by simp) h f c).mpr (.refl _ t)) .dsu (by simp)
@[simp] theorem frameRecorded_rpq (h f : Nat) (c : Bool) : (frameRecorded h f c t).rpq = t.rpq :=
  ((kept_frameRecorded (l := [.reg, .sht, .alt]) (by simp) (by simp) (by simp) h f c).mpr (.refl _ t)) .rpq (by simp)
@[simp] theorem frameRecorded_cab (h f : Nat) (c : Bool) : (frameRecorded h f c t).cab = t.cab :=
  ((kept_frameRecorded (l := [.reg, .sht, .alt]) (by simp) (by simp) (by simp) h f c).mpr (.refl _ t)) .cab (by simp)
@[simp] theorem frameRecorded_spt (h f : Nat) (c : Bool) : (frameRecorded h f c t).spt = t.spt :=
  ((kept_frameRecorded (l := [.reg, .sht, .alt]) (by simp) (by simp) (by simp) h f c).mpr (.refl _ t)) .spt (by simp)
@[simp] theorem frameRecorded_cfg (h f : Nat) (c : Bool) : (frameRecorded h f c t).cfg = t.cfg :=
  ((kept_frameRecorded (l := [.reg, .sht, .alt]) (by simp) (by simp) (by simp) h f c).mpr (.refl _ t)) .cfg (by simp)
@[simp] theorem frameRecorded_tmb (h f : Nat) (c : Bool) : (frameRecorded h f c t).tmb = t.tmb :=
  ((kept_frameRecorded (l := [.reg, .sht, .alt]) (by simp) (by simp) (by simp) h f c).mpr (.refl _ t)) .tmb (by simp)
@[simp] theorem frameRecorded_out (h f : Nat) (c : Bool) : (frameRecorded h f c t).out = t.out :=
  ((kept_frameRecorded (l := [.reg, .sht, .alt]) (by simp) (by simp) (by simp) h f c).mpr (.refl _ t)) .out (by simp)
@[simp] theorem frameRecorded_pending (h f : Nat) (c : Bool) : (frameRecorded h f c t).pending = t.pending :=
  ((kept_frameRecorded (l := [.reg, .sht, .alt]) (by simp) (by simp) (by simp) h f c).mpr (.refl _ t)) .pending (by simp)
@[simp] theorem frameRecorded_setting (h f : Nat) (c : Bool) (setting : Nat) : (frameRecorded h f c t).setting setting = t.setting setting := by
  simp [State.setting]
@[simp] theorem addLostArea_trc (h a : Nat) : (addLostArea h a t).trc = t.trc :=
  ((kept_addLostArea (l := [.reg]) (by simp) h a).mpr (.refl _ t)) .trc (by simp)
@[simp] theorem addLostArea_pru (h a : Nat) : (addLostArea h a t).pru = t.pru :=
  ((kept_addLostArea (l := [.reg]) (by simp) h a).mpr (.refl _ t)) .pru (by simp)
@[simp] theorem addLostArea_fcu (h a : Nat) : (addLostArea h a t).fcu = t.fcu :=
  ((kept_addLostArea (l := [.reg]) (by simp) h a).mpr (.refl _ t)) .fcu (by simp)
@[simp] theorem addLostArea_dsu (h a : Nat) : (addLostArea h a t).dsu = t.dsu :=
  ((kept_addLostArea (l := [.reg]) (by simp) h a).mpr (.refl _ t)) .dsu (by simp)
@[simp] theorem addLostArea_rpq (h a : Nat) : (addLostArea h a t).rpq = t.rpq :=
  ((kept_addLostArea (l := [.reg]) (by simp) h a).mpr (.refl _ t)) .rpq (by simp)
@[simp] theorem addLostArea_sht (h a : Nat) : (addLostArea h a t).sht = t.sht :=
  ((kept_addLostArea (l := [.reg]) (by simp) h a).mpr (.refl _ t)) .sht (by simp)
@[simp] theorem addLostArea_cab (h a : Nat) : (addLostArea h a t).cab = t.cab :=
  ((kept_addLostArea (l := [.reg]) (by simp) h a).mpr (.refl _ t)) .cab (by simp)
@[simp] theorem addLostArea_spt (h a : Nat) : (addLostArea h a t).spt = t.spt :=
  ((kept_addLostArea (l := [.reg]) (by simp) h a).mpr (.refl _ t)) .spt (by simp)
@[simp] theorem addLostArea_alt (h a : Nat) : (addLostArea h a t).alt = t.alt :=
  ((kept_addLostArea (l := [.reg]) (by simp) h a).mpr (.refl _ t)) .alt (by simp)
@[simp] theorem addLostArea_cfg (h a : Nat) : (addLostArea h a t).cfg = t.cfg :=
  ((kept_addLostArea (l := [.reg]) (by simp) h a).mpr (.refl _ t)) .cfg (by simp)
@[simp] theorem addLostArea_tmb (h a : Nat) : (addLostArea h a t).tmb = t.tmb :=
  ((kept_addLostArea (l := [.reg]) (by simp) h a).mpr (.refl _ t)) .tmb (by simp)
@[simp] theorem addLostArea_out (h a : Nat) : (addLostArea h a t).out = t.out :=
  ((kept_addLostArea (l := [.reg]) (by simp) h a).mpr (.refl _ t)) .out (by simp)
@[simp] theorem addLostArea_pending (h a : Nat) : (addLostArea h a t).pending = t.pending :=
  ((kept_addLostArea (l := [.reg]) (by simp) h a).mpr (.refl _ t)) .pending (by simp)
@[simp] theorem addLostArea_setting (h a : Nat) (setting : Nat) : (addLostArea h a t).setting setting = t.setting setting := by
  simp [State.setting]
@[simp] theorem occupy_reg (p : Place) (o : Option Occupancy) : (t.occupy p o).reg = t.reg :=
  ((kept_occupy (l := [.cab]) (by simp) p o).mpr (.refl _ t)) .reg (by simp)
@[simp] theorem occupy_trc (p : Place) (o : Option Occupancy) : (t.occupy p o).trc = t.trc :=
  ((kept_occupy (l := [.cab]) (by simp) p o).mpr (.refl _ t)) .trc (by simp)
@[simp] theorem occupy_pru (p : Place) (o : Option Occupancy) : (t.occupy p o).pru = t.pru :=
  ((kept_occupy (l := [.cab]) (by simp) p o).mpr (.refl _ t)) .pru (by simp)
@[simp] theorem occupy_fcu (p : Place) (o : Option Occupancy) : (t.occupy p o).fcu = t.fcu :=
  ((kept_occupy (l := [.cab]) (by simp) p o).mpr (.refl _ t)) .fcu (by simp)
@[simp] theorem occupy_dsu (p : Place) (o : Option Occupancy) : (t.occupy p o).dsu = t.dsu :=
  ((kept_occupy (l := [.cab]) (by simp) p o).mpr (.refl _ t)) .dsu (by simp)
@[simp] theorem occupy_rpq (p : Place) (o : Option Occupancy) : (t.occupy p o).rpq = t.rpq :=
  ((kept_occupy (l := [.cab]) (by simp) p o).mpr (.refl _ t)) .rpq (by simp)
@[simp] theorem occupy_sht (p : Place) (o : Option Occupancy) : (t.occupy p o).sht = t.sht :=
  ((kept_occupy (l := [.cab]) (by simp) p o).mpr (.refl _ t)) .sht (by simp)
@[simp] theorem occupy_spt (p : Place) (o : Option Occupancy) : (t.occupy p o).spt = t.spt :=
  ((kept_occupy (l := [.cab]) (by simp) p o).mpr (.refl _ t)) .spt (by simp)
@[simp] theorem occupy_alt (p : Place) (o : Option Occupancy) : (t.occupy p o).alt = t.alt :=
  ((kept_occupy (l := [.cab]) (by simp) p o).mpr (.refl _ t)) .alt (by simp)
@[simp] theorem occupy_cfg (p : Place) (o : Option Occupancy) : (t.occupy p o).cfg = t.cfg :=
  ((kept_occupy (l := [.cab]) (by simp) p o).mpr (.refl _ t)) .cfg (by simp)
@[simp] theorem occupy_tmb (p : Place) (o : Option Occupancy) : (t.occupy p o).tmb = t.tmb :=
  ((kept_occupy (l := [.cab]) (by simp) p o).mpr (.refl _ t)) .tmb (by simp)
@[simp] theorem occupy_out (p : Place) (o : Option Occupancy) : (t.occupy p o).out = t.out :=
  ((kept_occupy (l := [.cab]) (by simp) p o).mpr (.refl _ t)) .out (by simp)
@[simp] theorem occupy_pending (p : Place) (o : Option Occupancy) : (t.occupy p o).pending = t.pending :=
  ((kept_occupy (l := [.cab]) (by simp) p o).mpr (.refl _ t)) .pending (by simp)
@[simp] theorem occupy_setting (p : Place) (o : Option Occupancy) (setting : Nat) : (t.occupy p o).setting setting = t.setting setting := by
  simp [State.setting]
@[simp] theorem occupy_reel (p : Place) (o : Option Occupancy) (reel : Nat) : (t.occupy p o).reel reel = t.reel reel := by
  simp [State.reel]
@[simp] theorem refreshCab_reg : (refreshCab t).reg = t.reg :=
  ((kept_refreshCab (l := [.cab, .alt]) (by simp) (by simp) ).mpr (.refl _ t)) .reg (by simp)
@[simp] theorem refreshCab_trc : (refreshCab t).trc = t.trc :=
  ((kept_refreshCab (l := [.cab, .alt]) (by simp) (by simp) ).mpr (.refl _ t)) .trc (by simp)
@[simp] theorem refreshCab_pru : (refreshCab t).pru = t.pru :=
  ((kept_refreshCab (l := [.cab, .alt]) (by simp) (by simp) ).mpr (.refl _ t)) .pru (by simp)
@[simp] theorem refreshCab_fcu : (refreshCab t).fcu = t.fcu :=
  ((kept_refreshCab (l := [.cab, .alt]) (by simp) (by simp) ).mpr (.refl _ t)) .fcu (by simp)
@[simp] theorem refreshCab_dsu : (refreshCab t).dsu = t.dsu :=
  ((kept_refreshCab (l := [.cab, .alt]) (by simp) (by simp) ).mpr (.refl _ t)) .dsu (by simp)
@[simp] theorem refreshCab_rpq : (refreshCab t).rpq = t.rpq :=
  ((kept_refreshCab (l := [.cab, .alt]) (by simp) (by simp) ).mpr (.refl _ t)) .rpq (by simp)
@[simp] theorem refreshCab_sht : (refreshCab t).sht = t.sht :=
  ((kept_refreshCab (l := [.cab, .alt]) (by simp) (by simp) ).mpr (.refl _ t)) .sht (by simp)
@[simp] theorem refreshCab_spt : (refreshCab t).spt = t.spt :=
  ((kept_refreshCab (l := [.cab, .alt]) (by simp) (by simp) ).mpr (.refl _ t)) .spt (by simp)
@[simp] theorem refreshCab_cfg : (refreshCab t).cfg = t.cfg :=
  ((kept_refreshCab (l := [.cab, .alt]) (by simp) (by simp) ).mpr (.refl _ t)) .cfg (by simp)
@[simp] theorem refreshCab_tmb : (refreshCab t).tmb = t.tmb :=
  ((kept_refreshCab (l := [.cab, .alt]) (by simp) (by simp) ).mpr (.refl _ t)) .tmb (by simp)
@[simp] theorem refreshCab_out : (refreshCab t).out = t.out :=
  ((kept_refreshCab (l := [.cab, .alt]) (by simp) (by simp) ).mpr (.refl _ t)) .out (by simp)
@[simp] theorem refreshCab_pending : (refreshCab t).pending = t.pending :=
  ((kept_refreshCab (l := [.cab, .alt]) (by simp) (by simp) ).mpr (.refl _ t)) .pending (by simp)
@[simp] theorem refreshCab_setting (setting : Nat) : (refreshCab t).setting setting = t.setting setting := by
  simp [State.setting]
@[simp] theorem refreshCab_reel (reel : Nat) : (refreshCab t).reel reel = t.reel reel := by
  simp [State.reel]
@[simp] theorem createMove_reg (h : Nat) (k : MoveKind) : (createMove h k t).reg = t.reg :=
  ((kept_createMove (l := [.cab]) (by simp) h k).mpr (.refl _ t)) .reg (by simp)
@[simp] theorem createMove_trc (h : Nat) (k : MoveKind) : (createMove h k t).trc = t.trc :=
  ((kept_createMove (l := [.cab]) (by simp) h k).mpr (.refl _ t)) .trc (by simp)
@[simp] theorem createMove_pru (h : Nat) (k : MoveKind) : (createMove h k t).pru = t.pru :=
  ((kept_createMove (l := [.cab]) (by simp) h k).mpr (.refl _ t)) .pru (by simp)
@[simp] theorem createMove_fcu (h : Nat) (k : MoveKind) : (createMove h k t).fcu = t.fcu :=
  ((kept_createMove (l := [.cab]) (by simp) h k).mpr (.refl _ t)) .fcu (by simp)
@[simp] theorem createMove_dsu (h : Nat) (k : MoveKind) : (createMove h k t).dsu = t.dsu :=
  ((kept_createMove (l := [.cab]) (by simp) h k).mpr (.refl _ t)) .dsu (by simp)
@[simp] theorem createMove_rpq (h : Nat) (k : MoveKind) : (createMove h k t).rpq = t.rpq :=
  ((kept_createMove (l := [.cab]) (by simp) h k).mpr (.refl _ t)) .rpq (by simp)
@[simp] theorem createMove_sht (h : Nat) (k : MoveKind) : (createMove h k t).sht = t.sht :=
  ((kept_createMove (l := [.cab]) (by simp) h k).mpr (.refl _ t)) .sht (by simp)
@[simp] theorem createMove_spt (h : Nat) (k : MoveKind) : (createMove h k t).spt = t.spt :=
  ((kept_createMove (l := [.cab]) (by simp) h k).mpr (.refl _ t)) .spt (by simp)
@[simp] theorem createMove_alt (h : Nat) (k : MoveKind) : (createMove h k t).alt = t.alt :=
  ((kept_createMove (l := [.cab]) (by simp) h k).mpr (.refl _ t)) .alt (by simp)
@[simp] theorem createMove_cfg (h : Nat) (k : MoveKind) : (createMove h k t).cfg = t.cfg :=
  ((kept_createMove (l := [.cab]) (by simp) h k).mpr (.refl _ t)) .cfg (by simp)
@[simp] theorem createMove_tmb (h : Nat) (k : MoveKind) : (createMove h k t).tmb = t.tmb :=
  ((kept_createMove (l := [.cab]) (by simp) h k).mpr (.refl _ t)) .tmb (by simp)
@[simp] theorem createMove_out (h : Nat) (k : MoveKind) : (createMove h k t).out = t.out :=
  ((kept_createMove (l := [.cab]) (by simp) h k).mpr (.refl _ t)) .out (by simp)
@[simp] theorem createMove_pending (h : Nat) (k : MoveKind) : (createMove h k t).pending = t.pending :=
  ((kept_createMove (l := [.cab]) (by simp) h k).mpr (.refl _ t)) .pending (by simp)
@[simp] theorem createMove_setting (h : Nat) (k : MoveKind) (setting : Nat) : (createMove h k t).setting setting = t.setting setting := by
  simp [State.setting]
@[simp] theorem createMove_reel (h : Nat) (k : MoveKind) (reel : Nat) : (createMove h k t).reel reel = t.reel reel := by
  simp [State.reel]
@[simp] theorem enterAuto_reg (h : Nat) (k : MoveKind) : (enterAuto h k t).reg = t.reg :=
  ((kept_enterAuto (l := [.cab, .alt]) (by simp) (by simp) h k).mpr (.refl _ t)) .reg (by simp)
@[simp] theorem enterAuto_trc (h : Nat) (k : MoveKind) : (enterAuto h k t).trc = t.trc :=
  ((kept_enterAuto (l := [.cab, .alt]) (by simp) (by simp) h k).mpr (.refl _ t)) .trc (by simp)
@[simp] theorem enterAuto_pru (h : Nat) (k : MoveKind) : (enterAuto h k t).pru = t.pru :=
  ((kept_enterAuto (l := [.cab, .alt]) (by simp) (by simp) h k).mpr (.refl _ t)) .pru (by simp)
@[simp] theorem enterAuto_fcu (h : Nat) (k : MoveKind) : (enterAuto h k t).fcu = t.fcu :=
  ((kept_enterAuto (l := [.cab, .alt]) (by simp) (by simp) h k).mpr (.refl _ t)) .fcu (by simp)
@[simp] theorem enterAuto_dsu (h : Nat) (k : MoveKind) : (enterAuto h k t).dsu = t.dsu :=
  ((kept_enterAuto (l := [.cab, .alt]) (by simp) (by simp) h k).mpr (.refl _ t)) .dsu (by simp)
@[simp] theorem enterAuto_rpq (h : Nat) (k : MoveKind) : (enterAuto h k t).rpq = t.rpq :=
  ((kept_enterAuto (l := [.cab, .alt]) (by simp) (by simp) h k).mpr (.refl _ t)) .rpq (by simp)
@[simp] theorem enterAuto_sht (h : Nat) (k : MoveKind) : (enterAuto h k t).sht = t.sht :=
  ((kept_enterAuto (l := [.cab, .alt]) (by simp) (by simp) h k).mpr (.refl _ t)) .sht (by simp)
@[simp] theorem enterAuto_spt (h : Nat) (k : MoveKind) : (enterAuto h k t).spt = t.spt :=
  ((kept_enterAuto (l := [.cab, .alt]) (by simp) (by simp) h k).mpr (.refl _ t)) .spt (by simp)
@[simp] theorem enterAuto_cfg (h : Nat) (k : MoveKind) : (enterAuto h k t).cfg = t.cfg :=
  ((kept_enterAuto (l := [.cab, .alt]) (by simp) (by simp) h k).mpr (.refl _ t)) .cfg (by simp)
@[simp] theorem enterAuto_tmb (h : Nat) (k : MoveKind) : (enterAuto h k t).tmb = t.tmb :=
  ((kept_enterAuto (l := [.cab, .alt]) (by simp) (by simp) h k).mpr (.refl _ t)) .tmb (by simp)
@[simp] theorem enterAuto_out (h : Nat) (k : MoveKind) : (enterAuto h k t).out = t.out :=
  ((kept_enterAuto (l := [.cab, .alt]) (by simp) (by simp) h k).mpr (.refl _ t)) .out (by simp)
@[simp] theorem enterAuto_pending (h : Nat) (k : MoveKind) : (enterAuto h k t).pending = t.pending :=
  ((kept_enterAuto (l := [.cab, .alt]) (by simp) (by simp) h k).mpr (.refl _ t)) .pending (by simp)
@[simp] theorem enterAuto_setting (h : Nat) (k : MoveKind) (setting : Nat) : (enterAuto h k t).setting setting = t.setting setting := by
  simp [State.setting]
@[simp] theorem enterAuto_reel (h : Nat) (k : MoveKind) (reel : Nat) : (enterAuto h k t).reel reel = t.reel reel := by
  simp [State.reel]
@[simp] theorem autoMove_reg (h : Nat) (k : MoveKind) : (autoMove h k t).reg = t.reg :=
  ((kept_autoMove (l := [.cab, .alt]) (by simp) (by simp) h k).mpr (.refl _ t)) .reg (by simp)
@[simp] theorem autoMove_trc (h : Nat) (k : MoveKind) : (autoMove h k t).trc = t.trc :=
  ((kept_autoMove (l := [.cab, .alt]) (by simp) (by simp) h k).mpr (.refl _ t)) .trc (by simp)
@[simp] theorem autoMove_pru (h : Nat) (k : MoveKind) : (autoMove h k t).pru = t.pru :=
  ((kept_autoMove (l := [.cab, .alt]) (by simp) (by simp) h k).mpr (.refl _ t)) .pru (by simp)
@[simp] theorem autoMove_fcu (h : Nat) (k : MoveKind) : (autoMove h k t).fcu = t.fcu :=
  ((kept_autoMove (l := [.cab, .alt]) (by simp) (by simp) h k).mpr (.refl _ t)) .fcu (by simp)
@[simp] theorem autoMove_dsu (h : Nat) (k : MoveKind) : (autoMove h k t).dsu = t.dsu :=
  ((kept_autoMove (l := [.cab, .alt]) (by simp) (by simp) h k).mpr (.refl _ t)) .dsu (by simp)
@[simp] theorem autoMove_rpq (h : Nat) (k : MoveKind) : (autoMove h k t).rpq = t.rpq :=
  ((kept_autoMove (l := [.cab, .alt]) (by simp) (by simp) h k).mpr (.refl _ t)) .rpq (by simp)
@[simp] theorem autoMove_sht (h : Nat) (k : MoveKind) : (autoMove h k t).sht = t.sht :=
  ((kept_autoMove (l := [.cab, .alt]) (by simp) (by simp) h k).mpr (.refl _ t)) .sht (by simp)
@[simp] theorem autoMove_spt (h : Nat) (k : MoveKind) : (autoMove h k t).spt = t.spt :=
  ((kept_autoMove (l := [.cab, .alt]) (by simp) (by simp) h k).mpr (.refl _ t)) .spt (by simp)
@[simp] theorem autoMove_cfg (h : Nat) (k : MoveKind) : (autoMove h k t).cfg = t.cfg :=
  ((kept_autoMove (l := [.cab, .alt]) (by simp) (by simp) h k).mpr (.refl _ t)) .cfg (by simp)
@[simp] theorem autoMove_tmb (h : Nat) (k : MoveKind) : (autoMove h k t).tmb = t.tmb :=
  ((kept_autoMove (l := [.cab, .alt]) (by simp) (by simp) h k).mpr (.refl _ t)) .tmb (by simp)
@[simp] theorem autoMove_out (h : Nat) (k : MoveKind) : (autoMove h k t).out = t.out :=
  ((kept_autoMove (l := [.cab, .alt]) (by simp) (by simp) h k).mpr (.refl _ t)) .out (by simp)
@[simp] theorem autoMove_pending (h : Nat) (k : MoveKind) : (autoMove h k t).pending = t.pending :=
  ((kept_autoMove (l := [.cab, .alt]) (by simp) (by simp) h k).mpr (.refl _ t)) .pending (by simp)
@[simp] theorem autoMove_setting (h : Nat) (k : MoveKind) (setting : Nat) : (autoMove h k t).setting setting = t.setting setting := by
  simp [State.setting]
@[simp] theorem autoMove_reel (h : Nat) (k : MoveKind) (reel : Nat) : (autoMove h k t).reel reel = t.reel reel := by
  simp [State.reel]
@[simp] theorem drain_reg : (drain t).reg = t.reg :=
  ((kept_drain (l := [.cab, .alt]) (by simp) (by simp) ).mpr (.refl _ t)) .reg (by simp)
@[simp] theorem drain_trc : (drain t).trc = t.trc :=
  ((kept_drain (l := [.cab, .alt]) (by simp) (by simp) ).mpr (.refl _ t)) .trc (by simp)
@[simp] theorem drain_pru : (drain t).pru = t.pru :=
  ((kept_drain (l := [.cab, .alt]) (by simp) (by simp) ).mpr (.refl _ t)) .pru (by simp)
@[simp] theorem drain_fcu : (drain t).fcu = t.fcu :=
  ((kept_drain (l := [.cab, .alt]) (by simp) (by simp) ).mpr (.refl _ t)) .fcu (by simp)
@[simp] theorem drain_dsu : (drain t).dsu = t.dsu :=
  ((kept_drain (l := [.cab, .alt]) (by simp) (by simp) ).mpr (.refl _ t)) .dsu (by simp)
@[simp] theorem drain_rpq : (drain t).rpq = t.rpq :=
  ((kept_drain (l := [.cab, .alt]) (by simp) (by simp) ).mpr (.refl _ t)) .rpq (by simp)
@[simp] theorem drain_sht : (drain t).sht = t.sht :=
  ((kept_drain (l := [.cab, .alt]) (by simp) (by simp) ).mpr (.refl _ t)) .sht (by simp)
@[simp] theorem drain_spt : (drain t).spt = t.spt :=
  ((kept_drain (l := [.cab, .alt]) (by simp) (by simp) ).mpr (.refl _ t)) .spt (by simp)
@[simp] theorem drain_cfg : (drain t).cfg = t.cfg :=
  ((kept_drain (l := [.cab, .alt]) (by simp) (by simp) ).mpr (.refl _ t)) .cfg (by simp)
@[simp] theorem drain_tmb : (drain t).tmb = t.tmb :=
  ((kept_drain (l := [.cab, .alt]) (by simp) (by simp) ).mpr (.refl _ t)) .tmb (by simp)
@[simp] theorem drain_out : (drain t).out = t.out :=
  ((kept_drain (l := [.cab, .alt]) (by simp) (by simp) ).mpr (.refl _ t)) .out (by simp)
@[simp] theorem drain_pending : (drain t).pending = t.pending :=
  ((kept_drain (l := [.cab, .alt]) (by simp) (by simp) ).mpr (.refl _ t)) .pending (by simp)
@[simp] theorem drain_setting (setting : Nat) : (drain t).setting setting = t.setting setting := by
  simp [State.setting]
@[simp] theorem drain_reel (reel : Nat) : (drain t).reel reel = t.reel reel := by
  simp [State.reel]
@[simp] theorem relocationCheck_trc (h : Nat) : (relocationCheck h t).trc = t.trc :=
  ((kept_relocationCheck (l := [.reg, .cab, .alt]) (by simp) (by simp) (by simp) h).mpr (.refl _ t)) .trc (by simp)
@[simp] theorem relocationCheck_pru (h : Nat) : (relocationCheck h t).pru = t.pru :=
  ((kept_relocationCheck (l := [.reg, .cab, .alt]) (by simp) (by simp) (by simp) h).mpr (.refl _ t)) .pru (by simp)
@[simp] theorem relocationCheck_fcu (h : Nat) : (relocationCheck h t).fcu = t.fcu :=
  ((kept_relocationCheck (l := [.reg, .cab, .alt]) (by simp) (by simp) (by simp) h).mpr (.refl _ t)) .fcu (by simp)
@[simp] theorem relocationCheck_dsu (h : Nat) : (relocationCheck h t).dsu = t.dsu :=
  ((kept_relocationCheck (l := [.reg, .cab, .alt]) (by simp) (by simp) (by simp) h).mpr (.refl _ t)) .dsu (by simp)
@[simp] theorem relocationCheck_rpq (h : Nat) : (relocationCheck h t).rpq = t.rpq :=
  ((kept_relocationCheck (l := [.reg, .cab, .alt]) (by simp) (by simp) (by simp) h).mpr (.refl _ t)) .rpq (by simp)
@[simp] theorem relocationCheck_sht (h : Nat) : (relocationCheck h t).sht = t.sht :=
  ((kept_relocationCheck (l := [.reg, .cab, .alt]) (by simp) (by simp) (by simp) h).mpr (.refl _ t)) .sht (by simp)
@[simp] theorem relocationCheck_spt (h : Nat) : (relocationCheck h t).spt = t.spt :=
  ((kept_relocationCheck (l := [.reg, .cab, .alt]) (by simp) (by simp) (by simp) h).mpr (.refl _ t)) .spt (by simp)
@[simp] theorem relocationCheck_cfg (h : Nat) : (relocationCheck h t).cfg = t.cfg :=
  ((kept_relocationCheck (l := [.reg, .cab, .alt]) (by simp) (by simp) (by simp) h).mpr (.refl _ t)) .cfg (by simp)
@[simp] theorem relocationCheck_tmb (h : Nat) : (relocationCheck h t).tmb = t.tmb :=
  ((kept_relocationCheck (l := [.reg, .cab, .alt]) (by simp) (by simp) (by simp) h).mpr (.refl _ t)) .tmb (by simp)
@[simp] theorem relocationCheck_out (h : Nat) : (relocationCheck h t).out = t.out :=
  ((kept_relocationCheck (l := [.reg, .cab, .alt]) (by simp) (by simp) (by simp) h).mpr (.refl _ t)) .out (by simp)
@[simp] theorem relocationCheck_pending (h : Nat) : (relocationCheck h t).pending = t.pending :=
  ((kept_relocationCheck (l := [.reg, .cab, .alt]) (by simp) (by simp) (by simp) h).mpr (.refl _ t)) .pending (by simp)
@[simp] theorem relocationCheck_setting (h : Nat) (setting : Nat) : (relocationCheck h t).setting setting = t.setting setting := by
  simp [State.setting]
@[simp] theorem backToShelved_trc (h : Nat) : (backToShelved h t).trc = t.trc :=
  ((kept_backToShelved (l := [.reg, .cab, .alt]) (by simp) (by simp) (by simp) h).mpr (.refl _ t)) .trc (by simp)
@[simp] theorem backToShelved_pru (h : Nat) : (backToShelved h t).pru = t.pru :=
  ((kept_backToShelved (l := [.reg, .cab, .alt]) (by simp) (by simp) (by simp) h).mpr (.refl _ t)) .pru (by simp)
@[simp] theorem backToShelved_fcu (h : Nat) : (backToShelved h t).fcu = t.fcu :=
  ((kept_backToShelved (l := [.reg, .cab, .alt]) (by simp) (by simp) (by simp) h).mpr (.refl _ t)) .fcu (by simp)
@[simp] theorem backToShelved_dsu (h : Nat) : (backToShelved h t).dsu = t.dsu :=
  ((kept_backToShelved (l := [.reg, .cab, .alt]) (by simp) (by simp) (by simp) h).mpr (.refl _ t)) .dsu (by simp)
@[simp] theorem backToShelved_rpq (h : Nat) : (backToShelved h t).rpq = t.rpq :=
  ((kept_backToShelved (l := [.reg, .cab, .alt]) (by simp) (by simp) (by simp) h).mpr (.refl _ t)) .rpq (by simp)
@[simp] theorem backToShelved_sht (h : Nat) : (backToShelved h t).sht = t.sht :=
  ((kept_backToShelved (l := [.reg, .cab, .alt]) (by simp) (by simp) (by simp) h).mpr (.refl _ t)) .sht (by simp)
@[simp] theorem backToShelved_spt (h : Nat) : (backToShelved h t).spt = t.spt :=
  ((kept_backToShelved (l := [.reg, .cab, .alt]) (by simp) (by simp) (by simp) h).mpr (.refl _ t)) .spt (by simp)
@[simp] theorem backToShelved_cfg (h : Nat) : (backToShelved h t).cfg = t.cfg :=
  ((kept_backToShelved (l := [.reg, .cab, .alt]) (by simp) (by simp) (by simp) h).mpr (.refl _ t)) .cfg (by simp)
@[simp] theorem backToShelved_tmb (h : Nat) : (backToShelved h t).tmb = t.tmb :=
  ((kept_backToShelved (l := [.reg, .cab, .alt]) (by simp) (by simp) (by simp) h).mpr (.refl _ t)) .tmb (by simp)
@[simp] theorem backToShelved_out (h : Nat) : (backToShelved h t).out = t.out :=
  ((kept_backToShelved (l := [.reg, .cab, .alt]) (by simp) (by simp) (by simp) h).mpr (.refl _ t)) .out (by simp)
@[simp] theorem backToShelved_pending (h : Nat) : (backToShelved h t).pending = t.pending :=
  ((kept_backToShelved (l := [.reg, .cab, .alt]) (by simp) (by simp) (by simp) h).mpr (.refl _ t)) .pending (by simp)
@[simp] theorem backToShelved_setting (h : Nat) (setting : Nat) : (backToShelved h t).setting setting = t.setting setting := by
  simp [State.setting]
@[simp] theorem moveDamage_trc (i : Nat) (st : DamageState) : (moveDamage i st t).trc = t.trc :=
  ((kept_moveDamage (l := [.reg, .rpq]) (by simp) (by simp) i st).mpr (.refl _ t)) .trc (by simp)
@[simp] theorem moveDamage_pru (i : Nat) (st : DamageState) : (moveDamage i st t).pru = t.pru :=
  ((kept_moveDamage (l := [.reg, .rpq]) (by simp) (by simp) i st).mpr (.refl _ t)) .pru (by simp)
@[simp] theorem moveDamage_fcu (i : Nat) (st : DamageState) : (moveDamage i st t).fcu = t.fcu :=
  ((kept_moveDamage (l := [.reg, .rpq]) (by simp) (by simp) i st).mpr (.refl _ t)) .fcu (by simp)
@[simp] theorem moveDamage_dsu (i : Nat) (st : DamageState) : (moveDamage i st t).dsu = t.dsu :=
  ((kept_moveDamage (l := [.reg, .rpq]) (by simp) (by simp) i st).mpr (.refl _ t)) .dsu (by simp)
@[simp] theorem moveDamage_sht (i : Nat) (st : DamageState) : (moveDamage i st t).sht = t.sht :=
  ((kept_moveDamage (l := [.reg, .rpq]) (by simp) (by simp) i st).mpr (.refl _ t)) .sht (by simp)
@[simp] theorem moveDamage_cab (i : Nat) (st : DamageState) : (moveDamage i st t).cab = t.cab :=
  ((kept_moveDamage (l := [.reg, .rpq]) (by simp) (by simp) i st).mpr (.refl _ t)) .cab (by simp)
@[simp] theorem moveDamage_spt (i : Nat) (st : DamageState) : (moveDamage i st t).spt = t.spt :=
  ((kept_moveDamage (l := [.reg, .rpq]) (by simp) (by simp) i st).mpr (.refl _ t)) .spt (by simp)
@[simp] theorem moveDamage_alt (i : Nat) (st : DamageState) : (moveDamage i st t).alt = t.alt :=
  ((kept_moveDamage (l := [.reg, .rpq]) (by simp) (by simp) i st).mpr (.refl _ t)) .alt (by simp)
@[simp] theorem moveDamage_cfg (i : Nat) (st : DamageState) : (moveDamage i st t).cfg = t.cfg :=
  ((kept_moveDamage (l := [.reg, .rpq]) (by simp) (by simp) i st).mpr (.refl _ t)) .cfg (by simp)
@[simp] theorem moveDamage_tmb (i : Nat) (st : DamageState) : (moveDamage i st t).tmb = t.tmb :=
  ((kept_moveDamage (l := [.reg, .rpq]) (by simp) (by simp) i st).mpr (.refl _ t)) .tmb (by simp)
@[simp] theorem moveDamage_out (i : Nat) (st : DamageState) : (moveDamage i st t).out = t.out :=
  ((kept_moveDamage (l := [.reg, .rpq]) (by simp) (by simp) i st).mpr (.refl _ t)) .out (by simp)
@[simp] theorem moveDamage_pending (i : Nat) (st : DamageState) : (moveDamage i st t).pending = t.pending :=
  ((kept_moveDamage (l := [.reg, .rpq]) (by simp) (by simp) i st).mpr (.refl _ t)) .pending (by simp)
@[simp] theorem moveDamage_setting (i : Nat) (st : DamageState) (setting : Nat) : (moveDamage i st t).setting setting = t.setting setting := by
  simp [State.setting]
@[simp] theorem closeDamage_trc (o : DamageOutcome) (i : Nat) : (closeDamage o t i).trc = t.trc :=
  ((kept_closeDamage (l := [.reg, .rpq]) (by simp) (by simp) o i).mpr (.refl _ t)) .trc (by simp)
@[simp] theorem closeDamage_pru (o : DamageOutcome) (i : Nat) : (closeDamage o t i).pru = t.pru :=
  ((kept_closeDamage (l := [.reg, .rpq]) (by simp) (by simp) o i).mpr (.refl _ t)) .pru (by simp)
@[simp] theorem closeDamage_fcu (o : DamageOutcome) (i : Nat) : (closeDamage o t i).fcu = t.fcu :=
  ((kept_closeDamage (l := [.reg, .rpq]) (by simp) (by simp) o i).mpr (.refl _ t)) .fcu (by simp)
@[simp] theorem closeDamage_dsu (o : DamageOutcome) (i : Nat) : (closeDamage o t i).dsu = t.dsu :=
  ((kept_closeDamage (l := [.reg, .rpq]) (by simp) (by simp) o i).mpr (.refl _ t)) .dsu (by simp)
@[simp] theorem closeDamage_sht (o : DamageOutcome) (i : Nat) : (closeDamage o t i).sht = t.sht :=
  ((kept_closeDamage (l := [.reg, .rpq]) (by simp) (by simp) o i).mpr (.refl _ t)) .sht (by simp)
@[simp] theorem closeDamage_cab (o : DamageOutcome) (i : Nat) : (closeDamage o t i).cab = t.cab :=
  ((kept_closeDamage (l := [.reg, .rpq]) (by simp) (by simp) o i).mpr (.refl _ t)) .cab (by simp)
@[simp] theorem closeDamage_spt (o : DamageOutcome) (i : Nat) : (closeDamage o t i).spt = t.spt :=
  ((kept_closeDamage (l := [.reg, .rpq]) (by simp) (by simp) o i).mpr (.refl _ t)) .spt (by simp)
@[simp] theorem closeDamage_alt (o : DamageOutcome) (i : Nat) : (closeDamage o t i).alt = t.alt :=
  ((kept_closeDamage (l := [.reg, .rpq]) (by simp) (by simp) o i).mpr (.refl _ t)) .alt (by simp)
@[simp] theorem closeDamage_cfg (o : DamageOutcome) (i : Nat) : (closeDamage o t i).cfg = t.cfg :=
  ((kept_closeDamage (l := [.reg, .rpq]) (by simp) (by simp) o i).mpr (.refl _ t)) .cfg (by simp)
@[simp] theorem closeDamage_tmb (o : DamageOutcome) (i : Nat) : (closeDamage o t i).tmb = t.tmb :=
  ((kept_closeDamage (l := [.reg, .rpq]) (by simp) (by simp) o i).mpr (.refl _ t)) .tmb (by simp)
@[simp] theorem closeDamage_out (o : DamageOutcome) (i : Nat) : (closeDamage o t i).out = t.out :=
  ((kept_closeDamage (l := [.reg, .rpq]) (by simp) (by simp) o i).mpr (.refl _ t)) .out (by simp)
@[simp] theorem closeDamage_pending (o : DamageOutcome) (i : Nat) : (closeDamage o t i).pending = t.pending :=
  ((kept_closeDamage (l := [.reg, .rpq]) (by simp) (by simp) o i).mpr (.refl _ t)) .pending (by simp)
@[simp] theorem closeDamage_setting (o : DamageOutcome) (i : Nat) (setting : Nat) : (closeDamage o t i).setting setting = t.setting setting := by
  simp [State.setting]
@[simp] theorem modDamage_reg (i : Nat) (f : Damage → Damage) : (t.modDamage i f).reg = t.reg :=
  ((kept_modDamage (l := [.rpq]) (by simp) i f).mpr (.refl _ t)) .reg (by simp)
@[simp] theorem modDamage_trc (i : Nat) (f : Damage → Damage) : (t.modDamage i f).trc = t.trc :=
  ((kept_modDamage (l := [.rpq]) (by simp) i f).mpr (.refl _ t)) .trc (by simp)
@[simp] theorem modDamage_pru (i : Nat) (f : Damage → Damage) : (t.modDamage i f).pru = t.pru :=
  ((kept_modDamage (l := [.rpq]) (by simp) i f).mpr (.refl _ t)) .pru (by simp)
@[simp] theorem modDamage_fcu (i : Nat) (f : Damage → Damage) : (t.modDamage i f).fcu = t.fcu :=
  ((kept_modDamage (l := [.rpq]) (by simp) i f).mpr (.refl _ t)) .fcu (by simp)
@[simp] theorem modDamage_dsu (i : Nat) (f : Damage → Damage) : (t.modDamage i f).dsu = t.dsu :=
  ((kept_modDamage (l := [.rpq]) (by simp) i f).mpr (.refl _ t)) .dsu (by simp)
@[simp] theorem modDamage_sht (i : Nat) (f : Damage → Damage) : (t.modDamage i f).sht = t.sht :=
  ((kept_modDamage (l := [.rpq]) (by simp) i f).mpr (.refl _ t)) .sht (by simp)
@[simp] theorem modDamage_cab (i : Nat) (f : Damage → Damage) : (t.modDamage i f).cab = t.cab :=
  ((kept_modDamage (l := [.rpq]) (by simp) i f).mpr (.refl _ t)) .cab (by simp)
@[simp] theorem modDamage_spt (i : Nat) (f : Damage → Damage) : (t.modDamage i f).spt = t.spt :=
  ((kept_modDamage (l := [.rpq]) (by simp) i f).mpr (.refl _ t)) .spt (by simp)
@[simp] theorem modDamage_alt (i : Nat) (f : Damage → Damage) : (t.modDamage i f).alt = t.alt :=
  ((kept_modDamage (l := [.rpq]) (by simp) i f).mpr (.refl _ t)) .alt (by simp)
@[simp] theorem modDamage_cfg (i : Nat) (f : Damage → Damage) : (t.modDamage i f).cfg = t.cfg :=
  ((kept_modDamage (l := [.rpq]) (by simp) i f).mpr (.refl _ t)) .cfg (by simp)
@[simp] theorem modDamage_tmb (i : Nat) (f : Damage → Damage) : (t.modDamage i f).tmb = t.tmb :=
  ((kept_modDamage (l := [.rpq]) (by simp) i f).mpr (.refl _ t)) .tmb (by simp)
@[simp] theorem modDamage_out (i : Nat) (f : Damage → Damage) : (t.modDamage i f).out = t.out :=
  ((kept_modDamage (l := [.rpq]) (by simp) i f).mpr (.refl _ t)) .out (by simp)
@[simp] theorem modDamage_pending (i : Nat) (f : Damage → Damage) : (t.modDamage i f).pending = t.pending :=
  ((kept_modDamage (l := [.rpq]) (by simp) i f).mpr (.refl _ t)) .pending (by simp)
@[simp] theorem modDamage_setting (i : Nat) (f : Damage → Damage) (setting : Nat) : (t.modDamage i f).setting setting = t.setting setting := by
  simp [State.setting]
@[simp] theorem modDamage_reel (i : Nat) (f : Damage → Damage) (reel : Nat) : (t.modDamage i f).reel reel = t.reel reel := by
  simp [State.reel]
@[simp] theorem releaseClaims_trc (p : Port) : (releaseClaims p t).trc = t.trc :=
  ((kept_releaseClaims (l := [.reg, .rpq, .alt]) (by simp) (by simp) (by simp) p).mpr (.refl _ t)) .trc (by simp)
@[simp] theorem releaseClaims_pru (p : Port) : (releaseClaims p t).pru = t.pru :=
  ((kept_releaseClaims (l := [.reg, .rpq, .alt]) (by simp) (by simp) (by simp) p).mpr (.refl _ t)) .pru (by simp)
@[simp] theorem releaseClaims_fcu (p : Port) : (releaseClaims p t).fcu = t.fcu :=
  ((kept_releaseClaims (l := [.reg, .rpq, .alt]) (by simp) (by simp) (by simp) p).mpr (.refl _ t)) .fcu (by simp)
@[simp] theorem releaseClaims_dsu (p : Port) : (releaseClaims p t).dsu = t.dsu :=
  ((kept_releaseClaims (l := [.reg, .rpq, .alt]) (by simp) (by simp) (by simp) p).mpr (.refl _ t)) .dsu (by simp)
@[simp] theorem releaseClaims_sht (p : Port) : (releaseClaims p t).sht = t.sht :=
  ((kept_releaseClaims (l := [.reg, .rpq, .alt]) (by simp) (by simp) (by simp) p).mpr (.refl _ t)) .sht (by simp)
@[simp] theorem releaseClaims_cab (p : Port) : (releaseClaims p t).cab = t.cab :=
  ((kept_releaseClaims (l := [.reg, .rpq, .alt]) (by simp) (by simp) (by simp) p).mpr (.refl _ t)) .cab (by simp)
@[simp] theorem releaseClaims_spt (p : Port) : (releaseClaims p t).spt = t.spt :=
  ((kept_releaseClaims (l := [.reg, .rpq, .alt]) (by simp) (by simp) (by simp) p).mpr (.refl _ t)) .spt (by simp)
@[simp] theorem releaseClaims_cfg (p : Port) : (releaseClaims p t).cfg = t.cfg :=
  ((kept_releaseClaims (l := [.reg, .rpq, .alt]) (by simp) (by simp) (by simp) p).mpr (.refl _ t)) .cfg (by simp)
@[simp] theorem releaseClaims_tmb (p : Port) : (releaseClaims p t).tmb = t.tmb :=
  ((kept_releaseClaims (l := [.reg, .rpq, .alt]) (by simp) (by simp) (by simp) p).mpr (.refl _ t)) .tmb (by simp)
@[simp] theorem releaseClaims_out (p : Port) : (releaseClaims p t).out = t.out :=
  ((kept_releaseClaims (l := [.reg, .rpq, .alt]) (by simp) (by simp) (by simp) p).mpr (.refl _ t)) .out (by simp)
@[simp] theorem releaseClaims_pending (p : Port) : (releaseClaims p t).pending = t.pending :=
  ((kept_releaseClaims (l := [.reg, .rpq, .alt]) (by simp) (by simp) (by simp) p).mpr (.refl _ t)) .pending (by simp)
@[simp] theorem releaseClaims_setting (p : Port) (setting : Nat) : (releaseClaims p t).setting setting = t.setting setting := by
  simp [State.setting]
@[simp] theorem freeDamage_reg (h : Nat) : (freeDamage h t).reg = t.reg :=
  ((kept_freeDamage (l := [.rpq]) (by simp) h).mpr (.refl _ t)) .reg (by simp)
@[simp] theorem freeDamage_trc (h : Nat) : (freeDamage h t).trc = t.trc :=
  ((kept_freeDamage (l := [.rpq]) (by simp) h).mpr (.refl _ t)) .trc (by simp)
@[simp] theorem freeDamage_pru (h : Nat) : (freeDamage h t).pru = t.pru :=
  ((kept_freeDamage (l := [.rpq]) (by simp) h).mpr (.refl _ t)) .pru (by simp)
@[simp] theorem freeDamage_fcu (h : Nat) : (freeDamage h t).fcu = t.fcu :=
  ((kept_freeDamage (l := [.rpq]) (by simp) h).mpr (.refl _ t)) .fcu (by simp)
@[simp] theorem freeDamage_dsu (h : Nat) : (freeDamage h t).dsu = t.dsu :=
  ((kept_freeDamage (l := [.rpq]) (by simp) h).mpr (.refl _ t)) .dsu (by simp)
@[simp] theorem freeDamage_sht (h : Nat) : (freeDamage h t).sht = t.sht :=
  ((kept_freeDamage (l := [.rpq]) (by simp) h).mpr (.refl _ t)) .sht (by simp)
@[simp] theorem freeDamage_cab (h : Nat) : (freeDamage h t).cab = t.cab :=
  ((kept_freeDamage (l := [.rpq]) (by simp) h).mpr (.refl _ t)) .cab (by simp)
@[simp] theorem freeDamage_spt (h : Nat) : (freeDamage h t).spt = t.spt :=
  ((kept_freeDamage (l := [.rpq]) (by simp) h).mpr (.refl _ t)) .spt (by simp)
@[simp] theorem freeDamage_alt (h : Nat) : (freeDamage h t).alt = t.alt :=
  ((kept_freeDamage (l := [.rpq]) (by simp) h).mpr (.refl _ t)) .alt (by simp)
@[simp] theorem freeDamage_cfg (h : Nat) : (freeDamage h t).cfg = t.cfg :=
  ((kept_freeDamage (l := [.rpq]) (by simp) h).mpr (.refl _ t)) .cfg (by simp)
@[simp] theorem freeDamage_tmb (h : Nat) : (freeDamage h t).tmb = t.tmb :=
  ((kept_freeDamage (l := [.rpq]) (by simp) h).mpr (.refl _ t)) .tmb (by simp)
@[simp] theorem freeDamage_out (h : Nat) : (freeDamage h t).out = t.out :=
  ((kept_freeDamage (l := [.rpq]) (by simp) h).mpr (.refl _ t)) .out (by simp)
@[simp] theorem freeDamage_pending (h : Nat) : (freeDamage h t).pending = t.pending :=
  ((kept_freeDamage (l := [.rpq]) (by simp) h).mpr (.refl _ t)) .pending (by simp)
@[simp] theorem freeDamage_setting (h : Nat) (setting : Nat) : (freeDamage h t).setting setting = t.setting setting := by
  simp [State.setting]
@[simp] theorem freeDamage_reel (h : Nat) (reel : Nat) : (freeDamage h t).reel reel = t.reel reel := by
  simp [State.reel]
@[simp] theorem breakChains_reg : (breakChains t).reg = t.reg :=
  ((kept_breakChains (l := [.rpq]) (by simp) ).mpr (.refl _ t)) .reg (by simp)
@[simp] theorem breakChains_trc : (breakChains t).trc = t.trc :=
  ((kept_breakChains (l := [.rpq]) (by simp) ).mpr (.refl _ t)) .trc (by simp)
@[simp] theorem breakChains_pru : (breakChains t).pru = t.pru :=
  ((kept_breakChains (l := [.rpq]) (by simp) ).mpr (.refl _ t)) .pru (by simp)
@[simp] theorem breakChains_fcu : (breakChains t).fcu = t.fcu :=
  ((kept_breakChains (l := [.rpq]) (by simp) ).mpr (.refl _ t)) .fcu (by simp)
@[simp] theorem breakChains_dsu : (breakChains t).dsu = t.dsu :=
  ((kept_breakChains (l := [.rpq]) (by simp) ).mpr (.refl _ t)) .dsu (by simp)
@[simp] theorem breakChains_sht : (breakChains t).sht = t.sht :=
  ((kept_breakChains (l := [.rpq]) (by simp) ).mpr (.refl _ t)) .sht (by simp)
@[simp] theorem breakChains_cab : (breakChains t).cab = t.cab :=
  ((kept_breakChains (l := [.rpq]) (by simp) ).mpr (.refl _ t)) .cab (by simp)
@[simp] theorem breakChains_spt : (breakChains t).spt = t.spt :=
  ((kept_breakChains (l := [.rpq]) (by simp) ).mpr (.refl _ t)) .spt (by simp)
@[simp] theorem breakChains_alt : (breakChains t).alt = t.alt :=
  ((kept_breakChains (l := [.rpq]) (by simp) ).mpr (.refl _ t)) .alt (by simp)
@[simp] theorem breakChains_cfg : (breakChains t).cfg = t.cfg :=
  ((kept_breakChains (l := [.rpq]) (by simp) ).mpr (.refl _ t)) .cfg (by simp)
@[simp] theorem breakChains_tmb : (breakChains t).tmb = t.tmb :=
  ((kept_breakChains (l := [.rpq]) (by simp) ).mpr (.refl _ t)) .tmb (by simp)
@[simp] theorem breakChains_out : (breakChains t).out = t.out :=
  ((kept_breakChains (l := [.rpq]) (by simp) ).mpr (.refl _ t)) .out (by simp)
@[simp] theorem breakChains_pending : (breakChains t).pending = t.pending :=
  ((kept_breakChains (l := [.rpq]) (by simp) ).mpr (.refl _ t)) .pending (by simp)
@[simp] theorem breakChains_setting (setting : Nat) : (breakChains t).setting setting = t.setting setting := by
  simp [State.setting]
@[simp] theorem breakChains_reel (reel : Nat) : (breakChains t).reel reel = t.reel reel := by
  simp [State.reel]
@[simp] theorem createDamage_trc (h k : Nat) (x : Found) : ((createDamage h k x t).1).trc = t.trc :=
  ((kept_createDamage (l := [.reg, .rpq, .sht, .alt]) (by simp) (by simp) (by simp) (by simp) h k x).mpr (.refl _ t)) .trc (by simp)
@[simp] theorem createDamage_pru (h k : Nat) (x : Found) : ((createDamage h k x t).1).pru = t.pru :=
  ((kept_createDamage (l := [.reg, .rpq, .sht, .alt]) (by simp) (by simp) (by simp) (by simp) h k x).mpr (.refl _ t)) .pru (by simp)
@[simp] theorem createDamage_fcu (h k : Nat) (x : Found) : ((createDamage h k x t).1).fcu = t.fcu :=
  ((kept_createDamage (l := [.reg, .rpq, .sht, .alt]) (by simp) (by simp) (by simp) (by simp) h k x).mpr (.refl _ t)) .fcu (by simp)
@[simp] theorem createDamage_dsu (h k : Nat) (x : Found) : ((createDamage h k x t).1).dsu = t.dsu :=
  ((kept_createDamage (l := [.reg, .rpq, .sht, .alt]) (by simp) (by simp) (by simp) (by simp) h k x).mpr (.refl _ t)) .dsu (by simp)
@[simp] theorem createDamage_cab (h k : Nat) (x : Found) : ((createDamage h k x t).1).cab = t.cab :=
  ((kept_createDamage (l := [.reg, .rpq, .sht, .alt]) (by simp) (by simp) (by simp) (by simp) h k x).mpr (.refl _ t)) .cab (by simp)
@[simp] theorem createDamage_spt (h k : Nat) (x : Found) : ((createDamage h k x t).1).spt = t.spt :=
  ((kept_createDamage (l := [.reg, .rpq, .sht, .alt]) (by simp) (by simp) (by simp) (by simp) h k x).mpr (.refl _ t)) .spt (by simp)
@[simp] theorem createDamage_cfg (h k : Nat) (x : Found) : ((createDamage h k x t).1).cfg = t.cfg :=
  ((kept_createDamage (l := [.reg, .rpq, .sht, .alt]) (by simp) (by simp) (by simp) (by simp) h k x).mpr (.refl _ t)) .cfg (by simp)
@[simp] theorem createDamage_tmb (h k : Nat) (x : Found) : ((createDamage h k x t).1).tmb = t.tmb :=
  ((kept_createDamage (l := [.reg, .rpq, .sht, .alt]) (by simp) (by simp) (by simp) (by simp) h k x).mpr (.refl _ t)) .tmb (by simp)
@[simp] theorem createDamage_out (h k : Nat) (x : Found) : ((createDamage h k x t).1).out = t.out :=
  ((kept_createDamage (l := [.reg, .rpq, .sht, .alt]) (by simp) (by simp) (by simp) (by simp) h k x).mpr (.refl _ t)) .out (by simp)
@[simp] theorem createDamage_pending (h k : Nat) (x : Found) : ((createDamage h k x t).1).pending = t.pending :=
  ((kept_createDamage (l := [.reg, .rpq, .sht, .alt]) (by simp) (by simp) (by simp) (by simp) h k x).mpr (.refl _ t)) .pending (by simp)
@[simp] theorem createDamage_setting (h k : Nat) (x : Found) (setting : Nat) : ((createDamage h k x t).1).setting setting = t.setting setting := by
  simp [State.setting]
@[simp] theorem supersede_trc (h k : Nat) : (supersede h k t).trc = t.trc :=
  ((kept_supersede (l := [.reg, .rpq]) (by simp) (by simp) h k).mpr (.refl _ t)) .trc (by simp)
@[simp] theorem supersede_pru (h k : Nat) : (supersede h k t).pru = t.pru :=
  ((kept_supersede (l := [.reg, .rpq]) (by simp) (by simp) h k).mpr (.refl _ t)) .pru (by simp)
@[simp] theorem supersede_fcu (h k : Nat) : (supersede h k t).fcu = t.fcu :=
  ((kept_supersede (l := [.reg, .rpq]) (by simp) (by simp) h k).mpr (.refl _ t)) .fcu (by simp)
@[simp] theorem supersede_dsu (h k : Nat) : (supersede h k t).dsu = t.dsu :=
  ((kept_supersede (l := [.reg, .rpq]) (by simp) (by simp) h k).mpr (.refl _ t)) .dsu (by simp)
@[simp] theorem supersede_sht (h k : Nat) : (supersede h k t).sht = t.sht :=
  ((kept_supersede (l := [.reg, .rpq]) (by simp) (by simp) h k).mpr (.refl _ t)) .sht (by simp)
@[simp] theorem supersede_cab (h k : Nat) : (supersede h k t).cab = t.cab :=
  ((kept_supersede (l := [.reg, .rpq]) (by simp) (by simp) h k).mpr (.refl _ t)) .cab (by simp)
@[simp] theorem supersede_spt (h k : Nat) : (supersede h k t).spt = t.spt :=
  ((kept_supersede (l := [.reg, .rpq]) (by simp) (by simp) h k).mpr (.refl _ t)) .spt (by simp)
@[simp] theorem supersede_alt (h k : Nat) : (supersede h k t).alt = t.alt :=
  ((kept_supersede (l := [.reg, .rpq]) (by simp) (by simp) h k).mpr (.refl _ t)) .alt (by simp)
@[simp] theorem supersede_cfg (h k : Nat) : (supersede h k t).cfg = t.cfg :=
  ((kept_supersede (l := [.reg, .rpq]) (by simp) (by simp) h k).mpr (.refl _ t)) .cfg (by simp)
@[simp] theorem supersede_tmb (h k : Nat) : (supersede h k t).tmb = t.tmb :=
  ((kept_supersede (l := [.reg, .rpq]) (by simp) (by simp) h k).mpr (.refl _ t)) .tmb (by simp)
@[simp] theorem supersede_out (h k : Nat) : (supersede h k t).out = t.out :=
  ((kept_supersede (l := [.reg, .rpq]) (by simp) (by simp) h k).mpr (.refl _ t)) .out (by simp)
@[simp] theorem supersede_pending (h k : Nat) : (supersede h k t).pending = t.pending :=
  ((kept_supersede (l := [.reg, .rpq]) (by simp) (by simp) h k).mpr (.refl _ t)) .pending (by simp)
@[simp] theorem supersede_setting (h k : Nat) (setting : Nat) : (supersede h k t).setting setting = t.setting setting := by
  simp [State.setting]
@[simp] theorem sendCapstan_reg (v : Int) : (sendCapstan v t).reg = t.reg :=
  ((kept_sendCapstan (l := [.trc, .out]) (by simp) (by simp) v).mpr (.refl _ t)) .reg (by simp)
@[simp] theorem sendCapstan_pru (v : Int) : (sendCapstan v t).pru = t.pru :=
  ((kept_sendCapstan (l := [.trc, .out]) (by simp) (by simp) v).mpr (.refl _ t)) .pru (by simp)
@[simp] theorem sendCapstan_fcu (v : Int) : (sendCapstan v t).fcu = t.fcu :=
  ((kept_sendCapstan (l := [.trc, .out]) (by simp) (by simp) v).mpr (.refl _ t)) .fcu (by simp)
@[simp] theorem sendCapstan_dsu (v : Int) : (sendCapstan v t).dsu = t.dsu :=
  ((kept_sendCapstan (l := [.trc, .out]) (by simp) (by simp) v).mpr (.refl _ t)) .dsu (by simp)
@[simp] theorem sendCapstan_rpq (v : Int) : (sendCapstan v t).rpq = t.rpq :=
  ((kept_sendCapstan (l := [.trc, .out]) (by simp) (by simp) v).mpr (.refl _ t)) .rpq (by simp)
@[simp] theorem sendCapstan_sht (v : Int) : (sendCapstan v t).sht = t.sht :=
  ((kept_sendCapstan (l := [.trc, .out]) (by simp) (by simp) v).mpr (.refl _ t)) .sht (by simp)
@[simp] theorem sendCapstan_cab (v : Int) : (sendCapstan v t).cab = t.cab :=
  ((kept_sendCapstan (l := [.trc, .out]) (by simp) (by simp) v).mpr (.refl _ t)) .cab (by simp)
@[simp] theorem sendCapstan_spt (v : Int) : (sendCapstan v t).spt = t.spt :=
  ((kept_sendCapstan (l := [.trc, .out]) (by simp) (by simp) v).mpr (.refl _ t)) .spt (by simp)
@[simp] theorem sendCapstan_alt (v : Int) : (sendCapstan v t).alt = t.alt :=
  ((kept_sendCapstan (l := [.trc, .out]) (by simp) (by simp) v).mpr (.refl _ t)) .alt (by simp)
@[simp] theorem sendCapstan_cfg (v : Int) : (sendCapstan v t).cfg = t.cfg :=
  ((kept_sendCapstan (l := [.trc, .out]) (by simp) (by simp) v).mpr (.refl _ t)) .cfg (by simp)
@[simp] theorem sendCapstan_tmb (v : Int) : (sendCapstan v t).tmb = t.tmb :=
  ((kept_sendCapstan (l := [.trc, .out]) (by simp) (by simp) v).mpr (.refl _ t)) .tmb (by simp)
@[simp] theorem sendCapstan_pending (v : Int) : (sendCapstan v t).pending = t.pending :=
  ((kept_sendCapstan (l := [.trc, .out]) (by simp) (by simp) v).mpr (.refl _ t)) .pending (by simp)
@[simp] theorem sendCapstan_setting (v : Int) (setting : Nat) : (sendCapstan v t).setting setting = t.setting setting := by
  simp [State.setting]
@[simp] theorem sendCapstan_reel (v : Int) (reel : Nat) : (sendCapstan v t).reel reel = t.reel reel := by
  simp [State.reel]
@[simp] theorem sendLight_reg (v : Nat) : (sendLight v t).reg = t.reg :=
  ((kept_sendLight (l := [.trc, .out]) (by simp) (by simp) v).mpr (.refl _ t)) .reg (by simp)
@[simp] theorem sendLight_pru (v : Nat) : (sendLight v t).pru = t.pru :=
  ((kept_sendLight (l := [.trc, .out]) (by simp) (by simp) v).mpr (.refl _ t)) .pru (by simp)
@[simp] theorem sendLight_fcu (v : Nat) : (sendLight v t).fcu = t.fcu :=
  ((kept_sendLight (l := [.trc, .out]) (by simp) (by simp) v).mpr (.refl _ t)) .fcu (by simp)
@[simp] theorem sendLight_dsu (v : Nat) : (sendLight v t).dsu = t.dsu :=
  ((kept_sendLight (l := [.trc, .out]) (by simp) (by simp) v).mpr (.refl _ t)) .dsu (by simp)
@[simp] theorem sendLight_rpq (v : Nat) : (sendLight v t).rpq = t.rpq :=
  ((kept_sendLight (l := [.trc, .out]) (by simp) (by simp) v).mpr (.refl _ t)) .rpq (by simp)
@[simp] theorem sendLight_sht (v : Nat) : (sendLight v t).sht = t.sht :=
  ((kept_sendLight (l := [.trc, .out]) (by simp) (by simp) v).mpr (.refl _ t)) .sht (by simp)
@[simp] theorem sendLight_cab (v : Nat) : (sendLight v t).cab = t.cab :=
  ((kept_sendLight (l := [.trc, .out]) (by simp) (by simp) v).mpr (.refl _ t)) .cab (by simp)
@[simp] theorem sendLight_spt (v : Nat) : (sendLight v t).spt = t.spt :=
  ((kept_sendLight (l := [.trc, .out]) (by simp) (by simp) v).mpr (.refl _ t)) .spt (by simp)
@[simp] theorem sendLight_alt (v : Nat) : (sendLight v t).alt = t.alt :=
  ((kept_sendLight (l := [.trc, .out]) (by simp) (by simp) v).mpr (.refl _ t)) .alt (by simp)
@[simp] theorem sendLight_cfg (v : Nat) : (sendLight v t).cfg = t.cfg :=
  ((kept_sendLight (l := [.trc, .out]) (by simp) (by simp) v).mpr (.refl _ t)) .cfg (by simp)
@[simp] theorem sendLight_tmb (v : Nat) : (sendLight v t).tmb = t.tmb :=
  ((kept_sendLight (l := [.trc, .out]) (by simp) (by simp) v).mpr (.refl _ t)) .tmb (by simp)
@[simp] theorem sendLight_pending (v : Nat) : (sendLight v t).pending = t.pending :=
  ((kept_sendLight (l := [.trc, .out]) (by simp) (by simp) v).mpr (.refl _ t)) .pending (by simp)
@[simp] theorem sendLight_setting (v : Nat) (setting : Nat) : (sendLight v t).setting setting = t.setting setting := by
  simp [State.setting]
@[simp] theorem sendLight_reel (v : Nat) (reel : Nat) : (sendLight v t).reel reel = t.reel reel := by
  simp [State.reel]
@[simp] theorem refreshCapstan_reg : (refreshCapstan t).reg = t.reg :=
  ((kept_refreshCapstan (l := [.trc, .out]) (by simp) (by simp) ).mpr (.refl _ t)) .reg (by simp)
@[simp] theorem refreshCapstan_pru : (refreshCapstan t).pru = t.pru :=
  ((kept_refreshCapstan (l := [.trc, .out]) (by simp) (by simp) ).mpr (.refl _ t)) .pru (by simp)
@[simp] theorem refreshCapstan_fcu : (refreshCapstan t).fcu = t.fcu :=
  ((kept_refreshCapstan (l := [.trc, .out]) (by simp) (by simp) ).mpr (.refl _ t)) .fcu (by simp)
@[simp] theorem refreshCapstan_dsu : (refreshCapstan t).dsu = t.dsu :=
  ((kept_refreshCapstan (l := [.trc, .out]) (by simp) (by simp) ).mpr (.refl _ t)) .dsu (by simp)
@[simp] theorem refreshCapstan_rpq : (refreshCapstan t).rpq = t.rpq :=
  ((kept_refreshCapstan (l := [.trc, .out]) (by simp) (by simp) ).mpr (.refl _ t)) .rpq (by simp)
@[simp] theorem refreshCapstan_sht : (refreshCapstan t).sht = t.sht :=
  ((kept_refreshCapstan (l := [.trc, .out]) (by simp) (by simp) ).mpr (.refl _ t)) .sht (by simp)
@[simp] theorem refreshCapstan_cab : (refreshCapstan t).cab = t.cab :=
  ((kept_refreshCapstan (l := [.trc, .out]) (by simp) (by simp) ).mpr (.refl _ t)) .cab (by simp)
@[simp] theorem refreshCapstan_spt : (refreshCapstan t).spt = t.spt :=
  ((kept_refreshCapstan (l := [.trc, .out]) (by simp) (by simp) ).mpr (.refl _ t)) .spt (by simp)
@[simp] theorem refreshCapstan_alt : (refreshCapstan t).alt = t.alt :=
  ((kept_refreshCapstan (l := [.trc, .out]) (by simp) (by simp) ).mpr (.refl _ t)) .alt (by simp)
@[simp] theorem refreshCapstan_cfg : (refreshCapstan t).cfg = t.cfg :=
  ((kept_refreshCapstan (l := [.trc, .out]) (by simp) (by simp) ).mpr (.refl _ t)) .cfg (by simp)
@[simp] theorem refreshCapstan_tmb : (refreshCapstan t).tmb = t.tmb :=
  ((kept_refreshCapstan (l := [.trc, .out]) (by simp) (by simp) ).mpr (.refl _ t)) .tmb (by simp)
@[simp] theorem refreshCapstan_pending : (refreshCapstan t).pending = t.pending :=
  ((kept_refreshCapstan (l := [.trc, .out]) (by simp) (by simp) ).mpr (.refl _ t)) .pending (by simp)
@[simp] theorem refreshCapstan_setting (setting : Nat) : (refreshCapstan t).setting setting = t.setting setting := by
  simp [State.setting]
@[simp] theorem refreshCapstan_reel (reel : Nat) : (refreshCapstan t).reel reel = t.reel reel := by
  simp [State.reel]
@[simp] theorem refreshLight_reg : (refreshLight t).reg = t.reg :=
  ((kept_refreshLight (l := [.trc, .out]) (by simp) (by simp) ).mpr (.refl _ t)) .reg (by simp)
@[simp] theorem refreshLight_pru : (refreshLight t).pru = t.pru :=
  ((kept_refreshLight (l := [.trc, .out]) (by simp) (by simp) ).mpr (.refl _ t)) .pru (by simp)
@[simp] theorem refreshLight_fcu : (refreshLight t).fcu = t.fcu :=
  ((kept_refreshLight (l := [.trc, .out]) (by simp) (by simp) ).mpr (.refl _ t)) .fcu (by simp)
@[simp] theorem refreshLight_dsu : (refreshLight t).dsu = t.dsu :=
  ((kept_refreshLight (l := [.trc, .out]) (by simp) (by simp) ).mpr (.refl _ t)) .dsu (by simp)
@[simp] theorem refreshLight_rpq : (refreshLight t).rpq = t.rpq :=
  ((kept_refreshLight (l := [.trc, .out]) (by simp) (by simp) ).mpr (.refl _ t)) .rpq (by simp)
@[simp] theorem refreshLight_sht : (refreshLight t).sht = t.sht :=
  ((kept_refreshLight (l := [.trc, .out]) (by simp) (by simp) ).mpr (.refl _ t)) .sht (by simp)
@[simp] theorem refreshLight_cab : (refreshLight t).cab = t.cab :=
  ((kept_refreshLight (l := [.trc, .out]) (by simp) (by simp) ).mpr (.refl _ t)) .cab (by simp)
@[simp] theorem refreshLight_spt : (refreshLight t).spt = t.spt :=
  ((kept_refreshLight (l := [.trc, .out]) (by simp) (by simp) ).mpr (.refl _ t)) .spt (by simp)
@[simp] theorem refreshLight_alt : (refreshLight t).alt = t.alt :=
  ((kept_refreshLight (l := [.trc, .out]) (by simp) (by simp) ).mpr (.refl _ t)) .alt (by simp)
@[simp] theorem refreshLight_cfg : (refreshLight t).cfg = t.cfg :=
  ((kept_refreshLight (l := [.trc, .out]) (by simp) (by simp) ).mpr (.refl _ t)) .cfg (by simp)
@[simp] theorem refreshLight_tmb : (refreshLight t).tmb = t.tmb :=
  ((kept_refreshLight (l := [.trc, .out]) (by simp) (by simp) ).mpr (.refl _ t)) .tmb (by simp)
@[simp] theorem refreshLight_pending : (refreshLight t).pending = t.pending :=
  ((kept_refreshLight (l := [.trc, .out]) (by simp) (by simp) ).mpr (.refl _ t)) .pending (by simp)
@[simp] theorem refreshLight_setting (setting : Nat) : (refreshLight t).setting setting = t.setting setting := by
  simp [State.setting]
@[simp] theorem refreshLight_reel (reel : Nat) : (refreshLight t).reel reel = t.reel reel := by
  simp [State.reel]
@[simp] theorem enter_reg (st : TransportState) : (enter st t).reg = t.reg :=
  ((kept_enter (l := [.trc, .pru, .out]) (by simp) (by simp) (by simp) st).mpr (.refl _ t)) .reg (by simp)
@[simp] theorem enter_fcu (st : TransportState) : (enter st t).fcu = t.fcu :=
  ((kept_enter (l := [.trc, .pru, .out]) (by simp) (by simp) (by simp) st).mpr (.refl _ t)) .fcu (by simp)
@[simp] theorem enter_dsu (st : TransportState) : (enter st t).dsu = t.dsu :=
  ((kept_enter (l := [.trc, .pru, .out]) (by simp) (by simp) (by simp) st).mpr (.refl _ t)) .dsu (by simp)
@[simp] theorem enter_rpq (st : TransportState) : (enter st t).rpq = t.rpq :=
  ((kept_enter (l := [.trc, .pru, .out]) (by simp) (by simp) (by simp) st).mpr (.refl _ t)) .rpq (by simp)
@[simp] theorem enter_sht (st : TransportState) : (enter st t).sht = t.sht :=
  ((kept_enter (l := [.trc, .pru, .out]) (by simp) (by simp) (by simp) st).mpr (.refl _ t)) .sht (by simp)
@[simp] theorem enter_cab (st : TransportState) : (enter st t).cab = t.cab :=
  ((kept_enter (l := [.trc, .pru, .out]) (by simp) (by simp) (by simp) st).mpr (.refl _ t)) .cab (by simp)
@[simp] theorem enter_spt (st : TransportState) : (enter st t).spt = t.spt :=
  ((kept_enter (l := [.trc, .pru, .out]) (by simp) (by simp) (by simp) st).mpr (.refl _ t)) .spt (by simp)
@[simp] theorem enter_alt (st : TransportState) : (enter st t).alt = t.alt :=
  ((kept_enter (l := [.trc, .pru, .out]) (by simp) (by simp) (by simp) st).mpr (.refl _ t)) .alt (by simp)
@[simp] theorem enter_cfg (st : TransportState) : (enter st t).cfg = t.cfg :=
  ((kept_enter (l := [.trc, .pru, .out]) (by simp) (by simp) (by simp) st).mpr (.refl _ t)) .cfg (by simp)
@[simp] theorem enter_tmb (st : TransportState) : (enter st t).tmb = t.tmb :=
  ((kept_enter (l := [.trc, .pru, .out]) (by simp) (by simp) (by simp) st).mpr (.refl _ t)) .tmb (by simp)
@[simp] theorem enter_pending (st : TransportState) : (enter st t).pending = t.pending :=
  ((kept_enter (l := [.trc, .pru, .out]) (by simp) (by simp) (by simp) st).mpr (.refl _ t)) .pending (by simp)
@[simp] theorem enter_setting (st : TransportState) (setting : Nat) : (enter st t).setting setting = t.setting setting := by
  simp [State.setting]
@[simp] theorem enter_reel (st : TransportState) (reel : Nat) : (enter st t).reel reel = t.reel reel := by
  simp [State.reel]
@[simp] theorem clearSplices_reg : (clearSplices t).reg = t.reg :=
  ((kept_clearSplices (l := [.trc]) (by simp) ).mpr (.refl _ t)) .reg (by simp)
@[simp] theorem clearSplices_pru : (clearSplices t).pru = t.pru :=
  ((kept_clearSplices (l := [.trc]) (by simp) ).mpr (.refl _ t)) .pru (by simp)
@[simp] theorem clearSplices_fcu : (clearSplices t).fcu = t.fcu :=
  ((kept_clearSplices (l := [.trc]) (by simp) ).mpr (.refl _ t)) .fcu (by simp)
@[simp] theorem clearSplices_dsu : (clearSplices t).dsu = t.dsu :=
  ((kept_clearSplices (l := [.trc]) (by simp) ).mpr (.refl _ t)) .dsu (by simp)
@[simp] theorem clearSplices_rpq : (clearSplices t).rpq = t.rpq :=
  ((kept_clearSplices (l := [.trc]) (by simp) ).mpr (.refl _ t)) .rpq (by simp)
@[simp] theorem clearSplices_sht : (clearSplices t).sht = t.sht :=
  ((kept_clearSplices (l := [.trc]) (by simp) ).mpr (.refl _ t)) .sht (by simp)
@[simp] theorem clearSplices_cab : (clearSplices t).cab = t.cab :=
  ((kept_clearSplices (l := [.trc]) (by simp) ).mpr (.refl _ t)) .cab (by simp)
@[simp] theorem clearSplices_spt : (clearSplices t).spt = t.spt :=
  ((kept_clearSplices (l := [.trc]) (by simp) ).mpr (.refl _ t)) .spt (by simp)
@[simp] theorem clearSplices_alt : (clearSplices t).alt = t.alt :=
  ((kept_clearSplices (l := [.trc]) (by simp) ).mpr (.refl _ t)) .alt (by simp)
@[simp] theorem clearSplices_cfg : (clearSplices t).cfg = t.cfg :=
  ((kept_clearSplices (l := [.trc]) (by simp) ).mpr (.refl _ t)) .cfg (by simp)
@[simp] theorem clearSplices_tmb : (clearSplices t).tmb = t.tmb :=
  ((kept_clearSplices (l := [.trc]) (by simp) ).mpr (.refl _ t)) .tmb (by simp)
@[simp] theorem clearSplices_out : (clearSplices t).out = t.out :=
  ((kept_clearSplices (l := [.trc]) (by simp) ).mpr (.refl _ t)) .out (by simp)
@[simp] theorem clearSplices_pending : (clearSplices t).pending = t.pending :=
  ((kept_clearSplices (l := [.trc]) (by simp) ).mpr (.refl _ t)) .pending (by simp)
@[simp] theorem clearSplices_setting (setting : Nat) : (clearSplices t).setting setting = t.setting setting := by
  simp [State.setting]
@[simp] theorem clearSplices_reel (reel : Nat) : (clearSplices t).reel reel = t.reel reel := by
  simp [State.reel]
@[simp] theorem addHold_reg (c : HoldCause) : (addHold c t).reg = t.reg :=
  ((kept_addHold (l := [.trc, .pru, .out, .alt]) (by simp) (by simp) (by simp) (by simp) c).mpr (.refl _ t)) .reg (by simp)
@[simp] theorem addHold_fcu (c : HoldCause) : (addHold c t).fcu = t.fcu :=
  ((kept_addHold (l := [.trc, .pru, .out, .alt]) (by simp) (by simp) (by simp) (by simp) c).mpr (.refl _ t)) .fcu (by simp)
@[simp] theorem addHold_dsu (c : HoldCause) : (addHold c t).dsu = t.dsu :=
  ((kept_addHold (l := [.trc, .pru, .out, .alt]) (by simp) (by simp) (by simp) (by simp) c).mpr (.refl _ t)) .dsu (by simp)
@[simp] theorem addHold_rpq (c : HoldCause) : (addHold c t).rpq = t.rpq :=
  ((kept_addHold (l := [.trc, .pru, .out, .alt]) (by simp) (by simp) (by simp) (by simp) c).mpr (.refl _ t)) .rpq (by simp)
@[simp] theorem addHold_sht (c : HoldCause) : (addHold c t).sht = t.sht :=
  ((kept_addHold (l := [.trc, .pru, .out, .alt]) (by simp) (by simp) (by simp) (by simp) c).mpr (.refl _ t)) .sht (by simp)
@[simp] theorem addHold_cab (c : HoldCause) : (addHold c t).cab = t.cab :=
  ((kept_addHold (l := [.trc, .pru, .out, .alt]) (by simp) (by simp) (by simp) (by simp) c).mpr (.refl _ t)) .cab (by simp)
@[simp] theorem addHold_spt (c : HoldCause) : (addHold c t).spt = t.spt :=
  ((kept_addHold (l := [.trc, .pru, .out, .alt]) (by simp) (by simp) (by simp) (by simp) c).mpr (.refl _ t)) .spt (by simp)
@[simp] theorem addHold_cfg (c : HoldCause) : (addHold c t).cfg = t.cfg :=
  ((kept_addHold (l := [.trc, .pru, .out, .alt]) (by simp) (by simp) (by simp) (by simp) c).mpr (.refl _ t)) .cfg (by simp)
@[simp] theorem addHold_tmb (c : HoldCause) : (addHold c t).tmb = t.tmb :=
  ((kept_addHold (l := [.trc, .pru, .out, .alt]) (by simp) (by simp) (by simp) (by simp) c).mpr (.refl _ t)) .tmb (by simp)
@[simp] theorem addHold_pending (c : HoldCause) : (addHold c t).pending = t.pending :=
  ((kept_addHold (l := [.trc, .pru, .out, .alt]) (by simp) (by simp) (by simp) (by simp) c).mpr (.refl _ t)) .pending (by simp)
@[simp] theorem addHold_setting (c : HoldCause) (setting : Nat) : (addHold c t).setting setting = t.setting setting := by
  simp [State.setting]
@[simp] theorem addHold_reel (c : HoldCause) (reel : Nat) : (addHold c t).reel reel = t.reel reel := by
  simp [State.reel]
@[simp] theorem startBackup_reg : (startBackup t).reg = t.reg :=
  ((kept_startBackup (l := [.trc, .pru, .out]) (by simp) (by simp) (by simp) ).mpr (.refl _ t)) .reg (by simp)
@[simp] theorem startBackup_fcu : (startBackup t).fcu = t.fcu :=
  ((kept_startBackup (l := [.trc, .pru, .out]) (by simp) (by simp) (by simp) ).mpr (.refl _ t)) .fcu (by simp)
@[simp] theorem startBackup_dsu : (startBackup t).dsu = t.dsu :=
  ((kept_startBackup (l := [.trc, .pru, .out]) (by simp) (by simp) (by simp) ).mpr (.refl _ t)) .dsu (by simp)
@[simp] theorem startBackup_rpq : (startBackup t).rpq = t.rpq :=
  ((kept_startBackup (l := [.trc, .pru, .out]) (by simp) (by simp) (by simp) ).mpr (.refl _ t)) .rpq (by simp)
@[simp] theorem startBackup_sht : (startBackup t).sht = t.sht :=
  ((kept_startBackup (l := [.trc, .pru, .out]) (by simp) (by simp) (by simp) ).mpr (.refl _ t)) .sht (by simp)
@[simp] theorem startBackup_cab : (startBackup t).cab = t.cab :=
  ((kept_startBackup (l := [.trc, .pru, .out]) (by simp) (by simp) (by simp) ).mpr (.refl _ t)) .cab (by simp)
@[simp] theorem startBackup_spt : (startBackup t).spt = t.spt :=
  ((kept_startBackup (l := [.trc, .pru, .out]) (by simp) (by simp) (by simp) ).mpr (.refl _ t)) .spt (by simp)
@[simp] theorem startBackup_alt : (startBackup t).alt = t.alt :=
  ((kept_startBackup (l := [.trc, .pru, .out]) (by simp) (by simp) (by simp) ).mpr (.refl _ t)) .alt (by simp)
@[simp] theorem startBackup_cfg : (startBackup t).cfg = t.cfg :=
  ((kept_startBackup (l := [.trc, .pru, .out]) (by simp) (by simp) (by simp) ).mpr (.refl _ t)) .cfg (by simp)
@[simp] theorem startBackup_tmb : (startBackup t).tmb = t.tmb :=
  ((kept_startBackup (l := [.trc, .pru, .out]) (by simp) (by simp) (by simp) ).mpr (.refl _ t)) .tmb (by simp)
@[simp] theorem startBackup_pending : (startBackup t).pending = t.pending :=
  ((kept_startBackup (l := [.trc, .pru, .out]) (by simp) (by simp) (by simp) ).mpr (.refl _ t)) .pending (by simp)
@[simp] theorem startBackup_setting (setting : Nat) : (startBackup t).setting setting = t.setting setting := by
  simp [State.setting]
@[simp] theorem startBackup_reel (reel : Nat) : (startBackup t).reel reel = t.reel reel := by
  simp [State.reel]
@[simp] theorem removeHold_reg (c : HoldCause) : (removeHold c t).reg = t.reg :=
  ((kept_removeHold (l := [.trc, .pru, .out]) (by simp) (by simp) (by simp) c).mpr (.refl _ t)) .reg (by simp)
@[simp] theorem removeHold_fcu (c : HoldCause) : (removeHold c t).fcu = t.fcu :=
  ((kept_removeHold (l := [.trc, .pru, .out]) (by simp) (by simp) (by simp) c).mpr (.refl _ t)) .fcu (by simp)
@[simp] theorem removeHold_dsu (c : HoldCause) : (removeHold c t).dsu = t.dsu :=
  ((kept_removeHold (l := [.trc, .pru, .out]) (by simp) (by simp) (by simp) c).mpr (.refl _ t)) .dsu (by simp)
@[simp] theorem removeHold_rpq (c : HoldCause) : (removeHold c t).rpq = t.rpq :=
  ((kept_removeHold (l := [.trc, .pru, .out]) (by simp) (by simp) (by simp) c).mpr (.refl _ t)) .rpq (by simp)
@[simp] theorem removeHold_sht (c : HoldCause) : (removeHold c t).sht = t.sht :=
  ((kept_removeHold (l := [.trc, .pru, .out]) (by simp) (by simp) (by simp) c).mpr (.refl _ t)) .sht (by simp)
@[simp] theorem removeHold_cab (c : HoldCause) : (removeHold c t).cab = t.cab :=
  ((kept_removeHold (l := [.trc, .pru, .out]) (by simp) (by simp) (by simp) c).mpr (.refl _ t)) .cab (by simp)
@[simp] theorem removeHold_spt (c : HoldCause) : (removeHold c t).spt = t.spt :=
  ((kept_removeHold (l := [.trc, .pru, .out]) (by simp) (by simp) (by simp) c).mpr (.refl _ t)) .spt (by simp)
@[simp] theorem removeHold_alt (c : HoldCause) : (removeHold c t).alt = t.alt :=
  ((kept_removeHold (l := [.trc, .pru, .out]) (by simp) (by simp) (by simp) c).mpr (.refl _ t)) .alt (by simp)
@[simp] theorem removeHold_cfg (c : HoldCause) : (removeHold c t).cfg = t.cfg :=
  ((kept_removeHold (l := [.trc, .pru, .out]) (by simp) (by simp) (by simp) c).mpr (.refl _ t)) .cfg (by simp)
@[simp] theorem removeHold_tmb (c : HoldCause) : (removeHold c t).tmb = t.tmb :=
  ((kept_removeHold (l := [.trc, .pru, .out]) (by simp) (by simp) (by simp) c).mpr (.refl _ t)) .tmb (by simp)
@[simp] theorem removeHold_pending (c : HoldCause) : (removeHold c t).pending = t.pending :=
  ((kept_removeHold (l := [.trc, .pru, .out]) (by simp) (by simp) (by simp) c).mpr (.refl _ t)) .pending (by simp)
@[simp] theorem removeHold_setting (c : HoldCause) (setting : Nat) : (removeHold c t).setting setting = t.setting setting := by
  simp [State.setting]
@[simp] theorem removeHold_reel (c : HoldCause) (reel : Nat) : (removeHold c t).reel reel = t.reel reel := by
  simp [State.reel]
@[simp] theorem testZones_reg : (testZones t).reg = t.reg :=
  ((kept_testZones (l := [.trc, .out]) (by simp) (by simp) ).mpr (.refl _ t)) .reg (by simp)
@[simp] theorem testZones_pru : (testZones t).pru = t.pru :=
  ((kept_testZones (l := [.trc, .out]) (by simp) (by simp) ).mpr (.refl _ t)) .pru (by simp)
@[simp] theorem testZones_fcu : (testZones t).fcu = t.fcu :=
  ((kept_testZones (l := [.trc, .out]) (by simp) (by simp) ).mpr (.refl _ t)) .fcu (by simp)
@[simp] theorem testZones_dsu : (testZones t).dsu = t.dsu :=
  ((kept_testZones (l := [.trc, .out]) (by simp) (by simp) ).mpr (.refl _ t)) .dsu (by simp)
@[simp] theorem testZones_rpq : (testZones t).rpq = t.rpq :=
  ((kept_testZones (l := [.trc, .out]) (by simp) (by simp) ).mpr (.refl _ t)) .rpq (by simp)
@[simp] theorem testZones_sht : (testZones t).sht = t.sht :=
  ((kept_testZones (l := [.trc, .out]) (by simp) (by simp) ).mpr (.refl _ t)) .sht (by simp)
@[simp] theorem testZones_cab : (testZones t).cab = t.cab :=
  ((kept_testZones (l := [.trc, .out]) (by simp) (by simp) ).mpr (.refl _ t)) .cab (by simp)
@[simp] theorem testZones_spt : (testZones t).spt = t.spt :=
  ((kept_testZones (l := [.trc, .out]) (by simp) (by simp) ).mpr (.refl _ t)) .spt (by simp)
@[simp] theorem testZones_alt : (testZones t).alt = t.alt :=
  ((kept_testZones (l := [.trc, .out]) (by simp) (by simp) ).mpr (.refl _ t)) .alt (by simp)
@[simp] theorem testZones_cfg : (testZones t).cfg = t.cfg :=
  ((kept_testZones (l := [.trc, .out]) (by simp) (by simp) ).mpr (.refl _ t)) .cfg (by simp)
@[simp] theorem testZones_tmb : (testZones t).tmb = t.tmb :=
  ((kept_testZones (l := [.trc, .out]) (by simp) (by simp) ).mpr (.refl _ t)) .tmb (by simp)
@[simp] theorem testZones_pending : (testZones t).pending = t.pending :=
  ((kept_testZones (l := [.trc, .out]) (by simp) (by simp) ).mpr (.refl _ t)) .pending (by simp)
@[simp] theorem testZones_setting (setting : Nat) : (testZones t).setting setting = t.setting setting := by
  simp [State.setting]
@[simp] theorem testZones_reel (reel : Nat) : (testZones t).reel reel = t.reel reel := by
  simp [State.reel]
@[simp] theorem headReport_reg : (headReport t).reg = t.reg :=
  ((kept_headReport (l := [.trc, .out]) (by simp) (by simp) ).mpr (.refl _ t)) .reg (by simp)
@[simp] theorem headReport_pru : (headReport t).pru = t.pru :=
  ((kept_headReport (l := [.trc, .out]) (by simp) (by simp) ).mpr (.refl _ t)) .pru (by simp)
@[simp] theorem headReport_fcu : (headReport t).fcu = t.fcu :=
  ((kept_headReport (l := [.trc, .out]) (by simp) (by simp) ).mpr (.refl _ t)) .fcu (by simp)
@[simp] theorem headReport_dsu : (headReport t).dsu = t.dsu :=
  ((kept_headReport (l := [.trc, .out]) (by simp) (by simp) ).mpr (.refl _ t)) .dsu (by simp)
@[simp] theorem headReport_rpq : (headReport t).rpq = t.rpq :=
  ((kept_headReport (l := [.trc, .out]) (by simp) (by simp) ).mpr (.refl _ t)) .rpq (by simp)
@[simp] theorem headReport_sht : (headReport t).sht = t.sht :=
  ((kept_headReport (l := [.trc, .out]) (by simp) (by simp) ).mpr (.refl _ t)) .sht (by simp)
@[simp] theorem headReport_cab : (headReport t).cab = t.cab :=
  ((kept_headReport (l := [.trc, .out]) (by simp) (by simp) ).mpr (.refl _ t)) .cab (by simp)
@[simp] theorem headReport_spt : (headReport t).spt = t.spt :=
  ((kept_headReport (l := [.trc, .out]) (by simp) (by simp) ).mpr (.refl _ t)) .spt (by simp)
@[simp] theorem headReport_alt : (headReport t).alt = t.alt :=
  ((kept_headReport (l := [.trc, .out]) (by simp) (by simp) ).mpr (.refl _ t)) .alt (by simp)
@[simp] theorem headReport_cfg : (headReport t).cfg = t.cfg :=
  ((kept_headReport (l := [.trc, .out]) (by simp) (by simp) ).mpr (.refl _ t)) .cfg (by simp)
@[simp] theorem headReport_tmb : (headReport t).tmb = t.tmb :=
  ((kept_headReport (l := [.trc, .out]) (by simp) (by simp) ).mpr (.refl _ t)) .tmb (by simp)
@[simp] theorem headReport_pending : (headReport t).pending = t.pending :=
  ((kept_headReport (l := [.trc, .out]) (by simp) (by simp) ).mpr (.refl _ t)) .pending (by simp)
@[simp] theorem headReport_setting (setting : Nat) : (headReport t).setting setting = t.setting setting := by
  simp [State.setting]
@[simp] theorem headReport_reel (reel : Nat) : (headReport t).reel reel = t.reel reel := by
  simp [State.reel]
@[simp] theorem makeLive_reg (p : Pitch) : (makeLive p t).reg = t.reg :=
  ((kept_makeLive (l := [.pru, .alt]) (by simp) (by simp) p).mpr (.refl _ t)) .reg (by simp)
@[simp] theorem makeLive_trc (p : Pitch) : (makeLive p t).trc = t.trc :=
  ((kept_makeLive (l := [.pru, .alt]) (by simp) (by simp) p).mpr (.refl _ t)) .trc (by simp)
@[simp] theorem makeLive_fcu (p : Pitch) : (makeLive p t).fcu = t.fcu :=
  ((kept_makeLive (l := [.pru, .alt]) (by simp) (by simp) p).mpr (.refl _ t)) .fcu (by simp)
@[simp] theorem makeLive_dsu (p : Pitch) : (makeLive p t).dsu = t.dsu :=
  ((kept_makeLive (l := [.pru, .alt]) (by simp) (by simp) p).mpr (.refl _ t)) .dsu (by simp)
@[simp] theorem makeLive_rpq (p : Pitch) : (makeLive p t).rpq = t.rpq :=
  ((kept_makeLive (l := [.pru, .alt]) (by simp) (by simp) p).mpr (.refl _ t)) .rpq (by simp)
@[simp] theorem makeLive_sht (p : Pitch) : (makeLive p t).sht = t.sht :=
  ((kept_makeLive (l := [.pru, .alt]) (by simp) (by simp) p).mpr (.refl _ t)) .sht (by simp)
@[simp] theorem makeLive_cab (p : Pitch) : (makeLive p t).cab = t.cab :=
  ((kept_makeLive (l := [.pru, .alt]) (by simp) (by simp) p).mpr (.refl _ t)) .cab (by simp)
@[simp] theorem makeLive_spt (p : Pitch) : (makeLive p t).spt = t.spt :=
  ((kept_makeLive (l := [.pru, .alt]) (by simp) (by simp) p).mpr (.refl _ t)) .spt (by simp)
@[simp] theorem makeLive_cfg (p : Pitch) : (makeLive p t).cfg = t.cfg :=
  ((kept_makeLive (l := [.pru, .alt]) (by simp) (by simp) p).mpr (.refl _ t)) .cfg (by simp)
@[simp] theorem makeLive_tmb (p : Pitch) : (makeLive p t).tmb = t.tmb :=
  ((kept_makeLive (l := [.pru, .alt]) (by simp) (by simp) p).mpr (.refl _ t)) .tmb (by simp)
@[simp] theorem makeLive_out (p : Pitch) : (makeLive p t).out = t.out :=
  ((kept_makeLive (l := [.pru, .alt]) (by simp) (by simp) p).mpr (.refl _ t)) .out (by simp)
@[simp] theorem makeLive_pending (p : Pitch) : (makeLive p t).pending = t.pending :=
  ((kept_makeLive (l := [.pru, .alt]) (by simp) (by simp) p).mpr (.refl _ t)) .pending (by simp)
@[simp] theorem makeLive_setting (p : Pitch) (setting : Nat) : (makeLive p t).setting setting = t.setting setting := by
  simp [State.setting]
@[simp] theorem makeLive_reel (p : Pitch) (reel : Nat) : (makeLive p t).reel reel = t.reel reel := by
  simp [State.reel]
@[simp] theorem placeExpectation_reg : (placeExpectation t).reg = t.reg :=
  ((kept_placeExpectation (l := [.pru]) (by simp) ).mpr (.refl _ t)) .reg (by simp)
@[simp] theorem placeExpectation_trc : (placeExpectation t).trc = t.trc :=
  ((kept_placeExpectation (l := [.pru]) (by simp) ).mpr (.refl _ t)) .trc (by simp)
@[simp] theorem placeExpectation_fcu : (placeExpectation t).fcu = t.fcu :=
  ((kept_placeExpectation (l := [.pru]) (by simp) ).mpr (.refl _ t)) .fcu (by simp)
@[simp] theorem placeExpectation_dsu : (placeExpectation t).dsu = t.dsu :=
  ((kept_placeExpectation (l := [.pru]) (by simp) ).mpr (.refl _ t)) .dsu (by simp)
@[simp] theorem placeExpectation_rpq : (placeExpectation t).rpq = t.rpq :=
  ((kept_placeExpectation (l := [.pru]) (by simp) ).mpr (.refl _ t)) .rpq (by simp)
@[simp] theorem placeExpectation_sht : (placeExpectation t).sht = t.sht :=
  ((kept_placeExpectation (l := [.pru]) (by simp) ).mpr (.refl _ t)) .sht (by simp)
@[simp] theorem placeExpectation_cab : (placeExpectation t).cab = t.cab :=
  ((kept_placeExpectation (l := [.pru]) (by simp) ).mpr (.refl _ t)) .cab (by simp)
@[simp] theorem placeExpectation_spt : (placeExpectation t).spt = t.spt :=
  ((kept_placeExpectation (l := [.pru]) (by simp) ).mpr (.refl _ t)) .spt (by simp)
@[simp] theorem placeExpectation_alt : (placeExpectation t).alt = t.alt :=
  ((kept_placeExpectation (l := [.pru]) (by simp) ).mpr (.refl _ t)) .alt (by simp)
@[simp] theorem placeExpectation_cfg : (placeExpectation t).cfg = t.cfg :=
  ((kept_placeExpectation (l := [.pru]) (by simp) ).mpr (.refl _ t)) .cfg (by simp)
@[simp] theorem placeExpectation_tmb : (placeExpectation t).tmb = t.tmb :=
  ((kept_placeExpectation (l := [.pru]) (by simp) ).mpr (.refl _ t)) .tmb (by simp)
@[simp] theorem placeExpectation_out : (placeExpectation t).out = t.out :=
  ((kept_placeExpectation (l := [.pru]) (by simp) ).mpr (.refl _ t)) .out (by simp)
@[simp] theorem placeExpectation_pending : (placeExpectation t).pending = t.pending :=
  ((kept_placeExpectation (l := [.pru]) (by simp) ).mpr (.refl _ t)) .pending (by simp)
@[simp] theorem placeExpectation_setting (setting : Nat) : (placeExpectation t).setting setting = t.setting setting := by
  simp [State.setting]
@[simp] theorem placeExpectation_reel (reel : Nat) : (placeExpectation t).reel reel = t.reel reel := by
  simp [State.reel]
@[simp] theorem stepExpectation_reg : (stepExpectation t).reg = t.reg :=
  ((kept_stepExpectation (l := [.pru]) (by simp) ).mpr (.refl _ t)) .reg (by simp)
@[simp] theorem stepExpectation_trc : (stepExpectation t).trc = t.trc :=
  ((kept_stepExpectation (l := [.pru]) (by simp) ).mpr (.refl _ t)) .trc (by simp)
@[simp] theorem stepExpectation_fcu : (stepExpectation t).fcu = t.fcu :=
  ((kept_stepExpectation (l := [.pru]) (by simp) ).mpr (.refl _ t)) .fcu (by simp)
@[simp] theorem stepExpectation_dsu : (stepExpectation t).dsu = t.dsu :=
  ((kept_stepExpectation (l := [.pru]) (by simp) ).mpr (.refl _ t)) .dsu (by simp)
@[simp] theorem stepExpectation_rpq : (stepExpectation t).rpq = t.rpq :=
  ((kept_stepExpectation (l := [.pru]) (by simp) ).mpr (.refl _ t)) .rpq (by simp)
@[simp] theorem stepExpectation_sht : (stepExpectation t).sht = t.sht :=
  ((kept_stepExpectation (l := [.pru]) (by simp) ).mpr (.refl _ t)) .sht (by simp)
@[simp] theorem stepExpectation_cab : (stepExpectation t).cab = t.cab :=
  ((kept_stepExpectation (l := [.pru]) (by simp) ).mpr (.refl _ t)) .cab (by simp)
@[simp] theorem stepExpectation_spt : (stepExpectation t).spt = t.spt :=
  ((kept_stepExpectation (l := [.pru]) (by simp) ).mpr (.refl _ t)) .spt (by simp)
@[simp] theorem stepExpectation_alt : (stepExpectation t).alt = t.alt :=
  ((kept_stepExpectation (l := [.pru]) (by simp) ).mpr (.refl _ t)) .alt (by simp)
@[simp] theorem stepExpectation_cfg : (stepExpectation t).cfg = t.cfg :=
  ((kept_stepExpectation (l := [.pru]) (by simp) ).mpr (.refl _ t)) .cfg (by simp)
@[simp] theorem stepExpectation_tmb : (stepExpectation t).tmb = t.tmb :=
  ((kept_stepExpectation (l := [.pru]) (by simp) ).mpr (.refl _ t)) .tmb (by simp)
@[simp] theorem stepExpectation_out : (stepExpectation t).out = t.out :=
  ((kept_stepExpectation (l := [.pru]) (by simp) ).mpr (.refl _ t)) .out (by simp)
@[simp] theorem stepExpectation_pending : (stepExpectation t).pending = t.pending :=
  ((kept_stepExpectation (l := [.pru]) (by simp) ).mpr (.refl _ t)) .pending (by simp)
@[simp] theorem stepExpectation_setting (setting : Nat) : (stepExpectation t).setting setting = t.setting setting := by
  simp [State.setting]
@[simp] theorem stepExpectation_reel (reel : Nat) : (stepExpectation t).reel reel = t.reel reel := by
  simp [State.reel]
@[simp] theorem unlock_reg : (unlock t).reg = t.reg :=
  ((kept_unlock (l := [.pru, .alt]) (by simp) (by simp) ).mpr (.refl _ t)) .reg (by simp)
@[simp] theorem unlock_trc : (unlock t).trc = t.trc :=
  ((kept_unlock (l := [.pru, .alt]) (by simp) (by simp) ).mpr (.refl _ t)) .trc (by simp)
@[simp] theorem unlock_fcu : (unlock t).fcu = t.fcu :=
  ((kept_unlock (l := [.pru, .alt]) (by simp) (by simp) ).mpr (.refl _ t)) .fcu (by simp)
@[simp] theorem unlock_dsu : (unlock t).dsu = t.dsu :=
  ((kept_unlock (l := [.pru, .alt]) (by simp) (by simp) ).mpr (.refl _ t)) .dsu (by simp)
@[simp] theorem unlock_rpq : (unlock t).rpq = t.rpq :=
  ((kept_unlock (l := [.pru, .alt]) (by simp) (by simp) ).mpr (.refl _ t)) .rpq (by simp)
@[simp] theorem unlock_sht : (unlock t).sht = t.sht :=
  ((kept_unlock (l := [.pru, .alt]) (by simp) (by simp) ).mpr (.refl _ t)) .sht (by simp)
@[simp] theorem unlock_cab : (unlock t).cab = t.cab :=
  ((kept_unlock (l := [.pru, .alt]) (by simp) (by simp) ).mpr (.refl _ t)) .cab (by simp)
@[simp] theorem unlock_spt : (unlock t).spt = t.spt :=
  ((kept_unlock (l := [.pru, .alt]) (by simp) (by simp) ).mpr (.refl _ t)) .spt (by simp)
@[simp] theorem unlock_cfg : (unlock t).cfg = t.cfg :=
  ((kept_unlock (l := [.pru, .alt]) (by simp) (by simp) ).mpr (.refl _ t)) .cfg (by simp)
@[simp] theorem unlock_tmb : (unlock t).tmb = t.tmb :=
  ((kept_unlock (l := [.pru, .alt]) (by simp) (by simp) ).mpr (.refl _ t)) .tmb (by simp)
@[simp] theorem unlock_out : (unlock t).out = t.out :=
  ((kept_unlock (l := [.pru, .alt]) (by simp) (by simp) ).mpr (.refl _ t)) .out (by simp)
@[simp] theorem unlock_pending : (unlock t).pending = t.pending :=
  ((kept_unlock (l := [.pru, .alt]) (by simp) (by simp) ).mpr (.refl _ t)) .pending (by simp)
@[simp] theorem unlock_setting (setting : Nat) : (unlock t).setting setting = t.setting setting := by
  simp [State.setting]
@[simp] theorem unlock_reel (reel : Nat) : (unlock t).reel reel = t.reel reel := by
  simp [State.reel]
@[simp] theorem lockMeasured_reg (e : Int) : (lockMeasured e t).reg = t.reg :=
  ((kept_lockMeasured (l := [.pru, .alt]) (by simp) (by simp) e).mpr (.refl _ t)) .reg (by simp)
@[simp] theorem lockMeasured_trc (e : Int) : (lockMeasured e t).trc = t.trc :=
  ((kept_lockMeasured (l := [.pru, .alt]) (by simp) (by simp) e).mpr (.refl _ t)) .trc (by simp)
@[simp] theorem lockMeasured_fcu (e : Int) : (lockMeasured e t).fcu = t.fcu :=
  ((kept_lockMeasured (l := [.pru, .alt]) (by simp) (by simp) e).mpr (.refl _ t)) .fcu (by simp)
@[simp] theorem lockMeasured_dsu (e : Int) : (lockMeasured e t).dsu = t.dsu :=
  ((kept_lockMeasured (l := [.pru, .alt]) (by simp) (by simp) e).mpr (.refl _ t)) .dsu (by simp)
@[simp] theorem lockMeasured_rpq (e : Int) : (lockMeasured e t).rpq = t.rpq :=
  ((kept_lockMeasured (l := [.pru, .alt]) (by simp) (by simp) e).mpr (.refl _ t)) .rpq (by simp)
@[simp] theorem lockMeasured_sht (e : Int) : (lockMeasured e t).sht = t.sht :=
  ((kept_lockMeasured (l := [.pru, .alt]) (by simp) (by simp) e).mpr (.refl _ t)) .sht (by simp)
@[simp] theorem lockMeasured_cab (e : Int) : (lockMeasured e t).cab = t.cab :=
  ((kept_lockMeasured (l := [.pru, .alt]) (by simp) (by simp) e).mpr (.refl _ t)) .cab (by simp)
@[simp] theorem lockMeasured_spt (e : Int) : (lockMeasured e t).spt = t.spt :=
  ((kept_lockMeasured (l := [.pru, .alt]) (by simp) (by simp) e).mpr (.refl _ t)) .spt (by simp)
@[simp] theorem lockMeasured_cfg (e : Int) : (lockMeasured e t).cfg = t.cfg :=
  ((kept_lockMeasured (l := [.pru, .alt]) (by simp) (by simp) e).mpr (.refl _ t)) .cfg (by simp)
@[simp] theorem lockMeasured_tmb (e : Int) : (lockMeasured e t).tmb = t.tmb :=
  ((kept_lockMeasured (l := [.pru, .alt]) (by simp) (by simp) e).mpr (.refl _ t)) .tmb (by simp)
@[simp] theorem lockMeasured_out (e : Int) : (lockMeasured e t).out = t.out :=
  ((kept_lockMeasured (l := [.pru, .alt]) (by simp) (by simp) e).mpr (.refl _ t)) .out (by simp)
@[simp] theorem lockMeasured_pending (e : Int) : (lockMeasured e t).pending = t.pending :=
  ((kept_lockMeasured (l := [.pru, .alt]) (by simp) (by simp) e).mpr (.refl _ t)) .pending (by simp)
@[simp] theorem lockMeasured_setting (e : Int) (setting : Nat) : (lockMeasured e t).setting setting = t.setting setting := by
  simp [State.setting]
@[simp] theorem lockMeasured_reel (e : Int) (reel : Nat) : (lockMeasured e t).reel reel = t.reel reel := by
  simp [State.reel]
@[simp] theorem lockMissing_reg (k : Nat) : (lockMissing k t).reg = t.reg :=
  ((kept_lockMissing (l := [.pru, .alt]) (by simp) (by simp) k).mpr (.refl _ t)) .reg (by simp)
@[simp] theorem lockMissing_trc (k : Nat) : (lockMissing k t).trc = t.trc :=
  ((kept_lockMissing (l := [.pru, .alt]) (by simp) (by simp) k).mpr (.refl _ t)) .trc (by simp)
@[simp] theorem lockMissing_fcu (k : Nat) : (lockMissing k t).fcu = t.fcu :=
  ((kept_lockMissing (l := [.pru, .alt]) (by simp) (by simp) k).mpr (.refl _ t)) .fcu (by simp)
@[simp] theorem lockMissing_dsu (k : Nat) : (lockMissing k t).dsu = t.dsu :=
  ((kept_lockMissing (l := [.pru, .alt]) (by simp) (by simp) k).mpr (.refl _ t)) .dsu (by simp)
@[simp] theorem lockMissing_rpq (k : Nat) : (lockMissing k t).rpq = t.rpq :=
  ((kept_lockMissing (l := [.pru, .alt]) (by simp) (by simp) k).mpr (.refl _ t)) .rpq (by simp)
@[simp] theorem lockMissing_sht (k : Nat) : (lockMissing k t).sht = t.sht :=
  ((kept_lockMissing (l := [.pru, .alt]) (by simp) (by simp) k).mpr (.refl _ t)) .sht (by simp)
@[simp] theorem lockMissing_cab (k : Nat) : (lockMissing k t).cab = t.cab :=
  ((kept_lockMissing (l := [.pru, .alt]) (by simp) (by simp) k).mpr (.refl _ t)) .cab (by simp)
@[simp] theorem lockMissing_spt (k : Nat) : (lockMissing k t).spt = t.spt :=
  ((kept_lockMissing (l := [.pru, .alt]) (by simp) (by simp) k).mpr (.refl _ t)) .spt (by simp)
@[simp] theorem lockMissing_cfg (k : Nat) : (lockMissing k t).cfg = t.cfg :=
  ((kept_lockMissing (l := [.pru, .alt]) (by simp) (by simp) k).mpr (.refl _ t)) .cfg (by simp)
@[simp] theorem lockMissing_tmb (k : Nat) : (lockMissing k t).tmb = t.tmb :=
  ((kept_lockMissing (l := [.pru, .alt]) (by simp) (by simp) k).mpr (.refl _ t)) .tmb (by simp)
@[simp] theorem lockMissing_out (k : Nat) : (lockMissing k t).out = t.out :=
  ((kept_lockMissing (l := [.pru, .alt]) (by simp) (by simp) k).mpr (.refl _ t)) .out (by simp)
@[simp] theorem lockMissing_pending (k : Nat) : (lockMissing k t).pending = t.pending :=
  ((kept_lockMissing (l := [.pru, .alt]) (by simp) (by simp) k).mpr (.refl _ t)) .pending (by simp)
@[simp] theorem lockMissing_setting (k : Nat) (setting : Nat) : (lockMissing k t).setting setting = t.setting setting := by
  simp [State.setting]
@[simp] theorem lockMissing_reel (k : Nat) (reel : Nat) : (lockMissing k t).reel reel = t.reel reel := by
  simp [State.reel]
@[simp] theorem anchorAt_reg (m : Mark) : (anchorAt m t).reg = t.reg :=
  ((kept_anchorAt (l := [.pru]) (by simp) m).mpr (.refl _ t)) .reg (by simp)
@[simp] theorem anchorAt_trc (m : Mark) : (anchorAt m t).trc = t.trc :=
  ((kept_anchorAt (l := [.pru]) (by simp) m).mpr (.refl _ t)) .trc (by simp)
@[simp] theorem anchorAt_fcu (m : Mark) : (anchorAt m t).fcu = t.fcu :=
  ((kept_anchorAt (l := [.pru]) (by simp) m).mpr (.refl _ t)) .fcu (by simp)
@[simp] theorem anchorAt_dsu (m : Mark) : (anchorAt m t).dsu = t.dsu :=
  ((kept_anchorAt (l := [.pru]) (by simp) m).mpr (.refl _ t)) .dsu (by simp)
@[simp] theorem anchorAt_rpq (m : Mark) : (anchorAt m t).rpq = t.rpq :=
  ((kept_anchorAt (l := [.pru]) (by simp) m).mpr (.refl _ t)) .rpq (by simp)
@[simp] theorem anchorAt_sht (m : Mark) : (anchorAt m t).sht = t.sht :=
  ((kept_anchorAt (l := [.pru]) (by simp) m).mpr (.refl _ t)) .sht (by simp)
@[simp] theorem anchorAt_cab (m : Mark) : (anchorAt m t).cab = t.cab :=
  ((kept_anchorAt (l := [.pru]) (by simp) m).mpr (.refl _ t)) .cab (by simp)
@[simp] theorem anchorAt_spt (m : Mark) : (anchorAt m t).spt = t.spt :=
  ((kept_anchorAt (l := [.pru]) (by simp) m).mpr (.refl _ t)) .spt (by simp)
@[simp] theorem anchorAt_alt (m : Mark) : (anchorAt m t).alt = t.alt :=
  ((kept_anchorAt (l := [.pru]) (by simp) m).mpr (.refl _ t)) .alt (by simp)
@[simp] theorem anchorAt_cfg (m : Mark) : (anchorAt m t).cfg = t.cfg :=
  ((kept_anchorAt (l := [.pru]) (by simp) m).mpr (.refl _ t)) .cfg (by simp)
@[simp] theorem anchorAt_tmb (m : Mark) : (anchorAt m t).tmb = t.tmb :=
  ((kept_anchorAt (l := [.pru]) (by simp) m).mpr (.refl _ t)) .tmb (by simp)
@[simp] theorem anchorAt_out (m : Mark) : (anchorAt m t).out = t.out :=
  ((kept_anchorAt (l := [.pru]) (by simp) m).mpr (.refl _ t)) .out (by simp)
@[simp] theorem anchorAt_pending (m : Mark) : (anchorAt m t).pending = t.pending :=
  ((kept_anchorAt (l := [.pru]) (by simp) m).mpr (.refl _ t)) .pending (by simp)
@[simp] theorem anchorAt_setting (m : Mark) (setting : Nat) : (anchorAt m t).setting setting = t.setting setting := by
  simp [State.setting]
@[simp] theorem anchorAt_reel (m : Mark) (reel : Nat) : (anchorAt m t).reel reel = t.reel reel := by
  simp [State.reel]
@[simp] theorem windowAnchor_reg (m : Mark) : (windowAnchor m t).reg = t.reg :=
  ((kept_windowAnchor (l := [.pru]) (by simp) m).mpr (.refl _ t)) .reg (by simp)
@[simp] theorem windowAnchor_trc (m : Mark) : (windowAnchor m t).trc = t.trc :=
  ((kept_windowAnchor (l := [.pru]) (by simp) m).mpr (.refl _ t)) .trc (by simp)
@[simp] theorem windowAnchor_fcu (m : Mark) : (windowAnchor m t).fcu = t.fcu :=
  ((kept_windowAnchor (l := [.pru]) (by simp) m).mpr (.refl _ t)) .fcu (by simp)
@[simp] theorem windowAnchor_dsu (m : Mark) : (windowAnchor m t).dsu = t.dsu :=
  ((kept_windowAnchor (l := [.pru]) (by simp) m).mpr (.refl _ t)) .dsu (by simp)
@[simp] theorem windowAnchor_rpq (m : Mark) : (windowAnchor m t).rpq = t.rpq :=
  ((kept_windowAnchor (l := [.pru]) (by simp) m).mpr (.refl _ t)) .rpq (by simp)
@[simp] theorem windowAnchor_sht (m : Mark) : (windowAnchor m t).sht = t.sht :=
  ((kept_windowAnchor (l := [.pru]) (by simp) m).mpr (.refl _ t)) .sht (by simp)
@[simp] theorem windowAnchor_cab (m : Mark) : (windowAnchor m t).cab = t.cab :=
  ((kept_windowAnchor (l := [.pru]) (by simp) m).mpr (.refl _ t)) .cab (by simp)
@[simp] theorem windowAnchor_spt (m : Mark) : (windowAnchor m t).spt = t.spt :=
  ((kept_windowAnchor (l := [.pru]) (by simp) m).mpr (.refl _ t)) .spt (by simp)
@[simp] theorem windowAnchor_alt (m : Mark) : (windowAnchor m t).alt = t.alt :=
  ((kept_windowAnchor (l := [.pru]) (by simp) m).mpr (.refl _ t)) .alt (by simp)
@[simp] theorem windowAnchor_cfg (m : Mark) : (windowAnchor m t).cfg = t.cfg :=
  ((kept_windowAnchor (l := [.pru]) (by simp) m).mpr (.refl _ t)) .cfg (by simp)
@[simp] theorem windowAnchor_tmb (m : Mark) : (windowAnchor m t).tmb = t.tmb :=
  ((kept_windowAnchor (l := [.pru]) (by simp) m).mpr (.refl _ t)) .tmb (by simp)
@[simp] theorem windowAnchor_out (m : Mark) : (windowAnchor m t).out = t.out :=
  ((kept_windowAnchor (l := [.pru]) (by simp) m).mpr (.refl _ t)) .out (by simp)
@[simp] theorem windowAnchor_pending (m : Mark) : (windowAnchor m t).pending = t.pending :=
  ((kept_windowAnchor (l := [.pru]) (by simp) m).mpr (.refl _ t)) .pending (by simp)
@[simp] theorem windowAnchor_setting (m : Mark) (setting : Nat) : (windowAnchor m t).setting setting = t.setting setting := by
  simp [State.setting]
@[simp] theorem windowAnchor_reel (m : Mark) (reel : Nat) : (windowAnchor m t).reel reel = t.reel reel := by
  simp [State.reel]
@[simp] theorem reanchorAt_reg (m : Mark) : (reanchorAt m t).reg = t.reg :=
  ((kept_reanchorAt (l := [.pru, .alt]) (by simp) (by simp) m).mpr (.refl _ t)) .reg (by simp)
@[simp] theorem reanchorAt_trc (m : Mark) : (reanchorAt m t).trc = t.trc :=
  ((kept_reanchorAt (l := [.pru, .alt]) (by simp) (by simp) m).mpr (.refl _ t)) .trc (by simp)
@[simp] theorem reanchorAt_fcu (m : Mark) : (reanchorAt m t).fcu = t.fcu :=
  ((kept_reanchorAt (l := [.pru, .alt]) (by simp) (by simp) m).mpr (.refl _ t)) .fcu (by simp)
@[simp] theorem reanchorAt_dsu (m : Mark) : (reanchorAt m t).dsu = t.dsu :=
  ((kept_reanchorAt (l := [.pru, .alt]) (by simp) (by simp) m).mpr (.refl _ t)) .dsu (by simp)
@[simp] theorem reanchorAt_rpq (m : Mark) : (reanchorAt m t).rpq = t.rpq :=
  ((kept_reanchorAt (l := [.pru, .alt]) (by simp) (by simp) m).mpr (.refl _ t)) .rpq (by simp)
@[simp] theorem reanchorAt_sht (m : Mark) : (reanchorAt m t).sht = t.sht :=
  ((kept_reanchorAt (l := [.pru, .alt]) (by simp) (by simp) m).mpr (.refl _ t)) .sht (by simp)
@[simp] theorem reanchorAt_cab (m : Mark) : (reanchorAt m t).cab = t.cab :=
  ((kept_reanchorAt (l := [.pru, .alt]) (by simp) (by simp) m).mpr (.refl _ t)) .cab (by simp)
@[simp] theorem reanchorAt_spt (m : Mark) : (reanchorAt m t).spt = t.spt :=
  ((kept_reanchorAt (l := [.pru, .alt]) (by simp) (by simp) m).mpr (.refl _ t)) .spt (by simp)
@[simp] theorem reanchorAt_cfg (m : Mark) : (reanchorAt m t).cfg = t.cfg :=
  ((kept_reanchorAt (l := [.pru, .alt]) (by simp) (by simp) m).mpr (.refl _ t)) .cfg (by simp)
@[simp] theorem reanchorAt_tmb (m : Mark) : (reanchorAt m t).tmb = t.tmb :=
  ((kept_reanchorAt (l := [.pru, .alt]) (by simp) (by simp) m).mpr (.refl _ t)) .tmb (by simp)
@[simp] theorem reanchorAt_out (m : Mark) : (reanchorAt m t).out = t.out :=
  ((kept_reanchorAt (l := [.pru, .alt]) (by simp) (by simp) m).mpr (.refl _ t)) .out (by simp)
@[simp] theorem reanchorAt_pending (m : Mark) : (reanchorAt m t).pending = t.pending :=
  ((kept_reanchorAt (l := [.pru, .alt]) (by simp) (by simp) m).mpr (.refl _ t)) .pending (by simp)
@[simp] theorem reanchorAt_setting (m : Mark) (setting : Nat) : (reanchorAt m t).setting setting = t.setting setting := by
  simp [State.setting]
@[simp] theorem reanchorAt_reel (m : Mark) (reel : Nat) : (reanchorAt m t).reel reel = t.reel reel := by
  simp [State.reel]
@[simp] theorem correction_reg (e p : Int) (k : Nat) : (correction e p k t).reg = t.reg :=
  ((kept_correction (l := [.trc, .pru, .alt, .out]) (by simp) (by simp) (by simp) (by simp) e p k).mpr (.refl _ t)) .reg (by simp)
@[simp] theorem correction_fcu (e p : Int) (k : Nat) : (correction e p k t).fcu = t.fcu :=
  ((kept_correction (l := [.trc, .pru, .alt, .out]) (by simp) (by simp) (by simp) (by simp) e p k).mpr (.refl _ t)) .fcu (by simp)
@[simp] theorem correction_dsu (e p : Int) (k : Nat) : (correction e p k t).dsu = t.dsu :=
  ((kept_correction (l := [.trc, .pru, .alt, .out]) (by simp) (by simp) (by simp) (by simp) e p k).mpr (.refl _ t)) .dsu (by simp)
@[simp] theorem correction_rpq (e p : Int) (k : Nat) : (correction e p k t).rpq = t.rpq :=
  ((kept_correction (l := [.trc, .pru, .alt, .out]) (by simp) (by simp) (by simp) (by simp) e p k).mpr (.refl _ t)) .rpq (by simp)
@[simp] theorem correction_sht (e p : Int) (k : Nat) : (correction e p k t).sht = t.sht :=
  ((kept_correction (l := [.trc, .pru, .alt, .out]) (by simp) (by simp) (by simp) (by simp) e p k).mpr (.refl _ t)) .sht (by simp)
@[simp] theorem correction_cab (e p : Int) (k : Nat) : (correction e p k t).cab = t.cab :=
  ((kept_correction (l := [.trc, .pru, .alt, .out]) (by simp) (by simp) (by simp) (by simp) e p k).mpr (.refl _ t)) .cab (by simp)
@[simp] theorem correction_spt (e p : Int) (k : Nat) : (correction e p k t).spt = t.spt :=
  ((kept_correction (l := [.trc, .pru, .alt, .out]) (by simp) (by simp) (by simp) (by simp) e p k).mpr (.refl _ t)) .spt (by simp)
@[simp] theorem correction_cfg (e p : Int) (k : Nat) : (correction e p k t).cfg = t.cfg :=
  ((kept_correction (l := [.trc, .pru, .alt, .out]) (by simp) (by simp) (by simp) (by simp) e p k).mpr (.refl _ t)) .cfg (by simp)
@[simp] theorem correction_tmb (e p : Int) (k : Nat) : (correction e p k t).tmb = t.tmb :=
  ((kept_correction (l := [.trc, .pru, .alt, .out]) (by simp) (by simp) (by simp) (by simp) e p k).mpr (.refl _ t)) .tmb (by simp)
@[simp] theorem correction_pending (e p : Int) (k : Nat) : (correction e p k t).pending = t.pending :=
  ((kept_correction (l := [.trc, .pru, .alt, .out]) (by simp) (by simp) (by simp) (by simp) e p k).mpr (.refl _ t)) .pending (by simp)
@[simp] theorem correction_setting (e p : Int) (k : Nat) (setting : Nat) : (correction e p k t).setting setting = t.setting setting := by
  simp [State.setting]
@[simp] theorem correction_reel (e p : Int) (k : Nat) (reel : Nat) : (correction e p k t).reel reel = t.reel reel := by
  simp [State.reel]
@[simp] theorem adaptStep_reg (k : Nat) (e : Option (Int × Int)) : (adaptStep k e t).reg = t.reg :=
  ((kept_adaptStep (l := [.trc, .pru, .alt, .out]) (by simp) (by simp) (by simp) (by simp) k e).mpr (.refl _ t)) .reg (by simp)
@[simp] theorem adaptStep_fcu (k : Nat) (e : Option (Int × Int)) : (adaptStep k e t).fcu = t.fcu :=
  ((kept_adaptStep (l := [.trc, .pru, .alt, .out]) (by simp) (by simp) (by simp) (by simp) k e).mpr (.refl _ t)) .fcu (by simp)
@[simp] theorem adaptStep_dsu (k : Nat) (e : Option (Int × Int)) : (adaptStep k e t).dsu = t.dsu :=
  ((kept_adaptStep (l := [.trc, .pru, .alt, .out]) (by simp) (by simp) (by simp) (by simp) k e).mpr (.refl _ t)) .dsu (by simp)
@[simp] theorem adaptStep_rpq (k : Nat) (e : Option (Int × Int)) : (adaptStep k e t).rpq = t.rpq :=
  ((kept_adaptStep (l := [.trc, .pru, .alt, .out]) (by simp) (by simp) (by simp) (by simp) k e).mpr (.refl _ t)) .rpq (by simp)
@[simp] theorem adaptStep_sht (k : Nat) (e : Option (Int × Int)) : (adaptStep k e t).sht = t.sht :=
  ((kept_adaptStep (l := [.trc, .pru, .alt, .out]) (by simp) (by simp) (by simp) (by simp) k e).mpr (.refl _ t)) .sht (by simp)
@[simp] theorem adaptStep_cab (k : Nat) (e : Option (Int × Int)) : (adaptStep k e t).cab = t.cab :=
  ((kept_adaptStep (l := [.trc, .pru, .alt, .out]) (by simp) (by simp) (by simp) (by simp) k e).mpr (.refl _ t)) .cab (by simp)
@[simp] theorem adaptStep_spt (k : Nat) (e : Option (Int × Int)) : (adaptStep k e t).spt = t.spt :=
  ((kept_adaptStep (l := [.trc, .pru, .alt, .out]) (by simp) (by simp) (by simp) (by simp) k e).mpr (.refl _ t)) .spt (by simp)
@[simp] theorem adaptStep_cfg (k : Nat) (e : Option (Int × Int)) : (adaptStep k e t).cfg = t.cfg :=
  ((kept_adaptStep (l := [.trc, .pru, .alt, .out]) (by simp) (by simp) (by simp) (by simp) k e).mpr (.refl _ t)) .cfg (by simp)
@[simp] theorem adaptStep_tmb (k : Nat) (e : Option (Int × Int)) : (adaptStep k e t).tmb = t.tmb :=
  ((kept_adaptStep (l := [.trc, .pru, .alt, .out]) (by simp) (by simp) (by simp) (by simp) k e).mpr (.refl _ t)) .tmb (by simp)
@[simp] theorem adaptStep_pending (k : Nat) (e : Option (Int × Int)) : (adaptStep k e t).pending = t.pending :=
  ((kept_adaptStep (l := [.trc, .pru, .alt, .out]) (by simp) (by simp) (by simp) (by simp) k e).mpr (.refl _ t)) .pending (by simp)
@[simp] theorem adaptStep_setting (k : Nat) (e : Option (Int × Int)) (setting : Nat) : (adaptStep k e t).setting setting = t.setting setting := by
  simp [State.setting]
@[simp] theorem adaptStep_reel (k : Nat) (e : Option (Int × Int)) (reel : Nat) : (adaptStep k e t).reel reel = t.reel reel := by
  simp [State.reel]
@[simp] theorem applyCommit_reg (m : Option Mark) : (applyCommit m t).reg = t.reg :=
  ((kept_applyCommit (l := [.trc, .pru, .alt, .out]) (by simp) (by simp) (by simp) (by simp) m).mpr (.refl _ t)) .reg (by simp)
@[simp] theorem applyCommit_fcu (m : Option Mark) : (applyCommit m t).fcu = t.fcu :=
  ((kept_applyCommit (l := [.trc, .pru, .alt, .out]) (by simp) (by simp) (by simp) (by simp) m).mpr (.refl _ t)) .fcu (by simp)
@[simp] theorem applyCommit_dsu (m : Option Mark) : (applyCommit m t).dsu = t.dsu :=
  ((kept_applyCommit (l := [.trc, .pru, .alt, .out]) (by simp) (by simp) (by simp) (by simp) m).mpr (.refl _ t)) .dsu (by simp)
@[simp] theorem applyCommit_rpq (m : Option Mark) : (applyCommit m t).rpq = t.rpq :=
  ((kept_applyCommit (l := [.trc, .pru, .alt, .out]) (by simp) (by simp) (by simp) (by simp) m).mpr (.refl _ t)) .rpq (by simp)
@[simp] theorem applyCommit_sht (m : Option Mark) : (applyCommit m t).sht = t.sht :=
  ((kept_applyCommit (l := [.trc, .pru, .alt, .out]) (by simp) (by simp) (by simp) (by simp) m).mpr (.refl _ t)) .sht (by simp)
@[simp] theorem applyCommit_cab (m : Option Mark) : (applyCommit m t).cab = t.cab :=
  ((kept_applyCommit (l := [.trc, .pru, .alt, .out]) (by simp) (by simp) (by simp) (by simp) m).mpr (.refl _ t)) .cab (by simp)
@[simp] theorem applyCommit_spt (m : Option Mark) : (applyCommit m t).spt = t.spt :=
  ((kept_applyCommit (l := [.trc, .pru, .alt, .out]) (by simp) (by simp) (by simp) (by simp) m).mpr (.refl _ t)) .spt (by simp)
@[simp] theorem applyCommit_cfg (m : Option Mark) : (applyCommit m t).cfg = t.cfg :=
  ((kept_applyCommit (l := [.trc, .pru, .alt, .out]) (by simp) (by simp) (by simp) (by simp) m).mpr (.refl _ t)) .cfg (by simp)
@[simp] theorem applyCommit_tmb (m : Option Mark) : (applyCommit m t).tmb = t.tmb :=
  ((kept_applyCommit (l := [.trc, .pru, .alt, .out]) (by simp) (by simp) (by simp) (by simp) m).mpr (.refl _ t)) .tmb (by simp)
@[simp] theorem applyCommit_pending (m : Option Mark) : (applyCommit m t).pending = t.pending :=
  ((kept_applyCommit (l := [.trc, .pru, .alt, .out]) (by simp) (by simp) (by simp) (by simp) m).mpr (.refl _ t)) .pending (by simp)
@[simp] theorem applyCommit_setting (m : Option Mark) (setting : Nat) : (applyCommit m t).setting setting = t.setting setting := by
  simp [State.setting]
@[simp] theorem applyCommit_reel (m : Option Mark) (reel : Nat) : (applyCommit m t).reel reel = t.reel reel := by
  simp [State.reel]
@[simp] theorem applyPending_reg : (applyPending t).reg = t.reg :=
  ((kept_applyPending (l := [.trc, .pru, .alt, .out]) (by simp) (by simp) (by simp) (by simp) ).mpr (.refl _ t)) .reg (by simp)
@[simp] theorem applyPending_fcu : (applyPending t).fcu = t.fcu :=
  ((kept_applyPending (l := [.trc, .pru, .alt, .out]) (by simp) (by simp) (by simp) (by simp) ).mpr (.refl _ t)) .fcu (by simp)
@[simp] theorem applyPending_dsu : (applyPending t).dsu = t.dsu :=
  ((kept_applyPending (l := [.trc, .pru, .alt, .out]) (by simp) (by simp) (by simp) (by simp) ).mpr (.refl _ t)) .dsu (by simp)
@[simp] theorem applyPending_rpq : (applyPending t).rpq = t.rpq :=
  ((kept_applyPending (l := [.trc, .pru, .alt, .out]) (by simp) (by simp) (by simp) (by simp) ).mpr (.refl _ t)) .rpq (by simp)
@[simp] theorem applyPending_sht : (applyPending t).sht = t.sht :=
  ((kept_applyPending (l := [.trc, .pru, .alt, .out]) (by simp) (by simp) (by simp) (by simp) ).mpr (.refl _ t)) .sht (by simp)
@[simp] theorem applyPending_cab : (applyPending t).cab = t.cab :=
  ((kept_applyPending (l := [.trc, .pru, .alt, .out]) (by simp) (by simp) (by simp) (by simp) ).mpr (.refl _ t)) .cab (by simp)
@[simp] theorem applyPending_spt : (applyPending t).spt = t.spt :=
  ((kept_applyPending (l := [.trc, .pru, .alt, .out]) (by simp) (by simp) (by simp) (by simp) ).mpr (.refl _ t)) .spt (by simp)
@[simp] theorem applyPending_cfg : (applyPending t).cfg = t.cfg :=
  ((kept_applyPending (l := [.trc, .pru, .alt, .out]) (by simp) (by simp) (by simp) (by simp) ).mpr (.refl _ t)) .cfg (by simp)
@[simp] theorem applyPending_tmb : (applyPending t).tmb = t.tmb :=
  ((kept_applyPending (l := [.trc, .pru, .alt, .out]) (by simp) (by simp) (by simp) (by simp) ).mpr (.refl _ t)) .tmb (by simp)
@[simp] theorem applyPending_pending : (applyPending t).pending = t.pending :=
  ((kept_applyPending (l := [.trc, .pru, .alt, .out]) (by simp) (by simp) (by simp) (by simp) ).mpr (.refl _ t)) .pending (by simp)
@[simp] theorem applyPending_setting (setting : Nat) : (applyPending t).setting setting = t.setting setting := by
  simp [State.setting]
@[simp] theorem applyPending_reel (reel : Nat) : (applyPending t).reel reel = t.reel reel := by
  simp [State.reel]
@[simp] theorem enterThreaded_reg : (enterThreaded t).reg = t.reg :=
  ((kept_enterThreaded (l := [.trc, .pru, .alt, .out]) (by simp) (by simp) (by simp) (by simp) ).mpr (.refl _ t)) .reg (by simp)
@[simp] theorem enterThreaded_fcu : (enterThreaded t).fcu = t.fcu :=
  ((kept_enterThreaded (l := [.trc, .pru, .alt, .out]) (by simp) (by simp) (by simp) (by simp) ).mpr (.refl _ t)) .fcu (by simp)
@[simp] theorem enterThreaded_dsu : (enterThreaded t).dsu = t.dsu :=
  ((kept_enterThreaded (l := [.trc, .pru, .alt, .out]) (by simp) (by simp) (by simp) (by simp) ).mpr (.refl _ t)) .dsu (by simp)
@[simp] theorem enterThreaded_rpq : (enterThreaded t).rpq = t.rpq :=
  ((kept_enterThreaded (l := [.trc, .pru, .alt, .out]) (by simp) (by simp) (by simp) (by simp) ).mpr (.refl _ t)) .rpq (by simp)
@[simp] theorem enterThreaded_sht : (enterThreaded t).sht = t.sht :=
  ((kept_enterThreaded (l := [.trc, .pru, .alt, .out]) (by simp) (by simp) (by simp) (by simp) ).mpr (.refl _ t)) .sht (by simp)
@[simp] theorem enterThreaded_cab : (enterThreaded t).cab = t.cab :=
  ((kept_enterThreaded (l := [.trc, .pru, .alt, .out]) (by simp) (by simp) (by simp) (by simp) ).mpr (.refl _ t)) .cab (by simp)
@[simp] theorem enterThreaded_spt : (enterThreaded t).spt = t.spt :=
  ((kept_enterThreaded (l := [.trc, .pru, .alt, .out]) (by simp) (by simp) (by simp) (by simp) ).mpr (.refl _ t)) .spt (by simp)
@[simp] theorem enterThreaded_cfg : (enterThreaded t).cfg = t.cfg :=
  ((kept_enterThreaded (l := [.trc, .pru, .alt, .out]) (by simp) (by simp) (by simp) (by simp) ).mpr (.refl _ t)) .cfg (by simp)
@[simp] theorem enterThreaded_tmb : (enterThreaded t).tmb = t.tmb :=
  ((kept_enterThreaded (l := [.trc, .pru, .alt, .out]) (by simp) (by simp) (by simp) (by simp) ).mpr (.refl _ t)) .tmb (by simp)
@[simp] theorem enterThreaded_pending : (enterThreaded t).pending = t.pending :=
  ((kept_enterThreaded (l := [.trc, .pru, .alt, .out]) (by simp) (by simp) (by simp) (by simp) ).mpr (.refl _ t)) .pending (by simp)
@[simp] theorem enterThreaded_setting (setting : Nat) : (enterThreaded t).setting setting = t.setting setting := by
  simp [State.setting]
@[simp] theorem enterThreaded_reel (reel : Nat) : (enterThreaded t).reel reel = t.reel reel := by
  simp [State.reel]
@[simp] theorem stopRun_reg : (stopRun t).reg = t.reg :=
  ((kept_stopRun (l := [.trc, .pru, .alt, .out]) (by simp) (by simp) (by simp) (by simp) ).mpr (.refl _ t)) .reg (by simp)
@[simp] theorem stopRun_fcu : (stopRun t).fcu = t.fcu :=
  ((kept_stopRun (l := [.trc, .pru, .alt, .out]) (by simp) (by simp) (by simp) (by simp) ).mpr (.refl _ t)) .fcu (by simp)
@[simp] theorem stopRun_dsu : (stopRun t).dsu = t.dsu :=
  ((kept_stopRun (l := [.trc, .pru, .alt, .out]) (by simp) (by simp) (by simp) (by simp) ).mpr (.refl _ t)) .dsu (by simp)
@[simp] theorem stopRun_rpq : (stopRun t).rpq = t.rpq :=
  ((kept_stopRun (l := [.trc, .pru, .alt, .out]) (by simp) (by simp) (by simp) (by simp) ).mpr (.refl _ t)) .rpq (by simp)
@[simp] theorem stopRun_sht : (stopRun t).sht = t.sht :=
  ((kept_stopRun (l := [.trc, .pru, .alt, .out]) (by simp) (by simp) (by simp) (by simp) ).mpr (.refl _ t)) .sht (by simp)
@[simp] theorem stopRun_cab : (stopRun t).cab = t.cab :=
  ((kept_stopRun (l := [.trc, .pru, .alt, .out]) (by simp) (by simp) (by simp) (by simp) ).mpr (.refl _ t)) .cab (by simp)
@[simp] theorem stopRun_spt : (stopRun t).spt = t.spt :=
  ((kept_stopRun (l := [.trc, .pru, .alt, .out]) (by simp) (by simp) (by simp) (by simp) ).mpr (.refl _ t)) .spt (by simp)
@[simp] theorem stopRun_cfg : (stopRun t).cfg = t.cfg :=
  ((kept_stopRun (l := [.trc, .pru, .alt, .out]) (by simp) (by simp) (by simp) (by simp) ).mpr (.refl _ t)) .cfg (by simp)
@[simp] theorem stopRun_tmb : (stopRun t).tmb = t.tmb :=
  ((kept_stopRun (l := [.trc, .pru, .alt, .out]) (by simp) (by simp) (by simp) (by simp) ).mpr (.refl _ t)) .tmb (by simp)
@[simp] theorem stopRun_pending : (stopRun t).pending = t.pending :=
  ((kept_stopRun (l := [.trc, .pru, .alt, .out]) (by simp) (by simp) (by simp) (by simp) ).mpr (.refl _ t)) .pending (by simp)
@[simp] theorem stopRun_setting (setting : Nat) : (stopRun t).setting setting = t.setting setting := by
  simp [State.setting]
@[simp] theorem stopRun_reel (reel : Nat) : (stopRun t).reel reel = t.reel reel := by
  simp [State.reel]
@[simp] theorem splicePassage_reg : (splicePassage t).reg = t.reg :=
  ((kept_splicePassage (l := [.pru, .alt]) (by simp) (by simp) ).mpr (.refl _ t)) .reg (by simp)
@[simp] theorem splicePassage_trc : (splicePassage t).trc = t.trc :=
  ((kept_splicePassage (l := [.pru, .alt]) (by simp) (by simp) ).mpr (.refl _ t)) .trc (by simp)
@[simp] theorem splicePassage_fcu : (splicePassage t).fcu = t.fcu :=
  ((kept_splicePassage (l := [.pru, .alt]) (by simp) (by simp) ).mpr (.refl _ t)) .fcu (by simp)
@[simp] theorem splicePassage_dsu : (splicePassage t).dsu = t.dsu :=
  ((kept_splicePassage (l := [.pru, .alt]) (by simp) (by simp) ).mpr (.refl _ t)) .dsu (by simp)
@[simp] theorem splicePassage_rpq : (splicePassage t).rpq = t.rpq :=
  ((kept_splicePassage (l := [.pru, .alt]) (by simp) (by simp) ).mpr (.refl _ t)) .rpq (by simp)
@[simp] theorem splicePassage_sht : (splicePassage t).sht = t.sht :=
  ((kept_splicePassage (l := [.pru, .alt]) (by simp) (by simp) ).mpr (.refl _ t)) .sht (by simp)
@[simp] theorem splicePassage_cab : (splicePassage t).cab = t.cab :=
  ((kept_splicePassage (l := [.pru, .alt]) (by simp) (by simp) ).mpr (.refl _ t)) .cab (by simp)
@[simp] theorem splicePassage_spt : (splicePassage t).spt = t.spt :=
  ((kept_splicePassage (l := [.pru, .alt]) (by simp) (by simp) ).mpr (.refl _ t)) .spt (by simp)
@[simp] theorem splicePassage_cfg : (splicePassage t).cfg = t.cfg :=
  ((kept_splicePassage (l := [.pru, .alt]) (by simp) (by simp) ).mpr (.refl _ t)) .cfg (by simp)
@[simp] theorem splicePassage_tmb : (splicePassage t).tmb = t.tmb :=
  ((kept_splicePassage (l := [.pru, .alt]) (by simp) (by simp) ).mpr (.refl _ t)) .tmb (by simp)
@[simp] theorem splicePassage_out : (splicePassage t).out = t.out :=
  ((kept_splicePassage (l := [.pru, .alt]) (by simp) (by simp) ).mpr (.refl _ t)) .out (by simp)
@[simp] theorem splicePassage_pending : (splicePassage t).pending = t.pending :=
  ((kept_splicePassage (l := [.pru, .alt]) (by simp) (by simp) ).mpr (.refl _ t)) .pending (by simp)
@[simp] theorem splicePassage_setting (setting : Nat) : (splicePassage t).setting setting = t.setting setting := by
  simp [State.setting]
@[simp] theorem splicePassage_reel (reel : Nat) : (splicePassage t).reel reel = t.reel reel := by
  simp [State.reel]
@[simp] theorem setCtx_reg (c : CtxId) (x : Option Ctx) : (t.setCtx c x).reg = t.reg :=
  ((kept_setCtx (l := [.fcu]) (by simp) c x).mpr (.refl _ t)) .reg (by simp)
@[simp] theorem setCtx_trc (c : CtxId) (x : Option Ctx) : (t.setCtx c x).trc = t.trc :=
  ((kept_setCtx (l := [.fcu]) (by simp) c x).mpr (.refl _ t)) .trc (by simp)
@[simp] theorem setCtx_pru (c : CtxId) (x : Option Ctx) : (t.setCtx c x).pru = t.pru :=
  ((kept_setCtx (l := [.fcu]) (by simp) c x).mpr (.refl _ t)) .pru (by simp)
@[simp] theorem setCtx_dsu (c : CtxId) (x : Option Ctx) : (t.setCtx c x).dsu = t.dsu :=
  ((kept_setCtx (l := [.fcu]) (by simp) c x).mpr (.refl _ t)) .dsu (by simp)
@[simp] theorem setCtx_rpq (c : CtxId) (x : Option Ctx) : (t.setCtx c x).rpq = t.rpq :=
  ((kept_setCtx (l := [.fcu]) (by simp) c x).mpr (.refl _ t)) .rpq (by simp)
@[simp] theorem setCtx_sht (c : CtxId) (x : Option Ctx) : (t.setCtx c x).sht = t.sht :=
  ((kept_setCtx (l := [.fcu]) (by simp) c x).mpr (.refl _ t)) .sht (by simp)
@[simp] theorem setCtx_cab (c : CtxId) (x : Option Ctx) : (t.setCtx c x).cab = t.cab :=
  ((kept_setCtx (l := [.fcu]) (by simp) c x).mpr (.refl _ t)) .cab (by simp)
@[simp] theorem setCtx_spt (c : CtxId) (x : Option Ctx) : (t.setCtx c x).spt = t.spt :=
  ((kept_setCtx (l := [.fcu]) (by simp) c x).mpr (.refl _ t)) .spt (by simp)
@[simp] theorem setCtx_alt (c : CtxId) (x : Option Ctx) : (t.setCtx c x).alt = t.alt :=
  ((kept_setCtx (l := [.fcu]) (by simp) c x).mpr (.refl _ t)) .alt (by simp)
@[simp] theorem setCtx_cfg (c : CtxId) (x : Option Ctx) : (t.setCtx c x).cfg = t.cfg :=
  ((kept_setCtx (l := [.fcu]) (by simp) c x).mpr (.refl _ t)) .cfg (by simp)
@[simp] theorem setCtx_tmb (c : CtxId) (x : Option Ctx) : (t.setCtx c x).tmb = t.tmb :=
  ((kept_setCtx (l := [.fcu]) (by simp) c x).mpr (.refl _ t)) .tmb (by simp)
@[simp] theorem setCtx_out (c : CtxId) (x : Option Ctx) : (t.setCtx c x).out = t.out :=
  ((kept_setCtx (l := [.fcu]) (by simp) c x).mpr (.refl _ t)) .out (by simp)
@[simp] theorem setCtx_pending (c : CtxId) (x : Option Ctx) : (t.setCtx c x).pending = t.pending :=
  ((kept_setCtx (l := [.fcu]) (by simp) c x).mpr (.refl _ t)) .pending (by simp)
@[simp] theorem setCtx_setting (c : CtxId) (x : Option Ctx) (setting : Nat) : (t.setCtx c x).setting setting = t.setting setting := by
  simp [State.setting]
@[simp] theorem setCtx_reel (c : CtxId) (x : Option Ctx) (reel : Nat) : (t.setCtx c x).reel reel = t.reel reel := by
  simp [State.reel]
@[simp] theorem appendRecord_reg (x : FrameRecord) : (appendRecord x t).reg = t.reg :=
  ((kept_appendRecord (l := [.trc, .pru, .fcu, .alt, .out]) (by simp) (by simp) (by simp) (by simp) (by simp) x).mpr (.refl _ t)) .reg (by simp)
@[simp] theorem appendRecord_dsu (x : FrameRecord) : (appendRecord x t).dsu = t.dsu :=
  ((kept_appendRecord (l := [.trc, .pru, .fcu, .alt, .out]) (by simp) (by simp) (by simp) (by simp) (by simp) x).mpr (.refl _ t)) .dsu (by simp)
@[simp] theorem appendRecord_rpq (x : FrameRecord) : (appendRecord x t).rpq = t.rpq :=
  ((kept_appendRecord (l := [.trc, .pru, .fcu, .alt, .out]) (by simp) (by simp) (by simp) (by simp) (by simp) x).mpr (.refl _ t)) .rpq (by simp)
@[simp] theorem appendRecord_sht (x : FrameRecord) : (appendRecord x t).sht = t.sht :=
  ((kept_appendRecord (l := [.trc, .pru, .fcu, .alt, .out]) (by simp) (by simp) (by simp) (by simp) (by simp) x).mpr (.refl _ t)) .sht (by simp)
@[simp] theorem appendRecord_cab (x : FrameRecord) : (appendRecord x t).cab = t.cab :=
  ((kept_appendRecord (l := [.trc, .pru, .fcu, .alt, .out]) (by simp) (by simp) (by simp) (by simp) (by simp) x).mpr (.refl _ t)) .cab (by simp)
@[simp] theorem appendRecord_spt (x : FrameRecord) : (appendRecord x t).spt = t.spt :=
  ((kept_appendRecord (l := [.trc, .pru, .fcu, .alt, .out]) (by simp) (by simp) (by simp) (by simp) (by simp) x).mpr (.refl _ t)) .spt (by simp)
@[simp] theorem appendRecord_cfg (x : FrameRecord) : (appendRecord x t).cfg = t.cfg :=
  ((kept_appendRecord (l := [.trc, .pru, .fcu, .alt, .out]) (by simp) (by simp) (by simp) (by simp) (by simp) x).mpr (.refl _ t)) .cfg (by simp)
@[simp] theorem appendRecord_tmb (x : FrameRecord) : (appendRecord x t).tmb = t.tmb :=
  ((kept_appendRecord (l := [.trc, .pru, .fcu, .alt, .out]) (by simp) (by simp) (by simp) (by simp) (by simp) x).mpr (.refl _ t)) .tmb (by simp)
@[simp] theorem appendRecord_pending (x : FrameRecord) : (appendRecord x t).pending = t.pending :=
  ((kept_appendRecord (l := [.trc, .pru, .fcu, .alt, .out]) (by simp) (by simp) (by simp) (by simp) (by simp) x).mpr (.refl _ t)) .pending (by simp)
@[simp] theorem appendRecord_setting (x : FrameRecord) (setting : Nat) : (appendRecord x t).setting setting = t.setting setting := by
  simp [State.setting]
@[simp] theorem appendRecord_reel (x : FrameRecord) (reel : Nat) : (appendRecord x t).reel reel = t.reel reel := by
  simp [State.reel]
@[simp] theorem surveyDone_trc (c : CtxId) (h : Nat) (b : Bool) : (surveyDone c h b t).trc = t.trc :=
  ((kept_surveyDone (l := [.reg, .dsu]) (by simp) (by simp) c h b).mpr (.refl _ t)) .trc (by simp)
@[simp] theorem surveyDone_pru (c : CtxId) (h : Nat) (b : Bool) : (surveyDone c h b t).pru = t.pru :=
  ((kept_surveyDone (l := [.reg, .dsu]) (by simp) (by simp) c h b).mpr (.refl _ t)) .pru (by simp)
@[simp] theorem surveyDone_fcu (c : CtxId) (h : Nat) (b : Bool) : (surveyDone c h b t).fcu = t.fcu :=
  ((kept_surveyDone (l := [.reg, .dsu]) (by simp) (by simp) c h b).mpr (.refl _ t)) .fcu (by simp)
@[simp] theorem surveyDone_rpq (c : CtxId) (h : Nat) (b : Bool) : (surveyDone c h b t).rpq = t.rpq :=
  ((kept_surveyDone (l := [.reg, .dsu]) (by simp) (by simp) c h b).mpr (.refl _ t)) .rpq (by simp)
@[simp] theorem surveyDone_sht (c : CtxId) (h : Nat) (b : Bool) : (surveyDone c h b t).sht = t.sht :=
  ((kept_surveyDone (l := [.reg, .dsu]) (by simp) (by simp) c h b).mpr (.refl _ t)) .sht (by simp)
@[simp] theorem surveyDone_cab (c : CtxId) (h : Nat) (b : Bool) : (surveyDone c h b t).cab = t.cab :=
  ((kept_surveyDone (l := [.reg, .dsu]) (by simp) (by simp) c h b).mpr (.refl _ t)) .cab (by simp)
@[simp] theorem surveyDone_spt (c : CtxId) (h : Nat) (b : Bool) : (surveyDone c h b t).spt = t.spt :=
  ((kept_surveyDone (l := [.reg, .dsu]) (by simp) (by simp) c h b).mpr (.refl _ t)) .spt (by simp)
@[simp] theorem surveyDone_alt (c : CtxId) (h : Nat) (b : Bool) : (surveyDone c h b t).alt = t.alt :=
  ((kept_surveyDone (l := [.reg, .dsu]) (by simp) (by simp) c h b).mpr (.refl _ t)) .alt (by simp)
@[simp] theorem surveyDone_cfg (c : CtxId) (h : Nat) (b : Bool) : (surveyDone c h b t).cfg = t.cfg :=
  ((kept_surveyDone (l := [.reg, .dsu]) (by simp) (by simp) c h b).mpr (.refl _ t)) .cfg (by simp)
@[simp] theorem surveyDone_tmb (c : CtxId) (h : Nat) (b : Bool) : (surveyDone c h b t).tmb = t.tmb :=
  ((kept_surveyDone (l := [.reg, .dsu]) (by simp) (by simp) c h b).mpr (.refl _ t)) .tmb (by simp)
@[simp] theorem surveyDone_out (c : CtxId) (h : Nat) (b : Bool) : (surveyDone c h b t).out = t.out :=
  ((kept_surveyDone (l := [.reg, .dsu]) (by simp) (by simp) c h b).mpr (.refl _ t)) .out (by simp)
@[simp] theorem surveyDone_pending (c : CtxId) (h : Nat) (b : Bool) : (surveyDone c h b t).pending = t.pending :=
  ((kept_surveyDone (l := [.reg, .dsu]) (by simp) (by simp) c h b).mpr (.refl _ t)) .pending (by simp)
@[simp] theorem surveyDone_setting (c : CtxId) (h : Nat) (b : Bool) (setting : Nat) : (surveyDone c h b t).setting setting = t.setting setting := by
  simp [State.setting]
@[simp] theorem rescanThreaded_trc (x : FrameRange) : (rescanThreaded x t).trc = t.trc :=
  ((kept_rescanThreaded (l := [.reg, .sht, .alt]) (by simp) (by simp) (by simp) x).mpr (.refl _ t)) .trc (by simp)
@[simp] theorem rescanThreaded_pru (x : FrameRange) : (rescanThreaded x t).pru = t.pru :=
  ((kept_rescanThreaded (l := [.reg, .sht, .alt]) (by simp) (by simp) (by simp) x).mpr (.refl _ t)) .pru (by simp)
@[simp] theorem rescanThreaded_fcu (x : FrameRange) : (rescanThreaded x t).fcu = t.fcu :=
  ((kept_rescanThreaded (l := [.reg, .sht, .alt]) (by simp) (by simp) (by simp) x).mpr (.refl _ t)) .fcu (by simp)
@[simp] theorem rescanThreaded_dsu (x : FrameRange) : (rescanThreaded x t).dsu = t.dsu :=
  ((kept_rescanThreaded (l := [.reg, .sht, .alt]) (by simp) (by simp) (by simp) x).mpr (.refl _ t)) .dsu (by simp)
@[simp] theorem rescanThreaded_rpq (x : FrameRange) : (rescanThreaded x t).rpq = t.rpq :=
  ((kept_rescanThreaded (l := [.reg, .sht, .alt]) (by simp) (by simp) (by simp) x).mpr (.refl _ t)) .rpq (by simp)
@[simp] theorem rescanThreaded_cab (x : FrameRange) : (rescanThreaded x t).cab = t.cab :=
  ((kept_rescanThreaded (l := [.reg, .sht, .alt]) (by simp) (by simp) (by simp) x).mpr (.refl _ t)) .cab (by simp)
@[simp] theorem rescanThreaded_spt (x : FrameRange) : (rescanThreaded x t).spt = t.spt :=
  ((kept_rescanThreaded (l := [.reg, .sht, .alt]) (by simp) (by simp) (by simp) x).mpr (.refl _ t)) .spt (by simp)
@[simp] theorem rescanThreaded_cfg (x : FrameRange) : (rescanThreaded x t).cfg = t.cfg :=
  ((kept_rescanThreaded (l := [.reg, .sht, .alt]) (by simp) (by simp) (by simp) x).mpr (.refl _ t)) .cfg (by simp)
@[simp] theorem rescanThreaded_tmb (x : FrameRange) : (rescanThreaded x t).tmb = t.tmb :=
  ((kept_rescanThreaded (l := [.reg, .sht, .alt]) (by simp) (by simp) (by simp) x).mpr (.refl _ t)) .tmb (by simp)
@[simp] theorem rescanThreaded_out (x : FrameRange) : (rescanThreaded x t).out = t.out :=
  ((kept_rescanThreaded (l := [.reg, .sht, .alt]) (by simp) (by simp) (by simp) x).mpr (.refl _ t)) .out (by simp)
@[simp] theorem rescanThreaded_pending (x : FrameRange) : (rescanThreaded x t).pending = t.pending :=
  ((kept_rescanThreaded (l := [.reg, .sht, .alt]) (by simp) (by simp) (by simp) x).mpr (.refl _ t)) .pending (by simp)
@[simp] theorem rescanThreaded_setting (x : FrameRange) (setting : Nat) : (rescanThreaded x t).setting setting = t.setting setting := by
  simp [State.setting]
@[simp] theorem openCtx_reg (c : CtxId) (x : LineReport) : (openCtx c x t).reg = t.reg :=
  ((kept_openCtx (l := [.fcu, .dsu, .sht, .out]) (by simp) (by simp) (by simp) (by simp) c x).mpr (.refl _ t)) .reg (by simp)
@[simp] theorem openCtx_trc (c : CtxId) (x : LineReport) : (openCtx c x t).trc = t.trc :=
  ((kept_openCtx (l := [.fcu, .dsu, .sht, .out]) (by simp) (by simp) (by simp) (by simp) c x).mpr (.refl _ t)) .trc (by simp)
@[simp] theorem openCtx_pru (c : CtxId) (x : LineReport) : (openCtx c x t).pru = t.pru :=
  ((kept_openCtx (l := [.fcu, .dsu, .sht, .out]) (by simp) (by simp) (by simp) (by simp) c x).mpr (.refl _ t)) .pru (by simp)
@[simp] theorem openCtx_rpq (c : CtxId) (x : LineReport) : (openCtx c x t).rpq = t.rpq :=
  ((kept_openCtx (l := [.fcu, .dsu, .sht, .out]) (by simp) (by simp) (by simp) (by simp) c x).mpr (.refl _ t)) .rpq (by simp)
@[simp] theorem openCtx_cab (c : CtxId) (x : LineReport) : (openCtx c x t).cab = t.cab :=
  ((kept_openCtx (l := [.fcu, .dsu, .sht, .out]) (by simp) (by simp) (by simp) (by simp) c x).mpr (.refl _ t)) .cab (by simp)
@[simp] theorem openCtx_spt (c : CtxId) (x : LineReport) : (openCtx c x t).spt = t.spt :=
  ((kept_openCtx (l := [.fcu, .dsu, .sht, .out]) (by simp) (by simp) (by simp) (by simp) c x).mpr (.refl _ t)) .spt (by simp)
@[simp] theorem openCtx_alt (c : CtxId) (x : LineReport) : (openCtx c x t).alt = t.alt :=
  ((kept_openCtx (l := [.fcu, .dsu, .sht, .out]) (by simp) (by simp) (by simp) (by simp) c x).mpr (.refl _ t)) .alt (by simp)
@[simp] theorem openCtx_cfg (c : CtxId) (x : LineReport) : (openCtx c x t).cfg = t.cfg :=
  ((kept_openCtx (l := [.fcu, .dsu, .sht, .out]) (by simp) (by simp) (by simp) (by simp) c x).mpr (.refl _ t)) .cfg (by simp)
@[simp] theorem openCtx_tmb (c : CtxId) (x : LineReport) : (openCtx c x t).tmb = t.tmb :=
  ((kept_openCtx (l := [.fcu, .dsu, .sht, .out]) (by simp) (by simp) (by simp) (by simp) c x).mpr (.refl _ t)) .tmb (by simp)
@[simp] theorem openCtx_pending (c : CtxId) (x : LineReport) : (openCtx c x t).pending = t.pending :=
  ((kept_openCtx (l := [.fcu, .dsu, .sht, .out]) (by simp) (by simp) (by simp) (by simp) c x).mpr (.refl _ t)) .pending (by simp)
@[simp] theorem openCtx_setting (c : CtxId) (x : LineReport) (setting : Nat) : (openCtx c x t).setting setting = t.setting setting := by
  simp [State.setting]
@[simp] theorem openCtx_reel (c : CtxId) (x : LineReport) (reel : Nat) : (openCtx c x t).reel reel = t.reel reel := by
  simp [State.reel]
@[simp] theorem skipLine_trc (k : Nat) : (skipLine k t).trc = t.trc :=
  ((kept_skipLine (l := [.reg, .sht, .alt, .fcu, .rpq]) (by simp) (by simp) (by simp) (by simp) (by simp) k).mpr (.refl _ t)) .trc (by simp)
@[simp] theorem skipLine_pru (k : Nat) : (skipLine k t).pru = t.pru :=
  ((kept_skipLine (l := [.reg, .sht, .alt, .fcu, .rpq]) (by simp) (by simp) (by simp) (by simp) (by simp) k).mpr (.refl _ t)) .pru (by simp)
@[simp] theorem skipLine_dsu (k : Nat) : (skipLine k t).dsu = t.dsu :=
  ((kept_skipLine (l := [.reg, .sht, .alt, .fcu, .rpq]) (by simp) (by simp) (by simp) (by simp) (by simp) k).mpr (.refl _ t)) .dsu (by simp)
@[simp] theorem skipLine_cab (k : Nat) : (skipLine k t).cab = t.cab :=
  ((kept_skipLine (l := [.reg, .sht, .alt, .fcu, .rpq]) (by simp) (by simp) (by simp) (by simp) (by simp) k).mpr (.refl _ t)) .cab (by simp)
@[simp] theorem skipLine_spt (k : Nat) : (skipLine k t).spt = t.spt :=
  ((kept_skipLine (l := [.reg, .sht, .alt, .fcu, .rpq]) (by simp) (by simp) (by simp) (by simp) (by simp) k).mpr (.refl _ t)) .spt (by simp)
@[simp] theorem skipLine_cfg (k : Nat) : (skipLine k t).cfg = t.cfg :=
  ((kept_skipLine (l := [.reg, .sht, .alt, .fcu, .rpq]) (by simp) (by simp) (by simp) (by simp) (by simp) k).mpr (.refl _ t)) .cfg (by simp)
@[simp] theorem skipLine_tmb (k : Nat) : (skipLine k t).tmb = t.tmb :=
  ((kept_skipLine (l := [.reg, .sht, .alt, .fcu, .rpq]) (by simp) (by simp) (by simp) (by simp) (by simp) k).mpr (.refl _ t)) .tmb (by simp)
@[simp] theorem skipLine_out (k : Nat) : (skipLine k t).out = t.out :=
  ((kept_skipLine (l := [.reg, .sht, .alt, .fcu, .rpq]) (by simp) (by simp) (by simp) (by simp) (by simp) k).mpr (.refl _ t)) .out (by simp)
@[simp] theorem skipLine_pending (k : Nat) : (skipLine k t).pending = t.pending :=
  ((kept_skipLine (l := [.reg, .sht, .alt, .fcu, .rpq]) (by simp) (by simp) (by simp) (by simp) (by simp) k).mpr (.refl _ t)) .pending (by simp)
@[simp] theorem skipLine_setting (k : Nat) (setting : Nat) : (skipLine k t).setting setting = t.setting setting := by
  simp [State.setting]
@[simp] theorem seekingGap_trc (x : LineReport) : (seekingGap x t).trc = t.trc :=
  ((kept_seekingGap (l := [.reg, .sht, .alt]) (by simp) (by simp) (by simp) x).mpr (.refl _ t)) .trc (by simp)
@[simp] theorem seekingGap_pru (x : LineReport) : (seekingGap x t).pru = t.pru :=
  ((kept_seekingGap (l := [.reg, .sht, .alt]) (by simp) (by simp) (by simp) x).mpr (.refl _ t)) .pru (by simp)
@[simp] theorem seekingGap_fcu (x : LineReport) : (seekingGap x t).fcu = t.fcu :=
  ((kept_seekingGap (l := [.reg, .sht, .alt]) (by simp) (by simp) (by simp) x).mpr (.refl _ t)) .fcu (by simp)
@[simp] theorem seekingGap_dsu (x : LineReport) : (seekingGap x t).dsu = t.dsu :=
  ((kept_seekingGap (l := [.reg, .sht, .alt]) (by simp) (by simp) (by simp) x).mpr (.refl _ t)) .dsu (by simp)
@[simp] theorem seekingGap_rpq (x : LineReport) : (seekingGap x t).rpq = t.rpq :=
  ((kept_seekingGap (l := [.reg, .sht, .alt]) (by simp) (by simp) (by simp) x).mpr (.refl _ t)) .rpq (by simp)
@[simp] theorem seekingGap_cab (x : LineReport) : (seekingGap x t).cab = t.cab :=
  ((kept_seekingGap (l := [.reg, .sht, .alt]) (by simp) (by simp) (by simp) x).mpr (.refl _ t)) .cab (by simp)
@[simp] theorem seekingGap_spt (x : LineReport) : (seekingGap x t).spt = t.spt :=
  ((kept_seekingGap (l := [.reg, .sht, .alt]) (by simp) (by simp) (by simp) x).mpr (.refl _ t)) .spt (by simp)
@[simp] theorem seekingGap_cfg (x : LineReport) : (seekingGap x t).cfg = t.cfg :=
  ((kept_seekingGap (l := [.reg, .sht, .alt]) (by simp) (by simp) (by simp) x).mpr (.refl _ t)) .cfg (by simp)
@[simp] theorem seekingGap_tmb (x : LineReport) : (seekingGap x t).tmb = t.tmb :=
  ((kept_seekingGap (l := [.reg, .sht, .alt]) (by simp) (by simp) (by simp) x).mpr (.refl _ t)) .tmb (by simp)
@[simp] theorem seekingGap_out (x : LineReport) : (seekingGap x t).out = t.out :=
  ((kept_seekingGap (l := [.reg, .sht, .alt]) (by simp) (by simp) (by simp) x).mpr (.refl _ t)) .out (by simp)
@[simp] theorem seekingGap_pending (x : LineReport) : (seekingGap x t).pending = t.pending :=
  ((kept_seekingGap (l := [.reg, .sht, .alt]) (by simp) (by simp) (by simp) x).mpr (.refl _ t)) .pending (by simp)
@[simp] theorem seekingGap_setting (x : LineReport) (setting : Nat) : (seekingGap x t).setting setting = t.setting setting := by
  simp [State.setting]
@[simp] theorem abandonCtx_trc (c : CtxId) : (abandonCtx c t).trc = t.trc :=
  ((kept_abandonCtx (l := [.reg, .sht, .alt, .fcu, .rpq]) (by simp) (by simp) (by simp) (by simp) (by simp) c).mpr (.refl _ t)) .trc (by simp)
@[simp] theorem abandonCtx_pru (c : CtxId) : (abandonCtx c t).pru = t.pru :=
  ((kept_abandonCtx (l := [.reg, .sht, .alt, .fcu, .rpq]) (by simp) (by simp) (by simp) (by simp) (by simp) c).mpr (.refl _ t)) .pru (by simp)
@[simp] theorem abandonCtx_dsu (c : CtxId) : (abandonCtx c t).dsu = t.dsu :=
  ((kept_abandonCtx (l := [.reg, .sht, .alt, .fcu, .rpq]) (by simp) (by simp) (by simp) (by simp) (by simp) c).mpr (.refl _ t)) .dsu (by simp)
@[simp] theorem abandonCtx_cab (c : CtxId) : (abandonCtx c t).cab = t.cab :=
  ((kept_abandonCtx (l := [.reg, .sht, .alt, .fcu, .rpq]) (by simp) (by simp) (by simp) (by simp) (by simp) c).mpr (.refl _ t)) .cab (by simp)
@[simp] theorem abandonCtx_spt (c : CtxId) : (abandonCtx c t).spt = t.spt :=
  ((kept_abandonCtx (l := [.reg, .sht, .alt, .fcu, .rpq]) (by simp) (by simp) (by simp) (by simp) (by simp) c).mpr (.refl _ t)) .spt (by simp)
@[simp] theorem abandonCtx_cfg (c : CtxId) : (abandonCtx c t).cfg = t.cfg :=
  ((kept_abandonCtx (l := [.reg, .sht, .alt, .fcu, .rpq]) (by simp) (by simp) (by simp) (by simp) (by simp) c).mpr (.refl _ t)) .cfg (by simp)
@[simp] theorem abandonCtx_tmb (c : CtxId) : (abandonCtx c t).tmb = t.tmb :=
  ((kept_abandonCtx (l := [.reg, .sht, .alt, .fcu, .rpq]) (by simp) (by simp) (by simp) (by simp) (by simp) c).mpr (.refl _ t)) .tmb (by simp)
@[simp] theorem abandonCtx_out (c : CtxId) : (abandonCtx c t).out = t.out :=
  ((kept_abandonCtx (l := [.reg, .sht, .alt, .fcu, .rpq]) (by simp) (by simp) (by simp) (by simp) (by simp) c).mpr (.refl _ t)) .out (by simp)
@[simp] theorem abandonCtx_pending (c : CtxId) : (abandonCtx c t).pending = t.pending :=
  ((kept_abandonCtx (l := [.reg, .sht, .alt, .fcu, .rpq]) (by simp) (by simp) (by simp) (by simp) (by simp) c).mpr (.refl _ t)) .pending (by simp)
@[simp] theorem abandonCtx_setting (c : CtxId) (setting : Nat) : (abandonCtx c t).setting setting = t.setting setting := by
  simp [State.setting]
@[simp] theorem enterFault_dsu (c : FaultCause) : (enterFault c t).dsu = t.dsu :=
  ((kept_enterFault (l := [.reg, .trc, .pru, .fcu, .rpq, .sht, .alt, .out]) (by simp) c).mpr (.refl _ t)) .dsu (by simp)
@[simp] theorem enterFault_cab (c : FaultCause) : (enterFault c t).cab = t.cab :=
  ((kept_enterFault (l := [.reg, .trc, .pru, .fcu, .rpq, .sht, .alt, .out]) (by simp) c).mpr (.refl _ t)) .cab (by simp)
@[simp] theorem enterFault_spt (c : FaultCause) : (enterFault c t).spt = t.spt :=
  ((kept_enterFault (l := [.reg, .trc, .pru, .fcu, .rpq, .sht, .alt, .out]) (by simp) c).mpr (.refl _ t)) .spt (by simp)
@[simp] theorem enterFault_cfg (c : FaultCause) : (enterFault c t).cfg = t.cfg :=
  ((kept_enterFault (l := [.reg, .trc, .pru, .fcu, .rpq, .sht, .alt, .out]) (by simp) c).mpr (.refl _ t)) .cfg (by simp)
@[simp] theorem enterFault_tmb (c : FaultCause) : (enterFault c t).tmb = t.tmb :=
  ((kept_enterFault (l := [.reg, .trc, .pru, .fcu, .rpq, .sht, .alt, .out]) (by simp) c).mpr (.refl _ t)) .tmb (by simp)
@[simp] theorem enterFault_pending (c : FaultCause) : (enterFault c t).pending = t.pending :=
  ((kept_enterFault (l := [.reg, .trc, .pru, .fcu, .rpq, .sht, .alt, .out]) (by simp) c).mpr (.refl _ t)) .pending (by simp)
@[simp] theorem enterFault_setting (c : FaultCause) (setting : Nat) : (enterFault c t).setting setting = t.setting setting := by
  simp [State.setting]
@[simp] theorem afterReport_reg (k : Nat) : (afterReport k t).reg = t.reg :=
  ((kept_afterReport (l := [.pru]) (by simp) k).mpr (.refl _ t)) .reg (by simp)
@[simp] theorem afterReport_trc (k : Nat) : (afterReport k t).trc = t.trc :=
  ((kept_afterReport (l := [.pru]) (by simp) k).mpr (.refl _ t)) .trc (by simp)
@[simp] theorem afterReport_fcu (k : Nat) : (afterReport k t).fcu = t.fcu :=
  ((kept_afterReport (l := [.pru]) (by simp) k).mpr (.refl _ t)) .fcu (by simp)
@[simp] theorem afterReport_dsu (k : Nat) : (afterReport k t).dsu = t.dsu :=
  ((kept_afterReport (l := [.pru]) (by simp) k).mpr (.refl _ t)) .dsu (by simp)
@[simp] theorem afterReport_rpq (k : Nat) : (afterReport k t).rpq = t.rpq :=
  ((kept_afterReport (l := [.pru]) (by simp) k).mpr (.refl _ t)) .rpq (by simp)
@[simp] theorem afterReport_sht (k : Nat) : (afterReport k t).sht = t.sht :=
  ((kept_afterReport (l := [.pru]) (by simp) k).mpr (.refl _ t)) .sht (by simp)
@[simp] theorem afterReport_cab (k : Nat) : (afterReport k t).cab = t.cab :=
  ((kept_afterReport (l := [.pru]) (by simp) k).mpr (.refl _ t)) .cab (by simp)
@[simp] theorem afterReport_spt (k : Nat) : (afterReport k t).spt = t.spt :=
  ((kept_afterReport (l := [.pru]) (by simp) k).mpr (.refl _ t)) .spt (by simp)
@[simp] theorem afterReport_alt (k : Nat) : (afterReport k t).alt = t.alt :=
  ((kept_afterReport (l := [.pru]) (by simp) k).mpr (.refl _ t)) .alt (by simp)
@[simp] theorem afterReport_cfg (k : Nat) : (afterReport k t).cfg = t.cfg :=
  ((kept_afterReport (l := [.pru]) (by simp) k).mpr (.refl _ t)) .cfg (by simp)
@[simp] theorem afterReport_tmb (k : Nat) : (afterReport k t).tmb = t.tmb :=
  ((kept_afterReport (l := [.pru]) (by simp) k).mpr (.refl _ t)) .tmb (by simp)
@[simp] theorem afterReport_out (k : Nat) : (afterReport k t).out = t.out :=
  ((kept_afterReport (l := [.pru]) (by simp) k).mpr (.refl _ t)) .out (by simp)
@[simp] theorem afterReport_pending (k : Nat) : (afterReport k t).pending = t.pending :=
  ((kept_afterReport (l := [.pru]) (by simp) k).mpr (.refl _ t)) .pending (by simp)
@[simp] theorem afterReport_setting (k : Nat) (setting : Nat) : (afterReport k t).setting setting = t.setting setting := by
  simp [State.setting]
@[simp] theorem afterReport_reel (k : Nat) (reel : Nat) : (afterReport k t).reel reel = t.reel reel := by
  simp [State.reel]
@[simp] theorem strayEdge_reg : (strayEdge t).reg = t.reg :=
  ((kept_strayEdge (l := [.pru]) (by simp) ).mpr (.refl _ t)) .reg (by simp)
@[simp] theorem strayEdge_trc : (strayEdge t).trc = t.trc :=
  ((kept_strayEdge (l := [.pru]) (by simp) ).mpr (.refl _ t)) .trc (by simp)
@[simp] theorem strayEdge_fcu : (strayEdge t).fcu = t.fcu :=
  ((kept_strayEdge (l := [.pru]) (by simp) ).mpr (.refl _ t)) .fcu (by simp)
@[simp] theorem strayEdge_dsu : (strayEdge t).dsu = t.dsu :=
  ((kept_strayEdge (l := [.pru]) (by simp) ).mpr (.refl _ t)) .dsu (by simp)
@[simp] theorem strayEdge_rpq : (strayEdge t).rpq = t.rpq :=
  ((kept_strayEdge (l := [.pru]) (by simp) ).mpr (.refl _ t)) .rpq (by simp)
@[simp] theorem strayEdge_sht : (strayEdge t).sht = t.sht :=
  ((kept_strayEdge (l := [.pru]) (by simp) ).mpr (.refl _ t)) .sht (by simp)
@[simp] theorem strayEdge_cab : (strayEdge t).cab = t.cab :=
  ((kept_strayEdge (l := [.pru]) (by simp) ).mpr (.refl _ t)) .cab (by simp)
@[simp] theorem strayEdge_spt : (strayEdge t).spt = t.spt :=
  ((kept_strayEdge (l := [.pru]) (by simp) ).mpr (.refl _ t)) .spt (by simp)
@[simp] theorem strayEdge_alt : (strayEdge t).alt = t.alt :=
  ((kept_strayEdge (l := [.pru]) (by simp) ).mpr (.refl _ t)) .alt (by simp)
@[simp] theorem strayEdge_cfg : (strayEdge t).cfg = t.cfg :=
  ((kept_strayEdge (l := [.pru]) (by simp) ).mpr (.refl _ t)) .cfg (by simp)
@[simp] theorem strayEdge_tmb : (strayEdge t).tmb = t.tmb :=
  ((kept_strayEdge (l := [.pru]) (by simp) ).mpr (.refl _ t)) .tmb (by simp)
@[simp] theorem strayEdge_out : (strayEdge t).out = t.out :=
  ((kept_strayEdge (l := [.pru]) (by simp) ).mpr (.refl _ t)) .out (by simp)
@[simp] theorem strayEdge_pending : (strayEdge t).pending = t.pending :=
  ((kept_strayEdge (l := [.pru]) (by simp) ).mpr (.refl _ t)) .pending (by simp)
@[simp] theorem strayEdge_setting (setting : Nat) : (strayEdge t).setting setting = t.setting setting := by
  simp [State.setting]
@[simp] theorem strayEdge_reel (reel : Nat) : (strayEdge t).reel reel = t.reel reel := by
  simp [State.reel]
@[simp] theorem onePassage_trc : (onePassage t).trc = t.trc :=
  ((kept_onePassage (l := [.reg, .pru, .alt]) (by simp) (by simp) (by simp) ).mpr (.refl _ t)) .trc (by simp)
@[simp] theorem onePassage_fcu : (onePassage t).fcu = t.fcu :=
  ((kept_onePassage (l := [.reg, .pru, .alt]) (by simp) (by simp) (by simp) ).mpr (.refl _ t)) .fcu (by simp)
@[simp] theorem onePassage_dsu : (onePassage t).dsu = t.dsu :=
  ((kept_onePassage (l := [.reg, .pru, .alt]) (by simp) (by simp) (by simp) ).mpr (.refl _ t)) .dsu (by simp)
@[simp] theorem onePassage_rpq : (onePassage t).rpq = t.rpq :=
  ((kept_onePassage (l := [.reg, .pru, .alt]) (by simp) (by simp) (by simp) ).mpr (.refl _ t)) .rpq (by simp)
@[simp] theorem onePassage_sht : (onePassage t).sht = t.sht :=
  ((kept_onePassage (l := [.reg, .pru, .alt]) (by simp) (by simp) (by simp) ).mpr (.refl _ t)) .sht (by simp)
@[simp] theorem onePassage_cab : (onePassage t).cab = t.cab :=
  ((kept_onePassage (l := [.reg, .pru, .alt]) (by simp) (by simp) (by simp) ).mpr (.refl _ t)) .cab (by simp)
@[simp] theorem onePassage_spt : (onePassage t).spt = t.spt :=
  ((kept_onePassage (l := [.reg, .pru, .alt]) (by simp) (by simp) (by simp) ).mpr (.refl _ t)) .spt (by simp)
@[simp] theorem onePassage_cfg : (onePassage t).cfg = t.cfg :=
  ((kept_onePassage (l := [.reg, .pru, .alt]) (by simp) (by simp) (by simp) ).mpr (.refl _ t)) .cfg (by simp)
@[simp] theorem onePassage_tmb : (onePassage t).tmb = t.tmb :=
  ((kept_onePassage (l := [.reg, .pru, .alt]) (by simp) (by simp) (by simp) ).mpr (.refl _ t)) .tmb (by simp)
@[simp] theorem onePassage_out : (onePassage t).out = t.out :=
  ((kept_onePassage (l := [.reg, .pru, .alt]) (by simp) (by simp) (by simp) ).mpr (.refl _ t)) .out (by simp)
@[simp] theorem onePassage_pending : (onePassage t).pending = t.pending :=
  ((kept_onePassage (l := [.reg, .pru, .alt]) (by simp) (by simp) (by simp) ).mpr (.refl _ t)) .pending (by simp)
@[simp] theorem onePassage_setting (setting : Nat) : (onePassage t).setting setting = t.setting setting := by
  simp [State.setting]
@[simp] theorem takePassages_fcu : (takePassages t).fcu = t.fcu :=
  ((kept_takePassages (l := [.trc, .reg, .pru, .alt, .out]) (by simp) (by simp) (by simp) (by simp) (by simp) ).mpr (.refl _ t)) .fcu (by simp)
@[simp] theorem takePassages_dsu : (takePassages t).dsu = t.dsu :=
  ((kept_takePassages (l := [.trc, .reg, .pru, .alt, .out]) (by simp) (by simp) (by simp) (by simp) (by simp) ).mpr (.refl _ t)) .dsu (by simp)
@[simp] theorem takePassages_rpq : (takePassages t).rpq = t.rpq :=
  ((kept_takePassages (l := [.trc, .reg, .pru, .alt, .out]) (by simp) (by simp) (by simp) (by simp) (by simp) ).mpr (.refl _ t)) .rpq (by simp)
@[simp] theorem takePassages_sht : (takePassages t).sht = t.sht :=
  ((kept_takePassages (l := [.trc, .reg, .pru, .alt, .out]) (by simp) (by simp) (by simp) (by simp) (by simp) ).mpr (.refl _ t)) .sht (by simp)
@[simp] theorem takePassages_cab : (takePassages t).cab = t.cab :=
  ((kept_takePassages (l := [.trc, .reg, .pru, .alt, .out]) (by simp) (by simp) (by simp) (by simp) (by simp) ).mpr (.refl _ t)) .cab (by simp)
@[simp] theorem takePassages_spt : (takePassages t).spt = t.spt :=
  ((kept_takePassages (l := [.trc, .reg, .pru, .alt, .out]) (by simp) (by simp) (by simp) (by simp) (by simp) ).mpr (.refl _ t)) .spt (by simp)
@[simp] theorem takePassages_cfg : (takePassages t).cfg = t.cfg :=
  ((kept_takePassages (l := [.trc, .reg, .pru, .alt, .out]) (by simp) (by simp) (by simp) (by simp) (by simp) ).mpr (.refl _ t)) .cfg (by simp)
@[simp] theorem takePassages_tmb : (takePassages t).tmb = t.tmb :=
  ((kept_takePassages (l := [.trc, .reg, .pru, .alt, .out]) (by simp) (by simp) (by simp) (by simp) (by simp) ).mpr (.refl _ t)) .tmb (by simp)
@[simp] theorem takePassages_pending : (takePassages t).pending = t.pending :=
  ((kept_takePassages (l := [.trc, .reg, .pru, .alt, .out]) (by simp) (by simp) (by simp) (by simp) (by simp) ).mpr (.refl _ t)) .pending (by simp)
@[simp] theorem takePassages_setting (setting : Nat) : (takePassages t).setting setting = t.setting setting := by
  simp [State.setting]
@[simp] theorem resumeScanning_reg : (resumeScanning t).reg = t.reg :=
  ((kept_resumeScanning (l := [.trc, .pru, .out]) (by simp) (by simp) (by simp) ).mpr (.refl _ t)) .reg (by simp)
@[simp] theorem resumeScanning_fcu : (resumeScanning t).fcu = t.fcu :=
  ((kept_resumeScanning (l := [.trc, .pru, .out]) (by simp) (by simp) (by simp) ).mpr (.refl _ t)) .fcu (by simp)
@[simp] theorem resumeScanning_dsu : (resumeScanning t).dsu = t.dsu :=
  ((kept_resumeScanning (l := [.trc, .pru, .out]) (by simp) (by simp) (by simp) ).mpr (.refl _ t)) .dsu (by simp)
@[simp] theorem resumeScanning_rpq : (resumeScanning t).rpq = t.rpq :=
  ((kept_resumeScanning (l := [.trc, .pru, .out]) (by simp) (by simp) (by simp) ).mpr (.refl _ t)) .rpq (by simp)
@[simp] theorem resumeScanning_sht : (resumeScanning t).sht = t.sht :=
  ((kept_resumeScanning (l := [.trc, .pru, .out]) (by simp) (by simp) (by simp) ).mpr (.refl _ t)) .sht (by simp)
@[simp] theorem resumeScanning_cab : (resumeScanning t).cab = t.cab :=
  ((kept_resumeScanning (l := [.trc, .pru, .out]) (by simp) (by simp) (by simp) ).mpr (.refl _ t)) .cab (by simp)
@[simp] theorem resumeScanning_spt : (resumeScanning t).spt = t.spt :=
  ((kept_resumeScanning (l := [.trc, .pru, .out]) (by simp) (by simp) (by simp) ).mpr (.refl _ t)) .spt (by simp)
@[simp] theorem resumeScanning_alt : (resumeScanning t).alt = t.alt :=
  ((kept_resumeScanning (l := [.trc, .pru, .out]) (by simp) (by simp) (by simp) ).mpr (.refl _ t)) .alt (by simp)
@[simp] theorem resumeScanning_cfg : (resumeScanning t).cfg = t.cfg :=
  ((kept_resumeScanning (l := [.trc, .pru, .out]) (by simp) (by simp) (by simp) ).mpr (.refl _ t)) .cfg (by simp)
@[simp] theorem resumeScanning_tmb : (resumeScanning t).tmb = t.tmb :=
  ((kept_resumeScanning (l := [.trc, .pru, .out]) (by simp) (by simp) (by simp) ).mpr (.refl _ t)) .tmb (by simp)
@[simp] theorem resumeScanning_pending : (resumeScanning t).pending = t.pending :=
  ((kept_resumeScanning (l := [.trc, .pru, .out]) (by simp) (by simp) (by simp) ).mpr (.refl _ t)) .pending (by simp)
@[simp] theorem resumeScanning_setting (setting : Nat) : (resumeScanning t).setting setting = t.setting setting := by
  simp [State.setting]
@[simp] theorem resumeScanning_reel (reel : Nat) : (resumeScanning t).reel reel = t.reel reel := by
  simp [State.reel]
@[simp] theorem putSetting_reg (i v : Nat) : (t.putSetting i v).reg = t.reg :=
  ((kept_putSetting (l := [.cfg]) (by simp) i v).mpr (.refl _ t)) .reg (by simp)
@[simp] theorem putSetting_trc (i v : Nat) : (t.putSetting i v).trc = t.trc :=
  ((kept_putSetting (l := [.cfg]) (by simp) i v).mpr (.refl _ t)) .trc (by simp)
@[simp] theorem putSetting_pru (i v : Nat) : (t.putSetting i v).pru = t.pru :=
  ((kept_putSetting (l := [.cfg]) (by simp) i v).mpr (.refl _ t)) .pru (by simp)
@[simp] theorem putSetting_fcu (i v : Nat) : (t.putSetting i v).fcu = t.fcu :=
  ((kept_putSetting (l := [.cfg]) (by simp) i v).mpr (.refl _ t)) .fcu (by simp)
@[simp] theorem putSetting_dsu (i v : Nat) : (t.putSetting i v).dsu = t.dsu :=
  ((kept_putSetting (l := [.cfg]) (by simp) i v).mpr (.refl _ t)) .dsu (by simp)
@[simp] theorem putSetting_rpq (i v : Nat) : (t.putSetting i v).rpq = t.rpq :=
  ((kept_putSetting (l := [.cfg]) (by simp) i v).mpr (.refl _ t)) .rpq (by simp)
@[simp] theorem putSetting_sht (i v : Nat) : (t.putSetting i v).sht = t.sht :=
  ((kept_putSetting (l := [.cfg]) (by simp) i v).mpr (.refl _ t)) .sht (by simp)
@[simp] theorem putSetting_cab (i v : Nat) : (t.putSetting i v).cab = t.cab :=
  ((kept_putSetting (l := [.cfg]) (by simp) i v).mpr (.refl _ t)) .cab (by simp)
@[simp] theorem putSetting_spt (i v : Nat) : (t.putSetting i v).spt = t.spt :=
  ((kept_putSetting (l := [.cfg]) (by simp) i v).mpr (.refl _ t)) .spt (by simp)
@[simp] theorem putSetting_alt (i v : Nat) : (t.putSetting i v).alt = t.alt :=
  ((kept_putSetting (l := [.cfg]) (by simp) i v).mpr (.refl _ t)) .alt (by simp)
@[simp] theorem putSetting_tmb (i v : Nat) : (t.putSetting i v).tmb = t.tmb :=
  ((kept_putSetting (l := [.cfg]) (by simp) i v).mpr (.refl _ t)) .tmb (by simp)
@[simp] theorem putSetting_out (i v : Nat) : (t.putSetting i v).out = t.out :=
  ((kept_putSetting (l := [.cfg]) (by simp) i v).mpr (.refl _ t)) .out (by simp)
@[simp] theorem putSetting_pending (i v : Nat) : (t.putSetting i v).pending = t.pending :=
  ((kept_putSetting (l := [.cfg]) (by simp) i v).mpr (.refl _ t)) .pending (by simp)
@[simp] theorem putSetting_reel (i v : Nat) (reel : Nat) : (t.putSetting i v).reel reel = t.reel reel := by
  simp [State.reel]
@[simp] theorem roleChanged_trc (p : Port) (o : Role) : (roleChanged p o t).trc = t.trc :=
  ((kept_roleChanged (l := [.reg, .rpq, .alt]) (by simp) (by simp) (by simp) p o).mpr (.refl _ t)) .trc (by simp)
@[simp] theorem roleChanged_pru (p : Port) (o : Role) : (roleChanged p o t).pru = t.pru :=
  ((kept_roleChanged (l := [.reg, .rpq, .alt]) (by simp) (by simp) (by simp) p o).mpr (.refl _ t)) .pru (by simp)
@[simp] theorem roleChanged_fcu (p : Port) (o : Role) : (roleChanged p o t).fcu = t.fcu :=
  ((kept_roleChanged (l := [.reg, .rpq, .alt]) (by simp) (by simp) (by simp) p o).mpr (.refl _ t)) .fcu (by simp)
@[simp] theorem roleChanged_dsu (p : Port) (o : Role) : (roleChanged p o t).dsu = t.dsu :=
  ((kept_roleChanged (l := [.reg, .rpq, .alt]) (by simp) (by simp) (by simp) p o).mpr (.refl _ t)) .dsu (by simp)
@[simp] theorem roleChanged_sht (p : Port) (o : Role) : (roleChanged p o t).sht = t.sht :=
  ((kept_roleChanged (l := [.reg, .rpq, .alt]) (by simp) (by simp) (by simp) p o).mpr (.refl _ t)) .sht (by simp)
@[simp] theorem roleChanged_cab (p : Port) (o : Role) : (roleChanged p o t).cab = t.cab :=
  ((kept_roleChanged (l := [.reg, .rpq, .alt]) (by simp) (by simp) (by simp) p o).mpr (.refl _ t)) .cab (by simp)
@[simp] theorem roleChanged_spt (p : Port) (o : Role) : (roleChanged p o t).spt = t.spt :=
  ((kept_roleChanged (l := [.reg, .rpq, .alt]) (by simp) (by simp) (by simp) p o).mpr (.refl _ t)) .spt (by simp)
@[simp] theorem roleChanged_cfg (p : Port) (o : Role) : (roleChanged p o t).cfg = t.cfg :=
  ((kept_roleChanged (l := [.reg, .rpq, .alt]) (by simp) (by simp) (by simp) p o).mpr (.refl _ t)) .cfg (by simp)
@[simp] theorem roleChanged_tmb (p : Port) (o : Role) : (roleChanged p o t).tmb = t.tmb :=
  ((kept_roleChanged (l := [.reg, .rpq, .alt]) (by simp) (by simp) (by simp) p o).mpr (.refl _ t)) .tmb (by simp)
@[simp] theorem roleChanged_out (p : Port) (o : Role) : (roleChanged p o t).out = t.out :=
  ((kept_roleChanged (l := [.reg, .rpq, .alt]) (by simp) (by simp) (by simp) p o).mpr (.refl _ t)) .out (by simp)
@[simp] theorem roleChanged_pending (p : Port) (o : Role) : (roleChanged p o t).pending = t.pending :=
  ((kept_roleChanged (l := [.reg, .rpq, .alt]) (by simp) (by simp) (by simp) p o).mpr (.refl _ t)) .pending (by simp)
@[simp] theorem roleChanged_setting (p : Port) (o : Role) (setting : Nat) : (roleChanged p o t).setting setting = t.setting setting := by
  simp [State.setting]
@[simp] theorem storeSetting_pru (i v : Nat) : (storeSetting i v t).pru = t.pru :=
  ((kept_storeSetting (l := [.reg, .trc, .rpq, .alt, .cfg, .out]) (by simp) (by simp) (by simp) (by simp) (by simp) (by simp) i v).mpr (.refl _ t)) .pru (by simp)
@[simp] theorem storeSetting_fcu (i v : Nat) : (storeSetting i v t).fcu = t.fcu :=
  ((kept_storeSetting (l := [.reg, .trc, .rpq, .alt, .cfg, .out]) (by simp) (by simp) (by simp) (by simp) (by simp) (by simp) i v).mpr (.refl _ t)) .fcu (by simp)
@[simp] theorem storeSetting_dsu (i v : Nat) : (storeSetting i v t).dsu = t.dsu :=
  ((kept_storeSetting (l := [.reg, .trc, .rpq, .alt, .cfg, .out]) (by simp) (by simp) (by simp) (by simp) (by simp) (by simp) i v).mpr (.refl _ t)) .dsu (by simp)
@[simp] theorem storeSetting_sht (i v : Nat) : (storeSetting i v t).sht = t.sht :=
  ((kept_storeSetting (l := [.reg, .trc, .rpq, .alt, .cfg, .out]) (by simp) (by simp) (by simp) (by simp) (by simp) (by simp) i v).mpr (.refl _ t)) .sht (by simp)
@[simp] theorem storeSetting_cab (i v : Nat) : (storeSetting i v t).cab = t.cab :=
  ((kept_storeSetting (l := [.reg, .trc, .rpq, .alt, .cfg, .out]) (by simp) (by simp) (by simp) (by simp) (by simp) (by simp) i v).mpr (.refl _ t)) .cab (by simp)
@[simp] theorem storeSetting_spt (i v : Nat) : (storeSetting i v t).spt = t.spt :=
  ((kept_storeSetting (l := [.reg, .trc, .rpq, .alt, .cfg, .out]) (by simp) (by simp) (by simp) (by simp) (by simp) (by simp) i v).mpr (.refl _ t)) .spt (by simp)
@[simp] theorem storeSetting_tmb (i v : Nat) : (storeSetting i v t).tmb = t.tmb :=
  ((kept_storeSetting (l := [.reg, .trc, .rpq, .alt, .cfg, .out]) (by simp) (by simp) (by simp) (by simp) (by simp) (by simp) i v).mpr (.refl _ t)) .tmb (by simp)
@[simp] theorem storeSetting_pending (i v : Nat) : (storeSetting i v t).pending = t.pending :=
  ((kept_storeSetting (l := [.reg, .trc, .rpq, .alt, .cfg, .out]) (by simp) (by simp) (by simp) (by simp) (by simp) (by simp) i v).mpr (.refl _ t)) .pending (by simp)
@[simp] theorem endPreload_reg (b : Bool) : (endPreload b t).reg = t.reg :=
  ((kept_endPreload (l := [.alt, .cfg]) (by simp) (by simp) b).mpr (.refl _ t)) .reg (by simp)
@[simp] theorem endPreload_trc (b : Bool) : (endPreload b t).trc = t.trc :=
  ((kept_endPreload (l := [.alt, .cfg]) (by simp) (by simp) b).mpr (.refl _ t)) .trc (by simp)
@[simp] theorem endPreload_pru (b : Bool) : (endPreload b t).pru = t.pru :=
  ((kept_endPreload (l := [.alt, .cfg]) (by simp) (by simp) b).mpr (.refl _ t)) .pru (by simp)
@[simp] theorem endPreload_fcu (b : Bool) : (endPreload b t).fcu = t.fcu :=
  ((kept_endPreload (l := [.alt, .cfg]) (by simp) (by simp) b).mpr (.refl _ t)) .fcu (by simp)
@[simp] theorem endPreload_dsu (b : Bool) : (endPreload b t).dsu = t.dsu :=
  ((kept_endPreload (l := [.alt, .cfg]) (by simp) (by simp) b).mpr (.refl _ t)) .dsu (by simp)
@[simp] theorem endPreload_rpq (b : Bool) : (endPreload b t).rpq = t.rpq :=
  ((kept_endPreload (l := [.alt, .cfg]) (by simp) (by simp) b).mpr (.refl _ t)) .rpq (by simp)
@[simp] theorem endPreload_sht (b : Bool) : (endPreload b t).sht = t.sht :=
  ((kept_endPreload (l := [.alt, .cfg]) (by simp) (by simp) b).mpr (.refl _ t)) .sht (by simp)
@[simp] theorem endPreload_cab (b : Bool) : (endPreload b t).cab = t.cab :=
  ((kept_endPreload (l := [.alt, .cfg]) (by simp) (by simp) b).mpr (.refl _ t)) .cab (by simp)
@[simp] theorem endPreload_spt (b : Bool) : (endPreload b t).spt = t.spt :=
  ((kept_endPreload (l := [.alt, .cfg]) (by simp) (by simp) b).mpr (.refl _ t)) .spt (by simp)
@[simp] theorem endPreload_tmb (b : Bool) : (endPreload b t).tmb = t.tmb :=
  ((kept_endPreload (l := [.alt, .cfg]) (by simp) (by simp) b).mpr (.refl _ t)) .tmb (by simp)
@[simp] theorem endPreload_out (b : Bool) : (endPreload b t).out = t.out :=
  ((kept_endPreload (l := [.alt, .cfg]) (by simp) (by simp) b).mpr (.refl _ t)) .out (by simp)
@[simp] theorem endPreload_pending (b : Bool) : (endPreload b t).pending = t.pending :=
  ((kept_endPreload (l := [.alt, .cfg]) (by simp) (by simp) b).mpr (.refl _ t)) .pending (by simp)
@[simp] theorem endPreload_reel (b : Bool) (reel : Nat) : (endPreload b t).reel reel = t.reel reel := by
  simp [State.reel]
@[simp] theorem heatActive_reg : (heatActive t).reg = t.reg :=
  ((kept_heatActive (l := [.trc, .pru, .alt, .out]) (by simp) (by simp) (by simp) (by simp) ).mpr (.refl _ t)) .reg (by simp)
@[simp] theorem heatActive_fcu : (heatActive t).fcu = t.fcu :=
  ((kept_heatActive (l := [.trc, .pru, .alt, .out]) (by simp) (by simp) (by simp) (by simp) ).mpr (.refl _ t)) .fcu (by simp)
@[simp] theorem heatActive_dsu : (heatActive t).dsu = t.dsu :=
  ((kept_heatActive (l := [.trc, .pru, .alt, .out]) (by simp) (by simp) (by simp) (by simp) ).mpr (.refl _ t)) .dsu (by simp)
@[simp] theorem heatActive_rpq : (heatActive t).rpq = t.rpq :=
  ((kept_heatActive (l := [.trc, .pru, .alt, .out]) (by simp) (by simp) (by simp) (by simp) ).mpr (.refl _ t)) .rpq (by simp)
@[simp] theorem heatActive_sht : (heatActive t).sht = t.sht :=
  ((kept_heatActive (l := [.trc, .pru, .alt, .out]) (by simp) (by simp) (by simp) (by simp) ).mpr (.refl _ t)) .sht (by simp)
@[simp] theorem heatActive_cab : (heatActive t).cab = t.cab :=
  ((kept_heatActive (l := [.trc, .pru, .alt, .out]) (by simp) (by simp) (by simp) (by simp) ).mpr (.refl _ t)) .cab (by simp)
@[simp] theorem heatActive_spt : (heatActive t).spt = t.spt :=
  ((kept_heatActive (l := [.trc, .pru, .alt, .out]) (by simp) (by simp) (by simp) (by simp) ).mpr (.refl _ t)) .spt (by simp)
@[simp] theorem heatActive_cfg : (heatActive t).cfg = t.cfg :=
  ((kept_heatActive (l := [.trc, .pru, .alt, .out]) (by simp) (by simp) (by simp) (by simp) ).mpr (.refl _ t)) .cfg (by simp)
@[simp] theorem heatActive_tmb : (heatActive t).tmb = t.tmb :=
  ((kept_heatActive (l := [.trc, .pru, .alt, .out]) (by simp) (by simp) (by simp) (by simp) ).mpr (.refl _ t)) .tmb (by simp)
@[simp] theorem heatActive_pending : (heatActive t).pending = t.pending :=
  ((kept_heatActive (l := [.trc, .pru, .alt, .out]) (by simp) (by simp) (by simp) (by simp) ).mpr (.refl _ t)) .pending (by simp)
@[simp] theorem heatActive_setting (setting : Nat) : (heatActive t).setting setting = t.setting setting := by
  simp [State.setting]
@[simp] theorem heatActive_reel (reel : Nat) : (heatActive t).reel reel = t.reel reel := by
  simp [State.reel]
@[simp] theorem heatClear_reg : (heatClear t).reg = t.reg :=
  ((kept_heatClear (l := [.trc, .pru, .out]) (by simp) (by simp) (by simp) ).mpr (.refl _ t)) .reg (by simp)
@[simp] theorem heatClear_fcu : (heatClear t).fcu = t.fcu :=
  ((kept_heatClear (l := [.trc, .pru, .out]) (by simp) (by simp) (by simp) ).mpr (.refl _ t)) .fcu (by simp)
@[simp] theorem heatClear_dsu : (heatClear t).dsu = t.dsu :=
  ((kept_heatClear (l := [.trc, .pru, .out]) (by simp) (by simp) (by simp) ).mpr (.refl _ t)) .dsu (by simp)
@[simp] theorem heatClear_rpq : (heatClear t).rpq = t.rpq :=
  ((kept_heatClear (l := [.trc, .pru, .out]) (by simp) (by simp) (by simp) ).mpr (.refl _ t)) .rpq (by simp)
@[simp] theorem heatClear_sht : (heatClear t).sht = t.sht :=
  ((kept_heatClear (l := [.trc, .pru, .out]) (by simp) (by simp) (by simp) ).mpr (.refl _ t)) .sht (by simp)
@[simp] theorem heatClear_cab : (heatClear t).cab = t.cab :=
  ((kept_heatClear (l := [.trc, .pru, .out]) (by simp) (by simp) (by simp) ).mpr (.refl _ t)) .cab (by simp)
@[simp] theorem heatClear_spt : (heatClear t).spt = t.spt :=
  ((kept_heatClear (l := [.trc, .pru, .out]) (by simp) (by simp) (by simp) ).mpr (.refl _ t)) .spt (by simp)
@[simp] theorem heatClear_alt : (heatClear t).alt = t.alt :=
  ((kept_heatClear (l := [.trc, .pru, .out]) (by simp) (by simp) (by simp) ).mpr (.refl _ t)) .alt (by simp)
@[simp] theorem heatClear_cfg : (heatClear t).cfg = t.cfg :=
  ((kept_heatClear (l := [.trc, .pru, .out]) (by simp) (by simp) (by simp) ).mpr (.refl _ t)) .cfg (by simp)
@[simp] theorem heatClear_tmb : (heatClear t).tmb = t.tmb :=
  ((kept_heatClear (l := [.trc, .pru, .out]) (by simp) (by simp) (by simp) ).mpr (.refl _ t)) .tmb (by simp)
@[simp] theorem heatClear_pending : (heatClear t).pending = t.pending :=
  ((kept_heatClear (l := [.trc, .pru, .out]) (by simp) (by simp) (by simp) ).mpr (.refl _ t)) .pending (by simp)
@[simp] theorem heatClear_setting (setting : Nat) : (heatClear t).setting setting = t.setting setting := by
  simp [State.setting]
@[simp] theorem heatClear_reel (reel : Nat) : (heatClear t).reel reel = t.reel reel := by
  simp [State.reel]
@[simp] theorem setBayTimer_reg (n : Nat) (x : BayTimer) : (t.setBayTimer n x).reg = t.reg :=
  ((kept_setBayTimer (l := [.cab]) (by simp) n x).mpr (.refl _ t)) .reg (by simp)
@[simp] theorem setBayTimer_trc (n : Nat) (x : BayTimer) : (t.setBayTimer n x).trc = t.trc :=
  ((kept_setBayTimer (l := [.cab]) (by simp) n x).mpr (.refl _ t)) .trc (by simp)
@[simp] theorem setBayTimer_pru (n : Nat) (x : BayTimer) : (t.setBayTimer n x).pru = t.pru :=
  ((kept_setBayTimer (l := [.cab]) (by simp) n x).mpr (.refl _ t)) .pru (by simp)
@[simp] theorem setBayTimer_fcu (n : Nat) (x : BayTimer) : (t.setBayTimer n x).fcu = t.fcu :=
  ((kept_setBayTimer (l := [.cab]) (by simp) n x).mpr (.refl _ t)) .fcu (by simp)
@[simp] theorem setBayTimer_dsu (n : Nat) (x : BayTimer) : (t.setBayTimer n x).dsu = t.dsu :=
  ((kept_setBayTimer (l := [.cab]) (by simp) n x).mpr (.refl _ t)) .dsu (by simp)
@[simp] theorem setBayTimer_rpq (n : Nat) (x : BayTimer) : (t.setBayTimer n x).rpq = t.rpq :=
  ((kept_setBayTimer (l := [.cab]) (by simp) n x).mpr (.refl _ t)) .rpq (by simp)
@[simp] theorem setBayTimer_sht (n : Nat) (x : BayTimer) : (t.setBayTimer n x).sht = t.sht :=
  ((kept_setBayTimer (l := [.cab]) (by simp) n x).mpr (.refl _ t)) .sht (by simp)
@[simp] theorem setBayTimer_spt (n : Nat) (x : BayTimer) : (t.setBayTimer n x).spt = t.spt :=
  ((kept_setBayTimer (l := [.cab]) (by simp) n x).mpr (.refl _ t)) .spt (by simp)
@[simp] theorem setBayTimer_alt (n : Nat) (x : BayTimer) : (t.setBayTimer n x).alt = t.alt :=
  ((kept_setBayTimer (l := [.cab]) (by simp) n x).mpr (.refl _ t)) .alt (by simp)
@[simp] theorem setBayTimer_cfg (n : Nat) (x : BayTimer) : (t.setBayTimer n x).cfg = t.cfg :=
  ((kept_setBayTimer (l := [.cab]) (by simp) n x).mpr (.refl _ t)) .cfg (by simp)
@[simp] theorem setBayTimer_tmb (n : Nat) (x : BayTimer) : (t.setBayTimer n x).tmb = t.tmb :=
  ((kept_setBayTimer (l := [.cab]) (by simp) n x).mpr (.refl _ t)) .tmb (by simp)
@[simp] theorem setBayTimer_out (n : Nat) (x : BayTimer) : (t.setBayTimer n x).out = t.out :=
  ((kept_setBayTimer (l := [.cab]) (by simp) n x).mpr (.refl _ t)) .out (by simp)
@[simp] theorem setBayTimer_pending (n : Nat) (x : BayTimer) : (t.setBayTimer n x).pending = t.pending :=
  ((kept_setBayTimer (l := [.cab]) (by simp) n x).mpr (.refl _ t)) .pending (by simp)
@[simp] theorem setBayTimer_setting (n : Nat) (x : BayTimer) (setting : Nat) : (t.setBayTimer n x).setting setting = t.setting setting := by
  simp [State.setting]
@[simp] theorem setBayTimer_reel (n : Nat) (x : BayTimer) (reel : Nat) : (t.setBayTimer n x).reel reel = t.reel reel := by
  simp [State.reel]
@[simp] theorem askNextLeg_reg (n : Nat) (k : MoveKind) : (askNextLeg n k t).reg = t.reg :=
  ((kept_askNextLeg (l := [.cab, .alt]) (by simp) (by simp) n k).mpr (.refl _ t)) .reg (by simp)
@[simp] theorem askNextLeg_trc (n : Nat) (k : MoveKind) : (askNextLeg n k t).trc = t.trc :=
  ((kept_askNextLeg (l := [.cab, .alt]) (by simp) (by simp) n k).mpr (.refl _ t)) .trc (by simp)
@[simp] theorem askNextLeg_pru (n : Nat) (k : MoveKind) : (askNextLeg n k t).pru = t.pru :=
  ((kept_askNextLeg (l := [.cab, .alt]) (by simp) (by simp) n k).mpr (.refl _ t)) .pru (by simp)
@[simp] theorem askNextLeg_fcu (n : Nat) (k : MoveKind) : (askNextLeg n k t).fcu = t.fcu :=
  ((kept_askNextLeg (l := [.cab, .alt]) (by simp) (by simp) n k).mpr (.refl _ t)) .fcu (by simp)
@[simp] theorem askNextLeg_dsu (n : Nat) (k : MoveKind) : (askNextLeg n k t).dsu = t.dsu :=
  ((kept_askNextLeg (l := [.cab, .alt]) (by simp) (by simp) n k).mpr (.refl _ t)) .dsu (by simp)
@[simp] theorem askNextLeg_rpq (n : Nat) (k : MoveKind) : (askNextLeg n k t).rpq = t.rpq :=
  ((kept_askNextLeg (l := [.cab, .alt]) (by simp) (by simp) n k).mpr (.refl _ t)) .rpq (by simp)
@[simp] theorem askNextLeg_sht (n : Nat) (k : MoveKind) : (askNextLeg n k t).sht = t.sht :=
  ((kept_askNextLeg (l := [.cab, .alt]) (by simp) (by simp) n k).mpr (.refl _ t)) .sht (by simp)
@[simp] theorem askNextLeg_spt (n : Nat) (k : MoveKind) : (askNextLeg n k t).spt = t.spt :=
  ((kept_askNextLeg (l := [.cab, .alt]) (by simp) (by simp) n k).mpr (.refl _ t)) .spt (by simp)
@[simp] theorem askNextLeg_cfg (n : Nat) (k : MoveKind) : (askNextLeg n k t).cfg = t.cfg :=
  ((kept_askNextLeg (l := [.cab, .alt]) (by simp) (by simp) n k).mpr (.refl _ t)) .cfg (by simp)
@[simp] theorem askNextLeg_tmb (n : Nat) (k : MoveKind) : (askNextLeg n k t).tmb = t.tmb :=
  ((kept_askNextLeg (l := [.cab, .alt]) (by simp) (by simp) n k).mpr (.refl _ t)) .tmb (by simp)
@[simp] theorem askNextLeg_out (n : Nat) (k : MoveKind) : (askNextLeg n k t).out = t.out :=
  ((kept_askNextLeg (l := [.cab, .alt]) (by simp) (by simp) n k).mpr (.refl _ t)) .out (by simp)
@[simp] theorem askNextLeg_pending (n : Nat) (k : MoveKind) : (askNextLeg n k t).pending = t.pending :=
  ((kept_askNextLeg (l := [.cab, .alt]) (by simp) (by simp) n k).mpr (.refl _ t)) .pending (by simp)
@[simp] theorem askNextLeg_setting (n : Nat) (k : MoveKind) (setting : Nat) : (askNextLeg n k t).setting setting = t.setting setting := by
  simp [State.setting]
@[simp] theorem askNextLeg_reel (n : Nat) (k : MoveKind) (reel : Nat) : (askNextLeg n k t).reel reel = t.reel reel := by
  simp [State.reel]
@[simp] theorem setAlert_reg (p : Port) (x : AlertState) : (t.setAlert p x).reg = t.reg :=
  ((kept_setAlert (l := [.alt]) (by simp) p x).mpr (.refl _ t)) .reg (by simp)
@[simp] theorem setAlert_trc (p : Port) (x : AlertState) : (t.setAlert p x).trc = t.trc :=
  ((kept_setAlert (l := [.alt]) (by simp) p x).mpr (.refl _ t)) .trc (by simp)
@[simp] theorem setAlert_pru (p : Port) (x : AlertState) : (t.setAlert p x).pru = t.pru :=
  ((kept_setAlert (l := [.alt]) (by simp) p x).mpr (.refl _ t)) .pru (by simp)
@[simp] theorem setAlert_fcu (p : Port) (x : AlertState) : (t.setAlert p x).fcu = t.fcu :=
  ((kept_setAlert (l := [.alt]) (by simp) p x).mpr (.refl _ t)) .fcu (by simp)
@[simp] theorem setAlert_dsu (p : Port) (x : AlertState) : (t.setAlert p x).dsu = t.dsu :=
  ((kept_setAlert (l := [.alt]) (by simp) p x).mpr (.refl _ t)) .dsu (by simp)
@[simp] theorem setAlert_rpq (p : Port) (x : AlertState) : (t.setAlert p x).rpq = t.rpq :=
  ((kept_setAlert (l := [.alt]) (by simp) p x).mpr (.refl _ t)) .rpq (by simp)
@[simp] theorem setAlert_sht (p : Port) (x : AlertState) : (t.setAlert p x).sht = t.sht :=
  ((kept_setAlert (l := [.alt]) (by simp) p x).mpr (.refl _ t)) .sht (by simp)
@[simp] theorem setAlert_cab (p : Port) (x : AlertState) : (t.setAlert p x).cab = t.cab :=
  ((kept_setAlert (l := [.alt]) (by simp) p x).mpr (.refl _ t)) .cab (by simp)
@[simp] theorem setAlert_spt (p : Port) (x : AlertState) : (t.setAlert p x).spt = t.spt :=
  ((kept_setAlert (l := [.alt]) (by simp) p x).mpr (.refl _ t)) .spt (by simp)
@[simp] theorem setAlert_cfg (p : Port) (x : AlertState) : (t.setAlert p x).cfg = t.cfg :=
  ((kept_setAlert (l := [.alt]) (by simp) p x).mpr (.refl _ t)) .cfg (by simp)
@[simp] theorem setAlert_tmb (p : Port) (x : AlertState) : (t.setAlert p x).tmb = t.tmb :=
  ((kept_setAlert (l := [.alt]) (by simp) p x).mpr (.refl _ t)) .tmb (by simp)
@[simp] theorem setAlert_out (p : Port) (x : AlertState) : (t.setAlert p x).out = t.out :=
  ((kept_setAlert (l := [.alt]) (by simp) p x).mpr (.refl _ t)) .out (by simp)
@[simp] theorem setAlert_pending (p : Port) (x : AlertState) : (t.setAlert p x).pending = t.pending :=
  ((kept_setAlert (l := [.alt]) (by simp) p x).mpr (.refl _ t)) .pending (by simp)
@[simp] theorem setAlert_setting (p : Port) (x : AlertState) (setting : Nat) : (t.setAlert p x).setting setting = t.setting setting := by
  simp [State.setting]
@[simp] theorem setAlert_reel (p : Port) (x : AlertState) (reel : Nat) : (t.setAlert p x).reel reel = t.reel reel := by
  simp [State.reel]
@[simp] theorem circulate_trc (h : Nat) (c : Circulation) : (t.circulate h c).trc = t.trc :=
  ((kept_circulate (l := [.reg]) (by simp) h c).mpr (.refl _ t)) .trc (by simp)
@[simp] theorem circulate_pru (h : Nat) (c : Circulation) : (t.circulate h c).pru = t.pru :=
  ((kept_circulate (l := [.reg]) (by simp) h c).mpr (.refl _ t)) .pru (by simp)
@[simp] theorem circulate_fcu (h : Nat) (c : Circulation) : (t.circulate h c).fcu = t.fcu :=
  ((kept_circulate (l := [.reg]) (by simp) h c).mpr (.refl _ t)) .fcu (by simp)
@[simp] theorem circulate_dsu (h : Nat) (c : Circulation) : (t.circulate h c).dsu = t.dsu :=
  ((kept_circulate (l := [.reg]) (by simp) h c).mpr (.refl _ t)) .dsu (by simp)
@[simp] theorem circulate_rpq (h : Nat) (c : Circulation) : (t.circulate h c).rpq = t.rpq :=
  ((kept_circulate (l := [.reg]) (by simp) h c).mpr (.refl _ t)) .rpq (by simp)
@[simp] theorem circulate_sht (h : Nat) (c : Circulation) : (t.circulate h c).sht = t.sht :=
  ((kept_circulate (l := [.reg]) (by simp) h c).mpr (.refl _ t)) .sht (by simp)
@[simp] theorem circulate_cab (h : Nat) (c : Circulation) : (t.circulate h c).cab = t.cab :=
  ((kept_circulate (l := [.reg]) (by simp) h c).mpr (.refl _ t)) .cab (by simp)
@[simp] theorem circulate_spt (h : Nat) (c : Circulation) : (t.circulate h c).spt = t.spt :=
  ((kept_circulate (l := [.reg]) (by simp) h c).mpr (.refl _ t)) .spt (by simp)
@[simp] theorem circulate_alt (h : Nat) (c : Circulation) : (t.circulate h c).alt = t.alt :=
  ((kept_circulate (l := [.reg]) (by simp) h c).mpr (.refl _ t)) .alt (by simp)
@[simp] theorem circulate_cfg (h : Nat) (c : Circulation) : (t.circulate h c).cfg = t.cfg :=
  ((kept_circulate (l := [.reg]) (by simp) h c).mpr (.refl _ t)) .cfg (by simp)
@[simp] theorem circulate_tmb (h : Nat) (c : Circulation) : (t.circulate h c).tmb = t.tmb :=
  ((kept_circulate (l := [.reg]) (by simp) h c).mpr (.refl _ t)) .tmb (by simp)
@[simp] theorem circulate_out (h : Nat) (c : Circulation) : (t.circulate h c).out = t.out :=
  ((kept_circulate (l := [.reg]) (by simp) h c).mpr (.refl _ t)) .out (by simp)
@[simp] theorem circulate_pending (h : Nat) (c : Circulation) : (t.circulate h c).pending = t.pending :=
  ((kept_circulate (l := [.reg]) (by simp) h c).mpr (.refl _ t)) .pending (by simp)
@[simp] theorem circulate_setting (h : Nat) (c : Circulation) (setting : Nat) : (t.circulate h c).setting setting = t.setting setting := by
  simp [State.setting]
@[simp] theorem withdrawRelocation_trc (h : Nat) : (withdrawRelocation h t).trc = t.trc :=
  ((kept_withdrawRelocation (l := [.reg, .cab]) (by simp) (by simp) h).mpr (.refl _ t)) .trc (by simp)
@[simp] theorem withdrawRelocation_pru (h : Nat) : (withdrawRelocation h t).pru = t.pru :=
  ((kept_withdrawRelocation (l := [.reg, .cab]) (by simp) (by simp) h).mpr (.refl _ t)) .pru (by simp)
@[simp] theorem withdrawRelocation_fcu (h : Nat) : (withdrawRelocation h t).fcu = t.fcu :=
  ((kept_withdrawRelocation (l := [.reg, .cab]) (by simp) (by simp) h).mpr (.refl _ t)) .fcu (by simp)
@[simp] theorem withdrawRelocation_dsu (h : Nat) : (withdrawRelocation h t).dsu = t.dsu :=
  ((kept_withdrawRelocation (l := [.reg, .cab]) (by simp) (by simp) h).mpr (.refl _ t)) .dsu (by simp)
@[simp] theorem withdrawRelocation_rpq (h : Nat) : (withdrawRelocation h t).rpq = t.rpq :=
  ((kept_withdrawRelocation (l := [.reg, .cab]) (by simp) (by simp) h).mpr (.refl _ t)) .rpq (by simp)
@[simp] theorem withdrawRelocation_sht (h : Nat) : (withdrawRelocation h t).sht = t.sht :=
  ((kept_withdrawRelocation (l := [.reg, .cab]) (by simp) (by simp) h).mpr (.refl _ t)) .sht (by simp)
@[simp] theorem withdrawRelocation_spt (h : Nat) : (withdrawRelocation h t).spt = t.spt :=
  ((kept_withdrawRelocation (l := [.reg, .cab]) (by simp) (by simp) h).mpr (.refl _ t)) .spt (by simp)
@[simp] theorem withdrawRelocation_alt (h : Nat) : (withdrawRelocation h t).alt = t.alt :=
  ((kept_withdrawRelocation (l := [.reg, .cab]) (by simp) (by simp) h).mpr (.refl _ t)) .alt (by simp)
@[simp] theorem withdrawRelocation_cfg (h : Nat) : (withdrawRelocation h t).cfg = t.cfg :=
  ((kept_withdrawRelocation (l := [.reg, .cab]) (by simp) (by simp) h).mpr (.refl _ t)) .cfg (by simp)
@[simp] theorem withdrawRelocation_tmb (h : Nat) : (withdrawRelocation h t).tmb = t.tmb :=
  ((kept_withdrawRelocation (l := [.reg, .cab]) (by simp) (by simp) h).mpr (.refl _ t)) .tmb (by simp)
@[simp] theorem withdrawRelocation_out (h : Nat) : (withdrawRelocation h t).out = t.out :=
  ((kept_withdrawRelocation (l := [.reg, .cab]) (by simp) (by simp) h).mpr (.refl _ t)) .out (by simp)
@[simp] theorem withdrawRelocation_pending (h : Nat) : (withdrawRelocation h t).pending = t.pending :=
  ((kept_withdrawRelocation (l := [.reg, .cab]) (by simp) (by simp) h).mpr (.refl _ t)) .pending (by simp)
@[simp] theorem withdrawRelocation_setting (h : Nat) (setting : Nat) : (withdrawRelocation h t).setting setting = t.setting setting := by
  simp [State.setting]
@[simp] theorem threadPru_reg (r : Reel) : (threadPru r t).reg = t.reg :=
  ((kept_threadPru (l := [.pru, .alt]) (by simp) (by simp) r).mpr (.refl _ t)) .reg (by simp)
@[simp] theorem threadPru_trc (r : Reel) : (threadPru r t).trc = t.trc :=
  ((kept_threadPru (l := [.pru, .alt]) (by simp) (by simp) r).mpr (.refl _ t)) .trc (by simp)
@[simp] theorem threadPru_fcu (r : Reel) : (threadPru r t).fcu = t.fcu :=
  ((kept_threadPru (l := [.pru, .alt]) (by simp) (by simp) r).mpr (.refl _ t)) .fcu (by simp)
@[simp] theorem threadPru_dsu (r : Reel) : (threadPru r t).dsu = t.dsu :=
  ((kept_threadPru (l := [.pru, .alt]) (by simp) (by simp) r).mpr (.refl _ t)) .dsu (by simp)
@[simp] theorem threadPru_rpq (r : Reel) : (threadPru r t).rpq = t.rpq :=
  ((kept_threadPru (l := [.pru, .alt]) (by simp) (by simp) r).mpr (.refl _ t)) .rpq (by simp)
@[simp] theorem threadPru_sht (r : Reel) : (threadPru r t).sht = t.sht :=
  ((kept_threadPru (l := [.pru, .alt]) (by simp) (by simp) r).mpr (.refl _ t)) .sht (by simp)
@[simp] theorem threadPru_cab (r : Reel) : (threadPru r t).cab = t.cab :=
  ((kept_threadPru (l := [.pru, .alt]) (by simp) (by simp) r).mpr (.refl _ t)) .cab (by simp)
@[simp] theorem threadPru_spt (r : Reel) : (threadPru r t).spt = t.spt :=
  ((kept_threadPru (l := [.pru, .alt]) (by simp) (by simp) r).mpr (.refl _ t)) .spt (by simp)
@[simp] theorem threadPru_cfg (r : Reel) : (threadPru r t).cfg = t.cfg :=
  ((kept_threadPru (l := [.pru, .alt]) (by simp) (by simp) r).mpr (.refl _ t)) .cfg (by simp)
@[simp] theorem threadPru_tmb (r : Reel) : (threadPru r t).tmb = t.tmb :=
  ((kept_threadPru (l := [.pru, .alt]) (by simp) (by simp) r).mpr (.refl _ t)) .tmb (by simp)
@[simp] theorem threadPru_out (r : Reel) : (threadPru r t).out = t.out :=
  ((kept_threadPru (l := [.pru, .alt]) (by simp) (by simp) r).mpr (.refl _ t)) .out (by simp)
@[simp] theorem threadPru_pending (r : Reel) : (threadPru r t).pending = t.pending :=
  ((kept_threadPru (l := [.pru, .alt]) (by simp) (by simp) r).mpr (.refl _ t)) .pending (by simp)
@[simp] theorem threadPru_setting (r : Reel) (setting : Nat) : (threadPru r t).setting setting = t.setting setting := by
  simp [State.setting]
@[simp] theorem threadPru_reel (r : Reel) (reel : Nat) : (threadPru r t).reel reel = t.reel reel := by
  simp [State.reel]
@[simp] theorem reelToTransport_trc (h : Nat) (r : Reel) : (reelToTransport h r t).trc = t.trc :=
  ((kept_reelToTransport (l := [.reg, .cab]) (by simp) (by simp) h r).mpr (.refl _ t)) .trc (by simp)
@[simp] theorem reelToTransport_pru (h : Nat) (r : Reel) : (reelToTransport h r t).pru = t.pru :=
  ((kept_reelToTransport (l := [.reg, .cab]) (by simp) (by simp) h r).mpr (.refl _ t)) .pru (by simp)
@[simp] theorem reelToTransport_fcu (h : Nat) (r : Reel) : (reelToTransport h r t).fcu = t.fcu :=
  ((kept_reelToTransport (l := [.reg, .cab]) (by simp) (by simp) h r).mpr (.refl _ t)) .fcu (by simp)
@[simp] theorem reelToTransport_dsu (h : Nat) (r : Reel) : (reelToTransport h r t).dsu = t.dsu :=
  ((kept_reelToTransport (l := [.reg, .cab]) (by simp) (by simp) h r).mpr (.refl _ t)) .dsu (by simp)
@[simp] theorem reelToTransport_rpq (h : Nat) (r : Reel) : (reelToTransport h r t).rpq = t.rpq :=
  ((kept_reelToTransport (l := [.reg, .cab]) (by simp) (by simp) h r).mpr (.refl _ t)) .rpq (by simp)
@[simp] theorem reelToTransport_sht (h : Nat) (r : Reel) : (reelToTransport h r t).sht = t.sht :=
  ((kept_reelToTransport (l := [.reg, .cab]) (by simp) (by simp) h r).mpr (.refl _ t)) .sht (by simp)
@[simp] theorem reelToTransport_spt (h : Nat) (r : Reel) : (reelToTransport h r t).spt = t.spt :=
  ((kept_reelToTransport (l := [.reg, .cab]) (by simp) (by simp) h r).mpr (.refl _ t)) .spt (by simp)
@[simp] theorem reelToTransport_alt (h : Nat) (r : Reel) : (reelToTransport h r t).alt = t.alt :=
  ((kept_reelToTransport (l := [.reg, .cab]) (by simp) (by simp) h r).mpr (.refl _ t)) .alt (by simp)
@[simp] theorem reelToTransport_cfg (h : Nat) (r : Reel) : (reelToTransport h r t).cfg = t.cfg :=
  ((kept_reelToTransport (l := [.reg, .cab]) (by simp) (by simp) h r).mpr (.refl _ t)) .cfg (by simp)
@[simp] theorem reelToTransport_tmb (h : Nat) (r : Reel) : (reelToTransport h r t).tmb = t.tmb :=
  ((kept_reelToTransport (l := [.reg, .cab]) (by simp) (by simp) h r).mpr (.refl _ t)) .tmb (by simp)
@[simp] theorem reelToTransport_out (h : Nat) (r : Reel) : (reelToTransport h r t).out = t.out :=
  ((kept_reelToTransport (l := [.reg, .cab]) (by simp) (by simp) h r).mpr (.refl _ t)) .out (by simp)
@[simp] theorem reelToTransport_pending (h : Nat) (r : Reel) : (reelToTransport h r t).pending = t.pending :=
  ((kept_reelToTransport (l := [.reg, .cab]) (by simp) (by simp) h r).mpr (.refl _ t)) .pending (by simp)
@[simp] theorem reelToTransport_setting (h : Nat) (r : Reel) (setting : Nat) : (reelToTransport h r t).setting setting = t.setting setting := by
  simp [State.setting]
@[simp] theorem reelToStaging_trc (h n : Nat) (x : Option Nat) : (reelToStaging h n x t).trc = t.trc :=
  ((kept_reelToStaging (l := [.reg, .cab]) (by simp) (by simp) h n x).mpr (.refl _ t)) .trc (by simp)
@[simp] theorem reelToStaging_pru (h n : Nat) (x : Option Nat) : (reelToStaging h n x t).pru = t.pru :=
  ((kept_reelToStaging (l := [.reg, .cab]) (by simp) (by simp) h n x).mpr (.refl _ t)) .pru (by simp)
@[simp] theorem reelToStaging_fcu (h n : Nat) (x : Option Nat) : (reelToStaging h n x t).fcu = t.fcu :=
  ((kept_reelToStaging (l := [.reg, .cab]) (by simp) (by simp) h n x).mpr (.refl _ t)) .fcu (by simp)
@[simp] theorem reelToStaging_dsu (h n : Nat) (x : Option Nat) : (reelToStaging h n x t).dsu = t.dsu :=
  ((kept_reelToStaging (l := [.reg, .cab]) (by simp) (by simp) h n x).mpr (.refl _ t)) .dsu (by simp)
@[simp] theorem reelToStaging_rpq (h n : Nat) (x : Option Nat) : (reelToStaging h n x t).rpq = t.rpq :=
  ((kept_reelToStaging (l := [.reg, .cab]) (by simp) (by simp) h n x).mpr (.refl _ t)) .rpq (by simp)
@[simp] theorem reelToStaging_sht (h n : Nat) (x : Option Nat) : (reelToStaging h n x t).sht = t.sht :=
  ((kept_reelToStaging (l := [.reg, .cab]) (by simp) (by simp) h n x).mpr (.refl _ t)) .sht (by simp)
@[simp] theorem reelToStaging_spt (h n : Nat) (x : Option Nat) : (reelToStaging h n x t).spt = t.spt :=
  ((kept_reelToStaging (l := [.reg, .cab]) (by simp) (by simp) h n x).mpr (.refl _ t)) .spt (by simp)
@[simp] theorem reelToStaging_alt (h n : Nat) (x : Option Nat) : (reelToStaging h n x t).alt = t.alt :=
  ((kept_reelToStaging (l := [.reg, .cab]) (by simp) (by simp) h n x).mpr (.refl _ t)) .alt (by simp)
@[simp] theorem reelToStaging_cfg (h n : Nat) (x : Option Nat) : (reelToStaging h n x t).cfg = t.cfg :=
  ((kept_reelToStaging (l := [.reg, .cab]) (by simp) (by simp) h n x).mpr (.refl _ t)) .cfg (by simp)
@[simp] theorem reelToStaging_tmb (h n : Nat) (x : Option Nat) : (reelToStaging h n x t).tmb = t.tmb :=
  ((kept_reelToStaging (l := [.reg, .cab]) (by simp) (by simp) h n x).mpr (.refl _ t)) .tmb (by simp)
@[simp] theorem reelToStaging_out (h n : Nat) (x : Option Nat) : (reelToStaging h n x t).out = t.out :=
  ((kept_reelToStaging (l := [.reg, .cab]) (by simp) (by simp) h n x).mpr (.refl _ t)) .out (by simp)
@[simp] theorem reelToStaging_pending (h n : Nat) (x : Option Nat) : (reelToStaging h n x t).pending = t.pending :=
  ((kept_reelToStaging (l := [.reg, .cab]) (by simp) (by simp) h n x).mpr (.refl _ t)) .pending (by simp)
@[simp] theorem reelToStaging_setting (h n : Nat) (x : Option Nat) (setting : Nat) : (reelToStaging h n x t).setting setting = t.setting setting := by
  simp [State.setting]
@[simp] theorem setOriginAt_reg (e : Int) : (setOriginAt e t).reg = t.reg :=
  ((kept_setOriginAt (l := [.pru, .rpq, .alt]) (by simp) (by simp) (by simp) e).mpr (.refl _ t)) .reg (by simp)
@[simp] theorem setOriginAt_trc (e : Int) : (setOriginAt e t).trc = t.trc :=
  ((kept_setOriginAt (l := [.pru, .rpq, .alt]) (by simp) (by simp) (by simp) e).mpr (.refl _ t)) .trc (by simp)
@[simp] theorem setOriginAt_fcu (e : Int) : (setOriginAt e t).fcu = t.fcu :=
  ((kept_setOriginAt (l := [.pru, .rpq, .alt]) (by simp) (by simp) (by simp) e).mpr (.refl _ t)) .fcu (by simp)
@[simp] theorem setOriginAt_dsu (e : Int) : (setOriginAt e t).dsu = t.dsu :=
  ((kept_setOriginAt (l := [.pru, .rpq, .alt]) (by simp) (by simp) (by simp) e).mpr (.refl _ t)) .dsu (by simp)
@[simp] theorem setOriginAt_sht (e : Int) : (setOriginAt e t).sht = t.sht :=
  ((kept_setOriginAt (l := [.pru, .rpq, .alt]) (by simp) (by simp) (by simp) e).mpr (.refl _ t)) .sht (by simp)
@[simp] theorem setOriginAt_cab (e : Int) : (setOriginAt e t).cab = t.cab :=
  ((kept_setOriginAt (l := [.pru, .rpq, .alt]) (by simp) (by simp) (by simp) e).mpr (.refl _ t)) .cab (by simp)
@[simp] theorem setOriginAt_spt (e : Int) : (setOriginAt e t).spt = t.spt :=
  ((kept_setOriginAt (l := [.pru, .rpq, .alt]) (by simp) (by simp) (by simp) e).mpr (.refl _ t)) .spt (by simp)
@[simp] theorem setOriginAt_cfg (e : Int) : (setOriginAt e t).cfg = t.cfg :=
  ((kept_setOriginAt (l := [.pru, .rpq, .alt]) (by simp) (by simp) (by simp) e).mpr (.refl _ t)) .cfg (by simp)
@[simp] theorem setOriginAt_tmb (e : Int) : (setOriginAt e t).tmb = t.tmb :=
  ((kept_setOriginAt (l := [.pru, .rpq, .alt]) (by simp) (by simp) (by simp) e).mpr (.refl _ t)) .tmb (by simp)
@[simp] theorem setOriginAt_out (e : Int) : (setOriginAt e t).out = t.out :=
  ((kept_setOriginAt (l := [.pru, .rpq, .alt]) (by simp) (by simp) (by simp) e).mpr (.refl _ t)) .out (by simp)
@[simp] theorem setOriginAt_pending (e : Int) : (setOriginAt e t).pending = t.pending :=
  ((kept_setOriginAt (l := [.pru, .rpq, .alt]) (by simp) (by simp) (by simp) e).mpr (.refl _ t)) .pending (by simp)
@[simp] theorem setOriginAt_setting (e : Int) (setting : Nat) : (setOriginAt e t).setting setting = t.setting setting := by
  simp [State.setting]
@[simp] theorem setOriginAt_reel (e : Int) (reel : Nat) : (setOriginAt e t).reel reel = t.reel reel := by
  simp [State.reel]
@[simp] theorem freeReel_trc (h : Nat) : (freeReel h t).trc = t.trc :=
  ((kept_freeReel (l := [.reg, .sht, .rpq]) (by simp) (by simp) (by simp) h).mpr (.refl _ t)) .trc (by simp)
@[simp] theorem freeReel_pru (h : Nat) : (freeReel h t).pru = t.pru :=
  ((kept_freeReel (l := [.reg, .sht, .rpq]) (by simp) (by simp) (by simp) h).mpr (.refl _ t)) .pru (by simp)
@[simp] theorem freeReel_fcu (h : Nat) : (freeReel h t).fcu = t.fcu :=
  ((kept_freeReel (l := [.reg, .sht, .rpq]) (by simp) (by simp) (by simp) h).mpr (.refl _ t)) .fcu (by simp)
@[simp] theorem freeReel_dsu (h : Nat) : (freeReel h t).dsu = t.dsu :=
  ((kept_freeReel (l := [.reg, .sht, .rpq]) (by simp) (by simp) (by simp) h).mpr (.refl _ t)) .dsu (by simp)
@[simp] theorem freeReel_cab (h : Nat) : (freeReel h t).cab = t.cab :=
  ((kept_freeReel (l := [.reg, .sht, .rpq]) (by simp) (by simp) (by simp) h).mpr (.refl _ t)) .cab (by simp)
@[simp] theorem freeReel_spt (h : Nat) : (freeReel h t).spt = t.spt :=
  ((kept_freeReel (l := [.reg, .sht, .rpq]) (by simp) (by simp) (by simp) h).mpr (.refl _ t)) .spt (by simp)
@[simp] theorem freeReel_alt (h : Nat) : (freeReel h t).alt = t.alt :=
  ((kept_freeReel (l := [.reg, .sht, .rpq]) (by simp) (by simp) (by simp) h).mpr (.refl _ t)) .alt (by simp)
@[simp] theorem freeReel_cfg (h : Nat) : (freeReel h t).cfg = t.cfg :=
  ((kept_freeReel (l := [.reg, .sht, .rpq]) (by simp) (by simp) (by simp) h).mpr (.refl _ t)) .cfg (by simp)
@[simp] theorem freeReel_tmb (h : Nat) : (freeReel h t).tmb = t.tmb :=
  ((kept_freeReel (l := [.reg, .sht, .rpq]) (by simp) (by simp) (by simp) h).mpr (.refl _ t)) .tmb (by simp)
@[simp] theorem freeReel_out (h : Nat) : (freeReel h t).out = t.out :=
  ((kept_freeReel (l := [.reg, .sht, .rpq]) (by simp) (by simp) (by simp) h).mpr (.refl _ t)) .out (by simp)
@[simp] theorem freeReel_pending (h : Nat) : (freeReel h t).pending = t.pending :=
  ((kept_freeReel (l := [.reg, .sht, .rpq]) (by simp) (by simp) (by simp) h).mpr (.refl _ t)) .pending (by simp)
@[simp] theorem freeReel_setting (h : Nat) (setting : Nat) : (freeReel h t).setting setting = t.setting setting := by
  simp [State.setting]
@[simp] theorem startBay_reg (n : Nat) (d : Direction) (m : Nat) : (startBay n d m t).reg = t.reg :=
  ((kept_startBay (l := [.cab]) (by simp) n d m).mpr (.refl _ t)) .reg (by simp)
@[simp] theorem startBay_trc (n : Nat) (d : Direction) (m : Nat) : (startBay n d m t).trc = t.trc :=
  ((kept_startBay (l := [.cab]) (by simp) n d m).mpr (.refl _ t)) .trc (by simp)
@[simp] theorem startBay_pru (n : Nat) (d : Direction) (m : Nat) : (startBay n d m t).pru = t.pru :=
  ((kept_startBay (l := [.cab]) (by simp) n d m).mpr (.refl _ t)) .pru (by simp)
@[simp] theorem startBay_fcu (n : Nat) (d : Direction) (m : Nat) : (startBay n d m t).fcu = t.fcu :=
  ((kept_startBay (l := [.cab]) (by simp) n d m).mpr (.refl _ t)) .fcu (by simp)
@[simp] theorem startBay_dsu (n : Nat) (d : Direction) (m : Nat) : (startBay n d m t).dsu = t.dsu :=
  ((kept_startBay (l := [.cab]) (by simp) n d m).mpr (.refl _ t)) .dsu (by simp)
@[simp] theorem startBay_rpq (n : Nat) (d : Direction) (m : Nat) : (startBay n d m t).rpq = t.rpq :=
  ((kept_startBay (l := [.cab]) (by simp) n d m).mpr (.refl _ t)) .rpq (by simp)
@[simp] theorem startBay_sht (n : Nat) (d : Direction) (m : Nat) : (startBay n d m t).sht = t.sht :=
  ((kept_startBay (l := [.cab]) (by simp) n d m).mpr (.refl _ t)) .sht (by simp)
@[simp] theorem startBay_spt (n : Nat) (d : Direction) (m : Nat) : (startBay n d m t).spt = t.spt :=
  ((kept_startBay (l := [.cab]) (by simp) n d m).mpr (.refl _ t)) .spt (by simp)
@[simp] theorem startBay_alt (n : Nat) (d : Direction) (m : Nat) : (startBay n d m t).alt = t.alt :=
  ((kept_startBay (l := [.cab]) (by simp) n d m).mpr (.refl _ t)) .alt (by simp)
@[simp] theorem startBay_cfg (n : Nat) (d : Direction) (m : Nat) : (startBay n d m t).cfg = t.cfg :=
  ((kept_startBay (l := [.cab]) (by simp) n d m).mpr (.refl _ t)) .cfg (by simp)
@[simp] theorem startBay_tmb (n : Nat) (d : Direction) (m : Nat) : (startBay n d m t).tmb = t.tmb :=
  ((kept_startBay (l := [.cab]) (by simp) n d m).mpr (.refl _ t)) .tmb (by simp)
@[simp] theorem startBay_out (n : Nat) (d : Direction) (m : Nat) : (startBay n d m t).out = t.out :=
  ((kept_startBay (l := [.cab]) (by simp) n d m).mpr (.refl _ t)) .out (by simp)
@[simp] theorem startBay_pending (n : Nat) (d : Direction) (m : Nat) : (startBay n d m t).pending = t.pending :=
  ((kept_startBay (l := [.cab]) (by simp) n d m).mpr (.refl _ t)) .pending (by simp)
@[simp] theorem startBay_setting (n : Nat) (d : Direction) (m : Nat) (setting : Nat) : (startBay n d m t).setting setting = t.setting setting := by
  simp [State.setting]
@[simp] theorem startBay_reel (n : Nat) (d : Direction) (m : Nat) (reel : Nat) : (startBay n d m t).reel reel = t.reel reel := by
  simp [State.reel]
@[simp] theorem idleBay_reg (p : Place) : (idleBay p t).reg = t.reg :=
  ((kept_idleBay (l := [.cab]) (by simp) p).mpr (.refl _ t)) .reg (by simp)
@[simp] theorem idleBay_trc (p : Place) : (idleBay p t).trc = t.trc :=
  ((kept_idleBay (l := [.cab]) (by simp) p).mpr (.refl _ t)) .trc (by simp)
@[simp] theorem idleBay_pru (p : Place) : (idleBay p t).pru = t.pru :=
  ((kept_idleBay (l := [.cab]) (by simp) p).mpr (.refl _ t)) .pru (by simp)
@[simp] theorem idleBay_fcu (p : Place) : (idleBay p t).fcu = t.fcu :=
  ((kept_idleBay (l := [.cab]) (by simp) p).mpr (.refl _ t)) .fcu (by simp)
@[simp] theorem idleBay_dsu (p : Place) : (idleBay p t).dsu = t.dsu :=
  ((kept_idleBay (l := [.cab]) (by simp) p).mpr (.refl _ t)) .dsu (by simp)
@[simp] theorem idleBay_rpq (p : Place) : (idleBay p t).rpq = t.rpq :=
  ((kept_idleBay (l := [.cab]) (by simp) p).mpr (.refl _ t)) .rpq (by simp)
@[simp] theorem idleBay_sht (p : Place) : (idleBay p t).sht = t.sht :=
  ((kept_idleBay (l := [.cab]) (by simp) p).mpr (.refl _ t)) .sht (by simp)
@[simp] theorem idleBay_spt (p : Place) : (idleBay p t).spt = t.spt :=
  ((kept_idleBay (l := [.cab]) (by simp) p).mpr (.refl _ t)) .spt (by simp)
@[simp] theorem idleBay_alt (p : Place) : (idleBay p t).alt = t.alt :=
  ((kept_idleBay (l := [.cab]) (by simp) p).mpr (.refl _ t)) .alt (by simp)
@[simp] theorem idleBay_cfg (p : Place) : (idleBay p t).cfg = t.cfg :=
  ((kept_idleBay (l := [.cab]) (by simp) p).mpr (.refl _ t)) .cfg (by simp)
@[simp] theorem idleBay_tmb (p : Place) : (idleBay p t).tmb = t.tmb :=
  ((kept_idleBay (l := [.cab]) (by simp) p).mpr (.refl _ t)) .tmb (by simp)
@[simp] theorem idleBay_out (p : Place) : (idleBay p t).out = t.out :=
  ((kept_idleBay (l := [.cab]) (by simp) p).mpr (.refl _ t)) .out (by simp)
@[simp] theorem idleBay_pending (p : Place) : (idleBay p t).pending = t.pending :=
  ((kept_idleBay (l := [.cab]) (by simp) p).mpr (.refl _ t)) .pending (by simp)
@[simp] theorem idleBay_setting (p : Place) (setting : Nat) : (idleBay p t).setting setting = t.setting setting := by
  simp [State.setting]
@[simp] theorem idleBay_reel (p : Place) (reel : Nat) : (idleBay p t).reel reel = t.reel reel := by
  simp [State.reel]
@[simp] theorem locate_trc (h : Nat) (p : Place) : (t.locate h p).trc = t.trc :=
  ((kept_locate (l := [.reg]) (by simp) h p).mpr (.refl _ t)) .trc (by simp)
@[simp] theorem locate_pru (h : Nat) (p : Place) : (t.locate h p).pru = t.pru :=
  ((kept_locate (l := [.reg]) (by simp) h p).mpr (.refl _ t)) .pru (by simp)
@[simp] theorem locate_fcu (h : Nat) (p : Place) : (t.locate h p).fcu = t.fcu :=
  ((kept_locate (l := [.reg]) (by simp) h p).mpr (.refl _ t)) .fcu (by simp)
@[simp] theorem locate_dsu (h : Nat) (p : Place) : (t.locate h p).dsu = t.dsu :=
  ((kept_locate (l := [.reg]) (by simp) h p).mpr (.refl _ t)) .dsu (by simp)
@[simp] theorem locate_rpq (h : Nat) (p : Place) : (t.locate h p).rpq = t.rpq :=
  ((kept_locate (l := [.reg]) (by simp) h p).mpr (.refl _ t)) .rpq (by simp)
@[simp] theorem locate_sht (h : Nat) (p : Place) : (t.locate h p).sht = t.sht :=
  ((kept_locate (l := [.reg]) (by simp) h p).mpr (.refl _ t)) .sht (by simp)
@[simp] theorem locate_cab (h : Nat) (p : Place) : (t.locate h p).cab = t.cab :=
  ((kept_locate (l := [.reg]) (by simp) h p).mpr (.refl _ t)) .cab (by simp)
@[simp] theorem locate_spt (h : Nat) (p : Place) : (t.locate h p).spt = t.spt :=
  ((kept_locate (l := [.reg]) (by simp) h p).mpr (.refl _ t)) .spt (by simp)
@[simp] theorem locate_alt (h : Nat) (p : Place) : (t.locate h p).alt = t.alt :=
  ((kept_locate (l := [.reg]) (by simp) h p).mpr (.refl _ t)) .alt (by simp)
@[simp] theorem locate_cfg (h : Nat) (p : Place) : (t.locate h p).cfg = t.cfg :=
  ((kept_locate (l := [.reg]) (by simp) h p).mpr (.refl _ t)) .cfg (by simp)
@[simp] theorem locate_tmb (h : Nat) (p : Place) : (t.locate h p).tmb = t.tmb :=
  ((kept_locate (l := [.reg]) (by simp) h p).mpr (.refl _ t)) .tmb (by simp)
@[simp] theorem locate_out (h : Nat) (p : Place) : (t.locate h p).out = t.out :=
  ((kept_locate (l := [.reg]) (by simp) h p).mpr (.refl _ t)) .out (by simp)
@[simp] theorem locate_pending (h : Nat) (p : Place) : (t.locate h p).pending = t.pending :=
  ((kept_locate (l := [.reg]) (by simp) h p).mpr (.refl _ t)) .pending (by simp)
@[simp] theorem locate_setting (h : Nat) (p : Place) (setting : Nat) : (t.locate h p).setting setting = t.setting setting := by
  simp [State.setting]
@[simp] theorem home_trc (h : Nat) (p : Place) : (t.home h p).trc = t.trc :=
  ((kept_home (l := [.reg]) (by simp) h p).mpr (.refl _ t)) .trc (by simp)
@[simp] theorem home_pru (h : Nat) (p : Place) : (t.home h p).pru = t.pru :=
  ((kept_home (l := [.reg]) (by simp) h p).mpr (.refl _ t)) .pru (by simp)
@[simp] theorem home_fcu (h : Nat) (p : Place) : (t.home h p).fcu = t.fcu :=
  ((kept_home (l := [.reg]) (by simp) h p).mpr (.refl _ t)) .fcu (by simp)
@[simp] theorem home_dsu (h : Nat) (p : Place) : (t.home h p).dsu = t.dsu :=
  ((kept_home (l := [.reg]) (by simp) h p).mpr (.refl _ t)) .dsu (by simp)
@[simp] theorem home_rpq (h : Nat) (p : Place) : (t.home h p).rpq = t.rpq :=
  ((kept_home (l := [.reg]) (by simp) h p).mpr (.refl _ t)) .rpq (by simp)
@[simp] theorem home_sht (h : Nat) (p : Place) : (t.home h p).sht = t.sht :=
  ((kept_home (l := [.reg]) (by simp) h p).mpr (.refl _ t)) .sht (by simp)
@[simp] theorem home_cab (h : Nat) (p : Place) : (t.home h p).cab = t.cab :=
  ((kept_home (l := [.reg]) (by simp) h p).mpr (.refl _ t)) .cab (by simp)
@[simp] theorem home_spt (h : Nat) (p : Place) : (t.home h p).spt = t.spt :=
  ((kept_home (l := [.reg]) (by simp) h p).mpr (.refl _ t)) .spt (by simp)
@[simp] theorem home_alt (h : Nat) (p : Place) : (t.home h p).alt = t.alt :=
  ((kept_home (l := [.reg]) (by simp) h p).mpr (.refl _ t)) .alt (by simp)
@[simp] theorem home_cfg (h : Nat) (p : Place) : (t.home h p).cfg = t.cfg :=
  ((kept_home (l := [.reg]) (by simp) h p).mpr (.refl _ t)) .cfg (by simp)
@[simp] theorem home_tmb (h : Nat) (p : Place) : (t.home h p).tmb = t.tmb :=
  ((kept_home (l := [.reg]) (by simp) h p).mpr (.refl _ t)) .tmb (by simp)
@[simp] theorem home_out (h : Nat) (p : Place) : (t.home h p).out = t.out :=
  ((kept_home (l := [.reg]) (by simp) h p).mpr (.refl _ t)) .out (by simp)
@[simp] theorem home_pending (h : Nat) (p : Place) : (t.home h p).pending = t.pending :=
  ((kept_home (l := [.reg]) (by simp) h p).mpr (.refl _ t)) .pending (by simp)
@[simp] theorem home_setting (h : Nat) (p : Place) (setting : Nat) : (t.home h p).setting setting = t.setting setting := by
  simp [State.setting]
@[simp] theorem startOut_reg (h : Nat) (d : Place) : (startOut h d t).reg = t.reg :=
  ((kept_startOut (l := [.cab]) (by simp) h d).mpr (.refl _ t)) .reg (by simp)
@[simp] theorem startOut_trc (h : Nat) (d : Place) : (startOut h d t).trc = t.trc :=
  ((kept_startOut (l := [.cab]) (by simp) h d).mpr (.refl _ t)) .trc (by simp)
@[simp] theorem startOut_pru (h : Nat) (d : Place) : (startOut h d t).pru = t.pru :=
  ((kept_startOut (l := [.cab]) (by simp) h d).mpr (.refl _ t)) .pru (by simp)
@[simp] theorem startOut_fcu (h : Nat) (d : Place) : (startOut h d t).fcu = t.fcu :=
  ((kept_startOut (l := [.cab]) (by simp) h d).mpr (.refl _ t)) .fcu (by simp)
@[simp] theorem startOut_dsu (h : Nat) (d : Place) : (startOut h d t).dsu = t.dsu :=
  ((kept_startOut (l := [.cab]) (by simp) h d).mpr (.refl _ t)) .dsu (by simp)
@[simp] theorem startOut_rpq (h : Nat) (d : Place) : (startOut h d t).rpq = t.rpq :=
  ((kept_startOut (l := [.cab]) (by simp) h d).mpr (.refl _ t)) .rpq (by simp)
@[simp] theorem startOut_sht (h : Nat) (d : Place) : (startOut h d t).sht = t.sht :=
  ((kept_startOut (l := [.cab]) (by simp) h d).mpr (.refl _ t)) .sht (by simp)
@[simp] theorem startOut_spt (h : Nat) (d : Place) : (startOut h d t).spt = t.spt :=
  ((kept_startOut (l := [.cab]) (by simp) h d).mpr (.refl _ t)) .spt (by simp)
@[simp] theorem startOut_alt (h : Nat) (d : Place) : (startOut h d t).alt = t.alt :=
  ((kept_startOut (l := [.cab]) (by simp) h d).mpr (.refl _ t)) .alt (by simp)
@[simp] theorem startOut_cfg (h : Nat) (d : Place) : (startOut h d t).cfg = t.cfg :=
  ((kept_startOut (l := [.cab]) (by simp) h d).mpr (.refl _ t)) .cfg (by simp)
@[simp] theorem startOut_tmb (h : Nat) (d : Place) : (startOut h d t).tmb = t.tmb :=
  ((kept_startOut (l := [.cab]) (by simp) h d).mpr (.refl _ t)) .tmb (by simp)
@[simp] theorem startOut_out (h : Nat) (d : Place) : (startOut h d t).out = t.out :=
  ((kept_startOut (l := [.cab]) (by simp) h d).mpr (.refl _ t)) .out (by simp)
@[simp] theorem startOut_pending (h : Nat) (d : Place) : (startOut h d t).pending = t.pending :=
  ((kept_startOut (l := [.cab]) (by simp) h d).mpr (.refl _ t)) .pending (by simp)
@[simp] theorem startOut_setting (h : Nat) (d : Place) (setting : Nat) : (startOut h d t).setting setting = t.setting setting := by
  simp [State.setting]
@[simp] theorem startOut_reel (h : Nat) (d : Place) (reel : Nat) : (startOut h d t).reel reel = t.reel reel := by
  simp [State.reel]
@[simp] theorem startIn_reg (d : Place) : (startIn d t).reg = t.reg :=
  ((kept_startIn (l := [.cab]) (by simp) d).mpr (.refl _ t)) .reg (by simp)
@[simp] theorem startIn_trc (d : Place) : (startIn d t).trc = t.trc :=
  ((kept_startIn (l := [.cab]) (by simp) d).mpr (.refl _ t)) .trc (by simp)
@[simp] theorem startIn_pru (d : Place) : (startIn d t).pru = t.pru :=
  ((kept_startIn (l := [.cab]) (by simp) d).mpr (.refl _ t)) .pru (by simp)
@[simp] theorem startIn_fcu (d : Place) : (startIn d t).fcu = t.fcu :=
  ((kept_startIn (l := [.cab]) (by simp) d).mpr (.refl _ t)) .fcu (by simp)
@[simp] theorem startIn_dsu (d : Place) : (startIn d t).dsu = t.dsu :=
  ((kept_startIn (l := [.cab]) (by simp) d).mpr (.refl _ t)) .dsu (by simp)
@[simp] theorem startIn_rpq (d : Place) : (startIn d t).rpq = t.rpq :=
  ((kept_startIn (l := [.cab]) (by simp) d).mpr (.refl _ t)) .rpq (by simp)
@[simp] theorem startIn_sht (d : Place) : (startIn d t).sht = t.sht :=
  ((kept_startIn (l := [.cab]) (by simp) d).mpr (.refl _ t)) .sht (by simp)
@[simp] theorem startIn_spt (d : Place) : (startIn d t).spt = t.spt :=
  ((kept_startIn (l := [.cab]) (by simp) d).mpr (.refl _ t)) .spt (by simp)
@[simp] theorem startIn_alt (d : Place) : (startIn d t).alt = t.alt :=
  ((kept_startIn (l := [.cab]) (by simp) d).mpr (.refl _ t)) .alt (by simp)
@[simp] theorem startIn_cfg (d : Place) : (startIn d t).cfg = t.cfg :=
  ((kept_startIn (l := [.cab]) (by simp) d).mpr (.refl _ t)) .cfg (by simp)
@[simp] theorem startIn_tmb (d : Place) : (startIn d t).tmb = t.tmb :=
  ((kept_startIn (l := [.cab]) (by simp) d).mpr (.refl _ t)) .tmb (by simp)
@[simp] theorem startIn_out (d : Place) : (startIn d t).out = t.out :=
  ((kept_startIn (l := [.cab]) (by simp) d).mpr (.refl _ t)) .out (by simp)
@[simp] theorem startIn_pending (d : Place) : (startIn d t).pending = t.pending :=
  ((kept_startIn (l := [.cab]) (by simp) d).mpr (.refl _ t)) .pending (by simp)
@[simp] theorem startIn_setting (d : Place) (setting : Nat) : (startIn d t).setting setting = t.setting setting := by
  simp [State.setting]
@[simp] theorem startIn_reel (d : Place) (reel : Nat) : (startIn d t).reel reel = t.reel reel := by
  simp [State.reel]
@[simp] theorem followUp_trc (m : Move) (d : Place) : (followUp m d t).trc = t.trc :=
  ((kept_followUp (l := [.reg, .cab, .alt, .sht, .rpq]) (by simp) (by simp) (by simp) (by simp) (by simp) m d).mpr (.refl _ t)) .trc (by simp)
@[simp] theorem followUp_pru (m : Move) (d : Place) : (followUp m d t).pru = t.pru :=
  ((kept_followUp (l := [.reg, .cab, .alt, .sht, .rpq]) (by simp) (by simp) (by simp) (by simp) (by simp) m d).mpr (.refl _ t)) .pru (by simp)
@[simp] theorem followUp_fcu (m : Move) (d : Place) : (followUp m d t).fcu = t.fcu :=
  ((kept_followUp (l := [.reg, .cab, .alt, .sht, .rpq]) (by simp) (by simp) (by simp) (by simp) (by simp) m d).mpr (.refl _ t)) .fcu (by simp)
@[simp] theorem followUp_dsu (m : Move) (d : Place) : (followUp m d t).dsu = t.dsu :=
  ((kept_followUp (l := [.reg, .cab, .alt, .sht, .rpq]) (by simp) (by simp) (by simp) (by simp) (by simp) m d).mpr (.refl _ t)) .dsu (by simp)
@[simp] theorem followUp_spt (m : Move) (d : Place) : (followUp m d t).spt = t.spt :=
  ((kept_followUp (l := [.reg, .cab, .alt, .sht, .rpq]) (by simp) (by simp) (by simp) (by simp) (by simp) m d).mpr (.refl _ t)) .spt (by simp)
@[simp] theorem followUp_cfg (m : Move) (d : Place) : (followUp m d t).cfg = t.cfg :=
  ((kept_followUp (l := [.reg, .cab, .alt, .sht, .rpq]) (by simp) (by simp) (by simp) (by simp) (by simp) m d).mpr (.refl _ t)) .cfg (by simp)
@[simp] theorem followUp_tmb (m : Move) (d : Place) : (followUp m d t).tmb = t.tmb :=
  ((kept_followUp (l := [.reg, .cab, .alt, .sht, .rpq]) (by simp) (by simp) (by simp) (by simp) (by simp) m d).mpr (.refl _ t)) .tmb (by simp)
@[simp] theorem followUp_out (m : Move) (d : Place) : (followUp m d t).out = t.out :=
  ((kept_followUp (l := [.reg, .cab, .alt, .sht, .rpq]) (by simp) (by simp) (by simp) (by simp) (by simp) m d).mpr (.refl _ t)) .out (by simp)
@[simp] theorem followUp_pending (m : Move) (d : Place) : (followUp m d t).pending = t.pending :=
  ((kept_followUp (l := [.reg, .cab, .alt, .sht, .rpq]) (by simp) (by simp) (by simp) (by simp) (by simp) m d).mpr (.refl _ t)) .pending (by simp)
@[simp] theorem followUp_setting (m : Move) (d : Place) (setting : Nat) : (followUp m d t).setting setting = t.setting setting := by
  simp [State.setting]
@[simp] theorem freeDest_reg (d : Option Place) : (freeDest d t).reg = t.reg :=
  ((kept_freeDest (l := [.cab]) (by simp) d).mpr (.refl _ t)) .reg (by simp)
@[simp] theorem freeDest_trc (d : Option Place) : (freeDest d t).trc = t.trc :=
  ((kept_freeDest (l := [.cab]) (by simp) d).mpr (.refl _ t)) .trc (by simp)
@[simp] theorem freeDest_pru (d : Option Place) : (freeDest d t).pru = t.pru :=
  ((kept_freeDest (l := [.cab]) (by simp) d).mpr (.refl _ t)) .pru (by simp)
@[simp] theorem freeDest_fcu (d : Option Place) : (freeDest d t).fcu = t.fcu :=
  ((kept_freeDest (l := [.cab]) (by simp) d).mpr (.refl _ t)) .fcu (by simp)
@[simp] theorem freeDest_dsu (d : Option Place) : (freeDest d t).dsu = t.dsu :=
  ((kept_freeDest (l := [.cab]) (by simp) d).mpr (.refl _ t)) .dsu (by simp)
@[simp] theorem freeDest_rpq (d : Option Place) : (freeDest d t).rpq = t.rpq :=
  ((kept_freeDest (l := [.cab]) (by simp) d).mpr (.refl _ t)) .rpq (by simp)
@[simp] theorem freeDest_sht (d : Option Place) : (freeDest d t).sht = t.sht :=
  ((kept_freeDest (l := [.cab]) (by simp) d).mpr (.refl _ t)) .sht (by simp)
@[simp] theorem freeDest_spt (d : Option Place) : (freeDest d t).spt = t.spt :=
  ((kept_freeDest (l := [.cab]) (by simp) d).mpr (.refl _ t)) .spt (by simp)
@[simp] theorem freeDest_alt (d : Option Place) : (freeDest d t).alt = t.alt :=
  ((kept_freeDest (l := [.cab]) (by simp) d).mpr (.refl _ t)) .alt (by simp)
@[simp] theorem freeDest_cfg (d : Option Place) : (freeDest d t).cfg = t.cfg :=
  ((kept_freeDest (l := [.cab]) (by simp) d).mpr (.refl _ t)) .cfg (by simp)
@[simp] theorem freeDest_tmb (d : Option Place) : (freeDest d t).tmb = t.tmb :=
  ((kept_freeDest (l := [.cab]) (by simp) d).mpr (.refl _ t)) .tmb (by simp)
@[simp] theorem freeDest_out (d : Option Place) : (freeDest d t).out = t.out :=
  ((kept_freeDest (l := [.cab]) (by simp) d).mpr (.refl _ t)) .out (by simp)
@[simp] theorem freeDest_pending (d : Option Place) : (freeDest d t).pending = t.pending :=
  ((kept_freeDest (l := [.cab]) (by simp) d).mpr (.refl _ t)) .pending (by simp)
@[simp] theorem freeDest_setting (d : Option Place) (setting : Nat) : (freeDest d t).setting setting = t.setting setting := by
  simp [State.setting]
@[simp] theorem freeDest_reel (d : Option Place) (reel : Nat) : (freeDest d t).reel reel = t.reel reel := by
  simp [State.reel]

end Sys2Proof.Machine
end

