-- ==== Sys2Proof/Laws/Table.lean ====
section
/-! SUPPORT. The laws of the plain data shapes: what reading a table gives after a write, an erasure or a change, that
these keep the canonical form, and the same for the per-port and per-context values. -/

namespace Sys2Proof

variable {α β : Type}

/-! ### Tables: reading -/

theorem Table.read_write (t : Table α) (i j : Nat) (x : α) :
    (t.write i x).read j = if j = i then some x else t.read j := by
  induction t with
  | nil => simp [Table.write, Table.read, eq_comm]
  | cons e r ih =>
    obtain ⟨k, v⟩ := e
    simp only [Table.write]
    split
    · simp only [Table.read]; grind
    · split
      · simp only [Table.read]; grind
      · simp only [Table.read, ih]; grind

@[simp] theorem Table.read_write_same (t : Table α) (i : Nat) (x : α) : (t.write i x).read i = some x := by
  simp [Table.read_write]

theorem Table.read_modify (t : Table α) (i j : Nat) (f : α → α) :
    (t.modify i f).read j = if j = i then (t.read i).map f else t.read j := by
  unfold Table.modify
  split
  · next x h => rw [Table.read_write]; simp [h]
  · next h => split
              · next e => subst e; simp [h]
              · rfl

@[simp] theorem Table.read_modify_same (t : Table α) (i : Nat) (f : α → α) :
    (t.modify i f).read i = (t.read i).map f := by simp [Table.read_modify]

theorem Table.read_filter (t : Table α) (p : Nat → Bool) (j : Nat) :
    Table.read (t.filter (fun e => p e.1)) j = if p j then t.read j else none := by
  induction t with
  | nil => simp [Table.read]
  | cons e r ih =>
    obtain ⟨k, v⟩ := e
    simp only [List.filter_cons]
    split
    · simp only [Table.read, ih]; grind
    · simp only [Table.read, ih]; grind

theorem Table.read_erase (t : Table α) (i j : Nat) :
    (t.erase i).read j = if j = i then none else t.read j := by
  rw [Table.erase, Table.read_filter t (fun k => k != i)]
  by_cases h : j = i <;> simp [h]

theorem Table.read_map (t : Table α) (f : α → β) (j : Nat) :
    Table.read (t.map (fun e => (e.1, f e.2))) j = (t.read j).map f := by
  induction t with
  | nil => rfl
  | cons e r ih =>
    obtain ⟨k, v⟩ := e
    simp only [List.map_cons, Table.read, ih]
    split <;> rfl

/-- An entry that reads as `x` is in the list. -/
theorem Table.mem_of_read {t : Table α} {i : Nat} {x : α} (h : t.read i = some x) : (i, x) ∈ t := by
  induction t with
  | nil => simp [Table.read] at h
  | cons e r ih =>
    obtain ⟨k, v⟩ := e
    simp only [Table.read] at h
    split at h
    · next e => simp_all
    · simp [ih h]

/-- Every member of a written table is the new entry or an old one. -/
theorem Table.mem_write {t : Table α} {i : Nat} {x : α} {e : Nat × α} (h : e ∈ t.write i x) : e = (i, x) ∨ e ∈ t := by
  induction t with
  | nil => simpa [Table.write] using h
  | cons d r ih =>
    obtain ⟨k, v⟩ := d
    simp only [Table.write] at h
    split at h
    · simpa using h
    · split at h
      · simp only [List.mem_cons] at h ⊢; tauto
      · simp only [List.mem_cons] at h ⊢; tauto

/-- Every member of a changed table is an old one or the change of one. -/
theorem Table.mem_modify {t : Table α} {i : Nat} {f : α → α} {e : Nat × α} (h : e ∈ t.modify i f) :
    e ∈ t ∨ ∃ x, (i, x) ∈ t ∧ e = (i, f x) := by
  unfold Table.modify at h
  split at h
  · next x hx =>
    obtain rfl | h := Table.mem_write h
    · exact .inr ⟨x, Table.mem_of_read hx, rfl⟩
    · exact .inl h
  · exact .inl h

theorem Table.mem_erase {t : Table α} {i : Nat} {e : Nat × α} (h : e ∈ t.erase i) : e ∈ t := by
  simp only [Table.erase, List.mem_filter] at h
  exact h.1

/-! ### Tables: free entries -/

theorem Table.firstFreeFrom_spec {t : Table α} {n i k : Nat} (h : t.firstFreeFrom n i = some k) :
    i ≤ k ∧ k < i + n ∧ t.read k = none ∧ ∀ j, i ≤ j → j < k → t.read j ≠ none := by
  induction n generalizing i with
  | zero => simp [Table.firstFreeFrom] at h
  | succ n ih =>
    simp only [Table.firstFreeFrom] at h
    split at h
    · next e =>
      cases h
      refine ⟨le_rfl, by omega, by simpa using e, fun j h1 h2 => by omega⟩
    · next e =>
      obtain ⟨h1, h2, h3, h4⟩ := ih h
      refine ⟨by omega, by omega, h3, fun j h5 h6 => ?_⟩
      by_cases hj : j = i
      · subst hj; simpa using e
      · exact h4 j (by omega) h6

theorem Table.firstFreeFrom_none {t : Table α} {n i : Nat} (h : t.firstFreeFrom n i = none) :
    ∀ j, i ≤ j → j < i + n → t.read j ≠ none := by
  induction n generalizing i with
  | zero => intro j h1 h2; omega
  | succ n ih =>
    simp only [Table.firstFreeFrom] at h
    split at h
    · cases h
    · next e =>
      intro j h1 h2
      by_cases hj : j = i
      · subst hj; simpa using e
      · exact ih h j (by omega) (by omega)

/-- The lowest-numbered free entry: free, within the table, and no lower one is free. -/
theorem Table.firstFree_spec {t : Table α} {n k : Nat} (h : t.firstFree n = some k) :
    k < n ∧ t.read k = none ∧ ∀ j, j < k → t.read j ≠ none := by
  obtain ⟨_, h2, h3, h4⟩ := Table.firstFreeFrom_spec h
  exact ⟨by omega, h3, fun j hj => h4 j (Nat.zero_le _) hj⟩

/-! ### Tables: the canonical form -/

theorem Table.wf_iff (t : Table α) : t.wf = true ↔ t.Pairwise (fun x y => x.1 < y.1) := by
  simp [Table.wf, List.pairwise_map]

theorem Table.wf_write {t : Table α} (h : t.wf = true) (i : Nat) (x : α) : (t.write i x).wf = true := by
  rw [Table.wf_iff] at h ⊢
  induction t with
  | nil => simp [Table.write]
  | cons e r ih =>
    obtain ⟨k, v⟩ := e
    obtain ⟨h1, h2⟩ := List.pairwise_cons.mp h
    simp only [Table.write]
    split
    · next hik =>
      refine List.pairwise_cons.mpr ⟨fun y hy => ?_, h⟩
      obtain rfl | hy := List.mem_cons.mp hy
      · exact hik
      · exact lt_trans hik (h1 y hy)
    · split
      · next _ e => subst e; exact List.pairwise_cons.mpr ⟨h1, h2⟩
      · next hlt hne =>
        refine List.pairwise_cons.mpr ⟨fun y hy => ?_, ih h2⟩
        obtain rfl | hy := Table.mem_write hy
        · show k < i; omega
        · exact h1 y hy

theorem Table.wf_modify {t : Table α} (h : t.wf = true) (i : Nat) (f : α → α) : (t.modify i f).wf = true := by
  unfold Table.modify
  split
  · exact Table.wf_write h _ _
  · exact h

theorem Table.wf_filter {t : Table α} (h : t.wf = true) (p : Nat × α → Bool) :
    Table.wf (t.filter p) = true := by
  rw [Table.wf_iff] at h ⊢
  exact h.filter p

theorem Table.wf_erase {t : Table α} (h : t.wf = true) (i : Nat) : (t.erase i).wf = true := Table.wf_filter h _

theorem Table.wf_map {t : Table α} (h : t.wf = true) (f : α → β) :
    Table.wf (t.map (fun e => (e.1, f e.2))) = true := by
  rw [Table.wf_iff] at h ⊢
  simpa [List.pairwise_map] using h

/-! ### One value for each port, and for each context -/

@[simp] theorem PerPort.get_set_same (v : PerPort α) (p : Port) (x : α) : (v.set p x).get p = x := by
  cases p <;> rfl

theorem PerPort.get_set (v : PerPort α) (p q : Port) (x : α) :
    (v.set p x).get q = if q = p then x else v.get q := by cases p <;> cases q <;> rfl

@[simp] theorem PerPort.get_map (v : PerPort α) (f : α → β) (p : Port) : (v.map f).get p = f (v.get p) := by
  cases p <;> rfl

@[simp] theorem PerPort.get_same (x : α) (p : Port) : (PerPort.same x).get p = x := by cases p <;> rfl

theorem PerPort.ext_get {v w : PerPort α} (h : ∀ p, v.get p = w.get p) : v = w := by
  cases v; cases w
  exact PerPort.mk.injEq .. ▸ ⟨h .a, h .b, h .c, h .d⟩

@[simp] theorem PerPort.set_set (v : PerPort α) (p : Port) (x y : α) : (v.set p x).set p y = v.set p y := by
  cases p <;> rfl

@[simp] theorem PerPort.set_get (v : PerPort α) (p : Port) : v.set p (v.get p) = v := by cases p <;> rfl

@[simp] theorem Two.get_set_same (v : Two α) (c : CtxId) (x : α) : (v.set c x).get c = x := by cases c <;> rfl

theorem Two.get_set (v : Two α) (c d : CtxId) (x : α) : (v.set c x).get d = if d = c then x else v.get d := by
  cases c <;> cases d <;> rfl

@[simp] theorem Two.set_set (v : Two α) (c : CtxId) (x y : α) : (v.set c x).set c y = v.set c y := by cases c <;> rfl

@[simp] theorem Two.get_same (x : α) (c : CtxId) : (Two.same x).get c = x := by cases c <;> rfl

@[simp] theorem CtxId.other_other (c : CtxId) : c.other.other = c := by cases c <;> rfl

@[simp] theorem CtxId.other_ne (c : CtxId) : c.other ≠ c := by cases c <;> decide

/-! ### Ordering a list keeps its members -/

theorem mem_insertBy (b : α → α → Bool) (x y : α) (l : List α) : y ∈ insertBy b x l ↔ y = x ∨ y ∈ l := by
  induction l with
  | nil => simp [insertBy]
  | cons z r ih =>
    simp only [insertBy]
    split
    · simp
    · simp only [List.mem_cons, ih]; tauto

theorem mem_sortBy (b : α → α → Bool) (y : α) (l : List α) : y ∈ sortBy b l ↔ y ∈ l := by
  have h : ∀ acc : List α, y ∈ l.foldl (fun acc x => insertBy b x acc) acc ↔ y ∈ l ∨ y ∈ acc := by
    induction l with
    | nil => simp
    | cons z r ih =>
      intro acc
      simp only [List.foldl_cons, ih, mem_insertBy, List.mem_cons]; tauto
  simp [sortBy, h]

end Sys2Proof
end

