-- ==== Sys2Proof/Laws/Requests.lean ====
section
/-! SUPPORT. What taking a request does, said once: when it is carried out, and what its answer leaves (R175 to R184); what
raising an event does (R185, R186). -/

namespace Sys2Proof.Machine

variable {s t : State}

/-! ### Alerts -/

theorem Event.bit_lt (e : Event) : e.bit < 27 := by cases e <;> decide

theorem Event.bit_inj {e f : Event} (h : e.bit = f.bit) : e = f := by
  cases e <;> cases f <;> first | rfl | (exact absurd h (by decide))

/-- A set holds a kind when its bit is set. -/
theorem AlertSet.has_eq (a : AlertSet) (e : Event) : AlertSet.has a e = a.getLsbD e.bit := by
  have hm : ∀ i, (Event.mask e).getLsbD i = (decide (i = e.bit) && decide (i < 27)) := by
    intro i
    simp only [Event.mask, BitVec.getLsbD_ofNat, Nat.testBit_two_pow]
    by_cases h : i = e.bit <;> simp [h, eq_comm]
  rw [Bool.eq_iff_iff]
  simp only [AlertSet.has, bne_iff_ne, ne_eq]
  constructor
  · intro h
    by_contra hc
    apply h
    ext i hi
    simp only [BitVec.getElem_and, BitVec.getElem_zero]
    rw [← BitVec.getLsbD_eq_getElem hi, ← BitVec.getLsbD_eq_getElem hi, hm i]
    by_cases hie : i = e.bit
    · subst hie; simpa using fun hg => absurd hg hc
    · simp [hie]
  · intro h hz
    have hb := congrArg (fun b => b.getLsbD e.bit) hz
    rw [BitVec.getLsbD_and, h, hm e.bit] at hb
    simp [Event.bit_lt] at hb

@[simp] theorem AlertState.latch_mask (x : AlertState) (e : Event) : (x.latch e).mask = x.mask := rfl

/-- Latching a kind adds it and nothing else. -/
@[simp] theorem AlertState.has_latch (x : AlertState) (e f : Event) :
    AlertSet.has (x.latch e).latched f = (AlertSet.has x.latched f || decide (f = e)) := by
  have hm : ∀ i, (Event.mask e).getLsbD i = (decide (i = e.bit) && decide (i < 27)) := by
    intro i
    simp only [Event.mask, BitVec.getLsbD_ofNat, Nat.testBit_two_pow]
    by_cases h : i = e.bit <;> simp [h, eq_comm]
  simp only [AlertSet.has_eq, AlertState.latch, BitVec.getLsbD_or, hm]
  congr 1
  by_cases h : f = e
  · subst h; simp [Event.bit_lt]
  · have : f.bit ≠ e.bit := fun hb => h (Event.bit_inj hb)
    simp [h, this]

theorem raise_get (e : Event) (s : State) (p : Port) : (raise e s).alt.get p = routed e s p := by cases p <;> rfl

@[simp] theorem routed_mask (e : Event) (s : State) (p : Port) : (routed e s p).mask = (s.alt.get p).mask := by
  unfold routed; split <;> rfl

@[simp] theorem has_routed (e f : Event) (s : State) (p : Port) :
    AlertSet.has (routed e s p).latched f =
      (AlertSet.has (s.alt.get p).latched f || (decide (f = e) && AlertSet.has (s.route p) e)) := by
  unfold routed; split <;> simp [*]

theorem Latches.nil (h : t.alt = s.alt) : Latches [] s t := by
  intro p; rw [h]; exact ⟨rfl, fun e => by simp⟩

theorem Latches.raise {l : List Event} (h : Latches l s t) (hr : ∀ p, t.route p = s.route p) (e : Event) :
    Latches (e :: l) s (raise e t) := by
  intro p
  obtain ⟨hm, he⟩ := h p
  refine ⟨by simp [raise_get, hm], fun f => ?_⟩
  simp only [raise_get, has_routed, he, hr, List.contains_cons]
  by_cases hf : f = e
  · subst hf
    simp only [decide_true, Bool.true_and, beq_self_eq_true, Bool.true_or]
    cases AlertSet.has (s.alt.get p).latched f <;> cases l.contains f <;> cases AlertSet.has (s.route p) f <;> rfl
  · have : (f == e) = false := by simpa using hf
    simp [hf, this]

/-! ### Requests -/

/-- A request that is carried out is its body on the state the arrival leaves, and the answer. -/
theorem serve_of_served {rq : Rq} {need : Need} {body : Body} (h : Served rq need s) :
    serve rq need body s = answer rq (body (arrive rq.port s)).2 (body (arrive rq.port s)).1 := by
  obtain ⟨hr, hn⟩ := h
  have hd : denied need rq.port (arrive rq.port s) = false := by
    cases need with
    | any => rfl
    | role r =>
      simp only [denied, State.role, arrive_setting] at *
      rcases hn with h | h <;> simp [h]
  simp [serve, hr, hd]

/-- What an answer leaves, when the command itself leaves SPT alone. -/
theorem answered_of_kept {rq : Rq} {r : Reply} {l : List Block} (hs : Block.spt ∉ l) (h : Kept l s t) :
    Answered rq r.status r.results l s (answer rq r t) := by
  have hspt : t.spt = s.spt := h .spt hs
  refine ⟨?_, fun b hb => ?_⟩
  · simp [answer, State.setPort, hspt]
  · simp only [List.mem_cons, not_or] at hb
    have := h b hb.2
    cases b <;> first | exact this | exact absurd rfl hb.1

theorem Answered.responds {rq : Rq} {st : Status} {results : List Byte} {l : List Block}
    (h : Answered rq st results l s t) : Responds rq st results t := by
  simp [Responds, h.1]

/-- What arrives of a request in REG: the reels as they were, the port's confirmation absent (R15). -/
@[simp] theorem arrive_reg (p : Port) (s : State) :
    (arrive p s).reg = { s.reg with confirm := s.reg.confirm.set p none } := by
  simp [arrive, dropConfirmation]

@[simp] theorem arrive_reel (p : Port) (s : State) (h : Nat) : (arrive p s).reel h = s.reel h := by
  simp [State.reel]

@[simp] theorem arrive_response (p : Port) (s : State) : ((arrive p s).spt.get p).response = none := by
  simp only [arrive, dropConfirmation, displace, quiet]
  split <;> simp [State.setPort, raiseFor, *] <;> simpa using ‹_›

@[simp] theorem arrive_out (p : Port) (s : State) : (arrive p s).out = ⟨[], []⟩ := by
  simp only [arrive, dropConfirmation, displace, quiet]
  split <;> simp

end Sys2Proof.Machine
end

