-- ==== Sys2Proof/Laws/Survey.lean ====
section
/-! SUPPORT. What DSU does with a row, said once (R87 to R95): each run of the row is taken as `RunTaken` says, and a whole
row as `RowSurveyed` says. -/

namespace Sys2Proof.Machine

/-! ### Least and greatest -/

theorem Least.one (a : Nat) : Least a [a] := by simp [Least]
theorem Greatest.one (a : Nat) : Greatest a [a] := by simp [Greatest]

theorem Least.append {a b : Nat} {l m : List Nat} (h : Least a l) (k : Least b m) : Least (min a b) (l ++ m) := by
  obtain ⟨h1, h2⟩ := h
  obtain ⟨k1, k2⟩ := k
  refine ⟨?_, fun x hx => ?_⟩
  · rcases Nat.le_total a b with hl | hl
    · rw [Nat.min_eq_left hl]; exact List.mem_append_left _ h1
    · rw [Nat.min_eq_right hl]; exact List.mem_append_right _ k1
  · rcases List.mem_append.mp hx with hx | hx
    · exact Nat.le_trans (Nat.min_le_left ..) (h2 x hx)
    · exact Nat.le_trans (Nat.min_le_right ..) (k2 x hx)

theorem Greatest.append {a b : Nat} {l m : List Nat} (h : Greatest a l) (k : Greatest b m) :
    Greatest (max a b) (l ++ m) := by
  obtain ⟨h1, h2⟩ := h
  obtain ⟨k1, k2⟩ := k
  refine ⟨?_, fun x hx => ?_⟩
  · rcases Nat.le_total a b with hl | hl
    · rw [Nat.max_eq_right hl]; exact List.mem_append_right _ k1
    · rw [Nat.max_eq_left hl]; exact List.mem_append_left _ h1
  · rcases List.mem_append.mp hx with hx | hx
    · exact Nat.le_trans (h2 x hx) (Nat.le_max_left ..)
    · exact Nat.le_trans (k2 x hx) (Nat.le_max_right ..)

theorem Least.of_perm {a : Nat} {l m : List Nat} (h : Least a l) (e : ∀ x, x ∈ m ↔ x ∈ l) : Least a m :=
  ⟨(e a).mpr h.1, fun x hx => h.2 x ((e x).mp hx)⟩

theorem Greatest.of_perm {a : Nat} {l m : List Nat} (h : Greatest a l) (e : ∀ x, x ∈ m ↔ x ∈ l) : Greatest a m :=
  ⟨(e a).mpr h.1, fun x hx => h.2 x ((e x).mp hx)⟩

/-! ### Spans -/

/-- The least interval covering a list of spans: `none` covers no span. -/
def Covers (o : Option Span) (l : List Span) : Prop :=
  match o with
  | none => l = []
  | some p => Least p.lo (l.map (·.lo)) ∧ Greatest p.hi (l.map (·.hi))

theorem covers_coverOpt {o o' : Option Span} {l l' : List Span} (h : Covers o l) (h' : Covers o' l') :
    Covers (coverOpt o o') (l ++ l') := by
  cases o with
  | none =>
    simp only [Covers] at h; subst h
    simpa [coverOpt] using h'
  | some x =>
    cases o' with
    | none => simp only [Covers] at h'; subst h'; simpa [coverOpt] using h
    | some y =>
      refine ⟨?_, ?_⟩
      · simpa [coverOpt, Span.cover] using h.1.append h'.1
      · simpa [coverOpt, Span.cover] using h.2.append h'.2

theorem covers_toList (o : Option Span) : Covers o o.toList := by
  cases o with
  | none => rfl
  | some p => exact ⟨Least.one _, Greatest.one _⟩

/-! ### Merging (R91, R92) -/

/-- What the regions merged into one bring together. -/
structure Merged (l : List Region) (g : Region) : Prop where
  isOpen : g.isOpen = true
  rowMin : Least g.box.rowMin (l.map (·.box.rowMin))
  colMin : Least g.box.colMin (l.map (·.box.colMin))
  colMax : Greatest g.box.colMax (l.map (·.box.colMax))
  area : g.area = (l.map (·.area)).sum
  depth : g.depth = (l.map (·.depth)).sum
  previous : Covers g.previous (l.filterMap (·.previous))
  current : Covers g.current (l.filterMap (·.current))

theorem merged_one {g : Region} (h : g.isOpen = true) : Merged [g] g where
  isOpen := h
  rowMin := Least.one _
  colMin := Least.one _
  colMax := Greatest.one _
  area := by simp
  depth := by simp
  previous := by
    have := covers_toList g.previous
    cases hp : g.previous <;> simpa [hp] using this
  current := by
    have := covers_toList g.current
    cases hp : g.current <;> simpa [hp] using this

theorem merged_absorb {l : List Region} {g : Region} (h : Merged l g) (o : Region) :
    Merged (l ++ [o]) (absorbRegion g o) where
  isOpen := h.isOpen
  rowMin := by simpa [absorbRegion] using h.rowMin.append (Least.one o.box.rowMin)
  colMin := by simpa [absorbRegion] using h.colMin.append (Least.one o.box.colMin)
  colMax := by simpa [absorbRegion] using h.colMax.append (Greatest.one o.box.colMax)
  area := by simp [absorbRegion, h.area]
  depth := by simp [absorbRegion, h.depth]
  previous := by
    have := covers_coverOpt h.previous (covers_toList o.previous)
    cases hp : o.previous <;> simpa [absorbRegion, hp] using this
  current := by
    have := covers_coverOpt h.current (covers_toList o.current)
    cases hp : o.current <;> simpa [absorbRegion, hp] using this

theorem merged_foldl {l : List Region} {g : Region} (h : Merged l g) (os : List (Nat × Region)) :
    Merged (l ++ os.map (·.2)) (os.foldl (fun a e => absorbRegion a e.2) g) := by
  induction os generalizing l g with
  | nil => simpa using h
  | cons o rest ih => simpa using ih (merged_absorb h o.2)

/-- A run joined to the regions merged (R91, R92). -/
theorem joined_extend {l : List Region} {g : Region} (h : Merged l g) (hp : l.filterMap (·.previous) ≠ [])
    (row : Nat) (x : Span) (depth : Nat) : Joined row x depth l (extendRegion row x depth g) := by
  refine ⟨h.isOpen, rfl, rfl, h.rowMin, ?_, ?_, ?_, ?_, ?_, ?_⟩
  · exact (h.colMin.append (Least.one x.lo)).of_perm (by simp [or_comm])
  · exact (h.colMax.append (Greatest.one x.hi)).of_perm (by simp [or_comm])
  · simp [extendRegion, h.area, Span.width]
  · simp [extendRegion, h.depth]
  · have := h.previous
    cases hq : g.previous with
    | none => rw [hq] at this; exact absurd this hp
    | some p => rw [hq] at this; exact ⟨p, by simp [extendRegion, hq], this⟩
  · have := covers_coverOpt h.current (covers_toList (some x))
    cases hq : coverOpt g.current (some x) with
    | none => cases hc : g.current <;> simp [hc, coverOpt] at hq
    | some p =>
      rw [hq] at this
      exact ⟨p, by simp [extendRegion, hq], this.1.of_perm (by simp [or_comm]), this.2.of_perm (by simp [or_comm])⟩

/-! ### One run (R90 to R94) -/

theorem touchesRegion_iff (x : Span) (g : Region) : touchesRegion x g = true ↔ Touches x g := by
  unfold touchesRegion Touches
  cases hp : g.previous <;> simp

/-- An entry of a canonical table is what its number reads as. -/
theorem Table.read_of_mem {α : Type} {t : Table α} (h : t.wf = true) {e : Nat × α} (he : e ∈ t) : t.read e.1 = some e.2 := by
  induction t with
  | nil => cases he
  | cons a rest ih =>
    obtain ⟨k, v⟩ := a
    rw [Table.wf_iff, List.pairwise_cons] at h
    rcases List.mem_cons.mp he with rfl | hm
    · simp [Table.read]
    · have hlt := h.1 e hm
      have : k ≠ e.1 := by simp only at hlt; omega
      simp only [Table.read, if_neg this]
      exact ih ((Table.wf_iff _).mpr h.2) hm

theorem Table.read_foldl_erase {α : Type} (l : List (Nat × α)) (t : Table α) (j : Nat) :
    (l.foldl (fun u e => Table.erase u e.1) t).read j = if j ∈ l.map (·.1) then none else t.read j := by
  induction l generalizing t with
  | nil => simp
  | cons e rest ih =>
    simp only [List.foldl_cons, ih, Table.read_erase, List.map_cons, List.mem_cons]
    by_cases h1 : j ∈ rest.map (·.1) <;> by_cases h2 : j = e.1 <;> simp [h1, h2]

theorem Table.wf_foldl_erase {α : Type} (l : List (Nat × α)) {t : Table α} (h : t.wf = true) :
    (l.foldl (fun u e => Table.erase u e.1) t).wf = true := by
  induction l generalizing t with
  | nil => exact h
  | cons e rest ih => exact ih (Table.wf_erase h _)

/-- One run does what R90 to R94 say, and keeps the table's canonical form. -/
theorem takeRun_taken (row : Nat) (ir : List (BitVec 16)) (x : Span) {v : Survey} (hw : v.regions.wf = true) :
    RunTaken row ir x v (takeRun row ir v x) ∧ (takeRun row ir v x).regions.wf = true := by
  have hmem : ∀ j, (∃ g, v.regions.read j = some g ∧ Touches x g) ↔
      j ∈ (v.regions.filter (fun e => touchesRegion x e.2)).map (·.1) := by
    intro j
    simp only [List.mem_map, List.mem_filter]
    constructor
    · rintro ⟨g, hg, ht⟩
      exact ⟨(j, g), ⟨Table.mem_of_read hg, (touchesRegion_iff x g).mpr ht⟩, rfl⟩
    · rintro ⟨e, ⟨he, ht⟩, rfl⟩
      exact ⟨e.2, Table.read_of_mem hw he, (touchesRegion_iff x e.2).mp ht⟩
  have hpair : (v.regions.filter (fun e => touchesRegion x e.2)).Pairwise (fun a b => a.1 < b.1) :=
    ((Table.wf_iff _).mp hw).filter _
  have hfm : ((v.regions.filter (fun e => touchesRegion x e.2)).map (·.1)).filterMap v.regions.read =
      (v.regions.filter (fun e => touchesRegion x e.2)).map (·.2) := by
    have hall : ∀ e ∈ v.regions.filter (fun e => touchesRegion x e.2), v.regions.read e.1 = some e.2 :=
      fun e he => Table.read_of_mem hw (List.mem_filter.mp he).1
    generalize v.regions.filter (fun e => touchesRegion x e.2) = l at hall
    induction l with
    | nil => rfl
    | cons a rest ih =>
      have := hall a (List.mem_cons_self ..)
      simp only [List.map_cons, List.filterMap_cons, this]
      rw [ih (fun e he => hall e (List.mem_cons_of_mem _ he))]
  have htouch : ∀ e ∈ v.regions.filter (fun e => touchesRegion x e.2), Touches x e.2 :=
    fun e he => (touchesRegion_iff x e.2).mp (List.mem_filter.mp he).2
  cases hf : v.regions.filter (fun e => touchesRegion x e.2) with
  | cons a others =>
    obtain ⟨i0, g0⟩ := a
    rw [hf] at hmem hpair hfm htouch
    let joined := extendRegion row x (runDepth v.threshold ir x) (others.foldl (fun a e => absorbRegion a e.2) g0)
    have hrun : takeRun row ir v x =
        { v with regions := (others.foldl (fun t e => Table.erase t e.1) v.regions).write i0 joined } := by
      unfold takeRun; rw [hf]
    rw [hrun]
    refine ⟨⟨rfl, ?_, ?_, ?_⟩, Table.wf_write (Table.wf_foldl_erase _ hw) _ _⟩
    · intro i hi hlow
      rw [hmem] at hi
      have hi0 : i = i0 := by
        rcases List.mem_cons.mp hi with h | h
        · exact h
        · have hlt : i0 < i := by
            obtain ⟨e, he, rfl⟩ := List.mem_map.mp h
            exact (List.pairwise_cons.mp hpair).1 e he
          exact absurd ((hmem i0).mpr (by simp)) (hlow i0 hlt)
      subst hi0
      refine ⟨rfl, rfl, ⟨((i, g0) :: others).map (·.1), _, ?_, fun j => (hmem j).symm, Table.read_write_same .., ?_⟩, ?_⟩
      · rw [List.nodup_iff_pairwise_ne]
        exact List.pairwise_map.mpr (hpair.imp (fun h => Nat.ne_of_lt h))
      · rw [hfm]
        have hg : Merged [g0] g0 := merged_one (htouch (i, g0) (by simp)).1
        refine joined_extend (by simpa using merged_foldl hg others) ?_ row x _
        obtain ⟨-, p, hp, -⟩ := htouch (i, g0) (by simp)
        simp only at hp
        simp [hp]
      · intro j hj
        dsimp only
        rw [hmem, Table.read_write, if_neg (by omega), Table.read_foldl_erase]
        constructor
        · intro h
          rcases List.mem_cons.mp h with h | h
          · exact absurd h hj
          · rw [if_pos h]
        · intro h
          rw [if_neg (fun hc => h (List.mem_cons_of_mem _ hc))]
    · intro i hno
      exact absurd ((hmem i0).mpr (by simp)) (hno i0)
    · intro hno
      exact absurd ((hmem i0).mpr (by simp)) (hno i0)
  | nil =>
    rw [hf] at hmem
    have hno : ∀ j, ¬∃ g, v.regions.read j = some g ∧ Touches x g := by
      intro j h; rw [hmem] at h; simp at h
    cases hfree : v.regions.firstFree Config.regions with
    | some i0 =>
      have hrun : takeRun row ir v x =
          { v with regions := v.regions.write i0 (newRegion row x (runDepth v.threshold ir x)) } := by
        unfold takeRun; rw [hf]; simp only [hfree]
      obtain ⟨hlt, hread, hlow⟩ := Table.firstFree_spec hfree
      rw [hrun]
      refine ⟨⟨rfl, fun i h => absurd h (hno i), ?_, ?_⟩, Table.wf_write hw _ _⟩
      · intro i _ hi hr hl
        have : i = i0 := by
          rcases Nat.lt_trichotomy i i0 with h | h | h
          · exact absurd hr (hlow i h)
          · exact h
          · exact absurd hread (hl i0 h)
        subst this
        refine ⟨rfl, rfl, by simp [startedRegion, newRegion, runDepth, Span.width], fun j hj => ?_⟩
        rw [Table.read_write, if_neg (by omega)]
      · intro _ hall
        exact absurd hread (hall i0 hlt)
    | none =>
      have hrun : takeRun row ir v x = { v with lostArea := v.lostArea + x.width, full := true } := by
        unfold takeRun; rw [hf]; simp only [hfree]
      rw [hrun]
      refine ⟨⟨rfl, fun i h => absurd h (hno i), ?_, fun _ _ => rfl⟩, hw⟩
      intro i _ hi hr
      exact absurd hr (Table.firstFreeFrom_none hfree i (Nat.zero_le _) (by simpa [Config.regions] using hi))

/-! ### The runs of a row (R88) -/

/-- The runs of a list of columns that rises. -/
theorem runsOf_spec {l : List Nat} (h : l.Pairwise (· < ·)) (hb : ∀ j ∈ l, j < 32) :
    RunsOf (· ∈ l) (runsOf l) ∧ ∀ x rest, runsOf l = x :: rest → ∀ a more, l = a :: more → x.lo = a := by
  induction l with
  | nil => exact ⟨⟨by simp [runsOf], by simp [runsOf], by simp⟩, by simp [runsOf]⟩
  | cons a rest ih =>
    obtain ⟨hlt, hp⟩ := List.pairwise_cons.mp h
    obtain ⟨⟨h1, h2, h3⟩, h4⟩ := ih hp (fun j hj => hb j (List.mem_cons_of_mem _ hj))
    have ha := hb a (List.mem_cons_self ..)
    cases hr : runsOf rest with
    | nil =>
      have hnil : rest = [] := by
        cases rest with
        | nil => rfl
        | cons b more =>
          obtain ⟨x, hx, -⟩ := h3 b (hb b (by simp)) (by simp)
          rw [hr] at hx; cases hx
      subst hnil
      refine ⟨⟨?_, ?_, ?_⟩, ?_⟩
      · intro x hx
        simp only [runsOf, List.mem_singleton] at hx
        subst hx
        exact ⟨le_rfl, ha, fun j hl hu => by simp only at hl hu; simp; omega⟩
      · simp [runsOf]
      · intro j _ hj
        exact ⟨⟨a, a⟩, by simp [runsOf], by simp at hj; simp [hj]⟩
      · intro x r hx b m hl
        simp only [runsOf, List.cons.injEq] at hx hl
        rw [← hx.1, ← hl.1]
    | cons x more =>
      rw [hr] at h1 h2 h3 h4
      obtain ⟨b, rest', rfl⟩ : ∃ b rest', rest = b :: rest' := by
        cases rest with
        | nil => simp [runsOf] at hr
        | cons b r => exact ⟨b, r, rfl⟩
      have hx : x.lo = b := h4 x more rfl b rest' rfl
      have hab : a < b := hlt b (List.mem_cons_self ..)
      obtain ⟨hx1, hx2, hx3⟩ := h1 x (List.mem_cons_self ..)
      obtain ⟨hm1, hm2⟩ := List.pairwise_cons.mp h2
      have hcons : runsOf (a :: b :: rest') =
          if a + 1 = x.lo then ⟨a, x.hi⟩ :: more else ⟨a, a⟩ :: x :: more := by
        rw [runsOf, hr]
      rw [hcons]
      split
      · next hadj =>
        refine ⟨⟨?_, ?_, ?_⟩, ?_⟩
        · intro y hy
          rcases List.mem_cons.mp hy with rfl | hy
          · refine ⟨by simp only; omega, hx2, fun j hl hu => ?_⟩
            simp only at hl hu
            by_cases hj : j = a
            · simp [hj]
            · exact List.mem_cons_of_mem _ (hx3 j (by omega) hu)
          · obtain ⟨k1, k2, k3⟩ := h1 y (List.mem_cons_of_mem _ hy)
            exact ⟨k1, k2, fun j hl hu => List.mem_cons_of_mem _ (k3 j hl hu)⟩
        · exact List.pairwise_cons.mpr ⟨fun y hy => hm1 y hy, hm2⟩
        · intro j hj hm
          rcases List.mem_cons.mp hm with rfl | hm
          · exact ⟨⟨j, x.hi⟩, List.mem_cons_self .., le_rfl, by simp only; omega⟩
          · obtain ⟨y, hy, k1, k2⟩ := h3 j hj hm
            rcases List.mem_cons.mp hy with rfl | hy
            · exact ⟨⟨a, y.hi⟩, List.mem_cons_self .., by simp only; omega, k2⟩
            · exact ⟨y, List.mem_cons_of_mem _ hy, k1, k2⟩
        · intro y r hy c m hl
          simp only [List.cons.injEq] at hy hl
          rw [← hy.1, ← hl.1]
      · next hadj =>
        refine ⟨⟨?_, ?_, ?_⟩, ?_⟩
        · intro y hy
          rcases List.mem_cons.mp hy with rfl | hy
          · exact ⟨le_rfl, ha, fun j hl hu => by simp only at hl hu; simp; omega⟩
          · obtain ⟨k1, k2, k3⟩ := h1 y hy
            exact ⟨k1, k2, fun j hl hu => List.mem_cons_of_mem _ (k3 j hl hu)⟩
        · refine List.pairwise_cons.mpr ⟨fun y hy => ?_, h2⟩
          rcases List.mem_cons.mp hy with rfl | hy
          · simp only; omega
          · have := hm1 y hy; simp only; omega
        · intro j hj hm
          rcases List.mem_cons.mp hm with rfl | hm
          · exact ⟨⟨j, j⟩, List.mem_cons_self .., le_rfl, le_rfl⟩
          · obtain ⟨y, hy, k⟩ := h3 j hj hm
            exact ⟨y, List.mem_cons_of_mem _ hy, k⟩
        · intro y r hy c m hl
          simp only [List.cons.injEq] at hy hl
          rw [← hy.1, ← hl.1]

/-! ### A row (R87, R95) -/

theorem runs_taken (row : Nat) (ir : List (BitVec 16)) (runs : List Span) {v : Survey} (hw : v.regions.wf = true) :
    RunsTaken row ir runs v (runs.foldl (takeRun row ir) v) ∧ (runs.foldl (takeRun row ir) v).regions.wf = true := by
  induction runs generalizing v with
  | nil => exact ⟨rfl, hw⟩
  | cons x rest ih =>
    obtain ⟨h1, h2⟩ := takeRun_taken row ir x hw
    obtain ⟨h3, h4⟩ := ih h2
    exact ⟨⟨_, h1, h3⟩, h4⟩

/-- A row in order does what R87 to R95 say, and keeps the table's canonical form. -/
theorem takeRow_surveyed (row : Nat) (ir : List (BitVec 16)) {v : Survey} (hw : v.regions.wf = true) :
    RowSurveyed row ir v (takeRow row ir v) ∧ (takeRow row ir v).regions.wf = true := by
  have hm : defectMask v.threshold ir = (List.range 32).filter (fun j => decide (cellAt ir j < v.threshold)) := rfl
  obtain ⟨h1, h2⟩ := runs_taken row ir (runsOf (defectMask v.threshold ir)) (v := { v with mask := defectMask v.threshold ir }) hw
  refine ⟨⟨runsOf (defectMask v.threshold ir), _, ?_, h1, rfl, fun i => ?_⟩, Table.wf_map h2 _⟩
  · have hp : (defectMask v.threshold ir).Pairwise (· < ·) := by
      rw [hm]; exact List.pairwise_lt_range.filter _
    have := (runsOf_spec hp (fun j hj => by rw [hm] at hj; simp at hj; exact hj.1)).1
    have hd : ∀ j, j < 32 → (j ∈ defectMask v.threshold ir ↔ cellAt ir j < v.threshold) := by
      intro j hj; rw [hm]; simp [hj]
    obtain ⟨r1, r2, r3⟩ := this
    refine ⟨fun x hx => ?_, r2, fun j hj h => r3 j hj ((hd j hj).mpr h)⟩
    obtain ⟨k1, k2, k3⟩ := r1 x hx
    exact ⟨k1, k2, fun j hl hu => (hd j (by omega)).mp (k3 j hl hu)⟩
  · show (Table.read (List.map _ _) i) = _
    rw [Table.read_map]
    congr 1
    funext g
    unfold endRow
    cases g.isOpen <;> cases g.extended <;> simp

end Sys2Proof.Machine
end

