-- ==== Sys2Proof/Laws/Damage.lean ====
section
/-! SUPPORT. What RPQ does with the regions of a complete frame, said once: the gate-dirt test and the chains (R111 to
R115), the making of a damage record (R105), a promotion (R114), a rescan's supersession (R109); and the reopening of shots
(R151). -/

namespace Sys2Proof.Machine

variable {s t u : State}

/-! ### Alerts only grow -/

theorem AlertsGrow.refl (s : State) : AlertsGrow s s := fun _ => ⟨rfl, fun _ h => h⟩

theorem AlertsGrow.trans (h : AlertsGrow s t) (k : AlertsGrow t u) : AlertsGrow s u := fun p =>
  ⟨(k p).1.trans (h p).1, fun e x => (k p).2 e ((h p).2 e x)⟩

theorem AlertsGrow.of_eq (h : t.alt = s.alt) : AlertsGrow s t := fun p => by rw [h]; exact ⟨rfl, fun _ x => x⟩

theorem AlertsGrow.raise (h : AlertsGrow s t) (e : Event) : AlertsGrow s (raise e t) := fun p => by
  obtain ⟨h1, h2⟩ := h p
  rw [raise_get]
  exact ⟨by simp [h1], fun f x => by simp [h2 f x]⟩

theorem AlertsGrow.raiseIf (h : AlertsGrow s t) (c : Bool) (e : Event) : AlertsGrow s (raiseIf c e t) := by
  cases c
  · exact h
  · exact h.raise e

theorem AlertsGrow.foldl {α : Type} {f : State → α → State} (hf : ∀ u a, AlertsGrow u (f u a)) (l : List α)
    (h : AlertsGrow s t) : AlertsGrow s (l.foldl f t) := by
  induction l generalizing t with
  | nil => exact h
  | cons a r ih => exact ih (h.trans (hf t a))

/-- What was latched stays latched. -/
theorem LatchedWhereRouted.mono {e : Event} (h : LatchedWhereRouted e s t) (k : AlertsGrow t u) :
    LatchedWhereRouted e s u := fun p hp => (k p).2 e (h p hp)

theorem latched_raise {e : Event} (h : ∀ p, t.route p = s.route p) : LatchedWhereRouted e s (raise e t) := fun p hp => by
  rw [raise_get]; simp [h p, hp]

/-! ### Matching (R111 to R113) -/

theorem near_iff (a b : Nat) : near a b = true ↔ a ≤ b + 1 ∧ b ≤ a + 1 := by simp [near]

theorem regionsMatch_iff (c c' : DamageClass) (x y : Box) : regionsMatch c c' x y = true ↔ SamePlace c x c' y := by
  simp [regionsMatch, SamePlace, near_iff, and_assoc]

/-- The first entry of the gate-dirt list that a region matches is the one that is hit (R112). -/
theorem hitGate_some {x : Found} {older rest : List GateEntry} {e : GateEntry}
    (h : ∀ a ∈ older, ¬SamePlace x.cls x.box a.cls a.box) (he : SamePlace x.cls x.box e.cls e.box) :
    hitGate x (older ++ e :: rest) = some (older ++ { e with hit := true } :: rest) := by
  induction older with
  | nil => simp [hitGate, (regionsMatch_iff ..).mpr he]
  | cons a r ih =>
    have := (regionsMatch_iff x.cls a.cls x.box a.box).not.mpr (h a (by simp))
    simp [hitGate, this, ih (fun b hb => h b (by simp [hb]))]

theorem hitGate_none {x : Found} {l : List GateEntry} (h : ∀ a ∈ l, ¬SamePlace x.cls x.box a.cls a.box) :
    hitGate x l = none := by
  induction l with
  | nil => rfl
  | cons a r ih =>
    have := (regionsMatch_iff x.cls a.cls x.box a.box).not.mpr (h a (by simp))
    simp [hitGate, this, ih (fun b hb => h b (by simp [hb]))]

/-- The first previous region that a region matches is the one whose chain it takes up (R113). -/
theorem takeChain_some {x : Found} {older rest : List PrevRegion} {y : PrevRegion}
    (h : ∀ a ∈ older, ¬SamePlace x.cls x.box a.cls a.box) (hy : SamePlace x.cls x.box y.cls y.box) :
    takeChain x (older ++ y :: rest) = some (y, older ++ rest) := by
  induction older with
  | nil => simp [takeChain, (regionsMatch_iff ..).mpr hy]
  | cons a r ih =>
    have := (regionsMatch_iff x.cls a.cls x.box a.box).not.mpr (h a (by simp))
    simp [takeChain, this, ih (fun b hb => h b (by simp [hb]))]

theorem takeChain_none {x : Found} {l : List PrevRegion} (h : ∀ a ∈ l, ¬SamePlace x.cls x.box a.cls a.box) :
    takeChain x l = none := by
  induction l with
  | nil => rfl
  | cons a r ih =>
    have := (regionsMatch_iff x.cls a.cls x.box a.box).not.mpr (h a (by simp))
    simp [takeChain, this, ih (fun b hb => h b (by simp [hb]))]

/-- A region's class, severity and film box are those of Tables 5-4 and 5-5 and R99. -/
theorem markOf_eq {g : Region} {o : Int} {cls : DamageClass} {severity : Severity} {film : Box}
    (h : MarkOf g o cls severity film) : cls = classOf g.box g.area ∧ severity = severityOf cls g.box g.area ∧
      film = filmBox g.box o := by
  obtain ⟨h1, h2, h3, h4, h5, h6, h7⟩ := h
  have hc : cls = classOf g.box g.area := by
    by_cases hn : g.box.width ≤ 2 ∧ 12 ≤ g.box.height
    · rw [classOf, if_pos hn]; exact h1 hn
    · rw [classOf, if_neg hn]
      by_cases ha : g.area ≤ 4
      · rw [if_pos ha]; exact h2 hn ha
      · rw [if_neg ha]; exact h3 hn (by omega)
  refine ⟨hc, ?_, h7⟩
  cases cls with
  | dust => exact h4 rfl
  | blotch =>
    by_cases ha : g.area ≤ 24
    · rw [(h5 rfl).1 ha, severityOf, if_pos ha]
    · rw [(h5 rfl).2 (by omega), severityOf, if_neg ha]
  | scratch =>
    by_cases ha : g.box.height < 24
    · rw [severityOf, if_pos ha]; exact (h6 rfl).1 ha
    · rw [severityOf, if_neg ha]; exact (h6 rfl).2 (Nat.le_of_not_lt ha)

theorem agedGate_eq (limit : Nat) (l : List GateEntry) : ageGate limit l = agedGate limit l := rfl

/-- The chain that a region of the frame takes up, from the list RPQ starts the frame with (R108, R113). -/
theorem takesChain_eq {x : Ctx} {f : Found} {len : Nat} {refs : List DamageRef}
    (h : TakesChain s x f.cls f.box len refs) :
    let fits := !x.reanch && s.rpq.prevFrom == (if x.frame = 0 then none else some ⟨x.handle, x.frame - 1⟩) &&
      s.rpq.prevFrom.isSome
    ∃ rest, chainOf f (if fits then s.rpq.prev else []) = (len, refs, rest) := by
  intro fits
  have hf : fits = true ↔ x.reanch = false ∧ 0 < x.frame ∧ s.rpq.prevFrom = some ⟨x.handle, x.frame - 1⟩ := by
    simp only [fits]
    by_cases h0 : x.frame = 0
    · simp only [h0, if_true]; cases s.rpq.prevFrom <;> simp
    · rw [if_neg h0]
      constructor
      · intro hh; simp only [Bool.and_eq_true, Bool.not_eq_true', beq_iff_eq] at hh; exact ⟨hh.1.1, by omega, hh.1.2⟩
      · rintro ⟨a, b, c⟩; simp [a, c]
  rcases h with ⟨hfit, older, y, rest, hp, ho, hy, rfl, rfl⟩ | ⟨hn, rfl, rfl⟩
  · rw [if_pos (hf.mpr hfit), hp, chainOf, takeChain_some ho hy]
    exact ⟨_, rfl⟩
  · by_cases hfit : fits = true
    · rw [if_pos hfit]
      rw [chainOf, takeChain_none (hn.resolve_left (not_not.mpr (hf.mp hfit)))]
      exact ⟨_, rfl⟩
    · rw [if_neg hfit]; exact ⟨_, rfl⟩

/-! ### A record closes, a list of records closes (R104, R106) -/

/-- A QUEUED record that closes: it passes to CLOSED and its entry joins the tail of the closed list. -/
theorem closeDamage_queued {o : DamageOutcome} {i : Nat} {d : Damage} (h : s.rpq.damage.read i = some d)
    (hq : d.state = .queued) : (closeDamage o s i).rpq = { s.rpq with
      damage := s.rpq.damage.write i { d with state := .closed o }, closedList := s.rpq.closedList ++ [i] } := by
  simp [closeDamage, moveDamage, h, hq, claimsUp, claimsDown]

/-- QUEUED records that close one after another. -/
theorem foldl_closeDamage {o : DamageOutcome} {l : List Nat} (hn : l.Nodup)
    (hq : ∀ i ∈ l, ∃ d, s.rpq.damage.read i = some d ∧ d.state = .queued) :
    let t := l.foldl (closeDamage o) s
    t.rpq = { s.rpq with damage := t.rpq.damage, closedList := s.rpq.closedList ++ l } ∧
      ∀ j, t.rpq.damage.read j =
        if j ∈ l then (s.rpq.damage.read j).map (fun d => { d with state := .closed o }) else s.rpq.damage.read j := by
  induction l generalizing s with
  | nil => simp
  | cons i r ih =>
    obtain ⟨hi, hr⟩ := List.nodup_cons.mp hn
    obtain ⟨d, hd, hs⟩ := hq i (by simp)
    have he := closeDamage_queued (o := o) hd hs
    have hread : ∀ j, (closeDamage o s i).rpq.damage.read j =
        if j = i then some { d with state := .closed o } else s.rpq.damage.read j := fun j => by
      rw [he]; exact Table.read_write ..
    obtain ⟨h1, h2⟩ := ih (s := closeDamage o s i) hr (fun j hj => by
      have hne : j ≠ i := by rintro rfl; exact hi hj
      rw [hread, if_neg hne]; exact hq j (by simp [hj]))
    refine ⟨?_, fun j => ?_⟩
    · rw [List.foldl_cons, h1, he]; simp
    · rw [List.foldl_cons, h2, hread]
      by_cases hj : j = i
      · subst hj; simp [hi, hd]
      · simp [hj]

theorem foldl_modDamage {f : Damage → Damage} {l : List Nat} (hf : ∀ d, f (f d) = f d) :
    let t := l.foldl (fun u i => u.modDamage i f) s
    t.rpq = { s.rpq with damage := t.rpq.damage } ∧
      ∀ j, t.rpq.damage.read j = if j ∈ l then (s.rpq.damage.read j).map f else s.rpq.damage.read j := by
  induction l generalizing s with
  | nil => simp
  | cons i r ih =>
    obtain ⟨h1, h2⟩ := ih (s := s.modDamage i f)
    refine ⟨?_, fun j => ?_⟩
    · rw [List.foldl_cons, h1]; simp [State.modDamage]
    · rw [List.foldl_cons, h2]
      simp only [State.modDamage, State.setRpq_rpq, Table.read_modify, List.mem_cons]
      by_cases hj : j = i
      · subst hj
        by_cases hr : j ∈ r <;> simp [hr, Function.comp_def, hf]
      · simp [hj]

theorem perm_insertBy {α : Type} (b : α → α → Bool) (x : α) (l : List α) : (insertBy b x l).Perm (x :: l) := by
  induction l with
  | nil => exact .refl _
  | cons y r ih =>
    simp only [insertBy]
    split
    · exact .refl _
    · exact (ih.cons y).trans (.swap x y r)

theorem perm_sortBy {α : Type} (b : α → α → Bool) (l : List α) : (sortBy b l).Perm l := by
  have h : ∀ acc : List α, (l.foldl (fun acc x => insertBy b x acc) acc).Perm (l ++ acc) := by
    induction l with
    | nil => intro acc; exact .refl _
    | cons z r ih =>
      intro acc
      exact ((ih _).trans (List.Perm.append_left r (perm_insertBy b z acc))).trans List.perm_middle
  simpa [sortBy] using h []

/-- The entries whose records meet a condition, each once. -/
theorem mem_damageBySeq (hw : s.rpq.damage.wf = true) (cond : Damage → Bool) (i : Nat) :
    i ∈ s.damageBySeq cond ↔ ∃ d, s.rpq.damage.read i = some d ∧ cond d = true := by
  simp only [State.damageBySeq, List.mem_map, mem_sortBy, List.mem_filter]
  constructor
  · rintro ⟨e, ⟨he, hc⟩, rfl⟩; exact ⟨e.2, Table.read_of_mem hw he, hc⟩
  · rintro ⟨d, hd, hc⟩; exact ⟨(i, d), ⟨Table.mem_of_read hd, hc⟩, rfl⟩

theorem nodup_damageBySeq (hw : s.rpq.damage.wf = true) (cond : Damage → Bool) : (s.damageBySeq cond).Nodup := by
  rw [State.damageBySeq, ((perm_sortBy _ _).map _).nodup_iff]
  have := Table.wf_filter hw (fun e => cond e.2)
  rw [Table.wf_iff] at this
  rw [List.Nodup, List.pairwise_map]
  exact this.imp (fun h => Nat.ne_of_lt h)

/-- R109: a rescan supersedes the frame's QUEUED records and marks its CLAIMED ones. -/
theorem supersede_rpq (hw : s.rpq.damage.wf = true) (h k : Nat) :
    ∃ q : List Nat, (supersede h k s).rpq = { s.rpq with
        damage := (supersede h k s).rpq.damage, closedList := s.rpq.closedList ++ q } ∧ q.Nodup ∧
      (∀ i, i ∈ q ↔ ∃ d, s.rpq.damage.read i = some d ∧ d.isQueued = true ∧ d.handle = h ∧ d.frame = k) ∧
      ∀ i, (supersede h k s).rpq.damage.read i = (s.rpq.damage.read i).map (fun d =>
        if d.handle = h ∧ d.frame = k then d.rescanned else d) := by
  obtain ⟨queued, eq⟩ : ∃ l, l = s.damageBySeq (fun d => d.handle == h && d.frame == k && d.isQueued) := ⟨_, rfl⟩
  obtain ⟨claimed, ec⟩ : ∃ l, l = s.damageBySeq (fun d => d.handle == h && d.frame == k && d.isClaimed) := ⟨_, rfl⟩
  have es : supersede h k s = claimed.foldl (fun t i => t.modDamage i (fun d => { d with stale := true }))
    (queued.foldl (closeDamage .superseded) s) := by rw [eq, ec]; rfl
  have hnq : queued.Nodup := eq ▸ nodup_damageBySeq hw _
  have mq : ∀ i, i ∈ queued ↔ ∃ d, s.rpq.damage.read i = some d ∧ d.isQueued = true ∧ d.handle = h ∧ d.frame = k := by
    intro i; rw [eq, mem_damageBySeq hw]; simp [and_comm, and_assoc]
  have mc : ∀ i, i ∈ claimed ↔ ∃ d, s.rpq.damage.read i = some d ∧ d.isClaimed = true ∧ d.handle = h ∧ d.frame = k := by
    intro i; rw [ec, mem_damageBySeq hw]; simp [and_comm, and_assoc]
  obtain ⟨h1, h2⟩ := foldl_closeDamage (s := s) (o := .superseded) hnq (fun i hi => by
    obtain ⟨d, hd, hq, -⟩ := (mq i).mp hi
    exact ⟨d, hd, by simpa [Damage.isQueued] using hq⟩)
  obtain ⟨h3, h4⟩ := foldl_modDamage (s := queued.foldl (closeDamage .superseded) s)
    (f := fun d : Damage => { d with stale := true }) (l := claimed) (fun _ => rfl)
  refine ⟨queued, ?_, hnq, mq, fun i => ?_⟩
  · rw [es, h3, h1]
  · rw [es, h4, h2]
    cases hd : s.rpq.damage.read i with
    | none => simp
    | some d =>
      have e1 : i ∈ queued ↔ d.isQueued = true ∧ d.handle = h ∧ d.frame = k := by rw [mq]; simp [hd]
      have e2 : i ∈ claimed ↔ d.isClaimed = true ∧ d.handle = h ∧ d.frame = k := by rw [mc]; simp [hd]
      simp only [e1, e2, Option.map_some]
      by_cases hm : d.handle = h ∧ d.frame = k
      · cases hst : d.state <;> simp [hm, Damage.isQueued, Damage.isClaimed, Damage.rescanned, hst]
      · simp [hm]

/-- The counts of a record that closes touch no other figure of its reel (R21). -/
theorem closeDamage_lostArea (o : DamageOutcome) (i j : Nat) :
    ((closeDamage o s i).reel j).map (·.lostArea) = (s.reel j).map (·.lostArea) := by
  unfold closeDamage moveDamage
  cases hd : s.rpq.damage.read i with
  | none => rfl
  | some d =>
    simp only [State.reel, State.modReel, State.setRpq_reg, State.setReg_reg, Table.read_modify]
    by_cases hj : j = d.handle
    · subst hj
      simp only [if_true, Option.map_map]
      cases hr : s.reg.reels.read d.handle with
      | none => rfl
      | some r => cases hst : d.state <;> rfl
    · simp [hj]

theorem supersede_lostArea (h k j : Nat) : ((supersede h k s).reel j).map (·.lostArea) = (s.reel j).map (·.lostArea) := by
  have h1 : ∀ (l : List Nat) (u : State), ((l.foldl (closeDamage .superseded) u).reel j).map (·.lostArea) =
      (u.reel j).map (·.lostArea) := by
    intro l
    induction l with
    | nil => intro u; rfl
    | cons a r ih => intro u; rw [List.foldl_cons, ih, closeDamage_lostArea]
  have h2 : ∀ (l : List Nat) (u : State),
      (l.foldl (fun t i => t.modDamage i (fun d => { d with stale := true })) u).reel j = u.reel j := by
    intro l
    induction l with
    | nil => intro u; rfl
    | cons a r ih => intro u; rw [List.foldl_cons, ih]; rfl
  unfold supersede
  rw [h2, h1]
/-! ### Promotion (R114) -/

theorem Damage.withdrawn_seq (d : Damage) : d.withdrawn.seq = d.seq := by
  unfold Damage.withdrawn; cases d.state <;> rfl

theorem Damage.withdrawn_withdrawn (d : Damage) : d.withdrawn.withdrawn = d.withdrawn := by
  unfold Damage.withdrawn; cases h : d.state <;> simp [h]

/-- Does a reference name a record that is QUEUED? -/
def refersQueued (l : Table Damage) (a : DamageRef) : Bool :=
  (l.read a.index).any (fun d => d.seq == a.seq && d.isQueued)

theorem withdrawRef_rpq (r : DamageRef) : (withdrawRef s r).rpq = { s.rpq with
      damage := (withdrawRef s r).rpq.damage
      closedList := s.rpq.closedList ++ if refersQueued s.rpq.damage r then [r.index] else [] } ∧
    ∀ j, (withdrawRef s r).rpq.damage.read j = (s.rpq.damage.read j).map (fun d =>
      if (⟨j, d.seq⟩ : DamageRef) = r then d.withdrawn else d) := by
  unfold withdrawRef refersQueued
  cases hd : s.rpq.damage.read r.index with
  | none =>
    refine ⟨by simp, fun j => ?_⟩
    cases hj : s.rpq.damage.read j with
    | none => rfl
    | some d =>
      have : j ≠ r.index := by rintro rfl; simp [hd] at hj
      have : (⟨j, d.seq⟩ : DamageRef) ≠ r := fun e => this (by rw [← e])
      simp [hj, this]
  | some d =>
    by_cases hs : d.seq = r.seq
    · have hother : ∀ j, j ≠ r.index → (s.rpq.damage.read j).map (fun d =>
          if (⟨j, d.seq⟩ : DamageRef) = r then d.withdrawn else d) = s.rpq.damage.read j := by
        intro j hj
        have : ∀ d : Damage, (⟨j, d.seq⟩ : DamageRef) ≠ r := fun d e => hj (by rw [← e])
        simp [this]
      have hme : (⟨r.index, d.seq⟩ : DamageRef) = r := by rw [hs]
      have hb : ¬ d.seq ≠ r.seq := not_not.mpr hs
      cases hst : d.state with
      | queued =>
        simp only [hs, ne_eq, not_true, if_false, closeDamage_queued hd hst, Option.any_some, beq_self_eq_true,
          Damage.isQueued, hst, Bool.and_self, if_true, true_and]
        intro j
        rw [Table.read_write]
        by_cases hj : j = r.index
        · subst hj; simp [hd, Damage.withdrawn, hst, hs]
        · rw [if_neg hj, hother j hj]
      | claimed p =>
        refine ⟨by simp [hs, State.modDamage, Damage.isQueued, hst], fun j => ?_⟩
        simp only [hs, ne_eq, not_true, if_false, hst, State.modDamage, State.setRpq_rpq]
        rw [Table.read_modify]
        by_cases hj : j = r.index
        · subst hj; simp [hd, Damage.withdrawn, hst, hs]
        · rw [if_neg hj, hother j hj]
      | closed o =>
        refine ⟨by simp [hs, Damage.isQueued, hst], fun j => ?_⟩
        simp only [hs, ne_eq, not_true, if_false, hst]
        by_cases hj : j = r.index
        · subst hj; simp [hd, Damage.withdrawn, hst, hs]
        · rw [hother j hj]
    · refine ⟨by simp [hs], fun j => ?_⟩
      simp only [ne_eq, hs, not_false_eq_true, if_true]
      cases hj : s.rpq.damage.read j with
      | none => rfl
      | some d' =>
        have : (⟨j, d'.seq⟩ : DamageRef) ≠ r := by
          rintro rfl
          rw [hd] at hj; cases hj; exact hs rfl
        simp [this]

theorem foldl_withdrawRef (l : List DamageRef) : let t := l.foldl withdrawRef s
    t.rpq = { s.rpq with damage := t.rpq.damage, closedList := t.rpq.closedList } ∧
      (∀ j, t.rpq.damage.read j = (s.rpq.damage.read j).map (fun d =>
        if (⟨j, d.seq⟩ : DamageRef) ∈ l then d.withdrawn else d)) ∧
      ((l.map (·.index)).Nodup → t.rpq.closedList =
        s.rpq.closedList ++ (l.filter (refersQueued s.rpq.damage)).map (·.index)) := by
  induction l generalizing s with
  | nil => simp
  | cons r rest ih =>
    obtain ⟨h1, h2⟩ := withdrawRef_rpq (s := s) r
    obtain ⟨k1, k2, k3⟩ := ih (s := withdrawRef s r)
    refine ⟨?_, fun j => ?_, fun hn => ?_⟩
    · rw [List.foldl_cons, k1, h1]
    · rw [List.foldl_cons, k2, h2]
      cases s.rpq.damage.read j with
      | none => rfl
      | some d =>
        simp only [Option.map_some, List.mem_cons]
        by_cases ha : (⟨j, d.seq⟩ : DamageRef) = r
        · rw [if_pos ha]
          simp only [Damage.withdrawn_seq, ha, true_or, if_true, Damage.withdrawn_withdrawn, ite_self]
        · simp [ha]
    · obtain ⟨hni, hnr⟩ := List.nodup_cons.mp hn
      rw [List.foldl_cons, k3 hnr, h1]
      have : rest.filter (refersQueued (withdrawRef s r).rpq.damage) = rest.filter (refersQueued s.rpq.damage) := by
        refine List.filter_congr (fun a ha => ?_)
        have hne : a.index ≠ r.index := fun e => hni (List.mem_map.mpr ⟨a, ha, e⟩)
        have : ∀ d : Damage, (⟨a.index, d.seq⟩ : DamageRef) ≠ r := fun d e => hne (by rw [← e])
        simp [refersQueued, h2, this]
      simp only [this, List.filter_cons]
      split <;> simp

theorem promote_rpq (x : Found) (refs : List DamageRef) : let t := promote x refs s
    t.rpq = { s.rpq with
        damage := t.rpq.damage, closedList := t.rpq.closedList, gate := s.rpq.gate ++ [⟨x.box, x.cls, 0, true⟩] } ∧
      (∀ j, t.rpq.damage.read j = (s.rpq.damage.read j).map (fun d =>
        if (⟨j, d.seq⟩ : DamageRef) ∈ refs then d.withdrawn else d)) ∧
      ((refs.map (·.index)).Nodup → t.rpq.closedList =
        s.rpq.closedList ++ (refs.filter (refersQueued s.rpq.damage)).map (·.index)) := by
  obtain ⟨h1, h2, h3⟩ := foldl_withdrawRef (s := raise .gateDirt (s.setRpq { s.rpq with
    gate := s.rpq.gate ++ [⟨x.box, x.cls, 0, true⟩] })) refs
  refine ⟨?_, ?_, ?_⟩
  · unfold promote; rw [h1]; simp
  · intro j; unfold promote; rw [h2]; simp
  · intro hn; unfold promote; rw [h3 hn]; simp

/-- GATE_DIRT is raised by a promotion (R114). -/
theorem promote_latched (x : Found) (refs : List DamageRef) : LatchedWhereRouted .gateDirt s (promote x refs s) := by
  obtain ⟨u, hu⟩ : ∃ u, u = s.setRpq { s.rpq with gate := s.rpq.gate ++ [⟨x.box, x.cls, 0, true⟩] } := ⟨_, rfl⟩
  have hk : Kept [.reg, .rpq] (raise .gateDirt u) (refs.foldl withdrawRef (raise .gateDirt u)) := by
    simp
  have ha : (promote x refs s).alt = (raise .gateDirt u).alt := by rw [hu] at hk ⊢; exact hk .alt (by simp)
  intro p hp
  rw [ha]
  exact latched_raise (s := s) (t := u) (fun q => by rw [hu]; rfl) p hp

theorem offset_takeRow (row : Nat) (ir : List (BitVec 16)) (v : Survey) : (takeRow row ir v).offset = v.offset := by
  unfold takeRow
  have : ∀ (l : List Span) (u : Survey), (l.foldl (takeRun row ir) u).offset = u.offset := by
    intro l
    induction l with
    | nil => intro u; rfl
    | cons a r ih =>
      intro u
      rw [List.foldl_cons, ih]
      unfold takeRun
      dsimp only
      split
      · rfl
      · split <;> rfl
  exact this _ _

/-! ### Shots: order, reopening (R127, R151) -/

theorem sorted_insertBy {α : Type} (f : α → Nat) (x : α) {l : List α} (h : l.Pairwise (fun a b => f a ≤ f b)) :
    (insertBy (fun a b => decide (f a < f b)) x l).Pairwise (fun a b => f a ≤ f b) := by
  induction l with
  | nil => simp [insertBy]
  | cons y r ih =>
    obtain ⟨h1, h2⟩ := List.pairwise_cons.mp h
    simp only [insertBy, decide_eq_true_eq]
    split
    · next hlt =>
      refine List.pairwise_cons.mpr ⟨fun z hz => ?_, h⟩
      rcases List.mem_cons.mp hz with rfl | hz
      · omega
      · have := h1 z hz; omega
    · next hge =>
      refine List.pairwise_cons.mpr ⟨fun z hz => ?_, ih h2⟩
      rcases (mem_insertBy ..).mp hz with rfl | hz
      · omega
      · exact h1 z hz

theorem sorted_sortBy {α : Type} (f : α → Nat) (l : List α) :
    (sortBy (fun a b => decide (f a < f b)) l).Pairwise (fun a b => f a ≤ f b) := by
  have h : ∀ acc : List α, acc.Pairwise (fun a b => f a ≤ f b) →
      (l.foldl (fun acc x => insertBy (fun a b => decide (f a < f b)) x acc) acc).Pairwise (fun a b => f a ≤ f b) := by
    induction l with
    | nil => exact fun _ h => h
    | cons z r ih => exact fun acc ha => ih _ (sorted_insertBy f z ha)
  exact h [] .nil

theorem mem_shotsOf {h : Nat} {e : Nat × Shot} : e ∈ s.shotsOf h ↔ e ∈ s.sht.pool ∧ e.2.handle = h := by
  simp [State.shotsOf, mem_sortBy]

/-- The reel's last shot is one of its shots, and no shot of the reel starts above it (R127). -/
theorem lastShot_spec {h n : Nat} {y : Shot} (hl : s.lastShot h = some (n, y)) :
    (n, y) ∈ s.sht.pool ∧ y.handle = h ∧ ∀ e ∈ s.shotsOf h, e.2.first ≤ y.first := by
  unfold State.lastShot at hl
  have hm := mem_shotsOf.mp (List.mem_of_getLast? hl)
  refine ⟨hm.1, hm.2, fun e he => ?_⟩
  obtain ⟨init, hi⟩ := List.getLast?_eq_some_iff.mp hl
  have hs := sorted_sortBy (fun z : Nat × Shot => z.2.first) (s.sht.pool.filter (fun e => e.2.handle == h))
  rw [show sortBy _ _ = s.shotsOf h from rfl, hi] at hs
  rw [hi] at he
  rcases List.mem_append.mp he with he | he
  · exact (List.pairwise_append.mp hs).2.2 e he (n, y) (by simp)
  · rw [List.mem_singleton.mp he]

/-- A shot that starts where no shot of its reel starts above it ends at the frontier (R127). -/
theorem shotStop_last {y : Shot} (h : ∀ e ∈ s.shotsOf y.handle, e.2.first ≤ y.first) : s.shotStop y = s.frontier y.handle := by
  have : s.nextShot y = none := by
    unfold State.nextShot
    rw [List.find?_eq_none]
    intro e he; have := h e he; simp; omega
  rw [State.shotStop, this]

/-- A reopened shot is OPEN, every other shot is as it was (R151). -/
theorem reopenShot_read (r n : Nat) : (reopenShot r s).sht.pool.read n =
    (s.sht.pool.read n).map (fun y => if n = r then { y with state := .editable } else y) := by
  unfold reopenShot
  cases hr : s.sht.pool.read r with
  | none =>
    by_cases hn : n = r
    · subst hn; simp [hr]
    · simp [hn]
  | some x =>
    by_cases hx : x.state = .approved
    · simp only [hx, if_true, raise_sht, State.modShot, State.setSht_sht, Table.read_modify]
      by_cases hn : n = r
      · subst hn; simp [hr]
      · simp [hn]
    · have he : { x with state := .editable } = x := by
        cases x with | mk _ _ st _ _ _ => cases st <;> simp_all
      simp only [hx, if_false]
      by_cases hn : n = r
      · subst hn; simp [hr, he]
      · simp [hn]

theorem reopenShot_sht (r : Nat) : (reopenShot r s).sht = { s.sht with pool := (reopenShot r s).sht.pool } := by
  unfold reopenShot
  split
  · split <;> simp [State.modShot]
  · rfl

theorem reopenShot_wf (r : Nat) (h : s.sht.pool.wf = true) : (reopenShot r s).sht.pool.wf = true := by
  unfold reopenShot
  split
  · split
    · simpa [State.modShot] using Table.wf_modify h r _
    · exact h
  · exact h

theorem AlertsGrow.reopenShot (h : AlertsGrow s t) (r : Nat) : AlertsGrow s (reopenShot r t) := by
  refine h.trans ?_
  unfold Machine.reopenShot
  split
  · split
    · exact AlertsGrow.raise (.of_eq (by simp [State.modShot])) _
    · exact .refl _
  · exact .refl _

theorem route_of_cfg (h : t.cfg = s.cfg) (p : Port) : t.route p = s.route p := by
  simp [State.route, State.setting, h]

/-- SHOT_REOPENED is raised for an APPROVED shot that is reopened (R151). -/
theorem latched_reopenShot {n : Nat} {y : Shot} (h : s.sht.pool.read n = some y) (hy : y.state = .approved) :
    LatchedWhereRouted .shotReopened s (reopenShot n s) := by
  unfold reopenShot
  simp only [h, hy, if_true]
  have : LatchedWhereRouted .shotReopened (s.modShot n (fun y => { y with state := .editable }))
    (raise .shotReopened (s.modShot n (fun y => { y with state := .editable }))) := latched_raise (fun _ => rfl)
  intro p hp
  exact this p (by rw [route_of_cfg (s := s) (by simp [State.modShot])]; exact hp)

/-- The shots of a reel that meet a condition are OPEN afterwards; every other shot is as it was (R151). -/
theorem reopenWhere_spec (h : Nat) (cond : Shot → Bool) : let t := reopenWhere h cond s
    t.sht = { s.sht with pool := t.sht.pool } ∧ AlertsGrow s t ∧
      (∀ n, t.sht.pool.read n = (s.sht.pool.read n).map (fun y =>
        if (s.shotsOf h).any (fun z => z.1 == n && cond z.2) then { y with state := .editable } else y)) ∧
      ∀ n y z, s.sht.pool.read n = some y → y.state = .approved → (n, z) ∈ s.shotsOf h → cond z = true →
        LatchedWhereRouted .shotReopened s t := by
  have key : ∀ (l : List (Nat × Shot)) (u : State),
      let t := l.foldl (fun t y => if cond y.2 then reopenShot y.1 t else t) u
      t.sht = { u.sht with pool := t.sht.pool } ∧ AlertsGrow u t ∧
      (∀ n, t.sht.pool.read n = (u.sht.pool.read n).map (fun y =>
        if l.any (fun z => z.1 == n && cond z.2) then { y with state := .editable } else y)) ∧
      (∀ n y z, u.sht.pool.read n = some y → y.state = .approved → (n, z) ∈ l → cond z = true →
        LatchedWhereRouted .shotReopened u t) := by
    intro l
    induction l with
    | nil => intro u; simp [AlertsGrow.refl]
    | cons a r ih =>
      intro u
      by_cases hc : cond a.2 = true
      · obtain ⟨h1, h2, h3, h4⟩ := ih (reopenShot a.1 u)
        simp only [List.foldl_cons, hc, if_true]
        refine ⟨?_, ((AlertsGrow.refl u).reopenShot a.1).trans h2, fun n => ?_, fun n y z hr hy hz hcz => ?_⟩
        · rw [h1, reopenShot_sht]
        · rw [h3, reopenShot_read]
          cases u.sht.pool.read n with
          | none => rfl
          | some y =>
            by_cases hn : a.1 = n
            · simp only [Option.map_some, List.any_cons, hn, hc, if_true]; simp
            · have hn' : ¬n = a.1 := fun e => hn e.symm
              have hb : (a.1 == n) = false := beq_false_of_ne hn
              simp only [Option.map_some, List.any_cons, hb, hn', Bool.false_and, Bool.false_or, if_false]
        · by_cases hn : n = a.1
          · subst hn; exact (latched_reopenShot hr hy).mono h2
          · have hz' : (n, z) ∈ r := by
              rcases List.mem_cons.mp hz with e | e
              · exact absurd (congrArg Prod.fst e) hn
              · exact e
            have := h4 n y z (by rw [reopenShot_read, hr]; simp [hn]) hy hz' hcz
            intro p hp
            exact this p (by rw [route_of_cfg (s := u) (by simp)]; exact hp)
      · obtain ⟨h1, h2, h3, h4⟩ := ih u
        simp only [List.foldl_cons, hc, if_false, Bool.false_eq_true]
        refine ⟨h1, h2, fun n => ?_, fun n y z hr hy hz hcz => ?_⟩
        · rw [h3]
          have hb : cond a.2 = false := by simpa using hc
          simp only [List.any_cons, hb, Bool.and_false, Bool.false_or]
        · refine h4 n y z hr hy ?_ hcz
          rcases List.mem_cons.mp hz with e | e
          · exact absurd (e ▸ hcz) hc
          · exact e
  exact key _ s

/-! ### Making a damage record (R105, R107) -/

theorem Table.firstFree_eq {α : Type} {t : Table α} {n j : Nat} (hj : j < n) (h : t.read j = none)
    (hl : ∀ i, i < j → t.read i ≠ none) : t.firstFree n = some j := by
  cases hk : t.firstFree n with
  | none => exact absurd h (Table.firstFreeFrom_none hk j (Nat.zero_le _) (by omega))
  | some k =>
    obtain ⟨-, k2, k3⟩ := Table.firstFree_spec hk
    rcases Nat.lt_trichotomy j k with hlt | rfl | hgt
    · exact absurd h (k3 j hlt)
    · rfl
    · exact absurd k2 (hl k hgt)

theorem Table.firstFree_full {α : Type} {t : Table α} {n : Nat} (h : ∀ j, j < n → t.read j ≠ none) :
    t.firstFree n = none := by
  cases hk : t.firstFree n with
  | none => rfl
  | some k => exact absurd (Table.firstFree_spec hk).2.1 (h k (Table.firstFree_spec hk).1)

/-- The record a region becomes (R105). -/
def damageOf (s : State) (h k : Nat) (x : Found) : Damage :=
  { seq := s.rpq.counter, handle := h, frame := k, cls := x.cls, severity := x.severity, film := x.film,
    area := x.area, depth := x.depth / x.area, state := .queued, suspect := false, stale := false }

/-- A region takes an entry: the lowest free one, or that of the oldest closed record, whose reel has one closed record
less (R105). -/
def Allocates (s : State) (j : Nat) (closed : List Nat) : Prop :=
  (j < 1024 ∧ s.rpq.damage.read j = none ∧ (∀ i, i < j → s.rpq.damage.read i ≠ none) ∧ closed = s.rpq.closedList) ∨
    ((∀ i, i < 1024 → s.rpq.damage.read i ≠ none) ∧ s.rpq.closedList = j :: closed ∧
      ∃ d o, s.rpq.damage.read j = some d ∧ d.state = .closed o)

theorem allocDamage_of {j : Nat} {closed : List Nat} (h : Allocates s j closed) :
    ∃ t, allocDamage s = some (j, t) ∧ t.rpq = { s.rpq with closedList := closed } ∧ Kept [.reg, .rpq] s t ∧
      (∀ h, t.reel h = match s.rpq.damage.read j with
        | some d => if h = d.handle then (s.reel h).map (fun r => { r with closed := r.closed - 1 }) else s.reel h
        | none => s.reel h) := by
  rcases h with ⟨h1, h2, h3, rfl⟩ | ⟨h1, h2, d, o, h3, h4⟩
  · refine ⟨s, ?_, rfl, .refl _ _, fun h => by rw [h2]⟩
    rw [allocDamage, show Config.damage = 1024 from rfl, Table.firstFree_eq h1 h2 h3]
  · refine ⟨(s.setRpq { s.rpq with closedList := closed }).modReel d.handle (fun r => r.subCount d.state), ?_, ?_, ?_, ?_⟩
    · rw [allocDamage, show Config.damage = 1024 from rfl, Table.firstFree_full h1]; simp only [h2, h3]
    · simp
    · simp
    · intro h
      simp only [h3, State.reel, State.modReel, State.setReg_reg, State.setRpq_reg, Table.read_modify, h4, Reel.subCount]
      by_cases he : h = d.handle
      · subst he; simp
      · simp [he]

/-- R105, R107, R108: a region that takes an entry becomes its record, and a MAJOR one reopens the APPROVED shot its frame
lies in. -/
theorem createDamage_made {h k j : Nat} {x : Found} {closed : List Nat} (ha : Allocates s j closed) :
    ∃ u, createDamage h k x s = (if x.severity = .major then reopenWhere h (fun y => u.shotHas y k) u else u,
        some ⟨j, s.rpq.counter⟩) ∧
      u.rpq = { s.rpq with
        damage := s.rpq.damage.write j (damageOf s h k x), closedList := closed, counter := s.rpq.counter + 1 } ∧
      (s.repairWaiting = false → LatchedWhereRouted .repairWaiting s u) ∧ AlertsGrow s u ∧
      Kept [.reg, .rpq, .alt] s u ∧
      (∀ r, s.reel h = some r → ∃ r', u.reel h = some r' ∧ r'.queued = r.queued + 1 ∧ r'.frontier = r.frontier) ∧
      ∀ d o r, s.rpq.damage.read j = some d → d.state = .closed o → s.reel d.handle = some r →
        ∃ r', u.reel d.handle = some r' ∧ r'.closed = r.closed - 1 := by
  obtain ⟨t, h1, h2, h3, h4⟩ := allocDamage_of ha
  have hd : damageOf t h k x = damageOf s h k x := by simp [damageOf, h2]
  have hw : t.repairWaiting = s.repairWaiting := by simp [State.repairWaiting, h2]
  refine ⟨raiseIf (!t.repairWaiting) .repairWaiting ((t.setRpq { t.rpq with
      damage := t.rpq.damage.write j (damageOf t h k x), counter := t.rpq.counter + 1 }).modReel h
        (fun r => r.addCount .queued)), ?_, ?_, ?_, ?_, ?_, ?_, ?_⟩
  · rw [createDamage, h1]
    simp only [h2, Reel.addCount, damageOf]
  · simp [hd, h2]
  · intro hs
    rw [hw, hs]
    intro p hp
    refine latched_raise (s := s) (e := .repairWaiting) (fun q => route_of_cfg ?_ q) p hp
    have : t.cfg = s.cfg := h3 .cfg (by simp)
    simpa using this
  · have he : t.alt = s.alt := h3 .alt (by simp)
    exact (AlertsGrow.of_eq (by simpa using he)).raiseIf _ _
  · refine Kept.trans (h3.mono (by simp)) ?_
    simp
  · intro r hr
    have ht := h4 h
    simp only [State.reel, raiseIf_reg, State.modReel, State.setReg_reg, State.setRpq_reg, Table.read_modify_same]
    change ∃ r', (t.reel h).map _ = some r' ∧ _
    rw [ht]
    cases s.rpq.damage.read j with
    | none => rw [hr]; exact ⟨_, rfl, rfl, rfl⟩
    | some d =>
      by_cases he : h = d.handle
      · simp only [he, if_true]; rw [← he, hr]; exact ⟨_, rfl, rfl, rfl⟩
      · simp only [he, if_false]; rw [hr]; exact ⟨_, rfl, rfl, rfl⟩
  · intro d o r hj ho hr
    have ht := h4 d.handle
    simp only [hj, if_true] at ht
    simp only [State.reel, raiseIf_reg, State.modReel, State.setReg_reg, State.setRpq_reg, Table.read_modify]
    change ∃ r', (if d.handle = h then (t.reel h).map _ else t.reel d.handle) = some r' ∧ _
    by_cases he : d.handle = h
    · rw [if_pos he, ← he, ht, hr]; exact ⟨_, rfl, rfl⟩
    · rw [if_neg he, ht, hr]; exact ⟨_, rfl, rfl⟩

/-- Without an entry the region is lost (R105). -/
theorem createDamage_lost {h k : Nat} {x : Found} (hf : ∀ i, i < 1024 → s.rpq.damage.read i ≠ none)
    (hc : s.rpq.closedList = []) : createDamage h k x s = (addLostArea h x.area s, none) := by
  rw [createDamage, allocDamage, show Config.damage = 1024 from rfl, Table.firstFree_full hf]
  simp only [hc]

/-! ### The damage of a frame (R108 to R116) -/

/-- What RPQ starts the regions of a frame with. -/
def frameStart (work : List PrevRegion) : FrameDamage :=
  { recorded := 0, suppressed := 0, lost := false, refused := false, work, next := [] }

/-- A region that matches an entry of the gate-dirt list (R112). -/
theorem takeRegion_hit {h k : Nat} {f : Found} {older rest : List GateEntry} {e : GateEntry} (work : List PrevRegion)
    (hg : s.rpq.gate = older ++ e :: rest) (ho : ∀ a ∈ older, ¬SamePlace f.cls f.box a.cls a.box)
    (he : SamePlace f.cls f.box e.cls e.box) : takeRegion h k (frameStart work, s) f =
      ({ frameStart work with suppressed := 1 },
        s.setRpq { s.rpq with gate := older ++ { e with hit := true } :: rest }) := by
  have hc : ¬f.cls = .scratch := he.2.1
  rw [takeRegion, if_neg hc]
  simp only [hg, hitGate_some ho he, frameStart]

/-- A region whose chain reaches GATE_PERSIST, with room in the gate-dirt list (R114). -/
theorem takeRegion_promoted {h k len : Nat} {f : Found} {refs : List DamageRef} {work rest : List PrevRegion}
    (hc : f.cls ≠ .scratch) (hg : ∀ a ∈ s.rpq.gate, ¬SamePlace f.cls f.box a.cls a.box)
    (ht : chainOf f work = (len, refs, rest))
    (hp : s.setting Setting.gatePersist ≤ len) (hn : s.rpq.gate.length < 8) :
    takeRegion h k (frameStart work, s) f =
      ({ frameStart work with suppressed := 1, work := rest }, promote f refs s) := by
  rw [takeRegion, if_neg hc]
  simp only [hitGate_none hg]
  simp only [frameStart, ht, if_neg (Nat.not_lt.mpr hp), show Config.gateEntries = 8 from rfl, if_pos hn]

/-- A region that is recorded: it is a scratch, or its chain is below GATE_PERSIST, or the gate-dirt list is full (R108,
R115). -/
theorem takeRegion_recorded {h k len : Nat} {f : Found} {refs : List DamageRef} {work rest : List PrevRegion}
    (hg : ∀ a ∈ s.rpq.gate, ¬SamePlace f.cls f.box a.cls a.box)
    (ht : chainOf f work = (len, refs, rest))
    (hp : f.cls = .scratch ∨ len < s.setting Setting.gatePersist ∨ 8 ≤ s.rpq.gate.length) :
    ∃ work', takeRegion h k (frameStart work, s) f = recordRegion h k f (if f.cls = .scratch then none else some (len, refs))
      ({ frameStart work' with
          refused := decide (f.cls ≠ .scratch ∧ s.setting Setting.gatePersist ≤ len) }, s) := by
  by_cases hc : f.cls = .scratch
  · exact ⟨work, by rw [takeRegion, if_pos hc]; simp [hc, frameStart]⟩
  · refine ⟨rest, ?_⟩
    rw [takeRegion, if_neg hc]
    simp only [hitGate_none hg]
    by_cases hl : len < s.setting Setting.gatePersist
    · have : ¬ s.setting Setting.gatePersist ≤ len := by omega
      simp only [frameStart, ht, if_pos hl, hc, if_false, this, and_false, decide_false]
    · have h8 : ¬ s.rpq.gate.length < 8 := by
        rcases hp with h | h | h
        · exact absurd h hc
        · exact absurd h hl
        · omega
      have h9 : s.setting Setting.gatePersist ≤ len := by omega
      simp [frameStart, ht, if_neg hl, show Config.gateEntries = 8 from rfl, h8, hc, h9]

/-- RPQ takes a frame without regions (R108, R116). -/
theorem recordDamage_none (h k : Nat) (rescan reanch : Bool) :
    ∃ t, recordDamage h k rescan reanch [] s = t ∧ t.1.recorded = 0 ∧ t.1.suppressed = 0 ∧ t.1.lost = false ∧
      let u := if rescan then supersede h k s else s
      t.2 = u.setRpq { u.rpq with
        gate := agedGate (s.setting Setting.gateAbsent) u.rpq.gate, prev := [], prevFrom := some ⟨h, k⟩ } := by
  refine ⟨_, rfl, rfl, rfl, rfl, ?_⟩
  have : (if rescan then supersede h k s else s).setting Setting.gateAbsent = s.setting Setting.gateAbsent := by
    split <;> simp
  simp only [recordDamage, List.foldl_nil, raiseIf]
  simp [agedGate_eq, this]

/-- RPQ takes a new frame with one region (R108). -/
theorem recordDamage_one (h k : Nat) (reanch : Bool) (f : Found) :
    let fits := !reanch && s.rpq.prevFrom == (if k = 0 then none else some ⟨h, k - 1⟩) && s.rpq.prevFrom.isSome
    let r := takeRegion h k (frameStart (if fits then s.rpq.prev else []), s) f
    recordDamage h k false reanch [f] s = (r.1, raiseIf r.1.refused .gateListFull (raiseIf r.1.lost .damageLost
      (r.2.setRpq { r.2.rpq with
        gate := agedGate (s.setting Setting.gateAbsent) r.2.rpq.gate, prev := r.1.next, prevFrom := some ⟨h, k⟩ }))) :=
  rfl


/-- The alerts have only grown, and SHT has changed by the reopening of shots alone (R107, R151). -/
def Reopens (s t : State) : Prop :=
  AlertsGrow s t ∧ t.sht = { s.sht with pool := t.sht.pool } ∧ ∀ j, t.sht.pool.read j = s.sht.pool.read j ∨
    t.sht.pool.read j = (s.sht.pool.read j).map (fun y => { y with state := .editable })

theorem Reopens.of_eq (ha : AlertsGrow s t) (h : t.sht = s.sht) : Reopens s t := ⟨ha, by rw [h], fun j => .inl (by rw [h])⟩

theorem Reopens.trans (h : Reopens s t) (k : Reopens t u) : Reopens s u := by
  refine ⟨h.1.trans k.1, by rw [k.2.1, h.2.1], fun j => ?_⟩
  rcases h.2.2 j with e | e <;> rcases k.2.2 j with f | f
  · exact .inl (f.trans e)
  · exact .inr (by rw [f, e])
  · exact .inr (f.trans e)
  · refine .inr ?_
    rw [f, e, Option.map_map]
    rfl

theorem reopens_reopenWhere (h : Nat) (cond : Shot → Bool) : Reopens s (reopenWhere h cond s) := by
  obtain ⟨h1, h2, h3, -⟩ := reopenWhere_spec (s := s) h cond
  refine ⟨h2, h1, fun j => ?_⟩
  rw [h3]
  cases (s.shotsOf h).any (fun z => z.1 == j && cond z.2)
  · exact .inl (by simp)
  · exact .inr (by simp)

theorem reopens_createDamage (h k : Nat) (x : Found) : Reopens s (createDamage h k x s).1 := by
  unfold createDamage
  cases ha : allocDamage s with
  | none => exact .of_eq (.of_eq (by simp [addLostArea])) (by simp [addLostArea])
  | some p =>
    have hk : Kept [.reg, .rpq] s p.2 := by
      unfold allocDamage at ha
      split at ha
      · cases ha; exact .refl _ _
      · split at ha
        · cases ha
        · split at ha <;> (cases ha; simp)
    have ha' : p.2.alt = s.alt := hk .alt (by simp)
    have hs' : p.2.sht = s.sht := hk .sht (by simp)
    dsimp only
    split
    · exact (Reopens.of_eq (AlertsGrow.raiseIf (.of_eq (by simp [ha'])) _ _) (by simp [hs'])).trans (reopens_reopenWhere ..)
    · exact .of_eq (AlertsGrow.raiseIf (.of_eq (by simp [ha'])) _ _) (by simp [hs'])

theorem reopens_takeRegion (h k : Nat) (acc : FrameDamage × State) (f : Found) :
    Reopens acc.2 (takeRegion h k acc f).2 := by
  unfold takeRegion
  split
  · exact reopens_createDamage ..
  · split
    · exact .of_eq (.of_eq (by simp)) (by simp)
    · dsimp only
      split
      · exact reopens_createDamage ..
      · split
        · have hk : Kept [.reg, .rpq] (raise .gateDirt (acc.2.setRpq { acc.2.rpq with
              gate := acc.2.rpq.gate ++ [⟨f.box, f.cls, 0, true⟩] }))
              (promote f (chainOf f acc.1.work).2.1 acc.2) := by simp [promote]
          refine .of_eq ?_ (hk .sht (by simp))
          exact (AlertsGrow.raise (.of_eq rfl) .gateDirt).trans (.of_eq (hk .alt (by simp)))
        · exact reopens_createDamage ..

/-- RPQ's step changes no shot but by reopening it (R107, R108). -/
theorem recordDamage_reopens (h k : Nat) (rescan reanch : Bool) (found : List Found) :
    Reopens s (recordDamage h k rescan reanch found s).2 := by
  have hf : ∀ (l : List Found) (acc : FrameDamage × State), Reopens acc.2 (l.foldl (takeRegion h k) acc).2 := by
    intro l
    induction l with
    | nil => exact fun acc => .of_eq (.refl _) rfl
    | cons a r ih => exact fun acc => (reopens_takeRegion h k acc a).trans (ih _)
  have h0 : Reopens s (if rescan then supersede h k s else s) := by
    split
    · exact .of_eq (.of_eq (by simp)) (by simp)
    · exact .of_eq (.refl _) rfl
  let u := if rescan then supersede h k s else s
  have h1 := hf found ({ recorded := 0, suppressed := 0, lost := false, refused := false
                         work := if (!reanch && u.rpq.prevFrom == (if k = 0 then none else some ⟨h, k - 1⟩) &&
                           u.rpq.prevFrom.isSome) then u.rpq.prev else []
                         next := [] }, u)
  refine (h0.trans h1).trans (.of_eq ?_ ?_)
  · exact AlertsGrow.raiseIf (AlertsGrow.raiseIf (.of_eq rfl) _ _) _ _
  · simp only [recordDamage, raiseIf_sht]; rfl

/-- What a reel's record says of the scan and the grade: its frontier, its rescan list, its base layer. -/
def reelScan (r : Reel) : Nat × List FrameRange × Layer := (r.frontier, r.rescan, r.base)

/-- RPQ's step touches no reel's frontier, no rescan list and no base layer (R21, R104). -/
theorem recordDamage_rescan (h k : Nat) (rescan reanch : Bool) (found : List Found) (s : State) (j : Nat) :
   ((recordDamage h k rescan reanch found s).2.reel j).map reelScan = (s.reel j).map reelScan := by
  have hmod : ∀ (u : State) (a : Nat) (f : Reel → Reel), (∀ r, reelScan (f r) = reelScan r) → ((u.modReel a f).reel j).map reelScan = (u.reel j).map reelScan := by
    intro u a f hf
    simp only [State.reel, State.modReel, State.setReg_reg, Table.read_modify]
    by_cases hj : j = a
    · subst hj; simp only [if_true, Option.map_map]; cases u.reg.reels.read j with
      | none => rfl
      | some r => simp [hf r]
    · simp [hj]
  have hreg : ∀ (u w : State), u.reg = w.reg → u.reel j = w.reel j := fun u w e => by simp [State.reel, e]
  have hadd : ∀ (st : DamageState) (r : Reel), reelScan (r.addCount st) = reelScan r := by intro st r; cases st <;> rfl
  have hsub : ∀ (st : DamageState) (r : Reel), reelScan (r.subCount st) = reelScan r := by intro st r; cases st <;> rfl
  have hcl : ∀ (o) (u : State) (i : Nat), ((closeDamage o u i).reel j).map reelScan = (u.reel j).map reelScan := by
    intro o u i
    unfold closeDamage moveDamage
    cases hd : u.rpq.damage.read i with
    | none => rfl
    | some d =>
      refine (hmod _ d.handle _ (fun r => ?_))
      exact (hadd _ _).trans (hsub _ _)
  have hclf : ∀ (o) (l : List Nat) (u : State), ((l.foldl (closeDamage o) u).reel j).map reelScan = (u.reel j).map reelScan := by
    intro o l
    induction l with
    | nil => intro u; rfl
    | cons a r ih => intro u; rw [List.foldl_cons, ih, hcl]
  have hsup : ∀ u : State, ((supersede h k u).reel j).map reelScan = (u.reel j).map reelScan := by
    intro u
    have h2 : ∀ (l : List Nat) (u : State), (l.foldl (fun t i => t.modDamage i (fun d => { d with stale := true })) u).reel j = u.reel j := by
      intro l
      induction l with
      | nil => intro u; rfl
      | cons a r ih => intro u; rw [List.foldl_cons, ih]; rfl
    unfold supersede
    rw [h2, hclf]
  have hcr : ∀ (u : State) (f : Found), ((createDamage h k f u).1.reel j).map reelScan = (u.reel j).map reelScan := by
    intro u f
    unfold createDamage
    cases ha : allocDamage u with
    | none => exact hmod _ _ _ (fun r => rfl)
    | some p =>
      have hp : ((p.2).reel j).map reelScan = (u.reel j).map reelScan := by
        unfold allocDamage at ha
        split at ha
        · cases ha; rfl
        · split at ha
          · cases ha
          · split at ha
            · cases ha; exact hmod _ _ _ (fun r => hsub _ _)
            · cases ha; rfl
      dsimp only
      have key : ∀ d : Damage, ((raiseIf (!p.2.repairWaiting) Event.repairWaiting ((p.2.setRpq { p.2.rpq with
          damage := p.2.rpq.damage.write p.1 d, counter := p.2.rpq.counter + 1 }).modReel h (fun r => r.addCount .queued))).reel j).map reelScan = (u.reel j).map reelScan := by
        intro d
        rw [hreg (raiseIf _ _ _) _ (by simp only [raiseIf_reg]; rfl)]
        exact (hmod _ _ _ (fun r => hadd _ _)).trans hp
      split
      · exact (congrArg _ (hreg _ _ (((kept_reopenWhere (l := [.sht, .alt]) (by simp) (by simp) _ _).mpr (.refl _ _)) .reg (by simp)))).trans (key _)
      · exact key _
  have htr : ∀ (acc : FrameDamage × State) (f : Found), ((takeRegion h k acc f).2.reel j).map reelScan = (acc.2.reel j).map reelScan := by
    intro acc f
    unfold takeRegion
    split
    · exact hcr _ _
    · split
      · rfl
      · dsimp only
        split
        · exact hcr _ _
        · split
          · unfold promote
            have : ∀ (l : List DamageRef) (u : State), ((l.foldl withdrawRef u).reel j).map reelScan = (u.reel j).map reelScan := by
              intro l
              induction l with
              | nil => intro u; rfl
              | cons a r ih =>
                intro u; rw [List.foldl_cons, ih]
                unfold withdrawRef
                split
                · rfl
                · split
                  · rfl
                  · split
                    · exact hcl _ _ _
                    · rfl
                    · rfl
            exact this _ _
          · exact hcr _ _
  have hfl : ∀ (l : List Found) (acc : FrameDamage × State), ((l.foldl (takeRegion h k) acc).2.reel j).map reelScan = (acc.2.reel j).map reelScan := by
    intro l
    induction l with
    | nil => intro acc; rfl
    | cons a r ih => intro acc; rw [List.foldl_cons, ih, htr]
  let u := if rescan then supersede h k s else s
  have h1 := hfl found ({ recorded := 0, suppressed := 0, lost := false, refused := false
                          work := if (!reanch && u.rpq.prevFrom == (if k = 0 then none else some ⟨h, k - 1⟩) &&
                           u.rpq.prevFrom.isSome) then u.rpq.prev else []
                          next := [] }, u)
  have h0 : (u.reel j).map reelScan = (s.reel j).map reelScan := by
    cases rescan
    · rfl
    · exact hsup s
  rw [← h0, ← h1]
  refine congrArg _ (hreg _ _ ?_)
  simp only [recordDamage, raiseIf_reg]; rfl

/-- A row adds its clean cells to the density accumulator: those not below the threshold (R87, R125). -/
theorem accumulate_takeRow (row : Nat) (v : Survey) (ir visible : List (BitVec 16)) (a : Accumulator) :
    accumulate visible (takeRow row ir v).mask a =
      ⟨a.sum + (((List.range 32).filter (fun j => v.threshold ≤ cellAt ir j)).map (cellAt visible)).sum, a.count + ((List.range 32).filter (fun j => v.threshold ≤ cellAt ir j)).length⟩ := by
  have hm : (takeRow row ir v).mask = defectMask v.threshold ir := by
    unfold takeRow
    have : ∀ (l : List Span) (u : Survey), (l.foldl (takeRun row ir) u).mask = u.mask := by
      intro l
      induction l with
      | nil => intro u; rfl
      | cons a r ih =>
        intro u; rw [List.foldl_cons, ih]
        unfold takeRun; dsimp only; split
        · rfl
        · split <;> rfl
    exact this _ _
  have : (List.range 32).filter (fun j => !(defectMask v.threshold ir).contains j) = (List.range 32).filter (fun j => decide (v.threshold ≤ cellAt ir j)) := by
    apply List.filter_congr
    intro j hj
    have hj := List.mem_range.mp hj
    rw [Bool.eq_iff_iff]
    simp [defectMask]
    omega
  simp only [accumulate, hm, this]

end Sys2Proof.Machine
end

