-- ==== Sys2Proof/Laws/Claims.lean ====
section
/-! SUPPORT. What the release of a port's claims does, said once (R121, R123): the records, the counts, the event. -/

namespace Sys2Proof.Machine

variable {s : State}

/-- A claimed record becomes QUEUED: the claim count and the reel's counts follow (R104, R21). -/
theorem moveDamage_unclaim {i : Nat} {d : Damage} {p : Port} (hd : s.rpq.damage.read i = some d)
    (hp : d.state = .claimed p) : moveDamage i .queued s =
      (s.setRpq { s.rpq with
        damage := s.rpq.damage.write i { d with state := .queued }
        claims := s.rpq.claims.set p (s.rpq.claims.get p - 1) }).modReel d.handle
        (fun r => { r with queued := r.queued + 1, claimed := r.claimed - 1 }) := by
  unfold moveDamage
  rw [hd]
  simp only [hp, claimsDown, claimsUp]
  rfl

/-- Claimed records, each named once, become QUEUED one after the other. -/
theorem foldl_unclaim (p : Port) : ∀ (l : List Nat) (s : State), l.Nodup →
    (∀ i ∈ l, ∃ d, s.rpq.damage.read i = some d ∧ d.state = .claimed p) →
    let t := l.foldl (fun u i => moveDamage i .queued u) s
    let of := fun h => (l.filter (fun i => (s.rpq.damage.read i).any (fun d => d.handle == h))).length
    (∀ i, t.rpq.damage.read i =
        (s.rpq.damage.read i).map (fun d => if i ∈ l then { d with state := .queued } else d)) ∧
      t.rpq = { s.rpq with
        damage := t.rpq.damage, claims := s.rpq.claims.set p (s.rpq.claims.get p - l.length) } ∧
      ∀ h, t.reel h = (s.reel h).map (fun r => { r with queued := r.queued + of h, claimed := r.claimed - of h }) := by
  intro l
  induction l with
  | nil =>
    intro s _ _
    refine ⟨by simp, ?_, by simp⟩
    cases p <;> rfl
  | cons i l ih =>
    intro s hn hc t of
    obtain ⟨d, hd, hp⟩ := hc i List.mem_cons_self
    have hi := (List.nodup_cons.mp hn).1
    have hne : ∀ j ∈ l, i ≠ j := fun j hj he => hi (he ▸ hj)
    have e := moveDamage_unclaim hd hp
    have hr : ∀ j, (moveDamage i .queued s).rpq.damage.read j =
        if i = j then some { d with state := .queued } else s.rpq.damage.read j := by
      intro j
      rw [e]
      show Table.read (s.rpq.damage.write i _) j = _
      rw [Table.read_write]
      by_cases hij : i = j <;> simp [hij, eq_comm]
    obtain ⟨a1, a2, a3⟩ := ih (moveDamage i .queued s) (List.nodup_cons.mp hn).2 (fun j hj => by
      obtain ⟨x, h1, h2⟩ := hc j (List.mem_cons_of_mem _ hj)
      exact ⟨x, by rw [hr, if_neg (hne j hj), h1], h2⟩)
    refine ⟨fun j => ?_, ?_, fun h => ?_⟩
    · refine (a1 j).trans ?_
      rw [hr]
      by_cases hj : i = j
      · subst hj; simp [hd, hi]
      · simp [hj, Ne.symm hj]
    · refine a2.trans ?_
      have hb : (moveDamage i .queued s).rpq = { s.rpq with
          damage := s.rpq.damage.write i { d with state := .queued }
          claims := s.rpq.claims.set p (s.rpq.claims.get p - 1) } := by rw [e]; rfl
      rw [hb]
      simp only [Rpq.mk.injEq, true_and, and_true, t]
      cases p <;> simp [PerPort.set, PerPort.get] <;> omega
    · refine (a3 h).trans ?_
      have hof : (l.filter (fun j => ((moveDamage i .queued s).rpq.damage.read j).any (fun x => x.handle == h))).length =
          (l.filter (fun j => (s.rpq.damage.read j).any (fun x => x.handle == h))).length := by
        congr 1
        refine List.filter_congr fun j hj => ?_
        rw [hr, if_neg (hne j hj)]
      simp only [hof]
      rw [e]
      simp only [of, List.filter_cons, hd, Option.any_some]
      simp only [State.reel, State.modReel, State.setReg_reg, State.setRpq_reg, Table.read_modify]
      by_cases hh : d.handle = h
      · subst hh
        simp
        cases s.reg.reels.read d.handle <;> simp
        constructor <;> omega
      · simp [hh, Ne.symm hh]

/-- What each step of a run over a list keeps, the run keeps. -/
theorem foldl_keeps {α β : Type} {f : State → α → State} {g : State → β} (h : ∀ u a, g (f u a) = g u) :
    ∀ (l : List α) (s : State), g (l.foldl f s) = g s
  | [], _ => rfl
  | a :: l, s => (foldl_keeps h l (f s a)).trans (h s a)

theorem moveDamage_confirm (i : Nat) (st : DamageState) (s : State) :
    (moveDamage i st s).reg.confirm = s.reg.confirm := by
  unfold moveDamage; split <;> rfl

theorem moveDamage_wf {s : State} (h : s.rpq.damage.wf = true) (i : Nat) (st : DamageState) :
    (moveDamage i st s).rpq.damage.wf = true := by
  unfold moveDamage
  split
  · exact h
  · exact Table.wf_write h _ _

theorem foldl_wf : ∀ (l : List Nat) (s : State), s.rpq.damage.wf = true →
    (l.foldl (fun u i => moveDamage i .queued u) s).rpq.damage.wf = true
  | [], _, h => h
  | i :: l, _, h => foldl_wf l _ (moveDamage_wf h i .queued)

/-- A record is QUEUED in a table that keeps its form exactly when some entry reads so. -/
theorem repairWaiting_iff (hw : s.rpq.damage.wf = true) :
    s.repairWaiting = true ↔ ∃ i d, s.rpq.damage.read i = some d ∧ d.isQueued = true := by
  simp only [State.repairWaiting, List.any_eq_true]
  exact ⟨fun ⟨e, he, hq⟩ => ⟨e.1, e.2, Table.read_of_mem hw he, hq⟩,
    fun ⟨i, d, hd, hq⟩ => ⟨(i, d), Table.mem_of_read hd, hq⟩⟩

/-- How many of the records in creation order meet a condition. -/
theorem length_damageBySeq (hw : s.rpq.damage.wf = true) (cond : Damage → Bool) (h : Nat) :
    ((s.damageBySeq cond).filter (fun i => (s.rpq.damage.read i).any (fun d => d.handle == h))).length =
      ((s.rpq.damage.filter (fun e => cond e.2)).filter (fun e => e.2.handle == h)).length := by
  rw [State.damageBySeq, List.filter_map, List.length_map, ((perm_sortBy _ _).filter _).length_eq]
  congr 1
  refine List.filter_congr fun e he => ?_
  simp [Table.read_of_mem hw (List.mem_of_mem_filter he)]

/-- R121, R123: the claims of a port are released, and REPAIR_WAITING is raised when that makes the queue non-empty. -/
theorem releaseClaims_spec (p : Port) (hw : s.rpq.damage.wf = true) :
    ∃ t, releaseClaims p s = raiseIf (releaseRaises p s) .repairWaiting t ∧ ClaimsReleased p s t ∧
      t.alt = s.alt ∧ t.cfg = s.cfg ∧ t.reg.confirm = s.reg.confirm := by
  have hm := fun i => mem_damageBySeq hw (·.claimedBy p) i
  obtain ⟨h1, h2, h3⟩ := foldl_unclaim p (s.damageBySeq (·.claimedBy p)) s (nodup_damageBySeq hw _) (fun i hi => by
    obtain ⟨d, hd, hc⟩ := (hm i).mp hi
    exact ⟨d, hd, by simpa [Damage.claimedBy] using hc⟩)
  obtain ⟨t, ht⟩ : ∃ t, t = (s.damageBySeq (·.claimedBy p)).foldl (fun u i => moveDamage i .queued u) s := ⟨_, rfl⟩
  rw [← ht] at h1 h2 h3
  have hr : ∀ i, t.rpq.damage.read i = (s.rpq.damage.read i).map (fun d =>
      if d.claimedBy p then { d with state := .queued } else d) := by
    intro i
    rw [h1]
    cases hd : s.rpq.damage.read i with
    | none => rfl
    | some d => simp [hm, hd]
  have hl : (s.damageBySeq (·.claimedBy p)).length = (s.rpq.damage.filter (fun e => e.2.claimedBy p)).length := by
    rw [State.damageBySeq, List.length_map, (perm_sortBy _ _).length_eq]
  have hq : t.repairWaiting = (s.repairWaiting || s.rpq.damage.any (fun e => e.2.claimedBy p)) := by
    have hq := repairWaiting_iff (s := t) (by rw [ht]; exact foldl_wf _ s hw)
    rw [Bool.eq_iff_iff, hq, Bool.or_eq_true, repairWaiting_iff hw, List.any_eq_true]
    constructor
    · rintro ⟨i, d, hd, hi⟩
      rw [hr] at hd
      obtain ⟨x, hx, rfl⟩ := Option.map_eq_some_iff.mp hd
      by_cases hp : x.claimedBy p = true
      · exact .inr ⟨(i, x), Table.mem_of_read hx, hp⟩
      · exact .inl ⟨i, x, hx, by simpa [hp] using hi⟩
    · rintro (⟨i, d, hd, hi⟩ | ⟨e, he, hp⟩)
      · have hp : d.claimedBy p = false := by
          revert hi; unfold Damage.isQueued Damage.claimedBy; cases d.state <;> simp
        exact ⟨i, d, by simp [hr, hd, hp], hi⟩
      · exact ⟨e.1, { e.2 with state := .queued }, by simp [hr, Table.read_of_mem hw he, hp], rfl⟩
  refine ⟨t, ?_, ⟨hr, ?_, fun h => ?_⟩, ?_, ?_, ?_⟩
  · unfold releaseClaims releaseRaises
    rw [← ht]
    simp only [hq]
    cases s.repairWaiting <;> simp
  · rw [h2, hl]
  · rw [h3 h]
    simp only [length_damageBySeq hw (·.claimedBy p) h]
  · rw [ht]; exact foldl_keeps (g := State.alt) (fun _ _ => by simp) _ _
  · rw [ht]; exact foldl_keeps (g := State.cfg) (fun _ _ => by simp) _ _
  · rw [ht]; exact foldl_keeps (g := fun u => u.reg.confirm) (fun _ _ => moveDamage_confirm _ _ _) _ _

end Sys2Proof.Machine
end

