-- ==== Sys2Proof/Laws/Transport.lean ====
section
/-! SUPPORT. What TRC's operations do, said once: the capstan target and the light level they leave and send, what entering
a state does (R22 to R24, R37), field by field. -/

namespace Sys2Proof.Machine

variable {s : State}

/-! ### Capstan and light -/

@[simp] theorem sendCapstan_capstan (v : Int) : (sendCapstan v s).trc.capstan = v := rfl
@[simp] theorem refreshCapstan_capstan : (refreshCapstan s).trc.capstan = s.capstanTarget := by
  unfold refreshCapstan; split
  · next h => exact h.symm
  · rfl
@[simp] theorem refreshLight_light : (refreshLight s).trc.light = s.lightLevel := by
  unfold refreshLight; split
  · next h => exact h.symm
  · rfl

@[simp] theorem sendCapstan_trc_state (v : Int) : (sendCapstan v s).trc.state = s.trc.state := rfl
@[simp] theorem refreshCapstan_trc_state : (refreshCapstan s).trc.state = s.trc.state := by
  unfold refreshCapstan; split <;> rfl
@[simp] theorem sendLight_trc_state (v : Nat) : (sendLight v s).trc.state = s.trc.state := rfl
@[simp] theorem refreshLight_trc_state : (refreshLight s).trc.state = s.trc.state := by
  unfold refreshLight; split <;> rfl
@[simp] theorem sendCapstan_trc_fault (v : Int) : (sendCapstan v s).trc.fault = s.trc.fault := rfl
@[simp] theorem refreshCapstan_trc_fault : (refreshCapstan s).trc.fault = s.trc.fault := by
  unfold refreshCapstan; split <;> rfl
@[simp] theorem sendLight_trc_fault (v : Nat) : (sendLight v s).trc.fault = s.trc.fault := rfl
@[simp] theorem refreshLight_trc_fault : (refreshLight s).trc.fault = s.trc.fault := by
  unfold refreshLight; split <;> rfl
@[simp] theorem sendCapstan_trc_holds (v : Int) : (sendCapstan v s).trc.holds = s.trc.holds := rfl
@[simp] theorem refreshCapstan_trc_holds : (refreshCapstan s).trc.holds = s.trc.holds := by
  unfold refreshCapstan; split <;> rfl
@[simp] theorem sendLight_trc_holds (v : Nat) : (sendLight v s).trc.holds = s.trc.holds := rfl
@[simp] theorem refreshLight_trc_holds : (refreshLight s).trc.holds = s.trc.holds := by
  unfold refreshLight; split <;> rfl
@[simp] theorem sendCapstan_trc_profile (v : Int) : (sendCapstan v s).trc.profile = s.trc.profile := rfl
@[simp] theorem refreshCapstan_trc_profile : (refreshCapstan s).trc.profile = s.trc.profile := by
  unfold refreshCapstan; split <;> rfl
@[simp] theorem sendLight_trc_profile (v : Nat) : (sendLight v s).trc.profile = s.trc.profile := rfl
@[simp] theorem refreshLight_trc_profile : (refreshLight s).trc.profile = s.trc.profile := by
  unfold refreshLight; split <;> rfl
@[simp] theorem sendCapstan_trc_scanSpeed (v : Int) : (sendCapstan v s).trc.scanSpeed = s.trc.scanSpeed := rfl
@[simp] theorem refreshCapstan_trc_scanSpeed : (refreshCapstan s).trc.scanSpeed = s.trc.scanSpeed := by
  unfold refreshCapstan; split <;> rfl
@[simp] theorem sendLight_trc_scanSpeed (v : Nat) : (sendLight v s).trc.scanSpeed = s.trc.scanSpeed := rfl
@[simp] theorem refreshLight_trc_scanSpeed : (refreshLight s).trc.scanSpeed = s.trc.scanSpeed := by
  unfold refreshLight; split <;> rfl
@[simp] theorem sendCapstan_trc_shuttleTarget (v : Int) : (sendCapstan v s).trc.shuttleTarget = s.trc.shuttleTarget := rfl
@[simp] theorem refreshCapstan_trc_shuttleTarget : (refreshCapstan s).trc.shuttleTarget = s.trc.shuttleTarget := by
  unfold refreshCapstan; split <;> rfl
@[simp] theorem sendLight_trc_shuttleTarget (v : Nat) : (sendLight v s).trc.shuttleTarget = s.trc.shuttleTarget := rfl
@[simp] theorem refreshLight_trc_shuttleTarget : (refreshLight s).trc.shuttleTarget = s.trc.shuttleTarget := by
  unfold refreshLight; split <;> rfl
@[simp] theorem sendLight_trc_capstan (v : Nat) : (sendLight v s).trc.capstan = s.trc.capstan := rfl
@[simp] theorem refreshLight_trc_capstan : (refreshLight s).trc.capstan = s.trc.capstan := by
  unfold refreshLight; split <;> rfl
@[simp] theorem sendCapstan_trc_light (v : Int) : (sendCapstan v s).trc.light = s.trc.light := rfl
@[simp] theorem refreshCapstan_trc_light : (refreshCapstan s).trc.light = s.trc.light := by
  unfold refreshCapstan; split <;> rfl
@[simp] theorem sendCapstan_trc_position (v : Int) : (sendCapstan v s).trc.position = s.trc.position := rfl
@[simp] theorem refreshCapstan_trc_position : (refreshCapstan s).trc.position = s.trc.position := by
  unfold refreshCapstan; split <;> rfl
@[simp] theorem sendLight_trc_position (v : Nat) : (sendLight v s).trc.position = s.trc.position := rfl
@[simp] theorem refreshLight_trc_position : (refreshLight s).trc.position = s.trc.position := by
  unfold refreshLight; split <;> rfl
@[simp] theorem sendCapstan_trc_handle (v : Int) : (sendCapstan v s).trc.handle = s.trc.handle := rfl
@[simp] theorem refreshCapstan_trc_handle : (refreshCapstan s).trc.handle = s.trc.handle := by
  unfold refreshCapstan; split <;> rfl
@[simp] theorem sendLight_trc_handle (v : Nat) : (sendLight v s).trc.handle = s.trc.handle := rfl
@[simp] theorem refreshLight_trc_handle : (refreshLight s).trc.handle = s.trc.handle := by
  unfold refreshLight; split <;> rfl
@[simp] theorem sendCapstan_trc_inch (v : Int) : (sendCapstan v s).trc.inch = s.trc.inch := rfl
@[simp] theorem refreshCapstan_trc_inch : (refreshCapstan s).trc.inch = s.trc.inch := by
  unfold refreshCapstan; split <;> rfl
@[simp] theorem sendLight_trc_inch (v : Nat) : (sendLight v s).trc.inch = s.trc.inch := rfl
@[simp] theorem refreshLight_trc_inch : (refreshLight s).trc.inch = s.trc.inch := by
  unfold refreshLight; split <;> rfl
@[simp] theorem sendCapstan_trc_backupTarget (v : Int) : (sendCapstan v s).trc.backupTarget = s.trc.backupTarget := rfl
@[simp] theorem refreshCapstan_trc_backupTarget : (refreshCapstan s).trc.backupTarget = s.trc.backupTarget := by
  unfold refreshCapstan; split <;> rfl
@[simp] theorem sendLight_trc_backupTarget (v : Nat) : (sendLight v s).trc.backupTarget = s.trc.backupTarget := rfl
@[simp] theorem refreshLight_trc_backupTarget : (refreshLight s).trc.backupTarget = s.trc.backupTarget := by
  unfold refreshLight; split <;> rfl
@[simp] theorem sendCapstan_trc_spliceQueue (v : Int) : (sendCapstan v s).trc.spliceQueue = s.trc.spliceQueue := rfl
@[simp] theorem refreshCapstan_trc_spliceQueue : (refreshCapstan s).trc.spliceQueue = s.trc.spliceQueue := by
  unfold refreshCapstan; split <;> rfl
@[simp] theorem sendLight_trc_spliceQueue (v : Nat) : (sendLight v s).trc.spliceQueue = s.trc.spliceQueue := rfl
@[simp] theorem refreshLight_trc_spliceQueue : (refreshLight s).trc.spliceQueue = s.trc.spliceQueue := by
  unfold refreshLight; split <;> rfl
@[simp] theorem sendCapstan_trc_edgeMark (v : Int) : (sendCapstan v s).trc.edgeMark = s.trc.edgeMark := rfl
@[simp] theorem refreshCapstan_trc_edgeMark : (refreshCapstan s).trc.edgeMark = s.trc.edgeMark := by
  unfold refreshCapstan; split <;> rfl
@[simp] theorem sendLight_trc_edgeMark (v : Nat) : (sendLight v s).trc.edgeMark = s.trc.edgeMark := rfl
@[simp] theorem refreshLight_trc_edgeMark : (refreshLight s).trc.edgeMark = s.trc.edgeMark := by
  unfold refreshLight; split <;> rfl
@[simp] theorem sendCapstan_trc_inZone (v : Int) : (sendCapstan v s).trc.inZone = s.trc.inZone := rfl
@[simp] theorem refreshCapstan_trc_inZone : (refreshCapstan s).trc.inZone = s.trc.inZone := by
  unfold refreshCapstan; split <;> rfl
@[simp] theorem sendLight_trc_inZone (v : Nat) : (sendLight v s).trc.inZone = s.trc.inZone := rfl
@[simp] theorem refreshLight_trc_inZone : (refreshLight s).trc.inZone = s.trc.inZone := by
  unfold refreshLight; split <;> rfl
@[simp] theorem sendCapstan_trc_tensionHigh (v : Int) : (sendCapstan v s).trc.tensionHigh = s.trc.tensionHigh := rfl
@[simp] theorem refreshCapstan_trc_tensionHigh : (refreshCapstan s).trc.tensionHigh = s.trc.tensionHigh := by
  unfold refreshCapstan; split <;> rfl
@[simp] theorem sendLight_trc_tensionHigh (v : Nat) : (sendLight v s).trc.tensionHigh = s.trc.tensionHigh := rfl
@[simp] theorem refreshLight_trc_tensionHigh : (refreshLight s).trc.tensionHigh = s.trc.tensionHigh := by
  unfold refreshLight; split <;> rfl
@[simp] theorem sendCapstan_trc_tensionLow (v : Int) : (sendCapstan v s).trc.tensionLow = s.trc.tensionLow := rfl
@[simp] theorem refreshCapstan_trc_tensionLow : (refreshCapstan s).trc.tensionLow = s.trc.tensionLow := by
  unfold refreshCapstan; split <;> rfl
@[simp] theorem sendLight_trc_tensionLow (v : Nat) : (sendLight v s).trc.tensionLow = s.trc.tensionLow := rfl
@[simp] theorem refreshLight_trc_tensionLow : (refreshLight s).trc.tensionLow = s.trc.tensionLow := by
  unfold refreshLight; split <;> rfl
@[simp] theorem sendCapstan_trc_holdLight (v : Int) : (sendCapstan v s).trc.holdLight = s.trc.holdLight := rfl
@[simp] theorem refreshCapstan_trc_holdLight : (refreshCapstan s).trc.holdLight = s.trc.holdLight := by
  unfold refreshCapstan; split <;> rfl
@[simp] theorem sendLight_trc_holdLight (v : Nat) : (sendLight v s).trc.holdLight = s.trc.holdLight := rfl
@[simp] theorem refreshLight_trc_holdLight : (refreshLight s).trc.holdLight = s.trc.holdLight := by
  unfold refreshLight; split <;> rfl
@[simp] theorem sendCapstan_trc_gateDelay (v : Int) : (sendCapstan v s).trc.gateDelay = s.trc.gateDelay := rfl
@[simp] theorem refreshCapstan_trc_gateDelay : (refreshCapstan s).trc.gateDelay = s.trc.gateDelay := by
  unfold refreshCapstan; split <;> rfl
@[simp] theorem sendLight_trc_gateDelay (v : Nat) : (sendLight v s).trc.gateDelay = s.trc.gateDelay := rfl
@[simp] theorem refreshLight_trc_gateDelay : (refreshLight s).trc.gateDelay = s.trc.gateDelay := by
  unfold refreshLight; split <;> rfl
@[simp] theorem sendCapstan_trc_gateHot (v : Int) : (sendCapstan v s).trc.gateHot = s.trc.gateHot := rfl
@[simp] theorem refreshCapstan_trc_gateHot : (refreshCapstan s).trc.gateHot = s.trc.gateHot := by
  unfold refreshCapstan; split <;> rfl
@[simp] theorem sendLight_trc_gateHot (v : Nat) : (sendLight v s).trc.gateHot = s.trc.gateHot := rfl
@[simp] theorem refreshLight_trc_gateHot : (refreshLight s).trc.gateHot = s.trc.gateHot := by
  unfold refreshLight; split <;> rfl
@[simp] theorem sendCapstan_trc_reportAge (v : Int) : (sendCapstan v s).trc.reportAge = s.trc.reportAge := rfl
@[simp] theorem refreshCapstan_trc_reportAge : (refreshCapstan s).trc.reportAge = s.trc.reportAge := by
  unfold refreshCapstan; split <;> rfl
@[simp] theorem sendLight_trc_reportAge (v : Nat) : (sendLight v s).trc.reportAge = s.trc.reportAge := rfl
@[simp] theorem refreshLight_trc_reportAge : (refreshLight s).trc.reportAge = s.trc.reportAge := by
  unfold refreshLight; split <;> rfl
@[simp] theorem sendLight_trc_silence (v : Nat) : (sendLight v s).trc.silence = s.trc.silence := rfl
@[simp] theorem refreshLight_trc_silence : (refreshLight s).trc.silence = s.trc.silence := by
  unfold refreshLight; split <;> rfl
@[simp] theorem sendCapstan_trc_estop (v : Int) : (sendCapstan v s).trc.estop = s.trc.estop := rfl
@[simp] theorem refreshCapstan_trc_estop : (refreshCapstan s).trc.estop = s.trc.estop := by
  unfold refreshCapstan; split <;> rfl
@[simp] theorem sendLight_trc_estop (v : Nat) : (sendLight v s).trc.estop = s.trc.estop := rfl
@[simp] theorem refreshLight_trc_estop : (refreshLight s).trc.estop = s.trc.estop := by
  unfold refreshLight; split <;> rfl
@[simp] theorem sendCapstan_trc_linkSeen (v : Int) : (sendCapstan v s).trc.linkSeen = s.trc.linkSeen := rfl
@[simp] theorem refreshCapstan_trc_linkSeen : (refreshCapstan s).trc.linkSeen = s.trc.linkSeen := by
  unfold refreshCapstan; split <;> rfl
@[simp] theorem sendLight_trc_linkSeen (v : Nat) : (sendLight v s).trc.linkSeen = s.trc.linkSeen := rfl
@[simp] theorem refreshLight_trc_linkSeen : (refreshLight s).trc.linkSeen = s.trc.linkSeen := by
  unfold refreshLight; split <;> rfl

@[simp] theorem sendLight_light (v : Nat) : (sendLight v s).trc.light = v := rfl

/-- The target of a state depends on TRC's items, the live pitch and the settings only. -/
theorem capstanTarget_congr {t : State} (ht : t.trc = s.trc) (hp : t.pru.live = s.pru.live) (hc : t.cfg = s.cfg) :
    t.capstanTarget = s.capstanTarget := by
  unfold State.capstanTarget State.setting; rw [ht, hp, hc]

theorem lightLevel_congr {t : State} (h1 : t.trc.state = s.trc.state) (h2 : t.trc.gateHot = s.trc.gateHot)
    (h3 : t.trc.holdLight.isSome = s.trc.holdLight.isSome) (hc : t.cfg = s.cfg) : t.lightLevel = s.lightLevel := by
  unfold State.lightLevel State.setting; rw [h1, h2, h3, hc]

/-- Recomputing the target does not change it. -/
@[simp] theorem refreshCapstan_capstanTarget : (refreshCapstan s).capstanTarget = s.capstanTarget := by
  unfold refreshCapstan; split
  · rfl
  · simp [sendCapstan, State.capstanTarget, State.setting, State.send]

/-- In a state where the film stands the target is 0 (R23). -/
theorem capstanTarget_still (h : s.trc.state = .unthreaded ∨ s.trc.state = .threaded ∨ s.trc.state = .hold ∨
    s.trc.state = .fault) : s.capstanTarget = 0 := by
  unfold State.capstanTarget; rcases h with h | h | h | h <;> rw [h]

/-! ### Entering a state -/

/-- The state before capstan and light follow. -/
theorem enter_eq (st : TransportState) : enter st s = refreshLight (refreshCapstan
    ((s.setTrc { s.trc with
        state := st
        holdLight := if st.usesHoldLight then some s.holdLightLoad else none
        tensionHigh := if st.watchesHigh then s.trc.tensionHigh else none
        tensionLow := if st.watchesLow then s.trc.tensionLow else none
        inch := if st = .inching then s.trc.inch else none
        backupTarget := if st = .backup then s.trc.backupTarget else none }).setPru
      (if st = .scanning then s.pru else { s.pru with expect := none }))) := by
  unfold enter; dsimp only; split <;> rfl

@[simp] theorem enter_state (st : TransportState) : (enter st s).trc.state = st := by simp [enter_eq]
@[simp] theorem enter_holdLight (st : TransportState) :
    (enter st s).trc.holdLight = if st.usesHoldLight then some s.holdLightLoad else none := by simp [enter_eq]
@[simp] theorem enter_tensionHigh (st : TransportState) :
    (enter st s).trc.tensionHigh = if st.watchesHigh then s.trc.tensionHigh else none := by simp [enter_eq]
@[simp] theorem enter_tensionLow (st : TransportState) :
    (enter st s).trc.tensionLow = if st.watchesLow then s.trc.tensionLow else none := by simp [enter_eq]
@[simp] theorem enter_inch (st : TransportState) :
    (enter st s).trc.inch = if st = .inching then s.trc.inch else none := by simp [enter_eq]
@[simp] theorem enter_backupTarget (st : TransportState) :
    (enter st s).trc.backupTarget = if st = .backup then s.trc.backupTarget else none := by simp [enter_eq]
@[simp] theorem enter_pru (st : TransportState) :
    (enter st s).pru = if st = .scanning then s.pru else { s.pru with expect := none } := by simp [enter_eq]
@[simp] theorem refreshCapstan_lightLevel : (refreshCapstan s).lightLevel = s.lightLevel :=
  lightLevel_congr (by simp) (by simp) (by simp) (by simp)

/-- The light of the state entered (R24). -/
theorem enter_light (st : TransportState) : (enter st s).trc.light =
    if s.trc.gateHot then 0
    else match st with
      | .scanning => s.setting Setting.lightFull
      | .threaded | .inching | .hold => s.setting Setting.lightHold
      | .unthreaded | .shuttle | .backup | .fault => 0 := by
  simp only [enter_eq, refreshLight_light, refreshCapstan_lightLevel, State.lightLevel]
  cases st <;> simp [TransportState.usesHoldLight, State.setting]

/-- The capstan target of the state entered (R23). -/
theorem enter_capstan (st : TransportState) : (enter st s).trc.capstan =
    match st with
    | .scanning =>
      (((if s.trc.inZone then min s.trc.scanSpeed (s.setting Setting.spliceSpeed) else s.trc.scanSpeed) *
        s.pru.live.pInt / 10 : Nat) : Int)
    | .shuttle => s.trc.shuttleTarget
    | .inching =>
      match s.trc.inch with
      | some i => if i.forward then 1000 * (s.setting Setting.inchSpeed : Int) else -(1000 * (s.setting Setting.inchSpeed : Int))
      | none => 0
    | .backup => -(1000 * (s.setting Setting.inchSpeed : Int))
    | .unthreaded | .threaded | .hold | .fault => 0 := by
  simp only [enter_eq, refreshLight_trc_capstan, refreshCapstan_capstan, State.capstanTarget]
  cases st <;> simp [State.setting] <;> (cases s.trc.inch <;> rfl)

@[simp] theorem enter_trc_fault (st : TransportState) : (enter st s).trc.fault = s.trc.fault := by simp [enter_eq]
@[simp] theorem enter_trc_holds (st : TransportState) : (enter st s).trc.holds = s.trc.holds := by simp [enter_eq]
@[simp] theorem enter_trc_profile (st : TransportState) : (enter st s).trc.profile = s.trc.profile := by simp [enter_eq]
@[simp] theorem enter_trc_scanSpeed (st : TransportState) : (enter st s).trc.scanSpeed = s.trc.scanSpeed := by simp [enter_eq]
@[simp] theorem enter_trc_shuttleTarget (st : TransportState) : (enter st s).trc.shuttleTarget = s.trc.shuttleTarget := by simp [enter_eq]
@[simp] theorem enter_trc_position (st : TransportState) : (enter st s).trc.position = s.trc.position := by simp [enter_eq]
@[simp] theorem enter_trc_handle (st : TransportState) : (enter st s).trc.handle = s.trc.handle := by simp [enter_eq]
@[simp] theorem enter_trc_spliceQueue (st : TransportState) : (enter st s).trc.spliceQueue = s.trc.spliceQueue := by simp [enter_eq]
@[simp] theorem enter_trc_edgeMark (st : TransportState) : (enter st s).trc.edgeMark = s.trc.edgeMark := by simp [enter_eq]
@[simp] theorem enter_trc_inZone (st : TransportState) : (enter st s).trc.inZone = s.trc.inZone := by simp [enter_eq]
@[simp] theorem enter_trc_gateDelay (st : TransportState) : (enter st s).trc.gateDelay = s.trc.gateDelay := by simp [enter_eq]
@[simp] theorem enter_trc_gateHot (st : TransportState) : (enter st s).trc.gateHot = s.trc.gateHot := by simp [enter_eq]
@[simp] theorem enter_trc_reportAge (st : TransportState) : (enter st s).trc.reportAge = s.trc.reportAge := by simp [enter_eq]
@[simp] theorem enter_trc_estop (st : TransportState) : (enter st s).trc.estop = s.trc.estop := by simp [enter_eq]
@[simp] theorem enter_trc_linkSeen (st : TransportState) : (enter st s).trc.linkSeen = s.trc.linkSeen := by simp [enter_eq]

end Sys2Proof.Machine
end

