-- ==== Sys2Proof/Laws/Lines.lean ====
section
/-! SUPPORT. What FCU does with a line report, said once (R72 to R76): with a context FREE, with both OPEN, below next
frame; and that a line which closes no context and ends no run leaves PRU and TRC as they are. -/

namespace Sys2Proof.Machine

variable {s : State} {x : LineReport}

/-- The lowest-numbered FREE context is the one FCU takes. -/
theorem freeCtx_of_lowestFree {c : CtxId} (h : LowestFree s c) : s.fcu.freeCtx = some c := by
  obtain ⟨h1, h2⟩ := h
  cases c with
  | c0 => simp only [Two.get] at h1; simp [Fcu.freeCtx, h1]
  | c1 =>
    have h0 : s.fcu.ctx.zero ≠ none := h2 rfl
    simp only [Two.get] at h1
    simp [Fcu.freeCtx, h1, h0]

theorem freeCtx_of_open (h : ∀ c, s.fcu.ctx.get c ≠ none) : s.fcu.freeCtx = none := by
  have h0 : s.fcu.ctx.zero ≠ none := h .c0
  have h1 : s.fcu.ctx.one ≠ none := h .c1
  simp [Fcu.freeCtx, h0, h1]

theorem seekingGap_none (h : x.seekFrom = none) : seekingGap x s = s := by simp [seekingGap, h]

theorem frameLimit_below {k : Nat} (h : k < 65535) : frameLimit k s = s := by
  have : k ≠ Config.lastFrame := by simp only [Config.lastFrame]; omega
  simp [frameLimit, this]

/-- No context but the one that opens holds the frame: nothing is closed first (R73). -/
theorem captureLine_fresh {c : CtxId} (hs : s.trc.state = .scanning)
    (h : ∀ c y, s.fcu.ctx.get c = some y → y.frame ≠ x.frame) : captureLine c x s = openCtx c x s := by
  unfold captureLine
  cases hy : s.fcu.ctx.get c.other with
  | none => simp [hs]
  | some y => simp [h _ _ hy, hs]

/-- R72, R73: a context is FREE. -/
theorem takeLine_captured {c : CtxId} (hl : x.lock ≠ .seeking) (hg : x.seekFrom = none) (hk : x.frame < 65535)
    (hn : s.fcu.nextFrame ≤ x.frame) (hs : s.trc.state = .scanning)
    (h : ∀ c y, s.fcu.ctx.get c = some y → y.frame ≠ x.frame) (hc : LowestFree s c) :
    takeLine x s = openCtx c x s := by
  unfold takeLine
  rw [if_neg hl, frameLimit_below hk, seekingGap_none hg]
  simp [freeCtx_of_lowestFree hc, captureLine_fresh hs h, Nat.not_lt.mpr hn]

/-- R72, R74: both contexts are OPEN. -/
theorem takeLine_skipped (hl : x.lock ≠ .seeking) (hg : x.seekFrom = none) (hk : x.frame < 65535)
    (hn : s.fcu.nextFrame ≤ x.frame) (h : ∀ c, s.fcu.ctx.get c ≠ none) : takeLine x s = skipLine x.frame s := by
  unfold takeLine
  rw [if_neg hl, frameLimit_below hk, seekingGap_none hg]
  simp [freeCtx_of_open h, Nat.not_lt.mpr hn]

/-- R72: the frame lies below next frame. -/
theorem takeLine_passed (hl : x.lock ≠ .seeking) (hg : x.seekFrom = none) (hk : x.frame < 65535)
    (hn : x.frame < s.fcu.nextFrame) : takeLine x s = s := by
  unfold takeLine
  rw [if_neg hl, frameLimit_below hk, seekingGap_none hg]
  simp [hn]

/-- A line that closes no context and ends no run leaves PRU and TRC alone. -/
theorem takeLine_undisturbed (hs : s.trc.state = .scanning) (h : Undisturbed s x.frame) :
    (takeLine x s).pru = s.pru ∧ (takeLine x s).trc = s.trc := by
  obtain ⟨hk, hu⟩ := h
  unfold takeLine
  rw [frameLimit_below hk]
  split
  · split <;> simp
  · dsimp only
    split
    · simp
    · next hn =>
      have hu : ∀ c y, (seekingGap x s).fcu.ctx.get c = some y → y.frame ≠ x.frame := by
        intro c y hy
        simp only [seekingGap_fcu] at hy hn
        rcases hu with h | h
        · exact absurd h hn
        · exact h c y hy
      split
      · rw [captureLine_fresh (by simpa using hs) hu]; simp
      · simp

/-! ### An edge in the window (R56) -/

/-- The state in which the edge of a report is judged: the counts reset (R38), the edge recorded (R52). -/
def edgeRecorded (p : Int) (s : State) : State :=
  (headReport (quiet s)).setPru { s.pru with lastEdge := some p }

@[simp] theorem edgeRecorded_pru (p : Int) : (edgeRecorded p s).pru = { s.pru with lastEdge := some p } := rfl
@[simp] theorem edgeRecorded_fcu (p : Int) : (edgeRecorded p s).fcu = s.fcu := by simp [edgeRecorded]
@[simp] theorem edgeRecorded_reg (p : Int) : (edgeRecorded p s).reg = s.reg := by simp [edgeRecorded]
@[simp] theorem edgeRecorded_dsu (p : Int) : (edgeRecorded p s).dsu = s.dsu := by simp [edgeRecorded]
@[simp] theorem edgeRecorded_rpq (p : Int) : (edgeRecorded p s).rpq = s.rpq := by simp [edgeRecorded]
@[simp] theorem edgeRecorded_sht (p : Int) : (edgeRecorded p s).sht = s.sht := by simp [edgeRecorded]
@[simp] theorem edgeRecorded_alt (p : Int) : (edgeRecorded p s).alt = s.alt := by simp [edgeRecorded]
@[simp] theorem edgeRecorded_cfg (p : Int) : (edgeRecorded p s).cfg = s.cfg := by simp [edgeRecorded]
@[simp] theorem edgeRecorded_trc (p : Int) : (edgeRecorded p s).trc =
    { s.trc with reportAge := 0, silence := 0, linkSeen := true } := by
  simp only [edgeRecorded, State.setPru_trc, headReport]; split <;> simp

/-- A report at or below the window's end declares no line missing. -/
theorem declareMissing_inside {p : Int} (h : ∀ m, s.pru.expect = some m → p ≤ m.pos + s.pru.windowHalf) (n : Nat) :
    declareMissing n p s = s := by
  cases n with
  | zero => rfl
  | succ n =>
    unfold declareMissing
    split
    · rfl
    · next m hm =>
      have := h m hm
      rw [if_neg (by omega)]

/-- An edge at or above the window's start is the measurement of the expected frame. -/
theorem takeEdge_inWindow {p pk : Int} {k : Nat} (h : Expected s pk k) (hw : pk - s.pru.windowHalf ≤ p) :
    takeEdge p s = completeLine k pk (some p) s := by
  obtain ⟨h1, h2, h3⟩ := h
  unfold takeEdge
  rw [if_neg (by simp [h1]), if_neg h3, h2]
  exact if_neg (by simp only; omega)

/-- An edge in the window of the expected frame is its measurement. -/
theorem execFrameLine_inWindow {p : BitVec 32} {pk : Int} {k : Nat} (h : Expected s pk k)
    (hw : ((p.toInt - pk).natAbs : Int) ≤ s.pru.windowHalf) :
    exec (.frameLine p) s = .next (completeLine k pk (some p.toInt) (edgeRecorded p.toInt s)) := by
  have hx : (edgeRecorded p.toInt s).pru.windowHalf = s.pru.windowHalf := rfl
  have he : Expected (edgeRecorded p.toInt s) pk k := by simpa [Expected] using h
  have hr : (headReport (quiet s)).setPru { (headReport (quiet s)).pru with lastEdge := some p.toInt } =
      edgeRecorded p.toInt s := by simp [edgeRecorded]
  show Host.Outcome.next (takeFrameLine p.toInt (headReport (quiet s))) = _
  have hs : (headReport (quiet s)).trc.state = .scanning := by
    have := congrArg (fun u => u.trc.state) hr
    simpa using this.trans he.1
  unfold takeFrameLine
  rw [hs]
  simp only [reduceCtorEq, if_false, hr]
  rw [if_pos he.1, declareMissing_inside, takeEdge_inWindow he (by omega)]
  intro m hm
  rw [he.2.1] at hm
  cases hm
  simp only
  omega

/-! ### A line completes (R57) -/

/-- Steps 5 and 6 of R57 for a line that closes no context and ends no run: PRU's expectation steps on, or is dropped in
SEEKING. -/
theorem reported {m : Mark} {error : Option Int} {reanch : Bool} {from_ : Option Nat} (hs : s.trc.state = .scanning)
    (h : Undisturbed s m.frame) :
    let t := afterReport m.frame (reportLine m error reanch from_ s)
    t.trc = s.trc ∧ t.fcu = (reportLine m error reanch from_ s).fcu ∧ t.out = (reportLine m error reanch from_ s).out ∧
      t.reg = (reportLine m error reanch from_ s).reg ∧ t.alt = (reportLine m error reanch from_ s).alt ∧
      t.pru = (if s.pru.lock = .seeking then { s.pru with expect := none } else (stepExpectation s).pru) := by
  have hu : Undisturbed s (LineReport.mk m.frame error (rowOffset s.pru.live error) s.pru.lock reanch
    (s.spliceFlag m.pos) from_).frame := h
  obtain ⟨h1, h2⟩ := takeLine_undisturbed hs hu
  change (reportLine m error reanch from_ s).pru = s.pru at h1
  change (reportLine m error reanch from_ s).trc = s.trc at h2
  generalize reportLine m error reanch from_ s = r at h1 h2
  have hr : r.trc.state = .scanning := by rw [h2]; exact hs
  dsimp only
  unfold afterReport
  rw [if_neg (Nat.not_le_of_lt h.1), h1]
  by_cases hl : s.pru.lock = .seeking
  · simp [hl, h2]
  · rw [if_pos ⟨hr, hl⟩, if_neg hl]
    refine ⟨by simp [h2], by simp, by simp, by simp, by simp, ?_⟩
    unfold stepExpectation
    rw [h1]
    split
    · exact h1
    · rfl

end Sys2Proof.Machine
end

