-- ==== Sys2Proof/Laws/Closing.lean ====
section
/-! SUPPORT. What the close of a frame context does, said once (R80): complete at the last row, or INCOMPLETE; the grade of
its record (R138, R139). -/

namespace Sys2Proof.Machine

variable {s t u : State}

/-! ### The frame recorded (R20), the record queued (R82) -/

/-- R20: a completely recorded frame raises the frontier above it and leaves the rescan list; the reel's last shot may be
reopened, and no shot changes otherwise. -/
theorem frameRecorded_complete (h f : Nat) : let t := frameRecorded h f true s
    (∀ j, t.reel j = if j = h then (s.reel h).map (fun r =>
      { r with frontier := max r.frontier (f + 1), rescan := trimFrame r.rescan f }) else s.reel j) ∧
    t.sht = { s.sht with pool := t.sht.pool } ∧ AlertsGrow s t ∧ (s.sht.pool.wf = true → t.sht.pool.wf = true) ∧
    (∀ n, s.sht.pool.read n = none → t.sht.pool.read n = none) ∧
    ∀ n y, s.sht.pool.read n = some y → t.sht.pool.read n = some y ∨
      (t.sht.pool.read n = some { y with state := .editable } ∧
        (y.state = .approved → LatchedWhereRouted .shotReopened s t)) := by
  intro t
  let s1 := if s.frontier h ≤ f then s.modReel h (fun r => { r with frontier := f + 1 }) else s
  let s2 := s1.modReel h (fun r => { r with rescan := trimFrame r.rescan f })
  have hreel : ∀ j, s2.reel j = if j = h then (s.reel h).map (fun r =>
      { r with frontier := max r.frontier (f + 1), rescan := trimFrame r.rescan f }) else s.reel j := by
    intro j
    simp only [s2, s1, State.reel, State.modReel, State.setReg_reg, Table.read_modify]
    by_cases hj : j = h
    · subst hj
      simp only [if_true]
      by_cases hr : s.frontier j ≤ f
      · simp only [hr, if_true, State.setReg_reg, Table.read_modify_same, Option.map_map]
        cases hh : s.reg.reels.read j with
        | none => rfl
        | some r =>
          have : r.frontier ≤ f := by simpa [State.frontier, State.reel, hh] using hr
          have : max r.frontier (f + 1) = f + 1 := by omega
          simp [this]
      · simp only [hr, if_false]
        cases hh : s.reg.reels.read j with
        | none => rfl
        | some r =>
          have : ¬ r.frontier ≤ f := by simpa [State.frontier, State.reel, hh] using hr
          have : max r.frontier (f + 1) = r.frontier := by omega
          simp [this]
    · simp only [hj, if_false]
      by_cases hr : s.frontier h ≤ f
      · simp [hr, Table.read_modify, hj]
      · simp [hr]
  have hk : Kept [.reg] s s2 := by
    simp only [s2, s1]; split <;> simp
  have hs2 : s2.sht = s.sht := hk .sht (by simp)
  have ha2 : s2.alt = s.alt := hk .alt (by simp)
  have hc2 : s2.cfg = s.cfg := hk .cfg (by simp)
  have hgen : ∀ v : State, (if s.frontier h ≤ f then (match v.lastShot h, v.reel h with
      | some y, some r => if rangesMeet r.rescan y.2.first (v.shotStop y.2) then reopenShot y.1 v else v
      | _, _ => v) else v) = v ∨ ∃ n, (if s.frontier h ≤ f then (match v.lastShot h, v.reel h with
      | some y, some r => if rangesMeet r.rescan y.2.first (v.shotStop y.2) then reopenShot y.1 v else v
      | _, _ => v) else v) = reopenShot n v := by
    intro v
    split
    · split
      · split
        · exact .inr ⟨_, rfl⟩
        · exact .inl rfl
      · exact .inl rfl
    · exact .inl rfl
  have ht : t = s2 ∨ ∃ n, t = reopenShot n s2 := by
    have := hgen s2
    simp only [t, frameRecorded, if_true]
    exact this
  rcases ht with ht | ⟨m, ht⟩
  · rw [ht]
    refine ⟨hreel, by rw [hs2], .of_eq ha2, by rw [hs2]; exact id, ?_, ?_⟩
    · intro n hn; rw [hs2]; exact hn
    · intro n y hy; rw [hs2]; exact .inl hy
  · rw [ht]
    refine ⟨?_, ?_, (AlertsGrow.of_eq ha2).reopenShot m, fun hw => reopenShot_wf m (by rw [hs2]; exact hw), ?_, ?_⟩
    · intro j; rw [reopenShot_reel]; exact hreel j
    · rw [reopenShot_sht, hs2]
    · intro n hn; rw [reopenShot_read, hs2, hn]; rfl
    · intro n y hy
      rw [reopenShot_read, hs2, hy]
      by_cases hn : n = m
      · subst hn
        refine .inr ⟨by simp, fun hya => ?_⟩
        have := latched_reopenShot (s := s2) (n := n) (y := y) (by rw [hs2]; exact hy) hya
        intro p hp
        exact this p (by rw [route_of_cfg hc2]; exact hp)
      · exact .inl (by simp [hn])

theorem AlertsGrow.addHold (h : AlertsGrow s t) (c : HoldCause) : AlertsGrow s (addHold c t) := by
  refine h.trans ?_
  unfold Machine.addHold
  split
  · exact .refl _
  · split
    · exact AlertsGrow.raise (.of_eq (by simp)) _
    · exact .of_eq (by simp)

/-- R82: the record joins the tail of the queue, with FRAMES_WAITING when the queue was empty. -/
theorem appendRecord_spec (x : FrameRecord) : let t := appendRecord x s
    t.fcu = { s.fcu with queue := s.fcu.queue ++ [x] } ∧ AlertsGrow s t ∧
      (s.fcu.queue = [] → LatchedWhereRouted .framesWaiting s t) := by
  intro t
  let u := raiseIf s.fcu.queue.isEmpty .framesWaiting (s.setFcu { s.fcu with queue := s.fcu.queue ++ [x] })
  have ht : t = u ∨ t = addHold .backpressure u := by
    simp only [t, appendRecord, u]
    split
    · exact .inr rfl
    · exact .inl rfl
  have hu : u.fcu = { s.fcu with queue := s.fcu.queue ++ [x] } := by simp [u]
  have ha : AlertsGrow s u := AlertsGrow.raiseIf (.of_eq (by simp)) _ _
  have hl : s.fcu.queue = [] → LatchedWhereRouted .framesWaiting s u := by
    intro h
    simp only [u, h, List.isEmpty_nil, raiseIf, if_true]
    exact latched_raise (fun p => route_of_cfg (by simp) p)
  rcases ht with ht | ht
  · rw [ht]; exact ⟨hu, ha, hl⟩
  · rw [ht]
    exact ⟨by simp [hu], ha.addHold _, fun h => (hl h).mono (AlertsGrow.addHold (.refl _) _)⟩

/-! ### The effective grade (R138, R139) -/

theorem channelGraded_foldl : ∀ (l : List Channel) (x : Channel), ChannelGraded x.gain x.lift l (l.foldl applyChannel x)
  | [], _ => rfl
  | c :: l, x => by
    have h := channelGraded_foldl l (applyChannel x c)
    simp only [ChannelGraded, List.foldl_cons]
    have e : (applyChannel x c).lift =
        max (-1023) (min 1023 ((x.lift * (c.gain : Int) + 2048) / 4096 + c.lift)) := by
      simp only [applyChannel, clampInt]; split <;> [skip; split] <;> omega
    rw [e] at h
    exact h

/-- R138: the composition. -/
theorem compose_graded (start : Nat) (base : Layer) (stack : List Layer) :
    Graded start base stack (compose start base stack) :=
  ⟨channelGraded_foldl (base.r :: stack.map (·.r)) ⟨start, 0⟩, channelGraded_foldl (base.g :: stack.map (·.g)) ⟨start, 0⟩,
    channelGraded_foldl (base.b :: stack.map (·.b)) ⟨start, 0⟩⟩

/-- Every shot in use in `s` is in use in `t`, with its stack. -/
def StacksKept (s t : State) : Prop :=
  ∀ n z, s.sht.pool.read n = some z → ∃ z', t.sht.pool.read n = some z' ∧ z'.stack = z.stack

theorem StacksKept.of_pool (h : t.sht.pool = s.sht.pool) : StacksKept s t := fun n z hz => ⟨z, by rw [h]; exact hz, rfl⟩

theorem StacksKept.trans (h : StacksKept s t) (k : StacksKept t u) : StacksKept s u := fun n z hz =>
  have ⟨y, hy, e⟩ := h n z hz
  have ⟨x, hx, e'⟩ := k n y hy
  ⟨x, hx, e'.trans e⟩

theorem Reopens.stacks (h : Reopens s t) : StacksKept s t := fun n z hz => by
  rcases h.2.2 n with e | e
  · exact ⟨z, by rw [e]; exact hz, rfl⟩
  · exact ⟨{ z with state := .editable }, by rw [e, hz]; rfl, rfl⟩

/-- A cut's shot takes a free record (R131). -/
theorem takeFrame_stacks (c : CtxId) (h k : Nat) (d e f : Bool) : StacksKept s (takeFrame c h k d e f s).2 := by
  simp only [takeFrame]
  split
  · split
    · next n hn =>
      intro m z hz
      have hne : m ≠ n := by
        rintro rfl
        rw [(Table.firstFree_spec hn).2.1] at hz
        cases hz
      exact ⟨z, by simp [State.putShot, Table.read_write, hne, hz], rfl⟩
    · exact .of_pool (by simp)
  · exact .of_pool rfl

/-- A grade composed in a state `u` that has kept the reel's base layer, when the close ends with u's shots. -/
theorem recordGraded_of {r : FrameRecord} (hg : r.grade = u.gradeFrom r.flicker r.handle r.shot)
    (hb : ∀ r0, s.reel r.handle = some r0 → ∃ r1, u.reel r.handle = some r1 ∧ r1.base = r0.base)
    (hp : t.sht.pool = u.sht.pool) (hs : StacksKept s t) : RecordGraded s t r := by
  refine ⟨fun r0 z h0 hz => ?_, hs⟩
  obtain ⟨r1, h1, e1⟩ := hb r0 h0
  have : r.grade = compose r.flicker r0.base z.stack := by
    rw [hg]
    simp only [State.gradeFrom, State.baseOf, State.stackOf, h1, ← hp, hz, e1]
  rw [this]
  exact compose_graded ..

/-- SHT's step takes no shot away and none but a cut's adds one (R131). -/
theorem takeFrame_pool (c : CtxId) (h k : Nat) (d e f : Bool) : let r := takeFrame c h k d e f s
    AlertsGrow s r.2 ∧ (r.1.cut = false → r.2.sht.pool = s.sht.pool) := by
  intro r
  simp only [r, takeFrame]
  split
  · split
    · next n hn => exact ⟨.of_eq (by simp [State.putShot]), by intro hc; simp_all⟩
    · exact ⟨(AlertsGrow.raise (.refl s) .shotsFull).trans (.of_eq (by simp)), by simp⟩
  · exact ⟨.of_eq (by simp), by simp⟩


/-! ### The last row (R77, R80) -/

theorem foundRegions_closed (v : Survey) : foundRegions (closeRegions v) = foundRegions v := by
  simp [foundRegions, closeRegions, Function.comp_def]

/-- The OPEN context a row is for, when the row closes no other one (R77). -/
theorem matching_alone {c : CtxId} {x : Ctx} (h : TakenAlone s c x) :
    s.fcu.matching x.frame = some c ∧ (if c = s.fcu.newest then closeCtx s.fcu.older false s else s) = s := by
  obtain ⟨h1, h2⟩ := h
  unfold Fcu.matching Fcu.older
  by_cases hc : c = s.fcu.newest
  · have ho : s.fcu.ctx.get c.other = none := h2.resolve_right (not_not.mpr hc)
    rw [← hc]
    refine ⟨by simp [ho, h1], ?_⟩
    simp [closeCtx, ho]
  · have hn : s.fcu.newest.other = c := by revert hc; cases c <;> cases s.fcu.newest <;> simp [CtxId.other]
    refine ⟨by simp [hn, h1], by simp [hc]⟩

/-- The state in which a context closes once a row in order has been handed on. -/
def rowHanded (c : CtxId) (x : Ctx) (row : Nat) (ir visible : List (BitVec 16)) (s : State) : State :=
  let v := takeRow row ir (s.dsu.get c)
  let t := s.setDsu (s.dsu.set c v)
  let t := t.setSht { t.sht with acc := t.sht.acc.set c (accumulate visible v.mask (t.sht.acc.get c)) }
  t.setCtx c (some { x with nextRow := row + 1 })

/-- Row 23 in order closes the context complete. -/
theorem exec_lastRow {frame : BitVec 16} {ir visible : List (BitVec 16)} {c : CtxId} {x : Ctx}
    (h : LastRow s frame ir visible c x) : exec (.row frame 23 ir visible) s =
      .next (closeCtx c true (rowHanded c x 23 ir visible (headReport (quiet s)))) := by
  obtain ⟨h1, h2, h3, h4, h5⟩ := h
  have ht : TakenAlone (headReport (quiet s)) c x := by simpa [TakenAlone] using h3
  obtain ⟨m1, m2⟩ := matching_alone ht
  have hg : (headReport (quiet s)).fcu.ctx.get c = some x := ht.1
  simp only [exec, execRow, h1, h2, and_self, if_true, takeRowMessage, ← h4, m1, m2, hg]
  simp [h5, rowInOrder, rowHanded]

/-- What the close of a complete frame does, block by block (R80). -/
theorem closeCtx_complete {c : CtxId} {x : Ctx} (hx : s.fcu.ctx.get c = some x) :
    let rescan := decide (x.frame < s.frontier x.handle)
    let r3 := takeFrame c x.handle x.frame true (!rescan) x.splice (surveyDone c x.handle true s)
    let s4 := frameRecorded x.handle x.frame true r3.2
    let r5 := recordDamage x.handle x.frame rescan x.reanch (foundRegions (s.dsu.get c)) s4
    ∃ r, closeCtx c true s = appendRecord r (r5.2.setCtx c none) ∧ r.handle = x.handle ∧ r.frame = x.frame ∧
      r.rescan = rescan ∧ r.recorded = r5.1.recorded ∧ r.suppressed = r5.1.suppressed ∧ r.damageLost = r5.1.lost ∧
      r.cut = r3.1.cut ∧ r.cutLost = r3.1.cutLost ∧ r.shot = r3.1.shot ∧ r.flicker = r3.1.gain ∧ r.incomplete = false ∧
      r.locked = x.locked ∧ r.lineMissing = x.error.isNone ∧ r.splice = x.splice ∧ r.skipped = x.skipped ∧
      r.error = clampInt (-32767) 32767 (x.error.getD 0) ∧ r.density = r3.1.density.m ∧
      r.densityHeld = r3.1.density.held ∧ r.grade = r5.2.gradeFrom r.flicker r.handle r.shot ∧
      r.regionsFull = (s.dsu.get c).full := by
  intro rescan r3 s4 r5
  have hd : (surveyDone c x.handle true s).dsu.get c = closeRegions (s.dsu.get c) := by
    simp only [surveyDone, if_true]; split <;> simp
  have hr5 : damageDone x true rescan (foundRegions ((surveyDone c x.handle true s).dsu.get c)) s4 = r5 := by
    rw [hd, foundRegions_closed]; rfl
  unfold closeCtx
  rw [hx]
  dsimp only
  rw [hr5]
  refine ⟨_, rfl, ?_⟩
  iterate 19 refine And.intro rfl ?_
  show (true && ((surveyDone c x.handle true s).dsu.get c).full) = _
  rw [hd]
  rfl

/-- The reels, RPQ, the shots and the alerts as RPQ finds them at the close of a complete frame, and what stays after it
(R80, steps 2 to 7). -/
theorem lastRow_closes {frame : BitVec 16} {ir visible : List (BitVec 16)} {c : CtxId} {x : Ctx}
    (h : LastRow s frame ir visible c x) :
    let v := takeRow 23 ir (s.dsu.get c)
    let rescan := decide (x.frame < s.frontier x.handle)
    ∃ t r r3 s3 s4 fd s5, exec (.row frame 23 ir visible) s = .next t ∧ t.fcu.queue = s.fcu.queue ++ [r] ∧
      takeFrame c x.handle x.frame true (!rescan) x.splice
        (surveyDone c x.handle true (rowHanded c x 23 ir visible (headReport (quiet s)))) = (r3, s3) ∧
      recordDamage x.handle x.frame rescan x.reanch (foundRegions v) s4 = (fd, s5) ∧
      (r.recorded = fd.recorded ∧ r.suppressed = fd.suppressed ∧ r.damageLost = fd.lost ∧ t.rpq = s5.rpq ∧
        t.reg = s5.reg ∧ t.sht = s5.sht ∧ AlertsGrow s5 t) ∧
      r.cut = r3.cut ∧ r.cutLost = r3.cutLost ∧ r.shot = r3.shot ∧ r.flicker = r3.gain ∧
      s4.rpq = s.rpq ∧ s4.cfg = s.cfg ∧ AlertsGrow s s3 ∧ AlertsGrow s3 s4 ∧ s3.cfg = s.cfg ∧
      (r3.cut = false → s3.sht.pool = s.sht.pool) ∧ s4.sht = { s3.sht with pool := s4.sht.pool } ∧
      (s3.sht.pool.wf = true → s4.sht.pool.wf = true) ∧ (∀ n, s3.sht.pool.read n = none → s4.sht.pool.read n = none) ∧
      (∀ n y, s3.sht.pool.read n = some y → s4.sht.pool.read n = some y ∨
        (s4.sht.pool.read n = some { y with state := .editable } ∧
          (y.state = .approved → LatchedWhereRouted .shotReopened s3 s4))) ∧
      (∀ j, s4.reel j = if j = x.handle then (s.reel j).map (fun r =>
          { r with
            lostArea := if v.lostArea = 0 then r.lostArea else min 65535 (r.lostArea + v.lostArea)
            frontier := max r.frontier (x.frame + 1), rescan := trimFrame r.rescan x.frame })
        else s.reel j) ∧
      (r.handle = x.handle ∧ r.frame = x.frame ∧ r.rescan = rescan ∧ r.incomplete = false ∧ r.locked = x.locked ∧
        r.lineMissing = x.error.isNone ∧ r.splice = x.splice ∧ r.skipped = x.skipped ∧
        r.error = clampInt (-32767) 32767 (x.error.getD 0) ∧ r.density = r3.density.m ∧
        r.densityHeld = r3.density.held ∧ RecordGraded s t r ∧ r.regionsFull = v.full) ∧
      t.fcu = { s.fcu with ctx := s.fcu.ctx.set c none, queue := s.fcu.queue ++ [r] } ∧
      t.dsu = s.dsu.set c (closeRegions v) ∧ (s.fcu.queue = [] → LatchedWhereRouted .framesWaiting s t) := by
  intro v rescan
  obtain ⟨q, hq⟩ : ∃ q, q = rowHanded c x 23 ir visible (headReport (quiet s)) := ⟨_, rfl⟩
  have hqx : q.fcu.ctx.get c = some { x with nextRow := 24 } := by rw [hq]; simp [rowHanded, State.setCtx]
  have hqk : Kept [.trc, .fcu, .dsu, .sht, .out] s q := by
    rw [hq]; simp [rowHanded, State.setCtx]
  have hqr : q.reg = s.reg := hqk .reg (by simp)
  have hqp : q.rpq = s.rpq := hqk .rpq (by simp)
  have hqc : q.cfg = s.cfg := hqk .cfg (by simp)
  have hqa : q.alt = s.alt := hqk .alt (by simp)
  have hqs : q.sht.pool = s.sht.pool := by rw [hq]; simp [rowHanded, State.setCtx]
  have hqd : q.dsu.get c = v := by rw [hq]; simp [rowHanded, State.setCtx, v]
  have hqq : q.fcu.queue = s.fcu.queue := by rw [hq]; simp [rowHanded, State.setCtx]
  have hfr : q.frontier x.handle = s.frontier x.handle := by simp [State.frontier, State.reel, hqr]
  obtain ⟨r, e1, e2, e3, e4, e5, e6, e7, e8, e9, e10, e11, e12⟩ := closeCtx_complete hqx
  dsimp only at e1 e2 e3 e4 e5 e6 e7 e8 e9 e10 e11 e12
  rw [hfr] at e1 e4 e5 e6 e7 e8 e9 e10 e11 e12
  rw [hqd] at e1 e5 e6 e7 e12
  -- the survey's lost cells
  obtain ⟨s2, h2⟩ : ∃ s2, s2 = surveyDone c x.handle true q := ⟨_, rfl⟩
  have hk2 : Kept [.reg, .dsu] q s2 := by rw [h2]; simp
  have hreel2 : ∀ j, s2.reel j = if j = x.handle then (s.reel j).map (fun r =>
      { r with lostArea := if v.lostArea = 0 then r.lostArea else min 65535 (r.lostArea + v.lostArea) })
      else s.reel j := by
    intro j
    have hl : (closeRegions v).lostArea = v.lostArea := rfl
    rw [h2]
    simp only [surveyDone, if_true, hqd, hl]
    by_cases h0 : v.lostArea = 0
    · simp only [h0, Nat.lt_irrefl, if_false, if_true]
      simp only [State.reel, State.setDsu_reg, hqr]
      split
      · cases s.reg.reels.read j <;> rfl
      · rfl
    · simp only [Nat.pos_of_ne_zero h0, if_true, h0, if_false, addLostArea, State.reel, State.modReel, State.setReg_reg,
        State.setDsu_reg, Table.read_modify, hqr]
      by_cases hj : j = x.handle
      · subst hj; rfl
      · simp [hj]
  obtain ⟨⟨r3, s3⟩, h3⟩ : ∃ p, p = takeFrame c x.handle x.frame true (!rescan) x.splice s2 := ⟨_, rfl⟩
  have h3' := h3.symm
  rw [h2] at h3'
  rw [h3'] at e1 e5 e6 e7 e8 e9 e10 e11 e12
  have hk3 : Kept [.sht, .alt] s2 s3 := by
    have : s3 = (takeFrame c x.handle x.frame true (!rescan) x.splice s2).2 := by rw [← h3]
    rw [this]; simp
  obtain ⟨a3, p3⟩ := takeFrame_pool (s := s2) c x.handle x.frame true (!rescan) x.splice
  rw [← h3] at a3 p3
  obtain ⟨f1, f2, f3, fw, f4, f5⟩ := frameRecorded_complete (s := s3) x.handle x.frame
  have hk4 : Kept [.reg, .sht, .alt] s3 (frameRecorded x.handle x.frame true s3) := by simp
  obtain ⟨s4, h4⟩ : ∃ s4, s4 = frameRecorded x.handle x.frame true s3 := ⟨_, rfl⟩
  rw [← h4] at f1 f2 f3 fw f4 f5 hk4 e1 e5 e6 e7 e12
  obtain ⟨⟨fd, s5⟩, h5⟩ : ∃ p, p = recordDamage x.handle x.frame rescan x.reanch (foundRegions v) s4 := ⟨_, rfl⟩
  have hk5 : Kept [.reg, .rpq, .sht, .alt] s4 s5 := by
    have : s5 = (recordDamage x.handle x.frame rescan x.reanch (foundRegions v) s4).2 := by rw [← h5]
    rw [this]; simp
  rw [← h5] at e1 e5 e6 e7 e12
  obtain ⟨g1, g2, g3⟩ := appendRecord_spec (s := s5.setCtx c none) r
  have h54 : s5.fcu = s4.fcu := hk5 .fcu (by simp)
  have h43 : s4.fcu = s3.fcu := hk4 .fcu (by simp)
  have h32 : s3.fcu = s2.fcu := hk3 .fcu (by simp)
  have h2q : s2.fcu = q.fcu := hk2 .fcu (by simp)
  have hqf : q.fcu = { s.fcu with ctx := s.fcu.ctx.set c (some { x with nextRow := 24 }) } := by
    rw [hq]; simp [rowHanded, State.setCtx]
  have hqu : (s5.setCtx c none).fcu.queue = s.fcu.queue := by
    simp [State.setCtx, h54, h43, h32, h2q, hqq]
  have h32p : s3.rpq = s2.rpq := hk3 .rpq (by simp)
  have h43p : s4.rpq = s3.rpq := hk4 .rpq (by simp)
  have h2qp : s2.rpq = q.rpq := hk2 .rpq (by simp)
  have h32c : s3.cfg = s2.cfg := hk3 .cfg (by simp)
  have h43c : s4.cfg = s3.cfg := hk4 .cfg (by simp)
  have h2qc : s2.cfg = q.cfg := hk2 .cfg (by simp)
  have h2qa : s2.alt = q.alt := hk2 .alt (by simp)
  have h2qs : s2.sht = q.sht := hk2 .sht (by simp)
  refine ⟨appendRecord r (s5.setCtx c none), r, r3, s3, s4, fd, s5, ?_, ?_, ?_, h5.symm, ⟨e5, e6, e7, ?_, ?_, ?_, ?_⟩,
    e8, e9, e10, e11, ?_, ?_, ?_, f3, ?_, ?_, f2, fw, f4, f5, ?_,
    ⟨e2, e3, e4, e12.1, e12.2.1, e12.2.2.1, e12.2.2.2.1, e12.2.2.2.2.1, e12.2.2.2.2.2.1, e12.2.2.2.2.2.2.1,
      e12.2.2.2.2.2.2.2.1, recordGraded_of (u := s5) e12.2.2.2.2.2.2.2.2.1 ?_ (by simp [State.setCtx]) ?_,
      e12.2.2.2.2.2.2.2.2.2⟩, ?_, ?_, ?_⟩
  · rw [exec_lastRow h, ← hq, e1]
  · rw [g1, hqu]
  · rw [← hq]; exact h3'
  · simp [State.setCtx]
  · simp [State.setCtx]
  · simp [State.setCtx]
  · exact AlertsGrow.trans (.of_eq (by simp [State.setCtx])) g2
  · rw [h43p, h32p, h2qp, hqp]
  · rw [h43c, h32c, h2qc, hqc]
  · exact AlertsGrow.trans (.of_eq (by rw [h2qa, hqa])) a3
  · rw [h32c, h2qc, hqc]
  · intro hc
    rw [p3 hc, h2qs, hqs]
  · intro j
    have hreg : s3.reg = s2.reg := hk3 .reg (by simp)
    have hr3 : ∀ j, s3.reel j = s2.reel j := fun j => by simp [State.reel, hreg]
    rw [f1]
    simp only [hr3, hreel2]
    by_cases hj : j = x.handle
    · subst hj; simp [Function.comp_def]
    · simp [hj]
  · intro r0 h0
    have hsc := recordDamage_rescan x.handle x.frame rescan x.reanch (foundRegions v) s4 x.handle
    rw [← h5] at hsc
    rw [e2] at h0 ⊢
    have h4r := f1 x.handle
    have hreg : s3.reg = s2.reg := hk3 .reg (by simp)
    rw [if_pos rfl, show s3.reel x.handle = s2.reel x.handle by simp [State.reel, hreg], hreel2, if_pos rfl, h0] at h4r
    rw [h4r] at hsc
    obtain ⟨r1, h1, e⟩ := Option.map_eq_some_iff.mp hsc
    exact ⟨r1, h1, congrArg (·.2.2) e⟩
  · have hs23 : StacksKept s2 s3 := by
      have := takeFrame_stacks (s := s2) c x.handle x.frame true (!rescan) x.splice
      rwa [← h3] at this
    have hs34 : StacksKept s3 s4 := fun n z hz => by
      rcases f5 n z hz with e | e
      · exact ⟨z, e, rfl⟩
      · exact ⟨_, e.1, rfl⟩
    have hs45 : StacksKept s4 s5 := by
      have := (recordDamage_reopens (s := s4) x.handle x.frame rescan x.reanch (foundRegions v)).stacks
      rwa [← h5] at this
    exact (((StacksKept.of_pool (by rw [h2qs, hqs])).trans hs23).trans (hs34.trans hs45)).trans
      (.of_pool (by simp [State.setCtx]))
  · rw [g1]
    simp [State.setCtx, h54, h43, h32, h2q, hqf, Two.set_set]
  · have h54d : s5.dsu = s4.dsu := hk5 .dsu (by simp)
    have h43d : s4.dsu = s3.dsu := hk4 .dsu (by simp)
    have h32d : s3.dsu = s2.dsu := hk3 .dsu (by simp)
    have hd2 : s2.dsu = q.dsu.set c (closeRegions v) := by
      rw [h2, ← hqd]; simp only [surveyDone, if_true]; split <;> simp [addLostArea]
    have hd3 : q.dsu = s.dsu.set c v := by rw [hq]; simp [rowHanded, State.setCtx, v]
    simp [State.setCtx, h54d, h43d, h32d, hd2, hd3, Two.set_set]
  · intro he
    have hl := g3 (by rw [hqu]; exact he)
    have h32a : s3.cfg = s.cfg := by rw [h32c, h2qc, hqc]
    intro p hp
    refine hl p ?_
    have : (s5.setCtx c none).cfg = s.cfg := by
      have h54c : s5.cfg = s4.cfg := hk5 .cfg (by simp)
      simp [State.setCtx, h54c, h43c, h32a]
    rw [route_of_cfg this]; exact hp


/-! ### The INCOMPLETE close (R80, R81) -/

theorem reopenWhere_reel (h : Nat) (cond : Shot → Bool) (j : Nat) : (reopenWhere h cond s).reel j = s.reel j := by
  have : (reopenWhere h cond s).reg = s.reg :=
    ((kept_reopenWhere (l := [.sht, .alt]) (by simp) (by simp) h cond).mpr (.refl _ s)) .reg (by simp)
  simp [State.reel, this]

theorem reopens_rescanAdd (h : Nat) (x : FrameRange) : Reopens s (rescanAdd h x s) ∧
    (∀ j, (rescanAdd h x s).reel j =
      if j = h then (s.reel j).map (fun r => { r with rescan := addRange r.rescan x }) else s.reel j) := by
  unfold rescanAdd
  cases hr : s.reel h with
  | none => exact ⟨.of_eq (.refl _) rfl, fun j => by by_cases hj : j = h <;> simp [hj, hr]⟩
  | some r =>
    dsimp only
    split
    · next e =>
      refine ⟨.of_eq (.refl _) rfl, fun j => ?_⟩
      by_cases hj : j = h
      · subst hj; rw [hr, if_pos rfl, Option.map_some, e]
      · simp [hj]
    · refine ⟨(Reopens.of_eq (AlertsGrow.raise (.of_eq (by simp)) _) (by simp)).trans (reopens_reopenWhere ..), fun j => ?_⟩
      rw [reopenWhere_reel]
      simp only [State.reel, raise_reg, State.modReel, State.setReg_reg, Table.read_modify]
      by_cases hj : j = h
      · subst hj
        rw [if_pos rfl, if_pos rfl, show s.reg.reels.read j = some r from hr]; rfl
      · simp [hj]

/-- R20: an INCOMPLETE frame raises the frontier above it and joins the rescan list. -/
theorem frameRecorded_incomplete (h f : Nat) : let t := frameRecorded h f false s
    Reopens s t ∧ ∀ j, t.reel j = if j = h then (s.reel h).map (fun r =>
      { r with frontier := max r.frontier (f + 1), rescan := addRange r.rescan ⟨f, f⟩ }) else s.reel j := by
  intro t
  let s1 := if s.frontier h ≤ f then s.modReel h (fun r => { r with frontier := f + 1 }) else s
  obtain ⟨hr, hrl⟩ := reopens_rescanAdd (s := s1) h ⟨f, f⟩
  have h1 : Reopens s s1 := by
    simp only [s1]; split
    · exact .of_eq (.of_eq (by simp)) (by simp)
    · exact .of_eq (.refl _) rfl
  have hreel1 : ∀ j, s1.reel j = if j = h then (s.reel h).map (fun r => { r with frontier := max r.frontier (f + 1) })
      else s.reel j := by
    intro j
    by_cases hf : s.frontier h ≤ f
    · simp only [s1, hf, if_true, State.reel, State.modReel, State.setReg_reg, Table.read_modify]
      by_cases hj : j = h
      · subst hj
        simp only [if_true]
        cases hh : s.reg.reels.read j with
        | none => rfl
        | some r =>
          have : r.frontier ≤ f := by simpa [State.frontier, State.reel, hh] using hf
          have : max r.frontier (f + 1) = f + 1 := by omega
          simp [this]
      · simp [hj]
    · simp only [s1, hf, if_false]
      by_cases hj : j = h
      · subst hj
        simp only [if_true]
        cases hh : s.reel j with
        | none => rfl
        | some r =>
          have : ¬ r.frontier ≤ f := by simpa [State.frontier, hh] using hf
          have : max r.frontier (f + 1) = r.frontier := by omega
          simp [this]
      · simp [hj]
  obtain ⟨s2, hs2⟩ : ∃ s2, s2 = rescanAdd h ⟨f, f⟩ s1 := ⟨_, rfl⟩
  have ht : t = s2 ∨ ∃ n, t = reopenShot n s2 := by
    have hgen : ∀ v : State, (if s.frontier h ≤ f then (match v.lastShot h, v.reel h with
        | some y, some r => if rangesMeet r.rescan y.2.first (v.shotStop y.2) then reopenShot y.1 v else v
        | _, _ => v) else v) = v ∨ ∃ n, (if s.frontier h ≤ f then (match v.lastShot h, v.reel h with
        | some y, some r => if rangesMeet r.rescan y.2.first (v.shotStop y.2) then reopenShot y.1 v else v
        | _, _ => v) else v) = reopenShot n v := by
      intro v
      split
      · split
        · split
          · exact .inr ⟨_, rfl⟩
          · exact .inl rfl
        · exact .inl rfl
      · exact .inl rfl
    have := hgen s2
    rw [hs2] at this ⊢
    simp only [t, frameRecorded, Bool.false_eq_true, if_false]
    exact this
  have hreel2 : ∀ j, s2.reel j = if j = h then (s.reel h).map (fun r =>
      { r with frontier := max r.frontier (f + 1), rescan := addRange r.rescan ⟨f, f⟩ }) else s.reel j := by
    intro j
    rw [hs2, hrl, hreel1]
    by_cases hj : j = h
    · simp only [hj, if_true, Option.map_map]; rfl
    · simp [hj]
  have h2 : Reopens s s2 := hs2 ▸ h1.trans hr
  rcases ht with ht | ⟨n, ht⟩
  · rw [ht]; exact ⟨h2, hreel2⟩
  · rw [ht]
    refine ⟨h2.trans ⟨(AlertsGrow.refl _).reopenShot n, reopenShot_sht n, fun j => ?_⟩, fun j => ?_⟩
    · rw [reopenShot_read]
      by_cases hj : j = n
      · exact .inr (by simp [hj])
      · exact .inl (by simp [hj])
    · rw [reopenShot_reel]; exact hreel2 j

/-- What the INCOMPLETE close of a context does (R80, R81, R101, R110, R126, R134). -/
theorem closeCtx_incomplete {c : CtxId} {x : Ctx} (hx : s.fcu.ctx.get c = some x) : let t := closeCtx c false s
    ∃ r, t.fcu = { s.fcu with ctx := s.fcu.ctx.set c none, queue := s.fcu.queue ++ [r] } ∧ IncompleteRecord s x r ∧
      ListedIncomplete s x t ∧ t.rpq = { s.rpq with prev := [], prevFrom := none } ∧
      (s.fcu.queue = [] → LatchedWhereRouted .framesWaiting s t) ∧ AlertsGrow s t ∧ t.dsu = s.dsu ∧
      t.sht.acc = s.sht.acc ∧ RecordGraded s t r := by
  intro t
  obtain ⟨⟨r3, s3⟩, h3⟩ : ∃ p, p = takeFrame c x.handle x.frame false (!decide (x.frame < s.frontier x.handle)) x.splice s :=
    ⟨_, rfl⟩
  obtain ⟨s4, h4⟩ : ∃ s4, s4 = frameRecorded x.handle x.frame false s3 := ⟨_, rfl⟩
  obtain ⟨b3, -⟩ := takeFrame_pool (s := s) c x.handle x.frame false (!decide (x.frame < s.frontier x.handle)) x.splice
  rw [← h3] at b3
  have k3 : Kept [.sht, .alt] s s3 := by
    have : s3 = (takeFrame c x.handle x.frame false (!decide (x.frame < s.frontier x.handle)) x.splice s).2 := by rw [← h3]
    rw [this]; simp
  have hd : densityOf false (s.sht.acc.get c) s.sht.previousM = ⟨s.sht.previousM.getD 512, true⟩ := by simp [densityOf]
  have hr3 : r3.density = ⟨s.sht.previousM.getD 512, true⟩ ∧ r3.cut = false ∧ r3.cutLost = false ∧
      r3.gain = s.sht.previousF ∧ s3.sht.acc = s.sht.acc ∧
      ∀ n y, s.shotAt x.handle x.frame = some (n, y) → r3.shot = n := by
    unfold takeFrame at h3
    simp only [hd] at h3
    obtain ⟨rfl, rfl⟩ := Prod.mk.inj h3
    have hcand : s.cutCandidate x.frame (!decide (x.frame < s.frontier x.handle)) x.splice
        ⟨s.sht.previousM.getD 512, true⟩ = false := by simp [State.cutCandidate]
    refine ⟨by simp, by simp [hcand], by simp [hcand], by simp [hcand, flickerGain], by simp [hcand], fun n y h => ?_⟩
    simp [hcand, h]
  obtain ⟨f1, f2⟩ := frameRecorded_incomplete (s := s3) x.handle x.frame
  rw [← h4] at f1 f2
  have k4 : Kept [.reg, .sht, .alt] s3 s4 := by rw [h4]; simp
  obtain ⟨r, hr⟩ : ∃ r : FrameRecord, r = 
      { handle := x.handle, frame := x.frame, locked := x.locked, lineMissing := x.error.isNone, splice := x.splice
        incomplete := true, rescan := decide (x.frame < s.frontier x.handle), regionsFull := false, damageLost := false
        cut := r3.cut, cutLost := r3.cutLost, densityHeld := r3.density.held
        error := clampInt (-32767) 32767 (x.error.getD 0), skipped := x.skipped
        density := r3.density.m, flicker := r3.gain, recorded := 0, suppressed := 0
        shot := r3.shot, grade := (breakChains s4).gradeFrom r3.gain x.handle r3.shot } := ⟨_, rfl⟩
  have ht : t = appendRecord r ((breakChains s4).setCtx c none) := by
    simp only [t, closeCtx, hx, surveyDone, damageDone, Bool.false_eq_true, if_false, Bool.not_false, Bool.false_and]
    rw [← h3]
    dsimp only
    rw [← h4, hr]
  obtain ⟨g1, g2, g3⟩ := appendRecord_spec (s := (breakChains s4).setCtx c none) r
  have hf4 : s4.fcu = s.fcu := (k4 .fcu (by simp)).trans (k3 .fcu (by simp))
  have hd4 : s4.dsu = s.dsu := (k4 .dsu (by simp)).trans (k3 .dsu (by simp))
  have hp4 : s4.rpq = s.rpq := (k4 .rpq (by simp)).trans (k3 .rpq (by simp))
  have hc4 : s4.cfg = s.cfg := (k4 .cfg (by simp)).trans (k3 .cfg (by simp))
  have hg3 : s3.reg = s.reg := k3 .reg (by simp)
  rw [ht]
  obtain ⟨q1, q2, q3, q4, q5, q6⟩ := hr3
  refine ⟨r, ?_, ?_, ⟨fun r0 h0 => ?_, fun h hh => ?_⟩, ?_, fun he => ?_, ?_, ?_, ?_,
    recordGraded_of (u := breakChains s4) (by rw [hr]) (fun r0 h0 => ?_) (by simp [State.setCtx]) ?_⟩
  · rw [g1]; simp [State.setCtx, breakChains, hf4]
  · rw [hr]; simpa [IncompleteRecord, q1, q2, q3, q4] using q6
  · have := f2 x.handle
    rw [if_pos rfl, show s3.reel x.handle = some r0 by simpa [State.reel, hg3] using h0] at this
    simpa [State.reel, State.setCtx, breakChains] using this
  · have := f2 h
    rw [if_neg hh, show s3.reel h = s.reel h by simp [State.reel, hg3]] at this
    simpa [State.reel, State.setCtx, breakChains] using this
  · simp [State.setCtx, breakChains, hp4]
  · intro p hp
    refine g3 (by simpa [State.setCtx, breakChains, hf4] using he) p ?_
    rw [route_of_cfg (s := s) (by simp [State.setCtx, breakChains, hc4])]; exact hp
  · exact ((b3.trans f1.1).trans (.of_eq (by simp [State.setCtx, breakChains]))).trans g2
  · simp [State.setCtx, breakChains, hd4]
  · simp only [appendRecord_sht, State.setCtx, State.setFcu_sht, breakChains, State.setRpq_sht]
    rw [f1.2.1]; exact q5
  · have hh : r.handle = x.handle := by rw [hr]
    rw [hh] at h0 ⊢
    have := f2 x.handle
    rw [if_pos rfl, show s3.reel x.handle = some r0 by simpa [State.reel, hg3] using h0] at this
    exact ⟨_, (show (breakChains s4).reel x.handle = s4.reel x.handle by simp [State.reel, breakChains]).trans this, rfl⟩
  · have h03 : StacksKept s s3 := by
      have := takeFrame_stacks (s := s) c x.handle x.frame false (!decide (x.frame < s.frontier x.handle)) x.splice
      rwa [← h3] at this
    exact (h03.trans f1.stacks).trans (.of_pool (by simp [State.setCtx, breakChains]))

end Sys2Proof.Machine
end

