-- ==== Sys2Proof/Laws/Placing.lean ====
section
/-! SUPPORT. PRU's arithmetic, said once: one step of the prediction (R50) and the placement of the expectation from the
anchor (R51, R63). -/

namespace Sys2Proof.Machine

/-- R50: the two carries of a step. -/
theorem stepPitch_carries (p : Pitch) (a1 a2 : Nat) :
    CarriedOn p a1 a2 (stepPitch p a1 a2).rise (stepPitch p a1 a2).a1 (stepPitch p a1 a2).a2 := by
  refine ⟨_, _, rfl, ?_, rfl, ?_, rfl⟩
  · simp only [stepPitch]; split <;> omega
  · simp only [stepPitch]; split <;> split <;> omega

/-- R50: a step has one outcome. -/
theorem CarriedOn.eq_stepPitch {p : Pitch} {a1 a2 rise b1 b2 : Nat} (h : CarriedOn p a1 a2 rise b1 b2) :
    stepPitch p a1 a2 = ⟨b1, b2, rise⟩ := by
  obtain ⟨c1, c2, rfl, h2, rfl, h1, rfl⟩ := h
  simp only [stepPitch, Stepped.mk.injEq, and_true]
  refine ⟨?_, ?_⟩
  · revert h1; split <;> split <;> intro h1 <;> simp_all <;> omega
  · revert h2; split <;> omega

theorem predict_eq_linePosition (p : Pitch) (m : Mark) (k : Nat) :
    predict p m.pos ((k : Int) - m.frame) = linePosition p m k := by
  simp [predict, linePosition, Pitch.den]

/-- R51: a line lies above a position exactly from the least number ahead on. -/
theorem leastAhead_le_iff {p : Pitch} (hn : 0 < p.num) (hm : 0 < p.m2) (m : Mark) (position : Int) (k : Nat) :
    position < linePosition p m k ↔ leastAhead p m.pos position ≤ (k : Int) - m.frame := by
  have hd : (0 : Int) < p.den := by simp only [Pitch.den]; omega
  have hn : (0 : Int) < p.num := by omega
  rw [← predict_eq_linePosition]
  generalize (k : Int) - m.frame = n
  have hnum : n * (p.num : Int) = n * p.pInt * p.den + n * ((p.f1 * p.m2 + p.f2 : Nat) : Int) := by
    simp only [Pitch.num, Pitch.pu, Pitch.den]; push_cast; ring
  have h1 : position < predict p m.pos n ↔ (position - m.pos + 1) * (p.den : Int) ≤ n * p.num := by
    have : position < predict p m.pos n ↔
        position - m.pos + 1 - n * p.pInt ≤ (n * ((p.f1 * p.m2 + p.f2 : Nat) : Int)) / (p.den : Int) := by
      unfold predict
      generalize n * ((p.f1 * p.m2 + p.f2 : Nat) : Int) / (p.den : Int) = z
      generalize n * (p.pInt : Int) = y
      omega
    rw [this, Int.le_ediv_iff_mul_le hd, hnum]
    constructor <;> intro h <;> nlinarith
  rw [h1]
  unfold leastAhead
  generalize (position - m.pos + 1) * (p.den : Int) = a
  rw [neg_le, Int.le_ediv_iff_mul_le hn]
  constructor <;> intro h <;> linarith

/-- R51, R63: PRU places its expectation. -/
theorem placeExpectation_placed {s : State} {m : Mark} (hn : 0 < s.pru.live.num) (hm : 0 < s.pru.live.m2)
    (h : s.pru.anchor = some m) : Placed s.trc.position m s.pru (placeExpectation s).pru := by
  have hl := leastAhead_le_iff hn hm m s.trc.position
  have hk : ∀ k : Nat, (k ≤ 65535 ∧ s.trc.position < linePosition s.pru.live m k) ↔
      k ≤ 65535 ∧ (max 0 ((m.frame : Int) + leastAhead s.pru.live m.pos s.trc.position)).toNat ≤ k := by
    intro k; rw [hl]; omega
  have hp : placeFrame s.pru.live m s.trc.position =
      (if (max 0 ((m.frame : Int) + leastAhead s.pru.live m.pos s.trc.position)).toNat ≤ 65535
        then some (max 0 ((m.frame : Int) + leastAhead s.pru.live m.pos s.trc.position)).toNat else none) := rfl
  generalize (max 0 ((m.frame : Int) + leastAhead s.pru.live m.pos s.trc.position)).toNat = n at hk hp
  unfold placeExpectation
  rw [h]
  dsimp only
  rw [hp]
  refine ⟨fun k ha hb => ?_, fun hb => ?_⟩
  · have h1 := (hk k).mp ha
    have : k = n := by
      by_contra hne
      exact hb n (by omega) ((hk n).mpr ⟨by omega, le_rfl⟩)
    subst this
    rw [if_pos h1.1]
    refine ⟨?_, fun wf hw => ?_, fun hw => ?_⟩
    · simp [predict_eq_linePosition]
    · simp [hw]
    · revert hw
      cases s.pru.window <;> simp
  · by_cases hn : n ≤ 65535
    · exact absurd ((hk n).mpr ⟨hn, le_rfl⟩) (hb n)
    · rw [if_neg hn]; rfl

end Sys2Proof.Machine
end

