-- ==== Sys2Proof/Laws/Rescan.lean ====
section
/-! SUPPORT. What REG does to a rescan list, said once by its frames: the trimming of a complete frame (R20) and the
addition of a range (R19). -/

namespace Sys2Proof.Machine

/-- A frame of a list is a frame of one of its ranges. -/
theorem inRanges_iff (l : List FrameRange) (f : Nat) : inRanges l f = true ↔ ∃ x ∈ l, x.first ≤ f ∧ f ≤ x.last := by
  simp [inRanges]

theorem inRanges_cons (x : FrameRange) (l : List FrameRange) (f : Nat) :
    inRanges (x :: l) f = true ↔ (x.first ≤ f ∧ f ≤ x.last) ∨ inRanges l f = true := by simp [inRanges]

/-- R20, step 2. -/
theorem trimFrame_trimmed (l : List FrameRange) (f : Nat) : FrameTrimmed l f (trimFrame l f) := by
  have h : ∀ j, inRanges (trimFrame l f) j = true ↔ ∃ x ∈ l, (x.first ≤ j ∧ j ≤ x.last) ∧
      (j ≠ f ∨ (8 ≤ l.length ∧ x.first < f ∧ f < x.last)) := by
    intro j
    simp only [inRanges_iff, trimFrame, List.mem_flatMap]
    constructor
    · rintro ⟨y, ⟨x, hx, hy⟩, h1, h2⟩
      refine ⟨x, hx, ?_⟩
      simp only [Config.rescanRanges] at hy
      split at hy
      · simp only [List.mem_singleton] at hy; subst hy; omega
      · split at hy
        · simp at hy
        · split at hy
          · simp only [List.mem_singleton] at hy; subst hy; simp only at h1 h2; omega
          · split at hy
            · simp only [List.mem_singleton] at hy; subst hy; simp only at h1 h2; omega
            · split at hy
              · simp only [List.mem_cons, List.not_mem_nil, or_false] at hy
                rcases hy with rfl | rfl <;> simp only at h1 h2 <;> omega
              · simp only [List.mem_singleton] at hy; subst hy; omega
    · rintro ⟨x, hx, h1, h2⟩
      by_cases c1 : f < x.first ∨ x.last < f
      · exact ⟨x, ⟨x, hx, by simp [c1]⟩, h1⟩
      · by_cases c2 : x.first = x.last
        · omega
        · by_cases c3 : f = x.first
          · exact ⟨⟨f + 1, x.last⟩, ⟨x, hx, by rw [if_neg c1, if_neg c2, if_pos c3]; simp⟩,
              by simp only; omega⟩
          · by_cases c4 : f = x.last
            · exact ⟨⟨x.first, f - 1⟩, ⟨x, hx, by
                rw [if_neg c1, if_neg c2, if_neg c3, if_pos c4]; simp⟩, by simp only; omega⟩
            · by_cases c5 : l.length < Config.rescanRanges
              · have hj : j ≠ f := by simp only [Config.rescanRanges] at c5; omega
                rcases Nat.lt_or_gt_of_ne hj with hj | hj
                · exact ⟨⟨x.first, f - 1⟩, ⟨x, hx, by
                    rw [if_neg c1, if_neg c2, if_neg c3, if_neg c4, if_pos c5]; simp⟩, by simp only; omega⟩
                · exact ⟨⟨f + 1, x.last⟩, ⟨x, hx, by
                    rw [if_neg c1, if_neg c2, if_neg c3, if_neg c4, if_pos c5]; simp⟩, by simp only; omega⟩
              · exact ⟨x, ⟨x, hx, by simp only [c1, c2, c3, c4, c5, if_false, List.mem_singleton]⟩, h1⟩
  refine ⟨fun j hj => ?_, ?_⟩
  · rw [Bool.eq_iff_iff, h, inRanges_iff]
    simp [hj]
  · rw [h]
    constructor
    · rintro ⟨x, hx, -, h2 | ⟨h2, h3⟩⟩
      · exact absurd rfl h2
      · exact ⟨h2, x, hx, h3⟩
    · rintro ⟨h1, x, hx, h2, h3⟩
      exact ⟨x, hx, by omega, .inr ⟨h1, h2, h3⟩⟩

/-! ### Merging (R19) -/

theorem inRanges_insertBy (b : FrameRange → FrameRange → Bool) (x : FrameRange) (l : List FrameRange) (f : Nat) :
    inRanges (insertBy b x l) f = true ↔ (x.first ≤ f ∧ f ≤ x.last) ∨ inRanges l f = true := by
  simp only [inRanges_iff, mem_insertBy]
  constructor
  · rintro ⟨y, rfl | hy, h⟩
    · exact .inl h
    · exact .inr ⟨y, hy, h⟩
  · rintro (h | ⟨y, hy, h⟩)
    · exact ⟨x, .inl rfl, h⟩
    · exact ⟨y, .inr hy, h⟩

theorem length_insertBy {α : Type} (b : α → α → Bool) (x : α) (l : List α) :
    (insertBy b x l).length = l.length + 1 := by
  induction l with
  | nil => rfl
  | cons y r ih => simp only [insertBy]; split <;> simp [ih]

/-- Ranges that all touch x unite with it into the frames of each. -/
theorem foldl_union {x : FrameRange} : ∀ (l : List FrameRange) (u : FrameRange), u.first ≤ x.first → x.last ≤ u.last →
    x.first ≤ x.last → (∀ y ∈ l, y.first ≤ y.last ∧ y.touches x = true) → ∀ f,
    ((l.foldl FrameRange.union u).first ≤ f ∧ f ≤ (l.foldl FrameRange.union u).last ↔
      (u.first ≤ f ∧ f ≤ u.last) ∨ inRanges l f = true)
  | [], u, _, _, _, _, f => by simp [inRanges]
  | y :: l, u, h1, h2, h3, h4, f => by
    have hy := h4 y List.mem_cons_self
    simp only [FrameRange.touches, Bool.and_eq_true, decide_eq_true_eq] at hy
    rw [List.foldl_cons, foldl_union l (u.union y) (by simp only [FrameRange.union]; omega)
      (by simp only [FrameRange.union]; omega) h3 (fun z hz => h4 z (List.mem_cons_of_mem _ hz)), inRanges_cons]
    simp only [FrameRange.union]
    rw [← or_assoc]
    refine or_congr_left ?_
    omega

/-- R19, merging: the frames of the list and of the range. -/
theorem mergeRange_frames {l : List FrameRange} (hl : ∀ y ∈ l, y.first ≤ y.last) {x : FrameRange}
    (hx : x.first ≤ x.last) (f : Nat) :
    inRanges (mergeRange l x) f = true ↔ inRanges l f = true ∨ (x.first ≤ f ∧ f ≤ x.last) := by
  rw [mergeRange, inRanges_insertBy, foldl_union (x := x) _ x le_rfl le_rfl hx (fun y hy => by
    obtain ⟨h1, h2⟩ := List.mem_filter.mp hy
    exact ⟨hl y h1, h2⟩)]
  simp only [inRanges_iff, List.mem_filter]
  constructor
  · rintro ((h | ⟨y, hy, h⟩) | ⟨y, hy, h⟩)
    · exact .inr h
    · exact .inl ⟨y, hy.1, h⟩
    · exact .inl ⟨y, hy.1, h⟩
  · rintro (⟨y, hy, h⟩ | h)
    · cases ht : y.touches x
      · exact .inr ⟨y, ⟨hy, by simp [ht]⟩, h⟩
      · exact .inl (.inr ⟨y, ⟨hy, ht⟩, h⟩)
    · exact .inl (.inl h)

/-! ### Joining (R19) -/

/-- Ranges in order, none overlapping or adjoining. -/
def Apart (l : List FrameRange) : Prop := (∀ x ∈ l, x.first ≤ x.last) ∧ l.Pairwise (fun x y => x.last + 2 ≤ y.first)

theorem Apart.tail {x : FrameRange} {l : List FrameRange} (h : Apart (x :: l)) : Apart l :=
  ⟨fun y hy => h.1 y (List.mem_cons_of_mem _ hy), (List.pairwise_cons.mp h.2).2⟩

theorem Apart.above {x y : FrameRange} {l : List FrameRange} (h : Apart (x :: y :: l)) {f : Nat}
    (hf : inRanges (y :: l) f = true) : y.first ≤ f := by
  obtain ⟨z, hz, h1, h2⟩ := (inRanges_iff _ _).mp hf
  rcases List.mem_cons.mp hz with rfl | hz
  · exact h1
  · have := (List.pairwise_cons.mp h.tail.2).1 z hz
    have := h.1 y (by simp)
    omega

/-- The gaps of a list are the gap of its first two ranges and those of the rest. -/
theorem gapOf_cons {x y : FrameRange} {l : List FrameRange} (h : Apart (x :: y :: l)) (lo hi : Nat) :
    GapOf (fun f => inRanges (x :: y :: l) f = true) lo hi ↔
      (lo = x.last + 1 ∧ hi + 1 = y.first) ∨ GapOf (fun f => inRanges (y :: l) f = true) lo hi := by
  have hx := h.1 x (by simp)
  have hy := h.1 y (by simp)
  have hxy : x.last + 2 ≤ y.first := (List.pairwise_cons.mp h.2).1 y (by simp)
  have ha := fun f => h.above (f := f)
  have hyf : inRanges (y :: l) y.first = true := by rw [inRanges_cons]; exact .inl ⟨le_rfl, hy⟩
  simp only [GapOf, inRanges_cons x]
  constructor
  · rintro ⟨h0, h1, h2, h3, h4⟩
    have hlo := h4 lo le_rfl h1
    rcases h2 with h2 | h2
    · have e : lo = x.last + 1 := by omega
      have h3 : inRanges (y :: l) (hi + 1) = true := by rcases h3 with h3 | h3 <;> [omega; exact h3]
      have := ha _ h3
      refine .inl ⟨e, ?_⟩
      by_contra hne
      exact h4 y.first (by omega) (by omega) (.inr hyf)
    · have := ha _ h2
      have h3 : inRanges (y :: l) (hi + 1) = true := by rcases h3 with h3 | h3 <;> [omega; exact h3]
      exact .inr ⟨h0, h1, h2, h3, fun f a b c => h4 f a b (.inr c)⟩
  · rintro (⟨rfl, h2⟩ | ⟨h0, h1, h2, h3, h4⟩)
    · refine ⟨by omega, by omega, .inl (by omega), .inr (h2 ▸ hyf), fun f a b c => ?_⟩
      rcases c with c | c
      · omega
      · have := ha f c; omega
    · have := ha _ h2
      refine ⟨h0, h1, .inr h2, .inr h3, fun f a b c => ?_⟩
      rcases c with c | c
      · omega
      · exact h4 f a b c

theorem gapOf_single (x : FrameRange) (lo hi : Nat) : ¬GapOf (fun f => inRanges [x] f = true) lo hi := by
  rintro ⟨h0, h1, h2, h3, h4⟩
  have key : ∀ f, inRanges [x] f = true ↔ x.first ≤ f ∧ f ≤ x.last := fun f => by simp [inRanges]
  have h2 := (key _).mp h2
  have h3 := (key _).mp h3
  exact h4 lo le_rfl h1 ((key lo).mpr (by omega))

/-- R19, joining: the frames of the smallest gap enter, of the first such one on a tie. -/
theorem joinFirst_frames : ∀ (l : List FrameRange) (x y : FrameRange), Apart (x :: y :: l) → ∃ lo hi,
    smallestGap (x :: y :: l) = some (hi + 1 - lo) ∧ GapOf (fun f => inRanges (x :: y :: l) f = true) lo hi ∧
    (∀ lo' hi', GapOf (fun f => inRanges (x :: y :: l) f = true) lo' hi' →
      hi - lo < hi' - lo' ∨ (hi - lo = hi' - lo' ∧ lo ≤ lo')) ∧
    ∀ f, inRanges (joinFirst (hi + 1 - lo) (x :: y :: l)) f = true ↔
      inRanges (x :: y :: l) f = true ∨ (lo ≤ f ∧ f ≤ hi) := by
  intro l
  induction l with
  | nil =>
    intro x y h
    have hx := h.1 x (by simp)
    have hy := h.1 y (by simp)
    have hxy : x.last + 2 ≤ y.first := (List.pairwise_cons.mp h.2).1 y (by simp)
    have e : y.first - 1 + 1 - (x.last + 1) = rangeGap x y := by simp only [rangeGap]; omega
    refine ⟨x.last + 1, y.first - 1, by rw [e]; rfl, (gapOf_cons h _ _).mpr (.inl (by omega)), fun lo' hi' hg => ?_,
      fun f => ?_⟩
    · rcases (gapOf_cons h _ _).mp hg with hg | hg
      · omega
      · exact (gapOf_single _ _ _ hg).elim
    · rw [e]
      simp only [joinFirst, if_true, inRanges_cons]
      simp only [inRanges, List.any_nil, Bool.false_eq_true, or_false]
      omega
  | cons z l ih =>
    intro x y h
    have hx := h.1 x (by simp)
    have hy := h.1 y (by simp)
    have hxy : x.last + 2 ≤ y.first := (List.pairwise_cons.mp h.2).1 y (by simp)
    obtain ⟨lo, hi, h1, h2, h3, h4⟩ := ih y z h.tail
    have hlo : y.first ≤ lo - 1 := h.above h2.2.2.1
    have hg := h2.2.1
    have hs : smallestGap (x :: y :: z :: l) = some (min (rangeGap x y) (hi + 1 - lo)) := by
      simp only [smallestGap] at h1 ⊢; rw [h1]
    by_cases hm : rangeGap x y ≤ hi + 1 - lo
    · have e : y.first - 1 + 1 - (x.last + 1) = rangeGap x y := by simp only [rangeGap]; omega
      refine ⟨x.last + 1, y.first - 1, by rw [hs, e, min_eq_left hm], (gapOf_cons h _ _).mpr (.inl (by omega)),
        fun lo' hi' hg' => ?_, fun f => ?_⟩
      · simp only [rangeGap] at hm
        rcases (gapOf_cons h _ _).mp hg' with hg' | hg'
        · omega
        · have := h3 lo' hi' hg'
          have := h.above hg'.2.2.1
          have := hg'.2.1
          omega
      · rw [e]
        simp only [joinFirst, if_true, inRanges_cons x, inRanges_cons y, inRanges_cons ⟨x.first, y.last⟩]
        by_cases hR : inRanges (z :: l) f = true
        · simp [hR]
        · simp only [hR, Bool.false_eq_true, or_false]; omega
    · refine ⟨lo, hi, by rw [hs, min_eq_right (by omega)], (gapOf_cons h _ _).mpr (.inr h2), fun lo' hi' hg' => ?_,
        fun f => ?_⟩
      · rcases (gapOf_cons h _ _).mp hg' with hg' | hg'
        · simp only [rangeGap] at hm; omega
        · exact h3 lo' hi' hg'
      · rw [joinFirst, if_neg (by omega), inRanges_cons x, inRanges_cons x (y :: z :: l), h4 f, or_assoc]

/-- A range apart from every range of a list in order takes its place among them. -/
theorem apart_insert {x : FrameRange} (hx : x.first ≤ x.last) : ∀ {l : List FrameRange}, Apart l →
    (∀ y ∈ l, y.last + 1 < x.first ∨ x.last + 1 < y.first) →
    Apart (insertBy (fun p q => decide (p.first < q.first)) x l)
  | [], _, _ => ⟨by simpa [insertBy] using hx, by simp [insertBy]⟩
  | y :: l, h, ha => by
    have hy := h.1 y (by simp)
    have hay := ha y (by simp)
    have hp := List.pairwise_cons.mp h.2
    simp only [insertBy]
    split
    · next c =>
      simp only [decide_eq_true_eq] at c
      refine ⟨fun z hz => ?_, List.pairwise_cons.mpr ⟨fun z hz => ?_, h.2⟩⟩
      · rcases List.mem_cons.mp hz with rfl | hz
        · exact hx
        · exact h.1 z hz
      · rcases List.mem_cons.mp hz with rfl | hz
        · omega
        · have := hp.1 z hz; omega
    · next c =>
      simp only [decide_eq_true_eq] at c
      have ih := apart_insert hx h.tail (fun z hz => ha z (List.mem_cons_of_mem _ hz))
      refine ⟨fun z hz => ?_, List.pairwise_cons.mpr ⟨fun z hz => ?_, ih.2⟩⟩
      · rcases List.mem_cons.mp hz with rfl | hz
        · exact hy
        · exact ih.1 z hz
      · rcases (mem_insertBy _ _ _ _).mp hz with rfl | hz
        · omega
        · exact hp.1 z hz

/-- R19: the frames of a rescan list after a range has been added to it. -/
theorem addRange_added {l : List FrameRange} (hl : rescanOrdered l) {a b : Nat} (hab : a ≤ b) :
    RangeAdded l a b (addRange l ⟨a, b⟩) := by
  obtain ⟨h8, hr, hp⟩ := hl
  have hm := fun f => mergeRange_frames hr (x := ⟨a, b⟩) hab f
  have hlen : (mergeRange l ⟨a, b⟩).length = (l.filter (fun y => !y.touches ⟨a, b⟩)).length + 1 := by
    rw [mergeRange, length_insertBy]
  have htouch : ∀ y : FrameRange, y.touches ⟨a, b⟩ = false ↔ y.last + 1 < a ∨ b + 1 < y.first := by
    intro y; simp only [FrameRange.touches, Bool.and_eq_false_iff, decide_eq_false_iff_not]; omega
  refine ⟨fun hn f => ?_, fun hn => ?_⟩
  · have : addRange l ⟨a, b⟩ = mergeRange l ⟨a, b⟩ := by
      unfold addRange joinRanges
      refine if_pos ?_
      rw [hlen]
      simp only [Config.rescanRanges] at h8 ⊢
      by_cases h : l.length < 8
      · have := List.length_filter_le (fun y : FrameRange => !y.touches ⟨a, b⟩) l; omega
      · have : ¬∀ y ∈ l, (!y.touches ⟨a, b⟩) = true := fun hc => hn ⟨by omega, fun y hy => (htouch y).mp (by
          simpa using hc y hy)⟩
        have hlt : (l.filter (fun y => !y.touches ⟨a, b⟩)).length < l.length := by
          rcases Nat.lt_or_eq_of_le (List.length_filter_le (fun y : FrameRange => !y.touches ⟨a, b⟩) l) with h | h
          · exact h
          · exact absurd (List.length_filter_eq_length_iff.mp h) this
        omega
    rw [this, hm]
  · have hf : l.filter (fun y => !y.touches ⟨a, b⟩) = l :=
      List.filter_eq_self.mpr fun y hy => by simp [(htouch y).mpr (hn.2 y hy)]
    have hf' : l.filter (fun y => y.touches ⟨a, b⟩) = [] :=
      List.filter_eq_nil_iff.mpr fun y hy => by simp [(htouch y).mpr (hn.2 y hy)]
    have hA : Apart (mergeRange l ⟨a, b⟩) := by
      rw [mergeRange, hf, hf']
      exact apart_insert hab ⟨hr, hp⟩ hn.2
    have hl9 : 9 ≤ (mergeRange l ⟨a, b⟩).length := by rw [hlen, hf]; omega
    have hj : addRange l ⟨a, b⟩ = (match smallestGap (mergeRange l ⟨a, b⟩) with
        | some g => joinFirst g (mergeRange l ⟨a, b⟩)
        | none => mergeRange l ⟨a, b⟩) := by
      unfold addRange joinRanges
      exact if_neg (by simp only [Config.rescanRanges]; omega)
    rw [hj]
    generalize mergeRange l ⟨a, b⟩ = m at hm hA hl9
    match m, hl9 with
    | x :: y :: rest, _ =>
      obtain ⟨lo, hi, h1, h2, h3, h4⟩ := joinFirst_frames rest x y hA
      have e : (fun f => inRanges (x :: y :: rest) f = true) = (fun f => inRanges l f = true ∨ (a ≤ f ∧ f ≤ b)) :=
        funext fun f => propext (hm f)
      rw [e] at h2 h3
      exact ⟨lo, hi, h2, h3, fun f => by rw [h1]; exact (h4 f).trans (or_congr_left (hm f))⟩

end Sys2Proof.Machine
end

