-- ==== Sys2Proof/Laws/Ticks.lean ====
section
/-! SUPPORT. What the ticks of TMB deliver, said once (R190, R170): `passMillis`, `secondTick` and `minuteTick`, field by
field, and that waiting ticks add up. -/

namespace Sys2Proof.Machine

variable {s t : State}

/-! ### Milliseconds -/

@[simp] theorem passTimer_some (n left : Nat) : passTimer n (some left) = some (left - n) := rfl
@[simp] theorem passTimer_none (n : Nat) : passTimer n none = none := rfl
@[simp] theorem passTimer_passTimer (m n : Nat) (x : Timer) : passTimer n (passTimer m x) = passTimer (m + n) x := by
  cases x <;> simp [Nat.sub_sub]

@[simp] theorem passMillis_trc (n : Nat) : (passMillis n s).trc = s.trc.pass n := rfl
@[simp] theorem passMillis_pru (n : Nat) : (passMillis n s).pru = s.pru := rfl
@[simp] theorem passMillis_dsu (n : Nat) : (passMillis n s).dsu = s.dsu := rfl
@[simp] theorem passMillis_rpq (n : Nat) : (passMillis n s).rpq = s.rpq := rfl
@[simp] theorem passMillis_sht (n : Nat) : (passMillis n s).sht = s.sht := rfl
@[simp] theorem passMillis_cab (n : Nat) : (passMillis n s).cab = s.cab := rfl
@[simp] theorem passMillis_spt (n : Nat) : (passMillis n s).spt = s.spt := rfl
@[simp] theorem passMillis_alt (n : Nat) : (passMillis n s).alt = s.alt := rfl
@[simp] theorem passMillis_cfg (n : Nat) : (passMillis n s).cfg = s.cfg := rfl
@[simp] theorem passMillis_tmb (n : Nat) : (passMillis n s).tmb = s.tmb := rfl
@[simp] theorem passMillis_out (n : Nat) : (passMillis n s).out = s.out := rfl
@[simp] theorem passMillis_pending (n : Nat) : (passMillis n s).pending = s.pending := rfl
@[simp] theorem passMillis_reels (n : Nat) : (passMillis n s).reg.reels = s.reg.reels := rfl
@[simp] theorem passMillis_reel (n h : Nat) : (passMillis n s).reel h = s.reel h := rfl

/-- Milliseconds delivered in two parts are delivered. -/
theorem passMillis_passMillis (m n : Nat) : passMillis n (passMillis m s) = passMillis (m + n) s := by
  have ht : (s.trc.pass m).pass n = s.trc.pass (m + n) := by
    have ha : min Config.silenceMs (min Config.silenceMs (s.trc.reportAge + m) + n) =
        min Config.silenceMs (s.trc.reportAge + (m + n)) := by omega
    have hs : min Config.silenceMs (min Config.silenceMs (s.trc.silence + m) + n) =
        min Config.silenceMs (s.trc.silence + (m + n)) := by omega
    by_cases hc : s.trc.capstan = 0 <;> simp [Trc.pass, hc, ha, hs]
  have hx : ∀ x : Option Ctx, (x.map (Ctx.pass m)).map (Ctx.pass n) = x.map (Ctx.pass (m + n)) := by
    intro x
    cases x with
    | none => rfl
    | some x => simp only [Option.map_some, Ctx.pass, Option.some.injEq, Ctx.mk.injEq, true_and]; omega
  have hc : ∀ x : Option Confirmation,
      (x.bind (Confirmation.pass m)).bind (Confirmation.pass n) = x.bind (Confirmation.pass (m + n)) := by
    intro x
    cases x with
    | none => rfl
    | some c =>
      simp only [Option.bind_some]
      by_cases h : c.remaining ≤ m
      · simp [Confirmation.pass, h, Nat.le_add_right_of_le h]
      · have hs : c.remaining - m ≤ n ↔ c.remaining ≤ m + n := by omega
        simp [Confirmation.pass, h, hs, Nat.sub_sub]
  simp only [passMillis, State.setTrc, State.setFcu, State.setReg, PerPort.map, ht, hx, hc]

/-- What the delivery does, in the words of the statements. -/
theorem timersPassed_passMillis (n : Nat) : TimersPassed n s (passMillis n s) :=
  ⟨rfl, fun c => by cases c <;> rfl, rfl, fun p => by cases p <;> rfl, rfl⟩

@[simp] theorem kept_passMillis {l : List Block} (h0 : Block.trc ∈ l) (h1 : Block.fcu ∈ l) (h2 : Block.reg ∈ l) (n : Nat) :
    Kept l s (passMillis n t) ↔ Kept l s t :=
  Kept.iff_of (fun b hb => by
    cases b <;> first | rfl | exact absurd h0 hb | exact absurd h1 hb | exact absurd h2 hb)

/-! ### Seconds and minutes -/

@[simp] theorem minuteTick_tmb : (minuteTick s).tmb = ⟨0, 0, 0⟩ := by unfold minuteTick; dsimp only; split <;> rfl
@[simp] theorem minuteTick_trc : (minuteTick s).trc = s.trc := by unfold minuteTick; dsimp only; split <;> rfl
@[simp] theorem minuteTick_fcu : (minuteTick s).fcu = s.fcu := by unfold minuteTick; dsimp only; split <;> rfl
@[simp] theorem minuteTick_reg : (minuteTick s).reg = s.reg := by unfold minuteTick; dsimp only; split <;> rfl

@[simp] theorem minuteTick_cab : (minuteTick s).cab =
    if s.cab.climateOut then s.cab else { s.cab with bayTimers := s.cab.bayTimers.map BayTimer.tick } := by
  unfold minuteTick; dsimp only; split <;> rename_i h <;> simp at h <;> simp [h]

theorem minutePassed_minuteTick : MinutePassed s (minuteTick s) := minuteTick_cab

@[simp] theorem kept_minuteTick {l : List Block} (h0 : Block.tmb ∈ l) (h1 : Block.cab ∈ l) :
    Kept l s (minuteTick t) ↔ Kept l s t :=
  Kept.iff_of (by unfold minuteTick; dsimp only; split <;> simp [*])

theorem secondTick_of_lt (h : s.tmb.seconds < 59) : secondTick s = s.setTmb ⟨0, 0, s.tmb.seconds + 1⟩ :=
  if_pos (by unfold Config.minuteSeconds; omega)
theorem secondTick_of_le (h : 59 ≤ s.tmb.seconds) : secondTick s = minuteTick s :=
  if_neg (by unfold Config.minuteSeconds; omega)

theorem millisecondTick_of_lt (h : s.tmb.millis < 999) :
    millisecondTick s = (passMillis 1 s).setTmb ⟨0, s.tmb.millis + 1, s.tmb.seconds⟩ :=
  if_pos (by simp only [passMillis_tmb, Config.secondMs]; omega)
theorem millisecondTick_of_le (h : 999 ≤ s.tmb.millis) : millisecondTick s = secondTick (passMillis 1 s) :=
  if_neg (by simp only [passMillis_tmb, Config.secondMs]; omega)

/-- The second counter stays below 60 seconds, the millisecond count below 1000, whatever they held. -/
theorem secondTick_tmb : (secondTick s).tmb = if s.tmb.seconds < 59 then ⟨0, 0, s.tmb.seconds + 1⟩ else ⟨0, 0, 0⟩ := by
  by_cases h : s.tmb.seconds < 59
  · rw [secondTick_of_lt h, if_pos h]; rfl
  · rw [secondTick_of_le (Nat.le_of_not_lt h), if_neg h]; simp

theorem kept_secondTick {l : List Block} (h0 : Block.tmb ∈ l) (h1 : Block.cab ∈ l) :
    Kept l s (secondTick t) ↔ Kept l s t :=
  Kept.iff_of (by unfold secondTick; split <;> simp [*])

theorem kept_millisecondTick {l : List Block} (h0 : Block.tmb ∈ l) (h1 : Block.cab ∈ l) (h2 : Block.trc ∈ l)
    (h3 : Block.fcu ∈ l) (h4 : Block.reg ∈ l) : Kept l s (millisecondTick t) ↔ Kept l s t :=
  Kept.iff_of (by unfold millisecondTick; dsimp only; split <;> simp [kept_secondTick, *])

/-- The timers are in TRC, FCU and REG. -/
theorem TimersPassed.of_eq {n : Nat} {u : State} (h : TimersPassed n u t) (ht : u.trc = s.trc) (hf : u.fcu = s.fcu)
    (hr : u.reg = s.reg) : TimersPassed n s t := by
  unfold TimersPassed at h ⊢; rwa [ht, hf, hr] at h

/-- SECOND_TICK is the millisecond ticks that are left of the second: one of them, then the rest. -/
theorem secondTick_rest (h : s.tmb.millis < 999) :
    let t := millisecondTick s
    secondTick (passMillis s.tmb.restOfSecond s) = secondTick (passMillis t.tmb.restOfSecond t) := by
  dsimp only
  rw [millisecondTick_of_lt h]
  have hr : s.tmb.restOfSecond = 1 + (Config.secondMs - (s.tmb.millis + 1)) := by
    simp only [Tmb.restOfSecond, Config.secondMs]; omega
  rw [hr, ← passMillis_passMillis]
  rfl

end Sys2Proof.Machine
end

