-- ==== Sys2Proof/Laws/Withdraw.lean ====
section
/-! SUPPORT. What the withdrawal of a reel's work does, said once (R16, R21, R104, R106): the records, the closed list, the
claim counts, the reel's counts; and what the FETCH_OUT of a REQUEST does to the move queue (R157, R158). -/

namespace Sys2Proof.Machine

variable {s : State}

/-- The records of a reel in creation order that meet a condition: each once, all of them, in rising sequence. -/
theorem damageBySeq_lists (hw : s.rpq.damage.wf = true) (h : Nat) (cond : Damage → Bool) :
    (s.damageBySeq (fun d => d.handle == h && cond d)).Nodup ∧
    (∀ i, i ∈ s.damageBySeq (fun d => d.handle == h && cond d) ↔
      ∃ d, s.rpq.damage.read i = some d ∧ cond d = true ∧ d.handle = h) ∧
    (s.damageBySeq (fun d => d.handle == h && cond d)).Pairwise (fun i j => ∀ x y, s.rpq.damage.read i = some x →
      s.rpq.damage.read j = some y → x.seq.toNat ≤ y.seq.toNat) := by
  refine ⟨nodup_damageBySeq hw _, fun i => ?_, ?_⟩
  · rw [mem_damageBySeq hw]
    simp [and_comm]
  · rw [State.damageBySeq, List.pairwise_map]
    refine (sorted_sortBy (fun e : Nat × Damage => e.2.seq.toNat) _).imp_of_mem fun {a b} ha hb hab x y hx hy => ?_
    have ha := Table.read_of_mem hw (List.mem_of_mem_filter ((mem_sortBy _ _ _).mp ha))
    have hb := Table.read_of_mem hw (List.mem_of_mem_filter ((mem_sortBy _ _ _).mp hb))
    rw [ha] at hx; rw [hb] at hy
    cases hx; cases hy
    exact hab

/-- A record as a forced release closes it. -/
def asWithdrawn (d : Damage) : Damage := { d with state := .closed .withdrawn }

/-- Records of reel h, each named once, close one after the other; `g n` is what n of them do to the reel's counts. -/
theorem foldl_withdraw (h : Nat) (cond : Damage → Prop) (f : State → Nat → State) (g : Nat → Reel → Reel)
    (hg : (∀ r, g 0 r = r) ∧ ∀ n d r, cond d → g n ((r.subCount d.state).addCount (.closed .withdrawn)) = g (n + 1) r)
    (hf : ∀ u i d, u.rpq.damage.read i = some d → cond d → (f u i).rpq = (closeDamage .withdrawn u i).rpq ∧
      (f u i).reg = (closeDamage .withdrawn u i).reg) :
    ∀ (l : List Nat) (s : State), l.Nodup → (∀ i ∈ l, ∃ d, s.rpq.damage.read i = some d ∧ cond d ∧ d.handle = h) →
    let t := l.foldl f s
    (∀ i, t.rpq.damage.read i = (s.rpq.damage.read i).map (fun d => if i ∈ l then asWithdrawn d else d)) ∧
      t.rpq = { s.rpq with
        damage := t.rpq.damage, claims := t.rpq.claims, closedList := s.rpq.closedList ++ l } ∧
      (∀ p, t.rpq.claims.get p = s.rpq.claims.get p -
        (l.filter (fun i => (s.rpq.damage.read i).any (·.claimedBy p))).length) ∧
      t.reg.confirm = s.reg.confirm ∧
      ∀ j, t.reel j = if j = h then (s.reel j).map (g l.length) else s.reel j := by
  intro l
  induction l with
  | nil =>
    intro s _ _
    refine ⟨by simp, by simp, by simp, rfl, fun j => ?_⟩
    have : (fun r => g 0 r) = id := funext hg.1
    simp only [List.foldl_nil, List.length_nil]
    split
    · rw [show g 0 = id from this]; simp
    · rfl
  | cons i l ih =>
    intro s hn hc t
    obtain ⟨d, hd, hcd, hh⟩ := hc i List.mem_cons_self
    have hi := (List.nodup_cons.mp hn).1
    have hne : ∀ j ∈ l, j ≠ i := fun j hj he => hi (he ▸ hj)
    obtain ⟨e1, e2⟩ := hf s i d hd hcd
    have hrpq : (f s i).rpq = { s.rpq with
        damage := s.rpq.damage.write i (asWithdrawn d), claims := claimsDown s.rpq.claims d.state
        closedList := s.rpq.closedList ++ [i] } := by
      rw [e1]; simp only [closeDamage, moveDamage, hd]; rfl
    have hreg : (f s i).reg = (s.modReel h (fun r => (r.subCount d.state).addCount (.closed .withdrawn))).reg := by
      rw [e2]; simp only [closeDamage, moveDamage, hd, ← hh]; rfl
    have hr : ∀ j, (f s i).rpq.damage.read j = if j = i then some (asWithdrawn d) else s.rpq.damage.read j := by
      intro j
      rw [hrpq]
      exact Table.read_write ..
    obtain ⟨a1, a2, a3, a4, a5⟩ := ih (f s i) (List.nodup_cons.mp hn).2 (fun j hj => by
      obtain ⟨x, h1, h2⟩ := hc j (List.mem_cons_of_mem _ hj)
      exact ⟨x, by rw [hr, if_neg (hne j hj), h1], h2⟩)
    refine ⟨fun j => ?_, ?_, fun p => ?_, ?_, fun j => ?_⟩
    · refine (a1 j).trans ?_
      rw [hr]
      by_cases hj : j = i
      · subst hj; simp [hd, hi]
      · simp [hj]
    · refine a2.trans ?_
      rw [hrpq]
      simp [t]
    · refine (a3 p).trans ?_
      have hfl : (l.filter (fun j => ((f s i).rpq.damage.read j).any (·.claimedBy p))).length =
          (l.filter (fun j => (s.rpq.damage.read j).any (·.claimedBy p))).length := by
        congr 1
        refine List.filter_congr fun j hj => ?_
        rw [hr, if_neg (hne j hj)]
      rw [hfl, hrpq]
      simp only [List.filter_cons, hd, Option.any_some]
      cases hst : d.state with
      | queued => simp [claimsDown, Damage.claimedBy, hst]
      | closed o => simp [claimsDown, Damage.claimedBy, hst]
      | claimed q =>
        simp only [claimsDown, Damage.claimedBy, hst, PerPort.get_set]
        by_cases hq : p = q
        · subst hq; simp; omega
        · have hq' : ¬ q = p := fun h => hq h.symm
          simp [hq, hq']
    · refine a4.trans ?_
      rw [hreg]; rfl
    · refine (a5 j).trans ?_
      simp only [State.reel, hreg, State.modReel, State.setReg_reg, Table.read_modify]
      by_cases hj : j = h
      · subst hj
        simp only [if_true, Option.map_map, List.length_cons]
        cases s.reg.reels.read j with
        | none => rfl
        | some r => simp [hg.2 l.length d r hcd]
      · simp [hj]

/-- R16, steps 1 to 3: the rescan list is emptied, the QUEUED records close and then the CLAIMED ones, the counts follow. -/
theorem withdrawWork_spec (h : Nat) (hw : s.rpq.damage.wf = true) : let t := withdrawWork h s
    ∃ q k : List Nat, q = s.damageBySeq (fun d => d.handle == h && d.isQueued) ∧
      k = s.damageBySeq (fun d => d.handle == h && d.isClaimed) ∧
      (∀ i, t.rpq.damage.read i = (s.rpq.damage.read i).map (fun d =>
        if d.handle = h ∧ (d.isQueued = true ∨ d.isClaimed = true) then { d with state := .closed .withdrawn } else d)) ∧
      t.rpq = { s.rpq with
        damage := t.rpq.damage, claims := t.rpq.claims, closedList := s.rpq.closedList ++ q ++ k } ∧
      (∀ p, t.rpq.claims.get p = s.rpq.claims.get p -
        (k.filter (fun i => (s.rpq.damage.read i).any (·.claimedBy p))).length) ∧
      t.reg.confirm = s.reg.confirm ∧
      ∀ j, t.reel j = if j = h then (s.reel j).map (fun r =>
        { r with
          rescan := [], queued := r.queued - q.length, claimed := r.claimed - k.length
          closed := r.closed + q.length + k.length }) else s.reel j := by
  intro t
  obtain ⟨u, hu⟩ : ∃ u, u = s.modReel h (fun r => { r with rescan := [] }) := ⟨_, rfl⟩
  have hur : u.rpq = s.rpq := by rw [hu]; simp
  obtain ⟨q, hq⟩ : ∃ q, q = s.damageBySeq (fun d => d.handle == h && d.isQueued) := ⟨_, rfl⟩
  obtain ⟨k, hk⟩ : ∃ k, k = s.damageBySeq (fun d => d.handle == h && d.isClaimed) := ⟨_, rfl⟩
  have ht : t = k.foldl voidClaim (q.foldl (closeDamage .withdrawn) u) := by
    rw [hq, hk]
    simp only [t, withdrawWork, State.damageBySeq, ← hu, hur]
  obtain ⟨q1, q2, -⟩ := damageBySeq_lists hw h Damage.isQueued
  obtain ⟨k1, k2, -⟩ := damageBySeq_lists hw h Damage.isClaimed
  rw [← hq] at q1 q2
  rw [← hk] at k1 k2
  obtain ⟨v, hv⟩ : ∃ v, v = q.foldl (closeDamage .withdrawn) u := ⟨_, rfl⟩
  rw [← hv] at ht
  obtain ⟨a1, a2, a3, a4, a5⟩ := foldl_withdraw h (fun d => d.isQueued = true) (closeDamage .withdrawn)
    (fun n r => { r with queued := r.queued - n, closed := r.closed + n })
    ⟨fun _ => rfl, fun n d r hd => by
      have : d.state = .queued := by simpa [Damage.isQueued] using hd
      rw [this]
      simp only [Reel.subCount, Reel.addCount, Reel.mk.injEq, true_and, and_true]
      omega⟩
    (fun _ _ _ _ _ => ⟨rfl, rfl⟩) q u q1 (fun i hi => by rw [hur]; exact (q2 i).mp hi)
  rw [← hv] at a1 a2 a3 a4 a5
  have hkq : ∀ i ∈ k, i ∉ q := fun i hi hi' => by
    obtain ⟨d, h1, h2, -⟩ := (k2 i).mp hi
    obtain ⟨d', h1', h2', -⟩ := (q2 i).mp hi'
    rw [h1] at h1'; cases h1'
    revert h2 h2'; unfold Damage.isClaimed Damage.isQueued; cases d.state <;> simp
  have hvr : ∀ i ∈ k, v.rpq.damage.read i = s.rpq.damage.read i := fun i hi => by
    rw [a1, hur]; simp [hkq i hi]
  obtain ⟨b1, b2, b3, b4, b5⟩ := foldl_withdraw h (fun d => d.isClaimed = true) voidClaim
    (fun n r => { r with claimed := r.claimed - n, closed := r.closed + n })
    ⟨fun _ => rfl, fun n d r hd => by
      obtain ⟨p, hp⟩ : ∃ p, d.state = .claimed p := by
        revert hd; unfold Damage.isClaimed; cases d.state <;> simp
      rw [hp]
      simp only [Reel.subCount, Reel.addCount, Reel.mk.injEq, true_and, and_true]
      omega⟩
    (fun w i d hr hd => by
      obtain ⟨p, hp⟩ : ∃ p, d.state = .claimed p := by
        revert hd; unfold Damage.isClaimed; cases d.state <;> simp
      simp only [voidClaim, hr, hp]
      simp) k v k1 (fun i hi => by
        obtain ⟨d, h1, h2⟩ := (k2 i).mp hi
        exact ⟨d, by rw [hvr i hi, h1], h2⟩)
  rw [← ht] at b1 b2 b3 b4 b5
  refine ⟨q, k, hq, hk, fun i => ?_, ?_, fun p => ?_, ?_, fun j => ?_⟩
  · rw [b1, a1, hur]
    cases hd : s.rpq.damage.read i with
    | none => rfl
    | some d =>
      have e1 : i ∈ q ↔ d.isQueued = true ∧ d.handle = h := by rw [q2]; simp [hd]
      have e2 : i ∈ k ↔ d.isClaimed = true ∧ d.handle = h := by rw [k2]; simp [hd]
      simp only [Option.map_some, e1, e2, asWithdrawn]
      by_cases hh : d.handle = h <;> cases d.isQueued <;> cases d.isClaimed <;> simp [hh]
  · refine b2.trans ?_
    rw [a2, hur]
  · rw [b3, a3, hur]
    have h0 : q.filter (fun i => (s.rpq.damage.read i).any (·.claimedBy p)) = [] := by
      refine List.filter_eq_nil_iff.mpr fun i hi => ?_
      obtain ⟨d, h1, h2, -⟩ := (q2 i).mp hi
      rw [h1]
      revert h2; simp only [Option.any_some, Damage.isQueued, Damage.claimedBy]; cases d.state <;> simp
    have h1 : k.filter (fun i => (v.rpq.damage.read i).any (·.claimedBy p)) =
        k.filter (fun i => (s.rpq.damage.read i).any (·.claimedBy p)) :=
      List.filter_congr fun i hi => by rw [hvr i hi]
    rw [h0, h1]
    simp
  · rw [b4, a4, hu]; rfl
  · rw [b5, a5]
    have hj : u.reel j = if j = h then (s.reel j).map (fun r => { r with rescan := [] }) else s.reel j := by
      rw [hu]
      simp only [State.reel, State.modReel, State.setReg_reg, Table.read_modify]
      by_cases hj : j = h
      · subst hj; rfl
      · simp [hj]
    rw [hj]
    by_cases hj : j = h
    · simp only [hj, if_true, Option.map_map]; rfl
    · simp [hj]

/-- R157: a move goes last in the creation order, from where its reel is. -/
theorem createMoveIn_cab {h : Nat} {r : Reel} (e : Nat) (kind : MoveKind) (hr : s.reel h = some r) :
    (createMoveIn e h kind s).cab =
      { s.cab with moves := s.cab.moves ++ [⟨e, kind, h, r.location, none, .queued⟩] } := by
  simp [createMoveIn, hr]

/-- R158: the FETCH_OUT stands in the entry of the RELOCATE it replaces, last in the creation order; nothing is drained. -/
theorem createFetchOut_relocate {h : Nat} {r : Reel} {m : Move} (hr : s.reel h = some r)
    (hm : s.relocateOf h = some m) : (createFetchOut h s).cab = { s.cab.removeMove m.entry with
      moves := (s.cab.removeMove m.entry).moves ++ [⟨m.entry, .fetchOut, h, r.location, none, .queued⟩] } := by
  have h1 : (withdrawRelocation h s).reel h = some { r with relocation := false } := by
    have : s.reg.reels.read h = some r := hr
    simp [withdrawRelocation, hm, State.reel, State.modReel, Table.read_modify, this]
  simp only [createFetchOut, hm]
  rw [createMoveIn_cab _ _ h1]
  simp [withdrawRelocation, hm]

end Sys2Proof.Machine
end

