-- ==== Sys2Proof/Tests/Slice0.lean ====
section
/-! SUPPORT. Tests of single commands on small states, and the witnesses of the statements. Expected values come from the manual's worked examples and tables, or from hand calculation with its
rules; a comment names the source. The theorems named `witness_<Name>` show states and operands that meet the hypotheses of
the statement of that name, clause by clause. -/

namespace Sys2Proof.Tests

set_option Elab.async false

open Sys2Proof Sys2Proof.Machine

/-! ### Small states -/

/-- After the preload, every setting at its default: port A has SCAN, B REPAIR, C GRADE, D VAULT. -/
def ready : State := { State.reset with cfg := { Cfg.reset with running := false } }

def rqA : Rq := ⟨.a, 1⟩
def rqB : Rq := ⟨.b, 2⟩
def rqC : Rq := ⟨.c, 3⟩
def rqD : Rq := ⟨.d, 4⟩

/-- The state a command leaves. -/
def after (c : Instr) (s : State) : State :=
  match exec c s with
  | .next t => t
  | .fault _ => s
  | .refused _ => s

/-- Status and result bytes of a port's pending response. -/
def answerOf (p : Port) (s : State) : Option (Byte × List Byte) :=
  (s.spt.get p).response.map (fun r => (r.status, r.results))

def putReel (h : Nat) (r : Reel) (s : State) : State := s.setReg { s.reg with reels := s.reg.reels.write h r }
def putDamage (i : Nat) (d : Damage) (s : State) : State := s.setRpq { s.rpq with damage := s.rpq.damage.write i d }
def putSetting (i v : Nat) (s : State) : State := s.putSetting i v
def putTrc (f : Trc → Trc) (s : State) : State := s.setTrc (f s.trc)
def putPru (f : Pru → Pru) (s : State) : State := s.setPru (f s.pru)
def putFcu (f : Fcu → Fcu) (s : State) : State := s.setFcu (f s.fcu)
def putCab (f : Cab → Cab) (s : State) : State := s.setCab (f s.cab)
def inState (st : TransportState) (s : State) : State := putTrc (fun t => { t with state := st }) s

/-- A sound reel of class 0 in slot 5, with handle 3. -/
def reel3 : Reel := newReel 77 .g35x4 0 5
def shelved : State := ((putReel 3 reel3 ready).putShot 0 (detectedShot 3 0)).occupy (.slot 5) (some (.holding 3))
/-- The same reel READY at staging position 2, and THREADED on the transport with its origin set. -/
def staged : State :=
  (putReel 3 { reel3 with location := .staging 2, circulation := .ready } shelved).occupy (.staging 2) (some (.holding 3))
def threaded : State :=
  putPru (fun u => { u with origin := some 0, anchor := some ⟨0, 0⟩, lastEdge := some 0 })
    (putTrc (fun t => { t with state := .threaded, handle := some 3, linkSeen := true, reportAge := 0 })
      (putReel 3 { reel3 with location := .transport, circulation := .threaded, frontier := 100 } shelved))
/-- A scan run with the line of frame 1 expected at 19000. -/
def scanning : State :=
  putPru (fun u => { u with expect := some ⟨19000, 1⟩ })
    (putTrc (fun t => { t with state := .scanning, scanSpeed := 240, capstan := 456000, light := 900 }) threaded)
def move0 (kind : MoveKind) (st : MoveState) (source : Place) : Move := ⟨0, kind, 3, source, none, st⟩
def withMoves (l : List Move) (s : State) : State := putCab (fun c => { c with moves := l }) s
def full16 : List Move := (List.range 16).map (fun e => ⟨e, .shelve, 50 + e, .bay 0, none, .queued⟩)
def ctxOf (frame nextRow age : Nat) : Ctx :=
  { handle := 3, frame, error := some 0, offset := 0, locked := true, splice := false, reanch := false, skipped := 0
    nextRow, age }
def openCtx0 (x : Ctx) (s : State) : State := putFcu (fun u => { u with ctx := u.ctx.set .c0 (some x), newest := .c0 }) s
def row32 (v : BitVec 16) : List (BitVec 16) := List.replicate 32 v
def major5 (st : DamageState) : Damage :=
  { seq := 9, handle := 3, frame := 5, cls := .blotch, severity := .major, film := ⟨0, 5, 0, 5⟩, area := 30, depth := 10
    state := st, suspect := false, stale := false }

/-! ### Ill-formed commands are refused by WellFormed, one for each check -/

theorem test_wf_preload_offset_low : WellFormed (.preloadValue 258 0 0) = false := by decide
theorem test_wf_preload_offset_high : WellFormed (.preloadValue 4095 0 0) = false := by decide
theorem test_wf_preload_index : WellFormed (.preloadValue 259 128 0) = false := by decide
theorem test_wf_edge_byte : WellFormed (.spliceEdge 2 0) = false := by decide
theorem test_wf_tension : WellFormed (.tension 1001) = false := by decide
theorem test_wf_gate_temp : WellFormed (.gateTemp 1001) = false := by decide
theorem test_wf_row_short : WellFormed (.row 0 0 (List.replicate 31 0) (row32 0)) = false := by decide
theorem test_wf_row_range : WellFormed (.row 0 0 (row32 1024) (row32 0)) = false := by decide
theorem test_wf_unknown_code : WellFormed (.unknownCommand rqA 0x17) = false := by decide
theorem test_wf_release_force : WellFormed (.release rqD (some ⟨3, 1⟩)) = false := by decide
theorem test_wf_accepts : WellFormed (.preloadValue 4094 127 0) = true ∧ WellFormed (.row 0 0 (row32 1023) (row32 0)) = true ∧
    WellFormed (.unknownCommand rqA 0x06) = true := by decide

/-! ### From bytes to commands (R175, R177, R178, Tables 1-4 to 9-4, 10-1, 2-5, 10-3) -/

/-- REQUEST of handle 3 with tag 9: marker, code 0x14, tag, length 1, handle. -/
theorem test_frame_request : decodeFrame .a [0x01, 0x14, 9, 1, 3] = .request ⟨.a, 9⟩ (some 3) := by decide
/-- ADMIT: catalogue 0x030201, gauge 2, class 1, slot 79. -/
theorem test_frame_admit : decodeFrame .d [1, 0x12, 7, 6, 1, 2, 3, 2, 1, 79] =
    .admitReel ⟨.d, 7⟩ (some ⟨0x030201, 2, 1, 79⟩) := by decide
theorem test_frame_release_force : decodeFrame .d [1, 0x17, 0, 2, 3, 1] = .releaseForce ⟨.d, 0⟩ 3 ∧
    decodeFrame .d [1, 0x17, 0, 2, 3, 0] = .release ⟨.d, 0⟩ (some ⟨3, 0⟩) := by decide
/-- COMPLETE: index 0x0102, sequence 0x06050403, outcome 2. -/
theorem test_frame_complete : decodeFrame .b [1, 0x41, 0, 7, 2, 1, 3, 4, 5, 6, 2] =
    .complete ⟨.b, 0⟩ (some ⟨0x0102, 0x06050403, 2⟩) := by decide
theorem test_frame_grade : decodeFrame .c [1, 0x56, 0, 4, 1, 0, 44, 1] = .split ⟨.c, 0⟩ (some ⟨1, 300⟩) := by decide
theorem test_frame_transport : decodeFrame .a [1, 0x23, 0, 4, 0xFF, 0xFF, 0xFF, 0xFF] =
    .inch ⟨.a, 0⟩ (some 0xFFFFFFFF) := by decide
theorem test_frame_vault : decodeFrame .d [1, 0x63, 0, 2, 15, 3] = .retry ⟨.d, 0⟩ (some ⟨15, 3⟩) := by decide
theorem test_frame_port : decodeFrame .d [1, 0x04, 0, 3, 16, 20, 0] = .setSetting ⟨.d, 0⟩ (some ⟨16, 20⟩) := by decide
/-- Operands too short for the command (R178), an unknown code, a length the station cut short, no tag, another marker. -/
theorem test_frame_short : decodeFrame .a [1, 0x14, 9, 0] = .request ⟨.a, 9⟩ none := by decide
theorem test_frame_unknown : decodeFrame .a [1, 0x31, 9, 0] = .unknownCommand ⟨.a, 9⟩ 0x31 := by decide
theorem test_frame_cut : decodeFrame .a [1, 0x14, 9, 2, 3] = .requestMalformed .a (some 9) := by decide
theorem test_frame_no_tag : decodeFrame .a [1, 0x14] = .requestMalformed .a none := by decide
theorem test_frame_marker : decodeFrame .a [3, 0, 0] = .frameIgnored .a ∧ decodeFrame .a [] = .frameIgnored .a := by decide
theorem test_frame_read : decodeFrame .c [2, 0, 0, 0, 0, 0] = .responseRead .c 5 := by decide
/-- Head messages: POSITION −1, a rising edge at 256, TENSION 300, and two that fit no type (R47). -/
theorem test_head_position : decodeHeadMessage [1, 0xFF, 0xFF, 0xFF, 0xFF] = .position 0xFFFFFFFF := by decide
theorem test_head_edge : decodeHeadMessage [3, 1, 0, 1, 0, 0] = .spliceEdge 1 256 := by decide
theorem test_head_sensors : decodeHeadMessage [4, 44, 1] = .tension 300 ∧
    decodeHeadMessage [5, 194, 1] = .gateTemp 450 := by decide
theorem test_head_row : decodeHeadMessage ([6, 5, 0, 23] ++ List.replicate 128 1) =
    .row 5 23 (row32 0x0101) (row32 0x0101) := by decide +kernel
theorem test_head_discarded : decodeHeadMessage [1, 0] = .headMessageDiscarded ∧
    decodeHeadMessage [7, 0, 0] = .headMessageDiscarded := by decide
/-- A settings memory with one record of two values from index 16, and the end record (Table 10-3). -/
theorem test_settings_memory :
    decodeSettingsMemory (List.replicate 256 0 ++ [0xA5, 16, 2, 30, 0, 40, 0, 0, 0]) =
      [.preloadValue 259 16 30, .preloadValue 261 17 40, .preloadEnd .endRecord] := by decide +kernel
theorem test_settings_memory_empty : decodeSettingsMemory [] = [.preloadEnd .badSignature] := by decide +kernel

/-! ### Start-up and ports -/

theorem test_reset_settings : State.reset.setting Setting.spliceLead = 60000 ∧ State.reset.role .d = .vault := by decide
theorem test_not_ready : answerOf .a (after (.reelFind rqA (some 5)) State.reset) = some (14, []) := by decide +kernel
theorem test_denied : answerOf .a (after (.takeMove rqA) ready) = some (4, []) ∧
    AlertSet.has ((after (.takeMove rqA) ready).alt.get .a).latched .accessDenied = true := by decide +kernel
/-- R189: 61 for SPLICE_SPEED (5 to 60) is stored as 60, OK_CLAMPED. -/
theorem test_set_setting_clamps : answerOf .d (after (.setSetting rqD (some ⟨17, 61⟩)) ready) = some (1, []) ∧
    (after (.setSetting rqD (some ⟨17, 61⟩)) ready).setting 17 = 60 := by decide +kernel
/-- R186: bit 14 of a low half and bits 8 to 15 of a high half are not stored. -/
theorem test_set_route_masks : (after (.setSetting rqD (some ⟨8, 0xFFFF⟩)) ready).setting 8 = 0xBFFF ∧
    (after (.setSetting rqD (some ⟨9, 0xFFFF⟩)) ready).setting 9 = 0xFF := by decide +kernel
/-- R180: port B cannot become a second SCAN. -/
theorem test_duplicate_role : answerOf .d (after (.setSetting rqD (some ⟨1, 1⟩)) ready) = some (6, []) := by decide +kernel
/-- R179: a second request displaces the first response. -/
theorem test_overrun : ((after (.moveList rqD) (after (.moveList rqD) ready)).spt.get .d).overrun = true ∧
    AlertSet.has ((after (.moveList rqD) (after (.moveList rqD) ready)).alt.get .d).latched .portOverrun = true := by
  decide +kernel
/-- R176: five bytes of header, then the response is read. -/
theorem test_response_read : (after (.responseRead .d 5) (after (.takeMove rqD) ready)).out.station = [4, 3, 0, 0, 0] ∧
    ((after (.responseRead .d 5) (after (.takeMove rqD) ready)).spt.get .d).response = none ∧
    ((after (.responseRead .d 4) (after (.takeMove rqD) ready)).spt.get .d).response ≠ none := by decide +kernel
theorem test_ack_alerts : ((after (.ackAlerts rqA (some 0x02000000)) (after (.takeMove rqA) ready)).alt.get .a).latched =
    Event.portOverrun.mask := by decide +kernel

/-! ### REEL (chapter 1) -/

/-- R1: entries 0, 1 and 3 in use, the next admission takes handle 2. -/
theorem test_admit_lowest : answerOf .d (after (.admitReel rqD (some ⟨9, 0, 0, 10⟩))
    (putReel 0 { reel3 with catalogue := 1 } (putReel 1 { reel3 with catalogue := 2 } shelved))) = some (0, [2]) := by
  decide +kernel
theorem test_admit_wrong_zone : answerOf .d (after (.admitReel rqD (some ⟨9, 0, 2, 63⟩)) ready) = some (12, []) ∧
    answerOf .d (after (.admitReel rqD (some ⟨9, 0, 2, 64⟩)) ready) = some (0, [0]) := by decide +kernel
theorem test_admit_duplicate : answerOf .d (after (.admitReel rqD (some ⟨77, 0, 0, 9⟩)) shelved) = some (11, []) := by
  decide +kernel
/-- R10, R5: a rise to class 2 in a STANDARD slot queues a RELOCATE; the fragile flag is returned. -/
theorem test_set_condition : answerOf .d (after (.setCondition rqD (some ⟨3, 2⟩)) shelved) = some (0, [1]) ∧
    (after (.setCondition rqD (some ⟨3, 2⟩)) shelved).cab.moves = [move0 .relocate .queued (.slot 5)] := by decide +kernel
theorem test_request : (after (.request rqA (some 3)) shelved).cab.moves = [move0 .fetchOut .queued (.slot 5)] ∧
    ((after (.request rqA (some 3)) shelved).reel 3).map (·.circulation) = some .outbound := by decide +kernel
theorem test_cancel : (after (.cancel rqA (some 3)) (after (.request rqA (some 3)) shelved)).cab.moves = [] := by
  decide +kernel
/-- Worked sequence of a forced release: CONFIRM first, then the reel is DISPATCHING with an empty rescan list. -/
theorem test_force_release :
    let s := putReel 3 { reel3 with rescan := [⟨40, 42⟩] } shelved
    let t := after (.releaseForce rqD 3) s
    answerOf .d (after (.release rqD (some ⟨3, 0⟩)) s) = some (13, []) ∧ answerOf .d t = some (2, []) ∧
      answerOf .d (after (.releaseForce rqD 3) t) = some (0, []) ∧
      ((after (.releaseForce rqD 3) t).reel 3).map (fun r => (r.circulation, r.rescan)) = some (.dispatching, []) ∧
      answerOf .d (after (.releaseForce rqD 3) (after (.reelQuery rqD (some 3)) t)) = some (2, []) := by decide +kernel

/-- The counts of the worked sequence, 2 / 1 / 5, with the claim of port B and the confirmation open: the QUEUED records in
rising sequence, then the CLAIMED one. -/
def withWork : State :=
  let s := putDamage 2 (major5 (.claimed .b)) (putDamage 1 { major5 .queued with seq := 3 }
    (putDamage 0 { major5 .queued with seq := 7 } shelved))
  let s := s.setRpq { s.rpq with claims := s.rpq.claims.set .b 1 }
  putReel 3 { reel3 with rescan := [⟨40, 42⟩], queued := 2, claimed := 1, closed := 5 }
    (s.setReg { s.reg with confirm := s.reg.confirm.set .d (some ⟨3, 1⟩) })
theorem test_withdrawal : let t := after (.releaseForce rqD 3) withWork
    t.rpq.closedList = [1, 0, 2] ∧ t.rpq.claims.get .b = 0 ∧
      (t.reel 3).map (fun r => (r.queued, r.claimed, r.closed)) = some (0, 0, 8) := by decide +kernel

/-- Worked example: a rescan list at its limit. -/
def exampleList : List FrameRange :=
  [⟨100, 104⟩, ⟨120, 120⟩, ⟨130, 131⟩, ⟨200, 210⟩, ⟨300, 300⟩, ⟨302, 305⟩, ⟨400, 400⟩, ⟨500, 520⟩]
theorem test_rescan_join : addRange exampleList ⟨600, 600⟩ =
    [⟨100, 104⟩, ⟨120, 120⟩, ⟨130, 131⟩, ⟨200, 210⟩, ⟨300, 305⟩, ⟨400, 400⟩, ⟨500, 520⟩, ⟨600, 600⟩] := by decide
/-- On a tie the first pair joins (R19): eight ranges of one frame, each gap one frame wide. -/
theorem test_rescan_tie : addRange ((List.range 8).map (fun i => ⟨2 * i, 2 * i⟩)) ⟨16, 16⟩ =
    ⟨0, 2⟩ :: (List.range 7).map (fun i => ⟨2 * i + 4, 2 * i + 4⟩) := by decide
theorem test_rescan_trim : trimFrame (trimFrame (addRange exampleList ⟨600, 600⟩) 120) 203 =
    [⟨100, 104⟩, ⟨130, 131⟩, ⟨200, 202⟩, ⟨204, 210⟩, ⟨300, 305⟩, ⟨400, 400⟩, ⟨500, 520⟩, ⟨600, 600⟩] := by decide
theorem test_rescan_trim_full :
    let l := trimFrame (trimFrame (addRange exampleList ⟨600, 600⟩) 120) 203
    trimFrame l 205 = l ∧ addRange (trimFrame l 204) ⟨103, 118⟩ =
      [⟨100, 118⟩, ⟨130, 131⟩, ⟨200, 202⟩, ⟨205, 210⟩, ⟨300, 305⟩, ⟨400, 400⟩, ⟨500, 520⟩, ⟨600, 600⟩] := by decide

/-! ### TRANSPORT and the head (chapters 2 to 4) -/

theorem test_thread : (after (.thread rqA (some 3)) staged).trc.state = .threaded ∧
    (after (.thread rqA (some 3)) staged).out.head = [.light 150] ∧
    (after (.thread rqA (some 3)) staged).cab.stagings.read 2 = none := by decide +kernel
theorem test_unthread : answerOf .a (after (.unthread rqA) threaded) = some (0, [2, 0]) ∧
    ((after (.unthread rqA) threaded).reel 3).map (·.location) = some (.staging 0) := by decide +kernel
theorem test_set_origin : answerOf .a (after (.setOrigin rqA) threaded) = some (0, [0, 0, 0, 0]) := by decide +kernel
/-- R23: at 19000 ticks a scan speed of 240 gives 456 000 µm/s; a higher speed is clamped to the profile. -/
theorem test_scan : answerOf .a (after (.scan rqA (some 241)) threaded) = some (1, [240, 0, 0]) ∧
    (after (.scan rqA (some 240)) threaded).trc.capstan = 456000 := by decide +kernel
theorem test_inch : (after (.inch rqA (some 0xFFFFFFFF)) threaded).trc.capstan = -20000 ∧
    answerOf .a (after (.inch rqA (some 2000001)) threaded) = some (5, []) := by decide +kernel
theorem test_shuttle : (after (.shuttle rqA (some ⟨1, 49⟩)) threaded).trc.capstan = -50000 ∧
    answerOf .a (after (.shuttle rqA (some ⟨1, 49⟩)) threaded) = some (1, [50, 0]) := by decide +kernel
theorem test_pause_resume : (after (.pause rqA) scanning).trc.state = .hold ∧
    (after (.resume rqA) (after (.pause rqA) scanning)).trc.backupTarget = some (-57000) := by decide +kernel
theorem test_stop : (after (.stop rqA) scanning).trc.state = .threaded ∧
    (after (.stop rqA) scanning).out.head = [.capstan 0, .light 150] := by decide +kernel
theorem test_estop_and_clear : (after .estopAsserted scanning).trc.state = .fault ∧
    answerOf .a (after (.clearFault rqA) (after .estopAsserted scanning)) = some (6, []) ∧
    (after (.clearFault rqA) (after .estopReleased (after .estopAsserted scanning))).trc.state = .threaded := by
  decide +kernel
/-- Table 3-3: steps of the pitch 18772.3 (F1 19660, F2 4, M2 5) from an anchor. -/
theorem test_step_pitch : stepPitch ⟨18772, 19660, 4, 5⟩ 0 0 = ⟨19660, 4, 18772⟩ ∧
    stepPitch ⟨18772, 19660, 4, 5⟩ 19660 4 = ⟨39321, 3, 18772⟩ ∧
    stepPitch ⟨18772, 19660, 4, 5⟩ 58982 2 = ⟨13107, 1, 18773⟩ := by decide
/-- Worked example of one adaptation step: c = 75 776 gives 18773 and F1 29 900. -/
theorem test_correct_pitch : correctPitch ⟨18772, 19660, 4, 5⟩ (37 * 2 ^ 11) = ⟨18773, 29900, 4, 5⟩ := by decide
theorem test_predict : predict ⟨18772, 19660, 4, 5⟩ 2000000 16 = 2300356 := by decide
theorem test_gauge_limits : Gauge.pitchMin .g35x4 * 65536 = 1170472960 ∧ Gauge.pitchMax .g35x4 * 65536 = 1257635840 := by
  decide
theorem test_capture : (after (.frameLine 19005) scanning).out.head = [.capture 1 5] ∧
    (after (.frameLine 19005) scanning).pru.expect = some ⟨38000, 2⟩ := by decide +kernel
theorem test_missing_line : (after (.position 19801) scanning).pru.lastLine = some ⟨1, 19000, false⟩ ∧
    (after (.position 19800) scanning).pru.lastLine = none := by decide +kernel
theorem test_stage_pitch : answerOf .a (after (.stagePitch rqA (some ⟨0, 5, 9, 1⟩)) ready) = some (1, []) ∧
    (after (.stagePitch rqA (some ⟨0, 5, 9, 1⟩)) ready).pru.staged = ⟨1, 5, 1, 2⟩ := by decide +kernel
theorem test_stage_reg : (after (.stageReg rqA (some ⟨7, 6, 4001, 2, 4, 2⟩)) ready).pru.stagedReg = ⟨8, 5, 4000, 3, 3, 1⟩ := by
  decide +kernel
theorem test_commit : (after (.commit rqA) (after (.stagePitch rqA (some ⟨1, 0, 0, 2⟩)) ready)).pru.live.pInt = 17860 ∧
    (after (.commit rqA) scanning).pru.commitPending = true := by decide +kernel
theorem test_tension : (after (.tension 251) scanning).trc.tensionHigh = some 10 ∧
    (after (.tension 250) scanning).trc.tensionHigh = none := by decide +kernel
theorem test_gate_temp : (after (.gateTemp 450) scanning).trc.gateDelay = some 2000 ∧
    (after (.gateTemp 449) scanning).trc.gateDelay = none := by decide +kernel
/-- Worked example of the splice queue: the fourth entry is opened again. -/
theorem test_splice_full : risingEdge 5040000 [⟨5000000, some 5000900⟩, ⟨5012000, some 5012400⟩, ⟨5020000, some 5020700⟩,
    ⟨5031000, some 5031300⟩] = [⟨5000000, some 5000900⟩, ⟨5012000, some 5012400⟩, ⟨5020000, some 5020700⟩,
    ⟨5031000, none⟩] := by decide
theorem test_splice_edge : (after (.spliceEdge 1 100) scanning).trc.spliceQueue = [⟨100, none⟩] ∧
    (after (.spliceEdge 1 0) scanning).trc.spliceQueue = [] := by decide +kernel

/-! ### Rows, damage, shots, grades (chapters 4 to 8) -/

/-- R88, Table 5-3's shape: columns 3, 4 and 6 are two runs. -/
theorem test_runs : runsOf [3, 4, 6] = [⟨3, 4⟩, ⟨6, 6⟩] := by decide
theorem test_class : classOf ⟨0, 11, 4, 5⟩ 20 = .scratch ∧ classOf ⟨0, 10, 4, 5⟩ 4 = .dust ∧ classOf ⟨0, 10, 4, 5⟩ 5 = .blotch := by
  decide
theorem test_row_stray : (after (.row 9 0 (row32 900) (row32 500)) scanning).fcu.strayRows = 1 := by decide +kernel
theorem test_row_taken : ((after (.row 9 0 (row32 900) (row32 500)) (openCtx0 (ctxOf 9 0 0) scanning)).sht.acc.get .c0) =
    ⟨16000, 32⟩ := by decide +kernel
theorem test_row_out_of_order : ((after (.row 9 2 (row32 900) (row32 500)) (openCtx0 (ctxOf 9 0 0) scanning)).fcu.queue.map
    (fun r => (r.frame, r.incomplete, r.density))) = [(9, true, 512)] := by decide +kernel
theorem test_claim : answerOf .b (after (.claimNext rqB (some 255)) (putDamage 0 (major5 .queued) shelved)) =
    some (0, [9, 0, 0, 0, 3, 5, 0, 1, 2, 0, 5, 0, 5, 30, 0, 10, 0, 1, 1, 255, 0, 0, 0, 0]) := by decide +kernel
theorem test_complete : ((after (.complete rqB (some ⟨0, 9, 2⟩)) (putDamage 0 (major5 (.claimed .b)) shelved)).reel 3).map
    (·.rescan) = some [⟨5, 5⟩] := by decide +kernel
theorem test_release_claim : ((after (.releaseClaim rqB (some ⟨0, 9⟩)) (putDamage 0 (major5 (.claimed .b)) shelved)).rpq.damage.read
    0).map (·.state) = some .queued := by decide +kernel
theorem test_release_all : answerOf .b (after (.releaseAll rqB) (putDamage 0 (major5 (.claimed .b)) shelved)) =
    some (0, [1]) := by decide +kernel
theorem test_rescan_add : answerOf .b (after (.rescanAdd rqB (some ⟨3, 5, 100⟩)) threaded) = some (5, []) ∧
    ((after (.rescanAdd rqB (some ⟨3, 5, 99⟩)) threaded).reel 3).map (·.rescan) = some [⟨5, 99⟩] := by decide +kernel
/-- Table 8-2: frame 101 from 4301, and the same layers from 4096 as GRADE_QUERY composes them. -/
def exampleBase : Layer := ⟨⟨4505, -20⟩, ⟨4096, 0⟩, ⟨4096, 1000⟩⟩
def exampleStack : List Layer :=
  [⟨⟨3686, 12⟩, ⟨4300, -8⟩, ⟨8192, 300⟩⟩, ⟨⟨4096, 0⟩, ⟨4096, 0⟩, ⟨2048, -500⟩⟩]
theorem test_grade : Graded 4301 exampleBase exampleStack ⟨⟨4257, -6⟩, ⟨4515, -8⟩, ⟨4301, 12⟩⟩ ∧
    Graded 4096 exampleBase exampleStack ⟨⟨4054, -6⟩, ⟨4300, -8⟩, ⟨4096, 12⟩⟩ := by
  simp only [Graded, exampleBase, exampleStack, List.map_cons, List.map_nil, ChannelGraded]
  decide +kernel
/-- R138 by hand: gain 2.0 under gain 1.5 and lift 10 under gain 2.0 and lift −1. -/
theorem test_compose : applyChannel (applyChannel ⟨4096, 0⟩ ⟨6144, 10⟩) ⟨8192, -1⟩ = ⟨12288, 19⟩ := by decide +kernel
theorem test_push_pop : answerOf .c (after (.pushLayer rqC (some ⟨0, ⟨⟨4096, 1024⟩, ⟨4096, 0⟩, ⟨4096, 0⟩⟩⟩)) shelved) =
    some (1, [1]) ∧ answerOf .c (after (.popLayer rqC (some 0)) shelved) = some (6, []) := by decide +kernel
set_option maxRecDepth 8000 in
theorem test_split_merge : answerOf .c (after (.split rqC (some ⟨0, 40⟩)) threaded) = some (0, [1, 0]) ∧
    (after (.merge rqC (some 0)) (after (.split rqC (some ⟨0, 40⟩)) threaded)).sht.pool.read 1 = none := by decide +kernel
theorem test_approve_reopen : answerOf .c (after (.setFlicker rqC (some ⟨0, 0⟩)) (after (.approve rqC (some 0)) threaded)) =
    some (6, []) ∧ answerOf .c (after (.reopen rqC (some 0)) (after (.approve rqC (some 0)) threaded)) = some (0, []) ∧
    answerOf .c (after (.approve rqC (some 0)) (putDamage 0 (major5 .queued) threaded)) = some (13, []) := by decide +kernel

/-! ### VAULT (chapter 9) -/

/-- A FETCH_OUT: hand-out to bay 0, done, 240 minutes for a sound 35 mm reel (R169). -/
theorem test_fetch_out :
    let s := after (.takeMove rqD) (after (.request rqA (some 3)) shelved)
    let t := after (.moveDone rqD) s
    answerOf .d s = some (0, [0, 0, 3, 77, 0, 0, 0, 5, 1, 0, 1]) ∧ s.cab.slots.read 5 = some (.held 0) ∧
      answerOf .d t = some (0, [0, 1, 0]) ∧ t.cab.bayTimer 0 = ⟨.running, .outward, 240⟩ ∧ t.cab.slots.read 5 = none := by
  decide +kernel
theorem test_move_failed_retry :
    let s := after (.moveFailed rqD) (after (.takeMove rqD) (after (.request rqA (some 3)) shelved))
    s.cab.moves = [move0 .fetchOut .blocked (.slot 5)] ∧
      (after (.retry rqD (some ⟨0, 3⟩)) s).cab.moves = [move0 .fetchOut .queued (.slot 5)] ∧
      ((after (.cancelMove rqD (some ⟨0, 3⟩)) s).reel 3).map (·.circulation) = some .shelved := by decide +kernel
theorem test_bay_climate : answerOf .d (after (.bayClimate rqD (some 2)) ready) = some (5, []) ∧
    (after (.bayClimate rqD (some 1)) ready).rawConditions = 8 := by decide +kernel

/-! ### Witnesses: states and operands that meet the hypotheses of the statements

Where a statement has clauses, each clause is met, at boundary values of its ranges. -/

theorem witness_StepTakesTheFrontCommand :
    ({ ready with pending := [.secondTick, .minuteTick] } : State).pending = .secondTick :: [.minuteTick] ∧
      ready.pending = [] := ⟨rfl, rfl⟩

/-- A working part with a command waiting, for the conditions that every step keeps. -/
def start : State := { threaded with pending := [.secondTick] }

theorem start_steps : ∃ t, step start = .next t := ⟨_, rfl⟩

theorem witness_SettingsStayInRange : SettingsInRange start ∧ ∃ t, step start = .next t := by
  refine ⟨?_, start_steps⟩
  intro row h
  have hv : settingRows.all (fun r => (start.cfg.settings.read r.index).any (fun v => r.range.admits v)) = true := by
    decide +kernel
  have := List.all_eq_true.mp hv row h
  revert this
  cases start.cfg.settings.read row.index with
  | none => simp
  | some v => intro hw; exact ⟨v, rfl, by simpa using hw⟩

theorem witness_RolesStayExclusive : RolesExclusive start ∧ ∃ t, step start = .next t :=
  ⟨by intro p q; cases p <;> cases q <;> decide +kernel, start_steps⟩

theorem witness_LightStaysSafe : SettingsInRange start ∧ LightSafe start ∧ ∃ t, step start = .next t :=
  ⟨witness_SettingsStayInRange.1, by unfold LightSafe; decide +kernel, start_steps⟩

theorem witness_TransportStaysCoherent : TransportCoherent start ∧ ∃ t, step start = .next t :=
  ⟨by unfold TransportCoherent; decide +kernel, start_steps⟩

theorem witness_FrameQueueStaysBounded : TransportCoherent start ∧ QueueBounded start ∧ ∃ t, step start = .next t :=
  ⟨witness_TransportStaysCoherent.1, by unfold QueueBounded; decide +kernel, start_steps⟩

theorem witness_LivePitchStaysInLimits : PitchInLimits start ∧ ∃ t, step start = .next t :=
  ⟨by unfold PitchInLimits Pitch.within Pitch.inFields; decide +kernel, start_steps⟩

theorem witness_RescanListsStayOrdered : RescansOrdered start ∧ ∃ t, step start = .next t :=
  ⟨by unfold RescansOrdered rescanOrdered; decide +kernel, start_steps⟩

theorem witness_CabConditionsStayCurrent : CabCurrent start ∧ ∃ t, step start = .next t :=
  ⟨by unfold CabCurrent; decide +kernel, start_steps⟩

/-- A table is canonical when its lists are; what holds for both contexts is said once. -/
theorem canonical_of {s : State} (h : (s.dsu.zero.regions.wf && s.dsu.one.regions.wf) = true)
    (h' : (s.reg.reels.wf && s.rpq.damage.wf && s.sht.pool.wf && s.cab.slots.wf && s.cab.bays.wf && s.cab.stagings.wf &&
      s.cfg.settings.wf) = true) : TablesCanonical s := by
  simp only [Bool.and_eq_true] at h h'
  have hc : ∀ c : CtxId, (s.dsu.get c).regions.wf = true := fun c => by cases c <;> simp [Two.get, h]
  simp only [TablesCanonical, h', hc, implies_true, and_self]

theorem start_canonical : TablesCanonical start := canonical_of (by decide +kernel) (by decide +kernel)

theorem start_sizes : SizesHold start := by
  have hr : ∀ e ∈ start.reg.reels, e.1 < 96 ∧ e.2.home < 80 ∧ e.2.location = .transport := by decide +kernel
  have hm : start.cab.moves = [] := by decide +kernel
  have hd : ∀ c : CtxId, (start.dsu.get c).regions = [] := by intro c; cases c <;> rfl
  have hp : ∀ p : Port, start.rpq.claims.get p = 0 := by intro p; cases p <;> rfl
  simp only [SizesHold, hm, hd, hp, List.not_mem_nil, false_implies, implies_true, true_and, List.map_nil, Nat.zero_le]
  refine ⟨fun e he => ⟨(hr e he).1, (hr e he).2.1, by rw [(hr e he).2.2]; trivial⟩, ?_⟩
  decide +kernel

theorem witness_TablesKeepSizeAndForm : SizesHold start ∧ TablesCanonical start ∧ ∃ t, step start = .next t :=
  ⟨start_sizes, start_canonical, start_steps⟩

/-- The last offset and index a value can have, an unused index, a duplicate SCAN, and the three ways past the end. -/
theorem witness_PreloadStoresAndEnds :
    State.reset.cfg.running = true ∧ (127#16).toNat ≤ 127 ∧ (4094#16).toNat + 1 < 4096 ∧ settingRow 5 = none ∧
      settingRow 83 = some ⟨83, 90, .span 10 720⟩ ∧ duplicateWrite 83 10 State.reset = false ∧
      settingRow 1 = some ⟨1, 2, .span 0 4⟩ ∧ duplicateWrite 1 (SettingRange.store (.span 0 4) 1) State.reset = true ∧
      127 < (128#16).toNat ∧ 4096 ≤ (4095#16).toNat + 1 := by decide +kernel

theorem witness_ProtectionEntersFault :
    (scanning.trc.estop = false ∧ scanning.trc.state ≠ .unthreaded ∧ scanning.trc.state ≠ .fault) ∧
      (putTrc (fun t => { t with tensionHigh := some 0 }) scanning).trc.tensionHigh = some 0 ∧
      (putTrc (fun t => { t with tensionLow := some 0 }) scanning).trc.tensionLow = some 0 ∧
      50 ≤ (putTrc (fun t => { t with silence := 50 }) scanning).trc.silence ∧
      scanning.reel 3 ≠ none ∧ (openCtx0 (ctxOf 9 5 0) scanning).fcu.ctx.get .c0 = some (ctxOf 9 5 0) ∧
      scanning.fcu.ctx.zero = none ∧ scanning.fcu.ctx.one = none := by decide +kernel

theorem witness_EstopLevelFollowsTheInput : ready.trc.state = .unthreaded ∧ (inState .fault threaded).trc.state = .fault := by
  decide +kernel

/-- The counters of TMB at the start, within and at the last counts of their periods. -/
def clockAt (millis seconds : Nat) : State := ready.setTmb ⟨0, millis, seconds⟩

theorem test_counters_wrap : (after .millisecondTick (clockAt 999 58)).tmb = ⟨0, 0, 59⟩ ∧
    (after .millisecondTick (clockAt 999 59)).tmb = ⟨0, 0, 0⟩ := by decide +kernel

theorem witness_TicksCount :
    (∀ x ∈ [(0, 0), (998, 59), (999, 58), (999, 59), (0, 59)],
      (clockAt x.1 x.2).tmb.millis = x.1 ∧ (clockAt x.1 x.2).tmb.seconds = x.2 ∧ x.1 < 1000 ∧ x.2 < 60) ∧
      ready.cab.climateOut = false ∧ (putCab (fun c => { c with climateOut := true }) ready).cab.climateOut = true := by
  decide +kernel

/-- Report below the target; at an inch target, forward and backward; above and at a backup target. -/
def inching (target : Int) (forward : Bool) : State :=
  inState .inching (putTrc (fun t => { t with inch := some ⟨target, forward⟩ }) threaded)
def backing : State := inState .backup (putTrc (fun t => { t with backupTarget := some (-57000) }) threaded)

/-- A run that had no line ahead of it, on its way back. -/
def runOver : State := putPru (fun u => { u with linesOver := true }) backing

/-- Beyond its last line a run is given no expectation by a later backup either; the next run is (R51, R57). -/
theorem test_lines_over : (after (.position (BitVec.ofInt 32 (-57000))) runOver).pru.expect = none ∧
    (after (.position (BitVec.ofInt 32 (-57000))) backing).pru.expect = some ⟨0, 0⟩ ∧
    (after (.scan rqA (some 240)) (inState .threaded runOver)).pru.expect = some ⟨19000, 1⟩ := by decide +kernel

/-- The least line ahead: frame 0 from −1, frame 65535 from just below its line, none from there on; with an anchor and
without one; a window frame passed over, one reached, and no window (R51, R63). -/
theorem placed_boundaries : let p := backing.pru.live;
    (-1 : Int) < linePosition p ⟨0, 0⟩ 0 ∧ ¬65535 * 19000 - 1 < linePosition p ⟨0, 0⟩ 65534 ∧
      65535 * 19000 - 1 < linePosition p ⟨0, 0⟩ 65535 ∧ ¬65535 * 19000 < linePosition p ⟨0, 0⟩ 65535 ∧
      (0 < linePosition p ⟨0, 0⟩ 1 ∧ ¬0 < linePosition p ⟨0, 0⟩ 0) ∧
      (∀ w ∈ [AdaptWindow.frame 0, .frame 1, .off, .restart],
        (putPru (fun u => { u with window := w }) backing).pru.window = w) ∧
      (putPru (fun u => { u with anchor := none }) backing).pru.anchor = none := by decide +kernel

/-- R51's own example: a line before the anchor, at 18772.3 ticks. -/
theorem test_line_before_anchor : linePosition ⟨18772, 19660, 4, 5⟩ ⟨0, 1⟩ 0 = -18773 := by decide

theorem backing_limits : PitchInLimits backing ∧ PitchInLimits threaded := by
  unfold PitchInLimits Pitch.within Pitch.inFields; decide +kernel

theorem witness_PositionReportOutsideScanning :
    ((inching 100 true).trc.state ≠ .scanning ∧ (inching 100 true).trc.inch = some ⟨100, true⟩ ∧ (99#32).toInt < 100) ∧
      ((inching 100 true).pru.commitPending = false ∧ (100 : Int) ≤ (100#32).toInt) ∧
      ((inching (-1) false).trc.inch = some ⟨-1, false⟩ ∧ (0xFFFFFFFF#32).toInt ≤ -1) ∧
      (backing.trc.state = .backup ∧ backing.trc.backupTarget = some (-57000) ∧ (-57000 : Int) < (0#32).toInt ∧
        (BitVec.ofInt 32 (-57000)).toInt ≤ -57000 ∧ backing.pru.lock ≠ .seeking ∧ backing.pru.anchor = some ⟨0, 0⟩) ∧
      (backing.pru.linesOver = false ∧ runOver.pru.linesOver = true ∧ runOver.trc.state = .backup) ∧
      (putPru (fun u => { u with lock := .seeking }) backing).pru.lock = .seeking := by decide +kernel

/-- The last position inside the window and inside a zone; one above the zone end. -/
def spliced : State := putTrc (fun t => { t with spliceQueue := [⟨-60000, some (-59000)⟩, ⟨0, none⟩] }) scanning

theorem witness_PositionReportInScanning :
    (spliced.trc.state = .scanning ∧ spliced.trc.linkSeen = true ∧ spliced.trc.handle = some 3 ∧ spliced.reel 3 ≠ none) ∧
      (spliced.pru.expect = some ⟨19000, 1⟩ ∧ (19800#32).toInt ≤ 19000 + spliced.pru.windowHalf) ∧
      (6000#32).toInt ≤ -59000 + (spliced.setting Setting.spliceLead : Int) + spliced.setting Setting.spliceMargin ∧
      -59000 + (spliced.setting Setting.spliceLead : Int) + spliced.setting Setting.spliceMargin < (6001#32).toInt ∧
      spliced.trc.spliceQueue = [⟨-60000, some (-59000)⟩] ++ [⟨0, none⟩] := by decide +kernel

theorem witness_EdgeOutsideTheWindow :
    threaded.trc.state ≠ .scanning ∧ ready.trc.state = .unthreaded ∧ (scanning.trc.state = .scanning ∧ scanning.pru.lock ≠ .seeking ∧
      scanning.pru.expect = some ⟨19000, 1⟩ ∧ (18199#32).toInt < 19000 - scanning.pru.windowHalf ∧
      0 ≤ scanning.pru.windowHalf) := by decide +kernel

/-- A scan run whose frame line processing stands as `f` leaves it. -/
def lineAt (f : Pru → Pru) : State := putPru f scanning
def lockAt (l : LockState) (count missing : Nat) : State := lineAt (fun u => { u with lock := l, count, missing })

/-- The run of `scanning`, with the adaptation window that a default run has. -/
def adapting (l : LockState) (count : Nat) (w : AdaptWindow) : State :=
  lineAt (fun u => { u with lock := l, count, window := w })

theorem plain_of {s : State} {pk : Int} {k : Nat} (h : s.trc.state = .scanning ∧ s.pru.expect = some ⟨pk, k⟩ ∧
    s.pru.lock ≠ .seeking ∧ s.pru.reanchor = false ∧ s.pru.commitPending = false ∧ s.pru.window ≠ .restart ∧
    s.pru.window ≠ .frame k) : PlainLine s pk k := ⟨⟨h.1, h.2.1, h.2.2.1⟩, h.2.2.2⟩

theorem undisturbed_scanning (f : Pru → Pru) (k : Nat) (h : k < 65535) : Undisturbed (lineAt f) k :=
  ⟨h, .inr fun c x hx => by cases c <;> cases hx⟩

/-- Table 3-3: a step without a carry, one with the secondary carry and A2 just at M2, one with both carries (R50). -/
theorem test_carries : CarriedOn ⟨18772, 19660, 4, 5⟩ 0 0 18772 19660 4 ∧
    CarriedOn ⟨18772, 19660, 4, 5⟩ 0 1 18772 19661 0 ∧ CarriedOn ⟨18772, 19660, 4, 5⟩ 58982 2 18773 13107 1 :=
  ⟨⟨0, 0, by decide⟩, ⟨0, 1, by decide⟩, ⟨1, 1, by decide⟩⟩

/-- LW is 120, the lock count 8: an error of 120 and one of 121, counts 6 and 7, the edge of the window at 800. The
adaptation window is that of a default run, ended at this line, or waiting to restart; half a pitch is 9500; a commit of
the same and of another pitch. -/
theorem witness_ExpectedLineStepsTheLock :
    (∀ f k, k < 65535 → Undisturbed (lineAt f) k) ∧
      (∀ x ∈ [(LockState.locked, 8), (.unlocked, 6), (.unlocked, 7)], PlainLine (adapting x.1 x.2 (.frame 16)) 19000 1) ∧
      PlainLine scanning 19000 1 ∧ ((19800#32).toInt - 19000).natAbs ≤ scanning.pru.halfWidth ∧
      ((19120#32).toInt - 19000).natAbs ≤ scanning.pru.liveReg.lw ∧
      scanning.pru.liveReg.lw < ((19121#32).toInt - 19000).natAbs ∧ 6 + 1 < lockCount scanning.pru.liveReg.index ∧
      lockCount scanning.pru.liveReg.index ≤ 7 + 1 ∧
      (Expected (adapting .locked 8 (.frame 1)) 19000 1 ∧ LocksAt 120 (adapting .locked 8 (.frame 1)) ∧
        ¬LocksAt 121 (adapting .locked 8 (.frame 1)) ∧ Expected (adapting .unlocked 6 .restart) 19000 1) ∧
      (Expected (lineAt (fun u => { u with reanchor := true })) 19000 1 ∧
        ((28500#32).toInt - 19000).natAbs ≤ scanning.pru.live.pInt / 2) ∧
      (∀ q ∈ [⟨19000, 0, 0, 2⟩, Pitch.mk 18000 0 0 2], Expected (lineAt (fun u => { u with
        commitPending := true, staged := q })) 19000 1) ∧ clampPitch .g35x4 ⟨19000, 0, 0, 2⟩ = scanning.pru.live ∧
      clampPitch .g35x4 ⟨18000, 0, 0, 2⟩ ≠ scanning.pru.live := by
  refine ⟨undisturbed_scanning, ?_, plain_of (by decide +kernel), ?_⟩
  · intro x hx
    simp only [List.mem_cons, List.not_mem_nil, or_false] at hx
    rcases hx with rfl | rfl | rfl <;> exact plain_of (by decide +kernel)
  · unfold Expected LocksAt
    decide +kernel

/-- Context 0 free; context 0 open for another frame and 1 free; both open; the other one open for the same frame. -/
def bothOpen : State :=
  putFcu (fun u => { u with ctx := ⟨some (ctxOf 70 5 0), some (ctxOf 80 5 0)⟩ }) scanning
def passing : State := putFcu (fun u => { u with nextFrame := 2 }) scanning
/-- The line of frame 65535 is expected. -/
def lastLineOf : State := lineAt (fun u => { u with expect := some ⟨19000, 65535⟩ })
def bothOpenLast : State :=
  putFcu (fun u => { u with ctx := ⟨some (ctxOf 65534 5 0), some (ctxOf 65533 5 0)⟩ }) lastLineOf
def passingLast : State := putFcu (fun u => { u with nextFrame := 65536 }) lastLineOf

/-- 29 records wait, and context 0 is OPEN for frame k. -/
def nearlyFull (k : Nat) (s : State) : State :=
  putFcu (fun u => { u with
      queue := (List.replicate 29 (after .contextAgeExpiry (openCtx0 (ctxOf 9 5 100) scanning)).fcu.queue).flatten })
    (openCtx0 (ctxOf k 5 0) s)

/-- Frame 65535 is still in a context and the queue has room for one record: its line holds the scan, and the run ends all the
same (R46, R76), BACKPRESSURE kept. -/
theorem test_last_line_in_hold :
    let t := after (.frameLine 19000) (nearlyFull 65535 lastLineOf)
    t.fcu.queue.length = 30 ∧ t.trc.state = .threaded ∧ t.trc.holds = ⟨true, false, false⟩ ∧
      AlertSet.has (t.alt.get .a).latched .frameLimit = true := by decide +kernel

theorem witness_ExpectedLineIsCaptured :
    (∀ s ∈ [scanning, adapting .locked 8 (.frame 16), bothOpen, passing, openCtx0 (ctxOf 1 5 0) scanning,
        nearlyFull 1 scanning], PlainLine s 19000 1 ∧ s.trc.linkSeen = true ∧ s.trc.handle = some 3) ∧
      (∀ s ∈ [lastLineOf, bothOpenLast, passingLast, openCtx0 (ctxOf 65535 5 0) lastLineOf, nearlyFull 65535 lastLineOf],
        PlainLine s 19000 65535 ∧ s.trc.linkSeen = true ∧ s.trc.handle = some 3) ∧
      ((18200#32).toInt - 19000).natAbs ≤ scanning.pru.halfWidth ∧
      LowestFree scanning .c0 ∧ LowestFree (openCtx0 (ctxOf 70 5 0) scanning) .c1 ∧
      (∀ c, bothOpen.fcu.ctx.get c ≠ none ∧ bothOpenLast.fcu.ctx.get c ≠ none) ∧
      (scanning.fcu.nextFrame ≤ 1 ∧ 1 < passing.fcu.nextFrame ∧ 65535 < passingLast.fcu.nextFrame ∧
        bothOpenLast.fcu.nextFrame ≤ 65535) ∧
      (∀ x ∈ [(1, scanning), (65535, lastLineOf)],
        (∀ s ∈ [openCtx0 (ctxOf x.1 5 0) x.2, nearlyFull x.1 x.2], LowestFree s .c1 ∧
          s.fcu.ctx.get (CtxId.other .c1) = some (ctxOf x.1 5 0) ∧ s.fcu.nextFrame ≤ x.1 ∧
          s.trc.holds.backpressure = false) ∧
        (openCtx0 (ctxOf x.1 5 0) x.2).fcu.queue.length + 1 < 30 ∧ 30 ≤ (nearlyFull x.1 x.2).fcu.queue.length + 1) ∧
      (∀ c x, lastLineOf.fcu.ctx.get c = some x → x.frame ≠ 65535) := by
  refine ⟨?_, ?_, by decide +kernel, ⟨rfl, nofun⟩, ⟨rfl, fun _ => nofun⟩, ?_, by decide +kernel, ?_, ?_⟩
  · intro s hs
    simp only [List.mem_cons, List.not_mem_nil, or_false] at hs
    rcases hs with rfl | rfl | rfl | rfl | rfl | rfl <;> exact ⟨plain_of (by decide +kernel), rfl, rfl⟩
  · intro s hs
    simp only [List.mem_cons, List.not_mem_nil, or_false] at hs
    rcases hs with rfl | rfl | rfl | rfl | rfl <;> exact ⟨plain_of (by decide +kernel), rfl, rfl⟩
  · intro c; cases c <;> exact ⟨nofun, nofun⟩
  · intro x hx
    simp only [List.mem_cons, List.not_mem_nil, or_false] at hx
    rcases hx with rfl | rfl <;> refine ⟨?_, by decide +kernel, by decide +kernel⟩ <;> intro s hs <;>
      simp only [List.mem_cons, List.not_mem_nil, or_false] at hs <;>
      rcases hs with rfl | rfl <;> exact ⟨⟨rfl, fun _ => nofun⟩, rfl, by decide +kernel, rfl⟩
  · intro c x h; cases c <;> cases h

/-- SEEKING since the line of frame 4, the first edge one pitch beyond it and one at its own frame's place. -/
def seeking : State := lineAt (fun u => { u with lock := .seeking, missing := 3, expect := none, seekFrom := some 4 })

theorem witness_MissingLineIsDeclared :
    (∀ x ∈ [(LockState.locked, 0), (.locked, 1), (.unlocked, 0), (.unlocked, 1), (.unlocked, 2)],
      Expected (lockAt x.1 8 x.2) 19000 1 ∧ Undisturbed (lockAt x.1 8 x.2) 1 ∧ (lockAt x.1 8 x.2).trc.linkSeen = true ∧
        (lockAt x.1 8 x.2).trc.spliceQueue = [] ∧ (lockAt x.1 8 x.2).pru.missing = x.2) ∧
      19000 + scanning.pru.windowHalf < (19801#32).toInt ∧
      (∀ rise b1 b2, CarriedOn scanning.pru.live scanning.pru.a1 scanning.pru.a2 rise b1 b2 →
        (38800#32).toInt ≤ 19000 + rise + scanning.pru.windowHalf) ∧
      (adapting .locked 8 (.frame 1)).pru.window = .frame 1 ∧ LowestFree (lockAt .locked 8 0) .c0 ∧
      scanning.fcu.nextFrame ≤ 1 ∧
      (seeking.trc.state = .scanning ∧ seeking.pru.lock = .seeking ∧ seeking.pru.expect = none ∧
        seeking.pru.origin = some 0 ∧ seeking.pru.seekFrom = some 4 ∧ seeking.pru.commitPending = false) ∧
      (∀ k, k < 65535 → Undisturbed seeking k) ∧ LowestFree seeking .c0 := by
  refine ⟨?_, by decide +kernel, ?_, rfl, ⟨rfl, nofun⟩, by decide +kernel, by decide +kernel,
    undisturbed_scanning _, ⟨rfl, nofun⟩⟩
  rotate_left
  · rintro _ _ _ ⟨c1, _, -, -, -, -, rfl⟩
    have h : (38800#32).toInt ≤ 19000 + (scanning.pru.live.pInt : Int) + scanning.pru.windowHalf := by decide +kernel
    exact h.trans (by push_cast; omega)
  intro x hx
  have hs : x.1 ≠ .seeking ∧ True := by
    revert x; decide
  exact ⟨⟨rfl, rfl, hs.1⟩, undisturbed_scanning _ _ (by decide), rfl, rfl, rfl⟩

/-- The table of R43: no entry, an open newest entry, one to three entries, four; at the mark and one above it. -/
theorem witness_SpliceEdgeActsOnTheQueue :
    (0#8).toNat ≤ 1 ∧ (1#8).toNat ≤ 1 ∧ threaded.trc.state ≠ .scanning ∧ (0#32).toInt ≤ scanning.trc.edgeMark ∧
      scanning.trc.edgeMark < (1#32).toInt ∧ scanning.trc.spliceQueue = [] ∧
      spliced.trc.spliceQueue = [⟨-60000, some (-59000)⟩] ++ [⟨0, none⟩] ∧
      ([⟨1, some 2⟩, ⟨3, some 4⟩, ⟨5, some 6⟩] : List Splice) = [⟨1, some 2⟩, ⟨3, some 4⟩] ++ [⟨5, some 6⟩] ∧
      ([⟨1, some 2⟩, ⟨3, some 4⟩, ⟨5, some 6⟩, ⟨7, some 8⟩] : List Splice).length = 3 + 1 := by decide +kernel

theorem witness_TensionReadingDrivesTheTimers :
    scanning.setting Setting.tensionDelay ≠ 0 ∧ (scanning.trc.state.watchesHigh = true ∧
      scanning.trc.profile.tensionHigh < (251#16).toNat ∧ ¬scanning.trc.profile.tensionHigh < (250#16).toNat) ∧
      (scanning.trc.state.watchesLow = true ∧ (19#16).toNat < 20 ∧ ¬(20#16).toNat < 20) ∧
      (putSetting Setting.tensionDelay 0 scanning).setting Setting.tensionDelay = 0 ∧ scanning.trc.tensionHigh = none ∧
      scanning.trc.tensionLow = none ∧
      (putTrc (fun t => { t with tensionHigh := some 5, tensionLow := some 0 }) scanning).trc.tensionHigh ≠ none ∧
      (putTrc (fun t => { t with tensionHigh := some 5, tensionLow := some 0 }) scanning).trc.tensionLow ≠ none := by
  decide +kernel

/-- With TENSION_DELAY at 0: readings at the limits leave both timers idle, one beyond leaves a running timer running. -/
theorem test_tension_delay_zero : let s := putSetting Setting.tensionDelay 0 scanning
    (after (.tension 250) s).trc.state = .scanning ∧ (after (.tension 20) s).trc.tensionLow = none ∧
      (after (.tension 251) (putTrc (fun t => { t with tensionHigh := some 5 }) s)).trc.tensionHigh = some 5 := by
  decide +kernel

def hotIn (st : TransportState) (operator : Bool) : State :=
  inState st (putTrc (fun t => { t with gateHot := true, holds := ⟨false, true, operator⟩ }) scanning)

/-- The heat clears in HOLD with OPERATOR left, and in INCHING with a hold-light timer that runs, is at 0, has expired (R24;
log entry 4). -/
theorem test_heat_clears : let inch := fun x => putTrc (fun t => { t with holdLight := x }) (hotIn .inching false);
    (after (.gateTemp 400) (hotIn .hold true)).trc.state = .hold ∧ (after (.gateTemp 400) (hotIn .hold false)).trc.light = 0 ∧
      [some 5, some 0, none].map (fun x => (after (.gateTemp 400) (inch x)).trc.light) =
        [(inch none).setting Setting.lightHold, (inch none).setting Setting.lightHold, 0] := by decide +kernel

theorem witness_GateHeatHoldsTheLight :
    scanning.trc.gateHot = false ∧ (449#16).toNat < scanning.setting Setting.gateTempLimit ∧
      scanning.setting Setting.gateTempLimit ≤ (450#16).toNat ∧ scanning.setting Setting.gateTempDelay ≠ 0 ∧
      (putTrc (fun t => { t with gateDelay := some 0 }) scanning).trc.gateDelay = some 0 ∧
      (putSetting Setting.gateTempDelay 0 scanning).setting Setting.gateTempDelay = 0 ∧ scanning.trc.gateDelay = none ∧
      (∀ st ∈ [TransportState.unthreaded, .threaded, .inching, .shuttle, .scanning, .hold, .backup, .fault],
        ∀ operator, (hotIn st operator).trc.gateHot = true ∧ (hotIn st operator).trc.state = st ∧
          (hotIn st operator).trc.holds = ⟨false, true, operator⟩ ∧ (hotIn st operator).cfg = scanning.cfg) ∧
      min (scanning.setting Setting.gateTempRecover) (scanning.setting Setting.gateTempLimit - 10) < (401#16).toNat ∧
      (400#16).toNat ≤ min (scanning.setting Setting.gateTempRecover) (scanning.setting Setting.gateTempLimit - 10) := by
  decide +kernel

theorem alone (x : Ctx) : TakenAlone (openCtx0 x scanning) .c0 x := ⟨rfl, .inl rfl⟩

/-- Both contexts OPEN, context 1 the newer, at its row 22. -/
def twoOpen : State :=
  putFcu (fun u => { u with ctx := ⟨some (ctxOf 70 5 100), some (ctxOf 71 22 100)⟩, newest := .c1 }) scanning

theorem witness_RowInOrderIsTaken :
    (row32 900).length = 32 ∧ TakenAlone (openCtx0 (ctxOf 9 22 0) scanning) .c0 (ctxOf 9 22 0) ∧
      (ctxOf 9 22 0).frame = (9#16).toNat ∧ (22#8).toNat = (ctxOf 9 22 0).nextRow ∧ (ctxOf 9 22 0).nextRow < 23 ∧
      (∀ c, ((openCtx0 (ctxOf 9 22 0) scanning).dsu.get c).regions.wf = true) ∧ TakenAlone twoOpen .c0 (ctxOf 70 5 100) ∧
      (twoOpen.fcu.newest = .c1 ∧ twoOpen.fcu.ctx.get .c1 = some (ctxOf 71 22 100) ∧
        twoOpen.fcu.ctx.get (CtxId.other .c1) = some (ctxOf 70 5 100) ∧ (ctxOf 70 5 100).frame ≠ 71) ∧
      ∀ c x, scanning.fcu.ctx.get c = some x → x.frame ≠ (9#16).toNat :=
  ⟨by decide, alone _, rfl, rfl, by decide, fun c => by cases c <;> rfl, ⟨rfl, .inr (by decide)⟩, by decide +kernel,
    by intro c x h; cases c <;> cases h⟩

theorem witness_ContextClosesIncomplete :
    TakenAlone (openCtx0 (ctxOf 9 22 100) scanning) .c0 (ctxOf 9 22 100) ∧ 100 ≤ (ctxOf 9 22 100).age ∧
      (23#8).toNat ≠ (ctxOf 9 22 100).nextRow ∧ 24 ≤ (24#8).toNat ∧ (ctxOf 9 22 100).frame = (9#16).toNat ∧
      (openCtx0 (ctxOf 9 22 100) scanning).fcu.queue = [] ∧ (openCtx0 (ctxOf 9 22 100) scanning).reel 3 ≠ none ∧
      TakenAlone twoOpen .c0 (ctxOf 70 5 100) ∧
      (openCtx0 (ctxOf 9 22 100) scanning).shotAt 3 9 = some (0, detectedShot 3 0) ∧
      (openCtx0 (ctxOf 9 22 100) scanning).sht.pool.read 0 = some (detectedShot 3 0) :=
  ⟨alone _, by decide, by decide, by decide, rfl, rfl, by decide +kernel, ⟨rfl, .inr (by decide)⟩, by decide +kernel,
    by decide +kernel⟩

/-- Row 23 is the next row of frame 9 of reel 3 in context 0, with the regions and the accumulator given, and the reel's
frontier at `frontier`: above 9 the frame is a rescan. -/
def closing (regions : Table Region) (sum count frontier : Nat) : State :=
  let s := openCtx0 (ctxOf 9 23 0) scanning
  let s := (s.setDsu (s.dsu.set .c0 { openSurvey 600 0 with regions })).setSht { s.sht with acc := s.sht.acc.set .c0 ⟨sum, count⟩ }
  putReel 3 { reel3 with location := .transport, circulation := .threaded, frontier } s

theorem closing_last (regions : Table Region) (sum count frontier : Nat) :
    LastRow (closing regions sum count frontier) 9 (row32 900) (row32 500) .c0 (ctxOf 9 23 0) :=
  ⟨by decide, by decide, ⟨rfl, .inl rfl⟩, rfl, rfl⟩

/-- Mean density 500 of 384 cells after frame 8 of density 404 or 405: 96 apart is a cut, 95 is none (R129). -/
def graded (previous first : Nat) (pool : Table Shot) : State :=
  let s := closing [] 176000 352 9
  s.setSht { s.sht with previousM := some previous, lastFrame := some 8, pool := pool.write 0 (detectedShot 3 first) }

def closed (box : Box) (area depth : Nat) : Region :=
  { isOpen := false, box, area, depth, previous := none, current := none, extended := false }
def dustBox : Box := ⟨3, 4, 5, 6⟩
def dust : State := closing [(0, closed dustBox 4 400)] 0 0 9
/-- A chain of `len` frames for that region, from frame 8. -/
def chained (len : Nat) (refs : List DamageRef) : State :=
  dust.setRpq { dust.rpq with prev := [⟨⟨2, 3, 4, 5⟩, .dust, len, refs⟩], prevFrom := some ⟨3, 8⟩ }
def gated (n : Nat) (s : State) : State :=
  s.setRpq { s.rpq with gate := (List.range n).map (fun i => ⟨⟨i + 10, i + 10, 30, 30⟩, .dust, 0, false⟩) }

/-- Every entry below `n` in use. -/
def filled {α : Type} (n : Nat) (x : Nat → α) : Table α := (List.range n).map (fun i => (i, x i))

theorem read_of_mem {α : Type} {t : Table α} {j : Nat} {x : α} (h : (j, x) ∈ t) : t.read j ≠ none := by
  induction t with
  | nil => cases h
  | cons e t ih =>
    simp only [Table.read]
    split
    · nofun
    · rcases List.mem_cons.mp h with rfl | h
      · contradiction
      · exact ih h

theorem filled_read {α : Type} (n : Nat) (x : Nat → α) : ∀ j, j < n → (filled n x).read j ≠ none := fun j h =>
  read_of_mem (x := x j) (List.mem_map.mpr ⟨j, List.mem_range.mpr h, rfl⟩)

theorem witness_CompleteFrameIsRecorded :
    (∀ regions sum count frontier,
      LastRow (closing regions sum count frontier) 9 (row32 900) (row32 500) .c0 (ctxOf 9 23 0)) ∧
      (closing [] 0 352 9).reel 3 ≠ none ∧ (closing [] 0 352 9).fcu.queue = [] ∧
      (closing [] 0 352 9).repairWaiting = false ∧
      ((List.range 32).filter (fun j => ((closing [] 0 352 9).dsu.get .c0).threshold ≤ cellAt (row32 900) j)).length =
        384 - 352 ∧ 351 + 32 < 384 ∧ (closing [] 0 351 9).shotAt 3 9 = some (0, detectedShot 3 0) ∧
      (closing [] 0 351 9).sht.pool.read 0 = some (detectedShot 3 0) := ⟨closing_last, by decide +kernel⟩

/-- The density clause: a jump of 96, one of 95, MIN_SHOT 6 met and missed, a free shot record and none. -/
theorem witness_CompleteFrameIsRecorded_density :
    TablesCanonical (graded 404 3 []) ∧ (graded 404 3 []).shotAt 3 9 = some (0, detectedShot 3 3) ∧
      (176000 + 32 * 500) / (352 + 32) = 500 ∧ (graded 404 3 []).frontier 3 ≤ 9 ∧
      (graded 404 3 []).setting Setting.cutThreshold ≤ ((500 : Int) - 404).natAbs ∧
      ¬(graded 405 3 []).setting Setting.cutThreshold ≤ ((500 : Int) - 405).natAbs ∧
      (graded 404 3 []).setting Setting.minShot ≤ 9 - 3 ∧ ¬(graded 404 4 []).setting Setting.minShot ≤ 9 - 4 ∧
      (graded 404 3 []).sht.lastFrame = some (9 - 1) ∧ (graded 404 3 []).sht.pool.read 1 = none ∧
      ∀ j, j < 512 → (filled 512 (fun n => detectedShot 3 n)).read j ≠ none :=
  ⟨canonical_of (by decide +kernel) (by decide +kernel), by decide +kernel, by decide, by decide +kernel, by decide +kernel,
    by decide +kernel, by decide +kernel, by decide +kernel, by decide +kernel, by decide +kernel, filled_read _ _⟩

/-- The damage clauses: no region, first pass and rescan; a DUST of area 4. Classes and severities at the edges of Tables
5-4 and 5-5. -/
theorem witness_CompleteFrameIsRecorded_regions :
    (TablesCanonical (closing [] 0 352 9) ∧ TablesCanonical (closing [] 0 352 10) ∧ TablesCanonical dust) ∧
      (takeRow 23 (row32 900) ((closing [] 0 352 9).dsu.get .c0)).regions = [] ∧
      (takeRow 23 (row32 900) (dust.dsu.get .c0)).regions = [(0, closed dustBox 4 400)] ∧
      (takeRow 23 (row32 900) (dust.dsu.get .c0)).lostArea = 0 ∧
      (dust.frontier 3 ≤ 9 ∧ 9 < (closing [] 0 352 10).frontier 3) ∧
      MarkOf (closed dustBox 4 400) 0 .dust .minor dustBox ∧
      MarkOf (closed ⟨0, 11, 0, 2⟩ 24 0) (-13) .blotch .moderate ⟨13, 23, 0, 2⟩ ∧
      MarkOf (closed ⟨0, 10, 0, 1⟩ 25 0) 3 .blotch .major ⟨0, 7, 0, 1⟩ ∧
      MarkOf (closed ⟨0, 11, 0, 1⟩ 24 0) 0 .scratch .moderate ⟨0, 11, 0, 1⟩ ∧
      MarkOf (closed ⟨0, 23, 0, 1⟩ 48 0) 0 .scratch .major ⟨0, 23, 0, 1⟩ := by
  refine ⟨by refine ⟨?_, ?_, ?_⟩ <;> exact canonical_of (by decide +kernel) (by decide +kernel), ?_⟩
  · refine ⟨by decide +kernel, by decide +kernel, by decide +kernel, by decide +kernel, ?_⟩
    refine ⟨?_, ?_, ?_, ?_, ?_⟩ <;> (unfold MarkOf; decide)

/-- A gate-dirt entry one cell off; a new chain; a chain that reaches GATE_PERSIST and one a frame short of it; the gate list
with room and full; a damage entry free, to be reclaimed, and none. -/
theorem witness_CompleteFrameIsRecorded_chains :
    SamePlace .dust dustBox .dust ⟨2, 5, 4, 7⟩ ∧ ¬SamePlace .dust dustBox .dust ⟨1, 5, 4, 7⟩ ∧
      TakesChain dust (ctxOf 9 23 0) .dust dustBox 1 [] ∧
      (∀ len refs, TakesChain (chained len refs) (ctxOf 9 23 0) .dust dustBox (min 65535 (len + 1)) refs) ∧
      dust.setting Setting.gatePersist = 4 + 1 ∧ 3 + 1 < dust.setting Setting.gatePersist ∧
      ((gated 7 dust).rpq.gate.length < 8 ∧ 8 ≤ (gated 8 dust).rpq.gate.length) ∧
      (∀ a ∈ (gated 8 dust).rpq.gate, ¬SamePlace .dust dustBox a.cls a.box) ∧ dust.rpq.damage.read 0 = none ∧
      (∀ j, j < 1024 → (filled 1024 (fun _ => major5 (.closed .repaired))).read j ≠ none) ∧
      (([⟨0, 9⟩, ⟨7, 3⟩] : List DamageRef).map (·.index)).Nodup := by
  refine ⟨by simp only [SamePlace]; decide, by simp only [SamePlace]; decide, .inr ⟨.inl (by decide +kernel), rfl, rfl⟩,
    fun len refs => .inl ⟨⟨rfl, by decide, rfl⟩, [], _, [], rfl, nofun, by simp only [SamePlace]; decide, rfl, rfl⟩, ?_⟩
  refine ⟨by decide +kernel, by decide +kernel, by decide +kernel, ?_, rfl, filled_read _ _, by decide⟩
  simp only [SamePlace]
  decide +kernel

def bayDue : State :=
  putCab (fun c => { c with
    bayTimers := c.bayTimers.set 7 ⟨.running, .inward, 0⟩, bays := [(7, .holding 3)] }) shelved

theorem witness_TimersRunOut :
    (putTrc (fun t => { t with holdLight := some 0 }) threaded).trc.holdLight = some 0 ∧ threaded.trc.state = .threaded ∧
      (ready.setReg { ready.reg with confirm := ready.reg.confirm.set .d (some ⟨3, 0⟩) }).reg.confirm.get .d = some ⟨3, 0⟩ ∧
      (bayDue.cab.bayTimer 7).due = true ∧ (∀ m, m < 7 → (bayDue.cab.bayTimer m).due = false) ∧
      bayDue.cab.bays.read 7 = some (.holding 3) ∧ bayDue.reel 3 ≠ none ∧ bayDue.cab.freeEntry = some 0 ∧
      (withMoves full16 bayDue).cab.freeEntry = none := by decide +kernel

theorem witness_SomeCommandsChangeNoState :
    50 ≤ State.reset.trc.reportAge ∧ ready.trc.tensionHigh ≠ some 0 ∧ ready.trc.tensionLow ≠ some 0 ∧
      ready.trc.silence < 50 ∧ ready.trc.gateDelay ≠ some 0 ∧ ready.trc.holdLight ≠ some 0 ∧
      (ctxOf 9 0 99).age < 100 ∧ (∀ p, ready.reg.confirm.get p = none) ∧
      ∀ n, n < 8 → (ready.cab.bayTimer n).due = false :=
  ⟨by decide, by decide, by decide, by decide, by decide, by decide, by decide, by intro p; cases p <;> rfl,
    by decide +kernel⟩

theorem servedA : Served rqA (.role .scan) ready := ⟨rfl, .inr rfl⟩
theorem servedB : Served rqB (.role .repair) ready := ⟨rfl, .inr rfl⟩
theorem servedC : Served rqC (.role .grade) ready := ⟨rfl, .inr rfl⟩
theorem servedD : Served rqD (.role .vault) ready := ⟨rfl, .inr rfl⟩

/-- Requests are carried out by settings alone, so by the settings of `ready` in every state here. -/
theorem served_of_cfg {rq : Rq} {need : Need} {s : State} (h : Served rq need ready) (hc : s.cfg = ready.cfg) :
    Served rq need s := by
  simpa only [Served, State.setting, State.role, hc] using h

def unread : State := ready.setPort .a ⟨some ⟨1, 0, []⟩, false⟩

theorem witness_EveryRequestIsAnswered :
    requestOf (.reelQuery rqA (some 95)) = some (rqA, .any) ∧ (unread.spt.get .a).response ≠ none := ⟨rfl, nofun⟩

theorem witness_RequestsAreCheckedInOrder :
    requestOf (.takeMove rqA) = some (rqA, .role .vault) ∧ State.reset.cfg.running = true ∧ ready.cfg.running = false ∧
      ready.setting Setting.accessCheck ≠ 0 ∧ ready.role rqA.port ≠ .vault ∧
      requestOf (.admitReel rqD none) = some (rqD, .role .vault) ∧ Served rqD (.role .vault) ready ∧
      ShortOperands (.admitReel rqD none) = true ∧ requestOf (.unknownCommand rqA 6) = some (rqA, .any) ∧
      requestOf (.requestMalformed .a none) = some (⟨.a, 0⟩, .any) :=
  ⟨rfl, rfl, rfl, by decide, by decide, rfl, servedD, rfl, rfl, rfl⟩

/-- The first operand beyond each range, and the last handle, record or index with a free entry behind it. -/
theorem witness_RequestsAreCheckedInOrder_operands :
    (BadOperands ready (.getSetting rqA (some 84)) ∧ BadOperands ready (.setSetting rqA (some ⟨128, 0⟩)) ∧
      BadOperands ready (.reelQuery rqA (some 96)) ∧ BadOperands ready (.reelFind rqA (some 0))) ∧
    (BadOperands ready (.admitReel rqD (some ⟨0, 0, 0, 0⟩)) ∧ BadOperands ready (.admitReel rqD (some ⟨1, 3, 0, 0⟩)) ∧
      BadOperands ready (.admitReel rqD (some ⟨1, 0, 4, 0⟩)) ∧ BadOperands ready (.admitReel rqD (some ⟨1, 0, 0, 80⟩)) ∧
      BadOperands shelved (.setCondition rqD (some ⟨3, 4⟩)) ∧ BadOperands ready (.setCondition rqD (some ⟨95, 0⟩)) ∧
      BadOperands shelved (.release rqD (some ⟨3, 2⟩)) ∧ BadOperands ready (.releaseForce rqD 95)) ∧
    (BadOperands ready (.request rqA (some 96)) ∧ BadOperands ready (.cancel rqA (some 95)) ∧
      BadOperands ready (.returnReel rqA (some 95)) ∧ BadOperands ready (.thread rqA (some 95)) ∧
      BadOperands ready (.inch rqA (some 2000001)) ∧ BadOperands ready (.inch rqA (some 0)) ∧
      BadOperands ready (.shuttle rqA (some ⟨2, 50⟩)) ∧ BadOperands ready (.readFrames rqA (some 5))) ∧
    (BadOperands ready (.claimNext rqB (some 254)) ∧ BadOperands ready (.complete rqB (some ⟨1024, 0, 0⟩)) ∧
      BadOperands ready (.complete rqB (some ⟨1023, 0, 3⟩)) ∧ BadOperands ready (.releaseClaim rqB (some ⟨1024, 0⟩)) ∧
      BadOperands shelved (.damageList rqB (some ⟨3, 0, 1024, 4⟩)) ∧
      BadOperands shelved (.damageList rqB (some ⟨3, 0, 1023, 5⟩))) ∧
    (BadOperands threaded (.rescanAdd rqB (some ⟨3, 6, 5⟩)) ∧ BadOperands threaded (.rescanAdd rqB (some ⟨3, 5, 100⟩))) ∧
    (BadOperands shelved (.shotList rqC (some ⟨3, 0, 9⟩)) ∧ BadOperands ready (.gradeQuery rqC (some ⟨95, 0⟩)) ∧
      BadOperands ready (.popLayer rqC (some 512)) ∧ BadOperands ready (.merge rqC (some 511)) ∧
      BadOperands ready (.approve rqC (some 511)) ∧ BadOperands ready (.reopen rqC (some 511)) ∧
      BadOperands ready (.split rqC (some ⟨511, 1⟩)) ∧ BadOperands shelved (.setFlicker rqC (some ⟨0, 2⟩))) ∧
    (BadOperands ready (.retry rqD (some ⟨16, 0⟩)) ∧ BadOperands ready (.cancelMove rqD (some ⟨15, 96⟩)) ∧
      BadOperands ready (.bayClimate rqD (some 2)) ∧ BadOperands ready (.positions rqD (some ⟨3, 0, 1⟩)) ∧
      BadOperands ready (.positions rqD (some ⟨0, 80, 1⟩)) ∧ BadOperands ready (.positions rqD (some ⟨2, 8, 1⟩)) ∧
      BadOperands ready (.positions rqD (some ⟨2, 7, 17⟩))) := by
  have hr : threaded.reel 3 = some { reel3 with location := .transport, circulation := .threaded, frontier := 100 } := by
    decide +kernel
  refine ⟨?_, ?_, ?_, ?_, ⟨.inr (.inl (by decide)), .inr (.inr ⟨_, hr, by decide⟩)⟩, ?_, ?_⟩ <;>
    (simp only [BadOperands, NamesNoReel, NamesNoShot]; decide +kernel)

theorem witness_RequestsAreCheckedInOrder_layers (l : LayerArgs) :
    BadOperands ready (.setBase rqC (some ⟨95, l⟩)) ∧ BadOperands ready (.pushLayer rqC (some ⟨511, l⟩)) ∧
      BadOperands shelved (.setLayer rqC (some ⟨0, 7, l⟩)) := by
  exact ⟨.inr rfl, .inr rfl, .inr (by decide : 6 < (7#8).toNat)⟩

theorem witness_ResponseReadDelivers :
    (unread.spt.get .a).response = some ⟨1, 0, []⟩ ∧ 5 + ([] : List Byte).length ≤ 5 ∧ 4 < 5 + ([] : List Byte).length ∧
      (ready.spt.get .a).response = none := ⟨rfl, by decide, by decide, rfl⟩

theorem witness_QueriesAnswerAndChangeNothing :
    Served rqA .any (putDamage 0 (major5 .queued) shelved) ∧ Served rqA (.role .scan) ready ∧
      settingRow 83 = some ⟨83, 90, .span 10 720⟩ ∧ (3#8).toNat < 96 ∧ shelved.reel 3 ≠ none ∧
      ((95#8).toNat < 96 ∧ shelved.reel 95 = none) ∧ (77#24).toNat ≠ 0 ∧ shelved.findReel 77 = some 3 ∧
      shelved.reg.reels = [(3, reel3)] ∧ reel3.catalogue ≠ (78#24).toNat ∧
      ((0#16).toNat ≤ 1023 ∧ (4#8) ≠ 0 ∧ (4#8).toNat ≤ 4) ∧
      0 < ((putDamage 0 (major5 .queued) shelved).damageOf 3 5).length ∧
      ((putDamage 0 (major5 .queued) shelved).damageOf 3 6).length ≤ 0 ∧ (8#8).toNat ≤ 8 ∧
      (shelved.shotAt 3 0).isSome = true ∧ (shelved.sht.pool.read 0).isSome = true ∧ ((2#8).toNat ≤ 2 ∧ (7#8).toNat ≤ lastPosition 2 ∧ (16#8).toNat ≤ 16) :=
  ⟨⟨rfl, trivial⟩, servedA, by decide +kernel⟩

theorem witness_AlertCommandsActOnTheirPort : Served rqA .any ready := ⟨rfl, trivial⟩

theorem witness_SettingWriteIsClamped :
    Served rqD .any ready ∧ settingRow 1 = some ⟨1, 2, .span 0 4⟩ ∧ duplicateWrite 1 1 ready = true ∧
      settingRow 16 = some ⟨16, 20, .span 1 50⟩ ∧ duplicateWrite 16 50 ready = false ∧
      settingRow 83 = some ⟨83, 90, .span 10 720⟩ ∧ duplicateWrite 83 10 ready = false :=
  ⟨⟨rfl, trivial⟩, by decide +kernel⟩

/-- Port B holds a claim, and no record is QUEUED. -/
def claimedB : State :=
  (putDamage 1023 (major5 (.claimed .b)) (putReel 3 { reel3 with claimed := 1 } shelved)).setRpq
    { shelved.rpq with damage := [(1023, major5 (.claimed .b))], claims := shelved.rpq.claims.set .b 1 }

theorem claimedB_canonical : TablesCanonical claimedB := canonical_of (by decide +kernel) (by decide +kernel)

theorem witness_RoleChangeAndPortResetLetGo :
    Served rqB .any claimedB ∧ Served rqD .any ready ∧ TablesCanonical claimedB ∧ releaseRaises .b claimedB = true ∧
      AlertSet.has (claimedB.route .b) .repairWaiting = true ∧ (4#16).toNat ≤ 4 ∧
      duplicateWrite Port.d.number 4 ready = false ∧ duplicateWrite Port.d.number 0 ready = false ∧
      ready.role .d = .vault ∧ duplicateWrite Port.b.number 2 ready = false ∧
      duplicateWrite Port.b.number 3 claimedB = false :=
  ⟨⟨rfl, trivial⟩, ⟨rfl, trivial⟩, claimedB_canonical, by decide +kernel⟩

/-- What PORT_RESET leaves: the overrun of an unread response is gone, REPAIR_WAITING of its own release is latched. -/
theorem test_port_reset :
    let t := after (.portReset rqB) (claimedB.setPort .b ⟨some ⟨1, 0, []⟩, true⟩)
    answerOf .b t = some (0, []) ∧ (t.alt.get .b).latched = Event.repairWaiting.mask ∧
      (t.reel 3).map (fun r => (r.queued, r.claimed)) = some (1, 0) ∧ t.rpq.claims.get .b = 0 := by decide +kernel

def slot9 (o : Occupancy) : State := shelved.occupy (.slot 9) (some o)
def allReels : State := ready.setReg { ready.reg with reels := filled 96 (fun h => { reel3 with catalogue := h + 100 }) }
def allShots : State := ready.setSht { ready.sht with pool := filled 512 (fun n => detectedShot 3 n) }

/-- Handle 3 in use: the lowest free entry is 0; classes 1 and 2 at slots 63 and 64. -/
theorem witness_AdmitFillsTheLowestEntry :
    Served rqD (.role .vault) shelved ∧ Gauge.ofCode 2 = some .g16 ∧ (1#24) ≠ 0 ∧ (3#8).toNat ≤ 3 ∧ (79#8).toNat < 80 ∧
      shelved.reg.reels = [(3, reel3)] ∧ reel3.catalogue ≠ 1 ∧ (slot9 (.held 0)).cab.slots.read 9 = some (.held 0) ∧
      (slot9 (.reserved 0)).cab.slots.read 9 = some (.reserved 0) ∧ (slot9 (.holding 8)).cab.slots.read 9 = some (.holding 8) ∧
      shelved.cab.slots.read 63 = none ∧ (2 ≤ (2#8).toNat ∧ (63#8).toNat < 64) ∧
      ¬(2 ≤ (2#8).toNat ∧ (64#8).toNat < 64) ∧ ¬(2 ≤ (1#8).toNat ∧ (63#8).toNat < 64) ∧ shelved.reel 0 = none ∧
      shelved.sht.pool.read 1 = none ∧ ∀ j, j < 1 → shelved.sht.pool.read j ≠ none :=
  ⟨served_of_cfg servedD rfl, by decide +kernel⟩

theorem witness_AdmitFillsTheLowestEntry_full :
    (∀ h, h < 96 → allReels.reel h ≠ none) ∧ ∀ n, n < 512 → allShots.sht.pool.read n ≠ none :=
  ⟨by simpa only [State.reel, allReels, State.setReg] using filled_read 96 _,
    by simpa only [allShots, State.setSht] using filled_read 512 _⟩

theorem witness_SetConditionRecordsTheClass :
    Served rqD (.role .vault) shelved ∧ (3#8).toNat < 96 ∧ shelved.reel 3 = some reel3 ∧ (3#8).toNat ≤ 3 ∧
      reel3.acidity < 2 ∧ Reel.mustRelocate { reel3 with acidity := 2, fragile := true } = true ∧
      Reel.mustRelocate { reel3 with acidity := 1 } = false ∧ (withMoves full16 shelved).cab.freeEntry = none :=
  ⟨served_of_cfg servedD rfl, by decide +kernel⟩

def relocating (st : MoveState) : State := withMoves [move0 .relocate st (.slot 5)] shelved
def fetching : State := withMoves [move0 .fetchOut .queued (.slot 5)] (putReel 3 { reel3 with circulation := .outbound } shelved)

/-- R158: the FETCH_OUT takes entry 3, which the RELOCATE frees, with entries 0 to 2 free. -/
theorem test_request_takes_freed_entry :
    (after (.request rqA (some 3)) (withMoves [{ move0 .relocate .blocked (.slot 5) with entry := 3 }] shelved)).cab.moves =
      [{ move0 .fetchOut .queued (.slot 5) with entry := 3 }] := by decide +kernel

theorem witness_RequestAndCancelMoveTheReel :
    Served rqA (.role .scan) shelved ∧ (fetching.cab.removeMove 0).drainedByOne fetching ∧
      shelved.reel 3 = some reel3 ∧ reel3.circulation = .shelved ∧
      staged.reel 3 = some { reel3 with location := .staging 2, circulation := .ready } ∧
      (relocating .moving).cab.moveOf 3 = some (move0 .relocate .moving (.slot 5)) ∧
      (relocating .blocked).cab.moveOf 3 = some (move0 .relocate .blocked (.slot 5)) ∧ shelved.cab.moveOf 3 = none ∧
      (withMoves full16 shelved).cab.moveOf 3 = none ∧ (withMoves full16 shelved).cab.freeEntry = none ∧
      shelved.cab.freeEntry = some 0 ∧ fetching.cab.moveOf 3 = some (move0 .fetchOut .queued (.slot 5)) :=
  ⟨served_of_cfg servedA rfl, .inl rfl, by decide +kernel⟩

theorem witness_ReturnAndReleaseQueueAMove :
    Served rqA (.role .scan) staged ∧ Served rqD (.role .vault) shelved ∧ staged.cab.freeEntry = some 0 ∧
      (staged.reel 3).map (·.circulation) = some .ready ∧ (withMoves full16 staged).cab.freeEntry = none ∧
      reel3.circulation = .shelved ∧ reel3.relocation = false ∧ ({ reel3 with queued := 1 } : Reel).queued = 1 ∧
      ¬(reel3.rescan ≠ [] ∨ 0 < reel3.queued ∨ 0 < reel3.claimed) :=
  ⟨served_of_cfg servedA rfl, served_of_cfg servedD rfl, by decide +kernel⟩

def confirmLeft (ms : Nat) : State := shelved.setReg { shelved.reg with confirm := shelved.reg.confirm.set .d (some ⟨3, ms⟩) }
def confirming : State := confirmLeft 1
def expired : State := confirmLeft 0

/-- At 0 ms the confirmation is absent, and the next RELEASE FORCE is an opening request (R15). -/
theorem test_confirmation_runs_out : (after .millisecondTick confirming).reg.confirm.get .d = none ∧
    (after .millisecondTick (confirmLeft 2)).reg.confirm.get .d = some ⟨3, 1⟩ ∧
    answerOf .d (after (.releaseForce rqD 3) expired) = some (2, []) := by decide +kernel


theorem witness_ForceReleaseTakesTwoRequests :
    Served rqD (.role .vault) shelved ∧ shelved.reel 3 = some reel3 ∧ reel3.circulation = .shelved ∧
      reel3.relocation = false ∧ shelved.reg.confirm.get .d = none ∧ confirming.reg.confirm.get .d = some ⟨3, 1⟩ ∧ expired.reg.confirm.get .d = some ⟨3, 0⟩ ∧
      confirming.cab.freeEntry = some 0 ∧ (withMoves full16 confirming).cab.freeEntry = none ∧
      withWork.cab.freeEntry = some 0 ∧ withWork.rpq.damage.read 2 = some (major5 (.claimed .b)) ∧
      Served rqD (.role .vault) withWork ∧ TablesCanonical confirming ∧ TablesCanonical withWork := by
  refine ⟨served_of_cfg servedD rfl, ?_⟩
  iterate 10 refine ⟨by decide +kernel, ?_⟩
  exact ⟨served_of_cfg servedD rfl, canonical_of (by decide +kernel) (by decide +kernel),
    canonical_of (by decide +kernel) (by decide +kernel)⟩

theorem witness_ThreadTakesAReadyReel :
    Served rqA (.role .scan) staged ∧ staged.reel 3 = some { reel3 with location := .staging 2, circulation := .ready } ∧
      staged.trc.state = .unthreaded ∧ staged.trc.estop = false ∧ threaded.trc.state ≠ .unthreaded :=
  ⟨served_of_cfg servedA rfl, by decide +kernel⟩

theorem witness_UnthreadPutsTheReelAtStaging :
    Served rqA (.role .scan) threaded ∧ (∀ c, threaded.fcu.ctx.get c = none) ∧ scanning.trc.state ≠ .threaded ∧
      threaded.trc.state = .threaded ∧ (openCtx0 (ctxOf 9 5 0) threaded).fcu.ctx.get .c0 = some (ctxOf 9 5 0) ∧
      (∀ n, n < 8 → (putCab (fun c => { c with stagings := filled 8 (fun k => .holding (k + 10)) })
        threaded).cab.stagings.read n ≠ none) ∧
      threaded.cab.stagings.read 0 = none ∧ threaded.trc.handle = some 3 ∧ (threaded.reel 3).isSome = true :=
  ⟨served_of_cfg servedA rfl, fun c => by cases c <;> rfl, by decide +kernel⟩

/-- Half of 19000 is 9500: an edge at 9500 and one at 9501. -/
def edgeAt (e : Int) : State := putPru (fun u => { u with lastEdge := some e }) threaded

theorem witness_MotionCommandsStartFromThreaded :
    Served rqA (.role .scan) (edgeAt 9500) ∧ ready.trc.state ≠ .threaded ∧ (edgeAt 9501).pru.lastEdge = some 9501 ∧
      (edgeAt 9501).pru.live.pInt / 2 < ((9501 : Int) - (edgeAt 9501).trc.position).natAbs ∧
      ((9500 : Int) - (edgeAt 9500).trc.position).natAbs ≤ (edgeAt 9500).pru.live.pInt / 2 ∧
      ¬((0#32).toInt ≠ 0 ∧ (0#32).toInt.natAbs ≤ 2000000) ∧
      ((2000000#32).toInt ≠ 0 ∧ (2000000#32).toInt.natAbs ≤ 2000000) ∧ ¬(2000001#32).toInt.natAbs ≤ 2000000 ∧
      (inching 5 true).trc.state = .inching ∧ 1 < (2#8).toNat ∧ (1#8).toNat ≤ 1 ∧ threaded.trc.state = .threaded :=
  ⟨served_of_cfg servedA rfl, by decide +kernel⟩

theorem witness_ScanStartsARun :
    Served rqA (.role .scan) threaded ∧ ready.pru.origin = none ∧ threaded.pru.origin ≠ none ∧
      (putTrc (fun t => { t with holds := ⟨true, false, false⟩ }) threaded).trc.holds ≠ ⟨false, false, false⟩ ∧
      threaded.trc.holds = ⟨false, false, false⟩ ∧ (threaded.reel 3).map (·.fragile) = some false ∧
      threaded.pru.lock ≠ .seeking ∧ (lockAt .seeking 0 3).pru.lock = .seeking ∧
      PitchInLimits threaded ∧ threaded.pru.anchor = some ⟨0, 0⟩ ∧ threaded.pru.live = backing.pru.live := by
  refine ⟨served_of_cfg servedA rfl, ?_⟩
  iterate 7 refine ⟨by decide +kernel, ?_⟩
  exact ⟨backing_limits.2, by decide +kernel, by decide +kernel⟩

def held (h : HoldSet) : State := inState .hold (putTrc (fun t => { t with holds := h }) threaded)

theorem witness_HoldAndStopCommands :
    Served rqA (.role .scan) (held ⟨true, false, true⟩) ∧ threaded.trc.state = .threaded ∧ ready.trc.state = .unthreaded ∧
      (held ⟨true, false, true⟩).trc.holds.operator = true ∧ (held ⟨true, false, false⟩).trc.holds.operator = false ∧
      scanning.trc.holds.operator = false ∧ backing.trc.holds.operator = false ∧ scanning.trc.state = .scanning ∧
      backing.trc.state = .backup ∧ (held ⟨false, false, true⟩).trc.holds = ⟨false, false, true⟩ ∧
      (inching 5 true).trc.fault = none ∧ (inState .fault threaded).trc.state = .fault ∧
      (inState .fault threaded).trc.reportAge < 50 ∧ (inState .fault threaded).trc.estop = false ∧
      50 ≤ (inState .fault ready).trc.reportAge ∧
      (putPru (fun u => { u with commitPending := true }) scanning).pru.commitPending = true :=
  ⟨served_of_cfg servedA rfl, by decide +kernel⟩

def stagedTo (p : Pitch) (v : RegValues) (s : State) : State := putPru (fun u => { u with staged := p, stagedReg := v }) s

/-- Operands at 0 and 1, the largest F2, and a commit in each kind of state, with and without a change of pitch. -/
theorem witness_StagingAndCommit :
    Served rqA (.role .scan) threaded ∧ threaded.pru.commitPending = false ∧
      (putPru (fun u => { u with commitPending := true }) scanning).pru.commitPending = true ∧
      scanning.trc.state ≠ .unthreaded ∧ scanning.trc.state ≠ .threaded ∧ ready.trc.state = .unthreaded ∧
      clampPitch threaded.pru.gauge threaded.pru.staged = threaded.pru.live ∧
      clampPitch .g35x4 (stagedTo ⟨18000, 0, 0, 2⟩ .reset threaded).pru.staged ≠ threaded.pru.live ∧
      threaded.pru.lastLine = none ∧ threaded.pru.anchor = some ⟨0, 0⟩ ∧
      (putPru (fun u => { u with lastLine := some ⟨7, 133000, true⟩ }) threaded).pru.lastLine = some ⟨7, 133000, true⟩ :=
  ⟨served_of_cfg servedA rfl, by decide +kernel⟩

def recordOf (k : Nat) : FrameRecord :=
  { handle := 3, frame := k, locked := true, lineMissing := false, splice := false, incomplete := false, rescan := false
    regionsFull := false, damageLost := false, cut := false, cutLost := false, densityHeld := false, error := 0
    skipped := 0, density := 500, flicker := 4096, recorded := 0, suppressed := 0, shot := 0
    grade := ⟨⟨4096, 0⟩, ⟨4096, 0⟩, ⟨4096, 0⟩⟩ }
def queued (n : Nat) (s : State) : State := putFcu (fun u => { u with queue := (List.range n).map recordOf }) s

/-- 20 records read by 4 leave 16, by 3 leave 17. -/
theorem witness_ReadFramesAndClearGate :
    Served rqA (.role .scan) (queued 20 (held ⟨true, false, false⟩)) ∧ (1 ≤ (1#8).toNat ∧ (4#8).toNat ≤ 4) ∧
      ¬(1 ≤ (0#8).toNat) ∧ ¬(5#8).toNat ≤ 4 ∧ ready.fcu.queue = [] ∧
      (queued 20 (held ⟨true, false, false⟩)).fcu.queue.length - 4 ≤ 16 ∧
      ¬(queued 20 (held ⟨true, false, false⟩)).fcu.queue.length - 3 ≤ 16 ∧
      (queued 20 (held ⟨true, false, false⟩)).trc.holds.backpressure = true ∧
      (queued 20 (held ⟨true, false, true⟩)).trc.holds ≠ ⟨true, false, false⟩ :=
  ⟨served_of_cfg servedA rfl, by decide +kernel⟩

def damaged : State := putDamage 1 { major5 .queued with seq := 10 } (putDamage 0 (major5 .queued) shelved)
/-- Port B holds 16 claims, of the records 0 to 15 of reel 3. -/
def sixteen : State :=
  (putReel 3 { reel3 with claimed := 16 } shelved).setRpq { shelved.rpq with
    damage := filled 16 (fun i => { major5 (.claimed .b) with seq := BitVec.ofNat 32 (20 - i) })
    claims := shelved.rpq.claims.set .b 16 }

theorem witness_ClaimsAreHandedOutAndBack :
    Served rqB (.role .repair) damaged ∧ (TablesCanonical damaged ∧ TablesCanonical claimedB ∧ TablesCanonical sixteen) ∧
      damaged.role rqB.port = .repair ∧ (putSetting Setting.accessCheck 0 ready).role rqA.port ≠ .repair ∧
      ((255#8) = 255 ∧ (3#8).toNat < 96 ∧ damaged.reel 3 ≠ none) ∧ damaged.rpq.claims.get .b < 16 ∧
      16 ≤ sixteen.rpq.claims.get .b ∧ (sixteen.rpq.damage.filter (fun e => e.2.claimedBy .b)).length = 16 ∧
      (0, major5 .queued) ∈ damaged.rpq.damage ∧ (damaged.rpq.counter - 10).toNat < (damaged.rpq.counter - 9).toNat ∧
      ready.rpq.damage = [] ∧ DamageOutcome.ofCode 2 = some .needsRescan ∧ (1023#16).toNat < 1024 ∧
      claimedB.rpq.damage.read 1023 = some (major5 (.claimed .b)) ∧
      damaged.rpq.damage.read 0 = some (major5 .queued) := by
  refine ⟨served_of_cfg servedB rfl, ⟨?_, claimedB_canonical, ?_⟩, by decide +kernel⟩ <;>
    exact canonical_of (by decide +kernel) (by decide +kernel)

/-- RELEASE_ALL of 16 claims: the count, and the reel's counts with it (R121, R21). -/
theorem test_release_all_sixteen : answerOf .b (after (.releaseAll rqB) sixteen) = some (0, [16]) ∧
    ((after (.releaseAll rqB) sixteen).reel 3).map (fun r => (r.queued, r.claimed)) = some (16, 0) ∧
    (after (.releaseAll rqB) sixteen).rpq.claims.get .b = 0 := by decide +kernel

def approved : State := threaded.putShot 0 { detectedShot 3 0 with state := .approved }

/-- The frontier is 100: a range that ends at 99 and one at 100; a range already listed. -/
theorem witness_RescanAddListsTheRange :
    Served rqB (.role .repair) approved ∧ TablesCanonical approved ∧ RescansOrdered approved ∧
      (approved.reel 3).map (·.frontier) = some 100 ∧ ((5#16).toNat ≤ (99#16).toNat ∧ (99#16).toNat < 100) ∧
      ¬(100#16).toNat < 100 ∧ addRange [] ⟨5, 99⟩ ≠ [] ∧ addRange [⟨5, 99⟩] ⟨6, 99⟩ = [⟨5, 99⟩] ∧
      inRanges (addRange [] ⟨5, 99⟩) 5 = true ∧ (approved.sht.pool.read 0).map (·.state) = some .approved ∧
      5 < approved.shotStop { detectedShot 3 0 with state := .approved } ∧
      (rescanOrdered exampleList ∧ 8 ≤ exampleList.length ∧ (∀ x ∈ exampleList, x.last + 1 < 600 ∨ 600 + 1 < x.first) ∧
        (∀ x ∈ exampleList, x.last + 1 < 522 ∨ 522 + 1 < x.first) ∧
        ¬∀ x ∈ exampleList, x.last + 1 < 521 ∨ 521 + 1 < x.first) := by
  refine ⟨served_of_cfg servedB rfl, canonical_of (by decide +kernel) (by decide +kernel), ?_⟩
  unfold RescansOrdered rescanOrdered
  decide +kernel

def unitArgs : LayerArgs := ⟨⟨4096, 0⟩, ⟨4096, 0⟩, ⟨4096, 0⟩⟩
def stacked (n : Nat) : State := threaded.putShot 511 { detectedShot 3 0 with stack := List.replicate n (layerOf unitArgs) }

theorem witness_LayerEditsActOnOpenShots :
    Served rqC (.role .grade) approved ∧ (511#16).toNat < 512 ∧ ((stacked 7).sht.pool.read 511).map (·.stack.length) = some 7 ∧
      ((stacked 6).sht.pool.read 511).map (·.stack.length) = some 6 ∧ ((stacked 0).sht.pool.read 511).map (·.stack) = some [] ∧
      (approved.sht.pool.read 0).map (·.state) = some .approved ∧ (1#8).toNat ≤ 1 ∧ 1 < (2#8).toNat ∧
      (0, { detectedShot 3 0 with state := .approved }) ∈ approved.sht.pool :=
  ⟨served_of_cfg servedC rfl, by decide +kernel⟩

theorem witness_SetLayerOverwritesALevel :
    Served rqC (.role .grade) (stacked 7) ∧ ((stacked 7).sht.pool.read 511).isSome = true ∧ 6 < (7#8).toNat ∧
      (6#8).toNat ≤ 6 ∧ (6#8).toNat < 7 ∧ 2 ≤ (2#8).toNat ∧
      (approved.sht.pool.read 0).map (·.state) = some .approved :=
  ⟨served_of_cfg servedC rfl, by decide +kernel⟩

def twoShots : State := threaded.putShot 4 (detectedShot 3 40)

theorem witness_SplitAndMergeShots :
    Served rqC (.role .grade) twoShots ∧ TablesCanonical twoShots ∧ twoShots.sht.pool.read 0 = some (detectedShot 3 0) ∧
      (0 < (1#16).toNat ∧ (39#16).toNat < twoShots.shotStop (detectedShot 3 0)) ∧
      twoShots.shotStop (detectedShot 3 0) ≤ (40#16).toNat ∧ twoShots.sht.pool.read 1 = none ∧
      twoShots.sht.pool = [(0, detectedShot 3 0), (4, detectedShot 3 40)] ∧ (approved.sht.pool.read 0).map (·.state) = some .approved :=
  ⟨served_of_cfg servedC rfl, canonical_of (by decide +kernel) (by decide +kernel), by decide +kernel⟩

theorem witness_ApproveNeedsAClearRange :
    Served rqC (.role .grade) threaded ∧ threaded.sht.pool.read 0 = some (detectedShot 3 0) ∧
      (threaded.reel 3).isSome = true ∧ (approved.sht.pool.read 0).map (·.state) = some .approved ∧
      (0, major5 .queued) ∈ (putDamage 0 (major5 .queued) threaded).rpq.damage ∧
      (major5 .queued).frame < (putDamage 0 (major5 .queued) threaded).shotStop (detectedShot 3 0) ∧
      inRanges [⟨99, 99⟩] 99 = true ∧ threaded.rpq.damage = [] :=
  ⟨served_of_cfg servedC rfl, by decide +kernel⟩

theorem witness_ReopenReturnsAShotToOpen :
    Served rqC (.role .grade) approved ∧ TablesCanonical approved ∧
      approved.sht.pool.read 0 = some { detectedShot 3 0 with state := .approved } ∧
      threaded.sht.pool.read 0 = some (detectedShot 3 0) ∧ TablesCanonical threaded :=
  ⟨served_of_cfg servedC rfl, canonical_of (by decide +kernel) (by decide +kernel), by decide +kernel, by decide +kernel,
    canonical_of (by decide +kernel) (by decide +kernel)⟩

/-- A RELOCATE that waits for a full ISOLATION zone, and behind it the FETCH_OUT that is handed out. -/
def waiting : State :=
  withMoves [⟨1, .relocate, 4, .slot 6, none, .queued⟩, move0 .fetchOut .queued (.slot 5)]
    (putCab (fun c => { c with slots := c.slots ++ (List.range 16).map (fun k => (64 + k, .holding (20 + k))) }) shelved)

theorem witness_TakeMoveHandsOutTheOldestEligible :
    Served rqD (.role .vault) waiting ∧ (withMoves [move0 .fetchOut .moving (.slot 5)] shelved).cab.moves =
      [move0 .fetchOut .moving (.slot 5)] ∧ ready.cab.moves = [] ∧ (waiting.cab.moves.map (·.entry)).Nodup ∧
      waiting.cab.moves = [⟨1, .relocate, 4, .slot 6, none, .queued⟩] ++ move0 .fetchOut .queued (.slot 5) :: [] ∧
      waiting.chooseDest ⟨1, .relocate, 4, .slot 6, none, .queued⟩ = none ∧
      waiting.chooseDest (move0 .fetchOut .queued (.slot 5)) = some (.bay 0) ∧ (waiting.reel 3).isSome = true ∧
      (0 ≤ 0 ∧ shelved.cab.bays.read 0 = none ∧ shelved.cab.slots.read 64 = none ∧ shelved.cab.slots.read 0 = none ∧
        shelved.cab.slots.read 5 ≠ none ∧ shelved.cab.stagings.read 7 = none) :=
  ⟨served_of_cfg servedD rfl, by decide +kernel⟩

def inFlight (kind : MoveKind) (source : Place) (d : Place) : State :=
  withMoves [{ move0 kind .moving source with dest := some d }] shelved

/-- A DISPATCH done takes the reel's references out of the closed list, the other keeps its place (R106). -/
theorem test_dispatch_done :
    let s := putDamage 1 { major5 (.closed .gate) with handle := 9 } (putDamage 0 (major5 (.closed .repaired))
      (putDamage 2 (major5 (.closed .accepted)) (inFlight .dispatch (.slot 5) .exit)))
    (after (.moveDone rqD) (s.setRpq { s.rpq with closedList := [2, 1, 0] })).rpq.closedList = [1] := by decide +kernel

theorem witness_MoveDoneUpdatesByKind :
    Served rqD (.role .vault) (inFlight .shelve (.bay 7) (.slot 79)) ∧ ready.cab.moves = [] ∧
      (∀ k p d, (inFlight k p d).cab.moving = some { move0 k .moving p with dest := some d }) ∧
      (∀ k p d, (inFlight k p d).reel 3 = some reel3) ∧ (∀ k p d, (inFlight k p d).cab.bayTimers.length = 8) ∧
      (∀ k p d, ((inFlight k p d).cab.removeMove 0).drainedByOne (inFlight k p d)) ∧
      TablesCanonical (inFlight .dispatch (.slot 5) .exit) ∧
      (let s := withMoves [{ move0 .fetchOut .moving (.slot 5) with dest := some (.bay 0) }] shelved
        let t := s.setCab { s.cab with moves := s.cab.moves ++ full16.tail, legDue := [⟨3, .relocate⟩] }
        (t.cab.removeMove 0).legDue = [⟨3, .relocate⟩] ∧ (t.cab.removeMove 0).freeEntry = some 0 ∧
          ((t.cab.removeMove 0).drainOne t).freeEntry = none) :=
  ⟨served_of_cfg servedD rfl, by decide +kernel, fun _ _ _ => rfl, fun _ _ _ => rfl, fun _ _ _ => rfl,
    fun _ _ _ => .inl rfl, canonical_of (by decide +kernel) (by decide +kernel), by decide +kernel⟩

def blocked (kind : MoveKind) : State := withMoves [move0 kind .blocked (.slot 5)] shelved

theorem witness_FailedRetriedAndCancelledMoves :
    Served rqD (.role .vault) (blocked .dispatch) ∧ ((inFlight .relocate (.slot 5) (.slot 64)).cab.moves.map (·.entry)).Nodup ∧
      (inFlight .relocate (.slot 5) (.slot 64)).cab.moves =
        [] ++ { move0 .relocate .moving (.slot 5) with dest := some (.slot 64) } :: [] ∧
      (blocked .dispatch).cab.moves = [] ++ move0 .dispatch .blocked (.slot 5) :: [] ∧
      ((blocked .dispatch).cab.moves.map (·.entry)).Nodup ∧ (blocked .shelve).cab.moves = [move0 .shelve .blocked (.slot 5)] ∧
      (blocked .dispatch).reel 3 = some reel3 ∧ ((15#8).toNat < 16 ∧ (95#8).toNat < 96) ∧
      (16 ≤ (16#8).toNat ∧ 96 ≤ (96#8).toNat) ∧ (1 < (2#8).toNat ∧ (1#8).toNat ≤ 1) ∧ ready.cab.moves = [] :=
  ⟨served_of_cfg servedD rfl, by decide +kernel⟩

end Sys2Proof.Tests
end

section
/-! SUPPORT. Adding and trimming keep a rescan list ordered, apart and within its size (R18 to R20). -/

namespace Sys2Proof.Machine

/-! ### A rescan list stays in order (R18 to R20) -/

theorem rescanOrdered_iff (l : List FrameRange) : rescanOrdered l ↔ l.length ≤ 8 ∧ Apart l := Iff.rfl

theorem rescanOrdered_nil : rescanOrdered [] := ⟨by simp, by simp, .nil⟩

/-- Ranges that lie above a frame unite into one that does. -/
theorem lt_first_foldl_union {b : Nat} : ∀ (l : List FrameRange) (u : FrameRange), b < u.first →
    (∀ y ∈ l, b < y.first) → b < (l.foldl FrameRange.union u).first
  | [], _, hu, _ => hu
  | y :: l, u, hu, hl => lt_first_foldl_union l _
      (by have := hl y (by simp); simp only [FrameRange.union]; omega) fun z hz => hl z (by simp [hz])

/-- Ranges that lie below a frame unite into one that does. -/
theorem last_foldl_union_lt {b : Nat} : ∀ (l : List FrameRange) (u : FrameRange), u.last < b →
    (∀ y ∈ l, y.last < b) → (l.foldl FrameRange.union u).last < b
  | [], _, hu, _ => hu
  | y :: l, u, hu, hl => last_foldl_union_lt l _
      (by have := hl y (by simp); simp only [FrameRange.union]; omega) fun z hz => hl z (by simp [hz])

/-- Uniting ranges only widens. -/
theorem foldl_union_covers : ∀ (l : List FrameRange) (u : FrameRange),
    (l.foldl FrameRange.union u).first ≤ u.first ∧ u.last ≤ (l.foldl FrameRange.union u).last
  | [], _ => ⟨le_rfl, le_rfl⟩
  | y :: l, u => by
    have h := foldl_union_covers l (u.union y)
    simp only [FrameRange.union] at h
    simp only [List.foldl_cons, FrameRange.union]
    omega

/-- Of two ranges of a list in order one lies before the other. -/
theorem Apart.before_or_after {l : List FrameRange} (h : Apart l) {x y : FrameRange} (hx : x ∈ l) (hy : y ∈ l)
    (hne : x ≠ y) : x.last + 2 ≤ y.first ∨ y.last + 2 ≤ x.first :=
  have _ : Std.Symm (fun x y : FrameRange => x.last + 2 ≤ y.first ∨ y.last + 2 ≤ x.first) := ⟨fun _ _ => Or.symm⟩
  List.Pairwise.forall (R := fun x y : FrameRange => x.last + 2 ≤ y.first ∨ y.last + 2 ≤ x.first)
    (h.2.imp Or.inl) hx hy hne

theorem touches_eq_false_iff (y x : FrameRange) :
    y.touches x = false ↔ y.last + 1 < x.first ∨ x.last + 1 < y.first := by
  simp only [FrameRange.touches, Bool.and_eq_false_iff, decide_eq_false_iff_not]; omega

theorem touches_iff (y x : FrameRange) : y.touches x = true ↔ y.first ≤ x.last + 1 ∧ x.first ≤ y.last + 1 := by
  simp [FrameRange.touches]

theorem Apart.filter {l : List FrameRange} (h : Apart l) (p : FrameRange → Bool) : Apart (l.filter p) :=
  ⟨fun x hx => h.1 x (List.mem_of_mem_filter hx), h.2.filter p⟩

/-- R19: a merged list is in order. -/
theorem apart_mergeRange {l : List FrameRange} (hl : Apart l) {x : FrameRange} (hx : x.first ≤ x.last) :
    Apart (mergeRange l x) := by
  have hc := foldl_union_covers (l.filter (fun y => y.touches x)) x
  refine apart_insert (by omega) (hl.filter _) fun y hy => ?_
  obtain ⟨hy, hn⟩ := List.mem_filter.mp hy
  have hn : y.touches x = false := by simpa using hn
  have hside : ∀ z ∈ l.filter (fun y => y.touches x), z ≠ y ∧ z ∈ l ∧ z.first ≤ x.last + 1 ∧ x.first ≤ z.last + 1 := by
    intro z hz
    obtain ⟨hz, ht⟩ := List.mem_filter.mp hz
    exact ⟨fun e => by simp [e, hn] at ht, hz, (touches_iff z x).mp ht⟩
  have hyy := hl.1 y hy
  rcases (touches_eq_false_iff y x).mp hn with h | h
  · refine .inl (lt_first_foldl_union _ x h fun z hz => ?_)
    obtain ⟨hne, hzl, -, h2⟩ := hside z hz
    rcases hl.before_or_after hzl hy hne with h' | h' <;> omega
  · refine .inr (Nat.add_lt_of_lt_sub (last_foldl_union_lt (b := y.first - 1) _ x (by omega) fun z hz => ?_))
    obtain ⟨hne, hzl, h1, -⟩ := hside z hz
    have hzz := hl.1 z hzl
    rcases hl.before_or_after hzl hy hne with h' | h' <;> omega

/-- Joining two neighbours leaves one range fewer. -/
theorem length_joinFirst {g : Nat} : ∀ {l : List FrameRange}, smallestGap l = some g →
    (joinFirst g l).length + 1 = l.length
  | [], h => by simp [smallestGap] at h
  | [x], h => by simp [smallestGap] at h
  | x :: y :: rest, h => by
    simp only [joinFirst]
    split
    · rfl
    · next hg =>
      have : smallestGap (y :: rest) = some g := by
        simp only [smallestGap] at h
        split at h
        · next g' hg' => rw [hg']; simp only [Option.some.injEq] at h ⊢; omega
        · simp only [Option.some.injEq] at h; exact absurd h hg
      simp only [List.length_cons, length_joinFirst this]

/-- A joined list begins its ranges where the list began some. -/
theorem mem_joinFirst {g : Nat} {z : FrameRange} : ∀ {l : List FrameRange}, z ∈ joinFirst g l →
    ∃ w ∈ l, w.first = z.first
  | [], h => by simp [joinFirst] at h
  | [x], h => ⟨z, h, rfl⟩
  | x :: y :: rest, h => by
    simp only [joinFirst] at h
    split at h
    · rcases List.mem_cons.mp h with rfl | h
      · exact ⟨x, by simp, rfl⟩
      · exact ⟨z, by simp [h], rfl⟩
    · rcases List.mem_cons.mp h with rfl | h
      · exact ⟨z, by simp, rfl⟩
      · obtain ⟨w, hw, e⟩ := mem_joinFirst h
        exact ⟨w, List.mem_cons_of_mem _ hw, e⟩

theorem apart_cons (x : FrameRange) (l : List FrameRange) :
    Apart (x :: l) ↔ x.first ≤ x.last ∧ (∀ y ∈ l, x.last + 2 ≤ y.first) ∧ Apart l := by
  simp only [Apart, List.mem_cons, forall_eq_or_imp, List.pairwise_cons]; tauto

theorem apart_joinFirst (g : Nat) : ∀ {l : List FrameRange}, Apart l → Apart (joinFirst g l)
  | [], h => h
  | [x], h => h
  | x :: y :: rest, h => by
    obtain ⟨hx, hxl, hyr⟩ := (apart_cons ..).mp h
    obtain ⟨hy, hyl, hr⟩ := (apart_cons ..).mp hyr
    simp only [joinFirst]
    split
    · have := hxl y (by simp)
      exact (apart_cons ..).mpr ⟨by simp only; omega, hyl, hr⟩
    · refine (apart_cons ..).mpr ⟨hx, fun z hz => ?_, apart_joinFirst g hyr⟩
      obtain ⟨w, hw, e⟩ := mem_joinFirst hz
      exact e ▸ hxl w hw

theorem smallestGap_isSome {l : List FrameRange} (h : 2 ≤ l.length) : ∃ g, smallestGap l = some g := by
  match l, h with
  | x :: y :: rest, _ => simp only [smallestGap]; split <;> exact ⟨_, rfl⟩

/-- R19: adding a range keeps a rescan list in order and within its size. -/
theorem rescanOrdered_addRange {l : List FrameRange} (hl : rescanOrdered l) {x : FrameRange} (hx : x.first ≤ x.last) :
    rescanOrdered (addRange l x) := by
  have hA := apart_mergeRange hl.2 hx
  have hlen : (mergeRange l x).length ≤ 9 := by
    have h1 : l.length ≤ 8 := hl.1
    have h2 := List.length_filter_le (fun y : FrameRange => !y.touches x) l
    simp only [mergeRange, length_insertBy]; omega
  unfold addRange joinRanges
  split
  · next h => exact ⟨h, hA⟩
  · next h =>
    simp only [Config.rescanRanges] at h
    obtain ⟨g, hg⟩ := smallestGap_isSome (l := mergeRange l x) (by omega)
    have := length_joinFirst hg
    simp only [hg]
    exact ⟨by simp only [Config.rescanRanges]; omega, apart_joinFirst g hA⟩

/-! ### Trimming (R20, step 2) -/

/-- What is left of one range when frame f is trimmed; with `room` a range may be divided. -/
def trimOne (room : Bool) (f : Nat) (x : FrameRange) : List FrameRange :=
  if f < x.first ∨ x.last < f then [x]
  else if x.first = x.last then []
  else if f = x.first then [⟨f + 1, x.last⟩]
  else if f = x.last then [⟨x.first, f - 1⟩]
  else if room then [⟨x.first, f - 1⟩, ⟨f + 1, x.last⟩]
  else [x]

theorem trimFrame_eq (l : List FrameRange) (f : Nat) :
    trimFrame l f = l.flatMap (trimOne (decide (l.length < 8)) f) :=
  congrArg l.flatMap (funext fun x => by simp only [trimOne, decide_eq_true_eq])

/-- The pieces of a range lie inside it, in order. -/
theorem trimOne_inside (room : Bool) (f : Nat) {x : FrameRange} (hx : x.first ≤ x.last) :
    (∀ y ∈ trimOne room f x, x.first ≤ y.first ∧ y.first ≤ y.last ∧ y.last ≤ x.last) ∧
      (trimOne room f x).Pairwise (fun y z => y.last + 2 ≤ z.first) := by
  unfold trimOne
  repeat' split
  all_goals simp
  all_goals omega

theorem length_trimOne (room : Bool) (f : Nat) (x : FrameRange) : (trimOne room f x).length ≤ 2 ∧
    (¬(room = true ∧ x.first < f ∧ f < x.last) → (trimOne room f x).length ≤ 1) := by
  unfold trimOne
  refine ⟨by (repeat' split) <;> simp, fun h => ?_⟩
  repeat' split
  case isFalse.isFalse.isFalse.isFalse.isTrue hr => exact absurd ⟨hr, by omega, by omega⟩ h
  all_goals simp

/-- At most one range of a list in order is divided. -/
theorem length_flatMap_trimOne (room : Bool) (f : Nat) : ∀ {l : List FrameRange}, Apart l →
    (l.flatMap (trimOne room f)).length ≤ l.length + room.toNat ∧
      ((∀ y ∈ l, f < y.first) → (l.flatMap (trimOne room f)).length ≤ l.length)
  | [], _ => by simp
  | x :: l, h => by
    obtain ⟨hx, hxl, hl⟩ := (apart_cons ..).mp h
    obtain ⟨ih1, ih2⟩ := length_flatMap_trimOne room f hl
    obtain ⟨h2, h1⟩ := length_trimOne room f x
    simp only [List.flatMap_cons, List.length_append, List.length_cons, List.mem_cons, forall_eq_or_imp]
    by_cases hin : room = true ∧ x.first < f ∧ f < x.last
    · have := ih2 fun y hy => by have := hxl y hy; omega
      have : room.toNat = 1 := by simp [hin.1]
      omega
    · have := h1 hin
      exact ⟨by omega, fun hc => by have := ih2 hc.2; omega⟩

/-- R20, step 2: trimming keeps a rescan list in order and within its size. -/
theorem rescanOrdered_trimFrame {l : List FrameRange} (hl : rescanOrdered l) (f : Nat) :
    rescanOrdered (trimFrame l f) := by
  obtain ⟨h8, hA⟩ := (rescanOrdered_iff l).mp hl
  rw [trimFrame_eq, rescanOrdered_iff]
  refine ⟨?_, ⟨fun y hy => ?_, ?_⟩⟩
  · have := (length_flatMap_trimOne (decide (l.length < 8)) f hA).1
    by_cases h : l.length < 8 <;> simp [h] at this ⊢ <;> omega
  · obtain ⟨x, hx, hy⟩ := List.mem_flatMap.mp hy
    exact ((trimOne_inside _ f (hA.1 x hx)).1 y hy).2.1
  · refine List.pairwise_flatMap.mpr ⟨fun x hx => (trimOne_inside _ f (hA.1 x hx)).2, ?_⟩
    refine hA.2.imp_of_mem fun {x y} hx hy hxy p hp q hq => ?_
    have h1 := (trimOne_inside _ f (hA.1 x hx)).1 p hp
    have h2 := (trimOne_inside _ f (hA.1 y hy)).1 q hq
    omega

end Sys2Proof.Machine
end

section
/-! SUPPORT. What a state must keep so that its tables stay within their sizes and in canonical form, and its rescan lists in order
(R3, R18, R42, R84, R103, R127, R143, R155, R157, R190); that the operations on reels, damage, surveys and the transport
keep it. -/

namespace Sys2Proof.Machine

variable {s t u : State}

/-! ### Tables that hold their size, their form and a condition on their contents -/

/-- A member of a changed table is an old one, or the change of what the entry read as. -/
theorem mem_modify_read {α : Type} {l : Table α} {i : Nat} {f : α → α} {e : Nat × α} (h : e ∈ l.modify i f) :
    e ∈ l ∨ ∃ x, l.read i = some x ∧ e = (i, f x) := by
  unfold Table.modify at h
  split at h
  · next x hx => exact (Table.mem_write h).symm.imp id fun h => ⟨x, hx, h⟩
  · exact .inl h

/-- A table in canonical form with entries below `n` that all meet `p`. -/
structure Fits {α : Type} (n : Nat) (p : α → Prop) (l : Table α) : Prop where
  wf : l.wf = true
  entries : ∀ e ∈ l, e.1 < n ∧ p e.2

namespace Fits

variable {α : Type} {n : Nat} {p : α → Prop} {l : Table α}

theorem nil : Fits n p ([] : Table α) := ⟨rfl, by simp⟩

theorem of_read (h : Fits n p l) {i : Nat} {x : α} (hx : l.read i = some x) : i < n ∧ p x :=
  h.entries _ (Table.mem_of_read hx)

theorem write (h : Fits n p l) {i : Nat} (hi : i < n) {x : α} (hx : p x) : Fits n p (l.write i x) :=
  ⟨Table.wf_write h.wf i x, fun e he => by
    rcases Table.mem_write he with rfl | he
    · exact ⟨hi, hx⟩
    · exact h.entries e he⟩

theorem modify (h : Fits n p l) (i : Nat) {f : α → α} (hf : ∀ x, l.read i = some x → p x → p (f x)) :
    Fits n p (l.modify i f) :=
  ⟨Table.wf_modify h.wf i f, fun e he => by
    rcases mem_modify_read he with he | ⟨x, hx, rfl⟩
    · exact h.entries e he
    · exact ⟨(h.of_read hx).1, hf x hx (h.of_read hx).2⟩⟩

theorem filter (h : Fits n p l) (q : Nat × α → Bool) : Fits n p (l.filter q : List (Nat × α)) :=
  ⟨Table.wf_filter h.wf q, fun e he => h.entries e (List.mem_of_mem_filter he)⟩

theorem erase (h : Fits n p l) (i : Nat) : Fits n p (l.erase i) := h.filter _

theorem map (h : Fits n p l) {f : α → α} (hf : ∀ x, p x → p (f x)) :
    Fits n p (l.map fun e => (e.1, f e.2) : List (Nat × α)) :=
  ⟨Table.wf_map h.wf f, fun e he => by
    obtain ⟨x, hx, rfl⟩ := List.mem_map.mp he
    exact (h.entries x hx).imp_right (hf _)⟩

end Fits

/-! ### `SizesHold` and `TablesCanonical`, block by block -/

/-- A reel is homed and located at places of the cabinet. -/
def Reel.Placed (r : Reel) : Prop := r.home < 80 ∧ r.location.inRange

/-- A stack within its size. -/
def Shot.Fits (x : Shot) : Prop := x.stack.length ≤ 7

/-- A move within the queue, between places of the cabinet. -/
def Move.Placed (m : Move) : Prop := m.entry < 16 ∧ m.source.inRange ∧ ∀ d ∈ m.dest, d.inRange

structure Rpq.Sound (q : Rpq) : Prop where
  damage : Fits 1024 (fun _ => True) q.damage
  closed : ∀ i ∈ q.closedList, i < 1024
  gate : q.gate.length ≤ 8
  claims : ∀ p : Port, q.claims.get p ≤ 16

structure Cab.Sound (c : Cab) : Prop where
  slots : Machine.Fits 80 (fun _ => True) c.slots
  bays : Machine.Fits 8 (fun _ => True) c.bays
  stagings : Machine.Fits 8 (fun _ => True) c.stagings
  moves : ∀ m ∈ c.moves, m.Placed
  entries : (c.moves.map (·.entry)).Nodup
  timers : c.bayTimers.length = 8

def Survey.Sound (v : Survey) : Prop := Fits 24 (fun _ => True) v.regions

structure State.Sound (s : State) : Prop where
  reels : Fits 96 Reel.Placed s.reg.reels
  rpq : s.rpq.Sound
  pool : Fits 512 Shot.Fits s.sht.pool
  dsu : ∀ c, (s.dsu.get c).Sound
  splices : s.trc.spliceQueue.length ≤ 4
  cab : s.cab.Sound
  settings : s.cfg.settings.wf = true
  millis : s.tmb.millis < 1000
  seconds : s.tmb.seconds < 60

theorem State.sound_iff (s : State) : s.Sound ↔ SizesHold s ∧ TablesCanonical s := by
  constructor
  · rintro ⟨hreels, ⟨hdamage, hclosed, hgate, hclaims⟩, hpool, hdsu, hsplices,
      ⟨hslots, hbays, hstagings, hmoves, hentries, htimers⟩, hsettings, hmillis, hseconds⟩
    exact ⟨⟨hreels.entries, fun e he => (hdamage.entries e he).1, hclosed, hpool.entries,
        fun c e he => ((hdsu c).entries e he).1, fun e he => (hslots.entries e he).1,
        fun e he => (hbays.entries e he).1, fun e he => (hstagings.entries e he).1, hmoves, hentries, htimers, hsplices,
        hgate, hclaims, hmillis, hseconds⟩,
      hreels.wf, hdamage.wf, hpool.wf, hslots.wf, hbays.wf, hstagings.wf, hsettings, fun c => (hdsu c).wf⟩
  · rintro ⟨⟨hreels, hdamage, hclosed, hpool, hdsu, hslots, hbays, hstagings, hmoves, hentries, htimers, hsplices, hgate,
      hclaims, hmillis, hseconds⟩, wreels, wdamage, wpool, wslots, wbays, wstagings, hsettings, wdsu⟩
    exact ⟨⟨wreels, hreels⟩, ⟨⟨wdamage, fun e he => ⟨hdamage e he, trivial⟩⟩, hclosed, hgate, hclaims⟩, ⟨wpool, hpool⟩,
      fun c => ⟨wdsu c, fun e he => ⟨hdsu c e he, trivial⟩⟩, hsplices,
      ⟨⟨wslots, fun e he => ⟨hslots e he, trivial⟩⟩, ⟨wbays, fun e he => ⟨hbays e he, trivial⟩⟩,
        ⟨wstagings, fun e he => ⟨hstagings e he, trivial⟩⟩, hmoves, hentries, htimers⟩, hsettings, hmillis, hseconds⟩

/-! ### Keeping both -/

/-- What happened between `s` and `t` keeps the rescan lists in order, and the tables sound. -/
structure KeepsForm (s t : State) : Prop where
  rescans : RescansOrdered s → RescansOrdered t
  sound : s.Sound → t.Sound

namespace KeepsForm

theorem refl (s : State) : KeepsForm s s := ⟨id, id⟩

theorem trans (h : KeepsForm s t) (k : KeepsForm t u) : KeepsForm s u := ⟨k.rescans ∘ h.rescans, k.sound ∘ h.sound⟩

theorem foldl {α : Type} {f : State → α → State} {l : List α} (hf : ∀ u, ∀ a ∈ l, KeepsForm s u → KeepsForm s (f u a))
    (h : KeepsForm s t) : KeepsForm s (l.foldl f t) := by
  induction l generalizing t with
  | nil => exact h
  | cons a r ih => exact ih (fun u b hb => hf u b (List.mem_cons_of_mem _ hb)) (hf t a List.mem_cons_self h)

/-- The blocks with no part in the form. -/
abbrev freeBlocks : List Block := [.pru, .fcu, .spt, .alt, .out, .pending]

/-- A change of TRC that leaves the splice queue within its size, with any change of the free blocks. -/
theorem of_kept (h : KeepsForm s t) (k : Kept (.trc :: freeBlocks) t u)
    (hq : t.trc.spliceQueue.length ≤ 4 → u.trc.spliceQueue.length ≤ 4) : KeepsForm s u where
  rescans hs e he := h.rescans hs e ((k .reg (by simp) : u.reg = t.reg) ▸ he)
  sound hs := by
    obtain ⟨hreels, hrpq, hpool, hdsu, hsplices, hcab, hsettings, hmillis, hseconds⟩ := h.sound hs
    rw [← (k .reg (by simp) : u.reg = t.reg)] at hreels
    rw [← (k .rpq (by simp) : u.rpq = t.rpq)] at hrpq
    rw [← (k .sht (by simp) : u.sht = t.sht)] at hpool
    rw [← (k .dsu (by simp) : u.dsu = t.dsu)] at hdsu
    rw [← (k .cab (by simp) : u.cab = t.cab)] at hcab
    rw [← (k .cfg (by simp) : u.cfg = t.cfg)] at hsettings
    rw [← (k .tmb (by simp) : u.tmb = t.tmb)] at hmillis hseconds
    exact ⟨hreels, hrpq, hpool, hdsu, hq hsplices, hcab, hsettings, hmillis, hseconds⟩

/-- Any change of the free blocks. -/
theorem free (h : KeepsForm s t) (k : Kept freeBlocks t u) : KeepsForm s u :=
  h.of_kept (k.mono (by simp)) fun hq => (k .trc (by simp) : u.trc = t.trc) ▸ hq

/-! ### One block replaced -/

theorem setPru (h : KeepsForm s t) (x : Pru) : KeepsForm s (t.setPru x) := h.free (by simp)
theorem setFcu (h : KeepsForm s t) (x : Fcu) : KeepsForm s (t.setFcu x) := h.free (by simp)
theorem setCtx (h : KeepsForm s t) (c : CtxId) (x : Option Ctx) : KeepsForm s (t.setCtx c x) := h.free (by simp)
theorem send (h : KeepsForm s t) (c : HeadCommand) : KeepsForm s (t.send c) := h.free (by simp)

theorem setTrc (h : KeepsForm s t) {x : Trc}
    (hq : x.spliceQueue.length ≤ t.trc.spliceQueue.length := by simp) : KeepsForm s (t.setTrc x) :=
  h.of_kept (by simp) hq.trans

theorem setReels (h : KeepsForm s t) {x : Reg}
    (hr : RescansOrdered t → ∀ e ∈ x.reels, rescanOrdered e.2.rescan)
    (hp : s.Sound → Fits 96 Reel.Placed t.reg.reels → Fits 96 Reel.Placed x.reels) : KeepsForm s (t.setReg x) :=
  ⟨hr ∘ h.rescans, fun hs => { h.sound hs with reels := hp hs (h.sound hs).reels }⟩

theorem setConfirm (h : KeepsForm s t) (c : PerPort (Option Confirmation)) :
    KeepsForm s (t.setReg { t.reg with confirm := c }) := h.setReels id fun _ => id

theorem setRpq (h : KeepsForm s t) {x : Rpq} (hx : s.Sound → t.rpq.Sound → x.Sound) : KeepsForm s (t.setRpq x) :=
  ⟨h.rescans, fun hs => { h.sound hs with rpq := hx hs (h.sound hs).rpq }⟩

theorem setPool (h : KeepsForm s t) {x : Sht} (hx : Fits 512 Shot.Fits t.sht.pool → Fits 512 Shot.Fits x.pool) :
    KeepsForm s (t.setSht x) :=
  ⟨h.rescans, fun hs => { h.sound hs with pool := hx (h.sound hs).pool }⟩

/-- A change of SHT outside the pool. -/
theorem setSht (h : KeepsForm s t) {x : Sht} (hx : x.pool = t.sht.pool := by rfl) : KeepsForm s (t.setSht x) :=
  ⟨h.rescans, fun hs => { h.sound hs with pool := show Fits 512 Shot.Fits x.pool from hx ▸ (h.sound hs).pool }⟩

theorem setDsu (h : KeepsForm s t) (c : CtxId) {v : Survey} (hv : (t.dsu.get c).Sound → v.Sound) :
    KeepsForm s (t.setDsu (t.dsu.set c v)) :=
  ⟨h.rescans, fun hs => { h.sound hs with
    dsu := fun d => by
      rw [State.setDsu_dsu, Two.get_set]
      split
      · exact hv ((h.sound hs).dsu c)
      · exact (h.sound hs).dsu d }⟩

theorem setCab (h : KeepsForm s t) {x : Cab} (hx : s.Sound → t.cab.Sound → x.Sound) : KeepsForm s (t.setCab x) :=
  ⟨h.rescans, fun hs => { h.sound hs with cab := hx hs (h.sound hs).cab }⟩

theorem setCfg (h : KeepsForm s t) {x : Cfg} (hx : t.cfg.settings.wf = true → x.settings.wf = true) :
    KeepsForm s (t.setCfg x) :=
  ⟨h.rescans, fun hs => { h.sound hs with settings := hx (h.sound hs).settings }⟩

theorem setTmb (h : KeepsForm s t) {x : Tmb} (hm : x.millis < 1000) (hs : x.seconds < 60) : KeepsForm s (t.setTmb x) :=
  ⟨h.rescans, fun k => { h.sound k with millis := hm, seconds := hs }⟩

end KeepsForm

/-! ### Reels -/

/-- A record changes into another that stays placed, under a condition `k`, and keeps its rescan list in order. -/
def Reel.Becomes (k : Prop) (r r' : Reel) : Prop :=
  (k → r.Placed → r'.Placed) ∧ (rescanOrdered r.rescan → rescanOrdered r'.rescan)

/-- A change of anything but places and rescan list. -/
theorem Reel.becomes_of_eq {k : Prop} {r r' : Reel} (hh : r'.home = r.home) (hl : r'.location = r.location)
    (hr : r'.rescan = r.rescan) : r.Becomes k r' :=
  ⟨fun _ h => by simpa only [Reel.Placed, hh, hl] using h, fun h => hr ▸ h⟩

namespace KeepsForm

theorem modReel (h : KeepsForm s t) (n : Nat) {f : Reel → Reel}
    (hf : ∀ r : Reel, t.reel n = some r → r.Becomes s.Sound (f r)) : KeepsForm s (t.modReel n f) := by
  refine h.setReels (fun ht e he => ?_) fun hs ht => ht.modify n fun r hr => (hf r hr).1 hs
  rcases mem_modify_read he with he | ⟨r, hr, rfl⟩
  · exact ht e he
  · exact (hf r hr).2 (ht _ (Table.mem_of_read hr))

/-- A change of a record outside places and rescan list. -/
theorem modCounts (h : KeepsForm s t) (n : Nat) {f : Reel → Reel}
    (hf : ∀ r, (f r).home = r.home ∧ (f r).location = r.location ∧ (f r).rescan = r.rescan) :
    KeepsForm s (t.modReel n f) :=
  h.modReel n fun r _ => have ⟨hh, hl, hr⟩ := hf r; Reel.becomes_of_eq hh hl hr

/-! ### Alerts, outputs, transport: free blocks and a splice queue that does not grow -/

theorem raise (h : KeepsForm s t) (e : Event) : KeepsForm s (raise e t) := h.free (by simp)
theorem raiseFor (h : KeepsForm s t) (p : Port) (e : Event) : KeepsForm s (raiseFor p e t) := h.free (by simp)
theorem raiseIf (h : KeepsForm s t) (c : Bool) (e : Event) : KeepsForm s (raiseIf c e t) := h.free (by simp)

theorem sendCapstan (h : KeepsForm s t) (v : Int) : KeepsForm s (sendCapstan v t) := send h.setTrc _
theorem sendLight (h : KeepsForm s t) (v : Nat) : KeepsForm s (sendLight v t) := send h.setTrc _
theorem refreshCapstan (h : KeepsForm s t) : KeepsForm s (refreshCapstan t) := h.of_kept (by simp) (by simp)
theorem refreshLight (h : KeepsForm s t) : KeepsForm s (refreshLight t) := h.of_kept (by simp) (by simp)
theorem enter (h : KeepsForm s t) (st : TransportState) : KeepsForm s (enter st t) := h.of_kept (by simp) (by simp)
theorem clearSplices (h : KeepsForm s t) : KeepsForm s (clearSplices t) :=
  h.of_kept (by simp) (by simp [Machine.clearSplices])

theorem addHold (h : KeepsForm s t) (c : HoldCause) : KeepsForm s (addHold c t) := by
  unfold Machine.addHold
  split
  · exact h
  · dsimp only
    split
    · exact (h.setTrc.enter _).raise _
    · exact h.setTrc

theorem removeHold (h : KeepsForm s t) (c : HoldCause) : KeepsForm s (removeHold c t) := by
  unfold Machine.removeHold
  split
  · dsimp only
    split
    · exact h.setTrc.setTrc.enter _
    · exact h.setTrc
  · exact h

theorem reanchorAt (h : KeepsForm s t) (m : Mark) : KeepsForm s (reanchorAt m t) := h.free (by simp)
theorem placeExpectation (h : KeepsForm s t) : KeepsForm s (placeExpectation t) := h.free (by simp)

theorem applyCommit (h : KeepsForm s t) (place : Option Mark) : KeepsForm s (applyCommit place t) := by
  unfold Machine.applyCommit
  dsimp only
  split
  · exact h.free (by simp)
  · exact (h.free (by split <;> simp)).refreshCapstan

theorem applyPending (h : KeepsForm s t) : KeepsForm s (applyPending t) := by
  unfold Machine.applyPending
  split
  · exact h.applyCommit _
  · exact h

theorem enterThreaded (h : KeepsForm s t) : KeepsForm s (enterThreaded t) := (h.enter _).applyPending

theorem stopRun (h : KeepsForm s t) : KeepsForm s (stopRun t) := h.setTrc.clearSplices.enterThreaded

theorem correction (h : KeepsForm s t) (e p : Int) (k : Nat) : KeepsForm s (correction e p k t) :=
  KeepsForm.refreshCapstan (h.free (by simp))

theorem adaptStep (h : KeepsForm s t) (k : Nat) (e : Option (Int × Int)) : KeepsForm s (adaptStep k e t) := by
  unfold Machine.adaptStep
  split
  · exact h
  · exact h.free (by simp)
  · exact h
  · split
    · split
      · exact h.correction ..
      · exact h.free (by simp)
    · exact h
  · exact h.free (by split <;> simp)

theorem commitAtLine (h : KeepsForm s t) (m : Mark) : KeepsForm s (commitAtLine m t).2 := by
  unfold Machine.commitAtLine
  split
  · exact h.applyCommit (some m)
  · exact h

theorem testZones (h : KeepsForm s t) : KeepsForm s (testZones t) := h.setTrc.refreshCapstan

theorem headReport (h : KeepsForm s t) : KeepsForm s (headReport t) :=
  h.of_kept (by simp) (by unfold Machine.headReport; dsimp only; split <;> simp)

/-! ### Rescan lists and shots -/

theorem putShot (h : KeepsForm s t) {r : Nat} (hr : r < 512) {x : Shot} (hx : x.Fits) : KeepsForm s (t.putShot r x) :=
  h.setPool fun hp => hp.write hr hx

theorem modShot (h : KeepsForm s t) (n : Nat) {f : Shot → Shot}
    (hf : ∀ x, t.sht.pool.read n = some x → x.Fits → (f x).Fits) : KeepsForm s (t.modShot n f) :=
  h.setPool fun hp => hp.modify n hf

theorem reopenShot (h : KeepsForm s t) (n : Nat) : KeepsForm s (reopenShot n t) := by
  unfold Machine.reopenShot
  split
  · split
    · exact KeepsForm.raise (h.modShot n (f := fun y => { y with state := .editable }) fun _ _ => id) _
    · exact h
  · exact h

theorem reopenWhere (h : KeepsForm s t) (j : Nat) (cond : Shot → Bool) : KeepsForm s (reopenWhere j cond t) :=
  foldl (fun u a _ hu => by
    split
    · exact hu.reopenShot _
    · exact hu) h

theorem rescanAdd (h : KeepsForm s t) (j : Nat) {x : FrameRange} (hx : x.first ≤ x.last) :
    KeepsForm s (rescanAdd j x t) := by
  unfold Machine.rescanAdd
  cases hr : t.reel j with
  | none => exact h
  | some r =>
    dsimp only
    split
    · exact h
    · have hm : KeepsForm s (t.modReel j (fun y => { y with rescan := addRange r.rescan x })) :=
        h.modReel j fun y hy => ⟨fun _ => id, fun hl => by
          obtain rfl : r = y := Option.some.inj (hr.symm.trans hy)
          exact rescanOrdered_addRange hl hx⟩
      exact (hm.raise _).reopenWhere _ _

theorem rescanThreaded (h : KeepsForm s t) {x : FrameRange} (hx : x.first ≤ x.last) :
    KeepsForm s (rescanThreaded x t) := by
  unfold Machine.rescanThreaded
  split
  · exact h.rescanAdd _ hx
  · exact h

/-- A single frame asked for. -/
theorem rescanFrame (h : KeepsForm s t) (j k : Nat) : KeepsForm s (Machine.rescanAdd j ⟨k, k⟩ t) :=
  h.rescanAdd j (x := ⟨k, k⟩) le_rfl

theorem rescanFrameThreaded (h : KeepsForm s t) (k : Nat) : KeepsForm s (Machine.rescanThreaded ⟨k, k⟩ t) :=
  h.rescanThreaded (x := ⟨k, k⟩) le_rfl

theorem frameRecorded (h : KeepsForm s t) (j f : Nat) (complete : Bool) :
    KeepsForm s (frameRecorded j f complete t) := by
  unfold Machine.frameRecorded
  extract_lets rose risen listed
  have h1 : KeepsForm s risen := by
    unfold risen
    split
    · exact h.modCounts j fun _ => ⟨rfl, rfl, rfl⟩
    · exact h
  have h2 : KeepsForm s listed := by
    unfold listed
    split
    · exact h1.modReel j fun _ _ => ⟨fun _ => id, fun hl => rescanOrdered_trimFrame hl f⟩
    · exact h1.rescanFrame j f
  split
  · split
    · split
      · exact h2.reopenShot _
      · exact h2
    · exact h2
  · exact h2

theorem addLostArea (h : KeepsForm s t) (j a : Nat) : KeepsForm s (addLostArea j a t) :=
  h.modCounts j fun _ => ⟨rfl, rfl, rfl⟩

end KeepsForm

/-! ### Damage records -/

theorem Reel.subCount_becomes (k : Prop) (a : DamageState) (r : Reel) : r.Becomes k (r.subCount a) := by
  cases a <;> exact Reel.becomes_of_eq rfl rfl rfl

theorem Reel.addCount_becomes (k : Prop) (a : DamageState) (r : Reel) : r.Becomes k (r.addCount a) := by
  cases a <;> exact Reel.becomes_of_eq rfl rfl rfl

theorem Reel.Becomes.trans {k : Prop} {a b c : Reel} (h : a.Becomes k b) (h' : b.Becomes k c) : a.Becomes k c :=
  ⟨fun hk => h'.1 hk ∘ h.1 hk, h'.2 ∘ h.2⟩

/-- Claim counts stay in their range when the count of a port that claims one more was below 16 (R104). -/
theorem claims_le {c : PerPort Nat} (hc : ∀ p, c.get p ≤ 16) (a b : DamageState)
    (hb : ∀ p, b = .claimed p → c.get p < 16) (p : Port) : (claimsUp (claimsDown c a) b).get p ≤ 16 := by
  have hd : ∀ p, (claimsDown c a).get p ≤ c.get p := by
    intro p
    cases a with
    | claimed q =>
      simp only [claimsDown, PerPort.get_set]
      split
      · next h => subst h; omega
      · exact le_rfl
    | _ => exact le_rfl
  cases b with
  | claimed q =>
    simp only [claimsUp, PerPort.get_set]
    have := hb q rfl
    have := hd q
    split
    · omega
    · exact (hd p).trans (hc p)
  | _ => exact (hd p).trans (hc p)

/-- The entries of a list in creation order lie in the damage table. -/
theorem lt_of_mem_damageBySeq (h : s.rpq.Sound) {cond : Damage → Bool} {i : Nat} (hi : i ∈ s.damageBySeq cond) :
    i < 1024 :=
  have ⟨_, hd, _⟩ := (mem_damageBySeq h.damage.wf cond i).mp hi
  (h.damage.of_read hd).1

/-- Marking an entry as hit leaves the gate-dirt list as long as it was (R112). -/
theorem length_hitGate {x : Found} : ∀ {l g : List GateEntry}, hitGate x l = some g → g.length = l.length
  | [], g, h => by simp [hitGate] at h
  | e :: l, g, h => by
    simp only [hitGate] at h
    split at h
    · cases h; rfl
    · obtain ⟨g', hg', rfl⟩ := Option.map_eq_some_iff.mp h
      simp [length_hitGate hg']

/-- Ageing only takes entries out (R116). -/
theorem length_ageGate (limit : Nat) (l : List GateEntry) : (ageGate limit l).length ≤ l.length := by
  unfold ageGate
  exact (List.length_filter_le _ _).trans (by simp)

namespace KeepsForm

theorem breakChains (h : KeepsForm s t) : KeepsForm s (breakChains t) :=
  h.setRpq fun _ hq => ⟨hq.damage, hq.closed, hq.gate, hq.claims⟩

theorem moveDamage (h : KeepsForm s t) (i : Nat) {st : DamageState}
    (hst : ∀ p, st = .claimed p → t.rpq.claims.get p < 16) : KeepsForm s (moveDamage i st t) := by
  unfold Machine.moveDamage
  split
  · exact h
  · next d hd =>
    refine (h.setRpq fun _ hq => ?_).modReel _ fun r _ => (r.subCount_becomes _ _).trans (Reel.addCount_becomes _ _ _)
    exact ⟨hq.damage.write (hq.damage.of_read hd).1 trivial, hq.closed, hq.gate, claims_le hq.claims _ _ hst⟩

theorem closeDamage (h : KeepsForm s t) (o : DamageOutcome) {i : Nat} (hi : s.Sound → i < 1024) :
    KeepsForm s (closeDamage o t i) := by
  refine (h.moveDamage i (st := .closed o) fun p hp => by cases hp).setRpq fun hs hq =>
    ⟨hq.damage, fun j hj => ?_, hq.gate, hq.claims⟩
  rcases List.mem_append.mp hj with hj | hj
  · exact hq.closed j hj
  · exact List.mem_singleton.mp hj ▸ hi hs

theorem modDamage (h : KeepsForm s t) (i : Nat) (f : Damage → Damage) : KeepsForm s (t.modDamage i f) :=
  h.setRpq fun _ hq => ⟨hq.damage.modify i fun _ _ => id, hq.closed, hq.gate, hq.claims⟩

theorem releaseClaims (h : KeepsForm s t) (p : Port) : KeepsForm s (releaseClaims p t) :=
  KeepsForm.raiseIf (foldl (fun _ i _ hu => hu.moveDamage i fun q hq => by cases hq) h) _ _

theorem withdrawRef (h : KeepsForm s t) (r : DamageRef) : KeepsForm s (withdrawRef t r) := by
  unfold Machine.withdrawRef
  split
  · exact h
  · next d hd =>
    split
    · exact h
    · split
      · exact h.closeDamage _ fun hs => ((h.sound hs).rpq.damage.of_read hd).1
      · exact h.modDamage _ _
      · exact h

theorem promote (h : KeepsForm s t) (x : Found) (refs : List DamageRef) (hg : t.rpq.gate.length < 8) :
    KeepsForm s (promote x refs t) := by
  refine foldl (fun _ r _ hu => hu.withdrawRef r) (KeepsForm.raise (h.setRpq fun _ hq => ?_) _)
  exact ⟨hq.damage, hq.closed, by rw [List.length_append]; exact hg, hq.claims⟩

theorem supersede (h : KeepsForm s t) (j k : Nat) : KeepsForm s (supersede j k t) :=
  foldl (fun _ i _ hu => hu.modDamage i _) (foldl (fun _ _ hi hu =>
    hu.closeDamage _ fun hs => lt_of_mem_damageBySeq (h.sound hs).rpq hi) h)

/-- R105: the entry for a new record lies in the table, and giving a closed record's entry up keeps the form. -/
theorem allocDamage {i : Nat} (h : KeepsForm s t) (hu : allocDamage t = some (i, u)) :
    KeepsForm s u ∧ (s.Sound → i < 1024) := by
  unfold Machine.allocDamage at hu
  split at hu
  · next j hj =>
    cases hu
    exact ⟨h, fun _ => (Table.firstFree_spec hj).1⟩
  · split at hu
    · cases hu
    · next j rest hl =>
      have hk : KeepsForm s (t.setRpq { t.rpq with closedList := rest }) := h.setRpq fun _ hq =>
        ⟨hq.damage, fun i hi => hq.closed i (hl ▸ List.mem_cons_of_mem _ hi), hq.gate, hq.claims⟩
      have hlt : s.Sound → j < 1024 := fun hs => (h.sound hs).rpq.closed j (hl ▸ List.mem_cons_self)
      dsimp only at hu
      split at hu <;> cases hu
      · exact ⟨hk.modReel _ fun r _ => r.subCount_becomes _ _, hlt⟩
      · exact ⟨hk, hlt⟩

theorem createDamage (h : KeepsForm s t) (j k : Nat) (x : Found) : KeepsForm s (createDamage j k x t).1 := by
  unfold Machine.createDamage
  split
  · exact h.addLostArea _ _
  · next i u hu =>
    obtain ⟨hk, hi⟩ := h.allocDamage hu
    have hv : ∀ d : Damage, KeepsForm s ((u.setRpq { u.rpq with
        damage := u.rpq.damage.write i d, counter := u.rpq.counter + 1 }).modReel j (fun r => r.addCount .queued)) :=
      fun d => (hk.setRpq (x := { u.rpq with damage := u.rpq.damage.write i d, counter := u.rpq.counter + 1 }) fun hs hq =>
        ⟨hq.damage.write (hi hs) trivial, hq.closed, hq.gate, hq.claims⟩).modReel _ fun r _ => r.addCount_becomes _ _
    dsimp only
    split
    · exact ((hv _).raiseIf _ _).reopenWhere _ _
    · exact (hv _).raiseIf _ _

theorem recordRegion {acc : FrameDamage × State} (h : KeepsForm s acc.2) (j k : Nat) (x : Found)
    (chain : Option (Nat × List DamageRef)) : KeepsForm s (recordRegion j k x chain acc).2 := h.createDamage j k x

theorem takeRegion {acc : FrameDamage × State} (h : KeepsForm s acc.2) (j k : Nat) (x : Found) :
    KeepsForm s (takeRegion j k acc x).2 := by
  unfold Machine.takeRegion
  split
  · exact h.recordRegion ..
  · split
    · next g hg =>
      exact h.setRpq fun _ hq => ⟨hq.damage, hq.closed, (length_hitGate hg).trans_le hq.gate, hq.claims⟩
    · dsimp only
      split
      · exact h.createDamage ..
      · split
        · next hlt => exact h.promote _ _ hlt
        · exact h.createDamage ..

theorem takeRegions (j k : Nat) : ∀ (found : List Found) {acc : FrameDamage × State}, KeepsForm s acc.2 →
    KeepsForm s (found.foldl (Machine.takeRegion j k) acc).2
  | [], _, h => h
  | x :: found, _, h => takeRegions j k found (h.takeRegion j k x)

theorem recordDamage (h : KeepsForm s t) (j k : Nat) (rescan reanch : Bool) (found : List Found) :
    KeepsForm s (recordDamage j k rescan reanch found t).2 := by
  have h1 : KeepsForm s (if rescan then Machine.supersede j k t else t) := by
    split
    · exact h.supersede j k
    · exact h
  have h2 := fun (w : List PrevRegion) => h1.takeRegions j k found
    (acc := ({ recorded := 0, suppressed := 0, lost := false, refused := false, work := w, next := [] }, _))
  refine KeepsForm.raiseIf (KeepsForm.raiseIf ((h2 _).setRpq fun _ hq => ?_) _ _) _ _
  exact ⟨hq.damage, hq.closed, (length_ageGate _ _).trans hq.gate, hq.claims⟩

end KeepsForm

/-! ### Survey contexts -/

/-- Freeing the entries of a list keeps a table sound. -/
theorem Fits.eraseAll {n : Nat} {p : Region → Prop} : ∀ (l : List (Nat × Region)) {t : Table Region}, Fits n p t →
    Fits n p (l.foldl (fun t x => t.erase x.1) t)
  | [], _, h => h
  | x :: l, _, h => eraseAll l (h.erase x.1)

theorem sound_openSurvey (threshold : Nat) (offset : Int) : (openSurvey threshold offset).Sound := Fits.nil

namespace Survey.Sound

variable {v : Survey}

theorem takeRun (h : v.Sound) (row : Nat) (ir : List (BitVec 16)) (x : Span) : (takeRun row ir v x).Sound := by
  unfold Machine.takeRun
  dsimp only
  split
  · next i g others hl =>
    have hi : (i, g) ∈ v.regions := List.mem_of_mem_filter (hl ▸ List.mem_cons_self)
    exact (Fits.eraseAll others h).write (h.entries _ hi).1 trivial
  · split
    · next i hi => exact Fits.write h (Table.firstFree_spec hi).1 trivial
    · exact h

theorem takeRuns (row : Nat) (ir : List (BitVec 16)) : ∀ (l : List Span) {v : Survey}, v.Sound →
    (l.foldl (Machine.takeRun row ir) v).Sound
  | [], _, h => h
  | x :: l, _, h => takeRuns row ir l (h.takeRun row ir x)

theorem takeRow (h : v.Sound) (row : Nat) (ir : List (BitVec 16)) : (takeRow row ir v).Sound :=
  Fits.map (takeRuns row ir _ (v := { v with mask := defectMask v.threshold ir }) h) fun _ => id

theorem closeRegions (h : v.Sound) : (closeRegions v).Sound := Fits.map h (f := fun g => { g with isOpen := false }) fun _ => id

end Survey.Sound

namespace KeepsForm

theorem surveyDone (h : KeepsForm s t) (c : CtxId) (j : Nat) (complete : Bool) :
    KeepsForm s (surveyDone c j complete t) := by
  have hv := h.setDsu c Survey.Sound.closeRegions
  unfold Machine.surveyDone
  dsimp only
  split
  · split
    · exact hv.addLostArea _ _
    · exact hv
  · exact h

end KeepsForm
end Sys2Proof.Machine
end

section
/-! SUPPORT. Contexts, frame lines and reports keep the form (chapters 3 and 4). -/

namespace Sys2Proof.Machine

variable {s t u : State}

namespace KeepsForm

theorem takeFrame (h : KeepsForm s t) (c : CtxId) (j k : Nat) (complete new splice : Bool) :
    KeepsForm s (takeFrame c j k complete new splice t).2 := by
  refine setSht ?_
  split
  · split
    · next r hr => exact h.putShot (Table.firstFree_spec hr).1 (by simp [Shot.Fits, detectedShot])
    · exact h.raise _
  · exact h

/-! ### Contexts (chapter 4) -/

theorem damageDone (h : KeepsForm s t) (x : Ctx) (complete rescan : Bool) (found : List Found) :
    KeepsForm s (damageDone x complete rescan found t).2 := by
  unfold Machine.damageDone
  split
  · exact h.recordDamage ..
  · exact h.breakChains

theorem appendRecord (h : KeepsForm s t) (x : FrameRecord) : KeepsForm s (appendRecord x t) := by
  have h1 : KeepsForm s (Machine.raiseIf t.fcu.queue.isEmpty .framesWaiting
      (t.setFcu { t.fcu with queue := t.fcu.queue ++ [x] })) := h.free (by simp)
  unfold Machine.appendRecord
  dsimp only
  split
  · exact h1.addHold _
  · exact h1

theorem closeCtx (h : KeepsForm s t) (c : CtxId) (complete : Bool) : KeepsForm s (closeCtx c complete t) := by
  unfold Machine.closeCtx
  split
  · exact h
  · next x _ =>
    have h5 := ((((h.surveyDone c x.handle complete).takeFrame c x.handle x.frame complete
      (!decide (x.frame < t.frontier x.handle)) x.splice).frameRecorded x.handle x.frame complete).damageDone x complete
      (decide (x.frame < t.frontier x.handle)) (foundRegions ((Machine.surveyDone c x.handle complete t).dsu.get c)))
    exact (h5.free (by simp)).appendRecord _

theorem openCtx (h : KeepsForm s t) (c : CtxId) (x : LineReport) : KeepsForm s (openCtx c x t) :=
  send (setSht (setDsu (h.setFcu _) c fun _ => sound_openSurvey _ _)) _

theorem captureLine (h : KeepsForm s t) (c : CtxId) (x : LineReport) : KeepsForm s (captureLine c x t) := by
  have h1 : ∀ same : Bool, KeepsForm s (if same then Machine.closeCtx c.other false t else t) := by
    intro same
    split
    · exact h.closeCtx _ _
    · exact h
  unfold Machine.captureLine
  extract_lets same u
  split
  · exact openCtx (h1 same) c x
  · exact h1 same

theorem skipLine (h : KeepsForm s t) (k : Nat) : KeepsForm s (skipLine k t) :=
  breakChains (KeepsForm.raise (setFcu (h.rescanFrameThreaded k) _) _)

theorem seekingGap (h : KeepsForm s t) (x : LineReport) : KeepsForm s (seekingGap x t) := by
  unfold Machine.seekingGap
  split
  · exact h
  · dsimp only
    split
    · next hlt => exact h.rescanThreaded (Nat.le_sub_one_of_lt hlt)
    · exact h

theorem frameLimit (h : KeepsForm s t) (k : Nat) : KeepsForm s (frameLimit k t) := by
  unfold Machine.frameLimit
  split
  · exact h.stopRun.raise _
  · exact h

theorem takeLine (h : KeepsForm s t) (x : LineReport) : KeepsForm s (takeLine x t) := by
  unfold Machine.takeLine
  refine frameLimit ?_ _
  split
  · split
    · exact setFcu (h.rescanFrameThreaded _) _
    · exact h
  · dsimp only
    split
    · exact h.seekingGap x
    · split
      · exact (h.seekingGap x).captureLine _ x
      · exact (h.seekingGap x).skipLine _

theorem rowInOrder (h : KeepsForm s t) (c : CtxId) (x : Ctx) (row : Nat) (ir visible : List (BitVec 16)) :
    KeepsForm s (rowInOrder c x row ir visible t) := by
  have h1 := h.setDsu c (v := takeRow row ir (t.dsu.get c)) fun hs => hs.takeRow row ir
  unfold Machine.rowInOrder
  extract_lets v a _ b d
  have h2 : KeepsForm s d := setCtx (setSht h1) c _
  split
  · exact h2.closeCtx _ _
  · exact h2

theorem takeRowMessage (h : KeepsForm s t) (k row : Nat) (ir visible : List (BitVec 16)) :
    KeepsForm s (takeRowMessage k row ir visible t) := by
  unfold Machine.takeRowMessage
  split
  · exact h.free (by simp)
  · next c _ =>
    extract_lets d
    have h1 : KeepsForm s d := by
      unfold d
      split
      · exact h.closeCtx _ _
      · exact h
    split
    · exact h1
    · split
      · exact h1.rowInOrder ..
      · exact h1.closeCtx _ _

theorem abandonCtx (h : KeepsForm s t) (c : CtxId) : KeepsForm s (abandonCtx c t) := by
  unfold Machine.abandonCtx
  split
  · exact h
  · exact breakChains (setCtx (setSht (h.rescanFrame _ _)) c none)

theorem enterFault (h : KeepsForm s t) (cause : FaultCause) : KeepsForm s (enterFault cause t) := by
  unfold Machine.enterFault
  split
  · exact h
  · refine KeepsForm.raise (setPru (abandonCtx (abandonCtx (KeepsForm.enter ?_ _) _) _) _) _
    exact sendLight (sendCapstan (KeepsForm.clearSplices (setTrc h)) _) _

/-! ### Frame lines (chapter 3) -/

theorem reportLine (h : KeepsForm s t) (m : Mark) (e : Option Int) (r : Bool) (f : Option Nat) :
    KeepsForm s (reportLine m e r f t) := h.takeLine _

theorem afterReport (h : KeepsForm s t) (k : Nat) : KeepsForm s (afterReport k t) := by
  unfold Machine.afterReport
  split
  · exact h.free (by simp)
  · split
    · exact h.free (by simp)
    · exact h.free (by simp)

theorem completeLine (h : KeepsForm s t) (k : Nat) (pk : Int) (edge : Option Int) :
    KeepsForm s (completeLine k pk edge t) := by
  unfold Machine.completeLine
  extract_lets m e re _ a b d c
  have ha : KeepsForm s a := h.setPru _
  have h1 : KeepsForm s b := by
    unfold b
    clear_value e
    split
    · exact ha.free (by simp)
    · split
      · exact ha.free (by simp)
      · exact ha.free (by simp)
  have h2 : KeepsForm s d := h1.adaptStep _ _
  exact afterReport (reportLine (h2.commitAtLine m) ..) k

theorem seekingEdge (h : KeepsForm s t) (edge : Int) : KeepsForm s (seekingEdge edge t) :=
  afterReport (reportLine (commitAtLine (reanchorAt (h.setPru _) _) _) ..) _

theorem declareMissing (p : Int) : ∀ (n : Nat) {t : State}, KeepsForm s t → KeepsForm s (declareMissing n p t)
  | 0, _, h => h
  | n + 1, t, h => by
    unfold Machine.declareMissing
    split
    · exact h
    · split
      · exact declareMissing p n (h.completeLine ..)
      · exact h

theorem takeEdge (h : KeepsForm s t) (p : Int) : KeepsForm s (takeEdge p t) := by
  unfold Machine.takeEdge
  split
  · exact h
  · split
    · exact h.seekingEdge p
    · split
      · exact h.free (by simp [strayEdge])
      · split
        · exact h.free (by simp [strayEdge])
        · exact h.completeLine ..

theorem onePassage (h : KeepsForm s t) : KeepsForm s (onePassage t) := by
  have hp : ∀ {u}, KeepsForm s u → KeepsForm s (splicePassage u) := fun k => k.free (by simp)
  refine hp ?_
  split
  · exact h.modCounts _ fun _ => ⟨rfl, rfl, rfl⟩
  · exact h

theorem takePassages (h : KeepsForm s t) : KeepsForm s (takePassages t) := by
  unfold Machine.takePassages
  split
  · exact h
  · dsimp only
    split
    · exact h
    · exact testZones (foldl (fun _ _ _ hu => hu.onePassage) (h.setTrc (List.length_filter_le _ _)))

theorem resumeScanning (h : KeepsForm s t) : KeepsForm s (resumeScanning t) := by
  unfold Machine.resumeScanning
  dsimp only
  split
  · exact KeepsForm.enter (setTrc h) _
  · exact KeepsForm.enter (placeExpectation (setTrc h)) _

theorem takePosition (h : KeepsForm s t) (p : Int) : KeepsForm s (takePosition p t) := by
  unfold Machine.takePosition
  extract_lets _ a
  have h1 : KeepsForm s a := h.setTrc (le_refl t.trc.spliceQueue.length)
  split
  · split
    · exact h1.enterThreaded
    · exact h1
  · split
    · split
      · exact h1.resumeScanning
      · exact h1
    · exact h1
  · exact (declareMissing p _ h1.testZones).takePassages
  · exact h1

theorem takeFrameLine (h : KeepsForm s t) (p : Int) : KeepsForm s (takeFrameLine p t) := by
  unfold Machine.takeFrameLine
  extract_lets _ a
  have h1 : KeepsForm s a := by
    unfold a
    split
    · exact h
    · exact h.free (by simp)
  split
  · exact (declareMissing p _ h1).takeEdge p
  · exact h1

end KeepsForm
end Sys2Proof.Machine
end

section
/-! SUPPORT. Moves, reels, settings, ticks and motion keep the form (chapters 1, 2, 9 and 11). -/

namespace Sys2Proof.Machine

variable {s t u : State}

/-! ### CAB -/

theorem Cab.freeEntry_spec {c : Cab} {e : Nat} (h : c.freeEntry = some e) : e < 16 ∧ ∀ m ∈ c.moves, m.entry ≠ e :=
  ⟨List.mem_range.mp (List.mem_of_find?_eq_some h), by simpa using List.find?_some h⟩

theorem fits_setEntry {n i : Nat} {l : Table Occupancy} (h : Fits n (fun _ => True) l) (hi : i < n)
    (o : Option Occupancy) : Fits n (fun _ => True) (setEntry l i o) := by
  cases o with
  | some o => exact h.write hi trivial
  | none => exact h.erase i

namespace Cab.Sound

variable {c : Cab}

theorem occupy (h : c.Sound) {p : Place} (hp : p.inRange) (o : Option Occupancy) : (c.occupy p o).Sound := by
  obtain ⟨hslots, hbays, hstagings, hmoves, hentries, htimers⟩ := h
  cases p with
  | slot n => exact ⟨fits_setEntry hslots hp o, hbays, hstagings, hmoves, hentries, htimers⟩
  | bay n => exact ⟨hslots, fits_setEntry hbays hp o, hstagings, hmoves, hentries, htimers⟩
  | staging n => exact ⟨hslots, hbays, fits_setEntry hstagings hp o, hmoves, hentries, htimers⟩
  | _ => exact ⟨hslots, hbays, hstagings, hmoves, hentries, htimers⟩

theorem removeMove (h : c.Sound) (e : Nat) : (c.removeMove e).Sound :=
  ⟨h.slots, h.bays, h.stagings, fun m hm => h.moves m (List.mem_of_mem_filter hm),
    h.entries.sublist (List.filter_sublist.map _), h.timers⟩

theorem modMove (h : c.Sound) (e : Nat) {f : Move → Move} (hf : ∀ m ∈ c.moves, (f m).Placed)
    (he : ∀ m, (f m).entry = m.entry) : (c.modMove e f).Sound := by
  refine ⟨h.slots, h.bays, h.stagings, fun m hm => ?_, ?_, h.timers⟩
  · obtain ⟨x, hx, rfl⟩ := List.mem_map.mp hm
    split
    · exact hf x hx
    · exact h.moves x hx
  · have hsame : (fun m : Move => (if m.entry = e then f m else m).entry) = Move.entry := by
      funext m; split <;> simp [he]
    simpa [Cab.modMove, Function.comp_def, hsame] using h.entries

theorem addMove (h : c.Sound) {m : Move} (hm : m.Placed) (hfree : ∀ x ∈ c.moves, x.entry ≠ m.entry) :
    Cab.Sound { c with moves := c.moves ++ [m] } := by
  refine ⟨h.slots, h.bays, h.stagings, fun x hx => ?_, ?_, h.timers⟩
  · rcases List.mem_append.mp hx with hx | hx
    · exact h.moves x hx
    · exact List.mem_singleton.mp hx ▸ hm
  · simp only [List.map_append, List.map_cons, List.map_nil]
    refine List.nodup_append.mpr ⟨h.entries, by simp, fun a ha b hb => ?_⟩
    obtain ⟨x, hx, rfl⟩ := List.mem_map.mp ha
    exact List.mem_singleton.mp hb ▸ hfree x hx

end Cab.Sound

/-- R159: a destination is one of the cabinet's places. -/
theorem inRange_of_chooseDest (h : s.Sound) {m : Move} {d : Place} (hd : s.chooseDest m = some d) : d.inRange := by
  unfold State.chooseDest at hd
  split at hd
  · obtain ⟨n, hn, rfl⟩ := Option.map_eq_some_iff.mp hd; exact (Table.firstFree_spec hn).1
  · obtain ⟨n, hn, rfl⟩ := Option.map_eq_some_iff.mp hd; exact (Table.firstFree_spec hn).1
  · obtain ⟨n, hn, rfl⟩ := Option.map_eq_some_iff.mp hd; exact (Table.firstFree_spec hn).1
  · split at hd
    · next r hr =>
      obtain ⟨n, hn, rfl⟩ := Option.map_eq_some_iff.mp hd
      have hhome := (h.reels.of_read hr).2.1
      unfold shelveSlot at hn
      split at hn
      · exact Option.some.inj hn ▸ hhome
      · split at hn
        · exact (Table.firstFreeFrom_spec hn).2.1
        · exact (Table.firstFreeFrom_spec hn).2.1.trans (by decide)
    · cases hd
  · obtain ⟨n, hn, rfl⟩ := Option.map_eq_some_iff.mp hd; exact (Table.firstFreeFrom_spec hn).2.1
  · cases hd; trivial

/-- The move in flight is one of the queue. -/
theorem mem_of_moving {c : Cab} {m : Move} (h : c.moving = some m) : m ∈ c.moves := List.mem_of_find?_eq_some h

theorem mem_of_oldestEligible {m : Move} (h : s.oldestEligible = some m) : m ∈ s.cab.moves := by
  unfold State.oldestEligible at h
  split at h
  · cases h
  · exact List.mem_of_find?_eq_some h

namespace KeepsForm

/-- A change of CAB outside positions, moves and timers. -/
theorem setCabRest (h : KeepsForm s t) {x : Cab} (hslots : x.slots = t.cab.slots := by rfl)
    (hbays : x.bays = t.cab.bays := by rfl) (hstagings : x.stagings = t.cab.stagings := by rfl)
    (hmoves : x.moves = t.cab.moves := by rfl) (htimers : x.bayTimers = t.cab.bayTimers := by rfl) :
    KeepsForm s (t.setCab x) :=
  h.setCab fun _ hc => ⟨hslots ▸ hc.slots, hbays ▸ hc.bays, hstagings ▸ hc.stagings, hmoves ▸ hc.moves,
    hmoves ▸ hc.entries, htimers ▸ hc.timers⟩

theorem occupy (h : KeepsForm s t) {p : Place} (hp : s.Sound → p.inRange) (o : Option Occupancy) :
    KeepsForm s (t.occupy p o) := h.setCab fun hs hc => hc.occupy (hp hs) o

theorem refreshCab (h : KeepsForm s t) : KeepsForm s (refreshCab t) :=
  KeepsForm.raiseIf (KeepsForm.raiseIf (setCabRest h) _ _) _ _

theorem removeMove (h : KeepsForm s t) (e : Nat) : KeepsForm s (t.setCab (t.cab.removeMove e)) :=
  h.setCab fun _ hc => hc.removeMove e

theorem createMoveIn (h : KeepsForm s t) {e : Nat} (he : s.Sound → e < 16) (hfree : ∀ m ∈ t.cab.moves, m.entry ≠ e)
    (j : Nat) (kind : MoveKind) : KeepsForm s (createMoveIn e j kind t) := by
  unfold Machine.createMoveIn
  split
  · next r hr =>
    exact h.setCab fun hs hc =>
      hc.addMove ⟨he hs, ((h.sound hs).reels.of_read hr).2.2, fun d hd => by simp at hd⟩ hfree
  · exact h

theorem createMove (h : KeepsForm s t) (j : Nat) (kind : MoveKind) : KeepsForm s (createMove j kind t) := by
  unfold Machine.createMove
  split
  · next e he => exact h.createMoveIn (fun _ => (Cab.freeEntry_spec he).1) (Cab.freeEntry_spec he).2 j kind
  · exact h

theorem enterAuto (h : KeepsForm s t) (j : Nat) (kind : MoveKind) : KeepsForm s (enterAuto j kind t) :=
  (h.createMove j kind).raiseIf _ _

theorem autoMove (h : KeepsForm s t) (j : Nat) (kind : MoveKind) : KeepsForm s (autoMove j kind t) := by
  unfold Machine.autoMove
  split
  · exact h.enterAuto j kind
  · exact setCabRest h

theorem drainMarks : ∀ (l : List LegDue) {t : State}, KeepsForm s t → KeepsForm s (drainMarks l t)
  | [], _, h => h
  | m :: l, _, h => by
    unfold Machine.drainMarks
    split
    · exact drainMarks l (enterAuto (setCabRest h) _ _)
    · exact h

theorem drain (h : KeepsForm s t) : KeepsForm s (drain t) := drainMarks _ h

theorem circulate (h : KeepsForm s t) (j : Nat) (c : Circulation) : KeepsForm s (t.circulate j c) :=
  h.modCounts j fun _ => ⟨rfl, rfl, rfl⟩

theorem setRelocation (h : KeepsForm s t) (j : Nat) (b : Bool) :
    KeepsForm s (t.modReel j fun r => { r with relocation := b }) := h.modCounts j fun _ => ⟨rfl, rfl, rfl⟩

theorem relocationCheck (h : KeepsForm s t) (j : Nat) : KeepsForm s (relocationCheck j t) := by
  unfold Machine.relocationCheck
  split
  · split
    · split
      · exact (h.setRelocation j true).autoMove j _
      · exact h
    · exact h
  · exact h

theorem backToShelved (h : KeepsForm s t) (j : Nat) : KeepsForm s (backToShelved j t) :=
  (h.circulate j .shelved).relocationCheck j

theorem locate (h : KeepsForm s t) (j : Nat) {p : Place} (hp : s.Sound → p.inRange) : KeepsForm s (t.locate j p) :=
  h.modReel j fun _ _ => ⟨fun hs hr => ⟨hr.1, hp hs⟩, id⟩

theorem home (h : KeepsForm s t) (j : Nat) {p : Place} (hp : s.Sound → p.inRange) : KeepsForm s (t.home j p) := by
  cases p with
  | slot n => exact h.modReel j fun _ _ => ⟨fun hs _ => ⟨hp hs, hp hs⟩, id⟩
  | _ => exact h.locate j hp

theorem setBayTimer (h : KeepsForm s t) (n : Nat) (x : BayTimer) : KeepsForm s (t.setBayTimer n x) :=
  h.setCab fun _ hc => ⟨hc.slots, hc.bays, hc.stagings, hc.moves, hc.entries, by simpa using hc.timers⟩

theorem idleBay (h : KeepsForm s t) (p : Place) : KeepsForm s (idleBay p t) := by
  cases p with
  | bay n => exact h.setBayTimer ..
  | _ => exact h

theorem startOut (h : KeepsForm s t) (j : Nat) (d : Place) : KeepsForm s (startOut j d t) := by
  unfold Machine.startOut
  split
  · exact h.setBayTimer ..
  · exact h

theorem startIn (h : KeepsForm s t) (d : Place) : KeepsForm s (startIn d t) := by
  cases d with
  | bay n => exact h.setBayTimer ..
  | _ => exact h

theorem freeReel (h : KeepsForm s t) (j : Nat) : KeepsForm s (freeReel j t) := by
  refine setReels (setRpq (h.setPool fun hp => hp.filter _) fun _ hq => ?_) (fun ht e he => ?_) fun _ ht => ht.erase j
  · exact ⟨hq.damage.filter _, fun i hi => hq.closed i (List.mem_of_mem_filter hi), hq.gate, hq.claims⟩
  · exact ht e (Table.mem_erase he)

theorem followUp (h : KeepsForm s t) (m : Move) {d : Place} (hd : s.Sound → d.inRange) :
    KeepsForm s (followUp m d t) := by
  unfold Machine.followUp
  cases m.kind with
  | fetchOut => exact (h.locate _ hd).startOut _ _
  | toStaging => exact (((h.locate _ hd).circulate _ _).idleBay _).raise _
  | stageBack => exact (h.locate _ hd).startIn _
  | shelve => exact (((h.home _ hd).circulate _ _).idleBay _).relocationCheck _
  | relocate => exact (h.home _ hd).setRelocation _ _
  | dispatch => exact h.freeReel _

/-! ### Moves in flight (R162 to R166) -/

theorem handOut {m : Move} (hm : m ∈ s.cab.moves) {d : Place} (hd : s.Sound → d.inRange) :
    KeepsForm s (handOut m d s) := by
  have hmod : KeepsForm s (s.setCab (s.cab.modMove m.entry fun x => { x with dest := some d, state := .moving })) :=
    (refl s).setCab fun hs hc => hc.modMove _ (fun x hx => ⟨(hc.moves x hx).1, (hc.moves x hx).2.1, by simpa using hd hs⟩)
      fun _ => rfl
  refine refreshCab (modReel (setCabRest (occupy (occupy hmod hd _) (fun hs => (hs.cab.moves m hm).2.1) _)) _ fun _ _ => ?_)
  exact ⟨fun _ hr => ⟨hr.1, trivial⟩, id⟩

theorem finishMove {m : Move} (hm : m ∈ s.cab.moves) : KeepsForm s (finishMove m (m.dest.getD .exit) s) := by
  have hd : s.Sound → (m.dest.getD .exit).inRange := fun hs => by
    cases hdest : m.dest with
    | none => trivial
    | some d => exact (hs.cab.moves m hm).2.2 d hdest
  have hocc : KeepsForm s ((s.occupy (m.dest.getD .exit) (some (.holding m.handle))).occupy m.source none) :=
    occupy (occupy (refl s) hd _) (fun hs => (hs.cab.moves m hm).2.1) _
  refine refreshCab (followUp (drain ?_) m hd)
  exact hocc.setCab fun _ hc => ⟨hc.slots, hc.bays, hc.stagings, (hc.removeMove _).moves, (hc.removeMove _).entries, hc.timers⟩

theorem failMove {m : Move} (hm : m ∈ s.cab.moves) : KeepsForm s (failMove m s) := by
  have hsource : s.Sound → m.source.inRange := fun hs => (hs.cab.moves m hm).2.1
  have hdest : KeepsForm s (freeDest m.dest s) := by
    cases hd : m.dest with
    | none => exact refl s
    | some d => exact occupy (refl s) (fun hs => (hs.cab.moves m hm).2.2 d hd) none
  refine refreshCab (KeepsForm.raise (locate (setCab (occupy hdest hsource _) fun _ hc => ?_) _ hsource) _)
  have hmod := hc.modMove m.entry (f := fun x => { x with dest := none, state := .blocked })
    (fun x hx => ⟨(hc.moves x hx).1, (hc.moves x hx).2.1, by simp⟩) fun _ => rfl
  exact ⟨hmod.slots, hmod.bays, hmod.stagings, hmod.moves, hmod.entries, hmod.timers⟩

theorem cancelMove (h : KeepsForm s t) (m : Move) : KeepsForm s (cancelMove m t) := by
  have hdrain := (h.removeMove m.entry).drain
  refine refreshCab ?_
  split
  · exact hdrain.setRelocation _ _
  · exact hdrain.backToShelved _

theorem expireBay (h : KeepsForm s t) (n : Nat) : KeepsForm s (expireBay n t) := by
  have hraise := fun x : BayTimer => (h.setBayTimer n x).raise .acclimDone
  refine refreshCab ?_
  unfold askNextLeg
  split
  · exact (hraise _).autoMove ..
  · exact hraise _

/-! ### Reels admitted, requested, released (R9 to R16) -/

theorem admitReel (h : KeepsForm s t) {j r slot : Nat} (hj : j < 96) (hr : r < 512) (hslot : slot < 80)
    (catalogue : Nat) (g : Gauge) (acidity : Nat) : KeepsForm s (admitReel j r catalogue g acidity slot t) := by
  have hnew : KeepsForm s (t.setReg { t.reg with reels := t.reg.reels.write j (newReel catalogue g acidity slot) }) := by
    refine h.setReels (fun ht e he => ?_) fun _ ht => ht.write hj ⟨hslot, hslot⟩
    rcases Table.mem_write he with rfl | he
    · exact rescanOrdered_nil
    · exact ht e he
  exact refreshCab (occupy (hnew.putShot hr (by simp [Shot.Fits, detectedShot])) (p := .slot slot) (fun _ => hslot) _)

theorem withdrawRelocation (h : KeepsForm s t) (j : Nat) : KeepsForm s (withdrawRelocation j t) := by
  refine setRelocation ?_ j false
  split
  · exact h.removeMove _
  · exact setCabRest h

end KeepsForm

/-- A reel's RELOCATE is one of the queue. -/
theorem mem_of_relocateOf {j : Nat} {m : Move} (h : s.relocateOf j = some m) : m ∈ s.cab.moves := by
  unfold State.relocateOf at h
  split at h
  · next x hx =>
    split at h
    · exact Option.some.inj h ▸ List.mem_of_find?_eq_some hx
    · cases h
  · cases h

/-- With its RELOCATE withdrawn the entry is free. -/
theorem withdrawRelocation_moves {j : Nat} {m : Move} (h : s.relocateOf j = some m) :
    (withdrawRelocation j s).cab.moves = s.cab.moves.filter fun x => x.entry != m.entry := by
  simp [withdrawRelocation, h, Cab.removeMove]

namespace KeepsForm

theorem createFetchOut (h : KeepsForm s t) (j : Nat) : KeepsForm s (createFetchOut j t) := by
  have hw := h.withdrawRelocation j
  unfold Machine.createFetchOut
  split
  · next m hm =>
    refine hw.createMoveIn (fun hs => ((h.sound hs).cab.moves m (mem_of_relocateOf hm)).1) (fun x hx => ?_) j _
    rw [withdrawRelocation_moves hm] at hx
    simpa using (List.mem_filter.mp hx).2
  · exact hw.createMove j _

theorem requestReel (h : KeepsForm s t) (j : Nat) : KeepsForm s (requestReel j t) :=
  ((h.createFetchOut j).circulate j _).refreshCab

theorem dispatchReel (h : KeepsForm s t) (j : Nat) : KeepsForm s (dispatchReel j t) :=
  ((h.createMove j _).circulate j _).refreshCab

theorem voidClaim (h : KeepsForm s t) (i : Nat) : KeepsForm s (voidClaim t i) := by
  unfold Machine.voidClaim
  split
  · next d hd =>
    split
    · exact (h.closeDamage _ fun hs => ((h.sound hs).rpq.damage.of_read hd).1).raiseFor ..
    · exact h
  · exact h

theorem withdrawWork (h : KeepsForm s t) (j : Nat) : KeepsForm s (withdrawWork j t) := by
  have hempty : KeepsForm s (t.modReel j fun r => { r with rescan := [] }) :=
    h.modReel j fun _ _ => ⟨fun _ => id, fun _ => rescanOrdered_nil⟩
  refine foldl (fun _ i _ hu => hu.voidClaim i) (foldl (fun _ i hi hu => ?_) hempty)
  exact hu.closeDamage _ fun hs => lt_of_mem_damageBySeq (hempty.sound hs).rpq hi

/-! ### The transport takes and leaves a reel (R26, R27) -/

theorem reelToTransport {r : Reel} {j : Nat} (hr : s.reel j = some r) : KeepsForm s (reelToTransport j r s) :=
  modReel (occupy (refl s) (fun hs => (hs.reels.of_read hr).2.2) none) j fun _ _ => ⟨fun _ hx => ⟨hx.1, trivial⟩, id⟩

theorem threadPru (h : KeepsForm s t) (r : Reel) : KeepsForm s (threadPru r t) := h.free (by simp)

theorem threadReel {r : Reel} {j : Nat} (hr : s.reel j = some r) : KeepsForm s (threadReel j r s) :=
  refreshCab (KeepsForm.enter (setSht (setFcu (breakChains (threadPru
    (KeepsForm.clearSplices (setTrc (reelToTransport hr))) r)) _)) _)

theorem reelToStaging (h : KeepsForm s t) {n : Nat} (hn : n < 8) (j : Nat) (shrinkage : Option Nat) :
    KeepsForm s (reelToStaging j n shrinkage t) := by
  refine modReel (occupy h (p := .staging n) (fun _ => hn) _) j fun x _ => ?_
  cases shrinkage with
  | some v => exact ⟨fun _ hx => ⟨hx.1, hn⟩, id⟩
  | none => exact ⟨fun _ hx => ⟨hx.1, hn⟩, id⟩

theorem unthreadReel (h : KeepsForm s t) {n : Nat} (hn : n < 8) : KeepsForm s (unthreadReel n t) := by
  refine refreshCab (KeepsForm.enter (setSht (breakChains (setPru (KeepsForm.clearSplices (setTrc ?_)) _))) _)
  split
  · exact h.reelToStaging hn _ _
  · exact h

/-! ### Settings (R189, R180) -/

theorem dropConfirmation (h : KeepsForm s t) (p : Port) : KeepsForm s (dropConfirmation p t) := h.setConfirm _

theorem roleChanged (h : KeepsForm s t) (p : Port) (old : Role) : KeepsForm s (roleChanged p old t) := by
  unfold Machine.roleChanged
  extract_lets a
  have ha : KeepsForm s a := by
    unfold a
    split
    · exact h
    · exact h.releaseClaims p
  split
  · exact ha.dropConfirmation p
  · exact ha

theorem storeSetting (h : KeepsForm s t) (i v : Nat) : KeepsForm s (storeSetting i v t) := by
  have hput : KeepsForm s (t.putSetting i v) := h.setCfg fun hw => Table.wf_write hw i v
  unfold Machine.storeSetting
  dsimp only
  split
  · exact hput.roleChanged ..
  · split
    · exact hput.refreshCapstan
    · exact hput

theorem endPreload (h : KeepsForm s t) (error : Bool) : KeepsForm s (endPreload error t) := by
  have hend : KeepsForm s (t.setCfg { t.cfg with running := false }) := h.setCfg id
  unfold Machine.endPreload
  dsimp only
  split
  · exact hend.free (by simp)
  · exact hend

theorem preloadStore (h : KeepsForm s t) (row : SettingRow) (v : Nat) : KeepsForm s (preloadStore row v t) := by
  unfold Machine.preloadStore
  split
  · exact (h.storeSetting row.index 0).free (by simp)
  · exact h.storeSetting _ _

theorem takePreloadValue (h : KeepsForm s t) (offset index v : Nat) :
    KeepsForm s (takePreloadValue offset index v t) := by
  have hoffset : KeepsForm s (t.setCfg { t.cfg with offset := offset + 2 }) := h.setCfg id
  unfold Machine.takePreloadValue
  split
  · exact h
  · split
    · exact h.endPreload _
    · dsimp only
      split
      · exact hoffset.preloadStore _ _
      · exact hoffset

/-! ### Ticks (R190) -/

theorem passMillis (h : KeepsForm s t) (n : Nat) : KeepsForm s (passMillis n t) :=
  setConfirm (setFcu (h.setTrc (x := t.trc.pass n) (le_refl t.trc.spliceQueue.length)) _) _

theorem minuteTick (h : KeepsForm s t) : KeepsForm s (minuteTick t) := by
  have hzero : KeepsForm s (t.setTmb ⟨0, 0, 0⟩) := h.setTmb (by decide) (by decide)
  unfold Machine.minuteTick
  dsimp only
  split
  · exact hzero
  · exact hzero.setCab fun _ hc => ⟨hc.slots, hc.bays, hc.stagings, hc.moves, hc.entries, by simpa using hc.timers⟩

theorem secondTick (h : KeepsForm s t) : KeepsForm s (secondTick t) := by
  unfold Machine.secondTick
  split
  · next hlt => exact h.setTmb (by simp) hlt
  · exact h.minuteTick

theorem millisecondTick (h : KeepsForm s t) : KeepsForm s (millisecondTick t) := by
  have hp := h.passMillis 1
  unfold Machine.millisecondTick
  dsimp only
  split
  · next hlt => exact ⟨hp.rescans, fun hs => { hp.sound hs with millis := hlt }⟩
  · exact hp.secondTick

/-! ### Splice edges, tension, gate heat -/

end KeepsForm

theorem length_modLast (f : Splice → Splice) : ∀ q : List Splice, (modLast f q).length = q.length
  | [] => rfl
  | [_] => rfl
  | x :: y :: rest => by simpa [modLast] using length_modLast f (y :: rest)

/-- R42, R43: an edge leaves the splice queue within its size. -/
theorem length_risingEdge {p : Int} {q : List Splice} (h : q.length ≤ 4) : (risingEdge p q).length ≤ 4 := by
  unfold risingEdge
  split
  · exact h
  · split
    · next hlt => simpa using hlt
    · exact (length_modLast _ q).trans_le h

theorem length_fallingEdge {p : Int} {q : List Splice} (h : q.length ≤ 4) : (fallingEdge p q).length ≤ 4 := by
  unfold fallingEdge
  split
  · exact (length_modLast _ q).trans_le h
  · exact h

namespace KeepsForm

theorem takeSpliceEdge (h : KeepsForm s t) (rising : Bool) (p : Int) : KeepsForm s (takeSpliceEdge rising p t) := by
  unfold Machine.takeSpliceEdge
  split
  · refine h.of_kept (by simp) fun hq => ?_
    rw [State.setTrc_trc]
    dsimp only
    split
    · exact hq
    · split
      · exact length_risingEdge hq
      · exact length_fallingEdge hq
  · exact h

theorem takeTension (h : KeepsForm s t) (gf : Nat) : KeepsForm s (takeTension gf t) := by
  unfold Machine.takeTension
  dsimp only
  split
  · exact h.enterFault _
  · split
    · exact h.enterFault _
    · exact setTrc h

theorem heatActive (h : KeepsForm s t) : KeepsForm s (heatActive t) :=
  refreshLight (KeepsForm.addHold (KeepsForm.raise (setTrc h) _) _)

theorem heatClear (h : KeepsForm s t) : KeepsForm s (heatClear t) :=
  refreshLight (KeepsForm.removeHold (setTrc h) _)

theorem takeGateTemp (h : KeepsForm s t) (temp : Nat) : KeepsForm s (takeGateTemp temp t) := by
  unfold Machine.takeGateTemp
  split
  · split
    · exact h.heatClear
    · exact h
  · split
    · split
      · exact h
      · split
        · exact h.heatActive
        · exact setTrc h
    · exact setTrc h

/-! ### Motion (R28 to R32) -/

theorem ite {c : Prop} [Decidable c] (ht : KeepsForm s t) (hu : KeepsForm s u) : KeepsForm s (if c then t else u) := by
  split
  · exact ht
  · exact hu

theorem startScan (h : KeepsForm s t) (profile : Profile) (speed : Nat) : KeepsForm s (startScan profile speed t) := by
  have hclear : ∀ x : Trc, KeepsForm s (Machine.clearSplices (t.setTrc x)) := fun x =>
    h.of_kept (by simp) (by simp [Machine.clearSplices])
  exact KeepsForm.enter (setSht (setFcu (ite (setPru (hclear _) _) (placeExpectation (setPru (hclear _) _))) _)) _

theorem removeFrames (h : KeepsForm s t) (n : Nat) : KeepsForm s (removeFrames n t) := by
  unfold Machine.removeFrames
  dsimp only
  split
  · exact (h.setFcu _).removeHold _
  · exact h.setFcu _

theorem setOriginAt (h : KeepsForm s t) (e : Int) : KeepsForm s (setOriginAt e t) :=
  breakChains (setPru (h.reanchorAt _) _)

theorem completeRecord (h : KeepsForm s t) {i : Nat} (hi : i < 1024) (d : Damage) (o : DamageOutcome) :
    KeepsForm s (completeRecord i d o t) := by
  have hc := h.closeDamage o (i := i) fun _ => hi
  unfold Machine.completeRecord
  dsimp only
  split
  · exact hc.rescanFrame _ _
  · exact hc

end KeepsForm
end Sys2Proof.Machine
end

section
/-! SUPPORT. Every command keeps the form: the invariants of rescan lists and tables. -/

namespace Sys2Proof.Machine

variable {s t u : State}

/-! ### Requests: what `serve` and the shared checks add -/

namespace KeepsForm

theorem quiet (h : KeepsForm s t) : KeepsForm s (quiet t) := h.free (by simp)

theorem displace (h : KeepsForm s t) (p : Port) : KeepsForm s (displace p t) := h.free (by simp)

theorem arrive (h : KeepsForm s t) (p : Port) : KeepsForm s (arrive p t) := (h.quiet.displace p).dropConfirmation p

theorem answer (h : KeepsForm s t) (rq : Rq) (r : Reply) : KeepsForm s (answer rq r t) := h.free (by simp)

theorem serve (rq : Rq) (need : Need) {body : Body} (hb : ∀ u, KeepsForm u (body u).1) (s : State) :
    KeepsForm s (serve rq need body s) := by
  have ha := (refl s).arrive rq.port
  unfold Machine.serve
  dsimp only
  split
  · exact ha.answer ..
  · split
    · exact (ha.raiseFor ..).answer ..
    · exact (ha.trans (hb _)).answer ..

/-- A body that leaves everything with a part in the form alone. -/
theorem serve_free (rq : Rq) (need : Need) {body : Body} (hb : ∀ u, Kept freeBlocks u (body u).1) (s : State) :
    KeepsForm s (Machine.serve rq need body s) := serve rq need (fun u => (refl u).free (hb u)) s

/-- A request with operands. -/
theorem serveOperands {α : Type} (rq : Rq) (need : Need) {args : Option α} {body : α → Body}
    (hb : ∀ a u, KeepsForm u (body a u).1) (s : State) :
    KeepsForm s (Machine.serve rq need (withOperands args body) s) := by
  refine serve rq need (fun u => ?_) s
  cases args with
  | some a => exact hb a u
  | none => exact refl u

theorem serveOperands_free {α : Type} (rq : Rq) (need : Need) {args : Option α} {body : α → Body}
    (hb : ∀ a u, Kept freeBlocks u (body a u).1) (s : State) :
    KeepsForm s (Machine.serve rq need (withOperands args body) s) :=
  serveOperands rq need (fun a u => (refl u).free (hb a u)) s

theorem withReel {j : Nat} {free : Status} {body : Reel → Body}
    (hb : ∀ r, s.reel j = some r → KeepsForm s (body r s).1) : KeepsForm s (withReel j free body s).1 := by
  unfold Machine.withReel
  split
  · exact refl s
  · split
    · next r hr => exact hb r hr
    · exact refl s

theorem withShot {n : Nat} {body : Shot → Body}
    (hb : ∀ x, s.sht.pool.read n = some x → KeepsForm s (body x s).1) : KeepsForm s (withShot n body s).1 := by
  unfold Machine.withShot
  split
  · next x hx =>
    split
    · exact refl s
    · exact hb x hx
  · exact refl s

theorem withOpenShot {n : Nat} {body : Shot → Body}
    (hb : ∀ x, s.sht.pool.read n = some x → KeepsForm s (body x s).1) : KeepsForm s (withOpenShot n body s).1 := by
  refine withShot fun x hx => ?_
  split
  · exact refl s
  · exact hb x hx

theorem withMove {a : MoveArgs} {body : Move → Body} (hb : ∀ m, KeepsForm s (body m s).1) :
    KeepsForm s (withMove a body s).1 := by
  unfold Machine.withMove
  split
  · exact refl s
  · split
    · split
      · exact hb _
      · exact refl s
    · exact refl s

/-- A check that refuses. -/
theorem checked {c : Prop} [Decidable c] {r : Reply} {x : State × Reply} (h : ¬c → KeepsForm s x.1) :
    KeepsForm s (if c then (s, r) else x).1 := by
  split
  · exact refl s
  · next hc => exact h hc

/-- A check that lets through. -/
theorem admitted {c : Prop} [Decidable c] {r : Reply} {x : State × Reply} (h : c → KeepsForm s x.1) :
    KeepsForm s (if c then x else (s, r)).1 := by
  split
  · next hc => exact h hc
  · exact refl s

/-! ### PORT -/

theorem setSettingBody (a : SettingArgs) (s : State) : KeepsForm s (setSettingBody a s).1 := by
  unfold Machine.setSettingBody
  split
  · exact refl s
  · exact checked fun _ => (refl s).storeSetting _ _

theorem portResetBody (p : Port) (s : State) : KeepsForm s (portResetBody p s).1 :=
  releaseClaims (dropConfirmation ((refl s).free (by simp)) p) p

/-! ### REEL -/

theorem admitChecks {slot : Nat} (hslot : slot < 80) (catalogue : Nat) (g : Gauge) (acidity : Nat) (s : State) :
    KeepsForm s (admitChecks catalogue g acidity slot s).1 := by
  refine checked fun _ => ?_
  split
  · exact refl s
  · exact refl s
  · refine checked fun _ => ?_
    split
    · next j r hj hr => exact (refl s).admitReel (Table.firstFree_spec hj).1 (Table.firstFree_spec hr).1 hslot _ _ _
    · exact refl s

theorem admitBody (a : AdmitArgs) (s : State) : KeepsForm s (admitBody a s).1 := by
  unfold Machine.admitBody
  split
  · exact refl s
  · exact checked fun hargs => admitChecks (by simp only [Config.slots] at hargs; omega) _ _ _ s

theorem setConditionBody (a : ConditionArgs) (s : State) : KeepsForm s (setConditionBody a s).1 := by
  have hclass : KeepsForm s (s.modReel a.handle.toNat fun x => x.withAcidity a.acidity.toNat) :=
    (refl s).modCounts _ fun _ => ⟨rfl, rfl, rfl⟩
  exact withReel fun _ _ => checked fun _ => refreshCab (ite (hclass.relocationCheck _) hclass)

theorem requestBody (h : Byte) (s : State) : KeepsForm s (requestBody h s).1 := by
  refine withReel fun _ _ => checked fun _ => ?_
  split
  · exact checked fun _ => (refl s).requestReel _
  · exact checked fun _ => (refl s).requestReel _

theorem cancelBody (h : Byte) (s : State) : KeepsForm s (cancelBody h s).1 := by
  refine withReel fun _ _ => ?_
  split
  · exact admitted fun _ => (((refl s).removeMove _).drain.backToShelved _).refreshCab
  · exact refl s

theorem returnBody (h : Byte) (s : State) : KeepsForm s (returnBody h s).1 :=
  withReel fun _ _ => checked fun _ => checked fun _ => (((refl s).createMove _ _).circulate _ _).refreshCab

theorem plainRelease (h : Nat) (s : State) : KeepsForm s (plainRelease h s).1 :=
  withReel fun _ _ => checked fun _ => checked fun _ => checked fun _ => checked fun _ => (refl s).dispatchReel _

theorem forceRelease (p : Port) (c : Option Confirmation) (h : Nat) (s : State) :
    KeepsForm s (forceRelease p c h s).1 := by
  refine withReel fun _ _ => checked fun _ => checked fun _ => ?_
  split
  · exact checked fun _ => ((refl s).withdrawWork _).dispatchReel _
  · exact (refl s).setConfirm _

theorem releaseBody (p : Port) (c : Option Confirmation) (a : ReleaseArgs) (s : State) :
    KeepsForm s (releaseBody p c a s).1 := by
  unfold Machine.releaseBody
  split
  · exact refl s
  · split
    · exact forceRelease ..
    · exact plainRelease ..

/-! ### TRANSPORT -/

theorem threadBody (h : Byte) (s : State) : KeepsForm s (threadBody h s).1 :=
  withReel fun _ hr => checked fun _ => checked fun _ => checked fun _ => threadReel hr

theorem unthreadBody (s : State) : KeepsForm s (unthreadBody s).1 := by
  refine checked fun _ => checked fun _ => ?_
  split
  · exact refl s
  · next n hn => exact (refl s).unthreadReel (Table.firstFree_spec hn).1

theorem setOriginBody (s : State) : KeepsForm s (setOriginBody s).1 := by
  refine checked fun _ => ?_
  split
  · exact refl s
  · exact checked fun _ => (refl s).setOriginAt _

theorem inchBody (d : BitVec 32) (s : State) : KeepsForm s (inchBody d s).1 :=
  checked fun _ => checked fun _ => checked fun _ => KeepsForm.enter (setTrc (refl s)) _

theorem shuttleBody (a : ShuttleArgs) (s : State) : KeepsForm s (shuttleBody a s).1 :=
  checked fun _ => checked fun _ => KeepsForm.enter (setTrc (refl s)) _

theorem scanBody (v : BitVec 16) (s : State) : KeepsForm s (scanBody v s).1 :=
  checked fun _ => checked fun _ => checked fun _ => (refl s).startScan _ _

theorem pauseBody (s : State) : KeepsForm s (pauseBody s).1 := admitted fun _ => (refl s).addHold _

theorem resumeBody (s : State) : KeepsForm s (resumeBody s).1 := admitted fun _ => (refl s).removeHold _

theorem stopBody (s : State) : KeepsForm s (stopBody s).1 := by
  unfold Machine.stopBody
  cases s.trc.state with
  | inching | shuttle | scanning | hold | backup => exact (refl s).stopRun
  | threaded | unthreaded | fault => exact refl s

theorem clearFaultBody (s : State) : KeepsForm s (clearFaultBody s).1 :=
  admitted fun _ => enterThreaded (setTrc (refl s))

theorem commitBody (s : State) : KeepsForm s (commitBody s).1 := by
  refine checked fun _ => ?_
  split
  · exact (refl s).applyCommit _
  · exact (refl s).setPru _

theorem readFramesBody (n : Byte) (s : State) : KeepsForm s (readFramesBody n s).1 :=
  checked fun _ => checked fun _ => (refl s).removeFrames _

theorem clearGateBody (s : State) : KeepsForm s (clearGateBody s).1 :=
  breakChains ((refl s).setRpq fun _ hq => ⟨hq.damage, hq.closed, by simp, hq.claims⟩)

/-! ### REPAIR -/

theorem claimFirst (p : Port) (cond : Damage → Bool) (s : State) : KeepsForm s (claimFirst p cond s).1 := by
  refine checked fun hlt => ?_
  split
  · exact refl s
  · refine (refl s).moveDamage _ fun q hq => ?_
    cases hq
    simpa using hlt

theorem claimNextBody (p : Port) (h : Byte) (s : State) : KeepsForm s (claimNextBody p h s).1 := by
  unfold Machine.claimNextBody
  split
  · exact (refl s).raiseFor _ _
  · split
    · exact claimFirst ..
    · exact withReel fun _ _ => claimFirst ..

theorem completeBody (p : Port) (a : CompleteArgs) (s : State) : KeepsForm s (completeBody p a s).1 := by
  unfold Machine.completeBody
  split
  · exact refl s
  · refine checked fun hlt => ?_
    split
    · exact (refl s).completeRecord (by simpa using hlt) _ _
    · exact refl s

theorem releaseClaimBody (p : Port) (a : ClaimArgs) (s : State) : KeepsForm s (releaseClaimBody p a s).1 := by
  refine checked fun _ => ?_
  split
  · exact ((refl s).moveDamage _ fun q hq => by cases hq).raiseIf _ _
  · exact refl s

theorem rescanAddBody (a : RescanArgs) (s : State) : KeepsForm s (rescanAddBody a s).1 :=
  withReel fun _ _ => checked fun hargs => checked fun _ =>
    (refl s).rescanAdd (x := ⟨a.first.toNat, a.last.toNat⟩) _ (by simp only; omega)

/-! ### GRADE -/

theorem setBaseBody (a : BaseArgs) (s : State) : KeepsForm s (setBaseBody a s).1 :=
  withReel fun _ _ => checked fun _ => (refl s).modReel _ fun _ _ => ⟨fun _ => id, id⟩

theorem pushLayerBody (a : PushArgs) (s : State) : KeepsForm s (pushLayerBody a s).1 := by
  refine withOpenShot fun x hx => checked fun hlt => (refl s).modShot _ fun y hy _ => ?_
  obtain rfl : x = y := Option.some.inj (hx.symm.trans hy)
  simpa [Shot.Fits] using Nat.succ_le_of_lt (Nat.lt_of_not_le hlt)

theorem popLayerBody (n : BitVec 16) (s : State) : KeepsForm s (popLayerBody n s).1 :=
  withOpenShot fun _ _ => checked fun _ => (refl s).modShot _ fun y _ hy => by
    simp only [Shot.Fits, List.length_dropLast] at hy ⊢; omega

theorem setLayerBody (a : SetLayerArgs) (s : State) : KeepsForm s (setLayerBody a s).1 := by
  unfold Machine.setLayerBody
  split
  · exact refl s
  · exact withOpenShot fun _ _ => checked fun _ =>
      (refl s).modShot _ fun y _ hy => (List.length_set ..).trans_le hy

theorem setFlickerBody (a : FlickerArgs) (s : State) : KeepsForm s (setFlickerBody a s).1 := by
  unfold Machine.setFlickerBody
  split
  · exact refl s
  · exact withOpenShot fun _ _ =>
      (refl s).modShot _ (f := fun y => { y with flicker := a.enable.toNat == 1 }) fun _ _ => id

theorem splitBody (a : SplitArgs) (s : State) : KeepsForm s (splitBody a s).1 := by
  refine withOpenShot fun x hx => checked fun _ => ?_
  split
  · exact refl s
  · next n hn => exact (refl s).setPool fun hp => hp.write (Table.firstFree_spec hn).1 (hp.of_read hx).2

theorem mergeBody (n : BitVec 16) (s : State) : KeepsForm s (mergeBody n s).1 := by
  refine withOpenShot fun x _ => ?_
  split
  · exact refl s
  · exact checked fun _ =>
      setPool ((refl s).modShot _ (f := fun y => { y with origin := .edited }) fun _ _ => id) fun hp => hp.erase _

theorem approveBody (n : BitVec 16) (s : State) : KeepsForm s (approveBody n s).1 :=
  withShot fun _ _ => checked fun _ => checked fun _ =>
    (refl s).modShot _ (f := fun y => { y with state := .approved }) fun _ _ => id

theorem reopenBody (n : BitVec 16) (s : State) : KeepsForm s (reopenBody n s).1 :=
  withShot fun _ _ => admitted fun _ =>
    (refl s).modShot _ (f := fun y => { y with state := .editable }) fun _ _ => id

/-! ### VAULT -/

theorem takeMoveBody (s : State) : KeepsForm s (takeMoveBody s).1 := by
  refine checked fun _ => ?_
  split
  · exact refl s
  · next m hm =>
    split
    · exact refl s
    · next d hd => exact handOut (mem_of_oldestEligible hm) fun hs => inRange_of_chooseDest hs hd

theorem moveDoneBody (s : State) : KeepsForm s (moveDoneBody s).1 := by
  unfold Machine.moveDoneBody
  split
  · exact refl s
  · next m hm => exact finishMove (mem_of_moving hm)

theorem moveFailedBody (s : State) : KeepsForm s (moveFailedBody s).1 := by
  unfold Machine.moveFailedBody
  split
  · exact refl s
  · next m hm => exact failMove (mem_of_moving hm)

theorem retryBody (a : MoveArgs) (s : State) : KeepsForm s (retryBody a s).1 :=
  withMove fun m => admitted fun _ => refreshCab ((refl s).setCab fun _ hc =>
    hc.modMove m.entry (f := fun x => { x with state := .queued }) hc.moves fun _ => rfl)

theorem cancelMoveBody (a : MoveArgs) (s : State) : KeepsForm s (cancelMoveBody a s).1 :=
  withMove fun m => checked fun _ => (refl s).cancelMove m

theorem bayClimateBody (v : Byte) (s : State) : KeepsForm s (bayClimateBody v s).1 :=
  checked fun _ => setCabRest (refl s)

end KeepsForm

/-! ### Every command -/

/-- RESET (R191): its state is sound whatever was before. -/
theorem sound_reset : State.reset.Sound where
  reels := .nil
  rpq := ⟨.nil, by simp [State.reset, Rpq.reset], by simp [State.reset, Rpq.reset], by rintro (_ | _) <;> decide⟩
  pool := .nil
  dsu := by rintro (_ | _) <;> exact Fits.nil
  splices := by decide
  cab := ⟨.nil, .nil, .nil, by simp [State.reset, Cab.reset], by simp [State.reset, Cab.reset], by decide⟩
  settings := by decide
  millis := by decide
  seconds := by decide

theorem exec_keepsForm (c : Instr) (s : State) : ∃ t, exec c s = .next t ∧ KeepsForm s t := by
  have hq := (KeepsForm.refl s).quiet
  cases c
  case row f i ir v =>
    simp only [exec, execRow]
    split
    · exact ⟨_, rfl, hq.headReport.takeRowMessage ..⟩
    · exact ⟨_, rfl, hq⟩
  all_goals refine ⟨_, rfl, ?_⟩
  case reset => exact ⟨fun _ e he => (by cases he), fun _ => { sound_reset with }⟩
  case preloadValue => exact hq.takePreloadValue ..
  case preloadEnd => exact .ite (hq.endPreload _) hq
  case estopAsserted => exact .ite hq (.enterFault (.setTrc hq) _)
  case estopReleased => exact .setTrc hq
  case millisecondTick => exact hq.millisecondTick
  case secondTick => exact (hq.passMillis _).secondTick
  case minuteTick => exact (hq.passMillis _).minuteTick
  case position => exact hq.headReport.takePosition _
  case frameLine => exact hq.headReport.takeFrameLine _
  case spliceEdge => exact .ite (hq.headReport.takeSpliceEdge ..) (.ite (hq.headReport.takeSpliceEdge ..) hq.headReport)
  case tension => exact hq.headReport.takeTension _
  case gateTemp => exact hq.headReport.takeGateTemp _
  case headMessageDiscarded | reportAgeExpiry | frameIgnored => exact hq
  case tensionHighExpiry | tensionLowExpiry => exact .ite (.enterFault (.setTrc hq) _) hq
  case headSilenceExpiry => exact .ite (hq.enterFault _) hq
  case gateDelayExpiry => exact .ite hq.heatActive hq
  case holdLightExpiry => exact .ite (.refreshLight (.setTrc hq)) hq
  case contextAgeExpiry => exact .ite (hq.closeCtx _ _) (.ite (hq.closeCtx _ _) hq)
  case confirmationExpiry =>
    split
    · exact .ite (hq.dropConfirmation _) hq
    · exact hq
  case bayTimerExpiry =>
    split
    · exact hq.expireBay _
    · exact hq
  case responseRead => exact (KeepsForm.refl s).free (by dsimp only; (repeat' split) <;> simp)
  case requestMalformed | unknownCommand => exact .serve _ _ (fun u => .refl u) s
  case readAlerts | transportStatus | moveList | readPitch => exact .serve_free _ _ (by simp) s
  case ackAlerts | setAlertMask | getSetting | reelQuery | reelFind | stagePitch | stageReg | damageList | shotList
      | gradeQuery | positions => exact .serveOperands_free _ _ (by simp) s
  case setSetting => exact .serveOperands _ _ KeepsForm.setSettingBody s
  case portReset => exact .serve _ _ (KeepsForm.portResetBody _) s
  case admitReel => exact .serveOperands _ _ KeepsForm.admitBody s
  case setCondition => exact .serveOperands _ _ KeepsForm.setConditionBody s
  case request => exact .serveOperands _ _ KeepsForm.requestBody s
  case cancel => exact .serveOperands _ _ KeepsForm.cancelBody s
  case returnReel => exact .serveOperands _ _ KeepsForm.returnBody s
  case release => exact .serveOperands _ _ (KeepsForm.releaseBody _ _) s
  case releaseForce => exact .serve _ _ (KeepsForm.forceRelease _ _ _) s
  case thread => exact .serveOperands _ _ KeepsForm.threadBody s
  case unthread => exact .serve _ _ KeepsForm.unthreadBody s
  case setOrigin => exact .serve _ _ KeepsForm.setOriginBody s
  case inch => exact .serveOperands _ _ KeepsForm.inchBody s
  case shuttle => exact .serveOperands _ _ KeepsForm.shuttleBody s
  case scan => exact .serveOperands _ _ KeepsForm.scanBody s
  case pause => exact .serve _ _ KeepsForm.pauseBody s
  case resume => exact .serve _ _ KeepsForm.resumeBody s
  case stop => exact .serve _ _ KeepsForm.stopBody s
  case clearFault => exact .serve _ _ KeepsForm.clearFaultBody s
  case commit => exact .serve _ _ KeepsForm.commitBody s
  case readFrames => exact .serveOperands _ _ KeepsForm.readFramesBody s
  case clearGate => exact .serve _ _ KeepsForm.clearGateBody s
  case claimNext => exact .serveOperands _ _ (KeepsForm.claimNextBody _) s
  case complete => exact .serveOperands _ _ (KeepsForm.completeBody _) s
  case releaseClaim => exact .serveOperands _ _ (KeepsForm.releaseClaimBody _) s
  case releaseAll => exact .serve _ _ (fun u => (KeepsForm.refl u).releaseClaims _) s
  case rescanAdd => exact .serveOperands _ _ KeepsForm.rescanAddBody s
  case setBase => exact .serveOperands _ _ KeepsForm.setBaseBody s
  case pushLayer => exact .serveOperands _ _ KeepsForm.pushLayerBody s
  case popLayer => exact .serveOperands _ _ KeepsForm.popLayerBody s
  case setLayer => exact .serveOperands _ _ KeepsForm.setLayerBody s
  case setFlicker => exact .serveOperands _ _ KeepsForm.setFlickerBody s
  case split => exact .serveOperands _ _ KeepsForm.splitBody s
  case merge => exact .serveOperands _ _ KeepsForm.mergeBody s
  case approve => exact .serveOperands _ _ KeepsForm.approveBody s
  case reopen => exact .serveOperands _ _ KeepsForm.reopenBody s
  case takeMove => exact .serve _ _ KeepsForm.takeMoveBody s
  case moveDone => exact .serve _ _ KeepsForm.moveDoneBody s
  case moveFailed => exact .serve _ _ KeepsForm.moveFailedBody s
  case retry => exact .serveOperands _ _ KeepsForm.retryBody s
  case cancelMove => exact .serveOperands _ _ KeepsForm.cancelMoveBody s
  case bayClimate => exact .serveOperands _ _ KeepsForm.bayClimateBody s

theorem step_keepsForm (h : step s = .next t) : KeepsForm s t := by
  unfold step at h
  split at h
  · cases h; exact .refl s
  · next c rest _ =>
    obtain ⟨u, hu, hk⟩ := exec_keepsForm c { s with pending := rest }
    obtain rfl : u = t := by simpa using hu.symm.trans h
    have hfront : KeepsForm s { s with pending := rest } := ⟨id, fun hs => { hs with }⟩
    exact hfront.trans hk

/-- Settles O11: `KeepsForm` holds of every step. -/
theorem rescanListsStayOrdered : Obligations.RescanListsStayOrdered := fun _ _ hs h => (step_keepsForm h).rescans hs

/-- Settles O13: the blocks' conditions together are `State.Sound`, which every step keeps. -/
theorem tablesKeepSizeAndForm : Obligations.TablesKeepSizeAndForm := fun s t hsizes hform h =>
  (State.sound_iff t).mp ((step_keepsForm h).sound ((State.sound_iff s).mpr ⟨hsizes, hform⟩))

end Sys2Proof.Machine
end

section
/-! SUPPORT. What a request that is carried out leaves, from what its body does (R175 to R179). -/

namespace Sys2Proof.Machine

variable {s t u v : State}

/-! ### A request that is carried out -/

/-- What a request that is carried out leaves, from what its body does with the state the arrival leaves. -/
theorem exec_of_body {c : Instr} {rq : Rq} {need : Need} {body : Body} {st : Status} {results : List Byte}
    {l : List Block} {p : State → Prop} (hc : exec c s = .next (serve rq need body s)) (h : Served rq need s)
    (hb : body (arrive rq.port s) = (v, ⟨st, results⟩)) (hl : Block.spt ∉ l) (hk : Kept l (arrive rq.port s) v)
    (hp : p (answer rq ⟨st, results⟩ v)) :
    ∃ t, exec c s = .next t ∧ Answered rq st results l (arrive rq.port s) t ∧ p t := by
  refine ⟨answer rq ⟨st, results⟩ v, ?_, answered_of_kept (r := ⟨st, results⟩) hl hk, hp⟩
  rw [hc, serve_of_served h, hb]

/-- A body that answers and leaves the state as it was. -/
theorem exec_of_same {c : Instr} {rq : Rq} {need : Need} {body : Body} {st : Status} {results : List Byte}
    (hc : exec c s = .next (serve rq need body s)) (h : Served rq need s)
    (hb : body (arrive rq.port s) = (arrive rq.port s, ⟨st, results⟩)) :
    ∃ t, exec c s = .next t ∧ Answered rq st results [] (arrive rq.port s) t :=
  have ⟨t, ht, ha, _⟩ := exec_of_body (p := fun _ => True) hc h hb (by simp) (.refl _ _) trivial
  ⟨t, ht, ha⟩

theorem withReel_reel {j : Nat} {free : Status} {body : Reel → Body} {r : Reel} (hj : j < 96) (hr : s.reel j = some r) :
    withReel j free body s = body r s := by
  simp [withReel, hr, Nat.not_le.mpr hj]

/-- Alerts raised while the body ran are raised for the request. -/
theorem Latches.answer {l : List Event} (h : Latches l s t) (rq : Rq) (r : Reply) : Latches l s (answer rq r t) := h

theorem OnlyReel.answer {j : Nat} {x : Reel} (h : OnlyReel j x s t) (rq : Rq) (r : Reply) :
    OnlyReel j x s (answer rq r t) := h

/-- A record changed in its place is the only one that is another. -/
theorem onlyReel_modReel {j : Nat} {r : Reel} (hr : s.reel j = some r) (f : Reel → Reel) :
    OnlyReel j (f r) s (s.modReel j f) := by
  refine ⟨?_, fun i hi => ?_, rfl⟩
  · rw [State.reel, State.modReel, State.setReg_reg, Table.read_modify_same, ← State.reel, hr]; rfl
  · rw [State.reel, State.modReel, State.setReg_reg, Table.read_modify, if_neg hi, ← State.reel]

/-- `OnlyReel` speaks of REG alone. -/
theorem OnlyReel.of_reg {j : Nat} {x : Reel} (h : OnlyReel j x s t) (hu : u.reg = t.reg) : OnlyReel j x s u := by
  simpa only [OnlyReel, State.reel, hu] using h

end Sys2Proof.Machine
end

section
/-! SUPPORT. RESCAN_ADD lists the range and reopens the shots with a frame new to the list (R18, R19, R151). -/

namespace Sys2Proof.Machine

variable {s t u v : State}

/-! ### Frames new to a rescan list (R19) -/

/-- From `f` on `firstUnlisted` is the first frame that an ordered list leaves out. -/
theorem firstUnlisted_spec : ∀ {l : List FrameRange}, Apart l → ∀ f, f ≤ firstUnlisted l f ∧
    inRanges l (firstUnlisted l f) = false ∧ ∀ j, f ≤ j → j < firstUnlisted l f → inRanges l j = true
  | [], _, f => by simp [firstUnlisted, inRanges]
  | x :: l, h, f => by
    obtain ⟨hx, hxl, hl⟩ := (apart_cons ..).mp h
    have hcons := inRanges_cons x l
    have hout : ∀ j, inRanges (x :: l) j = false ↔ ¬(x.first ≤ j ∧ j ≤ x.last) ∧ inRanges l j = false := by
      intro j; rw [← Bool.not_eq_true, hcons, not_or, Bool.not_eq_true]
    have habove : ∀ j, inRanges l j = true → x.last + 2 ≤ j := by
      intro j hj
      obtain ⟨y, hy, hyj⟩ := (inRanges_iff l j).mp hj
      have := hxl y hy; omega
    by_cases hin : x.first ≤ f ∧ f ≤ x.last
    · have hstep : firstUnlisted (x :: l) f = firstUnlisted l (x.last + 1) := by simp [firstUnlisted, hin]
      obtain ⟨h1, h2, h3⟩ := firstUnlisted_spec hl (x.last + 1)
      rw [hstep]
      refine ⟨by omega, (hout _).mpr ⟨by omega, h2⟩, fun j hj hlt => (hcons j).mpr ?_⟩
      by_cases hjx : j ≤ x.last
      · exact .inl ⟨by omega, hjx⟩
      · exact .inr (h3 j (by omega) hlt)
    · have hstep : firstUnlisted (x :: l) f = firstUnlisted l f := by simp [firstUnlisted, hin]
      obtain ⟨h1, h2, h3⟩ := firstUnlisted_spec hl f
      rw [hstep]
      refine ⟨h1, (hout _).mpr ⟨fun hc => ?_, h2⟩, fun j hj hlt => (hcons j).mpr (.inr (h3 j hj hlt))⟩
      have hlt : f < firstUnlisted l f := by omega
      have := habove f (h3 f le_rfl hlt)
      omega

/-- R19: `freshFrames` finds a frame of the range that only the new list holds. -/
theorem freshFrames_iff {old : List FrameRange} (h : Apart old) (new : List FrameRange) (lo stop : Nat) :
    freshFrames old new lo stop = true ↔
      ∃ f, lo ≤ f ∧ f < stop ∧ inRanges new f = true ∧ inRanges old f = false := by
  simp only [freshFrames, List.any_eq_true, Bool.and_eq_true, decide_eq_true_eq]
  constructor
  · rintro ⟨x, hx, hle, hlt⟩
    obtain ⟨h1, h2, -⟩ := firstUnlisted_spec h (max x.first lo)
    exact ⟨_, by omega, hlt, (inRanges_iff ..).mpr ⟨x, hx, by omega, hle⟩, h2⟩
  · rintro ⟨f, hlo, hstop, hnew, hold⟩
    obtain ⟨x, hx, hf, hfx⟩ := (inRanges_iff ..).mp hnew
    obtain ⟨-, -, h3⟩ := firstUnlisted_spec h (max x.first lo)
    have hle : firstUnlisted old (max x.first lo) ≤ f := by
      by_contra hc
      have := h3 f (by omega) (by omega)
      rw [hold] at this; cases this
    exact ⟨x, hx, by omega, by omega⟩

/-! ### RESCAN_ADD (R18, R19, R151) -/

/-- A shot's range depends on the pool and the frontiers alone. -/
theorem shotStop_congr (hp : t.sht.pool = s.sht.pool) (hf : ∀ j, t.frontier j = s.frontier j) (x : Shot) :
    t.shotStop x = s.shotStop x := by
  simp only [State.shotStop, State.nextShot, State.shotsOf, hp, hf]

/-- A change of a record that leaves its frontier. -/
theorem frontier_modReel (n : Nat) {f : Reel → Reel} (hf : ∀ r, (f r).frontier = r.frontier) (j : Nat) :
    (s.modReel n f).frontier j = s.frontier j := by
  simp only [State.frontier, State.reel, State.modReel, State.setReg_reg, Table.read_modify]
  by_cases hj : j = n
  · subst hj
    rw [if_pos rfl]
    cases s.reg.reels.read j <;> simp [hf]
  · rw [if_neg hj]

theorem reopenWhere_reg (j : Nat) (cond : Shot → Bool) : (reopenWhere j cond s).reg = s.reg :=
  (kept_reopenWhere (l := [.sht, .alt]) (by simp) (by simp) j cond).mpr (.refl _ s) .reg (by simp)

/-- The record, the event and the shots that a range changes (R19). -/
theorem rescanAdd_changed {j : Nat} {x : FrameRange} {r : Reel} (hr : s.reel j = some r) (hwf : s.sht.pool.wf = true)
    (hl : rescanOrdered r.rescan) (hne : addRange r.rescan x ≠ r.rescan) :
    let t := rescanAdd j x s
    let fresh := fun y : Shot => ∃ f, y.first ≤ f ∧ f < s.shotStop y ∧ inRanges (addRange r.rescan x) f = true ∧
      inRanges r.rescan f = false
    OnlyReel j { r with rescan := addRange r.rescan x } s t ∧ LatchedWhereRouted .rescanAdded s t ∧
      t.sht = { s.sht with pool := t.sht.pool } ∧
      (∀ n, s.sht.pool.read n = none → t.sht.pool.read n = none) ∧
      ∀ n y, s.sht.pool.read n = some y →
        (y.handle = j → y.state = .approved → fresh y →
          t.sht.pool.read n = some { y with state := .editable } ∧ LatchedWhereRouted .shotReopened s t) ∧
        (y.handle ≠ j ∨ y.state = .editable ∨ ¬fresh y → t.sht.pool.read n = some y) := by
  intro t fresh
  obtain ⟨u, hu⟩ : ∃ u, u = raise .rescanAdded (s.modReel j fun y => { y with rescan := addRange r.rescan x }) := ⟨_, rfl⟩
  have hstop : ∀ y, u.shotStop y = s.shotStop y := shotStop_congr (by simp [hu, State.modReel]) fun i => by
    subst hu
    exact frontier_modReel (s := s) j (f := fun y => { y with rescan := addRange r.rescan x }) (fun _ => rfl) i
  have hfresh : ∀ y : Shot, freshFrames r.rescan (addRange r.rescan x) y.first (u.shotStop y) = true ↔ fresh y :=
    fun y => hstop y ▸ freshFrames_iff hl.2 ..
  have ht : t = reopenWhere j (fun y => freshFrames r.rescan (addRange r.rescan x) y.first (u.shotStop y)) u := by
    simp only [t, rescanAdd, hr, if_neg hne, hu]
  obtain ⟨hsht, hgrow, hread, hlatch⟩ := reopenWhere_spec (s := u) j
    fun y => freshFrames r.rescan (addRange r.rescan x) y.first (u.shotStop y)
  rw [← ht] at hsht hgrow hread hlatch
  have hpool : u.sht = s.sht := by simp [hu, State.modReel]
  have hroute : ∀ p, u.route p = s.route p := route_of_cfg (by simp [hu, State.modReel])
  have hof : ∀ {n y}, s.sht.pool.read n = some y → ∀ z, (n, z) ∈ u.shotsOf j ↔ z = y ∧ y.handle = j := by
    intro n y hy z
    rw [mem_shotsOf, hpool]
    constructor
    · rintro ⟨hz, hj⟩
      obtain rfl : z = y := Option.some.inj ((Table.read_of_mem hwf hz).symm.trans hy)
      exact ⟨rfl, hj⟩
    · rintro ⟨rfl, hj⟩
      exact ⟨Table.mem_of_read hy, hj⟩
  have hany : ∀ {n y}, s.sht.pool.read n = some y → ((u.shotsOf j).any (fun z => z.1 == n &&
      freshFrames r.rescan (addRange r.rescan x) z.2.first (u.shotStop z.2)) = true ↔ y.handle = j ∧ fresh y) := by
    intro n y hy
    simp only [List.any_eq_true, Bool.and_eq_true, beq_iff_eq, hfresh, Prod.exists]
    constructor
    · rintro ⟨m, z, hz, rfl, hf⟩
      obtain ⟨rfl, hj⟩ := (hof hy z).mp hz
      exact ⟨hj, hf⟩
    · rintro ⟨hj, hf⟩
      exact ⟨n, y, (hof hy y).mpr ⟨rfl, hj⟩, rfl, hf⟩
  refine ⟨?_, ?_, hpool ▸ hsht, fun n hn => by rw [hread, hpool, hn]; rfl, fun n y hy => ⟨fun hj hstate hf => ⟨?_, ?_⟩, fun hno => ?_⟩⟩
  · have hreg : t.reg = (s.modReel j fun y => { y with rescan := addRange r.rescan x }).reg := by
      rw [ht, reopenWhere_reg, hu, raise_reg]
    exact (onlyReel_modReel hr _).of_reg hreg
  · have hraise : LatchedWhereRouted .rescanAdded s u := hu ▸ latched_raise (route_of_cfg (by simp [State.modReel]))
    exact hraise.mono hgrow
  · rw [hread, hpool, hy, Option.map_some, if_pos ((hany hy).mpr ⟨hj, hf⟩)]
  · have := hlatch n y y (hpool ▸ hy) hstate ((hof hy y).mpr ⟨rfl, hj⟩) ((hfresh y).mpr hf)
    exact fun p hp => this p (by rw [hroute]; exact hp)
  · rw [hread, hpool, hy, Option.map_some]
    split
    · next hc =>
      obtain ⟨hj, hf⟩ := (hany hy).mp hc
      rcases hno with h | h | h
      · exact absurd hj h
      · rw [← h]
      · exact absurd hf h
    · rfl

/-- Settles O52: `rescanAdd_changed` gives the effect, `addRange_added` the frames of the list. -/
theorem rescanAddListsTheRange : Obligations.RescanAddListsTheRange := by
  unfold Obligations.RescanAddListsTheRange
  intro rq s a r hserved hh hr hform hlists u c good new fresh
  have hwf : s.sht.pool.wf = true := hform.2.2.1
  have hl : rescanOrdered r.rescan := hlists _ (Table.mem_of_read hr)
  have hru : u.reel a.handle.toNat = some r := (arrive_reel ..).trans hr
  have hbody : rescanAddBody a u = if a.last.toNat < a.first.toNat ∨ r.frontier ≤ a.last.toNat then (u, .only .badArg)
      else if r.circulation = .dispatching then (u, .only .state)
      else (rescanAdd a.handle.toNat ⟨a.first.toNat, a.last.toNat⟩ u, .ok []) := withReel_reel hh hru
  have hchecked : good → rescanAddBody a u = if r.circulation = .dispatching then (u, .only .state)
      else (rescanAdd a.handle.toNat ⟨a.first.toNat, a.last.toNat⟩ u, .ok []) :=
    fun ⟨h1, h2⟩ => hbody.trans (if_neg (by omega))
  have hfrontier : ∀ j, u.frontier j = s.frontier j := fun j => by simp [State.frontier, u]
  refine ⟨fun hbad => ?_, fun hgood => addRange_added hl hgood.1, fun hgood hd => ?_, fun hgood hd hsame => ?_,
    fun hgood hd hne => ?_⟩
  · exact exec_of_same rfl hserved (hbody.trans (if_pos (by simp only [good] at hbad; omega)))
  · exact exec_of_same rfl hserved ((hchecked hgood).trans (if_pos hd))
  · refine exec_of_same rfl hserved (((hchecked hgood).trans (if_neg hd)).trans ?_)
    rw [rescanAdd, hru]
    exact congrArg (·, Reply.ok []) (if_pos hsame)
  · obtain ⟨hreel, hraised, hsht, hfree, hshots⟩ := rescanAdd_changed hru (by simpa [u] using hwf) hl hne
    simp only [shotStop_congr (s := s) (t := u) (by simp [u]) hfrontier] at hshots
    have hroute : ∀ {e t}, LatchedWhereRouted e u t → LatchedWhereRouted e s t := fun h p hp =>
      h p (by simpa [u, State.route] using hp)
    refine exec_of_body rfl hserved ((hchecked hgood).trans (if_neg hd)) (by simp) (by simp [u])
      ⟨hreel.answer _ _, hroute hraised, by simpa [u] using hsht, fun n hn => hfree n (by simpa [u] using hn),
        fun n x hx => ?_⟩
    have := hshots n x (by simpa [u] using hx)
    exact ⟨fun hj hs hf => (this.1 hj hs hf).imp_right hroute, this.2⟩

end Sys2Proof.Machine
end

section
/-! SUPPORT. The commands that only read (R8, R33, R68, R122, R141, R148, R167, R168, R187, R189). -/

namespace Sys2Proof.Machine

variable {s t u v : State}

/-! ### What arrives of a request changes nothing that a query reads -/

theorem damageOf_congr (h : t.rpq = s.rpq) (j f : Nat) : t.damageOf j f = s.damageOf j f := by
  have hb : t.beforeInList = s.beforeInList := by funext x y; unfold State.beforeInList State.age; rw [h]
  rw [State.damageOf, State.damageOf, hb, h]

section Arrive

variable (p : Port) (s : State)

@[simp] theorem arrive_mask (q : Port) : ((arrive p s).alt.get q).mask = (s.alt.get q).mask := by
  simp only [arrive, dropConfirmation, displace, quiet]
  split
  · simp only [State.setReg_alt, raiseFor, State.setAlt_alt, PerPort.get_set]
    split
    · next h => subst h; simp [State.setPort]
    · simp [State.setPort]
  · simp

@[simp] theorem arrive_rawConditions : (arrive p s).rawConditions = s.rawConditions := by
  simp [State.rawConditions, State.repairWaiting]

@[simp] theorem arrive_shotsOf (j : Nat) : (arrive p s).shotsOf j = s.shotsOf j := by simp [State.shotsOf]

@[simp] theorem arrive_frontier (j : Nat) : (arrive p s).frontier j = s.frontier j := by simp [State.frontier]

@[simp] theorem arrive_shotStop (x : Shot) : (arrive p s).shotStop x = s.shotStop x := by
  simp [State.shotStop, State.nextShot]

@[simp] theorem arrive_shotAt (j f : Nat) : (arrive p s).shotAt j f = s.shotAt j f := by
  simp [State.shotAt, State.lastShot]

@[simp] theorem arrive_shotsFrom (j f : Nat) : (arrive p s).shotsFrom j f = s.shotsFrom j f := by simp [State.shotsFrom]

@[simp] theorem arrive_shotBytes (e : Nat × Shot) : shotBytes (arrive p s) e = shotBytes s e := by simp [shotBytes]

@[simp] theorem arrive_reelBytes (j : Nat) (r : Reel) : reelBytes j r (arrive p s) = reelBytes j r s := by
  simp [reelBytes, currentMoveBytes]

@[simp] theorem arrive_findReel (catalogue : Nat) : (arrive p s).findReel catalogue = s.findReel catalogue := by
  simp [State.findReel]

@[simp] theorem arrive_statusBytes : statusBytes (arrive p s) = statusBytes s := by
  simp [statusBytes, State.linkAlive]

@[simp] theorem arrive_damageOf (j f : Nat) : (arrive p s).damageOf j f = s.damageOf j f :=
  damageOf_congr (by simp) j f

@[simp] theorem arrive_gradeFrom (start j r : Nat) : (arrive p s).gradeFrom start j r = s.gradeFrom start j r := by
  simp [State.gradeFrom, State.baseOf, State.stackOf]

@[simp] theorem arrive_positionBytes (x : Place) : positionBytes (arrive p s) x = positionBytes s x := by
  simp [positionBytes, State.stagingLamp]

@[simp] theorem arrive_moveBytes (m : Move) : moveBytes (arrive p s) m = moveBytes s m := by
  simp [moveBytes, State.catalogueOf]

end Arrive

/-- REEL_FIND finds no reel when none has the number. -/
theorem findReel_none {catalogue : Nat} (h : ∀ j r, (j, r) ∈ s.reg.reels → r.catalogue ≠ catalogue) :
    s.findReel catalogue = none := by
  rw [State.findReel, Option.map_eq_none_iff, List.find?_eq_none]
  exact fun e he => by simpa using h e.1 e.2 he

theorem toNat_ne_zero {w : Nat} {x : BitVec w} (h : x ≠ 0) : x.toNat ≠ 0 := fun hc => h (BitVec.eq_of_toNat_eq (by simpa using hc))

/-- Settles O35: the queries' bodies answer of the state that arrived what they answer of `s`. -/
theorem queriesAnswerAndChangeNothing : Obligations.QueriesAnswerAndChangeNothing := by
  unfold Obligations.QueriesAnswerAndChangeNothing
  intro rq s hserved
  have hru : ∀ {j : Nat} {x : Option Reel}, s.reel j = x → (arrive rq.port s).reel j = x := fun h => (arrive_reel ..).trans h
  refine ⟨?_, fun i row hrow => ?_, fun h r hh hr => ?_, fun h hh hr => ?_, fun cat h hcat hfind => ?_,
    fun cat hcat hnone => ?_, ?_, fun hscan => ?_, fun a r hh hr hpass hcount hle => ?_, fun a r hh hr hcount hle => ?_,
    fun a r n x hh hr hx => ?_, fun a hkind hfirst hcount hle => ?_, ?_⟩
  · exact exec_of_same rfl hserved (by simp [readAlertsBody, Reply.ok])
  · have hindex : row.index = i.toNat := by simpa using List.find?_some hrow
    exact exec_of_same rfl hserved (by simp [withOperands, getSettingBody, hrow, hindex, Reply.ok])
  · exact exec_of_same rfl hserved (by simp [withOperands, reelQueryBody, withReel_reel hh (hru hr), Reply.ok])
  · exact exec_of_same rfl hserved (by simp [withOperands, reelQueryBody, withReel, hr, Reply.only]; omega)
  · exact exec_of_same rfl hserved (by simp [withOperands, reelFindBody, hcat, hfind, Reply.ok])
  · exact exec_of_same rfl hserved (by
      simp [withOperands, reelFindBody, hcat, findReel_none fun j r hj => hnone j r hj, Reply.only])
  · exact exec_of_same rfl hserved (by simp [transportStatusBody, Reply.ok])
  · exact exec_of_same rfl hscan (by simp [readPitchBody, Reply.ok])
  · have hc := toNat_ne_zero hcount
    have hargs : ¬(1023 < a.pass.toNat ∨ a.count.toNat = 0 ∨ 4 < a.count.toNat) := by omega
    intro all out
    have hbody : withOperands (some a) damageListBody (arrive rq.port s) = if out.isEmpty then
        (arrive rq.port s, .only .none)
        else (arrive rq.port s, .ok (listOf (fun e => Damage.bytes e.1 e.2) out ++
          u16 ((all.drop a.pass.toNat).length - out.length))) := by
      simp [withOperands, damageListBody, withReel_reel hh (hru hr), hargs, out, all]
    have hempty : out.isEmpty = true ↔ all.length ≤ a.pass.toNat := by
      rw [List.isEmpty_iff_length_eq_zero, List.length_take, List.length_drop]; omega
    refine ⟨fun hlt => exec_of_same rfl hserved ?_, fun hge => exec_of_same rfl hserved ?_⟩
    · rw [hbody, if_neg (by rw [hempty]; omega), List.length_drop]; rfl
    · rw [hbody, if_pos (hempty.mpr hge)]; rfl
  · have hc := toNat_ne_zero hcount
    have hargs : ¬(a.count.toNat = 0 ∨ 8 < a.count.toNat) := by omega
    exact exec_of_same rfl hserved (by
      simp [withOperands, shotListBody, withReel_reel hh (hru hr), hargs, Reply.ok, funext (arrive_shotBytes rq.port s)])
  · refine exec_of_body (v := arrive rq.port s) rfl hserved
      (by simp [withOperands, gradeQueryBody, withReel_reel hh (hru hr), hx, Reply.ok]) (by simp) (.refl _ _)
      fun z hz => ?_
    simpa [State.gradeFrom, State.baseOf, State.stackOf, hr, hz] using compose_graded 4096 r.base z.stack
  · have hc := toNat_ne_zero hcount
    have hargs : ¬(2 < a.kind.toNat ∨ lastPosition a.kind.toNat < a.first.toNat ∨ a.count.toNat = 0 ∨
      16 < a.count.toNat) := by omega
    refine exec_of_same rfl hserved ?_
    simp only [withOperands, positionsBody, if_neg hargs, Reply.ok, arrive_cab, funext (arrive_positionBytes rq.port s)]
  · exact exec_of_same rfl hserved (by simp [moveListBody, Reply.ok, funext (arrive_moveBytes rq.port s)])

end Sys2Proof.Machine
end

section
/-! SUPPORT. Alerts one after another, one reel changed, and CAB's conditions after a command. -/

namespace Sys2Proof.Machine

variable {s t u v : State}

/-! ### Alerts, beside one another -/

theorem Latches.of_mem {l l' : List Event} (h : Latches l s t) (hm : ∀ e, e ∈ l ↔ e ∈ l') : Latches l' s t := by
  have hc : ∀ e, l.contains e = l'.contains e := fun e => by rw [Bool.eq_iff_iff]; simpa using hm e
  exact fun p => ⟨(h p).1, fun e => by rw [(h p).2, hc]⟩

theorem Latches.trans {l l' : List Event} (h : Latches l s t) (k : Latches l' t u) (hcfg : t.cfg = s.cfg) :
    Latches (l ++ l') s u := by
  refine fun p => ⟨(k p).1.trans (h p).1, fun e => ?_⟩
  rw [(k p).2, (h p).2, route_of_cfg hcfg]
  cases hs : AlertSet.has (s.alt.get p).latched e <;> cases hr : AlertSet.has (s.route p) e <;> simp

theorem Latches.raiseIf (c : Bool) (e : Event) : Latches (if c then [e] else []) s (raiseIf c e s) := by
  cases c
  · exact .nil rfl
  · exact (Latches.nil rfl).raise (fun _ => rfl) e

/-! ### A single record changed -/

theorem OnlyReel.refl {j : Nat} {r : Reel} (hr : s.reel j = some r) : OnlyReel j r s s := ⟨hr, fun _ _ => rfl, rfl⟩

theorem OnlyReel.modReel {j : Nat} {r : Reel} (h : OnlyReel j r s t) (f : Reel → Reel) :
    OnlyReel j (f r) s (t.modReel j f) := by
  obtain ⟨hr, hothers, hconfirm⟩ := onlyReel_modReel h.1 f
  exact ⟨hr, fun i hi => (hothers i hi).trans (h.2.1 i hi), hconfirm.trans h.2.2⟩

/-! ### CAB's conditions after an event (R160, R161) -/

theorem refreshCab_cab : (refreshCab s).cab = { s.cab with eligible := s.eligibleNow, isoFull := s.isoFullNow } := by
  simp [refreshCab]

theorem refreshCab_eligibleNow : (refreshCab s).eligibleNow = s.eligibleNow ∧
    (refreshCab s).isoFullNow = s.isoFullNow := by
  unfold refreshCab
  cases h1 : s.isoFullNow && !s.cab.isoFull <;> cases h2 : s.eligibleNow && !s.cab.eligible <;>
    simp only [raiseIf, h1, h2, if_true] <;> exact ⟨rfl, rfl⟩

/-- The end of an event whose moves and positions are as `c` says. -/
theorem cabSettled_refreshCab {c : Cab} {events : List Event} (hc : v.cab = c) (he : c.eligible = s.cab.eligible)
    (hi : c.isoFull = s.cab.isoFull) (hl : Latches events s v) (hcfg : v.cfg = s.cfg) :
    CabSettled c events s (refreshCab v) := by
  subst hc
  obtain ⟨h1, h2⟩ := refreshCab_eligibleNow (s := v)
  refine ⟨by rw [h1, h2, refreshCab_cab], ?_⟩
  rw [refreshCab_cab, ← he, ← hi, List.append_assoc]
  refine hl.trans ?_ hcfg
  have hset : Latches [] v (v.setCab { v.cab with eligible := v.eligibleNow, isoFull := v.isoFullNow }) := .nil rfl
  exact ((hset.trans (.raiseIf _ .moveReady) rfl).trans (.raiseIf _ .isolationFull) (by simp))

theorem CabSettled.answer {c : Cab} {events : List Event} (h : CabSettled c events s t) (rq : Rq) (r : Reply) :
    CabSettled c events s (answer rq r t) := h

end Sys2Proof.Machine
end

section
/-! SUPPORT. ADMIT fills the lowest free entry (R9). -/

namespace Sys2Proof.Machine

variable {s t u v : State}

/-! ### ADMIT (R9) -/

theorem findReel_isSome (catalogue : Nat) :
    (s.findReel catalogue).isSome = true ↔ ∃ h r, (h, r) ∈ s.reg.reels ∧ r.catalogue = catalogue := by
  simp [State.findReel]

/-- The record, the first shot and the slot of a reel that is admitted. -/
theorem admitReel_spec (h n catalogue : Nat) (g : Gauge) (acidity slot : Nat) :
    let t := admitReel h n catalogue g acidity slot s
    OnlyReel h (newReel catalogue g acidity slot) s t ∧ OnlyShot n (detectedShot h 0) s t ∧
      (t.cab.slots.read slot = some (.holding h) ∧ ∀ j, j ≠ slot → t.cab.slots.read j = s.cab.slots.read j) ∧
      CabSettled { s.cab with slots := t.cab.slots } [] s t := by
  intro t
  have hreg : t.reg = { s.reg with reels := s.reg.reels.write h (newReel catalogue g acidity slot) } := by
    simp [t, admitReel]
  have hsht : t.sht = { s.sht with pool := s.sht.pool.write n (detectedShot h 0) } := by
    simp [t, admitReel, State.putShot]
  have hslots : t.cab.slots = s.cab.slots.write slot (.holding h) := by
    simp [t, admitReel, refreshCab_cab, State.occupy, Cab.occupy, setEntry, State.putShot]
  refine ⟨⟨?_, fun j hj => ?_, by rw [hreg]⟩, ⟨?_, fun j hj => ?_, by rw [hsht]⟩, ⟨?_, fun j hj => ?_⟩, ?_⟩
  · rw [State.reel, hreg, Table.read_write_same]
  · rw [State.reel, hreg, Table.read_write, if_neg hj, State.reel]
  · rw [hsht, Table.read_write_same]
  · rw [hsht, Table.read_write, if_neg hj]
  · rw [hslots, Table.read_write_same]
  · rw [hslots, Table.read_write, if_neg hj]
  · rw [hslots]
    exact cabSettled_refreshCab rfl rfl rfl (.nil rfl) rfl

/-- Settles O39: `admitReel_spec` gives the effect, the refusals are ADMIT's checks. -/
theorem admitFillsTheLowestEntry : Obligations.AdmitFillsTheLowestEntry := by
  unfold Obligations.AdmitFillsTheLowestEntry
  intro rq s a g hserved hg hcat hacid hslot u taken wrongZone refused
  have hbody : admitBody a u = admitChecks a.catalogue.toNat g a.acidity.toNat a.slot.toNat u := by
    have := toNat_ne_zero hcat
    simp only [admitBody, hg]
    exact if_neg (by simp only [Config.slots]; omega)
  have hfind : (u.findReel a.catalogue.toNat).isSome = true ↔ taken := by
    rw [arrive_findReel]; exact findReel_isSome _
  have hnew : ¬taken → (u.findReel a.catalogue.toNat).isSome = false := fun h => by simpa using mt hfind.mp h
  have hslots : u.cab.slots = s.cab.slots := by simp [u]
  have hreels : u.reg.reels = s.reg.reels := by simp [u]
  have hpool : u.sht.pool = s.sht.pool := by simp [u]
  have hrefuse : ∀ {st}, admitBody a u = (u, .only st) → refused st := fun h => exec_of_same rfl hserved h
  refine ⟨fun ht => hrefuse ?_, fun ht e he => hrefuse ?_, fun ht e he => hrefuse ?_, fun ht h hh => hrefuse ?_,
    fun ht hfree hz => hrefuse ?_, fun ht hfree hz hfull => hrefuse ?_, fun ht hfree hz h n hh hr hlow hn hp hlow' => ?_⟩
  · rw [hbody, admitChecks, if_pos (hfind.mpr ht)]
  · simp [hbody, admitChecks, hnew ht, hslots, he]
  · simp [hbody, admitChecks, hnew ht, hslots, he]
  · simp [hbody, admitChecks, hnew ht, hslots, hh]
  · simp only [wrongZone] at hz
    simp [hbody, admitChecks, hnew ht, hslots, hfree, hz]
  · have hz : ¬(2 ≤ a.acidity.toNat ∧ a.slot.toNat < 64) := hz
    rw [hbody]
    simp only [admitChecks, hnew ht, hslots, hfree, if_neg hz, State.freeShot, hreels, hpool]
    rcases hfull with h | h
    · simp [Table.firstFree_full (t := s.reg.reels) h]
    · simp [Table.firstFree_full h]
  · have hz : ¬(2 ≤ a.acidity.toNat ∧ a.slot.toNat < 64) := hz
    have hchecks : admitBody a u = (admitReel h n a.catalogue.toNat g a.acidity.toNat a.slot.toNat u, .ok (u8 h)) := by
      rw [hbody]
      simp [admitChecks, hnew ht, hslots, hfree, hz, State.freeShot, hreels, hpool,
        Table.firstFree_eq (t := s.reg.reels) hh hr hlow, Table.firstFree_eq hn hp hlow']
    obtain ⟨hreel, hshot, ⟨hslot, hothers⟩, hcab⟩ := admitReel_spec (s := u) h n a.catalogue.toNat g a.acidity.toNat
      a.slot.toNat
    refine exec_of_body rfl hserved (hchecks.trans ?_) (by simp) (by simp [u])
      ⟨?_, hshot, hslot, fun j hj => (hothers j hj).trans (by rw [hslots]), ?_⟩
    · simp [Reply.ok, u8, bytesOf, Nat.mod_eq_of_lt (hh.trans (by decide : 96 < 256))]
    · simpa [newReel, fragileOf, Layer.unit, Channel.unit] using hreel.answer rq _
    · simpa [u] using hcab.answer rq _

end Sys2Proof.Machine
end

section
/-! SUPPORT. SET_CONDITION and the relocation check (R10, R2, R5). -/

namespace Sys2Proof.Machine

variable {s t u v : State}

theorem OnlyReel.trans {j : Nat} {x y : Reel} (h : OnlyReel j x s t) (k : OnlyReel j y t u) : OnlyReel j y s u :=
  ⟨k.1, fun i hi => (k.2.1 i hi).trans (h.2.1 i hi), k.2.2.trans h.2.2⟩

/-! ### Moves asked for (R5, R157, R158) -/

theorem createMove_cab {h e : Nat} {r : Reel} (hr : s.reel h = some r) (he : s.cab.freeEntry = some e) (kind : MoveKind) :
    (createMove h kind s).cab = { s.cab with moves := s.cab.moves ++ [⟨e, kind, h, r.location, none, .queued⟩] } := by
  rw [createMove, he]; exact createMoveIn_cab e kind hr

@[simp] theorem Cab.ask_eligible (c : Cab) (h : Nat) (kind : MoveKind) (source : Place) :
    (c.ask h kind source).eligible = c.eligible := by unfold Cab.ask; split <;> rfl

@[simp] theorem Cab.ask_isoFull (c : Cab) (h : Nat) (kind : MoveKind) (source : Place) :
    (c.ask h kind source).isoFull = c.isoFull := by unfold Cab.ask; split <;> rfl

theorem relocationEvents_length (c : Cab) : relocationEvents c.moves.length c = [] := by simp [relocationEvents]

/-- RELOCATION_QUEUED is the event of a RELOCATE last in the queue. -/
theorem relocationEvents_append {c c' : Cab} {m : Move} (h : c'.moves = c.moves ++ [m]) :
    relocationEvents c.moves.length c' = if m.kind == .relocate then [.relocationQueued] else [] := by
  simp [relocationEvents, h]

/-- R158: an automatic move in a free entry. -/
theorem enterAuto_spec {h e : Nat} {r : Reel} (hr : s.reel h = some r) (he : s.cab.freeEntry = some e) (kind : MoveKind) :
    let t := enterAuto h kind s
    t.cab = { s.cab with moves := s.cab.moves ++ [⟨e, kind, h, r.location, none, .queued⟩] } ∧
      Latches (relocationEvents s.cab.moves.length t.cab) s t := by
  intro t
  have hcab : t.cab = { s.cab with moves := s.cab.moves ++ [⟨e, kind, h, r.location, none, .queued⟩] } := by
    simp only [t, enterAuto, raiseIf_cab]
    exact createMove_cab hr he kind
  refine ⟨hcab, ?_⟩
  rw [relocationEvents_append (congrArg Cab.moves hcab)]
  have hcreate : Latches [] s (createMove h kind s) := .nil (createMove_alt h kind)
  exact hcreate.trans (.raiseIf _ _) (by simp)

/-- R158: a move asked for joins the queue, or the leg-due list. -/
theorem autoMove_spec {h : Nat} {r : Reel} (hr : s.reel h = some r) (kind : MoveKind) :
    let t := autoMove h kind s
    t.cab = s.cab.ask h kind r.location ∧ Latches (relocationEvents s.cab.moves.length t.cab) s t := by
  intro t
  cases he : s.cab.freeEntry with
  | some e =>
    obtain ⟨hcab, hl⟩ := enterAuto_spec hr he kind
    have ht : t = enterAuto h kind s := by simp [t, autoMove, he]
    exact ⟨by rw [ht, hcab, Cab.ask, he], ht ▸ hl⟩
  | none =>
    have ht : t = s.setCab { s.cab with legDue := s.cab.legDue ++ [⟨h, kind⟩] } := by simp [t, autoMove, he]
    refine ⟨by rw [ht, Cab.ask, he]; rfl, ?_⟩
    rw [ht, State.setCab_cab, show s.cab.moves.length = ({ s.cab with
      legDue := s.cab.legDue ++ [⟨h, kind⟩] } : Cab).moves.length from rfl, relocationEvents_length]
    exact .nil rfl

/-- R5: the relocation check asks exactly when the record calls for it. -/
theorem relocationCheck_eq {h : Nat} {r : Reel} (hr : s.reel h = some r) : relocationCheck h s =
    if r.mustRelocate then autoMove h .relocate (s.modReel h fun y => { y with relocation := true }) else s := by
  simp only [relocationCheck, hr]
  cases hl : r.location with
  | slot n =>
    refine if_congr ?_ rfl rfl
    simp only [Reel.mustRelocate, hl]
    simp
    tauto
  | _ => simp [Reel.mustRelocate, hl]

theorem relocationCheck_spec {h : Nat} {r : Reel} (hr : s.reel h = some r) :
    let t := relocationCheck h s
    OnlyReel h { r with relocation := r.relocation || r.mustRelocate } s t ∧
      t.cab = (if r.mustRelocate then s.cab.ask h .relocate r.location else s.cab) ∧
      Latches (relocationEvents s.cab.moves.length t.cab) s t := by
  intro t
  have ht : t = _ := relocationCheck_eq hr
  by_cases hm : r.mustRelocate = true
  · rw [if_pos hm] at ht
    have hmod := onlyReel_modReel hr fun y => { y with relocation := true }
    obtain ⟨hcab, hl⟩ := autoMove_spec hmod.1 .relocate
    rw [← ht] at hcab hl
    refine ⟨?_, by rw [hcab, if_pos hm]; rfl, hl⟩
    rw [hm, Bool.or_true]
    exact hmod.of_reg (ht ▸ autoMove_reg ..)
  · rw [if_neg hm] at ht
    rw [ht, if_neg hm, relocationEvents_length, Bool.eq_false_iff.mpr hm, Bool.or_false]
    exact ⟨.refl hr, rfl, .nil rfl⟩

@[simp] theorem relocationEvents_refreshCab (n : Nat) :
    relocationEvents n (refreshCab s).cab = relocationEvents n s.cab := by rw [refreshCab_cab]; rfl

/-- A request of a reel whose body ends with CAB's conditions: its record, the moves as `c` says, the events. -/
theorem exec_settled {i : Instr} {rq : Rq} {need : Need} {body : Body} {results : List Byte} {j : Nat} {r : Reel}
    {c : Cab} {events : Cab → List Event} (hi : exec i s = .next (serve rq need body s)) (h : Served rq need s)
    (hb : body (arrive rq.port s) = (refreshCab v, ⟨.ok, results⟩)) (hk : Kept [.reg, .cab, .alt] (arrive rq.port s) v)
    (hreel : OnlyReel j r (arrive rq.port s) v) (hcab : v.cab = c) (heligible : c.eligible = s.cab.eligible)
    (hfull : c.isoFull = s.cab.isoFull) (hl : Latches (events v.cab) (arrive rq.port s) v)
    (hevents : events (refreshCab v).cab = events v.cab := by simp) :
    ∃ t, exec i s = .next t ∧ Answered rq .ok results [.reg, .cab, .alt] (arrive rq.port s) t ∧
      OnlyReel j r (arrive rq.port s) t ∧ CabSettled c (events t.cab) (arrive rq.port s) t := by
  refine exec_of_body hi h hb (by simp) (by simpa using hk) ⟨hreel.of_reg (by simp), ?_⟩
  rw [answer_cab, hevents]
  exact cabSettled_refreshCab (s := arrive rq.port s) hcab (by simpa using heligible) (by simpa using hfull) hl
    (hk .cfg (by simp))

/-! ### SET_CONDITION (R10) -/

theorem fragileOf_eq (acidity : Nat) (shrinkage : Option Nat) :
    fragileOf acidity shrinkage = (decide (2 ≤ acidity) || shrinkage.any (fun x => decide (150 ≤ x))) := by
  cases shrinkage <;> rfl

/-- A new class, with the relocation check of a rise in a SHELVED reel. -/
theorem withAcidity_spec {h : Nat} {r : Reel} (hr : s.reel h = some r) (acidity : Nat) :
    let r' := r.withAcidity acidity
    let asked := decide (r.acidity < 2) && r'.mustRelocate
    let rises := r.circulation == .shelved && decide (r.acidity < 2) && decide (2 ≤ acidity)
    let t := s.modReel h fun x => x.withAcidity acidity
    let v := if rises then relocationCheck h t else t
    OnlyReel h { r' with relocation := r.relocation || asked } s v ∧
      v.cab = (if asked then s.cab.ask h .relocate r.location else s.cab) ∧
      Latches (relocationEvents s.cab.moves.length v.cab) s v := by
  intro r' asked rises t v
  have hclass : OnlyReel h r' s t := onlyReel_modReel hr _
  have hasked : asked = (rises && r'.mustRelocate) := by
    simp only [asked, rises, r', Reel.mustRelocate, Reel.withAcidity]
    cases r.circulation == .shelved <;> cases decide (r.acidity < 2) <;> cases decide (2 ≤ acidity) <;> rfl
  rw [hasked]
  cases hrises : rises with
  | true =>
    have hv : v = relocationCheck h t := if_pos hrises
    obtain ⟨hreel, hcab, hl⟩ := relocationCheck_spec hclass.1
    rw [← hv] at hreel hcab hl
    exact ⟨hclass.trans hreel, hcab, (Latches.nil rfl).trans hl rfl⟩
  | false =>
    have hv : v = t := if_neg (by simp [hrises])
    rw [hv, Bool.false_and, Bool.or_false]
    exact ⟨hclass, rfl, relocationEvents_length s.cab ▸ .nil rfl⟩

/-- Settles O40: a rise in class is a relocation check of the record with the new class. -/
theorem setConditionRecordsTheClass : Obligations.SetConditionRecordsTheClass := by
  unfold Obligations.SetConditionRecordsTheClass
  intro rq s a r hserved hh hr hacid u fragile r' asked
  have hru : u.reel a.handle.toNat = some r := (arrive_reel ..).trans hr
  have hfragile : fragileOf a.acidity.toNat r.shrinkage = fragile := fragileOf_eq ..
  obtain ⟨v, hv⟩ : ∃ v, v = if r.circulation == .shelved && decide (r.acidity < 2) && decide (2 ≤ a.acidity.toNat) then
    relocationCheck a.handle.toNat (u.modReel a.handle.toNat fun x => x.withAcidity a.acidity.toNat)
    else u.modReel a.handle.toNat fun x => x.withAcidity a.acidity.toNat := ⟨_, rfl⟩
  have hbody : setConditionBody a u = (refreshCab v, .ok (flag fragile)) := by
    rw [hv, ← hfragile]
    exact (withReel_reel hh hru).trans (if_neg (by omega))
  have hspec := withAcidity_spec hru a.acidity.toNat
  rw [show r.withAcidity a.acidity.toNat = r' by rw [Reel.withAcidity, hfragile]] at hspec
  dsimp only at hspec
  rw [← hv] at hspec
  obtain ⟨hreel, hcab, hl⟩ := hspec
  have hu : u.cab = s.cab := arrive_cab _
  rw [hu] at hcab hl
  have hkept : Kept [.reg, .cab, .alt] u v := by subst hv; split <;> simp
  refine exec_settled (events := relocationEvents s.cab.moves.length) rfl hserved (hbody.trans ?_) hkept hreel hcab
    (by split <;> simp) (by split <;> simp) hl
  cases fragile <;> rfl

end Sys2Proof.Machine
end

section
/-! SUPPORT. RETURN and RELEASE queue a move (R13, R14, R157). -/

namespace Sys2Proof.Machine

variable {s t u v : State}

/-! ### RETURN, RELEASE and DISPATCH (R13, R14) -/

/-- A move queued for a reel that changes its circulation state with it. -/
theorem createMove_circulate_spec {h e : Nat} {r : Reel} (hr : s.reel h = some r) (he : s.cab.freeEntry = some e)
    (kind : MoveKind) (circulation : Circulation) : let t := (createMove h kind s).circulate h circulation
    OnlyReel h { r with circulation } s t ∧
      t.cab = { s.cab with moves := s.cab.moves ++ [⟨e, kind, h, r.location, none, .queued⟩] } ∧ Latches [] s t := by
  refine ⟨((OnlyReel.refl hr).of_reg (createMove_reg ..)).modReel _, createMove_cab hr he kind, .nil ?_⟩
  rw [State.circulate, State.modReel, State.setReg_alt, createMove_alt]

/-- Settles O42: both commands are their checks and `createMove_circulate_spec`. -/
theorem returnAndReleaseQueueAMove : Obligations.ReturnAndReleaseQueueAMove := by
  unfold Obligations.ReturnAndReleaseQueueAMove
  intro rq s h r hh hr u refused queued
  have hru : u.reel h.toNat = some r := (arrive_reel ..).trans hr
  have hu : u.cab = s.cab := arrive_cab _
  have hqueued : ∀ {c : Instr} {need : Need} {body : Body} {kind circulation}, Served rq need s →
      exec c s = .next (serve rq need body s) → (s.cab.freeEntry.isNone = false →
        body u = (refreshCab ((createMove h.toNat kind u).circulate h.toNat circulation), .ok [])) →
      queued c kind circulation := by
    intro c need body kind circulation hserved hc hb e he
    obtain ⟨hreel, hcab, hl⟩ := createMove_circulate_spec hru (hu ▸ he) kind circulation
    exact exec_settled (events := fun _ => []) hc hserved (hb (by simp [he])) (by simp [State.circulate, u]) hreel
      (by rw [hcab, hu]) rfl rfl hl rfl
  refine ⟨?_, ?_⟩
  · intro hserved c
    have hbody : returnBody h u = if r.circulation ≠ .ready then (u, .only .state)
        else if s.cab.freeEntry.isNone then (u, .only .full)
        else (refreshCab ((createMove h.toNat .stageBack u).circulate h.toNat .inbound), .ok []) := by
      rw [← hu]; exact withReel_reel hh hru
    have hrefuse : ∀ {st}, returnBody h u = (u, .only st) → refused c st := fun hb => exec_of_same rfl hserved hb
    refine ⟨fun hcirc => hrefuse ?_, fun hcirc hfull => hrefuse ?_, fun hcirc => hqueued hserved rfl fun hfree => ?_⟩
    · rw [hbody, if_pos hcirc]
    · rw [hbody, if_neg (by simp [hcirc]), if_pos (by simp [hfull])]
    · exact hbody.trans (by rw [if_neg (by simp [hcirc]), if_neg (by simp [hfree])])
  · intro hserved c work
    have hbody : plainRelease h.toNat u = if r.circulation ≠ .shelved then (u, .only .state)
        else if r.relocation then (u, .only .busy)
        else if work then (u, .only .pendingWork)
        else if s.cab.freeEntry.isNone then (u, .only .full)
        else (dispatchReel h.toNat u, .ok []) := by
      rw [← hu]; exact withReel_reel hh hru
    have hrefuse : ∀ {st}, plainRelease h.toNat u = (u, .only st) → refused c st := fun hb => exec_of_same rfl hserved hb
    refine ⟨fun hcirc => hrefuse ?_, fun hcirc hrel => hrefuse ?_, fun hcirc hrel hwork => hrefuse ?_,
      fun hcirc hrel hwork hfull => hrefuse ?_, fun hcirc hrel hwork => hqueued hserved rfl fun hfree => ?_⟩
    · rw [hbody, if_pos hcirc]
    · rw [hbody, if_neg (by simp [hcirc]), if_pos hrel]
    · rw [hbody, if_neg (by simp [hcirc]), if_neg (by simp [hrel]), if_pos hwork]
    · rw [hbody, if_neg (by simp [hcirc]), if_neg (by simp [hrel]), if_neg hwork, if_pos (by simp [hfull])]
    · exact hbody.trans (by rw [if_neg (by simp [hcirc]), if_neg (by simp [hrel]), if_neg hwork, if_neg (by simp [hfree])]; rfl)

end Sys2Proof.Machine
end

section
/-! SUPPORT. REQUEST queues a FETCH_OUT, CANCEL withdraws it (R11, R12, R158). -/

namespace Sys2Proof.Machine

variable {s t u v : State}

/-! ### REQUEST (R11) -/

/-- The mark of a relocation that is leg due. -/
theorem bne_relocateMark (h : Nat) :
    (fun d : LegDue => !(d.handle == h && d.kind == MoveKind.relocate)) = fun d => d != ⟨h, .relocate⟩ := by
  funext d
  rw [Bool.eq_iff_iff]
  cases d
  simp only [Bool.not_eq_true', Bool.and_eq_false_iff, beq_eq_false_iff_ne, bne_iff_ne, ne_eq, LegDue.mk.injEq]
  tauto

theorem withdrawRelocation_spec {h : Nat} {r : Reel} (hr : s.reel h = some r) :
    OnlyReel h { r with relocation := false } s (withdrawRelocation h s) := by
  refine OnlyReel.modReel ((OnlyReel.refl hr).of_reg ?_) _
  split <;> rfl

theorem createMoveIn_reg (e h : Nat) (kind : MoveKind) : (createMoveIn e h kind s).reg = s.reg :=
  (kept_createMoveIn (l := [.cab]) (by simp) e h kind).mpr (.refl _ s) .reg (by simp)

/-- The record of a reel whose relocation the FETCH_OUT replaces. -/
theorem createFetchOut_reel {h : Nat} {r : Reel} (hr : s.reel h = some r) :
    OnlyReel h { r with relocation := false } s (createFetchOut h s) := by
  refine (withdrawRelocation_spec hr).of_reg ?_
  unfold createFetchOut
  split
  · exact createMoveIn_reg ..
  · exact createMove_reg ..

theorem createFetchOut_alt (h : Nat) : (createFetchOut h s).alt = s.alt :=
  (kept_createFetchOut (l := [.reg, .cab]) (by simp) (by simp) h).mpr (.refl _ s) .alt (by simp)

/-- R157: with no entry freed the FETCH_OUT stands in the lowest free one. -/
theorem createFetchOut_free {h e : Nat} {r : Reel} (hr : s.reel h = some r) (hm : s.relocateOf h = none)
    (he : s.cab.freeEntry = some e) : (createFetchOut h s).cab = { s.cab with
      legDue := s.cab.legDue.filter (fun d => d != ⟨h, .relocate⟩)
      moves := s.cab.moves ++ [⟨e, .fetchOut, h, r.location, none, .queued⟩] } := by
  have hcab : (withdrawRelocation h s).cab = { s.cab with legDue := s.cab.legDue.filter (fun d => d != ⟨h, .relocate⟩) } := by
    simp only [withdrawRelocation, hm, State.modReel, State.setReg_cab, State.setCab_cab, bne_relocateMark]
  have hfree : (withdrawRelocation h s).cab.freeEntry = some e := by rw [hcab]; exact he
  simp only [createFetchOut, hm]
  rw [createMove_cab (withdrawRelocation_spec hr).1 hfree, hcab]

theorem relocateOf_eq_none {h : Nat} (hm : ∀ m, s.cab.moveOf h = some m → m.kind ≠ .relocate) : s.relocateOf h = none := by
  unfold State.relocateOf
  split
  · next m h => exact if_neg (hm m h)
  · rfl

/-! ### CANCEL (R12, R158) -/

theorem mem_relocationEvents {n : Nat} {c : Cab} {e : Event} : e ∈ relocationEvents n c ↔
    e = .relocationQueued ∧ ∃ m ∈ c.moves.drop n, m.kind = .relocate := by
  simp only [relocationEvents]
  split
  · next h =>
    have : ∃ m ∈ c.moves.drop n, m.kind = .relocate := by simpa using h
    simp [this]
  · next h =>
    have : ¬∃ m ∈ c.moves.drop n, m.kind = .relocate := by simpa using h
    simp [this]

/-- Events of one after another. -/
theorem Latches.relocations {c c' : Cab} (h : Latches (relocationEvents c.moves.length t.cab) s t)
    (k : Latches (relocationEvents t.cab.moves.length c') t u) (hcfg : t.cfg = s.cfg) (h1 : c.moves <+: t.cab.moves)
    (h2 : t.cab.moves <+: c'.moves) : Latches (relocationEvents c.moves.length c') s u := by
  obtain ⟨x, hx⟩ := h1
  obtain ⟨y, hy⟩ := h2
  refine (h.trans k hcfg).of_mem fun e => ?_
  rw [List.mem_append, mem_relocationEvents, mem_relocationEvents, mem_relocationEvents, ← hy, List.drop_left, ← hx,
    List.drop_left, List.append_assoc, List.drop_left]
  simp only [List.mem_append, or_and_right, exists_or, and_or_left]

theorem Cab.ask_moves (c : Cab) (h : Nat) (kind : MoveKind) (source : Place) : c.moves <+: (c.ask h kind source).moves := by
  unfold Cab.ask
  split
  · exact List.prefix_append _ _
  · exact List.prefix_refl _

/-- R158: one drained mark is all that drains. -/
theorem drain_spec (h : s.cab.drainedByOne s) : let t := drain s
    t.cab = s.cab.drainOne s ∧ Latches (relocationEvents s.cab.moves.length t.cab) s t := by
  intro t
  rcases h with hnone | ⟨d, rest, r, hdue, hr, he, hlast⟩
  · have ht : t = s := by simp [t, drain, hnone, drainMarks]
    rw [ht, relocationEvents_length, Cab.drainOne, hnone]
    exact ⟨rfl, .nil rfl⟩
  · obtain ⟨e, he⟩ := Option.isSome_iff_exists.mp he
    obtain ⟨hcab, hl⟩ := enterAuto_spec (s := s.setCab { s.cab with legDue := rest }) hr he d.kind
    have hone : s.cab.drainOne s = (enterAuto d.handle d.kind (s.setCab { s.cab with legDue := rest })).cab := by
      have hfree : Cab.freeEntry { s.cab with legDue := rest } = some e := he
      simp only [Cab.drainOne, hdue, hr, Cab.ask, hfree, hcab, State.setCab_cab]
    have ht : t = enterAuto d.handle d.kind (s.setCab { s.cab with legDue := rest }) := by
      simp only [t, drain, hdue, drainMarks, he, Option.isSome_some, if_true]
      cases rest with
      | nil => rfl
      | cons x xs =>
        rw [drainMarks, if_neg]
        rw [← hone]
        simpa using hlast
    rw [ht]
    exact ⟨hone.symm, (Latches.nil rfl).trans hl rfl⟩

/-- Which marks drain depends on the reels alone. -/
theorem drainOne_congr (c : Cab) (h : ∀ j, t.reel j = s.reel j) : c.drainOne t = c.drainOne s := by
  have h : t.reel = s.reel := funext h
  unfold Cab.drainOne
  rw [h]

theorem drainedByOne_congr {c : Cab} (h : ∀ j, t.reel j = s.reel j) : c.drainedByOne t ↔ c.drainedByOne s := by
  unfold Cab.drainedByOne
  rw [drainOne_congr c h, funext h]

theorem drainOne_moves (c : Cab) (s : State) : c.moves <+: (c.drainOne s).moves := by
  unfold Cab.drainOne
  split
  · exact List.prefix_refl _
  · next rest _ =>
    split
    · exact Cab.ask_moves { c with legDue := rest } _ _ _
    · exact List.prefix_refl _

/-- The reel of a withdrawn request: its record in any case, the moves and events where one mark is all that drains. -/
theorem backToShelved_drain_spec {h : Nat} {r : Reel} (hr : s.reel h = some r) (c : Cab) :
    let r' : Reel := { r with circulation := .shelved }
    let t := backToShelved h (drain (s.setCab c))
    OnlyReel h { r' with relocation := r.relocation || r'.mustRelocate } s t ∧
      (c.drainedByOne s →
        t.cab = (if r'.mustRelocate then (c.drainOne s).ask h .relocate r.location else c.drainOne s) ∧
        Latches (relocationEvents c.moves.length t.cab) s t) := by
  intro r' t
  obtain ⟨w, hw⟩ : ∃ w, w = (drain (s.setCab c)).circulate h .shelved := ⟨_, rfl⟩
  have hdrained : OnlyReel h r' s w := by
    rw [hw]
    exact ((OnlyReel.refl hr).of_reg (u := drain (s.setCab c)) (by simp)).modReel _
  have ht : t = relocationCheck h w := by rw [hw]; rfl
  obtain ⟨hreel, hcab, hl⟩ := relocationCheck_spec hdrained.1
  rw [← ht] at hreel hcab hl
  refine ⟨hdrained.trans hreel, fun hone => ?_⟩
  obtain ⟨hdcab, hdl⟩ := drain_spec (s := s.setCab c) hone
  have hwcab : w.cab = c.drainOne s := by rw [hw]; exact hdcab
  have hwl : Latches (relocationEvents c.moves.length w.cab) s w := by
    rw [hwcab, hw, show c.drainOne s = (drain (s.setCab c)).cab from hdcab.symm]
    exact hdl
  refine ⟨by rw [hcab, hwcab], hwl.relocations hl (by simp [hw, State.circulate]) ?_ ?_⟩
  · rw [hwcab]; exact drainOne_moves c s
  · rw [hcab]
    split
    · exact Cab.ask_moves _ _ _ _
    · exact List.prefix_refl _

theorem drainOne_flags (c : Cab) (s : State) :
    (c.drainOne s).eligible = c.eligible ∧ (c.drainOne s).isoFull = c.isoFull := by
  unfold Cab.drainOne
  split
  · exact ⟨rfl, rfl⟩
  · split
    · exact ⟨Cab.ask_eligible .., Cab.ask_isoFull ..⟩
    · exact ⟨rfl, rfl⟩

/-- Settles O41: REQUEST by `createFetchOut_relocate` and `createFetchOut_free`, CANCEL by `backToShelved_drain_spec`. -/
theorem requestAndCancelMoveTheReel : Obligations.RequestAndCancelMoveTheReel := by
  unfold Obligations.RequestAndCancelMoveTheReel
  intro rq s h r hserved hh hr u refused fetched
  have hru : u.reel h.toNat = some r := (arrive_reel ..).trans hr
  have hu : u.cab = s.cab := arrive_cab _
  have hsr : u.relocateOf h.toNat = s.relocateOf h.toNat := by rw [State.relocateOf, State.relocateOf, hu]
  have hrequest : requestBody h u = if r.circulation ≠ .shelved then (u, .only .state)
      else match s.relocateOf h.toNat with
        | some m => if m.state = .moving then (u, .only .busy) else (requestReel h.toNat u, .ok [])
        | none => if s.cab.freeEntry.isNone then (u, .only .full) else (requestReel h.toNat u, .ok []) := by
    rw [← hsr, ← hu]; exact withReel_reel hh hru
  have hcancel : cancelBody h u = match s.cab.moveOf h.toNat with
      | some m => if r.circulation = .outbound ∧ m.kind = .fetchOut ∧ m.state = .queued then
          (refreshCab (backToShelved h.toNat (drain (u.setCab (s.cab.removeMove m.entry)))), .ok [])
        else (u, .only .state)
      | none => (u, .only .state) := by
    rw [← hu]; exact withReel_reel hh hru
  have hfetched : ∀ {c : Cab} {e : Nat}, requestBody h u = (requestReel h.toNat u, .ok []) →
      (createFetchOut h.toNat u).cab = { c with moves := c.moves ++ [⟨e, .fetchOut, h.toNat, r.location, none, .queued⟩] } →
      c.eligible = s.cab.eligible → c.isoFull = s.cab.isoFull → fetched c e := by
    intro c e hb hcab he hf
    exact exec_settled (v := (createFetchOut h.toNat u).circulate h.toNat .outbound) (events := fun _ => []) rfl hserved hb
      (by simp [State.circulate, u]) ((createFetchOut_reel hru).modReel _) hcab he hf
      (.nil (by rw [State.circulate, State.modReel, State.setReg_alt, createFetchOut_alt])) rfl
  refine ⟨fun hcirc => ?_, fun hcirc m hm hkind => ⟨fun hmoving => ?_, fun hmoving => ?_⟩,
    fun hcirc hnone => ⟨fun hfull => ?_, fun e he => ?_⟩, fun m hm hcirc hkind hqueued => ?_, fun hno => ?_⟩
  · exact exec_of_same rfl hserved (hrequest.trans (if_pos hcirc))
  · have hrel : s.relocateOf h.toNat = some m := by simp [State.relocateOf, hm, hkind]
    exact exec_of_same rfl hserved (hrequest.trans (by rw [if_neg (not_not.mpr hcirc), hrel]; exact if_pos hmoving))
  · have hrel : s.relocateOf h.toNat = some m := by simp [State.relocateOf, hm, hkind]
    exact hfetched (hrequest.trans (by simp [hcirc, hrel, hmoving]))
      (by rw [createFetchOut_relocate hru (hsr.trans hrel), hu]) rfl rfl
  · have hrel := relocateOf_eq_none hnone
    exact exec_of_same rfl hserved (hrequest.trans (by rw [if_neg (not_not.mpr hcirc), hrel]; exact if_pos (by rw [hfull]; rfl)))
  · have hrel := relocateOf_eq_none hnone
    exact hfetched (hrequest.trans (by simp [hcirc, hrel, he]))
      (by rw [createFetchOut_free hru (hsr.trans hrel) (hu ▸ he), hu]) rfl rfl
  · intro c r'
    obtain ⟨hreel, hone⟩ := backToShelved_drain_spec hru c
    refine exec_of_body (v := refreshCab (backToShelved h.toNat (drain (u.setCab c)))) rfl hserved (hcancel.trans (by rw [hm]; exact if_pos ⟨hcirc, hkind, hqueued⟩)) (by simp)
      (by simp [u]) ⟨hreel.of_reg (by simp), fun hd => ?_⟩
    have hus : ∀ j, u.reel j = s.reel j := arrive_reel rq.port s
    obtain ⟨hcab, hl⟩ := hone ((drainedByOne_congr hus).mpr hd)
    rw [drainOne_congr c hus] at hcab
    rw [answer_cab, relocationEvents_refreshCab]
    obtain ⟨he, hi⟩ : (c.drainOne s).eligible = s.cab.eligible ∧ (c.drainOne s).isoFull = s.cab.isoFull :=
      drainOne_flags c s
    exact cabSettled_refreshCab hcab (by rw [hu]; split <;> simp [he])
      (by rw [hu]; split <;> simp [hi]) hl (by simp [u])
  · refine exec_of_same rfl hserved (hcancel.trans ?_)
    split
    · next m hm =>
      exact if_neg fun ⟨h1, h2, h3⟩ => by rcases hno m hm with h | h | h <;> contradiction
    · rfl

end Sys2Proof.Machine
end

section
/-! SUPPORT. RELEASE FORCE withdraws all work and dispatches (R15, R16). -/

namespace Sys2Proof.Machine

variable {s t u v : State}

/-! ### RELEASE FORCE (R15, R16) -/

theorem alertsGrow_raiseFor (p : Port) (e : Event) (s : State) : AlertsGrow s (raiseFor p e s) := fun q => by
  simp only [raiseFor, State.setAlt_alt, PerPort.get_set]
  split
  · next h => subst h; exact ⟨rfl, fun f hf => by simp [hf]⟩
  · exact ⟨rfl, fun _ h => h⟩

theorem AlertsGrow.of_latches {l : List Event} (h : Latches l s t) : AlertsGrow s t := fun p =>
  ⟨(h p).1, fun e he => by rw [(h p).2, he]; rfl⟩

theorem has_raiseFor (p : Port) (e : Event) : AlertSet.has ((raiseFor p e s).alt.get p).latched e = true := by
  simp [raiseFor]

theorem alertsGrow_voidClaim (s : State) (i : Nat) : AlertsGrow s (voidClaim s i) := by
  unfold voidClaim
  split
  · split
    · exact (AlertsGrow.of_eq (closeDamage_alt ..)).trans (alertsGrow_raiseFor _ _ _)
    · exact .refl s
  · exact .refl s

theorem read_closeDamage_ne {i j : Nat} (h : j ≠ i) (o : DamageOutcome) :
    (closeDamage o s i).rpq.damage.read j = s.rpq.damage.read j := by
  unfold closeDamage moveDamage
  split
  · rfl
  · simp [State.modReel, Table.read_write, h]

theorem read_voidClaim_ne {i j : Nat} (h : j ≠ i) : (voidClaim s i).rpq.damage.read j = s.rpq.damage.read j := by
  unfold voidClaim
  split
  · split
    · rw [raiseFor_rpq, read_closeDamage_ne h]
    · rfl
  · rfl

/-- R16: the port that holds a claim learns that it is void. -/
theorem has_claimVoided_foldl {l : List Nat} {i : Nat} {d : Damage} {p : Port} (hi : i ∈ l)
    (hd : s.rpq.damage.read i = some d) (hp : d.state = .claimed p) :
    AlertSet.has ((l.foldl voidClaim s).alt.get p).latched .claimVoided = true := by
  induction l generalizing s with
  | nil => cases hi
  | cons a l ih =>
    by_cases ha : i = a
    · subst ha
      have hvoid : voidClaim s i = raiseFor p .claimVoided (closeDamage .withdrawn s i) := by
        simp only [voidClaim, hd, hp]
      have hlatched : AlertSet.has ((voidClaim s i).alt.get p).latched .claimVoided = true := by
        rw [hvoid]; exact has_raiseFor ..
      exact ((AlertsGrow.foldl alertsGrow_voidClaim l (.refl _)) p).2 _ hlatched
    · exact ih ((List.mem_cons.mp hi).resolve_left ha) (by rw [read_voidClaim_ne ha, hd])

/-- What closes the QUEUED records leaves the CLAIMED ones. -/
theorem read_foldl_closeDamage {l : List Nat} {i : Nat} (h : i ∉ l) (o : DamageOutcome) (s : State) :
    (l.foldl (closeDamage o) s).rpq.damage.read i = s.rpq.damage.read i := by
  induction l generalizing s with
  | nil => rfl
  | cons a l ih =>
    obtain ⟨ha, hl⟩ := not_or.mp (mt List.mem_cons.mpr h)
    exact (ih hl _).trans (read_closeDamage_ne ha o)

theorem withdrawWork_cab (h : Nat) : (withdrawWork h s).cab = s.cab :=
  (kept_withdrawWork (l := [.reg, .rpq, .alt]) (by simp) (by simp) (by simp) h).mpr (.refl _ s) .cab (by simp)

theorem dispatchReel_rpq (h : Nat) : (dispatchReel h s).rpq = s.rpq :=
  (kept_dispatchReel (l := [.reg, .cab, .alt]) (by simp) (by simp) (by simp) h).mpr (.refl _ s) .rpq (by simp)

/-- R16, step 3: every claim on the reel is voided. -/
theorem has_claimVoided_withdrawWork {i : Nat} {d : Damage} {p : Port} (hw : s.rpq.damage.wf = true)
    (hd : s.rpq.damage.read i = some d) (hp : d.state = .claimed p) :
    AlertSet.has ((withdrawWork d.handle s).alt.get p).latched .claimVoided = true := by
  obtain ⟨v, hv⟩ : ∃ v, v = s.modReel d.handle (fun r => { r with rescan := [] }) := ⟨_, rfl⟩
  have hvr : v.rpq = s.rpq := by rw [hv]; rfl
  have hlists := fun cond => (damageBySeq_lists (s := v) (by rw [hvr]; exact hw) d.handle cond).2.1 i
  rw [hvr] at hlists
  have hclaimed := (hlists Damage.isClaimed).mpr ⟨d, hd, by simp [Damage.isClaimed, hp], rfl⟩
  have hqueued : i ∉ v.damageBySeq (fun x => x.handle == d.handle && x.isQueued) := fun h => by
    obtain ⟨x, hx, hxq, -⟩ := (hlists Damage.isQueued).mp h
    cases hd.symm.trans hx
    simp [Damage.isQueued, hp] at hxq
  simp only [withdrawWork, ← hv]
  exact has_claimVoided_foldl hclaimed (by rw [read_foldl_closeDamage hqueued, hvr, hd]) hp

theorem any_confirms {open_ : Option Confirmation} {h : Nat} :
    open_.any (Confirmation.confirms h) = true ↔ ∃ x, open_ = some x ∧ x.handle = h ∧ 0 < x.remaining := by
  cases open_ <;> simp [Confirmation.confirms]

/-- The dispatch of a reel: its record, the queued move and CAB's conditions, with no alert lost. -/
theorem dispatchReel_spec {h e : Nat} {r : Reel} (hr : s.reel h = some r) (he : s.cab.freeEntry = some e) :
    let t := dispatchReel h s
    OnlyReel h { r with circulation := .dispatching } s t ∧ AlertsGrow s t ∧ t.cab = { s.cab with
      moves := s.cab.moves ++ [⟨e, .dispatch, h, r.location, none, .queued⟩]
      eligible := t.eligibleNow, isoFull := t.isoFullNow } := by
  intro t
  obtain ⟨v, hv⟩ : ∃ v, v = (createMove h .dispatch s).circulate h .dispatching := ⟨_, rfl⟩
  obtain ⟨hreel, hcab, hl⟩ := createMove_circulate_spec hr he .dispatch .dispatching
  rw [← hv] at hreel hcab hl
  have ht : t = refreshCab v := by rw [hv]; rfl
  obtain ⟨heligible, hfull⟩ := refreshCab_eligibleNow (s := v)
  rw [ht]
  refine ⟨hreel.of_reg (by simp), (AlertsGrow.of_latches hl).trans ?_, by rw [refreshCab_cab, hcab, heligible, hfull]⟩
  exact AlertsGrow.raiseIf (AlertsGrow.raiseIf (.of_eq rfl) _ _) _ _

/-- Settles O43: the checks of `forceRelease`, then `withdrawWork_spec` and `dispatchReel_spec`. -/
theorem forceReleaseTakesTwoRequests : Obligations.ForceReleaseTakesTwoRequests := by
  unfold Obligations.ForceReleaseTakesTwoRequests
  intro rq s h r hserved hh hr c u listed confirming refused
  have hru : u.reel h.toNat = some r := (arrive_reel ..).trans hr
  have hu : u.cab = s.cab := arrive_cab _
  have hbody : forceRelease rq.port (s.reg.confirm.get rq.port) h.toNat u =
      if r.circulation ≠ .shelved then (u, .only .state)
      else if r.relocation then (u, .only .busy)
      else if (s.reg.confirm.get rq.port).any (Confirmation.confirms h.toNat) then
        if s.cab.freeEntry.isNone then (u, .only .full) else (dispatchReel h.toNat (withdrawWork h.toNat u), .ok [])
      else (u.setReg { u.reg with confirm := u.reg.confirm.set rq.port (some ⟨h.toNat, Config.confirmMs⟩) },
        .only .confirm) := by
    rw [← hu]; exact withReel_reel hh hru
  have hrefuse : ∀ {st}, forceRelease rq.port (s.reg.confirm.get rq.port) h.toNat u = (u, .only st) → refused st :=
    fun hb => exec_of_same rfl hserved hb
  refine ⟨fun hcirc => hrefuse ?_, fun hcirc hrel => hrefuse ?_, fun hcirc hrel hopen => ?_,
    fun hcirc hrel hopen hfull => hrefuse ?_, fun hcirc hrel hopen hcanonical e he => ?_⟩
  · rw [hbody, if_pos hcirc]
  · rw [hbody, if_neg (not_not.mpr hcirc), if_pos hrel]
  · refine exec_of_body (v := u.setReg { u.reg with confirm := u.reg.confirm.set rq.port (some ⟨h.toNat, Config.confirmMs⟩) })
      rfl hserved (hbody.trans ?_) (by simp) (by simp [u]) ?_
    · rw [if_neg (not_not.mpr hcirc), if_neg (ne_true_of_eq_false hrel), if_neg (fun h => hopen (any_confirms.mp h))]
      rfl
    · simp [u, Config.confirmMs]
  · rw [hbody, if_neg (not_not.mpr hcirc), if_neg (ne_true_of_eq_false hrel), if_pos (any_confirms.mpr hopen),
      if_pos (by simp [hfull])]
  · obtain ⟨-, hw, -⟩ := hcanonical
    have hur : u.rpq = s.rpq := arrive_rpq _
    obtain ⟨w, hwdef⟩ : ∃ w, w = withdrawWork h.toNat u := ⟨_, rfl⟩
    obtain ⟨q, k, hq, hk, hread, hrpq, hclaims, hconfirm, hreels⟩ :=
      withdrawWork_spec h.toNat (s := u) (by rw [hur]; exact hw)
    rw [← hwdef] at hread hrpq hclaims hconfirm hreels
    have hwcab : w.cab = s.cab := by rw [hwdef, withdrawWork_cab, hu]
    obtain ⟨⟨hreel, hothers, hconf⟩, hgrow, hcab⟩ := dispatchReel_spec (s := w) (e := e)
      (by rw [hreels, if_pos rfl, hru]; rfl) (by rw [hwcab]; exact he)
    refine exec_of_body (v := dispatchReel h.toNat w) rfl hserved (hbody.trans ?_) (by simp) (by simp [u, hwdef]) ?_
    · rw [if_neg (not_not.mpr hcirc), if_neg (ne_true_of_eq_false hrel), if_pos (any_confirms.mpr hopen),
        if_neg (by simp [he]), hwdef]
      rfl
    · have hlisted : ∀ cond, listed (u.damageBySeq (fun d => d.handle == h.toNat && cond d)) cond := fun cond => by
        have hlists := damageBySeq_lists (s := u) (hur ▸ hw) h.toNat cond
        rwa [hur] at hlists
      rw [hur] at hread hrpq hclaims
      refine ⟨?_, fun j hj => ?_, fun i => ?_, ⟨q, k, hq ▸ hlisted Damage.isQueued,
        hk ▸ hlisted Damage.isClaimed, ?_, fun p => ?_, _, hreel, rfl, fun h1 h2 => ?_⟩, fun i d p hd hdh hp => ?_, ?_⟩
      · exact hconf.trans (hconfirm.trans (by simp [u]))
      · exact (hothers j hj).trans ((hreels j).trans ((if_neg hj).trans (arrive_reel ..)))
      · rw [answer_rpq, dispatchReel_rpq]; exact hread i
      · rw [answer_rpq, dispatchReel_rpq]; exact hrpq
      · rw [answer_rpq, dispatchReel_rpq]; exact hclaims p
      · simp [h1, h2]
      · refine (hgrow p).2 _ ?_
        rw [hwdef, ← hdh]
        exact has_claimVoided_withdrawWork (hur ▸ hw) (by rw [hur, hd]) hp
      · rw [answer_cab, hcab, hwcab]; rfl

end Sys2Proof.Machine
end

section
/-! SUPPORT. What the transport, the light and the frame record queue keep (R22, R24, R34, R36): the conditions of O7, O8 and
O9, kept by every operation of the part and so by every step. -/

namespace Sys2Proof.Machine

variable {s t u : State}

/-! ### The three conditions, of the items they speak of -/

/-- `TransportCoherent`, of the four items of TRC it speaks of. -/
def Coheres (st : TransportState) (handle : Option Nat) (fault : Option FaultCause) (holds : HoldSet) : Prop :=
  (st = .unthreaded ↔ handle = none) ∧ (st = .fault ↔ fault ≠ none) ∧
    (st = .scanning ∨ st = .backup → holds = .empty) ∧ (st = .hold → holds ≠ .empty)

theorem transportCoherent_iff (s : State) :
    TransportCoherent s ↔ Coheres s.trc.state s.trc.handle s.trc.fault s.trc.holds := Iff.rfl

/-- A reel stands or moves on the transport, and no fault: the states of motion can be entered. -/
def Trc.Running (x : Trc) : Prop := x.handle ≠ none ∧ x.fault = none

/-- A state that is neither UNTHREADED nor FAULT has a reel and no fault. -/
theorem TransportCoherent.running (h : TransportCoherent s) (hu : s.trc.state ≠ .unthreaded) (hf : s.trc.state ≠ .fault) :
    s.trc.Running := ⟨fun hh => hu (h.1.mpr hh), not_not.mp fun hn => hf (h.2.1.mpr hn)⟩

/-- The states entered with a reel and without a fault, that ask nothing of the hold causes. -/
theorem Trc.Running.coheres {x : Trc} (h : x.Running) {st : TransportState} (holds : HoldSet)
    (hst : st = .threaded ∨ st = .inching ∨ st = .shuttle) : Coheres st x.handle x.fault holds := by
  obtain ⟨hh, hf⟩ := h
  rcases hst with rfl | rfl | rfl <;> simp [Coheres, hh, hf]

/-- SCANNING and BACKUP are entered with no hold cause. -/
theorem Trc.Running.coheres_moving {x : Trc} (h : x.Running) {st : TransportState} (hst : st = .scanning ∨ st = .backup) :
    Coheres st x.handle x.fault .empty := by
  obtain ⟨hh, hf⟩ := h
  rcases hst with rfl | rfl <;> simp [Coheres, hh, hf]

/-- HOLD is entered with a hold cause. -/
theorem Trc.Running.coheres_hold {x : Trc} (h : x.Running) {holds : HoldSet} (hne : holds ≠ .empty) :
    Coheres .hold x.handle x.fault holds := by
  obtain ⟨hh, hf⟩ := h
  simp [Coheres, hh, hf, hne]

theorem HoldSet.put_true_ne_empty (x : HoldSet) (c : HoldCause) : x.put c true ≠ .empty := by
  cases c <;> simp [HoldSet.put, HoldSet.empty]

theorem HoldSet.isEmpty_iff (x : HoldSet) : x.isEmpty = true ↔ x = .empty := by
  rcases x with ⟨_ | _, _ | _, _ | _⟩ <;> decide

theorem HoldSet.has_empty (c : HoldCause) : HoldSet.empty.has c = false := by cases c <;> rfl

/-- The items of TRC the three conditions speak of. -/
def Trc.standing (x : Trc) : TransportState × Option Nat × Option FaultCause × HoldSet × Nat × Bool :=
  (x.state, x.handle, x.fault, x.holds, x.light, x.gateHot)

/-- The room the frames of FCU take, queued and open. -/
def Fcu.load (x : Fcu) : Nat := x.queue.length + x.openCount

theorem queueBounded_iff (s : State) : QueueBounded s ↔
    s.fcu.load ≤ 31 ∧ (30 ≤ s.fcu.queue.length → s.trc.holds.backpressure = true) := Iff.rfl

/-- R24: the bound of LIGHT_HOLD, the one setting the film standing in the gate is lit by (Table 2-4). -/
def HoldLightBounded (s : State) : Prop := s.setting Setting.lightHold ≤ 204

theorem SettingsInRange.holdLightBounded (h : SettingsInRange s) : HoldLightBounded s := by
  obtain ⟨v, hv, ha⟩ := h ⟨19, 150, .span 0 204⟩ (by simp [settingRows])
  have hle : v ≤ 204 := by simpa [SettingRange.admits] using ha
  simpa [HoldLightBounded, State.setting, hv] using hle

/-- The level of every state but SCANNING is LIGHT_HOLD or 0, and 0 while GATE_HOT is active (R24). -/
theorem lightLevel_safe (h : HoldLightBounded s) :
    (s.trc.gateHot = true → s.lightLevel = 0) ∧ (s.trc.state ≠ .scanning → s.lightLevel ≤ 204) := by
  unfold HoldLightBounded at h
  refine ⟨fun hg => by simp [State.lightLevel, hg], fun hs => ?_⟩
  unfold State.lightLevel
  split
  · simp
  · split
    · contradiction
    · split <;> simp [h]
    · split <;> simp [h]
    · split <;> simp [h]
    all_goals simp

@[simp] theorem clearSplices_trc : (clearSplices s).trc = { s.trc with spliceQueue := [], inZone := false } := rfl

/-! ### Keeping them -/

/-- The blocks with no part in the three conditions. -/
abbrev idleBlocks : List Block := [.reg, .pru, .dsu, .rpq, .sht, .cab, .spt, .alt, .tmb, .out, .pending]

/-- What happened between `s` and `t` keeps the transport coherent and the frame record queue bounded, and LIGHT_HOLD in its
range. -/
structure KeepsCourse (s t : State) : Prop where
  bounded : HoldLightBounded s → HoldLightBounded t
  coherent : TransportCoherent s → TransportCoherent t
  queue : TransportCoherent s → QueueBounded s → QueueBounded t

/-- It keeps the light safe as well. -/
structure KeepsSafe (s t : State) : Prop extends KeepsCourse s t where
  light : HoldLightBounded s → LightSafe s → LightSafe t

namespace KeepsCourse

theorem trans (h : KeepsCourse s t) (k : KeepsCourse t u) : KeepsCourse s u where
  bounded := k.bounded ∘ h.bounded
  coherent := k.coherent ∘ h.coherent
  queue hc := k.queue (h.coherent hc) ∘ h.queue hc

/-- The level set anew makes the light safe, whatever it was. -/
theorem refreshLight (h : KeepsCourse s t) : KeepsSafe s (refreshLight t) where
  bounded hs := by simpa [HoldLightBounded] using h.bounded hs
  coherent hs := by simpa [transportCoherent_iff] using h.coherent hs
  queue hc hs := by simpa [queueBounded_iff] using h.queue hc hs
  light hs _ := by simpa [LightSafe] using lightLevel_safe (h.bounded hs)

end KeepsCourse

namespace KeepsSafe

theorem refl (s : State) : KeepsSafe s s := ⟨⟨id, id, fun _ => id⟩, fun _ => id⟩

theorem trans (h : KeepsSafe s t) (k : KeepsSafe t u) : KeepsSafe s u :=
  ⟨h.toKeepsCourse.trans k.toKeepsCourse, fun hs => k.light (h.bounded hs) ∘ h.light hs⟩

theorem ite {c : Prop} [Decidable c] (ht : KeepsSafe s t) (hu : KeepsSafe s u) : KeepsSafe s (if c then t else u) := by
  split
  · exact ht
  · exact hu

/-- A change that leaves the conditions' items of TRC, the settings and the queue as they were, and opens no context. -/
theorem same (h : KeepsSafe s t) (ht : u.trc.standing = t.trc.standing) (hc : u.cfg = t.cfg)
    (hq : u.fcu.queue.length = t.fcu.queue.length) (ho : u.fcu.openCount ≤ t.fcu.openCount) : KeepsSafe s u := by
  simp only [Trc.standing, Prod.mk.injEq] at ht
  obtain ⟨hstate, hhandle, hfault, hholds, hlight, hhot⟩ := ht
  refine ⟨⟨fun hs => ?_, fun hs => ?_, fun hs hb => ?_⟩, fun hs hl => ?_⟩
  · simpa [HoldLightBounded, State.setting, hc] using h.bounded hs
  · simpa [transportCoherent_iff, hstate, hhandle, hfault, hholds] using h.coherent hs
  · obtain ⟨hload, hpressure⟩ := h.queue hs hb
    exact ⟨(Nat.add_le_add hq.le ho).trans hload, by simpa [hq, hholds] using hpressure⟩
  · simpa [LightSafe, hstate, hlight, hhot] using h.light hs hl

/-- Any change of the idle blocks. -/
theorem idle (h : KeepsSafe s t) (k : Kept idleBlocks t u) : KeepsSafe s u := by
  have ht : u.trc = t.trc := k .trc (by simp)
  have hf : u.fcu = t.fcu := k .fcu (by simp)
  exact h.same (by rw [ht]) (k .cfg (by simp)) (by rw [hf]) (hf ▸ le_rfl)

/-- A change of TRC that leaves the conditions' items as they were, with any change of the idle blocks. -/
theorem standing (h : KeepsSafe s t) (k : Kept (.trc :: idleBlocks) t u) (ht : u.trc.standing = t.trc.standing) :
    KeepsSafe s u := by
  have hf : u.fcu = t.fcu := k .fcu (by simp)
  exact h.same ht (k .cfg (by simp)) (by rw [hf]) (hf ▸ le_rfl)

theorem setTrc (h : KeepsSafe s t) {x : Trc} (hx : x.standing = t.trc.standing := by rfl) : KeepsSafe s (t.setTrc x) :=
  h.standing (by simp) hx

theorem setFcu (h : KeepsSafe s t) {x : Fcu} (hq : x.queue.length = t.fcu.queue.length := by rfl)
    (ho : x.openCount ≤ t.fcu.openCount := by rfl) : KeepsSafe s (t.setFcu x) := h.same rfl rfl hq ho

theorem refreshCapstan (h : KeepsSafe s t) : KeepsSafe s (refreshCapstan t) :=
  h.standing (by simp) (by simp [Trc.standing])

theorem clearSplices (h : KeepsSafe s t) : KeepsSafe s (clearSplices t) := h.standing (by simp) rfl

theorem testZones (h : KeepsSafe s t) : KeepsSafe s (testZones t) := refreshCapstan (setTrc h)

theorem headReport (h : KeepsSafe s t) : KeepsSafe s (headReport t) :=
  h.standing (by simp) (by unfold Machine.headReport; dsimp only; split <;> rfl)

end KeepsSafe

/-! ### Entering a state -/

/-- R24: the level of the state entered is a safe one. -/
theorem lightSafe_enter (st : TransportState) (h : HoldLightBounded s) : LightSafe (enter st s) := by
  have hh : s.setting Setting.lightHold ≤ 204 := h
  refine ⟨fun hg => ?_, fun hs => ?_⟩
  · rw [enter_light, if_pos (by simpa using hg)]
  · rw [enter_state] at hs
    rw [enter_light]
    split
    · simp
    · cases st with
      | scanning => exact absurd rfl hs
      | threaded | inching | hold => exact hh
      | unthreaded | shuttle | backup | fault => exact Nat.zero_le _

namespace KeepsSafe

/-- A state entered with a handle, a fault cause and hold causes that agree with it. -/
theorem enter (st : TransportState) (hb : HoldLightBounded s → HoldLightBounded t)
    (hc : TransportCoherent s → Coheres st t.trc.handle t.trc.fault t.trc.holds)
    (hq : TransportCoherent s → QueueBounded s → QueueBounded t) : KeepsSafe s (enter st t) where
  bounded hs := by simpa [HoldLightBounded] using hb hs
  coherent hs := by simpa [transportCoherent_iff] using hc hs
  queue hs hl := by simpa [queueBounded_iff] using hq hs hl
  light hs _ := lightSafe_enter st (hb hs)

/-- THREADED, INCHING or SHUTTLE entered with a reel and without a fault. -/
theorem enterRunning (h : KeepsSafe s t) (hrun : TransportCoherent s → t.trc.Running) {st : TransportState}
    (hst : st = .threaded ∨ st = .inching ∨ st = .shuttle) : KeepsSafe s (Machine.enter st t) :=
  enter st h.bounded (fun hs => (hrun hs).coheres _ hst) h.queue

end KeepsSafe

/-! ### Hold causes (R34, R36) -/

theorem addHold_holds (c : HoldCause) : (addHold c s).trc.holds = s.trc.holds.put c true := by
  unfold addHold
  split
  · next h =>
    obtain ⟨⟨b, g, o⟩, hs⟩ : ∃ x, x = s.trc.holds := ⟨_, rfl⟩
    rw [← hs] at h ⊢
    cases c <;> simp only [HoldSet.has] at h <;> subst h <;> rfl
  · dsimp only
    split <;> simp

@[simp] theorem addHold_running (c : HoldCause) : (addHold c s).trc.Running ↔ s.trc.Running := by
  unfold addHold
  dsimp only
  (repeat' split) <;> simp [Trc.Running]

/-- R34: a hold cause added leaves the transport coherent: a moving film goes to HOLD. -/
theorem transportCoherent_addHold (c : HoldCause) (h : TransportCoherent s) : TransportCoherent (addHold c s) := by
  unfold addHold
  split
  · exact h
  · have hne : s.trc.holds.put c true ≠ .empty := s.trc.holds.put_true_ne_empty c
    dsimp only
    split
    · next hst =>
      have hrun : s.trc.Running := by rcases hst with hst | hst <;> exact h.running (by simp [hst]) (by simp [hst])
      simpa [transportCoherent_iff] using hrun.coheres_hold hne
    · next hst => exact ⟨h.1, h.2.1, fun hm => absurd hm hst, fun _ => hne⟩

/-- R36: a hold cause removed leaves the transport coherent: the last one of a held film starts the backup. -/
theorem transportCoherent_removeHold (c : HoldCause) (h : TransportCoherent s) :
    TransportCoherent (removeHold c s) := by
  unfold removeHold
  split
  · next hhas =>
    dsimp only
    split
    · next hst =>
      have hrun : s.trc.Running := h.running (by simp [hst.2]) (by simp [hst.2])
      have hempty : s.trc.holds.put c false = .empty := (HoldSet.isEmpty_iff _).mp hst.1
      simpa [transportCoherent_iff, startBackup, hempty] using hrun.coheres_moving (.inr rfl)
    · next hst =>
      refine ⟨h.1, h.2.1, fun hm => ?_, fun hh hempty => hst ⟨(HoldSet.isEmpty_iff _).mpr hempty, hh⟩⟩
      rw [h.2.2.1 hm, HoldSet.has_empty] at hhas
      cases hhas
  · exact h

namespace KeepsCourse

theorem addHold (h : KeepsCourse s t) (c : HoldCause) : KeepsCourse s (addHold c t) where
  bounded hs := by simpa [HoldLightBounded] using h.bounded hs
  coherent hs := transportCoherent_addHold c (h.coherent hs)
  queue hs hb := by
    obtain ⟨hload, hpressure⟩ := h.queue hs hb
    refine ⟨by simpa using hload, fun hl => ?_⟩
    have hp := hpressure (by simpa using hl)
    rw [addHold_holds]
    cases c <;> simp [HoldSet.put, hp]

/-- A hold cause removed; BACKPRESSURE where the queue is short of 30 records. -/
theorem removeHold (h : KeepsCourse s t) {c : HoldCause} (hc : c = .backpressure → t.fcu.queue.length < 30) :
    KeepsCourse s (removeHold c t) where
  bounded hs := by simpa [HoldLightBounded] using h.bounded hs
  coherent hs := transportCoherent_removeHold c (h.coherent hs)
  queue hs hb := by
    obtain ⟨hload, hpressure⟩ := h.queue hs hb
    refine ⟨by simpa using hload, fun hl => ?_⟩
    replace hl : 30 ≤ t.fcu.queue.length := by simpa using hl
    have hput : (t.trc.holds.put c false).backpressure = true := by
      cases c with
      | backpressure => exact absurd (hc rfl) (by omega)
      | gateHot | operator => exact hpressure hl
    unfold Machine.removeHold
    split
    · dsimp only
      split
      · simpa [startBackup] using hput
      · exact hput
    · exact hpressure hl

end KeepsCourse

theorem lightSafe_addHold (c : HoldCause) (hb : HoldLightBounded s) (h : LightSafe s) : LightSafe (addHold c s) := by
  unfold addHold
  dsimp only
  (repeat' split)
  · exact h
  · exact lightSafe_enter (s := s.setTrc { s.trc with holds := s.trc.holds.put c true }) .hold hb
  · exact h

theorem lightSafe_removeHold (c : HoldCause) (hb : HoldLightBounded s) (h : LightSafe s) : LightSafe (removeHold c s) := by
  unfold removeHold startBackup
  dsimp only
  (repeat' split)
  · exact lightSafe_enter .backup hb
  · exact h
  · exact h

namespace KeepsSafe

theorem addHold (h : KeepsSafe s t) (c : HoldCause) : KeepsSafe s (addHold c t) :=
  ⟨h.toKeepsCourse.addHold c, fun hs hl => lightSafe_addHold c (h.bounded hs) (h.light hs hl)⟩

theorem removeHold (h : KeepsSafe s t) {c : HoldCause} (hc : c = .backpressure → t.fcu.queue.length < 30) :
    KeepsSafe s (removeHold c t) :=
  ⟨h.toKeepsCourse.removeHold hc, fun hs hl => lightSafe_removeHold c (h.bounded hs) (h.light hs hl)⟩

/-! ### Commits, the entry into THREADED, the end of a run (R32, R62, R66, R67) -/

end KeepsSafe

@[simp] theorem refreshCapstan_standing : (refreshCapstan s).trc.standing = s.trc.standing := by simp [Trc.standing]

@[simp] theorem applyCommit_standing (place : Option Mark) : (applyCommit place s).trc.standing = s.trc.standing := by
  unfold applyCommit
  dsimp only
  split
  · simp
  · rw [refreshCapstan_standing]
    split <;> simp

@[simp] theorem correction_standing (e edge : Int) (k : Nat) : (correction e edge k s).trc.standing = s.trc.standing := by
  simp [correction]

@[simp] theorem adaptStep_standing (k : Nat) (edge : Option (Int × Int)) :
    (adaptStep k edge s).trc.standing = s.trc.standing := by
  unfold adaptStep
  (repeat' split) <;> simp

@[simp] theorem commitAtLine_standing (m : Mark) : (commitAtLine m s).2.trc.standing = s.trc.standing := by
  unfold commitAtLine
  dsimp only
  split <;> simp

theorem Trc.running_of_standing {x y : Trc} (h : x.standing = y.standing) : x.Running ↔ y.Running := by
  simp only [Trc.standing, Prod.mk.injEq] at h
  simp [Trc.Running, h.2.1, h.2.2.1]

namespace KeepsSafe

theorem applyCommit (h : KeepsSafe s t) (place : Option Mark) : KeepsSafe s (applyCommit place t) :=
  h.standing (by simp) (by simp)

theorem adaptStep (h : KeepsSafe s t) (k : Nat) (edge : Option (Int × Int)) : KeepsSafe s (adaptStep k edge t) :=
  h.standing (by simp) (by simp)

theorem commitAtLine (h : KeepsSafe s t) (m : Mark) : KeepsSafe s (commitAtLine m t).2 :=
  h.standing (by simp) (by simp)

theorem applyPending (h : KeepsSafe s t) : KeepsSafe s (applyPending t) := ite (h.applyCommit _) h

theorem enterThreaded (h : KeepsSafe s t) (hrun : TransportCoherent s → t.trc.Running) :
    KeepsSafe s (enterThreaded t) := (h.enterRunning hrun (.inl rfl)).applyPending

theorem stopRun (h : KeepsSafe s t) (hrun : TransportCoherent s → t.trc.Running) : KeepsSafe s (stopRun t) :=
  applyPending (enter .threaded (t := Machine.clearSplices (t.setTrc { t.trc with holds := t.trc.holds.put .operator false }))
    h.bounded (fun hs => (hrun hs).coheres _ (.inl rfl)) h.queue)

end KeepsSafe

/-! ### Frame contexts and frame records (chapter 4) -/

/-- One context set: the number of OPEN contexts before and after. -/
theorem openCount_set (x : Fcu) (c : CtxId) (y : Option Ctx) :
    ({ x with ctx := x.ctx.set c y } : Fcu).openCount + (if (x.ctx.get c).isSome then 1 else 0) =
      x.openCount + (if y.isSome then 1 else 0) := by
  unfold Fcu.openCount
  cases c with
  | c0 => exact Nat.add_right_comm _ _ _ |>.trans (congrArg (· + _) (Nat.add_comm _ _)) |>.trans (Nat.add_right_comm _ _ _)
  | c1 => exact Nat.add_right_comm _ _ _

theorem openCount_free (x : Fcu) {c : CtxId} (h : (x.ctx.get c).isSome = true) :
    ({ x with ctx := x.ctx.set c none } : Fcu).openCount + 1 = x.openCount := by
  simpa [h] using openCount_set x c none

theorem openCount_free_le (x : Fcu) (c : CtxId) : ({ x with ctx := x.ctx.set c none } : Fcu).openCount ≤ x.openCount := by
  simpa using Nat.le_of_add_right_le (openCount_set x c none).le

theorem Two.get_set_other {α : Type} (v : Two α) (c : CtxId) (x : α) : (v.set c.other x).get c = v.get c := by
  cases c <;> rfl

theorem freeCtx_free {x : Fcu} {c : CtxId} (h : x.freeCtx = some c) : x.ctx.get c = none := by
  unfold Fcu.freeCtx at h
  split at h
  · next h0 => cases h; exact Option.isNone_iff_eq_none.mp h0
  · split at h
    · next h1 => cases h; exact Option.isNone_iff_eq_none.mp h1
    · cases h

@[simp] theorem appendRecord_running (x : FrameRecord) : (appendRecord x s).trc.Running ↔ s.trc.Running := by
  unfold appendRecord
  dsimp only
  split <;> simp

@[simp] theorem appendRecord_ctx (x : FrameRecord) : (appendRecord x s).fcu.ctx = s.fcu.ctx := by
  unfold appendRecord
  dsimp only
  split <;> simp

/-- R80: steps 1 to 6 of a close work on idle blocks, the context becomes FREE, and step 7 appends the record. -/
theorem closeCtx_appends {c : CtxId} {x : Ctx} (hx : s.fcu.ctx.get c = some x) (complete : Bool) :
    ∃ r v, Kept idleBlocks s v ∧ closeCtx c complete s = appendRecord r (v.setCtx c none) := by
  unfold closeCtx
  rw [hx]
  exact ⟨_, _, by simp, rfl⟩

@[simp] theorem closeCtx_running (c : CtxId) (complete : Bool) : (closeCtx c complete s).trc.Running ↔ s.trc.Running := by
  cases hx : s.fcu.ctx.get c with
  | none => simp [closeCtx, hx]
  | some x =>
    obtain ⟨r, v, hk, he⟩ := closeCtx_appends hx complete
    have hv : v.trc = s.trc := hk .trc (by simp)
    simp [he, hv]

/-- The close of a context leaves the other one. -/
theorem closeCtx_other (c : CtxId) (complete : Bool) :
    (closeCtx c.other complete s).fcu.ctx.get c = s.fcu.ctx.get c := by
  cases hx : s.fcu.ctx.get c.other with
  | none => simp [closeCtx, hx]
  | some x =>
    obtain ⟨r, v, hk, he⟩ := closeCtx_appends hx complete
    have hv : v.fcu = s.fcu := hk .fcu (by simp)
    simp [he, hv, State.setCtx, Two.get_set_other]

@[simp] theorem captureLine_running (c : CtxId) (x : LineReport) : (captureLine c x s).trc.Running ↔ s.trc.Running := by
  unfold captureLine
  extract_lets same t
  have ht : t.trc.Running ↔ s.trc.Running := by
    unfold t
    split <;> simp
  split
  · simpa using ht
  · exact ht

namespace KeepsSafe

theorem freeCtx (h : KeepsSafe s t) (c : CtxId) : KeepsSafe s (t.setCtx c none) :=
  setFcu (x := { t.fcu with ctx := t.fcu.ctx.set c none }) h rfl (openCount_free_le ..)

/-- R34, R82: the record of a frame that closes has room, and the 30th stands with BACKPRESSURE. -/
theorem appendRecord (h : KeepsSafe s t) (hroom : TransportCoherent s → QueueBounded s → t.fcu.load ≤ 30)
    (x : FrameRecord) : KeepsSafe s (appendRecord x t) := by
  obtain ⟨u, hu⟩ : ∃ u, u = Machine.raiseIf t.fcu.queue.isEmpty .framesWaiting
    (t.setFcu { t.fcu with queue := t.fcu.queue ++ [x] }) := ⟨_, rfl⟩
  have htrc : u.trc = t.trc := by simp [hu]
  have hcfg : u.cfg = t.cfg := by simp [hu]
  have hlen : u.fcu.queue.length = t.fcu.queue.length + 1 := by simp [hu]
  have hopen : u.fcu.openCount = t.fcu.openCount := by simp [hu, Fcu.openCount]
  have hb : HoldLightBounded s → HoldLightBounded u := fun hs => by
    simpa [HoldLightBounded, State.setting, hcfg] using h.bounded hs
  have hc : TransportCoherent s → TransportCoherent u := fun hs => by
    simpa [transportCoherent_iff, htrc] using h.coherent hs
  have hl : HoldLightBounded s → LightSafe s → LightSafe u := fun hs hl => by
    simpa [LightSafe, htrc] using h.light hs hl
  have hload : TransportCoherent s → QueueBounded s → u.fcu.load ≤ 31 := fun hs hq => by
    have := hroom hs hq
    simp only [Fcu.load] at *
    omega
  have ha : Machine.appendRecord x t = if 30 ≤ u.fcu.queue.length then Machine.addHold .backpressure u else u := by
    rw [hu]; rfl
  rw [ha]
  split
  · refine ⟨⟨fun hs => ?_, fun hs => transportCoherent_addHold _ (hc hs), fun hs hq => ⟨?_, fun _ => ?_⟩⟩,
      fun hs hq => lightSafe_addHold _ (hb hs) (hl hs hq)⟩
    · simpa [HoldLightBounded] using hb hs
    · rw [addHold_fcu]; exact hload hs hq
    · rw [addHold_holds]; rfl
  · next hlt => exact ⟨⟨hb, hc, fun hs hq => ⟨hload hs hq, fun hle => absurd hle hlt⟩⟩, hl⟩

/-- R80: a context that closes leaves its room to its record. -/
theorem closeCtx (h : KeepsSafe s t) (c : CtxId) (complete : Bool) : KeepsSafe s (closeCtx c complete t) := by
  cases hx : t.fcu.ctx.get c with
  | none => simpa [Machine.closeCtx, hx] using h
  | some x =>
    obtain ⟨r, v, hk, he⟩ := closeCtx_appends hx complete
    have hv : v.fcu = t.fcu := hk .fcu (by simp)
    have hopen := openCount_free v.fcu (c := c) (by simp [hv, hx])
    rw [he]
    refine appendRecord ((h.idle hk).freeCtx c) (fun hs hq => ?_) r
    have hload := ((h.idle hk).queue hs hq).1
    simp only [Fcu.load, State.setCtx, State.setFcu_fcu]
    omega

/-- R73: a context opens in SCANNING alone, where no hold cause is present, so that 29 records at most are queued. -/
theorem openCtx (h : KeepsSafe s t) (c : CtxId) (hst : t.trc.state = .scanning)
    (x : LineReport) : KeepsSafe s (openCtx c x t) := by
  have hfcu : ∃ y, (Machine.openCtx c x t).fcu.openCount = ({ t.fcu with ctx := t.fcu.ctx.set c (some y) } : Fcu).openCount :=
    ⟨_, rfl⟩
  obtain ⟨y, hy⟩ := hfcu
  have hopen := openCount_set t.fcu c (some y)
  have htwo : (Machine.openCtx c x t).fcu.openCount ≤ 2 := by
    unfold Fcu.openCount
    split <;> split <;> simp
  refine ⟨⟨h.bounded, h.coherent, fun hs hq => ?_⟩, h.light⟩
  have hholds : t.trc.holds = .empty := (h.coherent hs).2.2.1 (.inl hst)
  have hlen : t.fcu.queue.length < 30 := by
    by_contra hle
    have hp := (h.queue hs hq).2 (Nat.le_of_not_lt hle)
    rw [hholds] at hp
    cases hp
  exact ⟨show t.fcu.queue.length + _ ≤ 31 by omega, fun hle => absurd hle (Nat.not_le.mpr hlen)⟩

theorem captureLine (h : KeepsSafe s t) {c : CtxId} (hc : t.fcu.ctx.get c = none) (x : LineReport) :
    KeepsSafe s (captureLine c x t) := by
  unfold Machine.captureLine
  extract_lets same u
  have hu : KeepsSafe s u := ite (h.closeCtx _ _) h
  have hcu : u.fcu.ctx.get c = none := by
    unfold u
    split
    · rw [closeCtx_other, hc]
    · exact hc
  split
  · next hst => exact hu.openCtx c hst x
  · exact hu

theorem skipLine (h : KeepsSafe s t) (k : Nat) : KeepsSafe s (skipLine k t) :=
  idle (setFcu (h.idle (u := rescanThreaded ⟨k, k⟩ t) (by simp))
    (x := { (rescanThreaded ⟨k, k⟩ t).fcu with
      skips := min 255 ((rescanThreaded ⟨k, k⟩ t).fcu.skips + 1), nextFrame := k + 1 })) (by simp [Machine.skipLine])

theorem frameLimit (h : KeepsSafe s t) (hrun : TransportCoherent s → t.trc.Running) (k : Nat) :
    KeepsSafe s (frameLimit k t) := ite ((h.stopRun hrun).idle (by simp)) h

theorem takeLine (h : KeepsSafe s t) (hrun : TransportCoherent s → t.trc.Running) (x : LineReport) :
    KeepsSafe s (takeLine x t) := by
  have hg : KeepsSafe s (Machine.seekingGap x t) := h.idle (by simp)
  have hgrun : TransportCoherent s → (Machine.seekingGap x t).trc.Running := by simpa using hrun
  unfold Machine.takeLine
  split
  · split
    · exact (setFcu (h.idle (u := rescanThreaded ⟨x.frame, x.frame⟩ t) (by simp))).frameLimit (by simpa using hrun) _
    · exact h.frameLimit hrun _
  · dsimp only
    split
    · exact hg.frameLimit hgrun _
    · split
      · next c hc => exact (hg.captureLine (freeCtx_free hc) x).frameLimit (by simpa using hgrun) _
      · exact (hg.skipLine _).frameLimit (by simpa using hgrun) _

end KeepsSafe

end Sys2Proof.Machine
end

section
/-! SUPPORT. Rows, faults, frame lines and reports keep the conditions of O7, O8 and O9 (chapters 2 to 4). -/

namespace Sys2Proof.Machine

variable {s t u : State}

namespace KeepsSafe

/-! ### Rows and faults (R39, R77, R79) -/

theorem rowInOrder (h : KeepsSafe s t) {c : CtxId} {x : Ctx} (hx : t.fcu.ctx.get c = some x) (row : Nat)
    (ir visible : List (BitVec 16)) : KeepsSafe s (rowInOrder c x row ir visible t) := by
  unfold Machine.rowInOrder
  extract_lets v a _ b d
  have hb : KeepsSafe s b := h.idle (by simp [b, a])
  have hfcu : b.fcu = t.fcu := by simp [b, a]
  have hopen := openCount_set b.fcu c (some { x with nextRow := row + 1 })
  rw [hfcu, hx] at hopen
  have hd : KeepsSafe s d := hb.setFcu rfl (by rw [hfcu]; exact (Nat.add_right_cancel hopen).le)
  split
  · exact hd.closeCtx _ _
  · exact hd

theorem takeRowMessage (h : KeepsSafe s t) (k row : Nat) (ir visible : List (BitVec 16)) :
    KeepsSafe s (takeRowMessage k row ir visible t) := by
  unfold Machine.takeRowMessage
  split
  · exact h.setFcu
  · next c _ =>
    extract_lets d
    have hd : KeepsSafe s d := ite (h.closeCtx _ _) h
    split
    · exact hd
    · next x hx =>
      split
      · exact hd.rowInOrder hx ..
      · exact hd.closeCtx _ _

theorem abandonCtx (h : KeepsSafe s t) (c : CtxId) : KeepsSafe s (abandonCtx c t) := by
  unfold Machine.abandonCtx
  split
  · exact h
  · next x hx =>
    extract_lets a _ b
    have hb : KeepsSafe s b := h.idle (by simp [b, a])
    exact (hb.freeCtx c).idle (by simp)

/-- R39: FAULT is entered with a cause and with the reel that was there, the light at 0. -/
theorem enterFault (h : KeepsSafe s t) (cause : FaultCause) : KeepsSafe s (enterFault cause t) := by
  unfold Machine.enterFault
  split
  · exact h
  · next hst =>
    obtain ⟨hne, -⟩ := not_or.mp hst
    extract_lets _ a b d
    have hcoheres : TransportCoherent s → Coheres .fault a.trc.handle a.trc.fault a.trc.holds := fun hs => by
      have hhandle : a.trc.handle ≠ none := fun hh => hne ((h.coherent hs).1.mpr hh)
      simpa [Coheres, a] using hhandle
    have hb : KeepsSafe s b := enter .fault h.bounded hcoheres h.queue
    have hd : KeepsSafe s d := (hb.abandonCtx _).abandonCtx _
    exact hd.idle (by simp)

/-! ### Frame lines (chapter 3) -/

theorem reportLine (h : KeepsSafe s t) (hrun : TransportCoherent s → t.trc.Running) (m : Mark) (e : Option Int)
    (r : Bool) (f : Option Nat) : KeepsSafe s (reportLine m e r f t) := h.takeLine hrun _

theorem afterReport (h : KeepsSafe s t) (k : Nat) : KeepsSafe s (afterReport k t) := h.idle (by simp)

/-- The line of a film in SCANNING. -/
theorem completeLine (h : KeepsSafe s t) (hst : t.trc.state = .scanning) (k : Nat) (pk : Int) (edge : Option Int) :
    KeepsSafe s (completeLine k pk edge t) := by
  unfold Machine.completeLine
  extract_lets m e re _ a b d c
  have hkb : Kept idleBlocks t b := by
    unfold b
    clear_value e
    split
    · simp [a]
    · split <;> simp [a]
  have hb : KeepsSafe s b := h.idle hkb
  have htrc : b.trc = t.trc := hkb .trc (by simp)
  have hc : KeepsSafe s c.2 := (hb.adaptStep _ _).commitAtLine m
  have hstanding : c.2.trc.standing = t.trc.standing := by simp [c, d, htrc]
  have hrun : TransportCoherent s → c.2.trc.Running := fun hs =>
    (Trc.running_of_standing hstanding).mpr ((h.coherent hs).running (by simp [hst]) (by simp [hst]))
  exact (hc.reportLine hrun ..).afterReport k

theorem seekingEdge (h : KeepsSafe s t) (hst : t.trc.state = .scanning) (edge : Int) :
    KeepsSafe s (seekingEdge edge t) := by
  unfold Machine.seekingEdge
  extract_lets from_ m _ a c
  have hk : Kept idleBlocks t (reanchorAt m a) := by simp [a]
  have htrc : (reanchorAt m a).trc = t.trc := hk .trc (by simp)
  have hstanding : c.2.trc.standing = t.trc.standing := by rw [commitAtLine_standing, htrc]
  have hrun : TransportCoherent s → c.2.trc.Running := fun hs =>
    (Trc.running_of_standing hstanding).mpr ((h.coherent hs).running (by simp [hst]) (by simp [hst]))
  exact (((h.idle hk).commitAtLine m).reportLine hrun ..).afterReport _

theorem declareMissing (p : Int) : ∀ (n : Nat) {t : State}, KeepsSafe s t → KeepsSafe s (declareMissing n p t)
  | 0, _, h => h
  | n + 1, t, h => by
    unfold Machine.declareMissing
    split
    · exact h
    · split
      · next hst => exact declareMissing p n (h.completeLine hst.1 ..)
      · exact h

theorem takeEdge (h : KeepsSafe s t) (p : Int) : KeepsSafe s (takeEdge p t) := by
  unfold Machine.takeEdge
  split
  · exact h
  · next hst =>
    replace hst := not_not.mp hst
    split
    · exact h.seekingEdge hst p
    · split
      · exact h.idle (by simp)
      · split
        · exact h.idle (by simp)
        · exact h.completeLine hst ..

theorem takePassages (h : KeepsSafe s t) : KeepsSafe s (takePassages t) := by
  unfold Machine.takePassages
  split
  · exact h
  · dsimp only
    split
    · exact h
    · have hrest : KeepsSafe s (t.setTrc { t.trc with
          spliceQueue := t.trc.spliceQueue.filter fun x => !t.pastZone t.trc.position x }) := setTrc h
      exact testZones (hrest.idle (by simp))

/-! ### Reports of the head (chapter 2) -/

/-- R36: the end of a backup, which had no hold cause. -/
theorem resumeScanning (h : KeepsSafe s t) (hst : t.trc.state = .backup) : KeepsSafe s (resumeScanning t) := by
  have hrun : TransportCoherent s → t.trc.Running := fun hs => (h.coherent hs).running (by simp [hst]) (by simp [hst])
  have hholds : TransportCoherent s → t.trc.holds = .empty := fun hs => (h.coherent hs).2.2.1 (.inr hst)
  unfold Machine.resumeScanning
  extract_lets _ a b
  have hka : KeepsSafe s a := setTrc h
  have hb : KeepsSafe s b := ite hka (hka.idle (by simp))
  have htrc : b.trc = a.trc := by unfold b; split <;> simp
  refine enter .scanning hb.bounded (fun hs => ?_) hb.queue
  rw [htrc, show a.trc.holds = t.trc.holds from rfl, hholds hs]
  exact (hrun hs).coheres_moving (.inl rfl)

theorem takePosition (h : KeepsSafe s t) (p : Int) : KeepsSafe s (takePosition p t) := by
  unfold Machine.takePosition
  extract_lets _ a
  have ha : KeepsSafe s a := setTrc h
  split
  · next hst =>
    exact ite (ha.enterThreaded fun hs => (ha.coherent hs).running (by simp [hst]) (by simp [hst])) ha
  · next hst =>
    split
    · exact ite (ha.resumeScanning hst) ha
    · exact ha
  · exact (declareMissing p _ ha.testZones).takePassages
  · exact ha

theorem takeFrameLine (h : KeepsSafe s t) (p : Int) : KeepsSafe s (takeFrameLine p t) := by
  unfold Machine.takeFrameLine
  extract_lets _ a
  have ha : KeepsSafe s a := ite h (h.idle (by simp))
  exact ite ((declareMissing p _ ha).takeEdge p) ha

theorem takeSpliceEdge (h : KeepsSafe s t) (rising : Bool) (p : Int) : KeepsSafe s (takeSpliceEdge rising p t) :=
  ite (setTrc h) h

theorem takeTension (h : KeepsSafe s t) (gf : Nat) : KeepsSafe s (takeTension gf t) :=
  ite (h.enterFault _) (ite (h.enterFault _) (setTrc h))

/-- R41: GATE_HOT becomes active with the light still as it was; the same event sets it to 0. -/
theorem heatActive (h : KeepsSafe s t) : KeepsSafe s (heatActive t) :=
  have hset : KeepsCourse s (raise .gateHot (t.setTrc { t.trc with gateHot := true, gateDelay := none })) :=
    ⟨h.bounded, h.coherent, h.queue⟩
  (hset.addHold .gateHot).refreshLight

theorem heatClear (h : KeepsSafe s t) : KeepsSafe s (heatClear t) :=
  have hset : KeepsCourse s (t.setTrc { t.trc with gateHot := false }) := ⟨h.bounded, h.coherent, h.queue⟩
  (hset.removeHold (c := .gateHot) fun hc => by cases hc).refreshLight

theorem takeGateTemp (h : KeepsSafe s t) (temp : Nat) : KeepsSafe s (takeGateTemp temp t) := by
  unfold Machine.takeGateTemp
  split
  · exact ite h.heatClear h
  · split
    · split
      · exact h
      · exact ite h.heatActive (setTrc h)
    · exact setTrc h

/-! ### Ticks (R190) -/

theorem passMillis (h : KeepsSafe s t) (n : Nat) : KeepsSafe s (passMillis n t) :=
  h.same rfl rfl rfl (by simp [Machine.passMillis, Fcu.openCount])

theorem minuteTick (h : KeepsSafe s t) : KeepsSafe s (minuteTick t) := h.idle (by simp)

theorem secondTick (h : KeepsSafe s t) : KeepsSafe s (secondTick t) := h.idle (by simp [kept_secondTick])

theorem millisecondTick (h : KeepsSafe s t) : KeepsSafe s (millisecondTick t) :=
  ite ((h.passMillis 1).idle (by simp)) (h.passMillis 1).secondTick

/-! ### Settings (R189) -/

/-- The value of a setting replaced, LIGHT_HOLD by one of its range. -/
theorem putSetting (h : KeepsSafe s t) {i v : Nat} (hv : i = Setting.lightHold → v ≤ 204) :
    KeepsSafe s (t.putSetting i v) := by
  refine ⟨⟨fun hs => ?_, h.coherent, h.queue⟩, h.light⟩
  have hb := h.bounded hs
  simp only [HoldLightBounded, State.setting, State.putSetting, State.setCfg_cfg, Table.read_write] at hb ⊢
  split
  · next hi => exact hv hi.symm
  · exact hb

theorem storeSetting (h : KeepsSafe s t) {i v : Nat} (hv : i = Setting.lightHold → v ≤ 204) :
    KeepsSafe s (storeSetting i v t) := by
  have hp := h.putSetting hv
  unfold Machine.storeSetting
  dsimp only
  split
  · exact hp.idle (by simp)
  · exact ite hp.refreshCapstan hp

end KeepsSafe

/-- R189: what is stored for LIGHT_HOLD lies in its range. -/
theorem store_lightHold {i : Nat} {row : SettingRow} (h : settingRow i = some row) (v : Nat)
    (hi : row.index = Setting.lightHold) : row.range.store v ≤ 204 := by
  have hmem : row ∈ settingRows := List.mem_of_find?_eq_some h
  have hall : ∀ r ∈ settingRows, r.index = 19 → r.range = .span 0 204 := by decide
  rw [hall row hmem hi]
  simp only [SettingRange.store, clampNat]
  split <;> (try split) <;> omega

namespace KeepsSafe

theorem endPreload (h : KeepsSafe s t) (error : Bool) : KeepsSafe s (endPreload error t) := by
  have hend : KeepsSafe s (t.setCfg { t.cfg with running := false }) := ⟨⟨h.bounded, h.coherent, h.queue⟩, h.light⟩
  exact ite (hend.idle (by simp)) hend

theorem preloadStore (h : KeepsSafe s t) {i : Nat} {row : SettingRow} (hrow : settingRow i = some row) (v : Nat) :
    KeepsSafe s (preloadStore row v t) :=
  have hzero : KeepsSafe s (Machine.storeSetting row.index 0 t) := h.storeSetting fun _ => Nat.zero_le _
  ite (hzero.idle (by simp)) (h.storeSetting (store_lightHold hrow v))

theorem takePreloadValue (h : KeepsSafe s t) (offset index v : Nat) :
    KeepsSafe s (takePreloadValue offset index v t) := by
  have hoffset : KeepsSafe s (t.setCfg { t.cfg with offset := offset + 2 }) :=
    ⟨⟨h.bounded, h.coherent, h.queue⟩, h.light⟩
  refine ite h (ite (h.endPreload _) ?_)
  split
  · next hrow => exact hoffset.preloadStore hrow _
  · exact hoffset

end KeepsSafe
end Sys2Proof.Machine
end

section
/-! SUPPORT. Every command keeps the conditions of O7, O8 and O9. -/

namespace Sys2Proof.Machine

variable {s t u : State}

namespace KeepsSafe

/-! ### Motion (R26 to R32) -/

/-- A state entered with the settings, the hold causes and the frames of a state that keeps the conditions. -/
theorem enterFrom (h : KeepsSafe s t) (st : TransportState) (hcfg : u.cfg = t.cfg) (hholds : u.trc.holds = t.trc.holds)
    (hqueue : u.fcu.queue = t.fcu.queue) (hctx : u.fcu.ctx = t.fcu.ctx)
    (hc : TransportCoherent s → Coheres st u.trc.handle u.trc.fault t.trc.holds) : KeepsSafe s (Machine.enter st u) := by
  refine enter st (fun hs => ?_) (fun hs => hholds ▸ hc hs) (fun hs hq => ?_)
  · simpa [HoldLightBounded, State.setting, hcfg] using h.bounded hs
  · simpa [queueBounded_iff, Fcu.load, Fcu.openCount, hqueue, hctx, hholds] using h.queue hs hq

theorem refreshCab (h : KeepsSafe s t) : KeepsSafe s (refreshCab t) := h.idle (by simp)

/-- R51: a run is started with a reel, without a fault and without a hold cause. -/
theorem startScan (h : KeepsSafe s t) (hrun : TransportCoherent s → t.trc.Running) (hholds : t.trc.holds = .empty)
    (profile : Profile) (speed : Nat) : KeepsSafe s (startScan profile speed t) := by
  have hcoheres : TransportCoherent s → Coheres .scanning t.trc.handle t.trc.fault t.trc.holds := fun hs =>
    hholds ▸ (hrun hs).coheres_moving (.inl rfl)
  unfold Machine.startScan
  extract_lets _ a _ b c _ d
  have hk : Kept idleBlocks a c := by
    unfold c
    split <;> simp [b]
  have htrc : c.trc = a.trc := hk .trc (by simp)
  have hfcu : c.fcu = a.fcu := hk .fcu (by simp)
  have hcfg : c.cfg = a.cfg := hk .cfg (by simp)
  have hholds : c.trc.holds = a.trc.holds := by rw [htrc]
  have hqueue : c.fcu.queue = a.fcu.queue := by rw [hfcu]
  have hctx : c.fcu.ctx = a.fcu.ctx := by rw [hfcu]
  refine h.enterFrom .scanning hcfg hholds hqueue hctx fun hs => ?_
  change Coheres .scanning c.trc.handle c.trc.fault t.trc.holds
  rw [htrc]
  exact hcoheres hs

/-- R26: a reel is taken on a transport without one, which is in no fault. -/
theorem threadReel (h : KeepsSafe s t) (hst : t.trc.state = .unthreaded) (j : Nat) (r : Reel) :
    KeepsSafe s (threadReel j r t) := by
  have hfault : TransportCoherent s → t.trc.fault = none := fun hs => by
    have := (h.coherent hs).2.1
    rw [hst] at this
    simpa using this
  refine refreshCab (h.enterFrom .threaded (by simp) (by simp) (by simp) (by simp) fun hs => ?_)
  simp [Coheres, hfault hs]

/-- R27: the reel is taken off a transport that stands without a fault. -/
theorem unthreadReel (h : KeepsSafe s t) (hst : t.trc.state = .threaded) (n : Nat) :
    KeepsSafe s (unthreadReel n t) := by
  have hrun : TransportCoherent s → t.trc.Running := fun hs => (h.coherent hs).running (by simp [hst]) (by simp [hst])
  unfold Machine.unthreadReel
  extract_lets a x b d
  have hk : Kept idleBlocks t a := by
    unfold a
    split <;> simp
  have htrc : a.trc = t.trc := hk .trc (by simp)
  have hfcu : a.fcu = t.fcu := hk .fcu (by simp)
  have hcfg : a.cfg = t.cfg := hk .cfg (by simp)
  refine refreshCab (h.enterFrom .unthreaded ?_ ?_ ?_ ?_ fun hs => ?_)
  · simp [d, b, hcfg]
  · simp [d, b, x, htrc]
  · simp [d, b, hfcu]
  · simp [d, b, hfcu]
  · simp [Coheres, d, b, x, htrc, (hrun hs).2]

/-- R72: the records read make room, and 16 or fewer end BACKPRESSURE. -/
theorem removeFrames (h : KeepsSafe s t) (n : Nat) : KeepsSafe s (removeFrames n t) := by
  have hdrop : KeepsSafe s (t.setFcu { t.fcu with queue := t.fcu.queue.drop n }) := by
    refine ⟨⟨h.bounded, h.coherent, fun hs hq => ?_⟩, h.light⟩
    obtain ⟨hload, hpressure⟩ := h.queue hs hq
    have hlen : (t.fcu.queue.drop n).length ≤ t.fcu.queue.length := by simp
    exact ⟨(Nat.add_le_add_right hlen _).trans hload, fun hle => hpressure (hle.trans hlen)⟩
  unfold Machine.removeFrames
  dsimp only
  split
  · next hle =>
    exact hdrop.removeHold fun _ => by simp only [Config.pressureOff] at hle; exact Nat.lt_of_le_of_lt hle (by omega)
  · exact hdrop

/-! ### Requests: what `serve` and the shared checks add -/

theorem arrive (h : KeepsSafe s t) (p : Port) : KeepsSafe s (arrive p t) := h.idle (by simp)

theorem answer (h : KeepsSafe s t) (rq : Rq) (r : Reply) : KeepsSafe s (answer rq r t) := h.idle (by simp)

theorem serve (rq : Rq) (need : Need) {body : Body} (hb : ∀ u, KeepsSafe u (body u).1) (s : State) :
    KeepsSafe s (serve rq need body s) := by
  have ha := (refl s).arrive rq.port
  have hdenied : KeepsSafe s (raiseFor rq.port .accessDenied (Machine.arrive rq.port s)) := ha.idle (by simp)
  exact ite (ha.answer ..) (ite (hdenied.answer ..) ((ha.trans (hb _)).answer ..))

/-- A request that works on idle blocks. -/
theorem serve_idle (rq : Rq) (need : Need) {body : Body} (hb : ∀ u, Kept idleBlocks u (body u).1) (s : State) :
    KeepsSafe s (Machine.serve rq need body s) := serve rq need (fun u => (refl u).idle (hb u)) s

/-- A request with operands. -/
theorem serveOperands {α : Type} (rq : Rq) (need : Need) {args : Option α} {body : α → Body}
    (hb : ∀ a u, KeepsSafe u (body a u).1) (s : State) :
    KeepsSafe s (Machine.serve rq need (withOperands args body) s) := by
  refine serve rq need (fun u => ?_) s
  cases args with
  | some a => exact hb a u
  | none => exact refl u

theorem serveOperands_idle {α : Type} (rq : Rq) (need : Need) {args : Option α} {body : α → Body}
    (hb : ∀ a u, Kept idleBlocks u (body a u).1) (s : State) :
    KeepsSafe s (Machine.serve rq need (withOperands args body) s) :=
  serveOperands rq need (fun a u => (refl u).idle (hb a u)) s

/-- A body's state after a check, whichever way the check goes. -/
theorem fork {c : Prop} [Decidable c] {x y : State × Reply} (hx : c → KeepsSafe s x.1) (hy : ¬c → KeepsSafe s y.1) :
    KeepsSafe s (if c then x else y).1 := by
  split
  · next hc => exact hx hc
  · next hc => exact hy hc

/-- A check that refuses. -/
theorem checked {c : Prop} [Decidable c] {r : Reply} {x : State × Reply} (h : ¬c → KeepsSafe s x.1) :
    KeepsSafe s (if c then (s, r) else x).1 := fork (fun _ => refl s) h

/-! ### The commands of the transport, the setting and the frame record queue -/

theorem setSettingBody (a : SettingArgs) (s : State) : KeepsSafe s (setSettingBody a s).1 := by
  unfold Machine.setSettingBody
  split
  · exact refl s
  · next hrow => exact checked fun _ => (refl s).storeSetting (store_lightHold hrow _)

theorem threadBody (h : Byte) (s : State) : KeepsSafe s (threadBody h s).1 := by
  unfold Machine.threadBody withReel
  split
  · exact refl s
  · split
    · exact checked fun hst => checked fun _ => checked fun _ => (refl s).threadReel (not_not.mp hst) _ _
    · exact refl s

theorem unthreadBody (s : State) : KeepsSafe s (unthreadBody s).1 := by
  refine checked fun hst => checked fun _ => ?_
  split
  · exact refl s
  · exact (refl s).unthreadReel (not_not.mp hst) _

/-- A film in THREADED can move. -/
theorem running_of_threaded (hst : ¬s.trc.state ≠ .threaded) (h : TransportCoherent s) : s.trc.Running :=
  h.running (by simp [not_not.mp hst]) (by simp [not_not.mp hst])

theorem startInch (h : KeepsSafe s t) (hrun : TransportCoherent s → t.trc.Running) (d : Int) :
    KeepsSafe s (startInch d t) :=
  h.enterFrom .inching rfl rfl rfl rfl fun hs => (hrun hs).coheres _ (.inr (.inl rfl))

theorem startShuttle (h : KeepsSafe s t) (hrun : TransportCoherent s → t.trc.Running) (back : Bool) (v : Nat) :
    KeepsSafe s (startShuttle back v t) :=
  h.enterFrom .shuttle rfl rfl rfl rfl fun hs => (hrun hs).coheres _ (.inr (.inr rfl))

theorem inchBody (d : BitVec 32) (s : State) : KeepsSafe s (inchBody d s).1 :=
  checked fun _ => checked fun _ => checked fun hst =>
    (refl s).startInch (running_of_threaded hst) _

theorem shuttleBody (a : ShuttleArgs) (s : State) : KeepsSafe s (shuttleBody a s).1 :=
  checked fun _ => checked fun hst => (refl s).startShuttle (running_of_threaded hst) _ _

theorem scanBody (v : BitVec 16) (s : State) : KeepsSafe s (scanBody v s).1 :=
  checked fun hst => checked fun _ => checked fun hholds =>
    (refl s).startScan (running_of_threaded hst) ((HoldSet.isEmpty_iff _).mp (by simpa using hholds)) _ _

theorem pauseBody (s : State) : KeepsSafe s (pauseBody s).1 := fork (fun _ => (refl s).addHold _) fun _ => refl s

theorem resumeBody (s : State) : KeepsSafe s (resumeBody s).1 :=
  fork (fun _ => (refl s).removeHold fun hc => by cases hc) fun _ => refl s

theorem stopBody (s : State) : KeepsSafe s (stopBody s).1 := by
  unfold Machine.stopBody
  cases hst : s.trc.state with
  | inching | shuttle | scanning | hold | backup =>
    exact (refl s).stopRun fun hs => hs.running (by simp [hst]) (by simp [hst])
  | threaded | unthreaded | fault => exact refl s

/-- R40: the fault cause goes, and the reel of FAULT stands in THREADED. -/
theorem clearFaultBody (s : State) : KeepsSafe s (clearFaultBody s).1 := by
  refine fork (fun hst => applyPending ((refl s).enterFrom .threaded rfl rfl rfl rfl fun hs => ?_)) fun _ => refl s
  have hhandle : s.trc.handle ≠ none := fun hn => by simpa [hst.1] using hs.1.mpr hn
  simpa [Coheres] using hhandle

theorem commitBody (s : State) : KeepsSafe s (commitBody s).1 :=
  checked fun _ => fork (fun _ => (refl s).applyCommit _) fun _ => (refl s).idle (by simp)

theorem readFramesBody (n : Byte) (s : State) : KeepsSafe s (readFramesBody n s).1 :=
  checked fun _ => checked fun _ => (refl s).removeFrames _

end KeepsSafe

/-! ### Every command -/

/-- RESET (R191): its state has the conditions whatever was before. -/
theorem keepsSafe_reset (s : State) : KeepsSafe s State.reset :=
  ⟨⟨fun _ => by unfold HoldLightBounded; decide, fun _ => by unfold TransportCoherent; decide,
    fun _ _ => by unfold QueueBounded; decide⟩, fun _ _ => by unfold LightSafe; decide⟩

theorem exec_keepsSafe (c : Instr) (s : State) : ∃ t, exec c s = .next t ∧ KeepsSafe s t := by
  have hq : KeepsSafe s (quiet s) := (KeepsSafe.refl s).idle (by simp)
  cases c
  case row f i ir v =>
    simp only [exec, execRow]
    split
    · exact ⟨_, rfl, hq.headReport.takeRowMessage ..⟩
    · exact ⟨_, rfl, hq⟩
  all_goals refine ⟨_, rfl, ?_⟩
  case reset => exact (keepsSafe_reset s).same rfl rfl rfl le_rfl
  case preloadValue => exact hq.takePreloadValue ..
  case preloadEnd => exact .ite (hq.endPreload _) hq
  case estopAsserted => exact .ite hq (.enterFault (.setTrc hq) _)
  case estopReleased => exact .setTrc hq
  case millisecondTick => exact hq.millisecondTick
  case secondTick => exact (hq.passMillis _).secondTick
  case minuteTick => exact (hq.passMillis _).minuteTick
  case position => exact hq.headReport.takePosition _
  case frameLine => exact hq.headReport.takeFrameLine _
  case spliceEdge => exact .ite (hq.headReport.takeSpliceEdge ..) (.ite (hq.headReport.takeSpliceEdge ..) hq.headReport)
  case tension => exact hq.headReport.takeTension _
  case gateTemp => exact hq.headReport.takeGateTemp _
  case headMessageDiscarded | reportAgeExpiry | frameIgnored => exact hq
  case tensionHighExpiry | tensionLowExpiry => exact .ite (.enterFault (.setTrc hq) _) hq
  case headSilenceExpiry => exact .ite (hq.enterFault _) hq
  case gateDelayExpiry => exact .ite hq.heatActive hq
  case holdLightExpiry =>
    have hcourse : KeepsSafe s ((quiet s).setTrc { (quiet s).trc with holdLight := none }) := .setTrc hq
    exact .ite hcourse.toKeepsCourse.refreshLight hq
  case contextAgeExpiry => exact .ite (hq.closeCtx _ _) (.ite (hq.closeCtx _ _) hq)
  case confirmationExpiry =>
    split
    · exact .ite (hq.idle (by simp)) hq
    · exact hq
  case bayTimerExpiry =>
    split
    · exact hq.idle (by simp)
    · exact hq
  case responseRead => exact (KeepsSafe.refl s).idle (by dsimp only; (repeat' split) <;> simp)
  case requestMalformed | unknownCommand | portReset | releaseForce | clearGate | setOrigin | releaseAll | takeMove
      | moveDone | moveFailed | readAlerts | transportStatus | moveList | readPitch =>
    exact .serve_idle _ _ (by simp) s
  case setSetting => exact .serveOperands _ _ KeepsSafe.setSettingBody s
  case thread => exact .serveOperands _ _ KeepsSafe.threadBody s
  case unthread => exact .serve _ _ KeepsSafe.unthreadBody s
  case inch => exact .serveOperands _ _ KeepsSafe.inchBody s
  case shuttle => exact .serveOperands _ _ KeepsSafe.shuttleBody s
  case scan => exact .serveOperands _ _ KeepsSafe.scanBody s
  case pause => exact .serve _ _ KeepsSafe.pauseBody s
  case resume => exact .serve _ _ KeepsSafe.resumeBody s
  case stop => exact .serve _ _ KeepsSafe.stopBody s
  case clearFault => exact .serve _ _ KeepsSafe.clearFaultBody s
  case commit => exact .serve _ _ KeepsSafe.commitBody s
  case readFrames => exact .serveOperands _ _ KeepsSafe.readFramesBody s
  all_goals exact .serveOperands_idle _ _ (by simp) s

theorem step_keepsSafe (h : step s = .next t) : KeepsSafe s t := by
  unfold step at h
  split at h
  · cases h; exact .refl s
  · next c rest _ =>
    obtain ⟨u, hu, hk⟩ := exec_keepsSafe c { s with pending := rest }
    obtain rfl : u = t := by simpa using hu.symm.trans h
    have hfront : KeepsSafe s { s with pending := rest } := ⟨⟨id, id, fun _ => id⟩, fun _ => id⟩
    exact hfront.trans hk

/-- Settles O7: `KeepsSafe` holds of every step, and the settings' ranges bound LIGHT_HOLD. -/
theorem lightStaysSafe : Obligations.LightStaysSafe := fun _ _ hset hs h =>
  (step_keepsSafe h).light hset.holdLightBounded hs

/-- Settles O8: `KeepsSafe` holds of every step. -/
theorem transportStaysCoherent : Obligations.TransportStaysCoherent := fun _ _ hs h => (step_keepsSafe h).coherent hs

/-- Settles O9: `KeepsSafe` holds of every step. -/
theorem frameQueueStaysBounded : Obligations.FrameQueueStaysBounded := fun _ _ hc hs h => (step_keepsSafe h).queue hc hs

end Sys2Proof.Machine
end

section
/-! SUPPORT. Reports of the head and expiries: the counts every report resets (R38), the splice edges (R43), the tension
watch (R37), the ESTOP level (R39, R40), and the commands that change no state. -/

namespace Sys2Proof.Machine

variable {s t : State}

/-! ### Every report of the head (R38) -/

/-- R38: a report of the head resets the two counts, and the link has been seen. -/
theorem headReport_trc : (headReport s).trc = { s.trc with reportAge := 0, silence := 0, linkSeen := true } := by
  unfold headReport
  dsimp only
  split <;> rfl

/-- The first report since RESET has capstan target and light sent. -/
theorem headReport_head : (headReport s).out.head =
    s.out.head ++ (if s.trc.linkSeen then [] else [.capstan s.trc.capstan, .light s.trc.light]) := by
  unfold headReport
  dsimp only
  split
  · simp
  · simp [State.send]

@[simp] theorem quiet_head : (quiet s).out.head = [] := rfl

@[simp] theorem headReport_state : (headReport s).trc.state = s.trc.state := by rw [headReport_trc]

/-! ### The ESTOP level (R39, R40) -/

/-- R39: where no protection is taken nothing happens. -/
theorem enterFault_ignored (h : s.trc.state = .unthreaded ∨ s.trc.state = .fault) (cause : FaultCause) :
    enterFault cause s = s := if_pos h

/-- Settles O16: an asserted ESTOP is a protection only where a reel is and no fault; a released one is none. -/
theorem estopLevelFollowsTheInput : Obligations.EstopLevelFollowsTheInput := by
  refine ⟨fun s hst => ?_, fun s => ⟨_, rfl, rfl, by simp⟩⟩
  cases he : s.trc.estop with
  | true => exact ⟨quiet s, by simp [exec, execEstopAsserted, he], by simp [← he], by simp⟩
  | false =>
    refine ⟨(quiet s).setTrc { s.trc with estop := true }, ?_, rfl, by simp⟩
    simp only [exec, execEstopAsserted, quiet_trc, he, Bool.false_eq_true, ite_false]
    exact congrArg _ (enterFault_ignored (by exact hst) .estop)

/-! ### Commands that change no state -/

/-- Settles O31: each command named only clears what was sent before, or its condition fails. -/
theorem someCommandsChangeNoState : Obligations.SomeCommandsChangeNoState := by
  intro s c hc
  have hquiet : (quiet s).out = ⟨[], []⟩ ∧ Kept [.out] s (quiet s) := ⟨rfl, by simp⟩
  suffices h : exec c s = .next (quiet s) ∧ (c = .reportAgeExpiry → (quiet s).linkAlive = false) from
    ⟨_, h.1, hquiet.1, h.2, hquiet.2⟩
  rcases hc with rfl | ⟨p, rfl⟩ | ⟨rfl, h⟩ | ⟨rfl, h⟩ | ⟨rfl, h⟩ | ⟨rfl, h⟩ | ⟨rfl, h⟩ | ⟨rfl, h⟩ | ⟨rfl, h⟩ | ⟨p, rfl, h⟩ |
    ⟨rfl, h⟩
  · exact ⟨rfl, nofun⟩
  · exact ⟨rfl, nofun⟩
  · exact ⟨rfl, fun _ => by simp [State.linkAlive, h]⟩
  · exact ⟨by simp [exec, execTensionHighExpiry, h], nofun⟩
  · exact ⟨by simp [exec, execTensionLowExpiry, h], nofun⟩
  · exact ⟨by simp [exec, execHeadSilenceExpiry, Config.silenceMs, h], nofun⟩
  · exact ⟨by simp [exec, execGateDelayExpiry, h], nofun⟩
  · exact ⟨by simp [exec, execHoldLightExpiry, h], nofun⟩
  · have hdue : ∀ i, s.fcu.due i = false := fun i => by
      unfold Fcu.due
      split
      · next x hx => simpa [Config.contextMs] using h i x hx
      · rfl
    exact ⟨by simp [exec, execContextAgeExpiry, hdue], nofun⟩
  · refine ⟨?_, nofun⟩
    cases hx : s.reg.confirm.get p with
    | none => simp [exec, execConfirmationExpiry, hx]
    | some x => simp [exec, execConfirmationExpiry, hx, h x hx]
  · have hnone : (List.range Config.bays).find? (fun n => (s.cab.bayTimer n).due) = none := by
      simpa [Config.bays] using h
    exact ⟨by simp [exec, execBayTimerExpiry, hnone], nofun⟩

/-! ### Splice edges (R42, R43) -/

theorem newestOpen_append (older : List Splice) (x : Splice) : newestOpen (older ++ [x]) = x.fall.isNone := by
  simp [newestOpen]

theorem modLast_append (f : Splice → Splice) : ∀ (older : List Splice) (x : Splice),
    modLast f (older ++ [x]) = older ++ [f x]
  | [], _ => rfl
  | [_], _ => rfl
  | a :: b :: rest, x => congrArg (a :: ·) (modLast_append f (b :: rest) x)

theorem risingEdge_nil (p : Int) : risingEdge p [] = [⟨p, none⟩] := rfl

theorem fallingEdge_nil (p : Int) : fallingEdge p [] = [] := rfl

section
variable {older : List Splice} {x : Splice} (p : Int)

theorem risingEdge_open (h : x.fall = none) : risingEdge p (older ++ [x]) = older ++ [x] := by
  simp [risingEdge, newestOpen_append, h]

theorem risingEdge_room (h : x.fall ≠ none) (hroom : older.length ≤ 2) :
    risingEdge p (older ++ [x]) = older ++ [x] ++ [⟨p, none⟩] := by
  have hlen : older.length + 1 < 4 := by omega
  simp [risingEdge, newestOpen_append, h, Config.splices, hlen]

/-- The fifth rising edge makes the newest entry open again. -/
theorem risingEdge_full (h : x.fall ≠ none) (hfull : older.length = 3) :
    risingEdge p (older ++ [x]) = older ++ [⟨x.rise, none⟩] := by
  simp [risingEdge, newestOpen_append, modLast_append, h, Config.splices, hfull]

theorem fallingEdge_open (h : x.fall = none) : fallingEdge p (older ++ [x]) = older ++ [⟨x.rise, some p⟩] := by
  simp [fallingEdge, newestOpen_append, modLast_append, h]

theorem fallingEdge_closed (h : x.fall ≠ none) : fallingEdge p (older ++ [x]) = older ++ [x] := by
  simp [fallingEdge, newestOpen_append, h]

end

/-- R43: a splice edge's queue and edge mark. -/
theorem takeSpliceEdge_trc (rising : Bool) (p : Int) : (takeSpliceEdge rising p s).trc =
    if s.trc.state = .scanning then
      { s.trc with
        spliceQueue := if p ≤ s.trc.edgeMark then s.trc.spliceQueue
          else if rising then risingEdge p s.trc.spliceQueue else fallingEdge p s.trc.spliceQueue
        edgeMark := max s.trc.edgeMark p }
    else s.trc := by
  unfold takeSpliceEdge
  split <;> rfl

theorem exec_spliceEdge {e : Byte} (he : e.toNat ≤ 1) (p : BitVec 32) :
    exec (.spliceEdge e p) s = .next (takeSpliceEdge (decide (e = 1)) p.toInt (headReport (quiet s))) := by
  have h : e = 1 ∨ e = 0 := by bv_omega
  rcases h with rfl | rfl <;> rfl

/-- Settles O24: the rows of R43's table are the lemmas on `risingEdge` and `fallingEdge`. -/
theorem spliceEdgeActsOnTheQueue : Obligations.SpliceEdgeActsOnTheQueue := by
  intro s e p he
  refine ⟨_, exec_spliceEdge he p, ?_⟩
  simp only [takeSpliceEdge_trc, headReport_trc, quiet_trc]
  refine ⟨by split <;> rfl, ?_, ?_, ?_, fun hst hmark => ?_, by simp⟩
  · rintro (hst | hmark)
    · rw [if_neg hst]
    · split <;> rfl
  · intro hst
    rw [if_neg hst]
  · intro hst
    rw [if_pos hst]
  · simp only [if_pos hst, if_neg (Int.not_le.mpr hmark)]
    refine ⟨fun h1 hq => ?_, fun h0 hq => ?_, fun older last hq => ⟨fun h1 hfall => ?_, fun h1 hfall hlen => ?_,
      fun h1 hfall hlen => ?_, fun h0 hfall => ?_, fun h0 hfall => ?_⟩⟩
    all_goals subst e; rw [hq]
    · exact risingEdge_nil _
    · exact fallingEdge_nil p.toInt
    · exact risingEdge_open _ hfall
    · exact risingEdge_room _ hfall hlen
    · exact risingEdge_full _ hfall hlen
    · exact fallingEdge_open _ hfall
    · exact fallingEdge_closed _ hfall

/-! ### The tension watch (R37) -/

theorem watchTension_idle (delay : Nat) (x : Timer) : watchTension delay false x = none := by cases x <;> rfl

theorem watchTension_beyond (delay : Nat) (x : Timer) : watchTension delay true x = some (x.getD delay) := by
  cases x <;> rfl

theorem firesAtOnce_iff (delay : Nat) (beyond : Bool) (x : Timer) :
    firesAtOnce delay beyond x = true ↔ delay = 0 ∧ beyond = true ∧ x = none := by
  simp [firesAtOnce, and_assoc]

/-- R39: what FAULT is entered with. -/
theorem enterFault_entered (hu : s.trc.state ≠ .unthreaded) (hf : s.trc.state ≠ .fault) (cause : FaultCause) :
    (enterFault cause s).trc.state = .fault ∧ (enterFault cause s).trc.fault = some cause := by
  unfold enterFault
  rw [if_neg (not_or.mpr ⟨hu, hf⟩)]
  simp

/-- R37: a reading that fires neither timer sets both. -/
theorem takeTension_quiet {gf : Nat} {high low : Bool}
    (hhigh : (s.trc.state.watchesHigh && decide (s.trc.profile.tensionHigh < gf)) = high)
    (hlow : (s.trc.state.watchesLow && decide (gf < 20)) = low)
    (h1 : firesAtOnce (s.setting Setting.tensionDelay) high s.trc.tensionHigh = false)
    (h2 : firesAtOnce (s.setting Setting.tensionDelay) low s.trc.tensionLow = false) :
    takeTension gf s = s.setTrc { s.trc with
      tensionHigh := watchTension (s.setting Setting.tensionDelay) high s.trc.tensionHigh
      tensionLow := watchTension (s.setting Setting.tensionDelay) low s.trc.tensionLow } := by
  simp [takeTension, Config.tensionLow, hhigh, hlow, h1, h2]

/-- A state that watches a limit is neither UNTHREADED nor FAULT. -/
theorem watchesHigh_states {st : TransportState} (h : st.watchesHigh = true) : st ≠ .unthreaded ∧ st ≠ .fault := by
  cases st <;> simp_all [TransportState.watchesHigh]

theorem watchesLow_states {st : TransportState} (h : st.watchesLow = true) : st ≠ .unthreaded ∧ st ≠ .fault := by
  cases st <;> simp_all [TransportState.watchesLow]

/-- Settles O25: the two timers are set by `watchTension`, and a timer fires at once by `firesAtOnce`. -/
theorem tensionReadingDrivesTheTimers : Obligations.TensionReadingDrivesTheTimers := by
  intro s gf high low delay
  obtain ⟨u, hu⟩ : ∃ u, u = headReport (quiet s) := ⟨_, rfl⟩
  have hexec : exec (.tension gf) s = .next (takeTension gf.toNat u) := hu ▸ rfl
  have htrc : u.trc = { s.trc with reportAge := 0, silence := 0, linkSeen := true } := by rw [hu, headReport_trc]; rfl
  have hdelay : u.setting Setting.tensionDelay = delay := by rw [hu]; simp [delay]
  have hkept : Kept [.trc, .out] s u := by simp [hu]
  have hhigh : (u.trc.state.watchesHigh && decide (u.trc.profile.tensionHigh < gf.toNat)) = decide high := by
    simp [htrc, high, Bool.decide_and]
  have hlow : (u.trc.state.watchesLow && decide (gf.toNat < 20)) = decide low := by simp [htrc, low, Bool.decide_and]
  have hh : u.trc.tensionHigh = s.trc.tensionHigh := by rw [htrc]
  have hl : u.trc.tensionLow = s.trc.tensionLow := by rw [htrc]
  have hst : u.trc.state = s.trc.state := by rw [htrc]
  rw [hexec]
  refine ⟨fun hruns => ?_, fun hd hhi hidle => ?_, fun hd hlo hnhi hidle => ?_⟩
  · have h1 : firesAtOnce (u.setting Setting.tensionDelay) (decide high) u.trc.tensionHigh = false := by
      rw [← Bool.not_eq_true, firesAtOnce_iff, hdelay, hh, decide_eq_true_eq]
      exact fun ⟨hd, hhi, hidle⟩ => hruns.elim (· hd) fun hr => hr.1 hhi hidle
    have h2 : firesAtOnce (u.setting Setting.tensionDelay) (decide low) u.trc.tensionLow = false := by
      rw [← Bool.not_eq_true, firesAtOnce_iff, hdelay, hl, decide_eq_true_eq]
      exact fun ⟨hd, hlo, hidle⟩ => hruns.elim (· hd) fun hr => hr.2 hlo hidle
    refine ⟨_, congrArg _ (takeTension_quiet hhigh hlow h1 h2), fun hn => ?_, fun hb => ?_, fun hn => ?_, fun hb => ?_,
      by simp [htrc], by simpa using hkept⟩
    · simp [hn, watchTension_idle]
    · simp [hb, watchTension_beyond, hdelay, hh]
    · simp [hn, watchTension_idle]
    · simp [hb, watchTension_beyond, hdelay, hl]
  · have hfires : firesAtOnce (u.setting Setting.tensionDelay) (decide high) u.trc.tensionHigh = true := by
      rw [firesAtOnce_iff, hdelay, hh, decide_eq_true_eq]
      exact ⟨hd, hhi, hidle⟩
    obtain ⟨hu', hf'⟩ := watchesHigh_states hhi.1
    obtain ⟨hfault, hcause⟩ := enterFault_entered (hst ▸ hu') (hst ▸ hf') .tensionHigh
    refine ⟨enterFault .tensionHigh u, congrArg _ ?_, hfault, hcause, by simp [hu]⟩
    simp [takeTension, hhigh, hfires]
  · have hnot : firesAtOnce (u.setting Setting.tensionDelay) (decide high) u.trc.tensionHigh = false := by
      simp [firesAtOnce, hnhi]
    have hfires : firesAtOnce (u.setting Setting.tensionDelay) (decide low) u.trc.tensionLow = true := by
      rw [firesAtOnce_iff, hdelay, hl, decide_eq_true_eq]
      exact ⟨hd, hlo, hidle⟩
    obtain ⟨hu', hf'⟩ := watchesLow_states hlo.1
    obtain ⟨hfault, hcause⟩ := enterFault_entered (hst ▸ hu') (hst ▸ hf') .tensionLow
    refine ⟨enterFault .tensionLow u, congrArg _ ?_, hfault, hcause, by simp [hu]⟩
    simp [takeTension, Config.tensionLow, hhigh, hlow, hnot, hfires]

end Sys2Proof.Machine
end

section
/-! SUPPORT. Hold causes added and removed (R34, R36), the gate heat watch (R41), the timers that run out (R24, R15, R170). -/

namespace Sys2Proof.Machine

variable {s t u : State}

/-! ### The light follows (R24) -/

theorem refreshLight_trc : (refreshLight s).trc = { s.trc with light := s.lightLevel } := by
  unfold refreshLight
  split
  · next h => rw [h]
  · rfl

theorem lightLevel_hot (h : s.trc.gateHot = true) : s.lightLevel = 0 := by simp [State.lightLevel, h]

/-! ### Hold causes (R34, R36) -/

/-- R34: a cause that moves no film to HOLD joins the set. -/
theorem addHold_joins {c : HoldCause}
    (h : s.trc.holds.has c = false → s.trc.state ≠ .scanning ∧ s.trc.state ≠ .backup) :
    addHold c s = s.setTrc { s.trc with holds := s.trc.holds.put c true } := by
  cases hc : s.trc.holds.has c with
  | true =>
    have hput : s.trc.holds.put c true = s.trc.holds := by
      rw [← addHold_holds, addHold, if_pos hc]
    rw [addHold, if_pos hc, hput]
    rfl
  | false => rw [addHold, if_neg (by simp [hc]), if_neg (not_or.mpr (h hc))]

/-- R34: the first cause of a moving film holds it. -/
theorem addHold_holdEntered {c : HoldCause} (hc : s.trc.holds.has c = false)
    (hst : s.trc.state = .scanning ∨ s.trc.state = .backup) :
    addHold c s = raise .holdEntered (enter .hold (s.setTrc { s.trc with holds := s.trc.holds.put c true })) := by
  rw [addHold, if_neg (by simp [hc]), if_pos hst]

theorem addHold_state (c : HoldCause) : (addHold c s).trc.state =
    if s.trc.holds.has c = false ∧ (s.trc.state = .scanning ∨ s.trc.state = .backup) then .hold else s.trc.state := by
  by_cases h : s.trc.holds.has c = false ∧ (s.trc.state = .scanning ∨ s.trc.state = .backup)
  · rw [if_pos h, addHold_holdEntered h.1 h.2]
    simp
  · rw [if_neg h, addHold_joins fun hc => not_or.mp fun hst => h ⟨hc, hst⟩]
    rfl

/-- R36: a cause that was not the last of a held film leaves the set. -/
theorem removeHold_leaves {c : HoldCause}
    (h : s.trc.holds.has c = true → s.trc.state = .hold → s.trc.holds.put c false ≠ .empty) :
    removeHold c s = s.setTrc { s.trc with holds := s.trc.holds.put c false } := by
  cases hc : s.trc.holds.has c with
  | true =>
    rw [removeHold, if_pos hc, if_neg]
    rintro ⟨hempty, hst⟩
    exact h hc hst ((HoldSet.isEmpty_iff _).mp hempty)
  | false =>
    have hput : s.trc.holds.put c false = s.trc.holds := by
      cases c <;> simp only [HoldSet.has] at hc <;> simp [HoldSet.put, ← hc]
    rw [removeHold, if_neg (by simp [hc]), hput]
    rfl

/-- R36: the last cause of a held film starts the backup. -/
theorem removeHold_backup {c : HoldCause} (hc : s.trc.holds.has c = true) (hst : s.trc.state = .hold)
    (hempty : s.trc.holds.put c false = .empty) :
    removeHold c s = startBackup (s.setTrc { s.trc with holds := s.trc.holds.put c false }) := by
  rw [removeHold, if_pos hc, if_pos ⟨(HoldSet.isEmpty_iff _).mpr hempty, hst⟩]

/-! ### The gate heat watch (R41) -/

/-- R41, R34: the condition becomes active. -/
theorem heatActive_spec (s : State) : (heatActive s).trc.gateHot = true ∧ (heatActive s).trc.gateDelay = none ∧
    (heatActive s).trc.light = 0 ∧ (heatActive s).trc.holds = { s.trc.holds with gateHot := true } ∧
    LatchedWhereRouted .gateHot s (heatActive s) ∧
    (heatActive s).trc.state = (if s.trc.holds.gateHot = false ∧ (s.trc.state = .scanning ∨ s.trc.state = .backup) then
      .hold else s.trc.state) := by
  obtain ⟨u, hu⟩ : ∃ u, u = raise .gateHot (s.setTrc { s.trc with gateHot := true, gateDelay := none }) := ⟨_, rfl⟩
  have htrc : u.trc = { s.trc with gateHot := true, gateDelay := none } := by rw [hu]; rfl
  have hhot : (addHold .gateHot u).trc.gateHot = true ∧ (addHold .gateHot u).trc.gateDelay = none := by
    unfold addHold
    (repeat' split) <;> simp [htrc]
  have ht : heatActive s = refreshLight (addHold .gateHot u) := by rw [hu]; rfl
  rw [ht]
  refine ⟨by simp [hhot.1], by simp [hhot.2], by simp [lightLevel_hot hhot.1], ?_, ?_, ?_⟩
  · rw [refreshLight_trc_holds, addHold_holds, htrc]
    rfl
  · have hlatched : LatchedWhereRouted .gateHot s u := by
      rw [hu]
      exact latched_raise fun _ => rfl
    exact hlatched.mono (((AlertsGrow.refl u).addHold .gateHot).trans (.of_eq (by simp)))
  · rw [refreshLight_trc_state, addHold_state, htrc]
    rfl

/-- R41, R36: the condition is cleared, and it was the last cause of a held film. -/
theorem heatClear_backup (hst : s.trc.state = .hold) (hholds : s.trc.holds = ⟨false, true, false⟩) :
    heatClear s = refreshLight (startBackup (s.setTrc { s.trc with gateHot := false, holds := .empty })) := by
  obtain ⟨u, hu⟩ : ∃ u, u = s.setTrc { s.trc with gateHot := false } := ⟨_, rfl⟩
  have hput : u.trc.holds.put .gateHot false = .empty := by simp [hu, hholds, HoldSet.put, HoldSet.empty]
  have hback := removeHold_backup (s := u) (by simp [hu, hholds, HoldSet.has]) (by simpa [hu] using hst) hput
  rw [hput] at hback
  rw [heatClear, ← hu, hback, hu]
  rfl

/-- R41: the condition is cleared and the film stays as it is. -/
theorem heatClear_stays (h : s.trc.state ≠ .hold ∨ s.trc.holds ≠ ⟨false, true, false⟩) :
    heatClear s = refreshLight (s.setTrc { s.trc with gateHot := false, holds := { s.trc.holds with gateHot := false } }) := by
  obtain ⟨u, hu⟩ : ∃ u, u = s.setTrc { s.trc with gateHot := false } := ⟨_, rfl⟩
  have hleaves : removeHold .gateHot u = u.setTrc { u.trc with holds := u.trc.holds.put .gateHot false } := by
    refine removeHold_leaves fun hhas hst hempty => ?_
    simp only [hu, State.setTrc_trc, HoldSet.has, HoldSet.put, HoldSet.empty, HoldSet.mk.injEq] at hhas hst hempty
    obtain ⟨hb, -, ho⟩ := hempty
    have hset : s.trc.holds = ⟨false, true, false⟩ :=
      calc s.trc.holds = ⟨s.trc.holds.backpressure, s.trc.holds.gateHot, s.trc.holds.operator⟩ := rfl
        _ = ⟨false, true, false⟩ := by rw [hb, hhas, ho]
    exact h.elim (· hst) (· hset)
  rw [heatClear, ← hu, hleaves, hu]
  rfl

/-- R41: a reading below the limit idles the delay. -/
theorem takeGateTemp_cool {temp : Nat} (hcool : s.trc.gateHot = false) (hlow : temp < s.setting Setting.gateTempLimit) :
    takeGateTemp temp s = s.setTrc { s.trc with gateDelay := none } := by
  simp [takeGateTemp, hcool, Nat.not_le.mpr hlow]

/-- R41: a reading at the limit starts the delay, or leaves it running. -/
theorem takeGateTemp_delayed {temp : Nat} (hcool : s.trc.gateHot = false) (hhigh : s.setting Setting.gateTempLimit ≤ temp)
    (hdelay : s.setting Setting.gateTempDelay ≠ 0) : takeGateTemp temp s =
      s.setTrc { s.trc with gateDelay := some (s.trc.gateDelay.getD (s.setting Setting.gateTempDelay * 1000)) } := by
  cases hd : s.trc.gateDelay with
  | none => simp [takeGateTemp, hcool, hhigh, hd, hdelay]
  | some n =>
    have hsame : s.setTrc { s.trc with gateDelay := some n } = s := by rw [← hd]; rfl
    have hruns : takeGateTemp temp s = s := by simp [takeGateTemp, hcool, hhigh, hd]
    rw [hruns]
    exact hsame.symm

/-- R41: without a delay the condition becomes active at once. -/
theorem takeGateTemp_active {temp : Nat} (hcool : s.trc.gateHot = false) (hhigh : s.setting Setting.gateTempLimit ≤ temp)
    (hdelay : s.setting Setting.gateTempDelay = 0) (hidle : s.trc.gateDelay = none) :
    takeGateTemp temp s = heatActive s := by
  simp [takeGateTemp, hcool, hhigh, hdelay, hidle]

/-- R41: the active condition ends at or below the recovery level. -/
theorem takeGateTemp_hot {temp : Nat} (hhot : s.trc.gateHot = true) :
    takeGateTemp temp s = if temp ≤ s.recoverLevel then heatClear s else s := by
  rw [takeGateTemp, if_pos hhot]

/-- R41, R36: what the end of the condition leaves. -/
theorem heatClear_spec (s : State) : (heatClear s).trc.gateHot = false ∧
    (heatClear s).trc.holds = { s.trc.holds with gateHot := false } ∧
    (s.trc.state = .hold → s.trc.holds = ⟨false, true, false⟩ →
      (heatClear s).trc.state = .backup ∧ (heatClear s).trc.light = 0 ∧
        (heatClear s).trc.backupTarget = some (s.trc.position - 3 * (s.pru.live.pInt : Int))) ∧
    (s.trc.state ≠ .hold ∨ s.trc.holds ≠ ⟨false, true, false⟩ → (heatClear s).trc.state = s.trc.state ∧
      (s.trc.state = .scanning → (heatClear s).trc.light = s.setting Setting.lightFull) ∧
      (s.trc.state ∈ [.threaded, .inching, .hold] →
        (heatClear s).trc.light = if s.trc.holdLight.isSome then s.setting Setting.lightHold else 0) ∧
      (s.trc.state ∈ [.unthreaded, .shuttle, .backup, .fault] → (heatClear s).trc.light = 0)) := by
  by_cases h : s.trc.state = .hold ∧ s.trc.holds = ⟨false, true, false⟩
  · obtain ⟨hst, hholds⟩ := h
    rw [heatClear_backup hst hholds]
    refine ⟨by simp [startBackup], by simp [startBackup, hholds, HoldSet.empty], fun _ _ => ⟨by simp [startBackup], ?_, ?_⟩,
      fun hn => absurd hholds (hn.resolve_left (not_not.mpr hst))⟩
    · simp [startBackup, State.lightLevel]
    · simp [startBackup]
  · have hn := not_and_or.mp h
    rw [heatClear_stays hn]
    refine ⟨by simp, by simp, fun hst hholds => absurd ⟨hst, hholds⟩ h, fun _ => ⟨by simp, fun hst => ?_, fun hst => ?_,
      fun hst => ?_⟩⟩
    · simp [State.lightLevel, hst, State.setting]
    · rw [refreshLight_light]
      simp only [List.mem_cons, List.not_mem_nil, or_false] at hst
      rcases hst with hst | hst | hst <;> simp [State.lightLevel, hst, State.setting]
    · rw [refreshLight_light]
      simp only [List.mem_cons, List.not_mem_nil, or_false] at hst
      rcases hst with hst | hst | hst | hst <;> simp [State.lightLevel, hst]

/-- Settles O26: a reading below the limit, one at it, the condition becoming active, and its end. -/
theorem gateHeatHoldsTheLight : Obligations.GateHeatHoldsTheLight := by
  intro s
  obtain ⟨u, hu⟩ : ∃ u, u = headReport (quiet s) := ⟨_, rfl⟩
  have hexec : ∀ temp, exec (.gateTemp temp) s = .next (takeGateTemp temp.toNat u) := fun _ => hu ▸ rfl
  have htrc : u.trc = { s.trc with reportAge := 0, silence := 0, linkSeen := true } := by rw [hu, headReport_trc]; rfl
  have hhot : u.trc.gateHot = s.trc.gateHot := by rw [htrc]
  have hdelay : u.trc.gateDelay = s.trc.gateDelay := by rw [htrc]
  have hst : u.trc.state = s.trc.state := by rw [htrc]
  have hholds : u.trc.holds = s.trc.holds := by rw [htrc]
  have hset : ∀ i, u.setting i = s.setting i := fun i => by simp [hu]
  have hkept : Kept [.trc, .out] s u := by simp [hu]
  refine ⟨fun temp hcool => ⟨fun hlow => ?_, fun hhigh hd => ?_⟩, fun c hc => ?_,
    fun temp hhot' => ⟨fun hhigh => ?_, fun hlow => ?_⟩⟩
  · rw [← hhot] at hcool
    rw [← hset] at hlow
    exact ⟨_, (hexec temp).trans (congrArg _ (takeGateTemp_cool hcool hlow)), by simp [htrc], by simpa using hkept⟩
  · rw [← hhot] at hcool
    rw [← hset] at hhigh hd
    exact ⟨_, (hexec temp).trans (congrArg _ (takeGateTemp_delayed hcool hhigh hd)), by simp [htrc, hset],
      by simpa using hkept⟩
  · rcases hc with ⟨rfl, hdue⟩ | ⟨temp, rfl, hcool, hhigh, hd, hidle⟩
    · obtain ⟨h1, h2, h3, h4, h5, h6⟩ := heatActive_spec (quiet s)
      exact ⟨heatActive (quiet s), by simp [exec, execGateDelayExpiry, hdue], h1, h2, h3, h4, h5, h6, by simp⟩
    · obtain ⟨h1, h2, h3, h4, h5, h6⟩ := heatActive_spec u
      rw [← hhot] at hcool
      rw [← hset] at hhigh hd
      rw [← hdelay] at hidle
      refine ⟨heatActive u, (hexec temp).trans (congrArg _ (takeGateTemp_active hcool hhigh hd hidle)), h1, h2, h3,
        hholds ▸ h4, fun p hp => h5 p ?_, hholds ▸ hst ▸ h6, by simp [hu]⟩
      rwa [route_of_cfg (by simp [hu] : u.cfg = s.cfg)]
  · rw [← hhot] at hhot'
    refine ⟨u, (hexec temp).trans (congrArg _ ?_), htrc, hkept⟩
    rw [takeGateTemp_hot hhot', if_neg]
    simpa only [State.recoverLevel, hset] using Nat.not_le.mpr hhigh
  · rw [← hhot] at hhot'
    obtain ⟨h1, h2, h3, h4⟩ := heatClear_spec u
    refine ⟨heatClear u, (hexec temp).trans (congrArg _ ?_), h1, hholds ▸ h2, ?_, ?_, by simp [hu]⟩
    · rw [takeGateTemp_hot hhot', if_pos]
      simpa only [State.recoverLevel, hset] using hlow
    · rw [hst, hholds, htrc, show u.pru = s.pru by simp [hu]] at h3
      exact h3
    · simpa only [hst, hholds, hset, show u.trc.holdLight = s.trc.holdLight by rw [htrc]] using h4

/-! ### Timers that run out (R24, R15, R170) -/

/-- R158: a move asked for changes the queue and the leg-due list alone, as far as CAB's own record goes. -/
theorem autoMove_cab (h : Nat) (kind : MoveKind) : (autoMove h kind s).cab =
    { s.cab with moves := (autoMove h kind s).cab.moves, legDue := (autoMove h kind s).cab.legDue } := by
  unfold autoMove enterAuto createMove createMoveIn
  (repeat' split) <;> simp

theorem askNextLeg_cab (n : Nat) (kind : MoveKind) : (askNextLeg n kind s).cab =
    { s.cab with moves := (askNextLeg n kind s).cab.moves, legDue := (askNextLeg n kind s).cab.legDue } := by
  unfold askNextLeg
  split
  · exact autoMove_cab _ _
  · rfl

theorem alertsGrow_autoMove (h : Nat) (kind : MoveKind) (s : State) : AlertsGrow s (autoMove h kind s) := by
  unfold autoMove enterAuto
  split
  · exact .raiseIf (.of_eq (by simp)) _ _
  · exact .of_eq rfl

theorem alertsGrow_askNextLeg (n : Nat) (kind : MoveKind) (s : State) : AlertsGrow s (askNextLeg n kind s) := by
  unfold askNextLeg
  split
  · exact alertsGrow_autoMove _ _ _
  · exact .refl _

theorem alertsGrow_refreshCab (s : State) : AlertsGrow s (refreshCab s) :=
  .raiseIf (.raiseIf (.of_eq rfl) _ _) _ _

/-- A due bay timer is one of the table's. -/
theorem lt_of_due {c : Cab} {n : Nat} (h : (c.bayTimer n).due = true) : n < c.bayTimers.length := by
  by_contra hn
  rw [Cab.bayTimer, List.getD_eq_default _ _ (Nat.le_of_not_lt hn)] at h
  cases h

/-- The timer of bay position n ends, and ACCLIM_DONE is raised. -/
def bayDone (n : Nat) (s : State) : State :=
  raise .acclimDone (s.setBayTimer n { s.cab.bayTimer n with state := .done })

theorem expireBay_eq (n : Nat) :
    expireBay n s = refreshCab (askNextLeg n (s.cab.bayTimer n).direction.nextLeg (bayDone n s)) := rfl

theorem bayDone_cab (n : Nat) : (bayDone n s).cab = { s.cab with
    bayTimers := s.cab.bayTimers.set n { s.cab.bayTimer n with state := .done } } := rfl

@[simp] theorem bayDone_reg (n : Nat) : (bayDone n s).reg = s.reg := rfl

theorem latched_bayDone (n : Nat) : LatchedWhereRouted .acclimDone s (bayDone n s) := latched_raise fun _ => rfl

/-- R170: the expiry of a bay timer changes CAB's timers, queue and leg-due list and re-evaluates its two conditions. -/
theorem expireBay_cab (n : Nat) : (expireBay n s).cab = { s.cab with
    bayTimers := s.cab.bayTimers.set n { s.cab.bayTimer n with state := .done }
    moves := (expireBay n s).cab.moves, legDue := (expireBay n s).cab.legDue
    eligible := (expireBay n s).cab.eligible, isoFull := (expireBay n s).cab.isoFull } := by
  rw [expireBay_eq, refreshCab_cab, askNextLeg_cab, bayDone_cab]

/-- R170: the reel of the bay position asks for its next leg. -/
theorem expireBay_asks {n h : Nat} {r : Reel} (hbay : s.cab.bays.read n = some (.holding h)) (hr : s.reel h = some r) :
    (expireBay n s).cab.moves = (s.cab.ask h (s.cab.bayTimer n).direction.nextLeg r.location).moves ∧
      (expireBay n s).cab.legDue = (s.cab.ask h (s.cab.bayTimer n).direction.nextLeg r.location).legDue := by
  have hreel : (bayDone n s).reel h = some r := hr
  have hask : askNextLeg n (s.cab.bayTimer n).direction.nextLeg (bayDone n s) =
      autoMove h (s.cab.bayTimer n).direction.nextLeg (bayDone n s) := by
    simp [askNextLeg, bayDone_cab, hbay]
  rw [expireBay_eq, refreshCab_cab, hask, (autoMove_spec hreel _).1]
  have hentry : (bayDone n s).cab.freeEntry = s.cab.freeEntry := rfl
  unfold Cab.ask
  rw [hentry]
  split <;> exact ⟨rfl, rfl⟩

/-- Settles O30: `refreshLight`, `dropConfirmation` and `expireBay` at the ends of the three timers. -/
theorem timersRunOut : Obligations.TimersRunOut := by
  refine ⟨fun s hzero => ?_, fun s p c hc hzero => ?_, fun s n hn hdue hfirst => ?_⟩
  · refine ⟨refreshLight ((quiet s).setTrc { s.trc with holdLight := none }), by simp [exec, execHoldLightExpiry, hzero],
      by rw [refreshLight_trc]; simp, fun hst => ?_, by simp⟩
    rcases hst with hst | hst | hst <;> simp [State.lightLevel, hst]
  · exact ⟨dropConfirmation p (quiet s), by simp [exec, execConfirmationExpiry, hc, hzero], rfl, by simp⟩
  · have hfind : (List.range Config.bays).find? (fun m => ((quiet s).cab.bayTimer m).due) = some n := by
      rw [List.find?_range_eq_some]
      exact ⟨hdue, List.mem_range.mpr hn, fun m hm => by simpa using hfirst m hm⟩
    have hexec : exec .bayTimerExpiry s = .next (expireBay n (quiet s)) := by
      simp only [exec, execBayTimerExpiry, hfind]
    have hcab := expireBay_cab (s := quiet s) n
    have htimers : (expireBay n (quiet s)).cab.bayTimers = s.cab.bayTimers.set n { s.cab.bayTimer n with state := .done } := by
      rw [hcab]
      rfl
    have hlen := lt_of_due hdue
    refine ⟨_, hexec, ?_, fun m hm => ?_, ?_, by rw [hcab]; rfl, by rw [hcab]; rfl, by rw [hcab]; rfl,
      fun h r hbay hr => ?_, by simp⟩
    · simp [htimers, Cab.bayTimer, hlen]
    · simp [htimers, Cab.bayTimer, List.getElem?_set_ne hm.symm]
    · rw [expireBay_eq]
      exact (latched_bayDone (s := quiet s) n).mono ((alertsGrow_askNextLeg _ _ _).trans (alertsGrow_refreshCab _))
    · intro kind
      have hkind : ((quiet s).cab.bayTimer n).direction.nextLeg = kind := by
        simp only [kind, quiet_cab]
        cases (s.cab.bayTimer n).direction <;> rfl
      obtain ⟨hmoves, hlegs⟩ := expireBay_asks (s := quiet s) hbay hr
      rw [hkind] at hmoves hlegs
      refine ⟨fun e he => ?_, fun he => ?_⟩
      · rw [hmoves, hlegs]
        simp [Cab.ask, he]
      · rw [hmoves, hlegs]
        simp [Cab.ask, he]

end Sys2Proof.Machine
end

section
/-! SUPPORT. The entry into FAULT (R39, R79, R54, R61): both frame contexts abandoned with their frames listed for rescan,
and what TRC, PRU and RPQ are left with. -/

namespace Sys2Proof.Machine

variable {s t u : State}

/-! ### Rescan lists that have grown (R19) -/

/-- Between `s` and `t` no record changed but in its rescan list, and a list in order has kept its frames and its order. -/
def RescansGrow (s t : State) : Prop :=
  ∀ j, (∀ r, s.reel j = some r → ∃ r', t.reel j = some r') ∧
    ∀ r', t.reel j = some r' → ∃ r, s.reel j = some r ∧ r' = { r with rescan := r'.rescan } ∧
      (rescanOrdered r.rescan → rescanOrdered r'.rescan ∧ ∀ f, inRanges r.rescan f = true → inRanges r'.rescan f = true)

theorem RescansGrow.of_reg (h : t.reg = s.reg) : RescansGrow s t := fun j => by
  have hj : t.reel j = s.reel j := by simp [State.reel, h]
  exact ⟨fun r hr => ⟨r, hj.trans hr⟩, fun r' hr' => ⟨r', hj.symm.trans hr', rfl, fun ho => ⟨ho, fun _ => id⟩⟩⟩

theorem RescansGrow.trans (h : RescansGrow s t) (k : RescansGrow t u) : RescansGrow s u := fun j => by
  refine ⟨fun r hr => ?_, fun r₂ hr₂ => ?_⟩
  · obtain ⟨r₁, hr₁⟩ := (h j).1 r hr
    exact (k j).1 r₁ hr₁
  · obtain ⟨r₁, hr₁, he₁, hl₁⟩ := (k j).2 r₂ hr₂
    obtain ⟨r, hr, he, hl⟩ := (h j).2 r₁ hr₁
    refine ⟨r, hr, by rw [he₁, he], fun ho => ?_⟩
    obtain ⟨ho₁, hf₁⟩ := hl ho
    obtain ⟨ho₂, hf₂⟩ := hl₁ ho₁
    exact ⟨ho₂, fun f hf => hf₂ f (hf₁ f hf)⟩

/-- R19: the frames of a list and of a range added to it are in the new list. -/
theorem inRanges_addRange {l : List FrameRange} (hl : rescanOrdered l) {a b : Nat} (hab : a ≤ b) {f : Nat}
    (hf : inRanges l f = true ∨ (a ≤ f ∧ f ≤ b)) : inRanges (addRange l ⟨a, b⟩) f = true := by
  obtain ⟨hplain, hfull⟩ := addRange_added hl hab
  by_cases hapart : 8 ≤ l.length ∧ ∀ x ∈ l, x.last + 1 < a ∨ b + 1 < x.first
  · obtain ⟨lo, hi, -, -, hin⟩ := hfull hapart
    exact (hin f).mpr (.inl hf)
  · exact (hplain hapart f).mpr hf

/-! ### A context abandoned (R79) -/

/-- R18, of every record that the handles name. -/
def ListsOrdered (s : State) : Prop := ∀ j r, s.reel j = some r → rescanOrdered r.rescan

theorem RescansOrdered.lists (h : RescansOrdered s) : ListsOrdered s := fun _ _ hr => h _ (Table.mem_of_read hr)

theorem ListsOrdered.grown (ho : ListsOrdered s) (h : RescansGrow s t) : ListsOrdered t := fun j r' hr' => by
  obtain ⟨r, hr, -, hl⟩ := (h j).2 r' hr'
  exact (hl (ho j r hr)).1

/-- A frame number lies in a record's rescan list. -/
def State.listed (s : State) (j f : Nat) : Prop := ∀ r, s.reel j = some r → inRanges r.rescan f = true

theorem RescansGrow.listed (h : RescansGrow s t) (ho : ListsOrdered s) {j f : Nat} (hs : s.listed j f) :
    t.listed j f := fun r' hr' => by
  obtain ⟨r, hr, -, hl⟩ := (h j).2 r' hr'
  exact (hl (ho _ _ hr)).2 f (hs r hr)

theorem rescansGrow_rescanAdd (j f : Nat) (s : State) : RescansGrow s (rescanAdd j ⟨f, f⟩ s) := by
  obtain ⟨-, hreel⟩ := reopens_rescanAdd (s := s) j ⟨f, f⟩
  intro i
  rw [hreel i]
  split
  · refine ⟨fun r hr => ⟨_, by rw [hr]; rfl⟩, fun r' hr' => ?_⟩
    obtain ⟨r, hr, rfl⟩ := Option.map_eq_some_iff.mp hr'
    exact ⟨r, hr, rfl, fun ho => ⟨rescanOrdered_addRange ho le_rfl, fun k hk => inRanges_addRange ho le_rfl (.inl hk)⟩⟩
  · exact RescansGrow.of_reg (t := s) rfl i

theorem listed_rescanAdd (ho : ListsOrdered s) (j f : Nat) : (rescanAdd j ⟨f, f⟩ s).listed j f := by
  intro r' hr'
  rw [(reopens_rescanAdd (s := s) j ⟨f, f⟩).2 j, if_pos rfl] at hr'
  obtain ⟨r, hr, rfl⟩ := Option.map_eq_some_iff.mp hr'
  exact inRanges_addRange (ho _ _ hr) le_rfl (.inr ⟨le_rfl, le_rfl⟩)

section
variable (c : CtxId) (s : State)

theorem abandonCtx_fcu : (abandonCtx c s).fcu = { s.fcu with ctx := s.fcu.ctx.set c none } := by
  unfold abandonCtx
  split
  · next h =>
    have hset : s.fcu.ctx.set c none = s.fcu.ctx := by
      cases c <;> simp only [Two.get] at h <;> simp [Two.set, ← h]
    rw [hset]
  · simp [State.setCtx]

theorem abandonCtx_rpq : (abandonCtx c s).rpq =
    if s.fcu.ctx.get c = none then s.rpq else { s.rpq with prev := [], prevFrom := none } := by
  unfold abandonCtx
  split
  · next h => rw [if_pos h]
  · next x h => simp [h, breakChains]

theorem rescansGrow_abandonCtx : RescansGrow s (abandonCtx c s) := by
  unfold abandonCtx
  split
  · exact .of_reg rfl
  · next x _ => exact (rescansGrow_rescanAdd x.handle x.frame s).trans (.of_reg (by simp))

theorem listed_abandonCtx (ho : ListsOrdered s) {x : Ctx} (hx : s.fcu.ctx.get c = some x) :
    (abandonCtx c s).listed x.handle x.frame := by
  have h := listed_rescanAdd ho x.handle x.frame
  simpa [abandonCtx, hx, State.listed, State.reel] using h

end

/-! ### Both contexts abandoned -/

/-- The contexts abandoned at a fault, the older first. -/
def abandonBoth (s : State) : State := abandonCtx s.fcu.newest (abandonCtx s.fcu.older s)

/-- Every context is the newest one or the older one. -/
theorem Fcu.eq_newest_or_older (u : Fcu) (c : CtxId) : c = u.newest ∨ c = u.older := by
  unfold Fcu.older
  cases c <;> cases u.newest <;> simp [CtxId.other]

section
variable (s : State)

theorem abandonBoth_fcu : (abandonBoth s).fcu = { s.fcu with ctx := ⟨none, none⟩ } := by
  rw [abandonBoth, abandonCtx_fcu, abandonCtx_fcu]
  unfold Fcu.older
  cases s.fcu.newest <;> rfl

theorem abandonBoth_rpq_open (h : ∃ i, s.fcu.ctx.get i ≠ none) :
    (abandonBoth s).rpq = { s.rpq with prev := [], prevFrom := none } := by
  obtain ⟨i, hi⟩ := h
  rw [abandonBoth, abandonCtx_rpq, abandonCtx_rpq, abandonCtx_fcu]
  rcases s.fcu.eq_newest_or_older i with rfl | rfl
  · have hother : (s.fcu.ctx.set s.fcu.older none).get s.fcu.newest = s.fcu.ctx.get s.fcu.newest :=
      Two.get_set_other _ _ _
    rw [hother, if_neg hi]
    split <;> rfl
  · rw [if_neg hi]
    split <;> rfl

theorem abandonBoth_rpq_free (h : ∀ i, s.fcu.ctx.get i = none) : (abandonBoth s).rpq = s.rpq := by
  have hother : (s.fcu.ctx.set s.fcu.older none).get s.fcu.newest = s.fcu.ctx.get s.fcu.newest :=
    Two.get_set_other _ _ _
  rw [abandonBoth, abandonCtx_rpq, abandonCtx_rpq, abandonCtx_fcu, hother, if_pos (h _), if_pos (h _)]

theorem rescansGrow_abandonBoth : RescansGrow s (abandonBoth s) :=
  (rescansGrow_abandonCtx _ s).trans (rescansGrow_abandonCtx _ _)

/-- R79: the frame of every open context is listed. -/
theorem listed_abandonBoth (ho : ListsOrdered s) {i : CtxId} {x : Ctx} (hx : s.fcu.ctx.get i = some x) :
    (abandonBoth s).listed x.handle x.frame := by
  have hgrow := rescansGrow_abandonCtx s.fcu.older s
  rcases s.fcu.eq_newest_or_older i with rfl | rfl
  · refine listed_abandonCtx _ _ (ho.grown hgrow) ?_
    rw [abandonCtx_fcu]
    exact (Two.get_set_other _ _ _).trans hx
  · exact (rescansGrow_abandonCtx _ _).listed (ho.grown hgrow) (listed_abandonCtx _ _ ho hx)

theorem kept_abandonBoth : Kept [.reg, .fcu, .rpq, .sht, .alt] s (abandonBoth s) := by simp [abandonBoth]

end

/-! ### FAULT (R39) -/

/-- In FAULT with the capstan standing and the light out nothing is left to send. -/
theorem refresh_dark (hst : s.trc.state = .fault) (hc : s.trc.capstan = 0) (hl : s.trc.light = 0) :
    refreshLight (refreshCapstan s) = s := by
  have hcapstan : refreshCapstan s = s := by
    rw [refreshCapstan, if_pos (by rw [capstanTarget_still (.inr (.inr (.inr hst))), hc])]
  rw [hcapstan, refreshLight, if_pos (by simp [State.lightLevel, hst, hl])]

theorem enter_fault_dark (hc : s.trc.capstan = 0) (hl : s.trc.light = 0) : enter .fault s =
    (s.setTrc { s.trc with
      state := .fault, holdLight := none, tensionHigh := none, tensionLow := none, inch := none
      backupTarget := none }).setPru { s.pru with expect := none } := by
  rw [enter_eq]
  exact refresh_dark rfl hc hl

/-- FAULT entered with its cause, before the contexts are abandoned. -/
def faulted (cause : FaultCause) (s : State) : State :=
  enter .fault (sendLight 0 (sendCapstan 0
    (clearSplices (s.setTrc { s.trc with fault := some cause, holds := s.trc.holds.put .operator false }))))

theorem enterFault_eq (hu : s.trc.state ≠ .unthreaded) (hf : s.trc.state ≠ .fault) (cause : FaultCause) :
    enterFault cause s = raise .transportFault
      ((abandonBoth (faulted cause s)).setPru (abandonBoth (faulted cause s)).pru.atFault) := by
  rw [enterFault, if_neg (not_or.mpr ⟨hu, hf⟩)]
  rfl

theorem faulted_out (cause : FaultCause) :
    (faulted cause s).out = { s.out with head := s.out.head ++ [.capstan 0, .light 0] } := by
  rw [faulted, enter_fault_dark rfl rfl]
  simp [sendLight, sendCapstan, State.send]

theorem faulted_trc (cause : FaultCause) : (faulted cause s).trc = { s.trc with
    state := .fault, fault := some cause, holds := { s.trc.holds with operator := false }, capstan := 0, light := 0
    silence := 0, inch := none, backupTarget := none, spliceQueue := [], inZone := false, holdLight := none
    tensionHigh := none, tensionLow := none } := by
  rw [faulted, enter_fault_dark rfl rfl]
  rfl

theorem faulted_pru (cause : FaultCause) : (faulted cause s).pru = { s.pru with expect := none } := by
  rw [faulted, enter_fault_dark rfl rfl]
  rfl

theorem kept_faulted (cause : FaultCause) : Kept [.trc, .pru, .out] s (faulted cause s) := by simp [faulted]

theorem enterFault_trc (hu : s.trc.state ≠ .unthreaded) (hf : s.trc.state ≠ .fault) (cause : FaultCause) :
    (enterFault cause s).trc = (faulted cause s).trc := by
  rw [enterFault_eq hu hf]
  exact kept_abandonBoth _ .trc (by simp)

/-- The protections of R39 take the state in which the level is held and the timer that fired is idle. -/
def Protects (c : Instr) (cause : FaultCause) (s u : State) : Prop :=
  exec c s = .next (enterFault cause u) ∧ Kept [.trc, .out] s u ∧ u.out = ⟨[], []⟩ ∧
    u.trc = { s.trc with
      estop := s.trc.estop || decide (c = .estopAsserted), tensionHigh := u.trc.tensionHigh, tensionLow := u.trc.tensionLow }

theorem protects_of_fires {c : Instr} {cause : FaultCause} {s : State}
    (h : (c = .estopAsserted ∧ cause = .estop ∧ s.trc.estop = false) ∨
      (c = .tensionHighExpiry ∧ cause = .tensionHigh ∧ s.trc.tensionHigh = some 0) ∨
      (c = .tensionLowExpiry ∧ cause = .tensionLow ∧ s.trc.tensionLow = some 0) ∨
      (c = .headSilenceExpiry ∧ cause = .headSilent ∧ 50 ≤ s.trc.silence)) : ∃ u, Protects c cause s u := by
  rcases h with ⟨rfl, rfl, h⟩ | ⟨rfl, rfl, h⟩ | ⟨rfl, rfl, h⟩ | ⟨rfl, rfl, h⟩
  · refine ⟨(quiet s).setTrc { s.trc with estop := true }, ?_, by simp, rfl, by simp⟩
    simp [exec, execEstopAsserted, h]
  · refine ⟨(quiet s).setTrc { s.trc with tensionHigh := none }, ?_, by simp, rfl, by simp⟩
    simp [exec, execTensionHighExpiry, h]
  · refine ⟨(quiet s).setTrc { s.trc with tensionLow := none }, ?_, by simp, rfl, by simp⟩
    simp [exec, execTensionLowExpiry, h]
  · refine ⟨quiet s, ?_, by simp, rfl, by simp⟩
    simp [exec, execHeadSilenceExpiry, Config.silenceMs, h]

/-- Settles O15: `faulted` gives TRC and PRU, `abandonBoth` the contexts, the rescan lists and RPQ. -/
theorem protectionEntersFault : Obligations.ProtectionEntersFault := by
  intro s c cause hfires hst hnf
  obtain ⟨u, hexec, hkept, hout, hu⟩ := protects_of_fires hfires
  have hreg : u.reg = s.reg := hkept .reg (by simp)
  have hpru : u.pru = s.pru := hkept .pru (by simp)
  have hfcu : u.fcu = s.fcu := hkept .fcu (by simp)
  have hrpq : u.rpq = s.rpq := hkept .rpq (by simp)
  have hcfg : u.cfg = s.cfg := hkept .cfg (by simp)
  have hust : u.trc.state = s.trc.state := by rw [hu]
  have huholds : u.trc.holds = s.trc.holds := by rw [hu]
  have huhandle : u.trc.handle = s.trc.handle := by rw [hu]
  have huestop : u.trc.estop = (s.trc.estop || decide (c = .estopAsserted)) := by rw [hu]
  rw [← hust] at hst hnf
  obtain ⟨v, hv⟩ : ∃ v, v = faulted cause u := ⟨_, rfl⟩
  have hteq := enterFault_eq hst hnf cause
  rw [← hv] at hteq
  have hvfcu : v.fcu = s.fcu := by rw [hv, kept_faulted cause .fcu (by simp), hfcu]
  have hvreg : v.reg = s.reg := by rw [hv, kept_faulted cause .reg (by simp), hreg]
  have hvrpq : v.rpq = s.rpq := by rw [hv, kept_faulted cause .rpq (by simp), hrpq]
  have hvreel : ∀ j, v.reel j = s.reel j := fun j => by simp [State.reel, hvreg]
  have hctx : ∀ i, v.fcu.ctx.get i = s.fcu.ctx.get i := fun i => by rw [hvfcu]
  have htrc := (enterFault_trc hst hnf cause).trans (faulted_trc cause)
  have htreel : ∀ j, (enterFault cause u).reel j = (abandonBoth v).reel j := fun j => by rw [hteq]; rfl
  have htfcu : (enterFault cause u).fcu = { s.fcu with ctx := ⟨none, none⟩ } := by
    rw [hteq, ← hvfcu]
    exact abandonBoth_fcu v
  have htrpq : (enterFault cause u).rpq = (abandonBoth v).rpq := by rw [hteq]; rfl
  have hgrow := rescansGrow_abandonBoth v
  refine ⟨enterFault cause u, hexec, ?_, ?_, ?_, ?_, ?_, ?_, ?_, ?_, ?_, ?_, ?_, ?_, ?_, ?_, ?_, fun i => ?_, ?_, ?_, ?_,
    fun j r hr => ?_, fun ho i x hx r' hr' => ?_, fun hopen => ?_, fun hfree => ?_, fun p hp => ?_, ?_⟩
  · rw [htrc]
  · rw [htrc]
  · rw [htrc]
  · rw [htrc]
  · have houts : (enterFault cause u).out = v.out := by rw [hteq]; exact kept_abandonBoth v .out (by simp)
    rw [houts, hv, faulted_out, hout]
    rfl
  · rw [htrc, huholds]
  · rw [htrc]
  · rw [htrc]
  · rw [htrc]
  · rw [htrc]
  · rw [htrc]
  · rw [htrc]
  · rw [htrc, huhandle]
  · rw [htrc, huestop]
  · have hpruv : (abandonBoth v).pru = { s.pru with expect := none } := by
      rw [← hpru, ← faulted_pru cause, ← hv]
      exact kept_abandonBoth v .pru (by simp)
    rw [hteq, raise_pru, State.setPru_pru, hpruv]
    rfl
  · rw [htfcu]
    cases i <;> rfl
  · rw [htfcu]
  · rw [htfcu]
  · rw [htfcu]
  · rw [← hvreel] at hr
    obtain ⟨r', hr'⟩ := (hgrow j).1 r hr
    obtain ⟨r₀, hr₀, he, -⟩ := (hgrow j).2 r' hr'
    obtain rfl : r₀ = r := by simpa using hr₀.symm.trans hr
    exact ⟨r', (htreel j).trans hr', he⟩
  · have hlists : ListsOrdered v := fun j r hr => ho.lists j r ((hvreel j).symm.trans hr)
    exact listed_abandonBoth v hlists ((hctx i).trans hx) r' ((htreel _).symm.trans hr')
  · rw [htrpq, ← hvrpq]
    exact abandonBoth_rpq_open v (by simpa only [hctx] using hopen)
  · rw [htrpq, ← hvrpq]
    exact abandonBoth_rpq_free v (by simpa only [hctx] using hfree)
  · rw [hteq]
    refine latched_raise (s := s) (fun q => route_of_cfg ?_ q) p hp
    have hcfgv : (abandonBoth v).cfg = v.cfg := kept_abandonBoth v .cfg (by simp)
    have hcfgu : v.cfg = u.cfg := by rw [hv, kept_faulted cause .cfg (by simp)]
    exact hcfgv.trans (hcfgu.trans hcfg)
  · have hwide : Kept faultBlocks s u := hkept.mono (by simp)
    simpa using hwide

end Sys2Proof.Machine
end

section
/-! SUPPORT. Position reports (R22, R29, R36, R44, R45): the position taken, the ends of an inch and of a backup, the splice
zones and passages. -/

namespace Sys2Proof.Machine

variable {s t u : State}

/-! ### The placing of the expectation (R51) -/

theorem Gauge.pitchMin_pos (g : Gauge) : 0 < g.pitchMin := by cases g <;> decide

/-- R48: a pitch within limits is above 0, so a line has one position. -/
theorem placed_of_limits (h : PitchInLimits s) {m : Mark} (hm : s.pru.anchor = some m) :
    Placed s.trc.position m s.pru (placeExpectation s).pru := by
  obtain ⟨⟨hmin, -, -⟩, ⟨-, hm2, -⟩, -⟩ := h
  have hg := s.pru.gauge.pitchMin_pos
  have hpu : 0 < s.pru.live.pu := by omega
  have hnum : 0 < s.pru.live.pu * s.pru.live.m2 := Nat.mul_pos hpu (by omega)
  exact placeExpectation_placed (Nat.add_pos_left hnum _) (by omega) hm

/-- R51: the placing leaves the pitch, the lock and the anchor. -/
theorem placeExpectation_base (s : State) : (placeExpectation s).pru.live = s.pru.live ∧
    (placeExpectation s).pru.lock = s.pru.lock ∧ (placeExpectation s).pru.anchor = s.pru.anchor := by
  unfold placeExpectation endLines
  split
  · exact ⟨rfl, rfl, rfl⟩
  · dsimp only
    split <;> exact ⟨rfl, rfl, rfl⟩

theorem placeExpectation_unanchored (h : s.pru.anchor = none) :
    (placeExpectation s).pru = { s.pru with expect := none } := by
  unfold placeExpectation
  rw [h]
  rfl

/-- The placing reads PRU and the position alone. -/
theorem placeExpectation_congr (hp : t.pru = s.pru) (hpos : t.trc.position = s.trc.position) :
    (placeExpectation t).pru = (placeExpectation s).pru := by
  unfold placeExpectation endLines
  rw [hp, hpos]
  split
  · rfl
  · split <;> rfl

/-! ### The position taken (R22) -/

/-- A position report has been received, and the position is recorded. -/
def positioned (p : Int) (s : State) : State :=
  (headReport (quiet s)).setTrc { (headReport (quiet s)).trc with position := p }

theorem positioned_trc (p : Int) : (positioned p s).trc =
    { s.trc with position := p, reportAge := 0, silence := 0, linkSeen := true } := by
  rw [positioned, State.setTrc_trc, headReport_trc]
  rfl

theorem positioned_head (p : Int) : (positioned p s).out.head =
    if s.trc.linkSeen then [] else [.capstan s.trc.capstan, .light s.trc.light] :=
  headReport_head (s := quiet s)

theorem kept_positioned (p : Int) : Kept [.trc, .out] s (positioned p s) := by simp [positioned]

@[simp] theorem positioned_pru (p : Int) : (positioned p s).pru = s.pru := kept_positioned p .pru (by simp)
@[simp] theorem positioned_cfg (p : Int) : (positioned p s).cfg = s.cfg := kept_positioned p .cfg (by simp)
@[simp] theorem positioned_setting (p : Int) (i : Nat) : (positioned p s).setting i = s.setting i := by simp [State.setting]
@[simp] theorem positioned_state (p : Int) : (positioned p s).trc.state = s.trc.state := by rw [positioned_trc]

/-- Blocks beside TRC and the output are kept by the report as they are by what follows it. -/
theorem Kept.after_positioned {l : List Block} (hl : [.trc, .out] ⊆ l) {p : Int} (h : Kept l (positioned p s) t) :
    Kept l s t := ((kept_positioned p).mono hl).trans h

/-! ### Outside SCANNING (R29, R36) -/

section
variable (p : BitVec 32)

theorem positioned_eq : (headReport (quiet s)).setTrc { (headReport (quiet s)).trc with position := p.toInt } =
    positioned p.toInt s := rfl

theorem exec_position_inching (hst : s.trc.state = .inching) : exec (.position p) s =
    .next (if inchReached p.toInt s.trc.inch then enterThreaded (positioned p.toInt s) else positioned p.toInt s) := by
  have hinch : (positioned p.toInt s).trc.inch = s.trc.inch := by rw [positioned_trc]
  simp only [exec, execPosition, takePosition, positioned_eq, positioned_state, hst, hinch]

theorem exec_position_backup (hst : s.trc.state = .backup) : exec (.position p) s =
    .next (if ∃ b ∈ s.trc.backupTarget, p.toInt ≤ b then resumeScanning (positioned p.toInt s) else positioned p.toInt s) := by
  have hback : (positioned p.toInt s).trc.backupTarget = s.trc.backupTarget := by rw [positioned_trc]
  simp only [exec, execPosition, takePosition, positioned_eq, positioned_state, hst, hback]
  cases s.trc.backupTarget with
  | none => simp
  | some b => simp

theorem exec_position_scanning (hst : s.trc.state = .scanning) : exec (.position p) s =
    .next (takePassages (declareMissing missingFuel p.toInt (testZones (positioned p.toInt s)))) := by
  simp only [exec, execPosition, takePosition, positioned_eq, positioned_state, hst]

/-- A report that ends nothing leaves the position alone. -/
theorem exec_position_recorded (hst : s.trc.state ≠ .scanning)
    (hinch : s.trc.state = .inching → inchReached p.toInt s.trc.inch = false)
    (hback : s.trc.state = .backup → ¬∃ b ∈ s.trc.backupTarget, p.toInt ≤ b) :
    exec (.position p) s = .next (positioned p.toInt s) := by
  cases hs : s.trc.state with
  | scanning => exact absurd hs hst
  | inching => rw [exec_position_inching p hs, hinch hs, if_neg Bool.false_ne_true]
  | backup => rw [exec_position_backup p hs, if_neg (hback hs)]
  | unthreaded | threaded | shuttle | hold | fault =>
    simp only [exec, execPosition, takePosition, positioned_eq, positioned_state, hs]

end

theorem inchReached_iff (p : Int) (i : Inch) :
    inchReached p (some i) = true ↔ if i.forward then i.target ≤ p else p ≤ i.target := by
  simp only [inchReached]
  split <;> simp

/-- The end of a backup before SCANNING is entered. -/
def resuming (s : State) : State :=
  let w := s.setTrc { s.trc with inZone := s.trc.spliceQueue.any (s.inZoneOf s.trc.position) }
  if w.pru.lock = .seeking ∨ w.pru.linesOver then w else placeExpectation w

theorem resumeScanning_eq (s : State) : resumeScanning s = enter .scanning (resuming s) := rfl

theorem kept_resuming (s : State) : Kept [.trc, .pru] s (resuming s) := by
  unfold resuming
  dsimp only
  split <;> simp

theorem resuming_trc (s : State) : (resuming s).trc =
    { s.trc with inZone := s.trc.spliceQueue.any (s.inZoneOf s.trc.position) } := by
  unfold resuming
  dsimp only
  split <;> simp

/-- R51: the expectation is placed unless the run seeks or has its last line behind it. -/
theorem resuming_pru (s : State) : (resuming s).pru =
    if s.pru.lock = .seeking ∨ s.pru.linesOver = true then s.pru else (placeExpectation s).pru := by
  have hcongr : (placeExpectation (s.setTrc { s.trc with
      inZone := s.trc.spliceQueue.any (s.inZoneOf s.trc.position) })).pru = (placeExpectation s).pru :=
    placeExpectation_congr rfl rfl
  rw [resuming, apply_ite State.pru, hcongr]
  rfl

/-- R29, R66: an inch ends in THREADED. -/
theorem inchEnds (s : State) (p : BitVec 32) (hst : s.trc.state = .inching) {i : Inch} (hi : s.trc.inch = some i)
    (hpending : s.pru.commitPending = false) (hreached : if i.forward then i.target ≤ p.toInt else p.toInt ≤ i.target) :
    exec (.position p) s = .next (enter .threaded (positioned p.toInt s)) := by
  rw [exec_position_inching p hst, hi, if_pos ((inchReached_iff _ i).mpr hreached), enterThreaded, applyPending, if_neg]
  simp [hpending]

/-- Settles O18: a report that ends nothing, the end of an inch (`enter .threaded`), the end of a backup (`resuming`). -/
theorem positionReportOutsideScanning : Obligations.PositionReportOutsideScanning := by
  refine ⟨fun s p hst hinch hback => ?_, fun s p i hst hi hpending hreached => ?_, fun s p b hst hb hle => ?_⟩
  · refine ⟨_, exec_position_recorded p hst (fun h => ?_) (fun h => ?_), positioned_trc _, positioned_head _,
      kept_positioned _⟩
    · cases hi : s.trc.inch with
      | none => rfl
      | some i =>
        have hnot := hinch h i hi
        rw [← Bool.not_eq_true, inchReached_iff]
        split <;> simp_all
    · rintro ⟨b, hb, hle⟩
      exact absurd (hback h b hb) (Int.not_lt.mpr hle)
  · refine ⟨_, inchEnds s p hst hi hpending hreached, by simp, by simp [positioned_trc], by simp [enter_capstan], by simp,
      by simp [TransportState.usesHoldLight, State.holdLightLoad], ?_, by simp [positioned_trc], by simp [positioned_trc],
      by simp, ?_⟩
    · simp [enter_light, positioned_trc]
    · exact Kept.after_positioned (p := p.toInt) (by simp) (by simp)
  · have hexec : exec (.position p) s = .next (enter .scanning (resuming (positioned p.toInt s))) := by
      rw [exec_position_backup p hst, if_pos ⟨b, hb, hle⟩, resumeScanning_eq]
    obtain ⟨v, hv⟩ : ∃ v, v = resuming (positioned p.toInt s) := ⟨_, rfl⟩
    have hkept := kept_resuming (positioned p.toInt s)
    have hpru := resuming_pru (positioned p.toInt s)
    have htrc := resuming_trc (positioned p.toInt s)
    rw [← hv] at hexec hkept hpru htrc
    have hset : ∀ i, v.setting i = s.setting i := fun i => by
      rw [State.setting, hkept .cfg (by simp), positioned_cfg, State.setting]
    have hplaced : s.pru.lock ≠ .seeking → s.pru.linesOver = false →
        v.pru = (placeExpectation (positioned p.toInt s)).pru := fun hlock hover => by
      rw [hpru, positioned_pru, if_neg (not_or.mpr ⟨hlock, by simp [hover]⟩)]
    have hlive : v.pru.live = s.pru.live := by
      rw [hpru]
      split
      · rw [positioned_pru]
      · rw [(placeExpectation_base _).1, positioned_pru]
    refine ⟨_, hexec, by simp, by simp [htrc, positioned_trc], by simp, by simp [htrc, positioned_trc], ?_, ?_, ?_,
      fun hover => ?_, fun hlock hover => ⟨fun hanchor => ?_, fun hlim m hanchor => ?_⟩, ?_⟩
    · simp [enter_capstan, hset, hlive, htrc, positioned_trc]
    · simp [enter_light, hset, htrc, positioned_trc]
    · simp [TransportState.usesHoldLight]
    · rw [enter_pru, if_pos rfl, hpru, positioned_pru, if_pos hover]
    · rw [enter_pru, if_pos rfl, hplaced hlock hover, placeExpectation_unanchored (by simpa using hanchor), positioned_pru]
    · have hp := placed_of_limits (s := positioned p.toInt s) (by simpa [PitchInLimits] using hlim) (by simpa using hanchor)
      rw [enter_pru, if_pos rfl, hplaced hlock hover]
      simpa [positioned_trc] using hp
    · have hwide : Kept [.trc, .pru, .out] (positioned p.toInt s) v := hkept.mono (by simp)
      exact Kept.after_positioned (by simp) (by simpa using hwide)

end Sys2Proof.Machine
end

section
/-! SUPPORT. Position reports in SCANNING: the splice zones tested (R44) and the splices passed (R45, R21, R54). -/

namespace Sys2Proof.Machine

variable {s t u : State}

/-! ### Splice zones (R44) -/

theorem inZoneOf_iff (p : Int) (x : Splice) : s.inZoneOf p x = true ↔
    x.rise + s.setting Setting.spliceLead - s.setting Setting.spliceMargin ≤ p ∧
      ∀ f, x.fall = some f → p ≤ f + s.setting Setting.spliceLead + s.setting Setting.spliceMargin := by
  unfold State.inZoneOf State.zoneStart State.zoneEnd
  cases x.fall <;> simp

theorem pastZone_iff (p : Int) (x : Splice) : s.pastZone p x = true ↔
    ∃ f, x.fall = some f ∧ f + s.setting Setting.spliceLead + s.setting Setting.spliceMargin < p := by
  unfold State.pastZone State.zoneEnd
  cases x.fall <;> simp

/-- R44: the test of the zones, where the silence count stands at 0. -/
theorem testZones_trc (h : s.trc.silence = 0) : (testZones s).trc = { s.trc with
    inZone := (testZones s).trc.inZone, capstan := (testZones s).trc.capstan } := by
  unfold testZones refreshCapstan
  split
  · rfl
  · simp [sendCapstan, h, State.send]

theorem testZones_inZone : (testZones s).trc.inZone = s.trc.spliceQueue.any (s.inZoneOf s.trc.position) := by
  simp [testZones]

theorem testZones_capstan (h : s.trc.state = .scanning) : (testZones s).trc.capstan =
    ((if (testZones s).trc.inZone then min s.trc.scanSpeed (s.setting Setting.spliceSpeed) else s.trc.scanSpeed) *
      s.pru.live.pInt / 10 : Nat) := by
  rw [testZones_inZone]
  simp [testZones, State.capstanTarget, h, State.setting]

@[simp] theorem testZones_spliceQueue : (testZones s).trc.spliceQueue = s.trc.spliceQueue := by simp [testZones]
@[simp] theorem testZones_position : (testZones s).trc.position = s.trc.position := by simp [testZones]
@[simp] theorem testZones_state : (testZones s).trc.state = s.trc.state := by simp [testZones]
@[simp] theorem testZones_handle : (testZones s).trc.handle = s.trc.handle := by simp [testZones]

/-! ### Splice passages (R45, R21, R54) -/

/-- R45: no zone end passed. -/
theorem takePassages_none (h : s.trc.spliceQueue.filter (s.pastZone s.trc.position) = []) : takePassages s = s := by
  unfold takePassages
  split
  · rfl
  · simp [h]

theorem takePassages_some (hst : s.trc.state = .scanning) (h : s.trc.spliceQueue.filter (s.pastZone s.trc.position) ≠ []) :
    takePassages s = testZones ((s.trc.spliceQueue.filter (s.pastZone s.trc.position)).foldl (fun t _ => onePassage t)
      (s.setTrc { s.trc with spliceQueue := s.trc.spliceQueue.filter fun x => !s.pastZone s.trc.position x })) := by
  simp [takePassages, hst, List.isEmpty_eq_false_iff.mpr h]

/-- Between `s` and `t` the reel of handle h, whose record was `r`, has passed n splices, n at least 1. -/
structure Passed (h : Nat) (r : Reel) (n : Nat) (s t : State) : Prop where
  reel : OnlyReel h { r with splices := min 255 (r.splices + n) } s t
  seeking : s.pru.lock = .seeking → t.pru = s.pru
  unlocked : s.pru.lock ≠ .seeking →
    t.pru = { s.pru with lock := .unlocked, count := 0, reanchor := true, seekFrom := none }
  latches : Latches (if s.pru.lock = .locked then [.lockLost] else []) s t
  kept : Kept [.reg, .pru, .alt] s t

/-- R54: PRU told of a passage. -/
theorem splicePassage_seeking (h : s.pru.lock = .seeking) : splicePassage s = s := by rw [splicePassage, if_pos h]

theorem splicePassage_pru (h : s.pru.lock ≠ .seeking) : (splicePassage s).pru =
    { s.pru with lock := .unlocked, count := 0, reanchor := true, seekFrom := none } := by
  simp [splicePassage, h, unlock]

theorem latches_splicePassage (s : State) :
    Latches (if s.pru.lock = .locked then [.lockLost] else []) s (splicePassage s) := by
  by_cases h : s.pru.lock = .seeking
  · rw [splicePassage_seeking h, if_neg (by simp [h])]
    exact .nil rfl
  · have hset : Latches [] s (s.setPru { s.pru with lock := .unlocked, count := 0, seekFrom := none }) := .nil rfl
    have hraise := hset.trans (.raiseIf (s.pru.lock == .locked) .lockLost) rfl
    simpa [splicePassage, h, unlock, Latches] using hraise

theorem passed_one {h : Nat} {r : Reel} (hh : s.trc.handle = some h) (hr : s.reel h = some r) :
    Passed h r 1 s (onePassage s) := by
  obtain ⟨u, hu⟩ : ∃ u, u = s.modReel h fun r => { r with splices := min 255 (r.splices + 1) } := ⟨_, rfl⟩
  have ht : onePassage s = splicePassage u := by rw [hu, onePassage, hh]
  have hpru : u.pru = s.pru := by rw [hu]; rfl
  have halt : Latches [] s u := .nil (by rw [hu]; rfl)
  have hreel := onlyReel_modReel hr fun r => { r with splices := min 255 (r.splices + 1) }
  rw [ht]
  refine ⟨(hu ▸ hreel).of_reg (by simp), fun hs => ?_, fun hs => ?_, ?_, by simp [hu]⟩
  · rw [splicePassage_seeking (hpru ▸ hs), hpru]
  · rw [splicePassage_pru (hpru ▸ hs), hpru]
  · rw [← hpru]
    exact halt.trans (latches_splicePassage u) (by rw [hu]; rfl)

theorem Passed.next {h : Nat} {r : Reel} {n : Nat} (k : Passed h r n s t) (hh : t.trc.handle = some h) :
    Passed h r (n + 1) s (onePassage t) := by
  obtain ⟨hreel, hseeking, hunlocked, hlatches, hkept⟩ := passed_one hh k.reel.1
  have hcap : min 255 (min 255 (r.splices + n) + 1) = min 255 (r.splices + (n + 1)) := by omega
  have hunl : t.pru.lock ≠ .locked := by
    by_cases hs : s.pru.lock = .seeking
    · simp [k.seeking hs, hs]
    · simp [k.unlocked hs]
  refine ⟨by simpa only [hcap] using k.reel.trans hreel, fun hs => ?_, fun hs => ?_, ?_, k.kept.trans hkept⟩
  · rw [hseeking (by rw [k.seeking hs, hs]), k.seeking hs]
  · rw [hunlocked (by simp [k.unlocked hs]), k.unlocked hs]
  · rw [if_neg hunl] at hlatches
    simpa using k.latches.trans hlatches (k.kept .cfg (by simp))

theorem Passed.foldl {h : Nat} {r : Reel} : ∀ (l : List Splice) {n : Nat} {t : State}, Passed h r n s t →
    t.trc.handle = some h → Passed h r (n + l.length) s (l.foldl (fun t _ => onePassage t) t)
  | [], _, _, k, _ => k
  | _ :: l, n, _, k, hh => by
    have := Passed.foldl l (k.next hh) (by simpa using hh)
    rwa [Nat.add_assoc, Nat.add_comm 1] at this

/-- R45: every entry that leaves the queue is one passage. -/
theorem passed_all {h : Nat} {r : Reel} (hh : s.trc.handle = some h) (hr : s.reel h = some r) {gone : List Splice}
    (hne : gone ≠ []) : Passed h r gone.length s (gone.foldl (fun t _ => onePassage t) s) := by
  cases gone with
  | nil => exact absurd rfl hne
  | cons x l =>
    have := Passed.foldl l (passed_one hh hr) (by simpa using hh)
    rwa [Nat.add_comm] at this

/-- A list cut where a condition ends, found again by the condition. -/
theorem filter_append_split {α : Type} {c : α → Bool} {gone rest : List α} (hg : ∀ x ∈ gone, c x = true)
    (hr : ∀ x ∈ rest, c x = false) :
    (gone ++ rest).filter c = gone ∧ ((gone ++ rest).filter fun x => !c x) = rest := by
  have hr' : ∀ x ∈ rest, ¬c x = true := fun x hx => by simp [hr x hx]
  have hg' : ∀ x ∈ gone, ¬(!c x) = true := fun x hx => by simp [hg x hx]
  have hrn : ∀ x ∈ rest, (!c x) = true := fun x hx => by simp [hr x hx]
  rw [List.filter_append, List.filter_append, List.filter_eq_self.mpr hg, List.filter_eq_nil_iff.mpr hr',
    List.filter_eq_nil_iff.mpr hg', List.filter_eq_self.mpr hrn]
  simp

/-- A report that declares no line missing tests the zones and takes the passages. -/
theorem exec_position_inside (p : BitVec 32) (hst : s.trc.state = .scanning)
    (hin : ∀ m, s.pru.expect = some m → p.toInt ≤ m.pos + s.pru.windowHalf) :
    exec (.position p) s = .next (takePassages (testZones (positioned p.toInt s))) := by
  rw [exec_position_scanning p hst, declareMissing_inside (by simpa using hin)]

theorem pastZone_tested (p : Int) (x : Splice) : (testZones (positioned p s)).pastZone p x = true ↔
    ∃ f, x.fall = some f ∧ f + s.setting Setting.spliceLead + s.setting Setting.spliceMargin < p := by
  simp [pastZone_iff]

/-- Settles O19: `testZones` is all a report without a passage does; `passed_all` says what its passages do. -/
theorem positionReportInScanning : Obligations.PositionReportInScanning := by
  refine ⟨fun s p hst hlink hin hzones => ?_, fun s p h r hst hh hr hin gone rest hne hq hgone hrest => ?_⟩
  · obtain ⟨w, hw⟩ : ∃ w, w = positioned p.toInt s := ⟨_, rfl⟩
    have hwtrc : w.trc = { s.trc with position := p.toInt, reportAge := 0, silence := 0, linkSeen := true } := by
      rw [hw, positioned_trc]
    have hpos : (testZones w).trc.position = p.toInt := by simp [hwtrc]
    have hnone : (testZones w).trc.spliceQueue.filter ((testZones w).pastZone (testZones w).trc.position) = [] := by
      rw [List.filter_eq_nil_iff]
      intro x hx hpast
      rw [hpos, hw, pastZone_tested] at hpast
      obtain ⟨f, hf, hlt⟩ := hpast
      exact absurd (hzones x (by simpa [hwtrc] using hx) f hf) (Int.not_le.mpr hlt)
    have hexec := exec_position_inside p hst hin
    rw [← hw, takePassages_none hnone] at hexec
    have hset : ∀ i, w.setting i = s.setting i := fun i => by rw [hw, positioned_setting]
    have hwpru : w.pru = s.pru := by rw [hw, positioned_pru]
    refine ⟨_, hexec, ?_, ?_, ?_, ?_⟩
    · rw [testZones_inZone]
      simp [inZoneOf_iff, hwtrc, hset]
    · rw [testZones_capstan (by simp [hwtrc, hst])]
      simp [hwtrc, hset, hwpru]
    · rw [testZones_trc (by rw [hwtrc]), hwtrc]
    · rw [hw]
      exact Kept.after_positioned (p := p.toInt) (by simp) (by simp)
  · obtain ⟨w, hw⟩ : ∃ w, w = testZones (positioned p.toInt s) := ⟨_, rfl⟩
    have hwtrc : w.trc.state = s.trc.state ∧ w.trc.handle = s.trc.handle ∧ w.trc.spliceQueue = s.trc.spliceQueue ∧
        w.trc.position = p.toInt := by
      simp [hw, positioned_trc]
    obtain ⟨hwst, hwh, hwq, hwpos⟩ := hwtrc
    have hkept : Kept [.trc, .out] s w := by
      rw [hw]
      exact Kept.after_positioned (p := p.toInt) (by simp) (by simp)
    have hpast : ∀ x, w.pastZone w.trc.position x = true ↔
        ∃ f, x.fall = some f ∧ f + s.setting Setting.spliceLead + s.setting Setting.spliceMargin < p.toInt := fun x => by
      rw [hwpos, hw, pastZone_tested]
    have hgoneAll : ∀ x ∈ gone, w.pastZone w.trc.position x = true := fun x hx => (hpast x).mpr (hgone x hx)
    have hrestNone : ∀ x ∈ rest, w.pastZone w.trc.position x = false := fun x hx => by
      rw [← Bool.not_eq_true, hpast]
      rintro ⟨f, hf, hlt⟩
      exact absurd (hrest x hx f hf) (Int.not_le.mpr hlt)
    obtain ⟨hfilter, hfilter'⟩ := filter_append_split hgoneAll hrestNone
    rw [← hq, ← hwq] at hfilter hfilter'
    have hexec := exec_position_inside p hst hin
    rw [← hw, takePassages_some (hwst.trans hst) (by rwa [hfilter]), hfilter, hfilter'] at hexec
    obtain ⟨v, hv⟩ : ∃ v, v = w.setTrc { w.trc with spliceQueue := rest } := ⟨_, rfl⟩
    have hvkept : Kept [.trc, .out] s v := by rw [hv]; simpa using hkept
    have hvreg : v.reg = s.reg := hvkept .reg (by simp)
    have hvpru : v.pru = s.pru := hvkept .pru (by simp)
    rw [← hv] at hexec
    have hpassed := passed_all (s := v) (h := h) (r := r) (by simp [hv, hwh, hh])
      (by simpa [State.reel, hvreg] using hr) hne
    obtain ⟨y, hy⟩ : ∃ y, y = gone.foldl (fun t _ => onePassage t) v := ⟨_, rfl⟩
    rw [← hy] at hexec hpassed
    have hytrc : y.trc = v.trc := hpassed.kept .trc (by simp)
    obtain ⟨hreel, hothers, hconfirm⟩ := hpassed.reel
    refine ⟨_, hexec, by simp [hytrc, hv], by simp [hytrc, hv, hwst, hst], by simpa using hreel, fun j hj => ?_, ?_,
      fun hs => ?_, fun hs => ?_, ?_, ?_⟩
    · simpa [State.reel, hvreg] using hothers j hj
    · simpa [hvreg] using hconfirm
    · simpa [hvpru] using hpassed.seeking (hvpru ▸ hs)
    · simpa [hvpru] using hpassed.unlocked (hvpru ▸ hs)
    · have hl : Latches [] s v := .nil (hvkept .alt (by simp))
      have := hl.trans hpassed.latches (hvkept .cfg (by simp))
      simpa [hvpru, Latches] using this
    · have h1 : Kept [.reg, .trc, .pru, .alt, .out] s v := hvkept.mono (by simp)
      have h2 : Kept [.reg, .trc, .pru, .alt, .out] v y := hpassed.kept.mono (by simp)
      simpa using h1.trans h2

end Sys2Proof.Machine
end

section
/-! SUPPORT. The motion commands (R28 to R32, R35, R40): SET_ORIGIN, INCH, SHUTTLE, PAUSE, RESUME, STOP, CLEAR_FAULT. -/

namespace Sys2Proof.Machine

variable {s t u : State}

@[simp] theorem State.setTrc_setting (x : Trc) (i : Nat) : (s.setTrc x).setting i = s.setting i := rfl
@[simp] theorem State.setPru_setting (x : Pru) (i : Nat) : (s.setPru x).setting i = s.setting i := rfl

/-- R24: the states in which the light is out, whatever the gate heat. -/
theorem enter_light_out {st : TransportState} (h : st = .unthreaded ∨ st = .shuttle ∨ st = .backup ∨ st = .fault) :
    (enter st s).trc.light = 0 := by
  rw [enter_light]
  rcases h with rfl | rfl | rfl | rfl <;> exact ite_self 0

/-! ### Re-anchoring and the origin (R28, R53) -/

theorem latches_unlock (s : State) : Latches (if s.pru.lock = .locked then [.lockLost] else []) s (unlock s) := by
  have hset : Latches [] s (s.setPru { s.pru with lock := .unlocked, count := 0, seekFrom := none }) := .nil rfl
  simpa [unlock] using hset.trans (.raiseIf (s.pru.lock == .locked) .lockLost) rfl

/-- R53: a re-anchoring of a film that stands. -/
theorem reanchorAt_pru (hst : s.trc.state ≠ .scanning) (m : Mark) : (reanchorAt m s).pru =
    { s.pru with
      anchor := some m, a1 := 0, a2 := 0, expect := none, lock := .unlocked, count := 0, missing := 0, reanchor := false
      seekFrom := none, window := if s.pru.liveReg.adapt = 1 then s.pru.windowAfter m.frame else .off } := by
  simp [reanchorAt, unlock, anchorAt, hst, Pru.windowAfter]

theorem latches_reanchorAt (m : Mark) (s : State) :
    Latches (if s.pru.lock = .locked then [.lockLost] else []) s (reanchorAt m s) := by
  have hanchor : Latches [] s (anchorAt m s) := .nil rfl
  exact hanchor.trans (latches_unlock (anchorAt m s)) rfl

/-- R28: the edge becomes the origin and the anchor of frame 0. -/
theorem setOriginAt_pru (hst : s.trc.state ≠ .scanning) (e : Int) : (setOriginAt e s).pru =
    { s.pru with
      origin := some e, anchor := some ⟨e, 0⟩, a1 := 0, a2 := 0, expect := none, lastLine := none, lock := .unlocked
      count := 0, missing := 0, reanchor := false, seekFrom := none
      window := if s.pru.liveReg.adapt = 1 then .frame (2 ^ s.pru.liveReg.w) else .off } := by
  simp [setOriginAt, reanchorAt_pru hst, Pru.windowAfter]

theorem setOriginAt_rpq (e : Int) : (setOriginAt e s).rpq = { s.rpq with prev := [], prevFrom := none } := by
  simp [setOriginAt, breakChains]

theorem latches_setOriginAt (e : Int) (s : State) :
    Latches (if s.pru.lock = .locked then [.lockLost] else []) s (setOriginAt e s) := latches_reanchorAt ⟨e, 0⟩ s

/-! ### Requests -/

/-- A clamp of R29 to R31 as the specification writes it. -/
theorem clampNat_eq {lo hi : Nat} (h : lo ≤ hi) (v : Nat) : clampNat lo hi v = max lo (min hi v) := by
  unfold clampNat
  split
  · omega
  · split <;> omega

theorem clamped_eq (v w : Nat) (results : List Byte) :
    Reply.clamped (v != w) results = ⟨if v = w then .ok else .okClamped, results⟩ := by
  simp only [Reply.clamped, bne_iff_ne, ne_eq, ite_not]

section
variable {rq : Rq}

/-- R28: SET_ORIGIN's checks and its effect. -/
theorem exec_setOrigin (hserved : Served rq (.role .scan) s) :
    let u := arrive rq.port s
    let refused := fun st => ∃ t, exec (.setOrigin rq) s = .next t ∧ Answered rq st [] [] u t
    (s.trc.state ≠ .threaded → refused .state) ∧
    (s.trc.state = .threaded →
      (∀ e, s.pru.lastEdge = some e → s.pru.live.pInt / 2 < (e - s.trc.position).natAbs) → refused .noLine) ∧
    (s.trc.state = .threaded → ∀ e, s.pru.lastEdge = some e →
      (e - s.trc.position).natAbs ≤ s.pru.live.pInt / 2 →
      ∃ t, exec (.setOrigin rq) s = .next t ∧ Answered rq .ok (i32 e) [.pru, .rpq, .alt] u t ∧
        t.pru = (setOriginAt e u).pru ∧ t.rpq = (setOriginAt e u).rpq ∧ t.alt = (setOriginAt e u).alt) := by
  refine ⟨fun hst => ?_, fun hst hfar => ?_, fun hst e he hnear => ?_⟩
  · exact exec_of_same rfl hserved (by simp [setOriginBody, hst, Reply.only])
  · refine exec_of_same rfl hserved ?_
    cases he : s.pru.lastEdge with
    | none => simp [setOriginBody, hst, he, Reply.only]
    | some e => simp [setOriginBody, hst, he, hfar e he, Reply.only]
  · exact exec_of_body (v := setOriginAt e (arrive rq.port s)) rfl hserved
      (by simp [setOriginBody, hst, he, Nat.not_lt.mpr hnear, Reply.ok]) (by simp) (by simp) ⟨rfl, rfl, rfl⟩

/-- R29: INCH's checks in order and its effect. -/
theorem exec_inch (hserved : Served rq (.role .scan) s) (d : BitVec 32) :
    let u := arrive rq.port s
    let c := Instr.inch rq (some d)
    let refused := fun st => ∃ t, exec c s = .next t ∧ Answered rq st [] [] u t
    let good := d.toInt ≠ 0 ∧ d.toInt.natAbs ≤ 2000000
    (¬good → refused .badArg) ∧
    (good → s.trc.state = .inching → refused .busy) ∧
    (good → s.trc.state ≠ .inching → s.trc.state ≠ .threaded → refused .state) ∧
    (good → s.trc.state = .threaded →
      ∃ t, exec c s = .next t ∧ Answered rq .ok [] [.trc, .pru, .out] u t ∧
        t.trc = (startInch d.toInt u).trc ∧ t.pru = (startInch d.toInt u).pru) := by
  intro u c refused good
  have hbad : d.toInt = 0 ∨ 2000000 < d.toInt.natAbs ↔ ¬good := by simp only [good]; omega
  refine ⟨fun hn => ?_, fun hg hst => ?_, fun hg hni hnt => ?_, fun hg hst => ?_⟩
  · exact exec_of_same rfl hserved (if_pos (hbad.mpr hn))
  · refine exec_of_same rfl hserved ((if_neg (mt hbad.mp (not_not.mpr hg))).trans ?_)
    simp [hst, Reply.only]
  · refine exec_of_same rfl hserved ((if_neg (mt hbad.mp (not_not.mpr hg))).trans ?_)
    simp [hni, hnt, Reply.only]
  · refine exec_of_body (v := startInch d.toInt u) rfl hserved ((if_neg (mt hbad.mp (not_not.mpr hg))).trans ?_)
      (by simp) (by simp [u]) ⟨rfl, rfl⟩
    simp [hst, Reply.ok, u]

/-- R30: SHUTTLE's checks in order and its effect. -/
theorem exec_shuttle (hserved : Served rq (.role .scan) s) (a : ShuttleArgs) :
    let u := arrive rq.port s
    let c := Instr.shuttle rq (some a)
    let refused := fun st => ∃ t, exec c s = .next t ∧ Answered rq st [] [] u t
    let v := max 50 (min 2000 a.speed.toNat)
    (1 < a.direction.toNat → refused .badArg) ∧
    (a.direction.toNat ≤ 1 → s.trc.state ≠ .threaded → refused .state) ∧
    (a.direction.toNat ≤ 1 → s.trc.state = .threaded →
      ∃ t, exec c s = .next t ∧
        Answered rq (if v = a.speed.toNat then .ok else .okClamped) (u16 v) [.trc, .pru, .out] u t ∧
        t.trc = (startShuttle (decide (a.direction = 1)) v u).trc ∧
        t.pru = (startShuttle (decide (a.direction = 1)) v u).pru) := by
  intro u c refused v
  have hdir : (a.direction.toNat == 1) = decide (a.direction = 1) := by
    rw [Bool.eq_iff_iff]
    simp only [beq_iff_eq, decide_eq_true_eq]
    exact ⟨fun h => BitVec.eq_of_toNat_eq h, fun h => by rw [h]; rfl⟩
  refine ⟨fun hbad => ?_, fun hg hst => ?_, fun hg hst => ?_⟩
  · exact exec_of_same rfl hserved (if_pos hbad)
  · refine exec_of_same rfl hserved ((if_neg (Nat.not_lt.mpr hg)).trans ?_)
    simp [hst, Reply.only]
  · refine exec_of_body (v := startShuttle (decide (a.direction = 1)) v u) rfl hserved
      ((if_neg (Nat.not_lt.mpr hg)).trans ?_) (by simp) (by simp [u]) ⟨rfl, rfl⟩
    simp only [arrive_trc, hst, ne_eq, not_true_eq_false, if_false, clampNat_eq (by decide : 50 ≤ 2000), hdir, clamped_eq]
    rfl

end

/-- Settles O46: what the three commands start from THREADED follows from what entering a state leaves. -/
theorem motionCommandsStartFromThreaded : Obligations.MotionCommandsStartFromThreaded := by
  intro rq s hserved u refused far
  obtain ⟨horg1, horg2, horg3⟩ := exec_setOrigin hserved
  refine ⟨horg1, horg2, fun hst e he hnear => ?_, fun d => ?_, fun a => ?_⟩
  · obtain ⟨t, hexec, hans, hpru, hrpq, halt⟩ := horg3 hst e he hnear
    have hnot : (arrive rq.port s).trc.state ≠ .scanning := by simp [hst]
    refine ⟨t, hexec, hans, ?_, ?_, ?_⟩
    · rw [hpru, setOriginAt_pru hnot, arrive_pru]
    · rw [hrpq, setOriginAt_rpq, arrive_rpq]
    · have hl := latches_setOriginAt e (arrive rq.port s)
      rw [arrive_pru] at hl
      simpa only [Latches, halt] using hl
  · obtain ⟨h1, h2, h3, h4⟩ := exec_inch hserved d
    refine ⟨h1, h2, h3, fun hg hst => ?_⟩
    obtain ⟨t, hexec, hans, htrc, hpru⟩ := h4 hg hst
    refine ⟨t, hexec, hans, ?_, ?_, ?_, ?_, ?_, ?_, ?_, ?_, ?_⟩
    · simp [htrc, startInch]
    · simp [htrc, startInch]
    · simp [htrc, startInch, enter_capstan]
    · simp [htrc, startInch, TransportState.usesHoldLight, State.holdLightLoad]
    · simp [htrc, startInch, enter_light]
    · simp [htrc, startInch]
    · simp [htrc, startInch]
    · simp [htrc, startInch]
    · simp [hpru, startInch]
  · obtain ⟨h1, h2, h3⟩ := exec_shuttle hserved a
    refine ⟨h1, h2, fun hg hst => ?_⟩
    obtain ⟨t, hexec, hans, htrc, hpru⟩ := h3 hg hst
    refine ⟨t, hexec, hans, ?_, ?_, ?_, ?_, ?_, ?_, ?_, ?_⟩
    · simp [htrc, startShuttle]
    · simp [htrc, startShuttle, enter_capstan]
    · simp [htrc, startShuttle, enter_light_out]
    · simp [htrc, startShuttle, TransportState.usesHoldLight]
    · simp [htrc, startShuttle]
    · simp [htrc, startShuttle]
    · simp [htrc, startShuttle]
    · simp [hpru, startShuttle]

end Sys2Proof.Machine
end

section
/-! SUPPORT. PAUSE, RESUME, STOP and CLEAR_FAULT in every transport state (R32, R34 to R36, R40, R66). -/

namespace Sys2Proof.Machine

variable {s t u : State} {rq : Rq}

/-! ### The commit of a film that stands in THREADED (R66, R67) -/

/-- The recomputed target of a standing film is the one sent already. -/
theorem refreshCapstan_still (hst : s.trc.state = .threaded) (hc : s.trc.capstan = 0) : refreshCapstan s = s := by
  rw [refreshCapstan, if_pos (by rw [capstanTarget_still (.inr (.inl hst)), hc])]

theorem applyCommit_still (hst : s.trc.state = .threaded) (hc : s.trc.capstan = 0) (place : Option Mark) :
    (applyCommit place s).trc = s.trc := by
  unfold applyCommit
  dsimp only
  split
  · simp
  · rw [refreshCapstan_still]
    · split <;> simp
    · split <;> simp [hst]
    · split <;> simp [hc]

@[simp] theorem unlock_pru : (unlock s).pru = { s.pru with lock := .unlocked, count := 0, seekFrom := none } := by
  simp [unlock]

/-- R67: what a commit makes live. -/
theorem applyCommit_live (place : Option Mark) : (applyCommit place s).pru.commitPending = false ∧
    (applyCommit place s).pru.live = clampPitch s.pru.gauge s.pru.staged ∧
    (applyCommit place s).pru.liveReg = s.pru.stagedReg := by
  unfold applyCommit
  dsimp only
  split
  · simp [makeLive]
  · split <;> simp [makeLive, reanchorAt, anchorAt]

/-- The transport stands in THREADED as R32, R40 and R66 say, with the reel and the position of `s`. -/
structure Halted (s t : State) : Prop where
  state : t.trc.state = .threaded
  fault : t.trc.fault = s.trc.fault
  holds : t.trc.holds = s.trc.holds
  capstan : t.trc.capstan = 0
  holdLight : t.trc.holdLight = some (s.setting Setting.holdLightLimit * 1000)
  light : t.trc.light = if s.trc.gateHot then 0 else s.setting Setting.lightHold
  inch : t.trc.inch = none
  backupTarget : t.trc.backupTarget = none
  handle : t.trc.handle = s.trc.handle
  position : t.trc.position = s.trc.position
  spliceQueue : t.trc.spliceQueue = s.trc.spliceQueue
  idle : s.pru.commitPending = false → t.pru = { s.pru with expect := none } ∧ t.alt = s.alt
  commit : s.pru.commitPending = true → t.pru.commitPending = false ∧
    t.pru.live = clampPitch s.pru.gauge s.pru.staged ∧ t.pru.liveReg = s.pru.stagedReg

theorem enterThreaded_trc (s : State) : (enterThreaded s).trc = (enter .threaded s).trc := by
  unfold enterThreaded applyPending
  split
  · exact applyCommit_still (by simp) (by simp [enter_capstan]) _
  · rfl

theorem halted_enterThreaded (s : State) : Halted s (enterThreaded s) where
  state := by simp [enterThreaded_trc]
  fault := by simp [enterThreaded_trc]
  holds := by simp [enterThreaded_trc]
  capstan := by simp [enterThreaded_trc, enter_capstan]
  holdLight := by simp [enterThreaded_trc, TransportState.usesHoldLight, State.holdLightLoad]
  light := by simp [enterThreaded_trc, enter_light]
  inch := by simp [enterThreaded_trc]
  backupTarget := by simp [enterThreaded_trc]
  handle := by simp [enterThreaded_trc]
  position := by simp [enterThreaded_trc]
  spliceQueue := by simp [enterThreaded_trc]
  idle h := by simp [enterThreaded, applyPending, h]
  commit h := by
    have hlive := applyCommit_live (s := enter .threaded s) (enter .threaded s).commitPlace
    simpa [enterThreaded, applyPending, h] using hlive

/-! ### PAUSE and RESUME (R35) -/

theorem inRun_iff (st : TransportState) : st.inRun = true ↔ st = .scanning ∨ st = .hold ∨ st = .backup := by
  cases st <;> simp [TransportState.inRun]

theorem removeHold_absent {c : HoldCause} (h : s.trc.holds.has c = false) : removeHold c s = s := by
  rw [removeHold, if_neg (by simp [h])]

theorem addHold_present {c : HoldCause} (h : s.trc.holds.has c = true) : addHold c s = s := by
  rw [addHold, if_pos h]

/-- The state a request that is carried out leaves. -/
theorem exec_answers {c : Instr} {need : Need} {body : Body} {r : Reply} (hc : exec c s = .next (serve rq need body s))
    (h : Served rq need s) (hb : body (arrive rq.port s) = (t, r)) : exec c s = .next (answer rq r t) := by
  rw [hc, serve_of_served h, hb]

section
variable (hserved : Served rq (.role .scan) s)
include hserved

theorem exec_pause_resume_refused (h : ¬(s.trc.state = .scanning ∨ s.trc.state = .hold ∨ s.trc.state = .backup)) :
    (∃ t, exec (.pause rq) s = .next t ∧ Answered rq .state [] [] (arrive rq.port s) t) ∧
    ∃ t, exec (.resume rq) s = .next t ∧ Answered rq .state [] [] (arrive rq.port s) t := by
  have hnot : (arrive rq.port s).trc.state.inRun = false := by
    rw [← Bool.not_eq_true, inRun_iff, arrive_trc]
    exact h
  exact ⟨exec_of_same rfl hserved (by rw [pauseBody, hnot]; rfl), exec_of_same rfl hserved (by rw [resumeBody, hnot]; rfl)⟩

/-- PAUSE in a run is `addHold`. -/
theorem exec_pause {l : List Block} (h : s.trc.state = .scanning ∨ s.trc.state = .hold ∨ s.trc.state = .backup)
    (ht : addHold .operator (arrive rq.port s) = t) (hl : Block.spt ∉ l) (hk : Kept l (arrive rq.port s) t) :
    exec (.pause rq) s = .next (answer rq ⟨.ok, []⟩ t) ∧
      Answered rq .ok [] l (arrive rq.port s) (answer rq ⟨.ok, []⟩ t) := by
  have hrun : (arrive rq.port s).trc.state.inRun = true := (inRun_iff _).mpr (by simpa using h)
  have hbody : pauseBody (arrive rq.port s) = (t, ⟨.ok, []⟩) := by rw [pauseBody, if_pos hrun, ht]; rfl
  exact ⟨exec_answers rfl hserved hbody, answered_of_kept (r := ⟨.ok, []⟩) hl hk⟩

/-- RESUME in a run is `removeHold`. -/
theorem exec_resume {l : List Block} (h : s.trc.state = .scanning ∨ s.trc.state = .hold ∨ s.trc.state = .backup)
    (ht : removeHold .operator (arrive rq.port s) = t) (hl : Block.spt ∉ l) (hk : Kept l (arrive rq.port s) t) :
    exec (.resume rq) s = .next (answer rq ⟨.ok, []⟩ t) ∧
      Answered rq .ok [] l (arrive rq.port s) (answer rq ⟨.ok, []⟩ t) := by
  have hrun : (arrive rq.port s).trc.state.inRun = true := (inRun_iff _).mpr (by simpa using h)
  have hbody : resumeBody (arrive rq.port s) = (t, ⟨.ok, []⟩) := by rw [resumeBody, if_pos hrun, ht]; rfl
  exact ⟨exec_answers rfl hserved hbody, answered_of_kept (r := ⟨.ok, []⟩) hl hk⟩

end

/-- R32: STOP of a film that moves or is held. -/
theorem stopBody_moving (h : s.trc.state = .inching ∨ s.trc.state = .shuttle ∨ s.trc.state = .scanning ∨
    s.trc.state = .hold ∨ s.trc.state = .backup) : stopBody s = (stopRun s, .ok []) := by
  unfold stopBody
  rcases h with h | h | h | h | h <;> rw [h]

/-- R40: CLEAR_FAULT is taken in FAULT, with ESTOP released and the link alive. -/
theorem clearFaultBody_eq (s : State) : clearFaultBody s =
    if s.trc.state = .fault ∧ s.trc.estop = false ∧ s.trc.reportAge < 50 then
      (enterThreaded (s.setTrc { s.trc with fault := none }), .ok [])
    else (s, .only .state) := by
  simp [clearFaultBody, State.linkAlive, Config.silenceMs]

/-- Settles O48: `addHold`, `removeHold`, and the entry into THREADED by `halted_enterThreaded`. -/
theorem holdAndStopCommands : Obligations.HoldAndStopCommands := by
  intro rq s hserved u refused nothing holdsOnly inRun moving halted
  have htrc : u.trc = s.trc := arrive_trc _
  have hpru : u.pru = s.pru := arrive_pru _
  have hset : ∀ i, u.setting i = s.setting i := fun i => arrive_setting _ i
  have hhalted : ∀ {w t : State}, Halted w t → w.pru = s.pru → w.alt = u.alt → (∀ i, w.setting i = s.setting i) →
      w.trc.fault = none → w.trc.gateHot = s.trc.gateHot → w.trc.handle = s.trc.handle →
      w.trc.position = s.trc.position → ∀ r, halted (answer rq r t) := fun h hp ha hs hf hg hh hpos r =>
    ⟨h.state, h.fault.trans hf, h.capstan, hs _ ▸ h.holdLight, hg ▸ hs _ ▸ h.light, h.inch, h.backupTarget,
      h.handle.trans hh, h.position.trans hpos, fun hi => by
        obtain ⟨h1, h2⟩ := h.idle (by rw [hp, hi])
        exact ⟨hp ▸ h1, h2.trans ha⟩,
      fun hc => hp ▸ h.commit (by rw [hp, hc])⟩
  refine ⟨exec_pause_resume_refused hserved, fun hrun hop => ?_, fun hst hop => ?_, fun hst hop => ?_, fun hrun hop => ?_,
    fun hrun hop hlast => ?_, fun hst hholds => ?_, fun hst => ?_, fun hst => ?_, fun hmoving hfault => ?_, fun hno => ?_,
    fun hst hes hage => ?_⟩
  · obtain ⟨hexec, hans⟩ := exec_pause (l := []) hserved hrun (addHold_present (by rw [htrc]; exact hop)) (by simp)
      (.refl _ _)
    exact ⟨_, hexec, hans⟩
  · have hjoins := addHold_joins (s := u) (c := .operator) fun _ => by simp [htrc, hst]
    obtain ⟨hexec, hans⟩ := exec_pause (l := [.trc]) hserved (.inr (.inl hst)) hjoins (by simp) (by simp [u])
    exact ⟨_, hexec, hans, by simp [htrc, HoldSet.put]⟩
  · have henters := addHold_holdEntered (s := u) (c := .operator) (by rw [htrc]; exact hop) (by rw [htrc]; exact hst)
    have hrun : inRun := hst.imp id .inr
    obtain ⟨hexec, hans⟩ := exec_pause (l := [.trc, .pru, .alt, .out]) hserved hrun henters (by simp) (by simp [u])
    refine ⟨_, hexec, hans, ?_, ?_, ?_, ?_, ?_, ?_, ?_, ?_⟩
    · simp
    · simp [htrc, HoldSet.put]
    · simp [enter_capstan]
    · simp
    · simp [TransportState.usesHoldLight, State.holdLightLoad, hset]
    · simp [enter_light, hset, htrc]
    · simp [hpru]
    · have hsame : Latches [] u (enter .hold (u.setTrc { u.trc with holds := u.trc.holds.put .operator true })) :=
        .nil (by simp)
      exact hsame.raise (fun q => route_of_cfg (by simp) q) .holdEntered
  · obtain ⟨hexec, hans⟩ := exec_resume (l := []) hserved hrun (removeHold_absent (by rw [htrc]; exact hop)) (by simp)
      (.refl _ _)
    exact ⟨_, hexec, hans⟩
  · have hleaves := removeHold_leaves (s := u) (c := .operator) fun _ hst hempty => by
      rw [htrc] at hst hempty
      simp only [HoldSet.put, HoldSet.empty, HoldSet.mk.injEq] at hempty
      obtain ⟨hb, hg, -⟩ := hempty
      exact hlast ⟨hst, calc s.trc.holds = ⟨s.trc.holds.backpressure, s.trc.holds.gateHot, s.trc.holds.operator⟩ := rfl
        _ = ⟨false, false, true⟩ := by rw [hb, hg, hop]⟩
    obtain ⟨hexec, hans⟩ := exec_resume (l := [.trc]) hserved hrun hleaves (by simp) (by simp [u])
    exact ⟨_, hexec, hans, by simp [htrc, HoldSet.put]⟩
  · have hempty : u.trc.holds.put .operator false = .empty := by simp [htrc, hholds, HoldSet.put, HoldSet.empty]
    have hback := removeHold_backup (s := u) (c := .operator) (by simp [htrc, hholds, HoldSet.has]) (by rw [htrc, hst]) hempty
    rw [hempty] at hback
    obtain ⟨hexec, hans⟩ := exec_resume (l := [.trc, .pru, .out]) hserved (.inr (.inl hst)) hback (by simp) (by simp [u])
    refine ⟨_, hexec, hans, ?_, ?_, ?_, ?_, ?_, ?_⟩
    · simp [startBackup]
    · simp [startBackup, HoldSet.empty]
    · simp [startBackup, htrc, hpru]
    · simp [startBackup, enter_capstan, hset]
    · simp [startBackup, enter_light_out]
    · simp [startBackup, hpru]
  · exact exec_of_same rfl hserved (by simp [stopBody, hst, Reply.ok])
  · refine exec_of_same rfl hserved ?_
    rcases hst with hst | hst <;> simp [stopBody, hst, Reply.only]
  · have hbody := stopBody_moving (s := u) (by rw [htrc]; tauto)
    have hexec : exec (.stop rq) s = .next (answer rq ⟨.ok, []⟩ (stopRun u)) := exec_answers rfl hserved hbody
    obtain ⟨w, hw⟩ : ∃ w, w = clearSplices (u.setTrc { u.trc with holds := u.trc.holds.put .operator false }) := ⟨_, rfl⟩
    have hstop : Halted w (stopRun u) := by
      rw [hw]
      exact halted_enterThreaded _
    have hkept : Kept [.trc, .pru, .alt, .out] u (stopRun u) := by simp
    refine ⟨_, hexec, answered_of_kept (r := ⟨.ok, []⟩) (by simp) hkept, ?_, ?_, hhalted hstop ?_ ?_ ?_ ?_ ?_ ?_ ?_ _⟩
    · exact hstop.holds.trans (by simp [hw, htrc, HoldSet.put])
    · exact hstop.spliceQueue.trans (by simp [hw])
    · simp [hw, hpru]
    · simp [hw]
    · simp [hw, hset]
    · simp [hw, htrc, hfault]
    · simp [hw, htrc]
    · simp [hw, htrc]
    · simp [hw, htrc]
  · refine exec_of_same rfl hserved ?_
    rw [clearFaultBody_eq, if_neg]
    · rfl
    · rw [arrive_trc]
      rintro ⟨hst, hes, hage⟩
      rcases hno with h | h | h
      · exact h hst
      · simp [h] at hes
      · omega
  · have hbody : clearFaultBody u = (enterThreaded (u.setTrc { u.trc with fault := none }), .ok []) := by
      rw [clearFaultBody_eq, htrc, if_pos ⟨hst, hes, hage⟩]
    have hexec : exec (.clearFault rq) s = .next (answer rq ⟨.ok, []⟩ _) := exec_answers rfl hserved hbody
    have hclear := halted_enterThreaded (u.setTrc { u.trc with fault := none })
    have hkept : Kept [.trc, .pru, .alt, .out] u (enterThreaded (u.setTrc { u.trc with fault := none })) := by simp
    refine ⟨_, hexec, answered_of_kept (r := ⟨.ok, []⟩) (by simp) hkept, ?_, hhalted hclear ?_ ?_ ?_ ?_ ?_ ?_ ?_ _⟩
    · exact hclear.holds.trans (by simp [htrc])
    · simp [hpru]
    · simp
    · simp [hset]
    · simp
    · simp [htrc]
    · simp [htrc]
    · simp [htrc]

end Sys2Proof.Machine
end

section
/-! SUPPORT. SCAN starts a run (R31, R25, R51, R71, R124). -/

namespace Sys2Proof.Machine

variable {s t u : State} {rq : Rq}

/-- PRU at the start of a run: the lines of the run are ahead again. -/
def Pru.atScan (x : Pru) : Pru := { x with linesOver := false }

/-- TRC at the start of a run. -/
def Trc.atScan (profile : Profile) (speed : Nat) (x : Trc) : Trc :=
  { x with
    profile, scanSpeed := speed, edgeMark := x.position, spliceQueue := [], inZone := false
    tensionHigh := if profile = x.profile then x.tensionHigh else none }

/-- TRC and PRU set for a run, the expectation not yet placed. -/
def runSet (profile : Profile) (speed : Nat) (s : State) : State :=
  (s.setTrc (s.trc.atScan profile speed)).setPru s.pru.atScan

/-- The state of a run before SCANNING is entered. -/
def scanPrepared (profile : Profile) (speed : Nat) (s : State) : State :=
  let t := runSet profile speed s
  let t := if t.pru.lock = .seeking then t else placeExpectation t
  let t := t.setFcu { t.fcu with nextFrame := 0, skips := 0 }
  t.setSht t.sht.startRun

theorem startScan_eq (profile : Profile) (speed : Nat) :
    startScan profile speed s = enter .scanning (scanPrepared profile speed s) := rfl

section
variable (profile : Profile) (speed : Nat) (s : State)

theorem kept_scanPrepared : Kept [.trc, .pru, .fcu, .sht] s (scanPrepared profile speed s) := by
  have hset : Kept [.trc, .pru, .fcu, .sht] s (runSet profile speed s) := by simp [runSet]
  unfold scanPrepared
  dsimp only
  split <;> simpa using hset

theorem scanPrepared_trc : (scanPrepared profile speed s).trc = s.trc.atScan profile speed := by
  rw [scanPrepared, State.setSht_trc, State.setFcu_trc, apply_ite State.trc, placeExpectation_trc, ite_self]
  rfl

theorem scanPrepared_fcu : (scanPrepared profile speed s).fcu = { s.fcu with nextFrame := 0, skips := 0 } := by
  rw [scanPrepared, State.setSht_fcu, State.setFcu_fcu, apply_ite State.fcu, placeExpectation_fcu, ite_self]
  rfl

theorem scanPrepared_sht : (scanPrepared profile speed s).sht = { s.sht with lastFrame := none, firstPending := true } := by
  rw [scanPrepared, State.setSht_sht, State.setFcu_sht, apply_ite State.sht, placeExpectation_sht, ite_self]
  rfl

/-- R51: the expectation is placed unless the run seeks. -/
theorem scanPrepared_pru : (scanPrepared profile speed s).pru =
    if s.pru.lock = .seeking then s.pru.atScan else (placeExpectation (s.setPru s.pru.atScan)).pru := by
  rw [scanPrepared, State.setSht_pru, State.setFcu_pru, apply_ite State.pru]
  refine if_congr Iff.rfl rfl (placeExpectation_congr rfl ?_)
  rfl

end

theorem scanPrepared_base (profile : Profile) (speed : Nat) (s : State) :
    (scanPrepared profile speed s).pru.live = s.pru.live ∧ (scanPrepared profile speed s).pru.lock = s.pru.lock ∧
      (scanPrepared profile speed s).pru.anchor = s.pru.anchor := by
  rw [scanPrepared_pru]
  split
  · exact ⟨rfl, rfl, rfl⟩
  · exact placeExpectation_base _

/-- R25: the profile of a run. -/
theorem scanProfile_eq {profile : Profile}
    (h : profile = .fragile ↔ ∃ j r, s.trc.handle = some j ∧ s.reel j = some r ∧ r.fragile = true) :
    s.scanProfile = profile := by
  have hfragile : s.scanProfile = .fragile ↔ ∃ j r, s.trc.handle = some j ∧ s.reel j = some r ∧ r.fragile = true := by
    unfold State.scanProfile State.fragile profileOf
    cases s.trc.handle with
    | none => simp
    | some j => cases hr : s.reel j <;> simp [hr]
  have hiff := hfragile.trans h.symm
  cases profile <;> cases hp : s.scanProfile <;> simp_all

/-- R31: the speed and the answer of a run that starts. -/
theorem scanBody_run {speed : BitVec 16} {profile : Profile} (hst : s.trc.state = .threaded) (horg : s.pru.origin ≠ none)
    (hholds : s.trc.holds = .empty) (hprofile : s.scanProfile = profile) :
    let v := max 1 (min (if profile = .fragile then 60 else 240) speed.toNat)
    scanBody speed s = (startScan profile v s,
      ⟨if v = speed.toNat then .ok else .okClamped, u16 v ++ [if profile = .fragile then 1 else 0]⟩) := by
  intro v
  have hmax : profile.maxSpeed = if profile = .fragile then 60 else 240 := by cases profile <;> rfl
  have hclamp : clampNat 1 profile.maxSpeed speed.toNat = v := by rw [hmax, clampNat_eq (by split <;> decide)]
  have hcode : u8 profile.code = [if profile = .fragile then 1 else 0] := by cases profile <;> rfl
  rw [scanBody, if_neg (by simp [hst]), if_neg (by simpa using horg), if_neg (by simp [hholds, HoldSet.isEmpty_iff])]
  simp only [hprofile, hclamp, clamped_eq, hcode]

/-- Settles O47: the run's TRC, FCU and SHT are those of `scanPrepared`, its expectation that of `placed_of_limits`. -/
theorem scanStartsARun : Obligations.ScanStartsARun := by
  intro rq s speed hserved u c refused fragile
  have htrc : u.trc = s.trc := arrive_trc _
  have hpru : u.pru = s.pru := arrive_pru _
  refine ⟨fun hbad => ?_, fun hst horg hholds => ?_, fun hst horg hholds profile hprofile => ?_⟩
  · refine exec_of_same rfl hserved (?_ : scanBody speed u = (u, Reply.only .state))
    by_cases hst : s.trc.state = .threaded
    · simp [scanBody, htrc, hpru, hst, hbad.resolve_left (not_not.mpr hst)]
    · simp [scanBody, htrc, hst]
  · refine exec_of_same rfl hserved (?_ : scanBody speed u = (u, Reply.only .busy))
    have hnot : s.trc.holds.isEmpty = false := by
      rw [← Bool.not_eq_true, HoldSet.isEmpty_iff]
      exact hholds
    simp [scanBody, htrc, hpru, hst, horg, hnot]
  · intro v
    have hprofile' : profile = .fragile ↔ ∃ j r, u.trc.handle = some j ∧ u.reel j = some r ∧ r.fragile = true := by
      rw [htrc]
      simpa only [u, arrive_reel] using hprofile
    have hbody := scanBody_run (s := u) (speed := speed) (by rw [htrc, hst]) (by rw [hpru]; exact horg)
      (by rw [htrc, hholds]; rfl) (scanProfile_eq hprofile')
    obtain ⟨w, hw⟩ : ∃ w, w = scanPrepared profile v u := ⟨_, rfl⟩
    have hexec : exec c s = .next (answer rq ⟨if v = speed.toNat then .ok else .okClamped,
        u16 v ++ [if profile = .fragile then 1 else 0]⟩ (enter .scanning w)) := by
      rw [hw, ← startScan_eq]
      exact exec_answers rfl hserved hbody
    have hwtrc : w.trc = s.trc.atScan profile v := by rw [hw, scanPrepared_trc, htrc]
    have hwpru := scanPrepared_pru profile v u
    obtain ⟨hlive, hlock, hanchor⟩ := scanPrepared_base profile v u
    have hkept := kept_scanPrepared profile v u
    rw [← hw, hpru] at hwpru hlive hlock hanchor
    rw [← hw] at hkept
    have hset : ∀ i, w.setting i = s.setting i := fun i => by
      rw [State.setting, hkept .cfg (by simp)]
      exact arrive_setting _ i
    have hwide : Kept [.trc, .pru, .fcu, .sht, .out] u (enter .scanning w) := by
      have : Kept [.trc, .pru, .fcu, .sht, .out] u w := hkept.mono (by simp)
      simpa using this
    refine ⟨_, hexec, answered_of_kept (r := ⟨_, _⟩) (by simp) hwide, ?_⟩
    simp only [answer_trc, answer_pru, answer_fcu, answer_sht]
    refine ⟨?_, ?_, ?_, ?_, ?_, ?_, ?_, ?_, ?_, ?_, fun hne => ?_, ?_, ?_, fun hseek => ?_, fun hseek => ⟨fun hno => ?_,
      fun hlim m hm => ?_⟩, ?_, ?_, ?_, ?_, ?_⟩
    · simp
    · simp [hwtrc, Trc.atScan]
    · simp [hwtrc, Trc.atScan]
    · simp [hwtrc, Trc.atScan]
    · simp [hwtrc, Trc.atScan]
    · simp [hwtrc, Trc.atScan]
    · simp [hwtrc, Trc.atScan]
    · simp [enter_capstan, hwtrc, Trc.atScan, hlive]
    · simp [enter_light, hwtrc, Trc.atScan, hset]
    · simp [TransportState.usesHoldLight]
    · simp [hwtrc, Trc.atScan, hne]
    · simp [hwtrc, Trc.atScan]
    · simp [hwtrc, Trc.atScan]
    · rw [enter_pru, if_pos rfl, hwpru, if_pos hseek]
      rfl
    · rw [enter_pru, if_pos rfl, hwpru, if_neg hseek,
        placeExpectation_unanchored (s := u.setPru s.pru.atScan) hno]
      rfl
    · rw [enter_pru, if_pos rfl, hwpru, if_neg hseek]
      have hp := placed_of_limits (s := u.setPru s.pru.atScan) hlim hm
      rw [State.setPru_trc, htrc] at hp
      exact hp
    · rw [enter_pru, if_pos rfl, hlive]
    · rw [enter_pru, if_pos rfl, hlock]
    · rw [enter_pru, if_pos rfl, hanchor]
    · rw [enter_fcu, hw, scanPrepared_fcu]
      simp [u]
    · rw [enter_sht, hw, scanPrepared_sht]
      simp [u]

end Sys2Proof.Machine
end

section
/-! SUPPORT. THREAD and UNTHREAD (R26, R27, R6, R52, R69). -/

namespace Sys2Proof.Machine

variable {s t u : State} {rq : Rq}

/-- What is latched is a matter of ALT alone. -/
theorem Latches.of_alt {l : List Event} (h : Latches l s t) (ha : u.alt = t.alt) : Latches l s u := by
  simpa only [Latches, ha] using h

/-! ### THREAD (R26) -/

/-- The state of a reel taken on before THREADED is entered. -/
def threadPrepared (h : Nat) (r : Reel) (s : State) : State :=
  let t := reelToTransport h r s
  let t := clearSplices (t.setTrc { t.trc with handle := some h, profile := profileOf r.fragile })
  let t := breakChains (threadPru r t)
  let t := t.setFcu { t.fcu with strayRows := 0 }
  t.setSht t.sht.clearContext

theorem threadReel_eq (h : Nat) (r : Reel) :
    threadReel h r s = refreshCab (enter .threaded (threadPrepared h r s)) := rfl

section
variable (h : Nat) (r : Reel) (s : State)

theorem threadPrepared_trc : (threadPrepared h r s).trc = { s.trc with
    handle := some h, profile := profileOf r.fragile, spliceQueue := [], inZone := false } := by
  simp [threadPrepared]

theorem threadPrepared_pru : (threadPrepared h r s).pru =
    { s.pru.threaded r.gauge (startPitch r.gauge r.shrinkage) with
      live := clampPitch r.gauge (startPitch r.gauge r.shrinkage) } := by
  simp [threadPrepared, threadPru, makeLive, Pru.threaded]

theorem threadPrepared_fcu : (threadPrepared h r s).fcu = { s.fcu with strayRows := 0 } := by simp [threadPrepared]

theorem threadPrepared_rpq : (threadPrepared h r s).rpq = { s.rpq with prev := [], prevFrom := none } := by
  simp [threadPrepared, breakChains]

theorem threadPrepared_sht : (threadPrepared h r s).sht = s.sht.clearContext := by simp [threadPrepared]

theorem threadPrepared_cab : (threadPrepared h r s).cab = s.cab.occupy r.location none := by
  simp [threadPrepared, reelToTransport, State.occupy]

theorem kept_threadPrepared : Kept [.reg, .trc, .pru, .fcu, .rpq, .sht, .cab, .alt] s (threadPrepared h r s) := by
  simp [threadPrepared]

/-- R49: PITCH_LIMIT is raised when the clamp changes the pitch. -/
theorem latches_makeLive (p : Pitch) (s : State) :
    Latches (if clampPitch s.pru.gauge p = p then [] else [.pitchLimit]) s (makeLive p s) := by
  have hset : Latches [] s (s.setPru { s.pru with live := clampPitch s.pru.gauge p }) := .nil rfl
  simpa [makeLive] using hset.trans (.raiseIf (clampPitch s.pru.gauge p != p) .pitchLimit) rfl

theorem latches_threadPrepared :
    Latches (if clampPitch r.gauge (startPitch r.gauge r.shrinkage) = startPitch r.gauge r.shrinkage then []
      else [.pitchLimit]) s (threadPrepared h r s) := by
  obtain ⟨a, ha⟩ : ∃ a, a = clearSplices ((reelToTransport h r s).setTrc
    { (reelToTransport h r s).trc with handle := some h, profile := profileOf r.fragile }) := ⟨_, rfl⟩
  have hstart : Latches [] s (a.setPru (a.pru.threaded r.gauge (startPitch r.gauge r.shrinkage))) :=
    .nil (by simp [ha, reelToTransport, State.occupy])
  have hlive := hstart.trans (latches_makeLive (startPitch r.gauge r.shrinkage) _)
    (by simp [ha, reelToTransport, State.occupy])
  have halt : (threadPrepared h r s).alt = (makeLive (startPitch r.gauge r.shrinkage)
      (a.setPru (a.pru.threaded r.gauge (startPitch r.gauge r.shrinkage)))).alt := by
    simp [threadPrepared, threadPru, ha]
  exact hlive.of_alt halt

theorem onlyReel_threadPrepared (hr : s.reel h = some r) :
    OnlyReel h { r with location := .transport, circulation := .threaded } s (threadPrepared h r s) := by
  have hocc : (s.occupy r.location none).reel h = some r := hr
  have hmod := onlyReel_modReel hocc fun x => { x with location := .transport, circulation := .threaded }
  refine OnlyReel.of_reg (t := reelToTransport h r s) hmod ?_
  simp [threadPrepared]

end

theorem threadBody_refused {h : Byte} {r : Reel} (hh : h.toNat < 96) (hr : s.reel h.toNat = some r)
    (hbad : s.trc.state ≠ .unthreaded ∨ s.trc.estop = true ∨ r.circulation ≠ .ready) :
    threadBody h s = (s, .only .state) := by
  rw [threadBody, withReel_reel hh hr]
  by_cases hst : s.trc.state = .unthreaded
  · by_cases hes : s.trc.estop = true
    · simp [hst, hes]
    · simp [hst, hes, (hbad.resolve_left (not_not.mpr hst)).resolve_left hes]
  · simp [hst]

theorem threadBody_taken {h : Byte} {r : Reel} (hh : h.toNat < 96) (hr : s.reel h.toNat = some r)
    (hst : s.trc.state = .unthreaded) (hes : s.trc.estop = false) (hready : r.circulation = .ready) :
    threadBody h s = (threadReel h.toNat r s, .ok []) := by
  rw [threadBody, withReel_reel hh hr]
  simp [hst, hes, hready]

/-- Settles O44: `threadPrepared` gives PRU, the reel and the positions, the entry into THREADED the rest of TRC. -/
theorem threadTakesAReadyReel : Obligations.ThreadTakesAReadyReel := by
  intro rq s h r hserved hh hr u p
  have htrc : u.trc = s.trc := arrive_trc _
  have hpru : u.pru = s.pru := arrive_pru _
  have hur : u.reel h.toNat = some r := (arrive_reel _ _ _).trans hr
  have hp : startPitch r.gauge r.shrinkage = p := rfl
  refine ⟨fun hbad => exec_of_same rfl hserved (threadBody_refused hh hur (by rw [htrc]; exact hbad)), fun hst hes hready => ?_⟩
  obtain ⟨w, hw⟩ : ∃ w, w = threadPrepared h.toNat r u := ⟨_, rfl⟩
  have hbody : threadBody h u = (refreshCab (enter .threaded w), .ok []) := by
    rw [threadBody_taken hh hur (by rw [htrc, hst]) (by rw [htrc, hes]) hready, threadReel_eq, hw]
  have hexec : exec (.thread rq (some h)) s = .next (answer rq (.ok []) (refreshCab (enter .threaded w))) :=
    exec_answers rfl hserved hbody
  have hwtrc := threadPrepared_trc h.toNat r u
  have hwpru := threadPrepared_pru h.toNat r u
  rw [← hw, htrc] at hwtrc
  rw [← hw, hpru, hp] at hwpru
  have hset : ∀ i, w.setting i = s.setting i := fun i => by
    rw [State.setting, hw, kept_threadPrepared _ _ _ .cfg (by simp)]
    exact arrive_setting _ i
  have hkept : Kept [.reg, .trc, .pru, .fcu, .rpq, .sht, .cab, .alt, .out] u (refreshCab (enter .threaded w)) := by
    have hwide : Kept [.reg, .trc, .pru, .fcu, .rpq, .sht, .cab, .alt, .out] u w := by
      rw [hw]
      exact (kept_threadPrepared _ _ _).mono (by simp)
    simpa using hwide
  refine ⟨_, hexec, answered_of_kept (r := .ok []) (by simp) hkept, ?_, ?_⟩
  · have honly := onlyReel_threadPrepared h.toNat r u hur
    rw [← hw] at honly
    exact (honly.of_reg (u := refreshCab (enter .threaded w)) (by simp)).answer _ _
  simp only [answer_trc, answer_pru, answer_fcu, answer_rpq, answer_sht, refreshCab_trc, refreshCab_pru, refreshCab_fcu,
    refreshCab_rpq, refreshCab_sht]
  refine ⟨?_, ?_, ?_, ?_, ?_, ?_, ?_, ?_, ?_, ?_, ?_, ?_, ?_, fun n hn => ?_⟩
  · simp
  · simp [hwtrc]
  · simp [hwtrc, profileOf]
  · simp [hwtrc]
  · simp [enter_capstan]
  · simp [TransportState.usesHoldLight, State.holdLightLoad, hset]
  · simp [enter_light, hwtrc, hset]
  · simp [hwtrc]
  · simp [hwtrc]
  · simp [hwpru, Pru.threaded]
  · rw [enter_fcu, hw, threadPrepared_fcu]
    simp [u]
  · rw [enter_rpq, hw, threadPrepared_rpq]
    simp [u]
  · rw [enter_sht, hw, threadPrepared_sht]
    simp [u, Sht.clearContext]
  · have hcab : (enter .threaded w).cab = { s.cab with stagings := s.cab.stagings.erase n } := by
      rw [enter_cab, hw, threadPrepared_cab, hn]
      simp [u, Cab.occupy, setEntry]
    have hl := latches_threadPrepared h.toNat r u
    rw [← hw, hp] at hl
    have hcfg : (enter .threaded w).cfg = u.cfg := by rw [enter_cfg, hw, kept_threadPrepared _ _ _ .cfg (by simp)]
    exact (cabSettled_refreshCab hcab (by simp [u]) (by simp [u])
      (hl.of_alt (by simp)) hcfg).answer _ _

/-! ### UNTHREAD (R27) -/

/-- The state of a reel taken off to staging position n before UNTHREADED is entered. -/
def unthreadPrepared (h n : Nat) (s : State) : State :=
  let t := reelToStaging h n s.pru.handover s
  let t := clearSplices (t.setTrc { t.trc with handle := none, gateDelay := none })
  let t := breakChains (t.setPru t.pru.unthreaded)
  t.setSht t.sht.clearContext

theorem unthreadReel_eq {h : Nat} (hh : s.trc.handle = some h) (n : Nat) :
    unthreadReel n s = refreshCab (enter .unthreaded (unthreadPrepared h n s)) := by
  rw [unthreadReel, hh]
  rfl

/-- The record of a reel put at staging position n, with the shrinkage handed over. -/
def Reel.staged (r : Reel) (n : Nat) (shrinkage : Option Nat) : Reel :=
  let x := { r with location := .staging n, circulation := .ready }
  match shrinkage with
  | some v => x.withShrinkage v
  | none => x

section
variable (h n : Nat) (s : State)

theorem unthreadPrepared_trc : (unthreadPrepared h n s).trc =
    { s.trc with handle := none, gateDelay := none, spliceQueue := [], inZone := false } := by
  simp [unthreadPrepared]

theorem unthreadPrepared_pru : (unthreadPrepared h n s).pru = s.pru.unthreaded := by simp [unthreadPrepared]

theorem unthreadPrepared_cab : (unthreadPrepared h n s).cab =
    { s.cab with stagings := s.cab.stagings.write n (.holding h) } := by
  simp [unthreadPrepared, reelToStaging, State.occupy, Cab.occupy, setEntry]

theorem kept_unthreadPrepared : Kept [.reg, .trc, .pru, .rpq, .sht, .cab] s (unthreadPrepared h n s) := by
  simp [unthreadPrepared]

theorem onlyReel_unthreadPrepared {r : Reel} (hr : s.reel h = some r) :
    OnlyReel h (r.staged n s.pru.handover) s (unthreadPrepared h n s) := by
  have hocc : (s.occupy (.staging n) (some (.holding h))).reel h = some r := hr
  have hmod := onlyReel_modReel hocc fun x => x.staged n s.pru.handover
  refine OnlyReel.of_reg (t := reelToStaging h n s.pru.handover s) hmod ?_
  simp [unthreadPrepared]

end

/-- R69: the shrinkage of a pitch, held within 0 to 999. -/
theorem shrinkageOf_eq (g : Gauge) (p : Pitch) : shrinkageOf g p = (max 0 (min 999
    (((g.nominal * 65536 : Nat) - ((p.pInt * 65536 + p.f1 : Nat) : Int)) * 10000 / ((g.nominal * 65536 : Nat) : Int)))).toNat := by
  unfold shrinkageOf clampInt Pitch.pu
  congr 1
  split
  · omega
  · split <;> omega

/-- R27: the record of the reel, by whether its pitch was adapted. -/
theorem staged_handover (r : Reel) (n : Nat) (x : Pru) : r.staged n x.handover =
    if x.adapted then
      { r with
        location := .staging n, circulation := .ready, shrinkage := some (shrinkageOf x.gauge x.live)
        fragile := decide (2 ≤ r.acidity) || decide (150 ≤ shrinkageOf x.gauge x.live) }
    else { r with location := .staging n, circulation := .ready } := by
  unfold Pru.handover
  cases x.adapted with
  | true => rfl
  | false => rfl

theorem unthreadBody_taken {n : Nat} (hst : s.trc.state = .threaded) (hfree : ∀ c, s.fcu.ctx.get c = none)
    (hn : s.cab.freeStaging = some n) : unthreadBody s = (unthreadReel n s, .ok (Place.staging n).bytes) := by
  have h0 : s.fcu.ctx.zero = none := hfree .c0
  have h1 : s.fcu.ctx.one = none := hfree .c1
  simp [unthreadBody, hst, h0, h1, hn]

/-- Settles O45: `unthreadPrepared` gives PRU, the reel and the positions, the entry into UNTHREADED the rest of TRC. -/
theorem unthreadPutsTheReelAtStaging : Obligations.UnthreadPutsTheReelAtStaging := by
  intro rq s hserved u refused isOpen
  have htrc : u.trc = s.trc := arrive_trc _
  have hpru : u.pru = s.pru := arrive_pru _
  have hfcu : u.fcu = s.fcu := arrive_fcu _
  have hcab : u.cab = s.cab := arrive_cab _
  have hfree : ¬isOpen → ∀ c, u.fcu.ctx.get c = none := fun hno c => by
    rw [hfcu, Option.eq_none_iff_forall_ne_some]
    exact fun x hx => hno ⟨c, x, hx⟩
  refine ⟨fun hst => ?_, fun hst hopen => ?_, fun hst hno hfull => ?_, fun hst hno n h r hn hnone hlow hh hr => ?_⟩
  · exact exec_of_same rfl hserved (if_pos (by rw [htrc]; exact hst))
  · refine exec_of_same rfl hserved ((if_neg (by simp [hst])).trans (if_pos ?_))
    obtain ⟨c, x, hx⟩ := hopen
    rw [hfcu]
    cases c with
    | c0 => exact .inl (Option.isSome_iff_exists.mpr ⟨x, hx⟩)
    | c1 => exact .inr (Option.isSome_iff_exists.mpr ⟨x, hx⟩)
  · refine exec_of_same rfl hserved (?_ : unthreadBody u = (u, Reply.only .noRoom))
    have h0 : u.fcu.ctx.zero = none := hfree hno .c0
    have h1 : u.fcu.ctx.one = none := hfree hno .c1
    have hnone : u.cab.freeStaging = none := by
      rw [hcab]
      exact Table.firstFree_full hfull
    simp [unthreadBody, htrc, hst, h0, h1, hnone]
  · intro nominal pu x
    have hstaging : u.cab.freeStaging = some n := by
      rw [hcab]
      exact Table.firstFree_eq hn hnone hlow
    obtain ⟨w, hw⟩ : ∃ w, w = unthreadPrepared h n u := ⟨_, rfl⟩
    have hbody : unthreadBody u = (refreshCab (enter .unthreaded w), .ok (Place.staging n).bytes) := by
      rw [unthreadBody_taken (by rw [htrc, hst]) (hfree hno) hstaging, unthreadReel_eq (by rw [htrc, hh]), hw]
    have hexec : exec (.unthread rq) s = .next (answer rq (.ok (Place.staging n).bytes) (refreshCab (enter .unthreaded w))) :=
      exec_answers rfl hserved hbody
    have hwtrc := unthreadPrepared_trc h n u
    have hwpru := unthreadPrepared_pru h n u
    rw [← hw, htrc] at hwtrc
    rw [← hw, hpru] at hwpru
    have hwkept : Kept [.reg, .trc, .pru, .rpq, .sht, .cab] u w := hw ▸ kept_unthreadPrepared h n u
    have hkept : Kept [.reg, .trc, .pru, .rpq, .sht, .cab, .alt, .out] u (refreshCab (enter .unthreaded w)) := by
      have hwide : Kept [.reg, .trc, .pru, .rpq, .sht, .cab, .alt, .out] u w := hwkept.mono (by simp)
      simpa using hwide
    refine ⟨_, hexec, answered_of_kept (r := .ok (Place.staging n).bytes) (by simp) hkept, ?_, ?_⟩
    · have honly := onlyReel_unthreadPrepared h n u ((arrive_reel _ _ _).trans hr)
      rw [← hw, hpru, staged_handover, shrinkageOf_eq] at honly
      exact (honly.of_reg (u := refreshCab (enter .unthreaded w)) (by simp)).answer _ _
    simp only [answer_trc, answer_pru, refreshCab_trc, refreshCab_pru]
    refine ⟨?_, ?_, ?_, ?_, ?_, ?_, ?_, ?_, ?_, ?_, ?_, ?_⟩
    · simp
    · simp [hwtrc]
    · simp [enter_capstan]
    · simp [enter_light_out]
    · simp [hwtrc]
    · simp [TransportState.usesHoldLight]
    · simp [TransportState.watchesHigh]
    · simp [TransportState.watchesLow]
    · simp [hwtrc]
    · simp [hwtrc]
    · simp [hwpru, Pru.unthreaded]
    · have hcab' : (enter .unthreaded w).cab = { s.cab with stagings := s.cab.stagings.write n (.holding h) } := by
        rw [enter_cab, hw, unthreadPrepared_cab, hcab]
      have hl : Latches [] u (enter .unthreaded w) := .nil (by rw [enter_alt, hwkept .alt (by simp)])
      have hcfg : (enter .unthreaded w).cfg = u.cfg := by rw [enter_cfg, hwkept .cfg (by simp)]
      exact (cabSettled_refreshCab hcab' (by simp [hcab]) (by simp [hcab]) hl hcfg).answer _ _

end Sys2Proof.Machine
end

section
/-! SUPPORT. The live pitch stays within the limits of PRU's gauge (R48, R49): what the clamp answers, the operations that
leave the pitches as they are, those that make one live. -/

namespace Sys2Proof.Machine

variable {s t u : State}

/-! ### The clamp (R49) -/

/-- What the invariant speaks of: both copies of the pitch, and the gauge. -/
def Pru.pitches (x : Pru) : Pitch × Pitch × Gauge := (x.live, x.staged, x.gauge)

theorem pitchInLimits_of_pitches (h : t.pru.pitches = s.pru.pitches) (hs : PitchInLimits s) : PitchInLimits t := by
  simp only [Pru.pitches, Prod.mk.injEq] at h
  obtain ⟨hlive, hstaged, hgauge⟩ := h
  simpa only [PitchInLimits, hlive, hstaged, hgauge] using hs

theorem Gauge.pitchMin_lt_pitchMax (g : Gauge) : g.pitchMin < g.pitchMax := by cases g <;> decide

/-- R49: a clamped pitch lies within the limits of the gauge, whatever it was before. -/
theorem within_clampPitch (g : Gauge) (p : Pitch) : (clampPitch g p).within g := by
  have hlt := g.pitchMin_lt_pitchMax
  unfold clampPitch
  split
  · simp only [Pitch.within, Pitch.pu]; omega
  · split
    · simp only [Pitch.within, Pitch.pu, and_self, implies_true, and_true]; omega
    · simp only [Pitch.within, Pitch.pu] at *; omega

theorem inFields_clampPitch (g : Gauge) {p : Pitch} (h : p.inFields) : (clampPitch g p).inFields := by
  obtain ⟨hf1, hm2, hf2⟩ := h
  unfold clampPitch Pitch.inFields
  split
  · simp only; omega
  · split
    · simp only; omega
    · exact ⟨hf1, hm2, hf2⟩

/-- R62: a correction divides the moved pitch into its parts again. -/
theorem inFields_correctPitch {p : Pitch} (h : p.inFields) (c : Int) : (correctPitch p c).inFields :=
  ⟨Nat.mod_lt _ (by decide), h.2⟩

theorem inFields_startPitch (g : Gauge) (shrinkage : Option Nat) : (startPitch g shrinkage).inFields := by
  cases shrinkage with
  | none => simp [startPitch, Pitch.inFields]
  | some x => exact ⟨Nat.mod_lt _ (by decide), le_rfl, by simp [startPitch]⟩

/-- R64: what STAGE_PITCH stores keeps the ranges of the fields. -/
theorem inFields_stagedPitch (a : PitchArgs) : (stagedPitch a).inFields := by
  have hf1 := a.f1.isLt
  simp only [stagedPitch, Pitch.inFields]
  omega

/-! ### The operations that leave the pitches -/

@[simp] theorem enter_pitches (st : TransportState) : (enter st s).pru.pitches = s.pru.pitches := by
  rw [enter_pru]
  split <;> rfl

@[simp] theorem addHold_pitches (c : HoldCause) : (addHold c s).pru.pitches = s.pru.pitches := by
  unfold addHold
  split
  · rfl
  · dsimp only
    split <;> simp [Pru.pitches]

@[simp] theorem removeHold_pitches (c : HoldCause) : (removeHold c s).pru.pitches = s.pru.pitches := by
  unfold removeHold
  split
  · dsimp only
    split <;> simp [startBackup, Pru.pitches]
  · rfl

@[simp] theorem unlock_pitches : (unlock s).pru.pitches = s.pru.pitches := by
  rw [unlock_pru]
  rfl

/-- R58: a measured line ends the run of missing ones, and steps the lock and its count alone. -/
theorem lockMeasured_frame (e : Int) : (lockMeasured e s).pru = { s.pru with
    lock := (lockMeasured e s).pru.lock, count := (lockMeasured e s).pru.count, missing := 0
    seekFrom := (lockMeasured e s).pru.seekFrom } := by
  unfold lockMeasured
  dsimp only
  cases s.pru.lock with
  | unlocked => dsimp only; (repeat' split) <;> simp
  | locked => dsimp only; split <;> simp
  | seeking => rfl

/-- R59: a missing line steps the lock's items alone. -/
theorem lockMissing_frame (k : Nat) : (lockMissing k s).pru = { s.pru with
    lock := (lockMissing k s).pru.lock, count := 0, missing := (lockMissing k s).pru.missing
    seekFrom := (lockMissing k s).pru.seekFrom } := by
  unfold lockMissing
  dsimp only
  cases s.pru.lock with
  | unlocked => dsimp only; split <;> simp
  | locked => dsimp only; split <;> simp
  | seeking => rfl

@[simp] theorem lockMeasured_pitches (e : Int) : (lockMeasured e s).pru.pitches = s.pru.pitches := by
  rw [lockMeasured_frame]
  rfl

@[simp] theorem lockMissing_pitches (k : Nat) : (lockMissing k s).pru.pitches = s.pru.pitches := by
  rw [lockMissing_frame]
  rfl

@[simp] theorem anchorAt_pitches (m : Mark) : (anchorAt m s).pru.pitches = s.pru.pitches := rfl

@[simp] theorem windowAnchor_pitches (m : Mark) : (windowAnchor m s).pru.pitches = s.pru.pitches := rfl

@[simp] theorem reanchorAt_pitches (m : Mark) : (reanchorAt m s).pru.pitches = s.pru.pitches :=
  unlock_pitches (s := anchorAt m s)

@[simp] theorem placeExpectation_pitches : (placeExpectation s).pru.pitches = s.pru.pitches := by
  unfold placeExpectation
  split
  · rfl
  · dsimp only
    split <;> rfl

@[simp] theorem afterReport_pitches (k : Nat) : (afterReport k s).pru.pitches = s.pru.pitches := by
  unfold afterReport stepExpectation
  (repeat' split) <;> rfl

@[simp] theorem splicePassage_pitches : (splicePassage s).pru.pitches = s.pru.pitches := by
  unfold splicePassage
  split
  · rfl
  · exact unlock_pitches

@[simp] theorem onePassage_pitches : (onePassage s).pru.pitches = s.pru.pitches := by
  rw [onePassage, splicePassage_pitches]
  split <;> simp

@[simp] theorem closeCtx_pitches (c : CtxId) (complete : Bool) : (closeCtx c complete s).pru.pitches = s.pru.pitches := by
  cases hx : s.fcu.ctx.get c with
  | none => simp [closeCtx, hx]
  | some x =>
    obtain ⟨r, v, hk, he⟩ : ∃ r v, Kept [.reg, .dsu, .rpq, .sht, .alt] s v ∧
        closeCtx c complete s = appendRecord r (v.setCtx c none) := by
      unfold closeCtx
      rw [hx]
      exact ⟨_, _, by simp, rfl⟩
    have hpru : v.pru = s.pru := hk .pru (by simp)
    rw [he, appendRecord]
    dsimp only
    split <;> simp [hpru, State.setCtx]

@[simp] theorem captureLine_pitches (c : CtxId) (x : LineReport) :
    (captureLine c x s).pru.pitches = s.pru.pitches := by
  unfold captureLine
  dsimp only
  (repeat' split) <;> simp

theorem enterFault_pitches (cause : FaultCause) : (enterFault cause s).pru.pitches = s.pru.pitches := by
  unfold enterFault
  split
  · rfl
  · simp only [raise_pru, State.setPru_pru, abandonCtx_pru]
    exact (enter_pitches (s := sendLight 0 _) .fault).trans (by simp)

/-! ### Keeping the limits -/

/-- What happened between `s` and `t` keeps the live pitch within its limits. -/
structure KeepsPitch (s t : State) : Prop where
  limits : PitchInLimits s → PitchInLimits t

/-- The blocks with no part in the pitch. -/
abbrev pitchFreeBlocks : List Block := [.reg, .trc, .fcu, .dsu, .rpq, .sht, .cab, .spt, .alt, .cfg, .tmb, .out, .pending]

namespace KeepsPitch

theorem refl (s : State) : KeepsPitch s s := ⟨id⟩

theorem trans (h : KeepsPitch s t) (k : KeepsPitch t u) : KeepsPitch s u := ⟨k.limits ∘ h.limits⟩

theorem same (h : KeepsPitch s t) (hu : u.pru.pitches = t.pru.pitches) : KeepsPitch s u :=
  ⟨pitchInLimits_of_pitches hu ∘ h.limits⟩

/-- A change of blocks other than PRU. -/
theorem free (h : KeepsPitch s t) (k : Kept pitchFreeBlocks t u) : KeepsPitch s u :=
  h.same (by rw [show u.pru = t.pru from k .pru (by simp)])

theorem ite {c : Prop} [Decidable c] (ht : KeepsPitch s t) (hu : KeepsPitch s u) : KeepsPitch s (if c then t else u) := by
  split
  · exact ht
  · exact hu

theorem setTrc (h : KeepsPitch s t) (x : Trc) : KeepsPitch s (t.setTrc x) := h.same rfl

theorem testZones (h : KeepsPitch s t) : KeepsPitch s (testZones t) := h.free (by simp)

theorem refreshCab (h : KeepsPitch s t) : KeepsPitch s (refreshCab t) := h.free (by simp)

/-! ### A pitch becomes live (R26, R49, R62, R67) -/

/-- R49: a pitch whose fields are in range goes live through the clamp. -/
theorem makeLive (h : KeepsPitch s t) {p : Pitch} (hp : PitchInLimits s → p.inFields) : KeepsPitch s (makeLive p t) := by
  refine ⟨fun hs => ?_⟩
  obtain ⟨-, -, hstaged⟩ := h.limits hs
  unfold Machine.makeLive
  simpa [PitchInLimits] using ⟨within_clampPitch _ p, inFields_clampPitch _ (hp hs), hstaged⟩

theorem correction (h : KeepsPitch s t) (e edge : Int) (k : Nat) : KeepsPitch s (correction e edge k t) :=
  have hlive := h.makeLive (p := correctPitch t.pru.live (e * 2 ^ (16 - t.pru.liveReg.w - t.pru.liveReg.g)))
    fun hs => inFields_correctPitch (h.limits hs).2.1 _
  hlive.same (by simp only [Machine.correction, refreshCapstan_pru, windowAnchor_pitches]; rfl)

theorem adaptStep (h : KeepsPitch s t) (k : Nat) (edge : Option (Int × Int)) : KeepsPitch s (adaptStep k edge t) := by
  unfold Machine.adaptStep
  split
  · exact h
  · exact h.same rfl
  · exact h
  · exact ite (ite (h.correction ..) (h.same rfl)) h
  · exact ite (h.same rfl) h

theorem applyCommit (h : KeepsPitch s t) (place : Option Mark) : KeepsPitch s (applyCommit place t) := by
  have hlive := h.makeLive (p := t.pru.staged) fun hs => (h.limits hs).2.2
  unfold Machine.applyCommit
  extract_lets old oldReg a _ b
  have hb : KeepsPitch s b := hlive.same rfl
  split
  · exact hb
  · refine hb.same ?_
    rw [refreshCapstan_pru]
    split
    · exact reanchorAt_pitches _
    · exact unlock_pitches

theorem commitAtLine (h : KeepsPitch s t) (m : Mark) : KeepsPitch s (commitAtLine m t).2 := by
  unfold Machine.commitAtLine
  split
  · exact (h.applyCommit (some m) : KeepsPitch s (Machine.applyCommit (some m) t))
  · exact h

theorem applyPending (h : KeepsPitch s t) : KeepsPitch s (applyPending t) := ite (h.applyCommit _) h

theorem enter (h : KeepsPitch s t) (st : TransportState) : KeepsPitch s (enter st t) := h.same (enter_pitches st)

theorem enterThreaded (h : KeepsPitch s t) : KeepsPitch s (enterThreaded t) := (h.enter .threaded).applyPending

theorem stopRun (h : KeepsPitch s t) : KeepsPitch s (stopRun t) := enterThreaded (h.free (by simp))

/-! ### Frame lines and reports (chapters 3 and 4) -/

theorem frameLimit (h : KeepsPitch s t) (k : Nat) : KeepsPitch s (frameLimit k t) := ite (h.stopRun.free (by simp)) h

theorem takeLine (h : KeepsPitch s t) (x : LineReport) : KeepsPitch s (takeLine x t) := by
  have hg : KeepsPitch s (Machine.seekingGap x t) := h.free (by simp)
  unfold Machine.takeLine
  refine frameLimit (ite (ite (h.free (by simp)) h) ?_) _
  dsimp only
  refine ite hg ?_
  split
  · exact hg.same (captureLine_pitches ..)
  · exact hg.free (by simp)

theorem afterReport (h : KeepsPitch s t) (k : Nat) : KeepsPitch s (afterReport k t) := h.same (afterReport_pitches k)

theorem completeLine (h : KeepsPitch s t) (k : Nat) (pk : Int) (edge : Option Int) :
    KeepsPitch s (completeLine k pk edge t) := by
  unfold Machine.completeLine
  extract_lets m e re _ a b d c
  have ha : KeepsPitch s a := h.same rfl
  have hb : KeepsPitch s b := by
    unfold b
    clear_value e
    refine ite (ha.same (reanchorAt_pitches m)) ?_
    split
    · exact ha.same (lockMeasured_pitches _)
    · exact ha.same (lockMissing_pitches k)
  exact (((hb.adaptStep _ _).commitAtLine m).takeLine _).afterReport k

theorem seekingEdge (h : KeepsPitch s t) (edge : Int) : KeepsPitch s (seekingEdge edge t) := by
  unfold Machine.seekingEdge
  extract_lets from_ m _ a c
  have ha : KeepsPitch s a := h.same rfl
  exact (((ha.same (reanchorAt_pitches m)).commitAtLine m).takeLine _).afterReport _

theorem declareMissing (p : Int) : ∀ (n : Nat) {t : State}, KeepsPitch s t → KeepsPitch s (declareMissing n p t)
  | 0, _, h => h
  | n + 1, t, h => by
    unfold Machine.declareMissing
    split
    · exact h
    · exact ite (declareMissing p n (h.completeLine ..)) h

theorem takeEdge (h : KeepsPitch s t) (p : Int) : KeepsPitch s (takeEdge p t) := by
  refine ite h (ite (h.seekingEdge p) ?_)
  split
  · exact h.same rfl
  · exact ite (h.same rfl) (h.completeLine ..)

theorem takePassages (h : KeepsPitch s t) : KeepsPitch s (takePassages t) := by
  have hpassed : ∀ (l : List Splice) {v : State}, KeepsPitch s v → KeepsPitch s (l.foldl (fun w _ => onePassage w) v) := by
    intro l
    induction l with
    | nil => exact id
    | cons x l ih => exact fun hv => ih (hv.same onePassage_pitches)
  refine ite h ?_
  dsimp only
  exact ite h (testZones (hpassed _ (h.same rfl)))

theorem resumeScanning (h : KeepsPitch s t) : KeepsPitch s (resumeScanning t) := by
  rw [resumeScanning_eq]
  refine enter (h.same ?_) .scanning
  rw [resuming_pru]
  split
  · rfl
  · exact placeExpectation_pitches

theorem takePosition (h : KeepsPitch s t) (p : Int) : KeepsPitch s (takePosition p t) := by
  unfold Machine.takePosition
  extract_lets _ a
  have ha : KeepsPitch s a := h.same rfl
  split
  · exact ite ha.enterThreaded ha
  · split
    · exact ite ha.resumeScanning ha
    · exact ha
  · exact (declareMissing p _ (ha.free (by simp))).takePassages
  · exact ha

theorem takeFrameLine (h : KeepsPitch s t) (p : Int) : KeepsPitch s (takeFrameLine p t) := by
  unfold Machine.takeFrameLine
  extract_lets _ a
  have ha : KeepsPitch s a := ite h (h.same rfl)
  exact ite ((declareMissing p _ ha).takeEdge p) ha

theorem takeRowMessage (h : KeepsPitch s t) (k row : Nat) (ir visible : List (BitVec 16)) :
    KeepsPitch s (takeRowMessage k row ir visible t) := by
  unfold Machine.takeRowMessage
  split
  · exact h.same rfl
  · extract_lets a
    have ha : KeepsPitch s a := ite (h.same (closeCtx_pitches ..)) h
    split
    · exact ha
    · refine ite ?_ (ha.same (closeCtx_pitches ..))
      unfold rowInOrder
      extract_lets v _ _ _ b
      have hb : KeepsPitch s b := ha.same rfl
      exact ite (hb.same (closeCtx_pitches ..)) hb

theorem enterFault (h : KeepsPitch s t) (cause : FaultCause) : KeepsPitch s (enterFault cause t) :=
  h.same (enterFault_pitches cause)

theorem takeTension (h : KeepsPitch s t) (gf : Nat) : KeepsPitch s (takeTension gf t) :=
  ite (h.enterFault _) (ite (h.enterFault _) (h.same rfl))

theorem heatActive (h : KeepsPitch s t) : KeepsPitch s (heatActive t) := h.same (by simp [Machine.heatActive])

theorem heatClear (h : KeepsPitch s t) : KeepsPitch s (heatClear t) := h.same (by simp [Machine.heatClear])

theorem takeGateTemp (h : KeepsPitch s t) (temp : Nat) : KeepsPitch s (takeGateTemp temp t) := by
  refine ite (ite h.heatClear h) (ite ?_ (h.same rfl))
  split
  · exact h
  · exact ite h.heatActive (h.same rfl)

/-! ### Ticks (R190) -/

theorem passMillis (h : KeepsPitch s t) (n : Nat) : KeepsPitch s (passMillis n t) := h.same rfl

theorem minuteTick (h : KeepsPitch s t) : KeepsPitch s (minuteTick t) := h.free (by simp)

theorem secondTick (h : KeepsPitch s t) : KeepsPitch s (secondTick t) := h.free (by simp [kept_secondTick])

theorem millisecondTick (h : KeepsPitch s t) : KeepsPitch s (millisecondTick t) :=
  ite ((h.passMillis 1).free (by simp)) (h.passMillis 1).secondTick

/-! ### Requests -/

theorem serve (rq : Rq) (need : Need) {body : Body} (hb : ∀ u, KeepsPitch u (body u).1) (s : State) :
    KeepsPitch s (serve rq need body s) := by
  have ha : KeepsPitch s (Machine.arrive rq.port s) := (refl s).free (by simp)
  exact ite (ha.free (by simp)) (ite (ha.free (by simp)) ((ha.trans (hb _)).free (by simp)))

/-- A request that works on blocks other than PRU. -/
theorem serve_free (rq : Rq) (need : Need) {body : Body} (hb : ∀ u, Kept pitchFreeBlocks u (body u).1) (s : State) :
    KeepsPitch s (Machine.serve rq need body s) := serve rq need (fun u => (refl u).free (hb u)) s

theorem serveOperands {α : Type} (rq : Rq) (need : Need) {args : Option α} {body : α → Body}
    (hb : ∀ a u, KeepsPitch u (body a u).1) (s : State) :
    KeepsPitch s (Machine.serve rq need (withOperands args body) s) := by
  refine serve rq need (fun u => ?_) s
  cases args with
  | some a => exact hb a u
  | none => exact refl u

theorem serveOperands_free {α : Type} (rq : Rq) (need : Need) {args : Option α} {body : α → Body}
    (hb : ∀ a u, Kept pitchFreeBlocks u (body a u).1) (s : State) :
    KeepsPitch s (Machine.serve rq need (withOperands args body) s) :=
  serveOperands rq need (fun a u => (refl u).free (hb a u)) s

/-- A body's state after a check, whichever way the check goes. -/
theorem fork {c : Prop} [Decidable c] {x y : State × Reply} (hx : KeepsPitch s x.1) (hy : KeepsPitch s y.1) :
    KeepsPitch s (if c then x else y).1 := by
  split
  · exact hx
  · exact hy

/-- R26: the starting pitch goes into both copies, under the gauge of the reel. -/
theorem threadReel (h : Nat) (r : Reel) (s : State) : KeepsPitch s (threadReel h r s) := by
  have hp := inFields_startPitch r.gauge r.shrinkage
  have hlimits : KeepsPitch s (threadPrepared h r s) := ⟨fun _ => by
    rw [PitchInLimits, threadPrepared_pru]
    exact ⟨within_clampPitch _ _, inFields_clampPitch _ hp, hp⟩⟩
  rw [threadReel_eq]
  exact (hlimits.enter .threaded).free (by simp)

theorem threadBody (h : Byte) (s : State) : KeepsPitch s (threadBody h s).1 := by
  unfold Machine.threadBody withReel
  split
  · exact refl s
  · split
    · exact fork (refl s) (fork (refl s) (fork (refl s) (threadReel ..)))
    · exact refl s

theorem unthreadBody (s : State) : KeepsPitch s (unthreadBody s).1 := by
  refine fork (refl s) (fork (refl s) ?_)
  split
  · exact refl s
  · refine refreshCab (enter ((refl s).same ?_) .unthreaded)
    cases s.trc.handle <;> simp [Pru.unthreaded, Pru.pitches]

theorem setOriginBody (s : State) : KeepsPitch s (setOriginBody s).1 := by
  refine fork (refl s) ?_
  split
  · exact refl s
  · exact fork (refl s) ((refl s).same (reanchorAt_pitches (s := s) _))

theorem scanBody (v : BitVec 16) (s : State) : KeepsPitch s (scanBody v s).1 := by
  refine fork (refl s) (fork (refl s) (fork (refl s) ?_))
  dsimp only
  rw [startScan_eq]
  refine enter ((refl s).same ?_) .scanning
  rw [scanPrepared_pru]
  split
  · rfl
  · exact placeExpectation_pitches

theorem stopBody (s : State) : KeepsPitch s (stopBody s).1 := by
  unfold Machine.stopBody
  split
  any_goals exact (refl s).stopRun
  all_goals exact refl s

theorem readFramesBody (n : Byte) (s : State) : KeepsPitch s (readFramesBody n s).1 := by
  refine fork (refl s) (fork (refl s) ((refl s).same ?_))
  unfold removeFrames
  dsimp only
  split <;> simp

theorem stagePitchBody (a : PitchArgs) (s : State) : KeepsPitch s (stagePitchBody a s).1 :=
  ⟨fun ⟨hwithin, hfields, _⟩ => ⟨hwithin, hfields, inFields_stagedPitch a⟩⟩

end KeepsPitch

/-! ### Every command -/

theorem exec_keepsPitch (c : Instr) (s : State) : ∃ t, exec c s = .next t ∧ KeepsPitch s t := by
  have hq : KeepsPitch s (quiet s) := (KeepsPitch.refl s).free (by simp)
  have hr : KeepsPitch s (headReport (quiet s)) := hq.free (by simp)
  cases c
  case row f i ir v =>
    simp only [exec, execRow]
    split
    · exact ⟨_, rfl, hr.takeRowMessage ..⟩
    · exact ⟨_, rfl, hq⟩
  all_goals refine ⟨_, rfl, ?_⟩
  case reset => exact .same (t := State.reset) ⟨fun _ => by unfold PitchInLimits Pitch.within Pitch.inFields; decide⟩ rfl
  case preloadValue | preloadEnd => exact (KeepsPitch.refl s).free (by (repeat' split) <;> simp)
  case position => exact hr.takePosition _
  case frameLine => exact hr.takeFrameLine _
  case tension => exact hr.takeTension _
  case gateTemp => exact hr.takeGateTemp _
  case estopAsserted => exact .ite hq (.enterFault (hq.setTrc _) _)
  case tensionHighExpiry | tensionLowExpiry => exact .ite (.enterFault (hq.setTrc _) _) hq
  case headSilenceExpiry => exact .ite (hq.enterFault _) hq
  case gateDelayExpiry => exact .ite hq.heatActive hq
  case contextAgeExpiry => exact .ite (hq.same (closeCtx_pitches ..)) (.ite (hq.same (closeCtx_pitches ..)) hq)
  case thread => exact .serveOperands _ _ KeepsPitch.threadBody s
  case unthread => exact .serve _ _ KeepsPitch.unthreadBody s
  case setOrigin => exact .serve _ _ KeepsPitch.setOriginBody s
  case inch =>
    exact .serveOperands _ _ (fun d u => .fork (.refl u) (.fork (.refl u) (.fork (.refl u) (.enter (.setTrc (.refl u) _) _)))) s
  case shuttle => exact .serveOperands _ _ (fun a u => .fork (.refl u) (.fork (.refl u) (.enter (.setTrc (.refl u) _) _))) s
  case scan => exact .serveOperands _ _ KeepsPitch.scanBody s
  case pause => exact .serve _ _ (fun u => .fork (.same (.refl u) (addHold_pitches _)) (.refl u)) s
  case resume => exact .serve _ _ (fun u => .fork (.same (.refl u) (removeHold_pitches _)) (.refl u)) s
  case stop => exact .serve _ _ KeepsPitch.stopBody s
  case clearFault => exact .serve _ _ (fun u => .fork (.enterThreaded (.setTrc (.refl u) _)) (.refl u)) s
  case stagePitch => exact .serveOperands _ _ KeepsPitch.stagePitchBody s
  case stageReg => exact .serveOperands _ _ (fun a u => .same (.refl u) rfl) s
  case commit => exact .serve _ _ (fun u => .fork (.refl u) (.fork (.applyCommit (.refl u) _) (.same (.refl u) rfl))) s
  case readFrames => exact .serveOperands _ _ KeepsPitch.readFramesBody s
  case millisecondTick => exact hq.millisecondTick
  case secondTick => exact (hq.passMillis _).secondTick
  case minuteTick => exact (hq.passMillis _).minuteTick
  case estopReleased => exact hq.setTrc _
  case spliceEdge => exact .ite (hr.free (by simp)) (.ite (hr.free (by simp)) hr)
  case holdLightExpiry => exact .ite (hq.free (by simp)) hq
  case headMessageDiscarded | reportAgeExpiry | frameIgnored => exact hq
  case confirmationExpiry =>
    split
    · exact .ite (hq.free (by simp)) hq
    · exact hq
  case bayTimerExpiry =>
    split
    · exact hq.free (by simp)
    · exact hq
  case responseRead => exact (KeepsPitch.refl s).free (by dsimp only; (repeat' split) <;> simp)
  case requestMalformed | unknownCommand | portReset | releaseForce | clearGate | releaseAll | takeMove | moveDone
      | moveFailed | readAlerts | transportStatus | moveList | readPitch =>
    exact .serve_free _ _ (by simp) s
  all_goals exact .serveOperands_free _ _ (by simp) s

theorem step_keepsPitch (h : step s = .next t) : KeepsPitch s t := by
  unfold step at h
  split at h
  · cases h; exact .refl s
  · next c rest _ =>
    obtain ⟨u, hu, hk⟩ := exec_keepsPitch c { s with pending := rest }
    obtain rfl : u = t := by simpa using hu.symm.trans h
    exact .trans (t := { s with pending := rest }) ⟨id⟩ hk

/-- Settles O10: `KeepsPitch` holds of every step. -/
theorem livePitchStaysInLimits : Obligations.LivePitchStaysInLimits := fun _ _ hs h => (step_keepsPitch h).limits hs

end Sys2Proof.Machine
end

section
/-! SUPPORT. Frame-line edges outside the expected frame's window (R52, R55, R56). -/

namespace Sys2Proof.Machine

variable {s t u : State}

/-! ### An edge report (R38, R52) -/

section
variable (p : BitVec 32)

theorem kept_edgeRecorded (q : Int) : Kept [.trc, .pru, .out] s (edgeRecorded q s) := by simp [edgeRecorded]

theorem edgeRecorded_eq (q : Int) : (headReport (quiet s)).setPru { (headReport (quiet s)).pru with lastEdge := some q } =
    edgeRecorded q s := by simp [edgeRecorded]

/-- R52, R55: outside SCANNING an edge is recorded at most. -/
theorem exec_frameLine_standing (hst : s.trc.state ≠ .scanning) : exec (.frameLine p) s =
    .next (if s.trc.state = .unthreaded then headReport (quiet s) else edgeRecorded p.toInt s) := by
  have hquiet : (headReport (quiet s)).trc.state = s.trc.state := headReport_state
  have hedge : (edgeRecorded p.toInt s).trc.state = s.trc.state := by rw [edgeRecorded_trc]
  simp only [exec, execFrameLine, takeFrameLine, edgeRecorded_eq, hquiet]
  split
  · rw [if_neg (hquiet ▸ hst)]
  · rw [if_neg (hedge ▸ hst)]

/-- R56: in SCANNING an edge is recorded, declares the lines below it missing, and is tested. -/
theorem exec_frameLine_scanning (hst : s.trc.state = .scanning) : exec (.frameLine p) s =
    .next (takeEdge p.toInt (declareMissing missingFuel p.toInt (edgeRecorded p.toInt s))) := by
  have hquiet : (headReport (quiet s)).trc.state = .scanning := headReport_state.trans hst
  have hedge : (edgeRecorded p.toInt s).trc.state = .scanning := by rw [edgeRecorded_trc, hst]
  simp only [exec, execFrameLine, takeFrameLine, edgeRecorded_eq, hquiet, hedge, reduceCtorEq, if_true, if_false]

end

/-- R56: an edge below the window, or with no line expected and no SEEKING, is a stray. -/
theorem takeEdge_stray {p : Int} (hst : s.trc.state = .scanning) (hseek : s.pru.lock ≠ .seeking)
    (hbelow : ∀ m, s.pru.expect = some m → p < m.pos - s.pru.windowHalf) : takeEdge p s = strayEdge s := by
  unfold takeEdge
  rw [if_neg (not_not.mpr hst), if_neg hseek]
  split
  · rfl
  · next m hm => rw [if_pos (hbelow m hm)]

/-- Settles O20: `edgeRecorded` is all an edge does outside SCANNING; below the window `strayEdge` follows. -/
theorem edgeOutsideTheWindow : Obligations.EdgeOutsideTheWindow := by
  refine ⟨fun s p hst => ?_, fun s p hst hseek hbelow hhalf => ?_⟩
  · refine ⟨_, exec_frameLine_standing p hst, ?_⟩
    split
    · exact ⟨by simp, headReport_trc, by simp⟩
    · exact ⟨edgeRecorded_pru _, edgeRecorded_trc _, kept_edgeRecorded _⟩
  · have hinside : ∀ m, s.pru.expect = some m → p.toInt ≤ m.pos + s.pru.windowHalf := fun m hm => by
      have := hbelow m hm
      omega
    have hexec : exec (.frameLine p) s = .next (strayEdge (edgeRecorded p.toInt s)) := by
      rw [exec_frameLine_scanning p hst, declareMissing_inside (s := edgeRecorded p.toInt s) hinside,
        takeEdge_stray (s := edgeRecorded p.toInt s) (by rw [edgeRecorded_trc, hst]) hseek hbelow]
    exact ⟨_, hexec, rfl, edgeRecorded_trc p.toInt, by simpa using kept_edgeRecorded p.toInt⟩

end Sys2Proof.Machine
end

section
/-! SUPPORT. STAGE_PITCH, STAGE_REG and COMMIT (R49, R63 to R67). -/

namespace Sys2Proof.Machine

variable {s t u : State} {rq : Rq}

/-! ### Staging (R64, R65) -/

/-- R64, R65: a store answers OK_CLAMPED exactly when the stored value is not the given one. -/
theorem clamped_bne {α : Type} [DecidableEq α] (v w : α) (results : List Byte) :
    Reply.clamped (v != w) results = ⟨if v = w then .ok else .okClamped, results⟩ := by
  simp only [Reply.clamped, bne_iff_ne, ne_eq, ite_not]

/-- R64: the clamps of STAGE_PITCH as the specification writes them. -/
theorem stagedPitch_eq (a : PitchArgs) :
    let m2 := if a.m2.toNat < 2 then 2 else a.m2.toNat
    stagedPitch a = ⟨if a.pInt = 0 then 1 else a.pInt.toNat, a.f1.toNat,
      if m2 - 1 < a.f2.toNat then m2 - 1 else a.f2.toNat, m2⟩ := by
  have hpInt : a.pInt = 0 ↔ a.pInt.toNat = 0 := BitVec.toNat_eq
  simp only [stagedPitch, hpInt, Pitch.mk.injEq, true_and]
  (repeat' split) <;> omega

/-- R64: STAGE_PITCH answers OK_CLAMPED exactly when a clamp changed a value. -/
theorem stagedPitch_unchanged_iff (a : PitchArgs) :
    stagedPitch a = ⟨a.pInt.toNat, a.f1.toNat, a.f2.toNat, a.m2.toNat⟩ ↔
      ¬(a.pInt = 0 ∨ a.m2.toNat < 2 ∨ (if a.m2.toNat < 2 then 2 else a.m2.toNat) - 1 < a.f2.toNat) := by
  have hpInt : a.pInt = 0 ↔ a.pInt.toNat = 0 := BitVec.toNat_eq
  simp only [stagedPitch, hpInt, Pitch.mk.injEq, true_and]
  split <;> omega

/-- R65: the clamps of STAGE_REG as the specification writes them. -/
theorem stagedReg_eq (a : RegArgs) : stagedReg a =
    ⟨max 8 (min 2000 a.lw.toNat), min 5 a.index.toNat, max 100 (min 4000 a.search.toNat), max 3 (min 6 a.w.toNat),
      min 3 a.g.toNat, min 1 a.adapt.toNat⟩ := by
  simp [stagedReg, clampNat_eq]

/-! ### The commit (R63, R66, R67) -/

/-- The state after the clamp and the copy of a commit, before a changed pitch re-anchors. -/
def committed (s : State) : State :=
  let t := makeLive s.pru.staged s
  t.setPru { t.pru with
    liveReg := t.pru.stagedReg, commitPending := false
    window := windowOnCommit s.pru.liveReg t.pru.stagedReg t.pru.window }

theorem committed_pru (s : State) : (committed s).pru = { s.pru with
    live := clampPitch s.pru.gauge s.pru.staged, liveReg := s.pru.stagedReg, commitPending := false
    window := windowOnCommit s.pru.liveReg s.pru.stagedReg s.pru.window } := by
  simp [committed, makeLive]

@[simp] theorem committed_trc (s : State) : (committed s).trc = s.trc := by simp [committed]
@[simp] theorem committed_cfg (s : State) : (committed s).cfg = s.cfg := by simp [committed]

/-- R67: a commit that leaves the pitch as it was makes no anchor. -/
theorem applyCommit_unchanged (h : clampPitch s.pru.gauge s.pru.staged = s.pru.live) (place : Option Mark) :
    applyCommit place s = committed s := by
  have hlive : (committed s).pru.live = s.pru.live := by rw [committed_pru, h]
  exact if_pos hlive

/-- R67: a changed pitch re-anchors at the place of the commit, or unlocks where there is none. -/
theorem applyCommit_changed (h : clampPitch s.pru.gauge s.pru.staged ≠ s.pru.live) (place : Option Mark) :
    applyCommit place s = refreshCapstan (match place with
      | some m => reanchorAt m (committed s)
      | none => unlock (committed s)) := by
  have hlive : (committed s).pru.live ≠ s.pru.live := by rw [committed_pru]; exact h
  exact if_neg hlive

/-- R63: what a commit does to the adaptation window. -/
theorem windowOnCommit_spec (old new : RegValues) (w : AdaptWindow) :
    (new.adapt = 0 → old.adapt ≠ 0 → windowOnCommit old new w = .off) ∧
    (new.adapt ≠ 0 → old.adapt = 0 ∨ old.w ≠ new.w → windowOnCommit old new w = .restart) ∧
    ((new.adapt = 0 ↔ old.adapt = 0) → new.w = old.w → windowOnCommit old new w = w) := by
  unfold windowOnCommit
  refine ⟨fun hnew hold => ?_, fun hnew hold => ?_, fun hsame hw => ?_⟩
  · rw [if_pos hnew, if_neg hold]
  · rw [if_neg hnew, if_pos hold]
  · by_cases hold : old.adapt = 0
    · rw [if_pos (hsame.mpr hold), if_pos hold]
    · rw [if_neg (mt hsame.mp hold), if_neg (not_or.mpr ⟨hold, not_not.mpr hw.symm⟩)]

/-- R66: COMMIT's three outcomes. -/
theorem commitBody_eq (s : State) : commitBody s =
    (if s.pru.commitPending = true then s
      else if s.trc.state = .unthreaded ∨ s.trc.state = .threaded then applyCommit s.commitPlace s
      else s.setPru { s.pru with commitPending := true }, ⟨.ok, []⟩) := by
  unfold commitBody
  (repeat' split) <;> rfl

/-- R67: the place of the commit of a reel in THREADED. -/
theorem commitPlace_threaded (hst : s.trc.state = .threaded) {m : Mark}
    (hm : (∃ l, s.pru.lastLine = some l ∧ m = ⟨l.pos, l.frame⟩) ∨ s.pru.lastLine = none ∧ s.pru.anchor = some m) :
    s.commitPlace = some m := by
  unfold State.commitPlace
  rw [if_neg (by simp [hst])]
  rcases hm with ⟨l, hl, rfl⟩ | ⟨hl, ha⟩
  · rw [hl]
  · rw [hl, ha]

theorem commitPlace_none (h : s.trc.state = .unthreaded ∨ s.pru.lastLine = none ∧ s.pru.anchor = none) :
    s.commitPlace = none := by
  unfold State.commitPlace
  rcases h with h | ⟨hl, ha⟩
  · rw [if_pos h]
  · rw [hl, ha, ite_self]

/-- R67: PRU after the commit of a film that stands, whose pitch changed. -/
theorem applyCommit_changed_pru (hst : s.trc.state ≠ .scanning) (h : clampPitch s.pru.gauge s.pru.staged ≠ s.pru.live) :
    (∀ m, (applyCommit (some m) s).pru = { (committed s).pru with
      anchor := some m, a1 := 0, a2 := 0, expect := none, lock := .unlocked, count := 0, missing := 0, reanchor := false
      seekFrom := none
      window := if s.pru.stagedReg.adapt = 1 then .frame (m.frame + 2 ^ s.pru.stagedReg.w) else .off }) ∧
    (applyCommit none s).pru = { (committed s).pru with lock := .unlocked, count := 0, seekFrom := none } := by
  refine ⟨fun m => ?_, ?_⟩
  · rw [applyCommit_changed h, refreshCapstan_pru, reanchorAt_pru (by simpa using hst)]
    simp [committed_pru, Pru.windowAfter]
  · rw [applyCommit_changed h, refreshCapstan_pru, unlock_pru]

/-- What a commit leaves of PRU, whatever it re-anchors (R67). -/
theorem applyCommit_base (place : Option Mark) : (applyCommit place s).pru.staged = s.pru.staged ∧
    (applyCommit place s).pru.stagedReg = s.pru.stagedReg ∧ (applyCommit place s).pru.adapted = s.pru.adapted ∧
    (applyCommit place s).pru.gauge = s.pru.gauge ∧ (applyCommit place s).pru.origin = s.pru.origin := by
  by_cases h : clampPitch s.pru.gauge s.pru.staged = s.pru.live
  · simp [applyCommit_unchanged h, committed_pru]
  · rw [applyCommit_changed h, refreshCapstan_pru]
    cases place with
    | none => simp [committed_pru]
    | some m => simp [reanchorAt, anchorAt, committed_pru]

/-- Settles O49: the stored values by `stagedPitch_eq` and `stagedReg_eq`, the commit by `applyCommit_unchanged` and
`applyCommit_changed_pru`. -/
theorem stagingAndCommit : Obligations.StagingAndCommit := by
  intro rq s hserved u
  have htrc : u.trc = s.trc := arrive_trc _
  have hpru : u.pru = s.pru := arrive_pru _
  refine ⟨fun a => ?_, fun a => ?_, fun hpending => ?_, fun hpending hun hth => ?_, fun hpending hst => ?_⟩
  · intro pInt m2 f2
    have hp : stagedPitch a = ⟨pInt, a.f1.toNat, f2, m2⟩ := stagedPitch_eq a
    refine exec_of_body (v := u.setPru { u.pru with staged := stagedPitch a }) rfl hserved ?_ (by simp) (by simp [u]) ?_
    · have hclamp := stagedPitch_unchanged_iff a
      simp only [withOperands, stagePitchBody, clamped_bne, hclamp, ite_not]
      rfl
    · rw [answer_pru, State.setPru_pru, hpru, hp]
  · intro v
    have hv : stagedReg a = v := stagedReg_eq a
    refine exec_of_body (v := u.setPru { u.pru with stagedReg := v }) rfl hserved ?_ (by simp) (by simp [u]) ?_
    · simp only [withOperands, stageRegBody, clamped_bne, hv]
      rfl
    · rw [answer_pru, State.setPru_pru, hpru]
  · exact exec_of_same (body := commitBody) rfl hserved (by rw [commitBody_eq, if_pos (by rw [arrive_pru, hpending])])
  · refine exec_of_body (v := u.setPru { u.pru with commitPending := true }) rfl hserved ?_ (by simp) (by simp [u]) ?_
    · simp [commitBody_eq, u, hpending, hun, hth]
    · rw [answer_pru, State.setPru_pru, hpru]
  · have hbody : commitBody u = (applyCommit u.commitPlace u, ⟨.ok, []⟩) := by
      simp [commitBody_eq, htrc, hpru, hpending, hst]
    refine exec_of_body rfl hserved hbody (by simp) (by simp [u]) ?_
    have hnot : u.trc.state ≠ .scanning := by rw [htrc]; rcases hst with h | h <;> simp [h]
    obtain ⟨hcommit, hlive, hreg⟩ := applyCommit_live (s := u) u.commitPlace
    obtain ⟨hstaged, hstagedReg, hadapted, hgauge, horigin⟩ := applyCommit_base (s := u) u.commitPlace
    rw [answer_pru]
    rw [hpru] at hlive hreg hstaged hstagedReg hadapted hgauge horigin
    refine ⟨hlive, hreg, hcommit, hstaged, hstagedReg, hadapted, hgauge, horigin, fun hsame => ?_, fun hchanged => ?_⟩
    · have hclamp : clampPitch u.pru.gauge u.pru.staged = u.pru.live := by rw [hpru, ← hlive, hsame]
      obtain ⟨hoff, hrestart, hkeep⟩ := windowOnCommit_spec s.pru.liveReg s.pru.stagedReg s.pru.window
      rw [applyCommit_unchanged hclamp, committed_pru, hclamp, hpru]
      exact ⟨rfl, hoff, hrestart, fun ha hw => hkeep (by rw [ha]) hw⟩
    · have hclamp : clampPitch u.pru.gauge u.pru.staged ≠ u.pru.live := by rw [hpru, ← hlive]; exact hchanged
      obtain ⟨hmark, hnone⟩ := applyCommit_changed_pru hnot hclamp
      refine ⟨?_, ?_, fun hno => ?_, fun m hthreaded hm => ?_⟩
      · cases hplace : u.commitPlace with
        | none => rw [hnone]
        | some m => rw [hmark]
      · cases hplace : u.commitPlace with
        | none => rw [hnone]
        | some m => rw [hmark]
      · rw [commitPlace_none (by rw [htrc, hpru]; exact hno), hnone, committed_pru, hpru]
      · rw [commitPlace_threaded (by rw [htrc, hthreaded]) (by rw [hpru]; exact hm), hmark, hpru]
        exact ⟨rfl, rfl, rfl, rfl, rfl, rfl⟩

end Sys2Proof.Machine
end

section
/-! SUPPORT. The steps of a frame line, each said once: the lock detector (R58, R59), the anchorings in SCANNING (R53, R62),
the report to FCU (R72 to R76) and the step of the expectation (R50). -/

namespace Sys2Proof.Machine

variable {s t u v a b : State} {x : LineReport} {m : Mark} {e : Int} {k : Nat}

/-! ### The lock detector (R58) -/

theorem lockMeasured_lock_of_locked (h : s.pru.lock = .locked) :
    (e.natAbs ≤ s.pru.liveReg.lw → (lockMeasured e s).pru.lock = .locked ∧
      (lockMeasured e s).pru.count = min 64 (s.pru.count + 1)) ∧
    (¬e.natAbs ≤ s.pru.liveReg.lw → (lockMeasured e s).pru.lock = .unlocked ∧ (lockMeasured e s).pru.count = 0 ∧
      LatchedWhereRouted .lockLost s (lockMeasured e s)) := by
  refine ⟨fun hgood => ?_, fun hbad => ?_⟩
  · simp [lockMeasured, h, hgood]
  · have hstep : lockMeasured e s = unlock (s.setPru { s.pru with missing := 0 }) := by simp [lockMeasured, h, hbad]
    refine ⟨by rw [hstep, unlock_pru], by rw [hstep, unlock_pru], ?_⟩
    rw [hstep, unlock, show (s.setPru { s.pru with missing := 0 }).pru.lock = .locked from h]
    exact latched_raise fun _ => rfl

theorem lockMeasured_lock_of_unlocked (h : s.pru.lock = .unlocked) :
    (e.natAbs ≤ s.pru.liveReg.lw → s.pru.count + 1 < lockCount s.pru.liveReg.index →
      (lockMeasured e s).pru.lock = .unlocked ∧ (lockMeasured e s).pru.count = s.pru.count + 1) ∧
    (e.natAbs ≤ s.pru.liveReg.lw → lockCount s.pru.liveReg.index ≤ s.pru.count + 1 →
      (lockMeasured e s).pru.lock = .locked ∧ (lockMeasured e s).pru.count = min 64 (s.pru.count + 1) ∧
      LatchedWhereRouted .lockGained s (lockMeasured e s)) ∧
    (¬e.natAbs ≤ s.pru.liveReg.lw → (lockMeasured e s).pru.lock = .unlocked ∧ (lockMeasured e s).pru.count = 0) := by
  refine ⟨fun hgood hbelow => ?_, fun hgood hreached => ?_, fun hbad => ?_⟩
  · simp [lockMeasured, h, hgood, Nat.not_le.mpr hbelow]
  · have hstep : lockMeasured e s = raise .lockGained (s.setPru { s.pru with
        missing := 0, count := min 64 (s.pru.count + 1), lock := .locked }) := by
      simp [lockMeasured, h, hgood, hreached]
    exact ⟨by rw [hstep]; simp, by rw [hstep]; simp, hstep ▸ latched_raise fun _ => rfl⟩
  · simp [lockMeasured, h, hbad]

theorem lockStepped_lockMeasured : LockStepped e s (lockMeasured e s) :=
  ⟨fun h => (lockMeasured_lock_of_locked h).1, fun h => (lockMeasured_lock_of_locked h).2,
    fun h => (lockMeasured_lock_of_unlocked h).1, fun h => (lockMeasured_lock_of_unlocked h).2.1,
    fun h => (lockMeasured_lock_of_unlocked h).2.2⟩

/-- The detector reads the lock, its count and the limits alone; what follows keeps lock and count and forgets no alert. -/
theorem LockStepped.extend (h : LockStepped e a b) (hin : (a.pru.lock, a.pru.count, a.pru.liveReg) =
    (s.pru.lock, s.pru.count, s.pru.liveReg)) (hcfg : a.cfg = s.cfg)
    (hout : (t.pru.lock, t.pru.count) = (b.pru.lock, b.pru.count)) (hgrow : AlertsGrow b t) : LockStepped e s t := by
  simp only [Prod.mk.injEq] at hin hout
  obtain ⟨hlock, hcount, hreg⟩ := hin
  have hlatched : ∀ ev, LatchedWhereRouted ev a b → LatchedWhereRouted ev s t := fun ev hev p hp =>
    (hgrow p).2 ev (hev p (by rwa [route_of_cfg hcfg]))
  obtain ⟨hkept, hlost, hrising, hgained, hreset⟩ := h
  rw [hlock, hreg] at hkept hlost hrising hgained hreset
  rw [hcount] at hkept hrising hgained
  unfold LockStepped
  rw [hout.1, hout.2]
  exact ⟨hkept, fun hl hb => ⟨(hlost hl hb).1, (hlost hl hb).2.1, hlatched _ (hlost hl hb).2.2⟩, hrising,
    fun hl hg hc => ⟨(hgained hl hg hc).1, (hgained hl hg hc).2.1, hlatched _ (hgained hl hg hc).2.2⟩, hreset⟩

/-- R58: the lock after the detector has taken a measured line. -/
theorem lockMeasured_lock (h : s.pru.lock ≠ .seeking) : (lockMeasured e s).pru.lock =
    if e.natAbs ≤ s.pru.liveReg.lw ∧ (s.pru.lock = .locked ∨ lockCount s.pru.liveReg.index ≤ s.pru.count + 1) then .locked
    else .unlocked := by
  cases hl : s.pru.lock with
  | seeking => exact absurd hl h
  | locked =>
    obtain ⟨hgood, hbad⟩ := lockMeasured_lock_of_locked (e := e) hl
    by_cases hw : e.natAbs ≤ s.pru.liveReg.lw
    · simp [hgood hw, hw]
    · simp [hbad hw, hw]
  | unlocked =>
    obtain ⟨hbelow, hreached, hbad⟩ := lockMeasured_lock_of_unlocked (e := e) hl
    by_cases hw : e.natAbs ≤ s.pru.liveReg.lw
    · by_cases hc : lockCount s.pru.liveReg.index ≤ s.pru.count + 1
      · simp [hreached hw hc, hw, hc]
      · simp [hbelow hw (Nat.lt_of_not_le hc), hc]
    · simp [hbad hw, hw]

theorem lockMeasured_locked_iff (h : s.pru.lock ≠ .seeking) : (lockMeasured e s).pru.lock = .locked ↔ LocksAt e s := by
  rw [lockMeasured_lock h, LocksAt]
  split <;> simp [*]

theorem lockMeasured_not_seeking (h : s.pru.lock ≠ .seeking) : (lockMeasured e s).pru.lock ≠ .seeking := by
  rw [lockMeasured_lock h]
  split <;> nofun

/-! ### The lock detector at a missing line (R59) -/

theorem lockMissing_first (hl : s.pru.lock = .locked) (hm : s.pru.missing = 0) :
    lockMissing k s = s.setPru { s.pru with count := 0, missing := 1 } := by
  simp [lockMissing, hl, hm]

/-- R59: the second missing line of a run unlocks. -/
theorem lockMissing_second (hl : s.pru.lock = .locked) (hm : s.pru.missing = 1) :
    lockMissing k s = unlock (s.setPru { s.pru with count := 0, missing := 2 }) := by
  simp [lockMissing, hl, hm]

theorem lockMissing_unlocked (hl : s.pru.lock = .unlocked) (hm : s.pru.missing ≤ 1) :
    lockMissing k s = s.setPru { s.pru with count := 0, missing := s.pru.missing + 1 } := by
  have : ¬3 ≤ s.pru.missing + 1 := by omega
  simp [lockMissing, hl, this]

/-- R59: the third missing line of a run begins SEEKING. -/
theorem lockMissing_third (hl : s.pru.lock = .unlocked) (hm : s.pru.missing = 2) : lockMissing k s =
    raise .seeking (s.setPru { s.pru with count := 0, missing := 3, lock := .seeking, seekFrom := some k }) := by
  simp [lockMissing, hl, hm]

/-! ### Anchorings in SCANNING (R53, R62) -/

theorem windowAnchor_pru (hst : s.trc.state = .scanning) (m : Mark) : (windowAnchor m s).pru = { s.pru with
    anchor := some m, a1 := 0, a2 := 0, expect := some m, window := .frame (m.frame + 2 ^ s.pru.liveReg.w) } := by
  simp [windowAnchor, anchorAt, hst, Pru.windowAfter]

/-- R53: a re-anchoring of a film that is scanned. -/
theorem reanchorAt_pru_scanning (hst : s.trc.state = .scanning) (m : Mark) : (reanchorAt m s).pru = { s.pru with
    anchor := some m, a1 := 0, a2 := 0, expect := some m, lock := .unlocked, count := 0, missing := 0, reanchor := false
    seekFrom := none, window := windowFrom s.pru.liveReg.adapt s.pru.liveReg.w m.frame } := by
  simp [reanchorAt, unlock, anchorAt, hst, Pru.windowAfter, windowFrom]

/-- R62: a correction before the capstan follows it. -/
def corrected (e edge : Int) (k : Nat) (s : State) : State :=
  let t := makeLive (correctPitch s.pru.live (e * 2 ^ (16 - s.pru.liveReg.w - s.pru.liveReg.g))) s
  windowAnchor ⟨edge, k⟩ (t.setPru { t.pru with adapted := t.pru.adapted || t.pru.live != s.pru.live })

theorem correction_eq (e edge : Int) (k : Nat) (s : State) : correction e edge k s = refreshCapstan (corrected e edge k s) :=
  rfl

/-- The pitch a correction makes live (R49, R62). -/
def correctedLive (e : Int) (u : Pru) : Pitch :=
  clampPitch u.gauge (correctPitch u.live (e * 2 ^ (16 - u.liveReg.w - u.liveReg.g)))

theorem correction_pru (hst : s.trc.state = .scanning) (e edge : Int) (k : Nat) : (correction e edge k s).pru = { s.pru with
    live := correctedLive e s.pru, adapted := s.pru.adapted || correctedLive e s.pru != s.pru.live
    anchor := some ⟨edge, k⟩, a1 := 0, a2 := 0, expect := some ⟨edge, k⟩, window := .frame (k + 2 ^ s.pru.liveReg.w) } := by
  rw [correction_eq, refreshCapstan_pru, corrected, windowAnchor_pru (by simp [hst])]
  simp [makeLive, correctedLive]

theorem latches_correction (e edge : Int) (k : Nat) (s : State) : Latches
    (if correctedLive e s.pru = correctPitch s.pru.live (e * 2 ^ (16 - s.pru.liveReg.w - s.pru.liveReg.g)) then []
      else [.pitchLimit]) s (correction e edge k s) :=
  (latches_makeLive _ s).of_alt (by simp [correction_eq, corrected])

theorem latches_applyCommit (place : Mark) (s : State) : Latches
    ((if clampPitch s.pru.gauge s.pru.staged = s.pru.staged then [] else [.pitchLimit]) ++
      if clampPitch s.pru.gauge s.pru.staged ≠ s.pru.live ∧ s.pru.lock = .locked then [.lockLost] else [])
    s (applyCommit (some place) s) := by
  have hlive : Latches (if clampPitch s.pru.gauge s.pru.staged = s.pru.staged then [] else [.pitchLimit]) s (committed s) :=
    (latches_makeLive _ s).of_alt (by simp [committed])
  by_cases h : clampPitch s.pru.gauge s.pru.staged = s.pru.live
  · rw [applyCommit_unchanged h]
    simpa [h] using hlive
  · rw [applyCommit_changed h]
    have hre := hlive.trans (latches_reanchorAt place (committed s)) (by simp)
    refine Latches.of_alt (t := reanchorAt place (committed s)) ?_ (by simp)
    simpa [h, committed_pru] using hre

/-! ### The adaptation step away from a window's end (R62, R63) -/

theorem adaptStep_idle (hw : s.pru.window ≠ .restart) (hk : s.pru.window ≠ .frame k) (edge : Option (Int × Int)) :
    adaptStep k edge s = s := by
  unfold adaptStep
  cases h : s.pru.window with
  | off => rfl
  | restart => exact absurd h hw
  | frame wf =>
    have hne : k ≠ wf := fun hkw => hk (hkw ▸ h)
    cases edge with
    | none => exact if_neg hne
    | some x => exact if_neg hne

theorem windowFrom_later (adapt w k : Nat) : windowFrom adapt w k ≠ .restart ∧ windowFrom adapt w k ≠ .frame k := by
  unfold windowFrom
  split
  · refine ⟨nofun, fun h => ?_⟩
    have := Nat.two_pow_pos w
    simp only [AdaptWindow.frame.injEq] at h
    omega
  · exact ⟨nofun, nofun⟩

/-- R63: a missing window frame leaves the restart pending. -/
theorem adaptStep_missing (k : Nat) (s : State) :
    adaptStep k none s = s.setPru { s.pru with window := if s.pru.window = .frame k then .restart else s.pru.window } := by
  by_cases hk : s.pru.window = .frame k
  · simp [adaptStep, hk]
  · rw [if_neg hk]
    by_cases hr : s.pru.window = .restart
    · have hstep : adaptStep k none s = s := by simp [adaptStep, hr]
      rw [hstep]
      rfl
    · exact adaptStep_idle hr hk none

/-! ### The report to FCU (R72 to R76) -/

theorem alertsGrow_rescanThreaded (r : FrameRange) (s : State) : AlertsGrow s (rescanThreaded r s) := by
  unfold rescanThreaded
  split
  · exact (reopens_rescanAdd _ r).1.1
  · exact .refl s

theorem alertsGrow_seekingGap (x : LineReport) (s : State) : AlertsGrow s (seekingGap x s) := by
  unfold seekingGap
  split
  · exact .refl s
  · dsimp only
    split
    · exact alertsGrow_rescanThreaded _ s
    · exact .refl s

theorem alertsGrow_skipLine (k : Nat) (s : State) : AlertsGrow s (skipLine k s) := by
  have hadd : AlertsGrow s ((rescanThreaded ⟨k, k⟩ s).setFcu { (rescanThreaded ⟨k, k⟩ s).fcu with
      skips := min 255 ((rescanThreaded ⟨k, k⟩ s).fcu.skips + 1), nextFrame := k + 1 }) :=
    alertsGrow_rescanThreaded ⟨k, k⟩ s
  exact hadd.raise .frameSkipped

@[simp] theorem skipLine_fcu (k : Nat) (s : State) : (skipLine k s).fcu =
    { s.fcu with skips := min 255 (s.fcu.skips + 1), nextFrame := k + 1 } := by
  simp [skipLine, breakChains]

/-- R74: what a rescan request leaves of the threaded reel. -/
theorem rescanThreaded_reel {h : Nat} (hh : s.trc.handle = some h) {r : Reel} (hr : s.reel h = some r) (y : FrameRange) :
    (rescanThreaded y s).reel h = some { r with rescan := addRange r.rescan y } := by
  rw [rescanThreaded, hh]
  simp only [(reopens_rescanAdd h y).2, if_true, hr, Option.map_some]

/-- R72, R75: below next frame, FCU passes the line over. -/
theorem takeLine_below (hl : x.lock ≠ .seeking) (hk : x.frame < 65535) (hn : x.frame < s.fcu.nextFrame) :
    takeLine x s = seekingGap x s := by
  unfold takeLine
  rw [if_neg hl, frameLimit_below hk]
  simp [hn]

/-- R72, R73, R75: a context is FREE, and no other one holds the frame. -/
theorem takeLine_opens {c : CtxId} (hl : x.lock ≠ .seeking) (hn : s.fcu.nextFrame ≤ x.frame)
    (hs : s.trc.state = .scanning) (h : Undisturbed s x.frame) (hc : LowestFree s c) :
    takeLine x s = openCtx c x (seekingGap x s) := by
  obtain ⟨hk, hopen⟩ := h
  have hopen : ∀ c y, s.fcu.ctx.get c = some y → y.frame ≠ x.frame := hopen.resolve_left (Nat.not_lt.mpr hn)
  have hfree : (seekingGap x s).fcu.freeCtx = some c := by rw [seekingGap_fcu, freeCtx_of_lowestFree hc]
  unfold takeLine
  rw [if_neg hl, frameLimit_below hk]
  dsimp only
  rw [if_neg (by rw [seekingGap_fcu]; omega), hfree]
  exact captureLine_fresh (by simpa using hs) (by simpa using hopen)

/-- R72, R74, R75: both contexts are OPEN. -/
theorem takeLine_skips (hl : x.lock ≠ .seeking) (hk : x.frame < 65535) (hn : s.fcu.nextFrame ≤ x.frame)
    (hc : s.fcu.freeCtx = none) : takeLine x s = skipLine x.frame (seekingGap x s) := by
  unfold takeLine
  rw [if_neg hl, frameLimit_below hk]
  simp [Nat.not_lt.mpr hn, hc]

/-- R75: in SEEKING a line is not captured. -/
theorem takeLine_seeking (hl : x.lock = .seeking) (hk : x.frame < 65535) : takeLine x s =
    if s.fcu.nextFrame ≤ x.frame then
      (rescanThreaded ⟨x.frame, x.frame⟩ s).setFcu { s.fcu with nextFrame := x.frame + 1 }
    else s := by
  unfold takeLine
  rw [if_pos hl, frameLimit_below hk]
  simp

theorem lowestFree_of_freeCtx {c : CtxId} (h : s.fcu.freeCtx = some c) : LowestFree s c := by
  unfold Fcu.freeCtx at h
  cases h0 : s.fcu.ctx.zero with
  | none =>
    simp only [h0, Option.isNone_none, if_true, Option.some.injEq] at h
    subst h
    exact ⟨h0, nofun⟩
  | some y =>
    cases h1 : s.fcu.ctx.one with
    | none =>
      simp only [h0, h1, Option.isNone_some, Option.isNone_none, if_true, Bool.false_eq_true, if_false,
        Option.some.injEq] at h
      subst h
      exact ⟨h1, fun _ => by simp [Two.get, h0]⟩
    | some z => simp [h0, h1] at h

theorem alertsGrow_takeLine (hs : s.trc.state = .scanning) (h : Undisturbed s x.frame) : AlertsGrow s (takeLine x s) := by
  by_cases hl : x.lock = .seeking
  · rw [takeLine_seeking hl h.1]
    split
    · exact (alertsGrow_rescanThreaded _ s).trans (.of_eq rfl)
    · exact .refl s
  · have hgap := alertsGrow_seekingGap x s
    by_cases hn : x.frame < s.fcu.nextFrame
    · rw [takeLine_below hl h.1 hn]
      exact hgap
    · have hn := Nat.le_of_not_lt hn
      cases hc : s.fcu.freeCtx with
      | none =>
        rw [takeLine_skips hl h.1 hn hc]
        exact hgap.trans (alertsGrow_skipLine _ _)
      | some c =>
        rw [takeLine_opens hl hn hs h (lowestFree_of_freeCtx hc)]
        exact hgap.trans (.of_eq (by simp))

/-- R73: what FCU and the head have of a context that opens. -/
theorem openCtx_fcu (c : CtxId) (x : LineReport) (s : State) : (openCtx c x s).fcu.nextFrame = x.frame + 1 ∧
    (∃ y, (openCtx c x s).fcu.ctx.get c = some y ∧ y.frame = x.frame ∧ y.error = x.error ∧ y.reanch = x.reanch ∧
      y.locked = (x.lock == .locked)) ∧
    .capture x.frame (x.error.getD 0) ∈ (openCtx c x s).out.head := by
  simp [openCtx, State.send]

/-! ### The expectation steps on (R50) -/

theorem stepExpectation_pru (h : s.pru.expect = some m) :
    let x := stepPitch s.pru.live s.pru.a1 s.pru.a2
    (stepExpectation s).pru = { s.pru with expect := some ⟨m.pos + x.rise, m.frame + 1⟩, a1 := x.a1, a2 := x.a2 } := by
  simp [stepExpectation, h]

end Sys2Proof.Machine
end

section
/-! SUPPORT. The line of the expected frame, measured or missing: PRU's steps up to the report, and what the report leaves
(R57). -/

namespace Sys2Proof.Machine

variable {s t u v : State} {m n : Mark} {error : Option Int} {reanch : Bool} {from_ : Option Nat} {p pk : Int} {k : Nat}

/-! ### The report and the step (R57, steps 5 and 6) -/

/-- Between `v` and `t` the line of frame k has been reported to FCU and the expectation has stepped on. -/
structure Reported (k : Nat) (error : Option Int) (reanch : Bool) (v t : State) : Prop where
  trc : t.trc = v.trc
  pru : t.pru = (stepExpectation v).pru
  alerts : AlertsGrow v t
  kept : Kept lineBlocks v t
  passed : k < v.fcu.nextFrame → t.fcu = v.fcu
  taken : v.fcu.nextFrame ≤ k → t.fcu.nextFrame = k + 1
  captured : ∀ c, LowestFree v c → v.fcu.nextFrame ≤ k → CapturedIn c k error reanch t ∧
    .capture k (error.getD 0) ∈ t.out.head

/-- The report PRU makes of a line. -/
def lineReport (m : Mark) (error : Option Int) (reanch : Bool) (from_ : Option Nat) (s : State) : LineReport where
  frame := m.frame
  error := error
  offset := rowOffset s.pru.live error
  lock := s.pru.lock
  reanch := reanch
  splice := s.spliceFlag m.pos
  seekFrom := from_

theorem reportLine_eq : reportLine m error reanch from_ s = takeLine (lineReport m error reanch from_ s) s := rfl

@[simp] theorem stepExpectation_lock : (stepExpectation s).pru.lock = s.pru.lock := by
  unfold stepExpectation
  split <;> rfl

/-- R73, R75: a line that opens a context. -/
theorem reportLine_opens (hs : v.trc.state = .scanning) (hu : Undisturbed v m.frame) (hl : v.pru.lock ≠ .seeking)
    {c : CtxId} (hc : LowestFree v c) (hn : v.fcu.nextFrame ≤ m.frame) : reportLine m error reanch from_ v =
      openCtx c (lineReport m error reanch from_ v) (seekingGap (lineReport m error reanch from_ v) v) :=
  takeLine_opens (x := lineReport m error reanch from_ v) hl hn hs hu hc

theorem reportLine_passed (hu : Undisturbed v m.frame) (hl : v.pru.lock ≠ .seeking) (hn : m.frame < v.fcu.nextFrame) :
    (reportLine m error reanch from_ v).fcu = v.fcu := by
  rw [reportLine_eq, takeLine_below (x := lineReport m error reanch from_ v) hl hu.1 hn, seekingGap_fcu]

/-- R73, R74: captured or skipped, the frame is taken. -/
theorem reportLine_taken (hs : v.trc.state = .scanning) (hu : Undisturbed v m.frame) (hl : v.pru.lock ≠ .seeking)
    (hn : v.fcu.nextFrame ≤ m.frame) : (reportLine m error reanch from_ v).fcu.nextFrame = m.frame + 1 := by
  cases hc : v.fcu.freeCtx with
  | none =>
    rw [reportLine_eq, takeLine_skips (x := lineReport m error reanch from_ v) hl hu.1 hn hc, skipLine_fcu]
    rfl
  | some c =>
    rw [reportLine_opens hs hu hl (lowestFree_of_freeCtx hc) hn]
    exact (openCtx_fcu ..).1

/-- R57: a line that closes no context and ends no run, the lock not SEEKING, is reported and stepped over. -/
theorem reported_of_undisturbed (hs : v.trc.state = .scanning) (hu : Undisturbed v m.frame) (hl : v.pru.lock ≠ .seeking) :
    Reported m.frame error reanch v (afterReport m.frame (reportLine m error reanch from_ v)) := by
  obtain ⟨htrc, hfcu, hout, -, halt, hpru⟩ := reported (error := error) (reanch := reanch) (from_ := from_) hs hu
  rw [if_neg hl] at hpru
  have hgrow : AlertsGrow v (reportLine m error reanch from_ v) := alertsGrow_takeLine hs hu
  refine ⟨htrc, hpru, hgrow.trans (.of_eq halt), by simp, fun hn => hfcu.trans (reportLine_passed hu hl hn),
    fun hn => hfcu ▸ reportLine_taken hs hu hl hn, fun c hc hn => ?_⟩
  obtain ⟨-, ⟨y, hctx, hframe, herror, hreanch, hlocked⟩, hhead⟩ :=
    openCtx_fcu c (lineReport m error reanch from_ v) (seekingGap (lineReport m error reanch from_ v) v)
  rw [← reportLine_opens hs hu hl hc hn] at hctx hhead
  rw [CapturedIn, hfcu, hout, hpru, stepExpectation_lock]
  exact ⟨⟨y, hctx, hframe, herror, hreanch, hlocked.trans rfl⟩, hhead⟩

theorem Reported.capturedIn (h : Reported k error reanch v t) (hf : v.fcu = s.fcu) :
    ∀ c, LowestFree s c → s.fcu.nextFrame ≤ k → CapturedIn c k error reanch t := fun c hc hn =>
  (h.captured c (by simpa only [LowestFree, hf] using hc) (by rwa [hf])).1

theorem Reported.pru_of_expect (h : Reported k error reanch v t) (hx : v.pru.expect = some n) :
    let x := stepPitch v.pru.live v.pru.a1 v.pru.a2
    t.pru = { v.pru with expect := some ⟨n.pos + x.rise, n.frame + 1⟩, a1 := x.a1, a2 := x.a2 } := by
  rw [h.pru, stepExpectation_pru hx]

/-- R57: after the report only the expectation moves. -/
theorem Reported.frame (h : Reported k error reanch v t) :
    t.pru = { v.pru with expect := t.pru.expect, a1 := t.pru.a1, a2 := t.pru.a2 } := by
  rw [h.pru]
  unfold stepExpectation
  split <;> rfl

theorem Reported.live (h : Reported k error reanch v t) : t.pru.live = v.pru.live := by rw [h.frame]

/-- R50: the expectation goes on from where it stood. -/
theorem Reported.steppedOn (h : Reported k error reanch v t) (hx : v.pru.expect = some ⟨pk, k⟩)
    (hsame : (v.pru.live, v.pru.a1, v.pru.a2, v.pru.anchor) = (s.pru.live, s.pru.a1, s.pru.a2, s.pru.anchor)) :
    SteppedOn pk k s t := by
  simp only [Prod.mk.injEq] at hsame
  obtain ⟨hlive, ha1, ha2, hanchor⟩ := hsame
  rw [SteppedOn, h.pru_of_expect hx, ← hlive, ← ha1, ← ha2, ← hanchor]
  exact ⟨_, stepPitch_carries _ _ _, rfl, rfl⟩

/-- R50, R53: the expectation goes on from a new anchor. -/
theorem Reported.fromAnchor (h : Reported k error reanch v t) (hx : v.pru.expect = some ⟨p, k⟩)
    (hanchor : v.pru.anchor = some ⟨p, k⟩) (ha1 : v.pru.a1 = 0) (ha2 : v.pru.a2 = 0) :
    FromAnchor v.pru.live p k t.pru := by
  rw [FromAnchor, h.pru_of_expect hx, ha1, ha2]
  exact ⟨_, stepPitch_carries _ _ _, hanchor, rfl⟩

/-- A capstan that had been recomputed stays the target: a report leaves TRC and the pitch. -/
theorem Reported.capstan (h : Reported k error reanch v t) (hv : v.trc.capstan = v.capstanTarget) :
    t.trc.capstan = t.capstanTarget := by
  rw [capstanTarget_congr h.trc h.live (h.kept .cfg (by simp)), h.trc, hv]

/-! ### PRU's steps (R57, steps 1 to 4) -/

/-- The line becomes the last line. -/
def lineRecorded (l : LastLine) (s : State) : State := s.setPru { s.pru with lastLine := some l }

theorem completeLine_measured (h : s.pru.reanchor = false) : completeLine k pk (some p) s =
    let c := commitAtLine ⟨p, k⟩ (adaptStep k (some (p, p - pk)) (lockMeasured (p - pk) (lineRecorded ⟨k, p, true⟩ s)))
    afterReport k (reportLine ⟨p, k⟩ (some (p - pk)) c.1 none c.2) := by
  simp [completeLine, h, lineRecorded]

/-- R54: with re-anchor pending a measured line re-anchors in place of the lock test. -/
theorem completeLine_reanchoring (h : s.pru.reanchor = true) : completeLine k pk (some p) s =
    let c := commitAtLine ⟨p, k⟩ (adaptStep k (some (p, p - pk)) (reanchorAt ⟨p, k⟩ (lineRecorded ⟨k, p, true⟩ s)))
    afterReport k (reportLine ⟨p, k⟩ (some (p - pk)) true none c.2) := by
  simp [completeLine, h, lineRecorded]

theorem completeLine_missing : completeLine k pk none s =
    let c := commitAtLine ⟨pk, k⟩ (adaptStep k none (lockMissing k (lineRecorded ⟨k, pk, false⟩ s)))
    afterReport k (reportLine ⟨pk, k⟩ none c.1 none c.2) := by
  simp [completeLine, lineRecorded]

theorem commitAtLine_none (h : s.pru.commitPending = false) (m : Mark) : commitAtLine m s = (false, s) := by
  simp [commitAtLine, h]

theorem commitAtLine_pending (h : s.pru.commitPending = true) (m : Mark) : commitAtLine m s =
    ((applyCommit (some m) s).pru.live != s.pru.live, applyCommit (some m) s) := by
  simp [commitAtLine, h]

end Sys2Proof.Machine
end

section
/-! SUPPORT. The measured line of the expected frame (R50, R54, R57, R58, R62, R63, R66, R67). -/

namespace Sys2Proof.Machine

variable {s t v : State} {p : BitVec 32} {pk : Int} {k : Nat} {error : Option Int} {reanch : Bool}

/-! ### What every measured line leaves -/

/-- The edge at `p` is the measurement of the line of frame k, and the scan goes on. -/
structure MeasuredLine (s t : State) (p : Int) (k : Nat) : Prop where
  lastEdge : t.pru.lastEdge = some p
  lastLine : t.pru.lastLine = some ⟨k, p, true⟩
  missing : t.pru.missing = 0
  strays : t.pru.strays = s.pru.strays
  scanning : t.trc.state = .scanning
  kept : Kept lineBlocks s t

theorem MeasuredLine.reported {p : Int} (h : MeasuredLine s v p k) (r : Reported k error reanch v t) :
    MeasuredLine s t p k :=
  ⟨by rw [r.frame, h.lastEdge], by rw [r.frame, h.lastLine], by rw [r.frame, h.missing], by rw [r.frame, h.strays],
    by rw [r.trc, h.scanning], h.kept.trans r.kept⟩

/-- The line recorded (R52, R57 step 1). -/
def edgeOnLine (p : Int) (k : Nat) (s : State) : State := lineRecorded ⟨k, p, true⟩ (edgeRecorded p s)

theorem edgeOnLine_pru (p : Int) : (edgeOnLine p k s).pru = { s.pru with lastEdge := some p, lastLine := some ⟨k, p, true⟩ } :=
  rfl

@[simp] theorem edgeOnLine_state (p : Int) : (edgeOnLine p k s).trc.state = s.trc.state := by
  simp [edgeOnLine, lineRecorded]

@[simp] theorem edgeOnLine_fcu (p : Int) : (edgeOnLine p k s).fcu = s.fcu := by simp [edgeOnLine, lineRecorded]

@[simp] theorem edgeOnLine_cfg (p : Int) : (edgeOnLine p k s).cfg = s.cfg := by simp [edgeOnLine, lineRecorded]

theorem kept_edgeOnLine (p : Int) : Kept lineBlocks s (edgeOnLine p k s) := by simp [edgeOnLine, lineRecorded, edgeRecorded]

/-- The state after the lock detector has taken the measured line (R57, step 2). -/
def measured (p pk : Int) (k : Nat) (s : State) : State := lockMeasured (p - pk) (edgeOnLine p k s)

theorem measured_pru (p : Int) : (measured p pk k s).pru = { s.pru with
    lastEdge := some p, lastLine := some ⟨k, p, true⟩, lock := (measured p pk k s).pru.lock
    count := (measured p pk k s).pru.count, missing := 0, seekFrom := (measured p pk k s).pru.seekFrom } :=
  lockMeasured_frame (p - pk)

@[simp] theorem measured_state (p : Int) : (measured p pk k s).trc.state = s.trc.state := by simp [measured]

@[simp] theorem measured_fcu (p : Int) : (measured p pk k s).fcu = s.fcu := by simp [measured]

@[simp] theorem measured_cfg (p : Int) : (measured p pk k s).cfg = s.cfg := by simp [measured]

theorem kept_measured (p : Int) : Kept lineBlocks s (measured p pk k s) :=
  (kept_edgeOnLine (k := k) p).trans (by simp [measured])

theorem measuredLine_measured (hst : s.trc.state = .scanning) (p : Int) : MeasuredLine s (measured p pk k s) p k :=
  ⟨by rw [measured_pru], by rw [measured_pru], by rw [measured_pru], by rw [measured_pru], by rw [measured_state, hst],
    kept_measured p⟩

theorem measured_not_seeking (h : s.pru.lock ≠ .seeking) (p : Int) : (measured p pk k s).pru.lock ≠ .seeking :=
  lockMeasured_not_seeking (s := edgeOnLine p k s) h

/-- R58: the lock as the detector left it, whatever the steps after it do beside it. -/
theorem lockStepped_of_measured {p : Int} (hlock : (t.pru.lock, t.pru.count) =
    ((measured p pk k s).pru.lock, (measured p pk k s).pru.count)) (h : AlertsGrow (measured p pk k s) t) :
    LockStepped (p - pk) s t :=
  (lockStepped_lockMeasured (s := edgeOnLine p k s)).extend rfl (edgeOnLine_cfg p) hlock h

theorem measured_locked_iff (h : s.pru.lock ≠ .seeking) (p : Int) :
    (measured p pk k s).pru.lock = .locked ↔ LocksAt (p - pk) s :=
  lockMeasured_locked_iff (s := edgeOnLine p k s) h

/-! ### The steps of R57 up to the report -/

/-- An edge in the window steps the lock, then the adaptation, then commits. -/
theorem exec_measured (h : Expected s pk k) (hre : s.pru.reanchor = false)
    (hw : ((p.toInt - pk).natAbs : Int) ≤ s.pru.halfWidth) : exec (.frameLine p) s = .next
      (let c := commitAtLine ⟨p.toInt, k⟩ (adaptStep k (some (p.toInt, p.toInt - pk)) (measured p.toInt pk k s))
      afterReport k (reportLine ⟨p.toInt, k⟩ (some (p.toInt - pk)) c.1 none c.2)) := by
  rw [execFrameLine_inWindow h (by rw [Pru.windowHalf, hre]; exact hw),
    completeLine_measured (s := edgeRecorded p.toInt s) hre]
  rfl

/-- R54: with re-anchor pending, an edge within half a pitch re-anchors in place of the lock test. -/
theorem exec_reanchoring (h : Expected s pk k) (hre : s.pru.reanchor = true) (hc : s.pru.commitPending = false)
    (hw : (p.toInt - pk).natAbs ≤ s.pru.live.pInt / 2) : exec (.frameLine p) s = .next
      (afterReport k (reportLine ⟨p.toInt, k⟩ (some (p.toInt - pk)) true none
        (reanchorAt ⟨p.toInt, k⟩ (edgeOnLine p.toInt k s)))) := by
  have hpru := reanchorAt_pru_scanning (s := edgeOnLine p.toInt k s) (by rw [edgeOnLine_state, h.1]) ⟨p.toInt, k⟩
  obtain ⟨hrestart, hframe⟩ := windowFrom_later s.pru.liveReg.adapt s.pru.liveReg.w k
  rw [execFrameLine_inWindow h (by rw [Pru.windowHalf, hre, if_pos rfl]; exact_mod_cast hw),
    completeLine_reanchoring (s := edgeRecorded p.toInt s) hre]
  change Host.Outcome.next (afterReport k (reportLine _ _ true none
    (commitAtLine _ (adaptStep k _ (reanchorAt ⟨p.toInt, k⟩ (edgeOnLine p.toInt k s)))).2)) = _
  rw [adaptStep_idle (by rw [hpru]; exact hrestart) (by rw [hpru]; exact hframe), commitAtLine_none (by rw [hpru]; exact hc)]

/-! ### The four kinds of measured line -/

/-- R50, R58: a line with nothing to do at it but its own. -/
theorem exec_plainLine (h : PlainLine s pk k) (hw : ((p.toInt - pk).natAbs : Int) ≤ s.pru.halfWidth) :
    exec (.frameLine p) s = .next (afterReport k (reportLine ⟨p.toInt, k⟩ (some (p.toInt - pk)) false none
      (measured p.toInt pk k s))) := by
  obtain ⟨hexp, hre, hc, hrestart, hframe⟩ := h
  have hidle : adaptStep k (some (p.toInt, p.toInt - pk)) (measured p.toInt pk k s) = measured p.toInt pk k s :=
    adaptStep_idle (by rw [measured_pru]; exact hrestart) (by rw [measured_pru]; exact hframe) _
  rw [exec_measured hexp hre hw, hidle, commitAtLine_none (by rw [measured_pru]; exact hc)]

/-- R62, R63: what the adaptation does at a window's end or with the restart pending. -/
def windowEnd (p pk : Int) (k : Nat) (s : State) : State :=
  if s.pru.window = .frame k ∧ (measured p pk k s).pru.lock = .locked then
    correction (p - pk) p k (measured p pk k s)
  else windowAnchor ⟨p, k⟩ (measured p pk k s)

theorem windowEnd_corrected {p : Int} (hseek : s.pru.lock ≠ .seeking) (hw : s.pru.window = .frame k)
    (hlock : LocksAt (p - pk) s) : windowEnd p pk k s = correction (p - pk) p k (measured p pk k s) :=
  if_pos ⟨hw, (measured_locked_iff hseek p).mpr hlock⟩

theorem windowEnd_anchored {p : Int} (hseek : s.pru.lock ≠ .seeking)
    (h : s.pru.window = .restart ∨ ¬LocksAt (p - pk) s) : windowEnd p pk k s = windowAnchor ⟨p, k⟩ (measured p pk k s) := by
  refine if_neg fun ⟨hw, hlock⟩ => ?_
  rcases h with h | h
  · rw [hw] at h
    exact absurd h nofun
  · exact h ((measured_locked_iff hseek p).mp hlock)

theorem adaptStep_measured (h : s.pru.window = .frame k ∨ s.pru.window = .restart) (p : Int) :
    adaptStep k (some (p, p - pk)) (measured p pk k s) = windowEnd p pk k s := by
  have hwindow : (measured p pk k s).pru.window = s.pru.window := by rw [measured_pru]
  unfold adaptStep windowEnd
  rw [hwindow]
  rcases h with h | h
  · simp only [h, if_true, true_and]
  · simp only [h, reduceCtorEq, false_and, if_false]

/-- R53, R62, R63: in each case the anchor and the next window start at the edge; beside them only the pitch can change. -/
theorem windowEnd_pru (hst : s.trc.state = .scanning) (p : Int) : (windowEnd p pk k s).pru = { (measured p pk k s).pru with
    live := (windowEnd p pk k s).pru.live, adapted := (windowEnd p pk k s).pru.adapted
    anchor := some ⟨p, k⟩, a1 := 0, a2 := 0, expect := some ⟨p, k⟩, window := .frame (k + 2 ^ s.pru.liveReg.w) } := by
  have hw : (measured p pk k s).pru.liveReg = s.pru.liveReg := by rw [measured_pru]
  have hscan : (measured p pk k s).trc.state = .scanning := by rw [measured_state, hst]
  unfold windowEnd
  split
  · rw [correction_pru hscan, hw]
  · rw [windowAnchor_pru hscan, hw]

/-- R62, R63: LOCKED at the window frame the pitch is corrected; else it is not. -/
theorem windowEnd_pitch (hst : s.trc.state = .scanning) (hseek : s.pru.lock ≠ .seeking) (p : Int) :
    (s.pru.window = .frame k → LocksAt (p - pk) s →
      (windowEnd p pk k s).pru.live = correctedLive (p - pk) s.pru ∧
      (windowEnd p pk k s).pru.adapted = (s.pru.adapted || correctedLive (p - pk) s.pru != s.pru.live)) ∧
    (s.pru.window = .restart ∨ ¬LocksAt (p - pk) s →
      (windowEnd p pk k s).pru.live = s.pru.live ∧ (windowEnd p pk k s).pru.adapted = s.pru.adapted) := by
  have hscan : (measured p pk k s).trc.state = .scanning := by rw [measured_state, hst]
  refine ⟨fun hw hlock => ?_, fun hor => ?_⟩
  · rw [windowEnd_corrected hseek hw hlock, correction_pru hscan, measured_pru]
    exact ⟨rfl, rfl⟩
  · rw [windowEnd_anchored hseek hor, windowAnchor_pru hscan, measured_pru]
    exact ⟨rfl, rfl⟩

theorem kept_windowEnd (p : Int) : Kept lineBlocks (measured p pk k s) (windowEnd p pk k s) := by
  unfold windowEnd
  split <;> simp

theorem windowEnd_fcu (p : Int) : (windowEnd p pk k s).fcu = s.fcu := by
  unfold windowEnd
  split <;> simp

theorem windowEnd_state (p : Int) : (windowEnd p pk k s).trc.state = s.trc.state := by
  unfold windowEnd
  split <;> simp [correction_eq, corrected]

theorem alertsGrow_windowEnd (p : Int) : AlertsGrow (measured p pk k s) (windowEnd p pk k s) := by
  unfold windowEnd
  split
  · exact .of_latches (latches_correction _ _ _ _)
  · exact .refl _

theorem measuredLine_windowEnd (hst : s.trc.state = .scanning) (p : Int) : MeasuredLine s (windowEnd p pk k s) p k := by
  have h := measuredLine_measured (pk := pk) (k := k) hst p
  refine ⟨?_, ?_, ?_, ?_, by rw [windowEnd_state, hst], h.kept.trans (kept_windowEnd p)⟩ <;> rw [windowEnd_pru hst]
  · exact h.lastEdge
  · exact h.lastLine
  · exact h.missing
  · exact h.strays

theorem exec_windowEnd (h : Expected s pk k) (hre : s.pru.reanchor = false) (hc : s.pru.commitPending = false)
    (hwin : s.pru.window = .frame k ∨ s.pru.window = .restart) (hw : ((p.toInt - pk).natAbs : Int) ≤ s.pru.halfWidth) :
    exec (.frameLine p) s = .next (afterReport k (reportLine ⟨p.toInt, k⟩ (some (p.toInt - pk)) false none
      (windowEnd p.toInt pk k s))) := by
  have hpending : (windowEnd p.toInt pk k s).pru.commitPending = false := by rw [windowEnd_pru h.1, measured_pru]; exact hc
  rw [exec_measured h hre hw, adaptStep_measured hwin, commitAtLine_none hpending]

/-- R66, R67: a pending commit applies after the lock detector. -/
theorem exec_committing (h : Expected s pk k) (hre : s.pru.reanchor = false) (hc : s.pru.commitPending = true)
    (hrestart : s.pru.window ≠ .restart) (hframe : s.pru.window ≠ .frame k)
    (hw : ((p.toInt - pk).natAbs : Int) ≤ s.pru.halfWidth) :
    exec (.frameLine p) s = .next (afterReport k (reportLine ⟨p.toInt, k⟩ (some (p.toInt - pk))
      ((applyCommit (some ⟨p.toInt, k⟩) (measured p.toInt pk k s)).pru.live != s.pru.live) none
      (applyCommit (some ⟨p.toInt, k⟩) (measured p.toInt pk k s)))) := by
  have hidle : adaptStep k (some (p.toInt, p.toInt - pk)) (measured p.toInt pk k s) = measured p.toInt pk k s :=
    adaptStep_idle (by rw [measured_pru]; exact hrestart) (by rw [measured_pru]; exact hframe) _
  have hlive : (measured p.toInt pk k s).pru.live = s.pru.live := by rw [measured_pru]
  rw [exec_measured h hre hw, hidle, commitAtLine_pending (by rw [measured_pru]; exact hc), hlive]

/-! ### Re-anchoring and commit at the line (R54, R66, R67) -/

theorem measuredLine_reanchored (hst : s.trc.state = .scanning) (p : Int) :
    MeasuredLine s (reanchorAt ⟨p, k⟩ (edgeOnLine p k s)) p k := by
  have hpru := reanchorAt_pru_scanning (s := edgeOnLine p k s) (by rw [edgeOnLine_state, hst]) ⟨p, k⟩
  refine ⟨?_, ?_, ?_, ?_, by simp [hst], (kept_edgeOnLine (k := k) p).trans (by simp)⟩ <;> rw [hpru] <;> rfl

/-- R67: PRU after the commit of a film that is scanned, whose pitch changed. -/
theorem applyCommit_changed_pru_scanning (hst : s.trc.state = .scanning)
    (h : clampPitch s.pru.gauge s.pru.staged ≠ s.pru.live) (m : Mark) :
    (applyCommit (some m) s).pru = { (committed s).pru with
      anchor := some m, a1 := 0, a2 := 0, expect := some m, lock := .unlocked, count := 0, missing := 0, reanchor := false
      seekFrom := none, window := windowFrom s.pru.stagedReg.adapt s.pru.stagedReg.w m.frame } := by
  rw [applyCommit_changed h, refreshCapstan_pru, reanchorAt_pru_scanning (by rw [committed_trc, hst]), committed_pru]

theorem applyCommit_state (place : Option Mark) : (applyCommit place s).trc.state = s.trc.state :=
  congrArg Prod.fst (applyCommit_standing place)

theorem MeasuredLine.applyCommit {b : State} {p : Int} (h : MeasuredLine s b p k) (m : Mark) :
    MeasuredLine s (applyCommit (some m) b) p k := by
  have hpru : (Machine.applyCommit (some m) b).pru.lastEdge = b.pru.lastEdge ∧
      (Machine.applyCommit (some m) b).pru.lastLine = b.pru.lastLine ∧
      (Machine.applyCommit (some m) b).pru.missing = 0 ∧ (Machine.applyCommit (some m) b).pru.strays = b.pru.strays := by
    by_cases hsame : clampPitch b.pru.gauge b.pru.staged = b.pru.live
    · rw [applyCommit_unchanged hsame, committed_pru]
      exact ⟨rfl, rfl, h.missing, rfl⟩
    · rw [applyCommit_changed_pru_scanning h.scanning hsame, committed_pru]
      exact ⟨rfl, rfl, rfl, rfl⟩
  obtain ⟨hedge, hline, hmissing, hstrays⟩ := hpru
  exact ⟨hedge.trans h.lastEdge, hline.trans h.lastLine, hmissing, hstrays.trans h.strays,
    (applyCommit_state _).trans h.scanning, h.kept.trans (by simp)⟩

/-! ### The parts of the obligation -/

theorem latchedWhereRouted_of_latches {ev : Event} {l : List Event} {a : State} (hcfg : a.cfg = s.cfg) (h : Latches l a v)
    (hev : ev ∈ l) (hgrow : AlertsGrow v t) : LatchedWhereRouted ev s t := fun q hq => by
  have hl : l.contains ev = true := by simpa using hev
  refine (hgrow q).2 ev ?_
  rw [(h q).2 ev, hl, route_of_cfg hcfg, hq]
  simp

/-- R57, steps 5 and 6, for a line whose steps before left FCU and the scan as they were. -/
theorem MeasuredLine.completes (h : MeasuredLine s v p.toInt k) (hu : Undisturbed s k) (hf : v.fcu = s.fcu)
    (hl : v.pru.lock ≠ .seeking)
    (hexec : exec (.frameLine p) s = .next (afterReport k (reportLine ⟨p.toInt, k⟩ error reanch none v))) :
    ∃ t, Reported k error reanch v t ∧ exec (.frameLine p) s = .next t ∧
      t.pru.lastEdge = some p.toInt ∧ t.pru.lastLine = some ⟨k, p.toInt, true⟩ ∧ t.pru.missing = 0 ∧
      t.pru.strays = s.pru.strays ∧ t.trc.state = .scanning ∧ Kept lineBlocks s t := by
  have hr : Reported k error reanch v _ :=
    reported_of_undisturbed (m := ⟨p.toInt, k⟩) (from_ := none) h.scanning (by simpa only [Undisturbed, hf] using hu) hl
  obtain ⟨hedge, hline, hmissing, hstrays, hst, hkept⟩ := h.reported hr
  exact ⟨_, hr, hexec, hedge, hline, hmissing, hstrays, hst, hkept⟩

/-- R67: what a commit at the line does whether or not it re-anchors. -/
theorem measured_commit (p : Int) (m : Mark) : let v := applyCommit (some m) (measured p pk k s)
    v.pru.live = clampPitch s.pru.gauge s.pru.staged ∧ v.pru.liveReg = s.pru.stagedReg ∧ v.pru.commitPending = false ∧
      v.pru.adapted = s.pru.adapted ∧ v.fcu = s.fcu := by
  obtain ⟨hc, hlive, hreg⟩ := applyCommit_live (s := measured p pk k s) (some m)
  obtain ⟨-, -, hadapted, -⟩ := applyCommit_base (s := measured p pk k s) (some m)
  rw [measured_pru] at hlive hreg hadapted
  exact ⟨hlive, hreg, hc, hadapted, by simp⟩

/-- R63, R67: an unchanged pitch keeps anchor and lock. -/
theorem measured_commit_unchanged (p : Int) (h : clampPitch s.pru.gauge s.pru.staged = s.pru.live) (m : Mark) :
    (applyCommit (some m) (measured p pk k s)).pru = { (measured p pk k s).pru with
      liveReg := s.pru.stagedReg, commitPending := false
      window := windowOnCommit s.pru.liveReg s.pru.stagedReg s.pru.window } := by
  have hsame : clampPitch (measured p pk k s).pru.gauge (measured p pk k s).pru.staged = (measured p pk k s).pru.live := by
    rw [measured_pru]
    exact h
  rw [applyCommit_unchanged hsame, committed_pru, hsame, measured_pru]

/-- R67: a changed pitch re-anchors at the line. -/
theorem measured_commit_changed (hst : s.trc.state = .scanning) (p : Int)
    (h : clampPitch s.pru.gauge s.pru.staged ≠ s.pru.live) (m : Mark) : let v := applyCommit (some m) (measured p pk k s)
    Reanchored v.pru ∧ v.pru.anchor = some m ∧ v.pru.a1 = 0 ∧ v.pru.a2 = 0 ∧ v.pru.expect = some m ∧
      v.pru.window = windowFrom s.pru.stagedReg.adapt s.pru.stagedReg.w m.frame ∧
      v.trc.capstan = v.capstanTarget := by
  have hchanged : clampPitch (measured p pk k s).pru.gauge (measured p pk k s).pru.staged ≠ (measured p pk k s).pru.live := by
    rw [measured_pru]
    exact h
  have hpru := applyCommit_changed_pru_scanning (by rw [measured_state, hst]) hchanged m
  dsimp only
  refine ⟨?_, ?_, ?_, ?_, ?_, ?_, by rw [applyCommit_changed hchanged]; simp⟩ <;> rw [hpru]
  · exact ⟨rfl, rfl, rfl, rfl, rfl⟩
  · rw [measured_pru]

theorem measured_commit_not_seeking (hst : s.trc.state = .scanning) (hseek : s.pru.lock ≠ .seeking) (p : Int) (m : Mark) :
    (applyCommit (some m) (measured p pk k s)).pru.lock ≠ .seeking := by
  by_cases h : clampPitch s.pru.gauge s.pru.staged = s.pru.live
  · rw [measured_commit_unchanged p h]
    exact measured_not_seeking hseek p
  · obtain ⟨⟨hlock, -⟩, -⟩ := measured_commit_changed (pk := pk) (k := k) hst p h m
    rw [hlock]
    nofun

theorem alertsGrow_applyCommit (m : Mark) : AlertsGrow s (applyCommit (some m) s) := .of_latches (latches_applyCommit m s)

/-- R61: a LOCKED lock is lost at the edge or at the re-anchoring. -/
theorem measured_commit_lockLost {p : Int} (h : clampPitch s.pru.gauge s.pru.staged ≠ s.pru.live) {m : Mark}
    (hlock : s.pru.lock = .locked) (hgrow : AlertsGrow (applyCommit (some m) (measured p pk k s)) t) :
    LatchedWhereRouted .lockLost s t := by
  by_cases hgood : LocksAt (p - pk) s
  · have hstill := (measured_locked_iff (k := k) (by rw [hlock]; nofun) p).mpr hgood
    refine latchedWhereRouted_of_latches (measured_cfg _) (latches_applyCommit m _) ?_ hgrow
    rw [hstill, measured_pru]
    simp [h]
  · have hbad : ¬(p - pk).natAbs ≤ s.pru.liveReg.lw := fun hw => hgood ⟨hw, .inl hlock⟩
    obtain ⟨-, -, hlost⟩ := (lockMeasured_lock_of_locked (s := edgeOnLine p k s) hlock).2 hbad
    intro q hq
    exact ((alertsGrow_applyCommit m).trans hgrow q).2 _ (hlost q (by rwa [route_of_cfg (edgeOnLine_cfg p)]))

/-- R50, R58: the plain line, measured. -/
theorem Reported.plainLine {e : Int} (h : PlainLine s pk k) (p : Int) (he : p - pk = e)
    (hr : Reported k error reanch (measured p pk k s) t) : LockStepped e s t ∧ SteppedOn pk k s t ∧
      t.pru.live = s.pru.live ∧ t.pru.window = s.pru.window ∧ t.pru.adapted = s.pru.adapted := by
  obtain ⟨-, hx, -⟩ := h.1
  refine ⟨he ▸ lockStepped_of_measured (by rw [hr.frame]) hr.alerts,
    hr.steppedOn (by rw [measured_pru, hx]) (by rw [measured_pru]), ?_, ?_, ?_⟩
  all_goals rw [hr.frame, measured_pru]

/-- Settles O21: per kind of line its steps up to the report (`exec_plainLine`, `exec_windowEnd`, `exec_reanchoring`,
`exec_committing`), then `Reported`. -/
theorem expectedLineStepsTheLock : Obligations.ExpectedLineStepsTheLock := by
  intro s p pk k hu e u line captured
  refine ⟨fun hplain hw => ?_, fun hexp hre hc hwin hw => ?_, fun hexp hre hc hw => ?_,
    fun hexp hre hc hrestart hframe hw => ?_⟩
  · obtain ⟨hst, -, hseek⟩ := hplain.1
    obtain ⟨t, hr, hline⟩ := (measuredLine_measured hst _).completes hu (measured_fcu _) (measured_not_seeking hseek _)
      (exec_plainLine hplain hw)
    obtain ⟨hlock, hstep, hlive, hwindow, hadapted⟩ := hr.plainLine hplain _ rfl
    exact ⟨t, hline, hlock, hstep, hlive, hwindow, hadapted, hr.capturedIn (measured_fcu _)⟩
  · intro pu moved corrected
    obtain ⟨hst, -, hseek⟩ := id hexp
    have hpru := windowEnd_pru (pk := pk) (k := k) hst p.toInt
    obtain ⟨t, hr, hline⟩ := (measuredLine_windowEnd hst _).completes hu (windowEnd_fcu _)
      (by rw [hpru]; exact measured_not_seeking hseek _) (exec_windowEnd hexp hre hc hwin hw)
    obtain ⟨hcorrected, hkept⟩ := windowEnd_pitch (pk := pk) (k := k) hst hseek p.toInt
    refine ⟨t, hline, lockStepped_of_measured (by rw [hr.frame, hpru]) ((alertsGrow_windowEnd _).trans hr.alerts), ?_, ?_,
      hr.capturedIn (windowEnd_fcu _), fun hwk hlock => ?_, fun hor => ?_⟩
    · have hfrom := hr.fromAnchor (by rw [hpru]) (by rw [hpru]) (by rw [hpru]) (by rw [hpru])
      rwa [← hr.live] at hfrom
    · rw [hr.frame, hpru]
    · obtain ⟨hlive, hflag⟩ := hcorrected hwk hlock
      have hend := windowEnd_corrected hseek hwk hlock
      refine ⟨hr.live.trans hlive, by rw [hr.frame]; exact hflag, hr.capstan (by rw [hend]; simp [correction_eq]),
        fun hlimit => ?_⟩
      refine latchedWhereRouted_of_latches (measured_cfg _) (hend ▸ latches_correction _ _ _ _) ?_ hr.alerts
      rw [measured_pru]
      exact (if_neg hlimit).symm ▸ List.mem_singleton.mpr rfl
    · rw [hr.frame]
      exact hkept hor
  · have hst := hexp.1
    have hpru := reanchorAt_pru_scanning (s := edgeOnLine p.toInt k s) (by rw [edgeOnLine_state, hst]) ⟨p.toInt, k⟩
    have hlost := latches_reanchorAt ⟨p.toInt, k⟩ (edgeOnLine p.toInt k s)
    obtain ⟨t, hr, hline⟩ := (measuredLine_reanchored hst _).completes hu (by simp) (by rw [hpru]; nofun)
      (exec_reanchoring hexp hre hc hw)
    have hfrom := hr.fromAnchor (by rw [hpru]) (by rw [hpru]) (by rw [hpru]) (by rw [hpru])
    refine ⟨t, hline, ?_, ?_, ?_, ?_, ?_, fun hlock => ?_, hr.capturedIn (by simp)⟩
    · rw [hr.frame, hpru]
      exact ⟨rfl, rfl, rfl, rfl, rfl⟩
    · rw [hpru] at hfrom
      exact hfrom
    · rw [hr.live, hpru, edgeOnLine_pru]
    · rw [hr.frame, hpru, edgeOnLine_pru]
    · rw [hr.frame, hpru, edgeOnLine_pru]
    · exact latchedWhereRouted_of_latches (edgeOnLine_cfg _) hlost (by rw [edgeOnLine_pru, if_pos hlock]; simp) hr.alerts
  · intro q new
    obtain ⟨hst, hx, hseek⟩ := id hexp
    obtain ⟨hlive, hreg, hc', hadapted, hfcu⟩ := measured_commit (pk := pk) (k := k) (s := s) p.toInt ⟨p.toInt, k⟩
    obtain ⟨t, hr, hline⟩ := ((measuredLine_measured hst _).applyCommit ⟨p.toInt, k⟩).completes hu hfcu
      (measured_commit_not_seeking hst hseek _ _) (exec_committing hexp hre hc hrestart hframe hw)
    rw [hlive] at hr
    refine ⟨t, hline, hr.live.trans hlive, by rw [hr.frame]; exact hreg, by rw [hr.frame]; exact hc',
      by rw [hr.frame]; exact hadapted, fun hlimit => ?_, fun hsame => ?_, fun hchanged => ?_⟩
    · refine latchedWhereRouted_of_latches (measured_cfg _) (latches_applyCommit _ _) ?_ hr.alerts
      rw [measured_pru, if_neg hlimit]
      exact List.mem_append_left _ (List.mem_singleton.mpr rfl)
    · rw [show (clampPitch _ _ != _) = false from bne_eq_false_iff_eq.mpr hsame] at hr
      obtain ⟨hoff, hstart, hkeep⟩ := windowOnCommit_spec u.liveReg new u.window
      have hpru := measured_commit_unchanged (pk := pk) (k := k) p.toInt hsame ⟨p.toInt, k⟩
      have hwindow : t.pru.window = windowOnCommit u.liveReg new u.window := by rw [hr.frame, hpru]
      refine ⟨lockStepped_of_measured (by rw [hr.frame, hpru]) ((alertsGrow_applyCommit _).trans hr.alerts),
        hr.steppedOn (by rw [hpru, measured_pru, hx]) (by rw [hpru, measured_pru]), hr.capturedIn hfcu, ?_, ?_, ?_⟩
      · exact fun hnew hold => hwindow.trans (hoff hnew hold)
      · exact fun hnew hold => hwindow.trans (hstart hnew hold)
      · exact fun hnew hold hsteps => hwindow.trans (hkeep (iff_of_false hnew hold) hsteps.symm)
    · rw [show (clampPitch _ _ != _) = true from bne_iff_ne.mpr hchanged] at hr
      obtain ⟨hre', hanchor, ha1, ha2, hexpect, hwindow, hcapstan⟩ :=
        measured_commit_changed (pk := pk) (k := k) hst p.toInt hchanged ⟨p.toInt, k⟩
      have hfrom := hr.fromAnchor hexpect hanchor ha1 ha2
      rw [hlive] at hfrom
      refine ⟨?_, hfrom, ?_, hr.capstan hcapstan, fun hlock => measured_commit_lockLost hchanged hlock hr.alerts,
        hr.capturedIn hfcu⟩
      · rw [hr.frame]
        exact hre'
      · rw [hr.frame]
        exact hwindow

end Sys2Proof.Machine
end

section
/-! SUPPORT. The missing line and the end of SEEKING (R56, R59, R60, R75). -/

namespace Sys2Proof.Machine

variable {s t v : State} {p : BitVec 32} {pk : Int} {k : Nat} {m : Mark} {error : Option Int} {reanch : Bool}
  {from_ : Option Nat}

/-! ### The lock at a missing line (R59) -/

theorem lockMissing_seeking_iff (h : s.pru.lock ≠ .seeking) :
    (lockMissing k s).pru.lock = .seeking ↔ s.pru.lock = .unlocked ∧ 2 ≤ s.pru.missing := by
  have hcount : 3 ≤ s.pru.missing + 1 ↔ 2 ≤ s.pru.missing := by omega
  cases hl : s.pru.lock with
  | seeking => exact absurd hl h
  | locked => by_cases hm : 2 ≤ s.pru.missing + 1 <;> simp [lockMissing, hl, hm]
  | unlocked => by_cases hm : 2 ≤ s.pru.missing <;> simp [lockMissing, hl, hm, hcount]

/-! ### PRU's steps at a missing line (R57, steps 1 to 4) -/

/-- The state in which a report tests the lines below it: the position recorded, the zones tested. -/
def zoned (p : Int) (s : State) : State := testZones (positioned p s)

theorem kept_zoned (p : Int) : Kept [.trc, .out] s (zoned p s) := Kept.after_positioned (p := p) (by simp) (by simp [zoned])

@[simp] theorem zoned_pru (p : Int) : (zoned p s).pru = s.pru := kept_zoned p .pru (by simp)
@[simp] theorem zoned_fcu (p : Int) : (zoned p s).fcu = s.fcu := kept_zoned p .fcu (by simp)
@[simp] theorem zoned_reg (p : Int) : (zoned p s).reg = s.reg := kept_zoned p .reg (by simp)
@[simp] theorem zoned_cfg (p : Int) : (zoned p s).cfg = s.cfg := kept_zoned p .cfg (by simp)
@[simp] theorem zoned_state (p : Int) : (zoned p s).trc.state = s.trc.state := by simp [zoned]
@[simp] theorem zoned_handle (p : Int) : (zoned p s).trc.handle = s.trc.handle := by simp [zoned, positioned_trc]
@[simp] theorem zoned_spliceQueue (p : Int) : (zoned p s).trc.spliceQueue = s.trc.spliceQueue := by
  simp [zoned, positioned_trc]

/-- The missing line as the lock detector takes it up, and the line as the adaptation leaves it. -/
def overdue (p pk : Int) (k : Nat) (s : State) : State := lineRecorded ⟨k, pk, false⟩ (zoned p s)

def missed (p pk : Int) (k : Nat) (s : State) : State :=
  adaptStep k none (lockMissing k (overdue p pk k s))

theorem overdue_pru (p : Int) : (overdue p pk k s).pru = { s.pru with lastLine := some ⟨k, pk, false⟩ } := by
  simp [overdue, lineRecorded]

theorem missed_eq (p : Int) : missed p pk k s = (lockMissing k (overdue p pk k s)).setPru
    { (lockMissing k (overdue p pk k s)).pru with
      window := if s.pru.window = .frame k then .restart else s.pru.window } := by
  rw [missed, adaptStep_missing, lockMissing_frame, overdue_pru]

theorem missed_pru (p : Int) : (missed p pk k s).pru = { s.pru with
    lastLine := some ⟨k, pk, false⟩, lock := (missed p pk k s).pru.lock, count := 0
    missing := (missed p pk k s).pru.missing, seekFrom := (missed p pk k s).pru.seekFrom
    window := if s.pru.window = .frame k then .restart else s.pru.window } := by
  rw [missed_eq, State.setPru_pru, lockMissing_frame, overdue_pru]

@[simp] theorem missed_trc (p : Int) : (missed p pk k s).trc = (zoned p s).trc := by
  simp [missed_eq, overdue, lineRecorded]
@[simp] theorem missed_fcu (p : Int) : (missed p pk k s).fcu = s.fcu := by simp [missed_eq, overdue, lineRecorded]
@[simp] theorem missed_reg (p : Int) : (missed p pk k s).reg = s.reg := by simp [missed_eq, overdue, lineRecorded]

theorem kept_missed (p : Int) : Kept lineBlocks s (missed p pk k s) :=
  ((kept_zoned p).mono (by simp)).trans (by simp [missed_eq, overdue, lineRecorded])

/-- R59: the runs of missing lines. -/
theorem missed_lock (p : Int) : let v := missed p pk k s
    (s.pru.lock = .locked → s.pru.missing = 0 → v.pru.lock = .locked ∧ v.pru.missing = 1) ∧
    (s.pru.lock = .locked → s.pru.missing = 1 →
      v.pru.lock = .unlocked ∧ v.pru.missing = 2 ∧ LatchedWhereRouted .lockLost s v) ∧
    (s.pru.lock = .unlocked → s.pru.missing ≤ 1 → v.pru.lock = .unlocked ∧ v.pru.missing = s.pru.missing + 1) ∧
    (s.pru.lock = .unlocked → s.pru.missing = 2 → v.pru.lock = .seeking ∧ v.pru.missing = 3 ∧
      v.pru.seekFrom = some k ∧ LatchedWhereRouted .seeking s v) := by
  obtain ⟨a, ha⟩ : ∃ a, a = overdue p pk k s := ⟨_, rfl⟩
  have hpru : a.pru = { s.pru with lastLine := some ⟨k, pk, false⟩ } := ha ▸ overdue_pru p
  have hcfg : a.cfg = s.cfg := by simp [ha, overdue, lineRecorded]
  have hlock : a.pru.lock = s.pru.lock := by rw [hpru]
  have hmissing : a.pru.missing = s.pru.missing := by rw [hpru]
  rw [missed_eq, ← ha, ← hlock, ← hmissing]
  refine ⟨fun hl hm => ?_, fun hl hm => ?_, fun hl hm => ?_, fun hl hm => ?_⟩
  · rw [lockMissing_first hl hm]
    exact ⟨hl, rfl⟩
  · rw [lockMissing_second hl hm, unlock_pru]
    exact ⟨rfl, rfl, latchedWhereRouted_of_latches hcfg (latches_unlock (a.setPru { a.pru with count := 0, missing := 2 }))
      (by rw [State.setPru_pru, if_pos hl]; exact List.mem_singleton.mpr rfl) (.of_eq rfl)⟩
  · rw [lockMissing_unlocked hl hm]
    exact ⟨hl, rfl⟩
  · rw [lockMissing_third hl hm]
    exact ⟨by simp, by simp, by simp, fun q hq => latched_raise (route_of_cfg hcfg) q hq⟩

theorem missed_seeking_iff (h : s.pru.lock ≠ .seeking) (p : Int) :
    (missed p pk k s).pru.lock = .seeking ↔ s.pru.lock = .unlocked ∧ 2 ≤ s.pru.missing := by
  rw [missed_eq, State.setPru_pru, lockMissing_seeking_iff (by rw [overdue_pru]; exact h), overdue_pru]

/-! ### The report of a missing line -/

/-- A report above the window declares the line missing, and no further line where it lies in the next window. -/
theorem exec_missing (h : Expected s pk k) (hc : s.pru.commitPending = false)
    (habove : pk + s.pru.windowHalf < p.toInt)
    (ht : t = afterReport k (reportLine ⟨pk, k⟩ none false none (missed p.toInt pk k s)))
    (hinside : ∀ m, t.pru.expect = some m → p.toInt ≤ m.pos + t.pru.windowHalf) (hqueue : t.trc.spliceQueue = []) :
    exec (.position p) s = .next t := by
  obtain ⟨hst, hx, -⟩ := h
  have hline : completeLine k pk none (zoned p.toInt s) = t := by
    have hcommit : commitAtLine ⟨pk, k⟩ (missed p.toInt pk k s) = (false, missed p.toInt pk k s) :=
      commitAtLine_none (by rw [missed_pru]; exact hc) _
    rw [missed, overdue] at hcommit
    rw [completeLine_missing, hcommit, ht, missed, overdue]
  have hdeclared : declareMissing missingFuel p.toInt (zoned p.toInt s) = t := by
    rw [missingFuel, declareMissing, zoned_pru, hx]
    simp only [zoned_state, hst, true_and]
    rw [if_pos habove, hline, declareMissing_inside hinside]
  rw [exec_position_scanning p hst]
  change Host.Outcome.next (takePassages (declareMissing missingFuel p.toInt (zoned p.toInt s))) = _
  rw [hdeclared, takePassages_none (by rw [hqueue]; rfl)]

/-- R57, R59, R75: the report in SEEKING captures nothing, and the expectation is dropped. -/
theorem reported_seeking (hs : v.trc.state = .scanning) (hu : Undisturbed v m.frame) (hl : v.pru.lock = .seeking) :
    let t := afterReport m.frame (reportLine m error reanch from_ v)
    t.trc = v.trc ∧ t.pru = { v.pru with expect := none } ∧ AlertsGrow v t ∧ (m.frame < v.fcu.nextFrame → t.fcu = v.fcu) ∧
      (v.fcu.nextFrame ≤ m.frame → t.fcu = { v.fcu with nextFrame := m.frame + 1 } ∧
        ∀ h r, v.trc.handle = some h → v.reel h = some r →
          t.reel h = some { r with rescan := addRange r.rescan ⟨m.frame, m.frame⟩ }) := by
  obtain ⟨htrc, hfcu, -, hreg, halt, hpru⟩ := reported (error := error) (reanch := reanch) (from_ := from_) hs hu
  rw [if_pos hl] at hpru
  have hline : reportLine m error reanch from_ v = if v.fcu.nextFrame ≤ m.frame then
      (rescanThreaded ⟨m.frame, m.frame⟩ v).setFcu { v.fcu with nextFrame := m.frame + 1 } else v := takeLine_seeking (x := lineReport m error reanch from_ v) hl hu.1
  refine ⟨htrc, hpru, (alertsGrow_takeLine hs hu : AlertsGrow v (reportLine m error reanch from_ v)).trans (.of_eq halt),
    fun hn => ?_, fun hn => ⟨?_, fun h r hh hr => ?_⟩⟩
  · rw [hfcu, hline, if_neg (Nat.not_le_of_lt hn)]
  · rw [hfcu, hline, if_pos hn]
    rfl
  · rw [State.reel, hreg, hline, if_pos hn]
    exact rescanThreaded_reel hh hr _

/-! ### The end of SEEKING (R60) -/

/-- R75: the frames between the last one and the edge go on the threaded reel's rescan list. -/
theorem seekingGap_reel {x : LineReport} {f₀ h : Nat} {r : Reel} (hx : x.seekFrom = some f₀) (hh : s.trc.handle = some h)
    (hr : s.reel h = some r) : let f := max s.fcu.nextFrame (f₀ + 1)
    (seekingGap x s).reel h =
      some (if f + 1 ≤ x.frame then { r with rescan := addRange r.rescan ⟨f, x.frame - 1⟩ } else r) := by
  unfold seekingGap
  rw [hx]
  dsimp only
  split
  · exact rescanThreaded_reel hh hr _
  · exact hr

theorem seekingEdge_eq {edge o : Int} {f₀ n : Nat} (ho : s.pru.origin = some o) (hf : s.pru.seekFrom = some f₀)
    (hn : seekFrame s.pru.live o edge f₀ = n) : seekingEdge edge s =
    let c := commitAtLine ⟨edge, n⟩ (reanchorAt ⟨edge, n⟩ (lineRecorded ⟨n, edge, true⟩ s))
    afterReport n (reportLine ⟨edge, n⟩ (some 0) true (some f₀) c.2) := by
  simp only [seekingEdge, ho, hf, Option.getD_some, hn, lineRecorded]

/-- R60: the first edge in SEEKING. -/
theorem exec_seeking {o : Int} {f₀ n : Nat} (hst : s.trc.state = .scanning) (hl : s.pru.lock = .seeking)
    (hx : s.pru.expect = none) (ho : s.pru.origin = some o) (hf : s.pru.seekFrom = some f₀)
    (hc : s.pru.commitPending = false) (hn : seekFrame s.pru.live o p.toInt f₀ = n) : exec (.frameLine p) s =
      .next (afterReport n (reportLine ⟨p.toInt, n⟩ (some 0) true (some f₀)
        (reanchorAt ⟨p.toInt, n⟩ (edgeOnLine p.toInt n s)))) := by
  have hpru := reanchorAt_pru_scanning (s := edgeOnLine p.toInt n s) (by rw [edgeOnLine_state, hst]) ⟨p.toInt, n⟩
  have hnone : (edgeRecorded p.toInt s).pru.expect = none := hx
  have hedge : takeEdge p.toInt (edgeRecorded p.toInt s) = seekingEdge p.toInt (edgeRecorded p.toInt s) := by
    unfold takeEdge
    rw [if_neg (by rw [edgeRecorded_trc]; exact not_not.mpr hst), if_pos (by rw [edgeRecorded_pru]; exact hl)]
  have hcommit : commitAtLine ⟨p.toInt, n⟩ (reanchorAt ⟨p.toInt, n⟩ (edgeOnLine p.toInt n s)) =
      (false, reanchorAt ⟨p.toInt, n⟩ (edgeOnLine p.toInt n s)) := commitAtLine_none (by rw [hpru]; exact hc) _
  rw [edgeOnLine] at hcommit
  rw [exec_frameLine_scanning p hst, declareMissing_inside (by rw [hnone]; nofun), hedge,
    seekingEdge_eq (s := edgeRecorded p.toInt s) ho hf hn, hcommit, edgeOnLine]

/-! ### The two parts of the obligation -/

/-- R59, R75: a missing line that does not begin SEEKING is reported and stepped over. -/
theorem exec_missing_reported (h : Expected s pk k) (hu : Undisturbed s k) (hc : s.pru.commitPending = false)
    (hq : s.trc.spliceQueue = []) (habove : pk + s.pru.windowHalf < p.toInt)
    (hnext : ∀ rise b1 b2, CarriedOn s.pru.live s.pru.a1 s.pru.a2 rise b1 b2 → p.toInt ≤ pk + rise + s.pru.windowHalf)
    (hl : (missed p.toInt pk k s).pru.lock ≠ .seeking) :
    ∃ t, exec (.position p) s = .next t ∧ Reported k none false (missed p.toInt pk k s) t := by
  have hr : Reported k none false (missed p.toInt pk k s) _ := reported_of_undisturbed (m := ⟨pk, k⟩) (from_ := none)
    (by rw [missed_trc, zoned_state, h.1]) (by simpa only [Undisturbed, missed_fcu] using hu) hl
  have hpru := hr.pru_of_expect (n := ⟨pk, k⟩) (by rw [missed_pru, h.2.1])
  refine ⟨_, exec_missing h hc habove rfl (fun m hm => ?_) ?_, hr⟩
  · rw [hpru] at hm ⊢
    cases hm
    rw [missed_pru]
    exact hnext _ _ _ (stepPitch_carries _ _ _)
  · rw [hr.trc, missed_trc, zoned_spliceQueue, hq]

/-- R59, R75: a missing line that begins SEEKING. -/
theorem exec_missing_seeking (h : Expected s pk k) (hu : Undisturbed s k) (hc : s.pru.commitPending = false)
    (hq : s.trc.spliceQueue = []) (habove : pk + s.pru.windowHalf < p.toInt)
    (hl : (missed p.toInt pk k s).pru.lock = .seeking) :
    ∃ t, exec (.position p) s = .next t ∧ t.pru = { (missed p.toInt pk k s).pru with expect := none } ∧
      AlertsGrow (missed p.toInt pk k s) t ∧ Kept lineBlocks s t ∧ (k < s.fcu.nextFrame → t.fcu = s.fcu) ∧
      (s.fcu.nextFrame ≤ k → t.fcu = { s.fcu with nextFrame := k + 1 } ∧
        ∀ h r, s.trc.handle = some h → s.reel h = some r →
          t.reel h = some { r with rescan := addRange r.rescan ⟨k, k⟩ }) := by
  obtain ⟨htrc, hpru, hgrow, hpassed, hlisted⟩ := reported_seeking (m := ⟨pk, k⟩) (error := none) (reanch := false)
    (from_ := none) (v := missed p.toInt pk k s) (by rw [missed_trc, zoned_state, h.1])
    (by simpa only [Undisturbed, missed_fcu] using hu) hl
  rw [missed_fcu] at hpassed hlisted
  rw [missed_trc, zoned_handle] at hlisted
  have hreel : ∀ h, (missed p.toInt pk k s).reel h = s.reel h := fun h => by simp [State.reel]
  simp only [hreel] at hlisted
  refine ⟨_, exec_missing h hc habove rfl (fun m hm => ?_) (by rw [htrc, missed_trc, zoned_spliceQueue, hq]), hpru, hgrow,
    (kept_missed (pk := pk) (k := k) p.toInt).trans (by simp), hpassed, hlisted⟩
  rw [hpru] at hm
  cases hm

/-- R56: the missing line, whether or not it begins SEEKING. -/
theorem exec_missing_done (h : Expected s pk k) (hu : Undisturbed s k) (hc : s.pru.commitPending = false)
    (hq : s.trc.spliceQueue = []) (habove : pk + s.pru.windowHalf < p.toInt)
    (hnext : ∀ rise b1 b2, CarriedOn s.pru.live s.pru.a1 s.pru.a2 rise b1 b2 → p.toInt ≤ pk + rise + s.pru.windowHalf) :
    ∃ t, exec (.position p) s = .next t ∧
      t.pru = { (missed p.toInt pk k s).pru with expect := t.pru.expect, a1 := t.pru.a1, a2 := t.pru.a2 } ∧
      AlertsGrow (missed p.toInt pk k s) t ∧ Kept lineBlocks s t ∧
      ((missed p.toInt pk k s).pru.lock ≠ .seeking → Reported k none false (missed p.toInt pk k s) t) ∧
      ((missed p.toInt pk k s).pru.lock = .seeking → t.pru.expect = none ∧ (k < s.fcu.nextFrame → t.fcu = s.fcu) ∧
        (s.fcu.nextFrame ≤ k → t.fcu = { s.fcu with nextFrame := k + 1 } ∧
          ∀ h r, s.trc.handle = some h → s.reel h = some r →
            t.reel h = some { r with rescan := addRange r.rescan ⟨k, k⟩ })) := by
  by_cases hl : (missed p.toInt pk k s).pru.lock = .seeking
  · obtain ⟨t, hexec, hpru, hgrow, hkept, hfcu⟩ := exec_missing_seeking h hu hc hq habove hl
    exact ⟨t, hexec, by rw [hpru], hgrow, hkept, fun hne => absurd hl hne, fun _ => ⟨by rw [hpru], hfcu⟩⟩
  · obtain ⟨t, hexec, hr⟩ := exec_missing_reported h hu hc hq habove hnext hl
    exact ⟨t, hexec, hr.frame, hr.alerts, (kept_missed _).trans hr.kept, fun _ => hr, fun he => absurd he hl⟩

/-- R75: the rescan list after the line that ends SEEKING has opened a context. -/
theorem reportLine_reel {f₀ h : Nat} {r : Reel} {c : CtxId} (hs : v.trc.state = .scanning) (hu : Undisturbed v m.frame)
    (hl : v.pru.lock ≠ .seeking) (hc : LowestFree v c) (hn : v.fcu.nextFrame ≤ m.frame) (hh : v.trc.handle = some h)
    (hr : v.reel h = some r) : let f := max v.fcu.nextFrame (f₀ + 1)
    (reportLine m error reanch (some f₀) v).reel h =
      some (if f + 1 ≤ m.frame then { r with rescan := addRange r.rescan ⟨f, m.frame - 1⟩ } else r) := by
  rw [reportLine_opens hs hu hl hc hn, openCtx_reel]
  exact seekingGap_reel rfl hh hr

/-- Settles O23: `missed` is the missing line's state before its report (`exec_missing_done`), `exec_seeking` the edge that
ends SEEKING. -/
theorem missingLineIsDeclared : Obligations.MissingLineIsDeclared := by
  refine ⟨fun s p pk k h hc hu _ hq habove hnext => ?_, fun s p o f₀ hst hl hx ho hf hc => ?_⟩
  · obtain ⟨t, hexec, hframe, hgrow, hkept, hreported, hsought⟩ := exec_missing_done h hu hc hq habove hnext
    obtain ⟨hfirst, hsecond, hrun, hthird⟩ := missed_lock (s := s) (pk := pk) (k := k) p.toInt
    have hseeking := missed_seeking_iff (pk := pk) (k := k) h.2.2 p.toInt
    have hlock : t.pru.lock = (missed p.toInt pk k s).pru.lock := by rw [hframe]
    have hmissing : t.pru.missing = (missed p.toInt pk k s).pru.missing := by rw [hframe]
    refine ⟨t, hexec, by rw [hframe, missed_pru], by rw [hframe, missed_pru], by rw [hframe, missed_pru],
      by rw [hframe, missed_pru], ?_, fun hl hm => ?_, ?_, fun hor => ?_, fun hl hm => ?_, hkept⟩
    · rwa [hlock, hmissing]
    · obtain ⟨hunlocked, htwo, hlost⟩ := hsecond hl hm
      exact ⟨hlock.trans hunlocked, hmissing.trans htwo, hlost.mono hgrow⟩
    · rwa [hlock, hmissing]
    · have hr := hreported fun he => by
        obtain ⟨hun, htwo⟩ := hseeking.mp he
        rcases hor with hlocked | hone
        · exact absurd (hlocked.symm.trans hun) nofun
        · omega
      refine ⟨hr.steppedOn (by rw [missed_pru, h.2.1]) (by rw [missed_pru]),
        fun hn => (hr.passed (by rwa [missed_fcu])).trans (missed_fcu _),
        fun hn => ⟨hr.taken (by rwa [missed_fcu]), fun c hfree => ?_⟩⟩
      exact hr.captured c (by simpa only [LowestFree, missed_fcu] using hfree) (by rwa [missed_fcu])
    · obtain ⟨hbegun, hthree, hfrom, hraised⟩ := hthird hl hm
      obtain ⟨hnone, hpassed, hlisted⟩ := hsought hbegun
      exact ⟨hlock.trans hbegun, hmissing.trans hthree, hnone, by rw [hframe]; exact hfrom, hraised.mono hgrow, hpassed,
        hlisted⟩
  · intro pu n f hu
    have hexec := exec_seeking (p := p) (n := n) hst hl hx ho hf hc rfl
    clear_value n
    have hpru := reanchorAt_pru_scanning (s := edgeOnLine p.toInt n s) (by rw [edgeOnLine_state, hst]) ⟨p.toInt, n⟩
    have hm := measuredLine_reanchored (k := n) hst p.toInt
    have hfcu : (reanchorAt ⟨p.toInt, n⟩ (edgeOnLine p.toInt n s)).fcu = s.fcu := by simp
    have hhandle : (reanchorAt ⟨p.toInt, n⟩ (edgeOnLine p.toInt n s)).trc.handle = s.trc.handle := by
      simp [edgeOnLine, lineRecorded]
    have hreel : ∀ h, (reanchorAt ⟨p.toInt, n⟩ (edgeOnLine p.toInt n s)).reel h = s.reel h := fun h => by
      simp [edgeOnLine, lineRecorded, State.reel]
    generalize reanchorAt ⟨p.toInt, n⟩ (edgeOnLine p.toInt n s) = v at hexec hpru hm hfcu hhandle hreel
    have hunlocked : v.pru.lock ≠ .seeking := by rw [hpru]; nofun
    have huv : Undisturbed v n := by simpa only [Undisturbed, hfcu] using hu
    have hr : Reported n (some 0) true v _ :=
      reported_of_undisturbed (m := ⟨p.toInt, n⟩) (from_ := some f₀) hm.scanning huv hunlocked
    have hfrom := hr.fromAnchor (by rw [hpru]) (by rw [hpru]) (by rw [hpru]) (by rw [hpru])
    have hline := hm.reported hr
    refine ⟨_, hexec, ?_, ?_, ?_, ?_, hline.lastLine, hline.lastEdge, hline.scanning, fun c hfree hn => ?_, hline.kept⟩
    · rw [hr.frame, hpru]
      exact ⟨rfl, rfl, rfl, rfl, rfl⟩
    · rw [hpru] at hfrom
      exact hfrom
    · rw [hr.live, hpru, edgeOnLine_pru]
    · rw [hr.frame, hpru, edgeOnLine_pru]
    · have hfree : LowestFree v c := by simpa only [LowestFree, hfcu] using hfree
      have hn : v.fcu.nextFrame ≤ n := by rwa [hfcu]
      obtain ⟨hcaptured, hhead⟩ := hr.captured c hfree hn
      refine ⟨hr.taken hn, hcaptured, hhead, fun h r hh hrl => ?_⟩
      rw [afterReport_reel]
      have hlist := reportLine_reel (m := ⟨p.toInt, n⟩) (error := some 0) (reanch := true) (f₀ := f₀) hm.scanning huv
        hunlocked hfree hn (hhandle.trans hh) ((hreel h).trans hrl)
      rwa [hfcu] at hlist

end Sys2Proof.Machine
end

section
/-! SUPPORT. The queue's head goes to the host, and the gate-dirt list is emptied (R83, R34, R36, R117). -/

namespace Sys2Proof.Machine

variable {s t u : State} {rq : Rq}

/-- R83: operands out of range, an empty queue, records taken out. -/
theorem readFramesBody_refused {count : Byte} (h : ¬(1 ≤ count.toNat ∧ count.toNat ≤ 4)) :
    readFramesBody count s = (s, .only .badArg) := by
  rw [readFramesBody, if_pos (by omega)]

theorem readFramesBody_empty {count : Byte} (h : 1 ≤ count.toNat ∧ count.toNat ≤ 4)
    (hq : s.fcu.queue = []) : readFramesBody count s = (s, ⟨.none, framesBytes [] 0 s.fcu⟩) := by
  rw [readFramesBody, if_neg (by omega)]
  simp [hq]

theorem readFramesBody_taken {count : Byte} (h : 1 ≤ count.toNat ∧ count.toNat ≤ 4)
    (hq : s.fcu.queue ≠ []) :
    let n := min count.toNat s.fcu.queue.length
    readFramesBody count s =
      (removeFrames n s, .ok (framesBytes (s.fcu.queue.take n) (s.fcu.queue.length - n) s.fcu)) := by
  have hdrop : s.fcu.queue.drop count.toNat = s.fcu.queue.drop (min count.toNat s.fcu.queue.length) := by
    rcases Nat.le_total count.toNat s.fcu.queue.length with hle | hle
    · rw [Nat.min_eq_left hle]
    · rw [Nat.min_eq_right hle, List.drop_eq_nil_of_le hle, List.drop_length]
  have htake : s.fcu.queue.take count.toNat = s.fcu.queue.take (min count.toNat s.fcu.queue.length) :=
    List.take_eq_take_min
  rw [readFramesBody, if_neg (by omega)]
  simp [hq, removeFrames, hdrop, htake]

@[simp] theorem removeFrames_fcu (n : Nat) : (removeFrames n s).fcu = { s.fcu with queue := s.fcu.queue.drop n } := by
  unfold removeFrames
  dsimp only
  split <;> simp

/-- R34: above 16 records BACKPRESSURE stays, and what is not there cannot go. -/
theorem removeFrames_stays {n : Nat} (h : ¬(s.fcu.queue.length - n ≤ 16 ∧ s.trc.holds.backpressure = true)) :
    removeFrames n s = s.setFcu { s.fcu with queue := s.fcu.queue.drop n } := by
  unfold removeFrames
  dsimp only
  split
  · next hlen =>
    have hbp : s.trc.holds.backpressure ≠ true := fun hbp => h ⟨by simpa using hlen, hbp⟩
    exact removeHold_absent (by simpa [HoldSet.has] using hbp)
  · rfl

/-- R34: at 16 or fewer records BACKPRESSURE goes. -/
theorem removeFrames_drops {n : Nat} (h : s.fcu.queue.length - n ≤ 16) :
    removeFrames n s = removeHold .backpressure (s.setFcu { s.fcu with queue := s.fcu.queue.drop n }) := by
  unfold removeFrames
  exact if_pos (by simpa using h)

/-- Settles O50: READ_FRAMES is `removeFrames`, whose hold cause goes by `removeHold_leaves` or `removeHold_backup`. -/
theorem readFramesAndClearGate : Obligations.ReadFramesAndClearGate := by
  intro rq s hserved u
  have htrc : u.trc = s.trc := arrive_trc _
  have hpru : u.pru = s.pru := arrive_pru _
  have hfcu : u.fcu = s.fcu := arrive_fcu _
  have hset : ∀ i, u.setting i = s.setting i := fun i => arrive_setting _ i
  refine ⟨fun count => ?_, ?_⟩
  · intro c n left good drops holds
    refine ⟨fun hbad => ?_, fun hgood hq => ?_, fun hgood hq => ?_⟩
    · exact exec_of_same rfl hserved (readFramesBody_refused hbad)
    · exact exec_of_same rfl hserved (by rw [← hfcu]; exact readFramesBody_empty hgood (by rw [hfcu]; exact hq))
    · have hbody := readFramesBody_taken (s := u) hgood (by rw [hfcu]; exact hq)
      simp only [hfcu] at hbody
      have hexec : exec c s = .next (answer rq (.ok _) (removeFrames n u)) := exec_answers rfl hserved hbody
      have hkept : Kept [.trc, .pru, .fcu, .out] u (removeFrames n u) := by simp
      refine ⟨_, hexec, answered_of_kept (r := .ok _) (by simp) hkept, ?_, fun hno => ?_, fun hdrops hother => ?_,
        fun hdrops hst hholds => ?_⟩
      · simp [hfcu]
      · have hstays := removeFrames_stays (n := n) (s := u) (by rw [hfcu, htrc]; exact hno)
        simp [hstays, htrc, hpru]
      · have hgone := removeFrames_drops (n := n) (s := u) (by rw [hfcu]; exact hdrops.1)
        rw [removeHold_leaves] at hgone
        · simp [hgone, htrc, hpru, HoldSet.put, holds]
        · intro _ hst hempty
          rw [State.setFcu_trc, htrc] at hst hempty
          simp only [HoldSet.put, HoldSet.empty, HoldSet.mk.injEq] at hempty
          obtain ⟨-, hg, ho⟩ := hempty
          exact hother ⟨hst, calc
            s.trc.holds = ⟨s.trc.holds.backpressure, s.trc.holds.gateHot, s.trc.holds.operator⟩ := rfl
            _ = ⟨true, false, false⟩ := by rw [hg, ho, hdrops.2]⟩
      · have hgone := removeFrames_drops (n := n) (s := u) (by rw [hfcu]; exact hdrops.1)
        rw [removeHold_backup (by simp [htrc, hholds, HoldSet.has]) (by simp [htrc, hst])
          (by simp [htrc, hholds, HoldSet.put, HoldSet.empty])] at hgone
        simp [hgone, startBackup, enter_capstan, enter_light_out, htrc, hpru, hholds, HoldSet.put, holds]
        exact hset _
  · refine exec_of_body (v := breakChains (u.setRpq { u.rpq with gate := [] })) (p := fun t => t.rpq = _) rfl hserved rfl
      (by simp) (by simp [u]) ?_
    simp [breakChains, u]

end Sys2Proof.Machine
end

section
/-! SUPPORT. The INCOMPLETE close of a context, told of every state that agrees with the closing one in what a close reads
(R80, R81). -/

namespace Sys2Proof.Machine

variable {s t u v a : State} {c : CtxId} {x : Ctx} {r : FrameRecord}

/-- What the INCOMPLETE close of context c, which held x, leaves of a state, with the record r of the frame (R80, R81). -/
structure ClosedIncomplete (s : State) (c : CtxId) (x : Ctx) (r : FrameRecord) (t : State) : Prop where
  fcu : t.fcu = { s.fcu with ctx := s.fcu.ctx.set c none, queue := s.fcu.queue ++ [r] }
  record : IncompleteRecord s x r
  listed : ListedIncomplete s x t
  graded : RecordGraded s t r
  chains : t.rpq = { s.rpq with prev := [], prevFrom := none }
  waiting : s.fcu.queue = [] → LatchedWhereRouted .framesWaiting s t
  surveys : t.dsu = s.dsu
  accumulators : t.sht.acc = s.sht.acc

/-! ### What a close reads of the state -/

theorem frontier_of_reg (h : a.reg = s.reg) (n : Nat) : a.frontier n = s.frontier n := by
  simp [State.frontier, State.reel, h]

theorem shotsOf_of_pool (h : a.sht.pool = s.sht.pool) (n : Nat) : a.shotsOf n = s.shotsOf n := by
  simp [State.shotsOf, h]

theorem lastShot_of_pool (h : a.sht.pool = s.sht.pool) (n : Nat) : a.lastShot n = s.lastShot n := by
  simp [State.lastShot, shotsOf_of_pool h]

theorem shotAt_of_frontier {n : Nat} (hr : a.frontier n = s.frontier n) (hp : a.sht.pool = s.sht.pool) (f : Nat) :
    a.shotAt n f = s.shotAt n f := by
  simp [State.shotAt, hr, lastShot_of_pool hp, shotsOf_of_pool hp]

theorem shotAt_of_same (hr : a.reg = s.reg) (hp : a.sht.pool = s.sht.pool) (n f : Nat) : a.shotAt n f = s.shotAt n f :=
  shotAt_of_frontier (frontier_of_reg hr n) hp f

theorem incompleteRecord_of_same (hr : a.reg = s.reg) (hs : a.sht = s.sht) :
    IncompleteRecord a x r ↔ IncompleteRecord s x r := by
  simp [IncompleteRecord, frontier_of_reg hr, shotAt_of_same hr (congrArg _ hs), hs]

theorem listedIncomplete_of_same (hr : a.reg = s.reg) (hu : u.reg = t.reg) :
    ListedIncomplete a x u ↔ ListedIncomplete s x t := by
  simp [ListedIncomplete, State.reel, hr, hu]

theorem recordGraded_of_same (hr : a.reg = s.reg) (hp : a.sht.pool = s.sht.pool) (hu : u.sht.pool = t.sht.pool) :
    RecordGraded a u r ↔ RecordGraded s t r := by
  simp [RecordGraded, State.reel, hr, hp, hu]

theorem latchedWhereRouted_of_cfg {e : Event} (h : a.cfg = s.cfg) :
    LatchedWhereRouted e a t ↔ LatchedWhereRouted e s t := by
  simp [LatchedWhereRouted, route_of_cfg h]

/-- The INCOMPLETE close, told of any state that agrees with the closing one in what a close reads. -/
theorem closedIncomplete_closeCtx (hk : Kept [.trc, .pru, .alt, .out] s a) (hx : s.fcu.ctx.get c = some x) :
    ∃ r, ClosedIncomplete s c x r (closeCtx c false a) := by
  have hreg : a.reg = s.reg := hk .reg (by simp)
  have hsht : a.sht = s.sht := hk .sht (by simp)
  have hfcu : a.fcu = s.fcu := hk .fcu (by simp)
  have hcfg : a.cfg = s.cfg := hk .cfg (by simp)
  have hrpq : a.rpq = s.rpq := hk .rpq (by simp)
  have hdsu : a.dsu = s.dsu := hk .dsu (by simp)
  obtain ⟨r, h1, h2, h3, h4, h5, -, h6, h7, h8⟩ := closeCtx_incomplete (s := a) (c := c) (x := x) (by rw [hfcu, hx])
  exact ⟨r, hfcu ▸ h1, (incompleteRecord_of_same hreg hsht).mp h2, (listedIncomplete_of_same hreg rfl).mp h3,
    (recordGraded_of_same hreg (congrArg _ hsht) rfl).mp h8, hrpq ▸ h4,
    fun hq => (latchedWhereRouted_of_cfg hcfg).mp (h5 (by rw [hfcu, hq])), hdsu ▸ h6, hsht ▸ h7⟩

end Sys2Proof.Machine
end

section
/-! SUPPORT. The two commands that close one context INCOMPLETE: a row out of order (R77), an age of 100 ms (R78). -/

namespace Sys2Proof.Machine

variable {s t u v : State} {c : CtxId} {x : Ctx}

/-- R78: the context an expiry closes. -/
theorem exec_contextAgeExpiry (h : TakenAlone s c x) (hage : 100 ≤ x.age) :
    exec .contextAgeExpiry s = .next (closeCtx c false (quiet s)) := by
  obtain ⟨hx, halone⟩ := h
  have hdue : s.fcu.due c = true := by simpa [Fcu.due, hx, Config.contextMs] using hage
  rcases Fcu.eq_newest_or_older s.fcu c with rfl | rfl
  · have hfree : s.fcu.ctx.get s.fcu.older = none := halone.resolve_right (by simp)
    have hnot : s.fcu.due s.fcu.older = false := by simp [Fcu.due, hfree]
    simp [exec, execContextAgeExpiry, hdue, hnot]
  · simp [exec, execContextAgeExpiry, hdue]

/-- R77: a row for the context that is taken alone. -/
theorem exec_row_alone {frame : BitVec 16} {row : Byte} {ir visible : List (BitVec 16)} (hir : ir.length = 32)
    (hvis : visible.length = 32) (h : TakenAlone s c x) (hframe : x.frame = frame.toNat) :
    exec (.row frame row ir visible) s = .next
      (if row.toNat = x.nextRow ∧ row.toNat < 24 then rowInOrder c x row.toNat ir visible (headReport (quiet s))
      else closeCtx c false (headReport (quiet s))) := by
  obtain ⟨hmatch, hsame⟩ := matching_alone (s := headReport (quiet s)) (by simpa [TakenAlone] using h)
  have hget : (headReport (quiet s)).fcu.ctx.get c = some x := by simpa using h.1
  simp only [exec, execRow, hir, hvis, and_self, if_true, takeRowMessage, ← hframe, hmatch, hsame, hget]

/-- Settles O28: both commands are the INCOMPLETE close of the one context they are for. -/
theorem contextClosesIncomplete : Obligations.ContextClosesIncomplete := by
  intro s cmd c x halone hcmd
  have hclose : ∀ a, Kept [.trc, .out] s a → exec cmd s = .next (closeCtx c false a) →
      ∃ t r, exec cmd s = .next t ∧ ClosedIncomplete s c x r t ∧ Kept lineBlocks s t := by
    intro a ha hexec
    obtain ⟨r, hr⟩ := closedIncomplete_closeCtx (ha.mono (by simp)) halone.1
    exact ⟨_, r, hexec, hr, (kept_closeCtx (by simp) c false).mpr (ha.mono (by simp))⟩
  have hdone : ∃ t r, exec cmd s = .next t ∧ ClosedIncomplete s c x r t ∧ Kept lineBlocks s t := by
    rcases hcmd with ⟨rfl, hage⟩ | ⟨frame, row, ir, visible, rfl, hir, hvis, hframe, hrow⟩
    · exact hclose _ (by simp) (exec_contextAgeExpiry halone hage)
    · refine hclose (headReport (quiet s)) (by simp) ?_
      rw [exec_row_alone hir hvis halone hframe, if_neg (by omega)]
  obtain ⟨t, r, hexec, hr, hk⟩ := hdone
  exact ⟨t, hexec, by rw [hr.fcu], by rw [hr.fcu], ⟨r, by rw [hr.fcu], hr.record, hr.graded⟩, hr.waiting, hr.chains,
    hr.listed, hk⟩

end Sys2Proof.Machine
end

section
/-! SUPPORT. A row in order before the last (R77, R87, R125), of a context taken alone or of the newer of two; the stray row. -/

namespace Sys2Proof.Machine

variable {s t u a : State} {c : CtxId} {x y : Ctx} {row : Nat} {ir visible : List (BitVec 16)} {v w : Survey}

/-! ### What a row leaves of a survey (R87, R88, R95) -/

theorem RunsTaken.mask_threshold {runs : List Span} (h : RunsTaken row ir runs v w) :
    w.mask = v.mask ∧ w.threshold = v.threshold := by
  induction runs generalizing v with
  | nil => rw [show w = v from h]; exact ⟨rfl, rfl⟩
  | cons run rest ih =>
    obtain ⟨u, ⟨hu, -⟩, hrest⟩ := h
    obtain ⟨hm, ht⟩ := ih hrest
    rw [hm, ht, hu]
    exact ⟨rfl, rfl⟩

theorem RowSurveyed.mask_threshold (h : RowSurveyed row ir v w) :
    w.mask = (List.range 32).filter (fun j => cellAt ir j < v.threshold) ∧ w.threshold = v.threshold := by
  obtain ⟨runs, u, -, hruns, hend, -⟩ := h
  obtain ⟨hm, ht⟩ := hruns.mask_threshold
  rw [hend]
  exact ⟨hm, ht⟩

/-! ### A row in order before the last (R77, R87, R125) -/

theorem rowInOrder_eq_handed (h : row < 23) : rowInOrder c x row ir visible s = rowHanded c x row ir visible s := by
  rw [rowInOrder, if_neg (by omega)]
  rfl

theorem rowHanded_fcu : (rowHanded c x row ir visible s).fcu =
    { s.fcu with ctx := s.fcu.ctx.set c (some { x with nextRow := row + 1 }) } := rfl

theorem kept_rowHanded : Kept [.fcu, .dsu, .sht] s (rowHanded c x row ir visible s) := by
  simp [rowHanded, State.setCtx]

/-- What a row handed on adds to the survey and the density accumulator of context c, as O27 says it. -/
def RowAdded (c : CtxId) (row : Nat) (ir visible : List (BitVec 16)) (s t : State) : Prop :=
  let clean := (List.range 32).filter (fun j => (s.dsu.get c).threshold ≤ cellAt ir j)
  RowSurveyed row ir (s.dsu.get c) (t.dsu.get c) ∧
    (t.dsu.get c).mask = (List.range 32).filter (fun j => cellAt ir j < (s.dsu.get c).threshold) ∧
    (t.dsu.get c).threshold = (s.dsu.get c).threshold ∧ t.dsu.get c.other = s.dsu.get c.other ∧
    t.sht.acc = s.sht.acc.set c ⟨(s.sht.acc.get c).sum + (clean.map (cellAt visible)).sum,
      (s.sht.acc.get c).count + clean.length⟩

/-- R87, R125: a row handed on in a state with the surveys and the accumulators of s. -/
theorem rowAdded_rowHanded (hd : a.dsu = s.dsu) (ha : a.sht.acc = s.sht.acc) (hw : (s.dsu.get c).regions.wf = true) :
    RowAdded c row ir visible s (rowHanded c x row ir visible a) := by
  obtain ⟨hrow, -⟩ := takeRow_surveyed row ir hw
  have hdsu : (rowHanded c x row ir visible a).dsu = s.dsu.set c (takeRow row ir (s.dsu.get c)) := by
    rw [← hd]
    rfl
  have hget : (rowHanded c x row ir visible a).dsu.get c = takeRow row ir (s.dsu.get c) := by simp [hdsu]
  obtain ⟨hm, ht⟩ := hrow.mask_threshold
  refine ⟨hget ▸ hrow, hget ▸ hm, hget ▸ ht, by rw [hdsu, Two.get_set, if_neg (CtxId.other_ne c)], ?_⟩
  rw [← accumulate_takeRow row (s.dsu.get c) ir visible, ← hd, ← ha]
  rfl

/-! ### The other ways of a row (R77) -/

/-- R77: the context a row's frame number matches, the older first. -/
theorem Fcu.matching_eq (q : Fcu) (k : Nat) : q.matching k =
    if (q.ctx.get q.older).any (fun x => x.frame == k) then some q.older
    else if (q.ctx.get q.newest).any (fun x => x.frame == k) then some q.newest else none := by
  cases ho : q.ctx.get q.older <;> cases hn : q.ctx.get q.newest <;> simp [Fcu.matching, ho, hn]

/-- A row of the newer context, whose older one holds another frame. -/
theorem takeRowMessage_newest (hx : s.fcu.ctx.get s.fcu.newest = some x) (hy : s.fcu.ctx.get s.fcu.older = some y)
    (hne : y.frame ≠ x.frame) (hlast : x.nextRow < 23) : takeRowMessage x.frame x.nextRow ir visible s =
      rowHanded s.fcu.newest x x.nextRow ir visible (closeCtx s.fcu.older false s) := by
  have hmatch : s.fcu.matching x.frame = some s.fcu.newest := by simp [Fcu.matching_eq, hx, hy, hne]
  have hkeep : (closeCtx s.fcu.older false s).fcu.ctx.get s.fcu.newest = some x := by rw [Fcu.older, closeCtx_other, hx]
  simp only [takeRowMessage, hmatch, if_true, hkeep, true_and, if_pos (show x.nextRow < 24 by omega),
    rowInOrder_eq_handed hlast]

theorem takeRowMessage_stray {k : Nat} (h : ∀ c x, s.fcu.ctx.get c = some x → x.frame ≠ k) :
    takeRowMessage k row ir visible s = s.setFcu { s.fcu with strayRows := min 65535 (s.fcu.strayRows + 1) } := by
  have hno : ∀ c, (s.fcu.ctx.get c).any (fun x => x.frame == k) = false := fun c => by
    cases hx : s.fcu.ctx.get c with
    | none => rfl
    | some x => simpa using h c x hx
  have hmatch : s.fcu.matching k = none := by simp [Fcu.matching_eq, hno]
  simp only [takeRowMessage, hmatch]

theorem exec_row {frame : BitVec 16} {index : Byte} (hir : ir.length = 32) (hvis : visible.length = 32) :
    exec (.row frame index ir visible) s =
      .next (takeRowMessage frame.toNat index.toNat ir visible (headReport (quiet s))) := by
  simp only [exec, execRow, hir, hvis, and_self, if_true]

/-- Settles O27: the row is `rowHanded` on, after the INCOMPLETE close of the older context when it is for the newer. -/
theorem rowInOrderIsTaken : Obligations.RowInOrderIsTaken := by
  refine ⟨fun s frame row ir visible c x hir hvis hx hframe hrow hlast hwf => ⟨fun halone => ?_,
    fun y hnew hy hne => ?_⟩, fun s frame row ir visible hir hvis hstray => ?_⟩
  · have hexec := exec_row_alone (row := row) hir hvis halone hframe
    rw [if_pos (by omega), hrow, rowInOrder_eq_handed hlast] at hexec
    have hk : Kept [.fcu, .dsu, .sht] (headReport (quiet s)) (rowHanded c x x.nextRow ir visible (headReport (quiet s))) :=
      kept_rowHanded
    refine ⟨_, hexec, hrow ▸ rowAdded_rowHanded (by simp) (by simp) hwf, ?_, ?_, ?_, ?_⟩
    · simp [rowHanded_fcu]
    · simp [rowHanded, State.setCtx]
    · rw [hk .trc (by simp), headReport_trc, quiet_trc]
    · exact .trans (by simp) (hk.mono (by simp))
  · subst hnew
    change s.fcu.ctx.get s.fcu.older = some y at hy
    have hexec := exec_row (s := s) (frame := frame) (index := row) hir hvis
    rw [hrow, ← hframe, takeRowMessage_newest (by simpa using hx) (by simpa using hy) hne hlast, headReport_fcu, quiet_fcu]
      at hexec
    obtain ⟨r, hr⟩ := closedIncomplete_closeCtx (a := headReport (quiet s)) (by simp) hy
    have hka : Kept lineBlocks s (closeCtx s.fcu.older false (headReport (quiet s))) := by simp
    obtain ⟨a, ha⟩ : ∃ a, a = closeCtx s.fcu.older false (headReport (quiet s)) := ⟨_, rfl⟩
    have hadded := rowAdded_rowHanded (c := s.fcu.newest) (x := x) (row := x.nextRow) (ir := ir) (visible := visible)
      hr.surveys hr.accumulators hwf
    rw [← ha] at hexec hr hka hadded
    have hk : Kept [.fcu, .dsu, .sht] a (rowHanded s.fcu.newest x x.nextRow ir visible a) := kept_rowHanded
    refine ⟨_, hexec, hrow ▸ hadded, ?_, ?_, ⟨r, ?_, hr.record, ?_⟩, ?_, ?_, fun hq => ?_, hka.trans (hk.mono (by simp))⟩
    · rw [rowHanded_fcu, hr.fcu]
      rfl
    · rw [rowHanded_fcu, hr.fcu]
    · rw [rowHanded_fcu, hr.fcu]
    · exact (recordGraded_of_same rfl rfl rfl).mp hr.graded
    · exact (listedIncomplete_of_same rfl (hk .reg (by simp))).mpr hr.listed
    · rw [hk .rpq (by simp), hr.chains]
    · exact (hr.waiting hq).mono (.of_eq (hk .alt (by simp)))
  · refine ⟨_, (exec_row hir hvis).trans (congrArg _ (takeRowMessage_stray (by simpa using hstray))), by simp, ?_, by simp⟩
    rw [State.setFcu_trc, headReport_trc, quiet_trc]

end Sys2Proof.Machine
end

section
/-! SUPPORT. FCU's part of a measured line (R72 to R74), and what a close does to the transport (R82, R34). -/

namespace Sys2Proof.Machine

variable {s t u v : State} {c : CtxId} {x : LineReport} {y : Ctx} {k : Nat}

/-! ### A close and the transport (R80, R82, R34) -/

/-- R82, R34: what a close does to TRC, PRU and the output is the hold cause of a queue of 30. -/
theorem closeCtx_pressed (hy : s.fcu.ctx.get c = some y) (complete : Bool) :
    ∃ w, Kept [.reg, .fcu, .dsu, .rpq, .sht, .alt] s w ∧ AlertsGrow w (closeCtx c complete s) ∧
      closeCtx c complete s = if 30 ≤ s.fcu.queue.length + 1 then addHold .backpressure w else w := by
  obtain ⟨r, a, hk, he⟩ : ∃ r a, Kept [.reg, .dsu, .rpq, .sht, .alt] s a ∧
      closeCtx c complete s = appendRecord r (a.setCtx c none) := by
    unfold closeCtx
    rw [hy]
    exact ⟨_, _, by simp, rfl⟩
  obtain ⟨w, hw⟩ : ∃ w, w = raiseIf (a.setCtx c none).fcu.queue.isEmpty .framesWaiting
    ((a.setCtx c none).setFcu { (a.setCtx c none).fcu with queue := (a.setCtx c none).fcu.queue ++ [r] }) := ⟨_, rfl⟩
  have hfcu : a.fcu = s.fcu := hk .fcu (by simp)
  have hlen : w.fcu.queue.length = s.fcu.queue.length + 1 := by simp [hw, State.setCtx, hfcu]
  have hclose : closeCtx c complete s = if 30 ≤ s.fcu.queue.length + 1 then addHold .backpressure w else w := by
    rw [he, appendRecord, ← hw, hlen]
  have hwide : Kept [.reg, .fcu, .dsu, .rpq, .sht, .alt] s a := hk.mono (by simp)
  refine ⟨w, by simpa [hw, State.setCtx] using hwide, ?_, hclose⟩
  rw [hclose]
  split
  · exact (AlertsGrow.refl w).addHold _
  · exact .refl w

/-- R34: below 30 records, or with BACKPRESSURE present, a close leaves the transport. -/
theorem closeCtx_calm (hy : s.fcu.ctx.get c = some y) (h : s.fcu.queue.length + 1 < 30 ∨ s.trc.holds.backpressure = true)
    (complete : Bool) : Kept [.reg, .fcu, .dsu, .rpq, .sht, .alt] s (closeCtx c complete s) := by
  obtain ⟨w, hk, -, he⟩ := closeCtx_pressed hy complete
  have htrc : w.trc = s.trc := hk .trc (by simp)
  rw [he]
  split
  · next hlen =>
    rwa [addHold_present]
    rw [htrc]
    exact h.resolve_left (by omega)
  · exact hk

/-- R34: the 30th record of a scan enters HOLD. -/
theorem closeCtx_holds (hy : s.fcu.ctx.get c = some y) (hlen : 30 ≤ s.fcu.queue.length + 1)
    (hp : s.trc.holds.backpressure = false) (hst : s.trc.state = .scanning) (complete : Bool) :
    ∃ w, Kept [.reg, .fcu, .dsu, .rpq, .sht, .alt] s w ∧ closeCtx c complete s = raise .holdEntered
      (enter .hold (w.setTrc { s.trc with holds := { s.trc.holds with backpressure := true } })) := by
  obtain ⟨w, hk, -, he⟩ := closeCtx_pressed hy complete
  have htrc : w.trc = s.trc := hk .trc (by simp)
  refine ⟨w, hk, ?_⟩
  rw [he, if_pos hlen, addHold_holdEntered (by rw [htrc]; exact hp) (.inl (by rw [htrc, hst])), htrc]
  rfl

/-! ### What FCU does with a line (R72 to R74) -/

/-- FCU's part of `takeLine` for a lock that is not SEEKING and a report that ends no seeking gap, before frame 65535
ends the run. -/
def lineTaken (x : LineReport) (s : State) : State :=
  if x.frame < s.fcu.nextFrame then s
  else
    match s.fcu.freeCtx with
    | some c => captureLine c x s
    | none => skipLine x.frame s

theorem takeLine_eq_lineTaken (hl : x.lock ≠ .seeking) (hg : x.seekFrom = none) :
    takeLine x s = frameLimit x.frame (lineTaken x s) := by
  have htake : takeLine x s = frameLimit x.frame (if x.lock = .seeking then _ else lineTaken x (seekingGap x s)) := rfl
  rw [htake, if_neg hl, seekingGap_none hg]

theorem lineTaken_passed (h : x.frame < s.fcu.nextFrame) : lineTaken x s = s := if_pos h

theorem lineTaken_skipped (h : s.fcu.nextFrame ≤ x.frame) (hfull : s.fcu.freeCtx = none) :
    lineTaken x s = skipLine x.frame s := by
  rw [lineTaken, if_neg (by omega), hfull]

theorem lineTaken_captured (h : s.fcu.nextFrame ≤ x.frame) (hc : LowestFree s c) : lineTaken x s = captureLine c x s := by
  rw [lineTaken, if_neg (by omega), freeCtx_of_lowestFree hc]

/-- R73: no context is open for the frame. -/
theorem lineTaken_opens (h : s.fcu.nextFrame ≤ x.frame) (hc : LowestFree s c) (hst : s.trc.state = .scanning)
    (hfresh : ∀ c y, s.fcu.ctx.get c = some y → y.frame ≠ x.frame) : lineTaken x s = openCtx c x s := by
  rw [lineTaken_captured h hc, captureLine_fresh hst hfresh]

/-- R73: the other context is open for the frame, and closes first. -/
theorem lineTaken_closes (h : s.fcu.nextFrame ≤ x.frame) (hc : LowestFree s c) (hy : s.fcu.ctx.get c.other = some y)
    (hf : y.frame = x.frame) : lineTaken x s =
      if (closeCtx c.other false s).trc.state = .scanning then openCtx c x (closeCtx c.other false s)
      else closeCtx c.other false s := by
  rw [lineTaken_captured h hc]
  simp [captureLine, hy, hf]

theorem lineTaken_reopens (h : s.fcu.nextFrame ≤ x.frame) (hc : LowestFree s c) (hy : s.fcu.ctx.get c.other = some y)
    (hf : y.frame = x.frame) (hst : s.trc.state = .scanning)
    (hcalm : s.fcu.queue.length + 1 < 30 ∨ s.trc.holds.backpressure = true) :
    lineTaken x s = openCtx c x (closeCtx c.other false s) := by
  have htrc : (closeCtx c.other false s).trc = s.trc := closeCtx_calm hy hcalm false .trc (by simp)
  rw [lineTaken_closes h hc hy hf, htrc, if_pos hst]

theorem lineTaken_holds (h : s.fcu.nextFrame ≤ x.frame) (hc : LowestFree s c) (hy : s.fcu.ctx.get c.other = some y)
    (hf : y.frame = x.frame) (hst : s.trc.state = .scanning) (hlen : 30 ≤ s.fcu.queue.length + 1)
    (hp : s.trc.holds.backpressure = false) : lineTaken x s = closeCtx c.other false s := by
  obtain ⟨w, -, he⟩ := closeCtx_holds hy hlen hp hst false
  rw [lineTaken_closes h hc hy hf, if_neg]
  simp [he]

/-! ### The measured line up to the report (R57) -/

theorem measured_trc (p pk : Int) : (measured p pk k s).trc =
    { s.trc with reportAge := 0, silence := 0, linkSeen := true } := by
  simp [measured, edgeOnLine, lineRecorded]

theorem measured_out (p pk : Int) (h : s.trc.linkSeen = true) : (measured p pk k s).out = ⟨[], []⟩ := by
  simp [measured, edgeOnLine, lineRecorded, edgeRecorded, headReport, quiet, h]

theorem kept_measured_head (p pk : Int) : Kept [.trc, .pru, .alt, .out] s (measured p pk k s) := by
  simp [measured, edgeOnLine, lineRecorded, edgeRecorded]

@[simp] theorem afterReport_lock (k : Nat) : (afterReport k s).pru.lock = s.pru.lock := by
  unfold afterReport endLines
  split
  · rfl
  · split <;> simp

end Sys2Proof.Machine
end

section
/-! SUPPORT. The plain line of the expected frame (R57, R72 to R76), the last frame's included (R46). -/

namespace Sys2Proof.Machine

variable {s t u v w a : State} {c : CtxId} {x : LineReport} {y : Ctx} {p pk : Int} {k : Nat}

/-! ### A context opened, a frame skipped (R73, R74) -/

theorem openCtx_out (c : CtxId) (x : LineReport) (s : State) :
    (openCtx c x s).out = { s.out with head := s.out.head ++ [.capture x.frame (x.error.getD 0)] } := by
  simp [openCtx, State.send]

theorem openCtx_sht (c : CtxId) (x : LineReport) (s : State) :
    (openCtx c x s).sht = { s.sht with acc := s.sht.acc.set c ⟨0, 0⟩ } := by
  simp [openCtx, State.send]

theorem latched_skipLine (k : Nat) (s : State) : LatchedWhereRouted .frameSkipped s (skipLine k s) := by
  have hraise : LatchedWhereRouted .frameSkipped s (raise .frameSkipped ((rescanThreaded ⟨k, k⟩ s).setFcu
      { (rescanThreaded ⟨k, k⟩ s).fcu with
        skips := min 255 ((rescanThreaded ⟨k, k⟩ s).fcu.skips + 1), nextFrame := k + 1 })) :=
    latched_raise fun q => route_of_cfg (by simp) q
  exact hraise.mono (.of_eq rfl)

theorem skipLine_rpq (k : Nat) (s : State) : (skipLine k s).rpq = { s.rpq with prev := [], prevFrom := none } := by
  simp [skipLine, breakChains]

theorem skipLine_reel (k h : Nat) (s : State) : (skipLine k s).reel h = (rescanThreaded ⟨k, k⟩ s).reel h := by
  simp [skipLine, breakChains, State.reel]

/-- One context FREE and the other one closed: both are FREE. -/
theorem Two.set_other_none {α : Type} {w : Two (Option α)} {c : CtxId} (h : w.get c = none) :
    w.set c.other none = ⟨none, none⟩ := by
  cases c <;> simp only [Two.get] at h <;> simp [Two.set, CtxId.other, h]

theorem openCtx_dsu (c : CtxId) (x : LineReport) (s : State) :
    (openCtx c x s).dsu = s.dsu.set c ⟨[], s.setting Setting.irThreshold, x.offset, [], 0, false⟩ := by
  simp [openCtx, State.send, openSurvey, State.setting]

/-! ### The report of a plain line (R57) -/

/-- The report PRU makes of the measured line of frame k. -/
def plainReport (p pk : Int) (k : Nat) (s : State) : LineReport :=
  lineReport ⟨p, k⟩ (some (p - pk)) false none (measured p pk k s)

/-- v is what PRU's steps at the measured line of frame k leave of s in SCANNING, and x is the report to FCU. -/
structure AtReport (s v : State) (x : LineReport) (p pk : Int) (k : Nat) : Prop where
  measured_eq : v = measured p pk k s
  report_eq : x = plainReport p pk k s
  scanning : v.trc.state = .scanning
  out : v.out = ⟨[], []⟩

theorem exec_plainReport {p : BitVec 32} (h : PlainLine s pk k) (hw : ((p.toInt - pk).natAbs : Int) ≤ s.pru.halfWidth)
    (hlink : s.trc.linkSeen = true) : ∃ v x, AtReport s v x p.toInt pk k ∧
      exec (.frameLine p) s = .next (afterReport k (frameLimit k (lineTaken x v))) := by
  obtain ⟨hst, -, hseek⟩ := h.1
  refine ⟨_, _, ⟨rfl, rfl, by rw [measured_state, hst], measured_out _ _ hlink⟩, ?_⟩
  have hl : (measured p.toInt pk k s).pru.lock ≠ .seeking := measured_not_seeking hseek _
  rw [exec_plainLine h hw, reportLine_eq, takeLine_eq_lineTaken hl rfl]
  rfl

namespace AtReport

variable (h : AtReport s v x p pk k)
include h

theorem kept : Kept [.trc, .pru, .alt, .out] s v := h.measured_eq ▸ kept_measured_head _ _
theorem wide : Kept lineBlocks s v := h.kept.mono (by simp)
theorem fcu : v.fcu = s.fcu := h.kept .fcu (by simp)
theorem cfg : v.cfg = s.cfg := h.kept .cfg (by simp)
theorem frame : x.frame = k := by rw [h.report_eq]; rfl
theorem error : x.error = some (p - pk) := by rw [h.report_eq]; rfl
theorem offset : x.offset = roundDiv (p - pk) (s.pru.live.pInt / 24) := by
  rw [h.report_eq, ← show (measured p pk k s).pru.live = s.pru.live by rw [measured_pru]]
  rfl
theorem trc : v.trc = { s.trc with reportAge := 0, silence := 0, linkSeen := true } := by rw [h.measured_eq, measured_trc]
theorem holds : v.trc.holds = s.trc.holds := by rw [h.trc]
theorem pru : v.pru = { s.pru with
    lastEdge := some p, lastLine := some ⟨k, p, true⟩, lock := v.pru.lock, count := v.pru.count, missing := 0
    seekFrom := v.pru.seekFrom } := by
  rw [h.measured_eq]
  exact measured_pru p
theorem lowestFree_iff : LowestFree v c ↔ LowestFree s c := by simp only [LowestFree, h.fcu]

/-- R73: the context the line opens, in a state that has kept TRC and the skip count. -/
theorem opened (ht : a.trc = v.trc) (hs : a.fcu.skips = s.fcu.skips) : (openCtx c x a).fcu = { a.fcu with
    ctx := a.fcu.ctx.set c (some (openedFor s k p (p - pk) (decide (v.pru.lock = .locked))))
    newest := c, nextFrame := k + 1, skips := 0 } := by
  obtain ⟨rfl, rfl, -, -⟩ := h
  have hlive : (measured p pk k s).pru.live = s.pru.live := by rw [measured_pru]
  simp [openCtx, State.send, plainReport, lineReport, openedFor, State.spliceFlag, State.setting, rowOffset, ht, hs, hlive,
    measured_trc]
  rfl

/-- R73: the lowest-numbered FREE context opens; none is open for the frame. -/
theorem lineTaken_opened (hn : s.fcu.nextFrame ≤ k) (hc : LowestFree s c)
    (hfresh : ∀ c y, s.fcu.ctx.get c = some y → y.frame ≠ k) : lineTaken x v = openCtx c x v :=
  lineTaken_opens (by rw [h.frame, h.fcu]; exact hn) (h.lowestFree_iff.mpr hc) h.scanning
    (by rw [h.frame, h.fcu]; exact hfresh)

theorem lineTaken_full (hn : s.fcu.nextFrame ≤ k) (hfull : s.fcu.freeCtx = none) : lineTaken x v = skipLine k v := by
  rw [lineTaken_skipped (by rw [h.frame, h.fcu]; exact hn) (by rw [h.fcu]; exact hfull), h.frame]

theorem lineTaken_below (hn : k < s.fcu.nextFrame) : lineTaken x v = v :=
  lineTaken_passed (by rw [h.frame, h.fcu]; exact hn)

section
variable (hn : s.fcu.nextFrame ≤ k) (hc : LowestFree s c) (hy : s.fcu.ctx.get c.other = some y) (hyk : y.frame = k)
include hn hc hy hyk

/-- R73: the other context closes, the scan goes on, and the context opens. -/
theorem lineTaken_reopened (hcalm : s.fcu.queue.length + 1 < 30 ∨ s.trc.holds.backpressure = true) :
    ∃ r a, lineTaken x v = openCtx c x a ∧ ClosedIncomplete s c.other y r a ∧ a.trc = v.trc ∧ a.pru = v.pru ∧
      a.out = v.out ∧ Kept lineBlocks v a := by
  obtain ⟨r, hr⟩ := closedIncomplete_closeCtx h.kept hy
  rw [← h.fcu] at hn hy hcalm
  rw [← h.holds] at hcalm
  have hk := closeCtx_calm hy hcalm false
  exact ⟨r, _, lineTaken_reopens (by rw [h.frame]; exact hn) (h.lowestFree_iff.mpr hc) hy (by rw [h.frame, hyk]) h.scanning
    hcalm, hr, hk .trc (by simp), hk .pru (by simp), hk .out (by simp), hk.mono (by simp)⟩

/-- R73, R34: the close has put the transport into HOLD, and no context opens. -/
theorem lineTaken_held (hlen : 30 ≤ s.fcu.queue.length + 1) (hp : s.trc.holds.backpressure = false) :
    ∃ r, ClosedIncomplete s c.other y r (lineTaken x v) ∧ (lineTaken x v).fcu.ctx = ⟨none, none⟩ ∧
      (lineTaken x v).trc.state = .hold ∧ (lineTaken x v).trc.holds = { s.trc.holds with backpressure := true } ∧
      (lineTaken x v).trc.capstan = 0 ∧ LatchedWhereRouted .holdEntered s (lineTaken x v) := by
  obtain ⟨r, hr⟩ := closedIncomplete_closeCtx h.kept hy
  rw [← h.fcu] at hn hy hlen
  rw [← h.holds] at hp ⊢
  obtain ⟨w, hwk, he⟩ := closeCtx_holds hy hlen hp h.scanning false
  have hwcfg : w.cfg = s.cfg := (hwk .cfg (by simp)).trans h.cfg
  rw [lineTaken_holds (by rw [h.frame]; exact hn) (h.lowestFree_iff.mpr hc) hy (by rw [h.frame, hyk]) h.scanning hlen hp]
  refine ⟨r, hr, ?_, by simp [he], by simp [he], by simp [he, enter_capstan], ?_⟩
  · rw [hr.fcu]
    exact Two.set_other_none hc.1
  · rw [he]
    exact latched_raise fun q => route_of_cfg (by simp [hwcfg]) q

end

end AtReport

/-! ### What a line leaves of TRC and PRU -/

/-- Between v and u the transport may have entered HOLD, and PRU has kept all but its expectation. -/
structure LineKept (v u : State) : Prop where
  pru : u.pru = { v.pru with expect := u.pru.expect }
  gateHot : u.trc.gateHot = v.trc.gateHot
  gateHold : u.trc.holds.gateHot = v.trc.holds.gateHot
  alerts : AlertsGrow v u
  kept : Kept lineBlocks v u

theorem LineKept.of_same (htrc : u.trc = v.trc) (hpru : u.pru = v.pru) (ha : AlertsGrow v u) (hk : Kept lineBlocks v u) :
    LineKept v u := ⟨by rw [hpru], by rw [htrc], by rw [htrc], ha, hk⟩

theorem LineKept.trans (h : LineKept s t) (h' : LineKept t u) : LineKept s u where
  pru := by rw [h'.pru, h.pru]
  gateHot := h'.gateHot.trans h.gateHot
  gateHold := h'.gateHold.trans h.gateHold
  alerts := h.alerts.trans h'.alerts
  kept := h.kept.trans h'.kept

theorem lineKept_addHold (s : State) : LineKept s (addHold .backpressure s) := by
  refine ⟨?_, ?_, by rw [addHold_holds]; rfl, (AlertsGrow.refl s).addHold _, by simp⟩
  · unfold addHold
    (repeat' split) <;> simp
  · unfold addHold
    (repeat' split) <;> simp

theorem lineKept_closeCtx (c : CtxId) (s : State) : LineKept s (closeCtx c false s) := by
  cases hy : s.fcu.ctx.get c with
  | none =>
    have hsame : closeCtx c false s = s := by simp [closeCtx, hy]
    rw [hsame]
    exact .of_same rfl rfl (.refl _) (.refl _ _)
  | some y =>
    obtain ⟨w, hk, -, he⟩ := closeCtx_pressed hy false
    obtain ⟨-, -, -, -, -, -, ha, -⟩ := closeCtx_incomplete hy
    have hw : LineKept w (closeCtx c false s) := by
      rw [he]
      split
      · exact lineKept_addHold w
      · exact .of_same rfl rfl (.refl _) (.refl _ _)
    have htrc : w.trc = s.trc := hk .trc (by simp)
    have hpru : w.pru = s.pru := hk .pru (by simp)
    exact ⟨by rw [hw.pru, hpru], by rw [hw.gateHot, htrc], by rw [hw.gateHold, htrc], ha, by simp⟩

theorem lineKept_openCtx (c : CtxId) (x : LineReport) (s : State) : LineKept s (openCtx c x s) :=
  .of_same (by simp) (by simp) (.of_eq (by simp)) (by simp)

theorem lineKept_captureLine (c : CtxId) (x : LineReport) (s : State) : LineKept s (captureLine c x s) := by
  unfold captureLine
  extract_lets same u
  have hu : LineKept s u := by
    unfold u
    split
    · exact lineKept_closeCtx _ s
    · exact .of_same rfl rfl (.refl _) (.refl _ _)
  split
  · exact hu.trans (lineKept_openCtx c x u)
  · exact hu

theorem lineKept_lineTaken (x : LineReport) (s : State) : LineKept s (lineTaken x s) := by
  unfold lineTaken
  split
  · exact .of_same rfl rfl (.refl _) (.refl _ _)
  · split
    · exact lineKept_captureLine _ x s
    · exact .of_same (by simp) (by simp) (alertsGrow_skipLine _ s) (by simp)

/-! ### The line of frame 65535 (R46, R76) -/

/-- The run has ended as by STOP, with FRAME_LIMIT, and the run's lines are over. -/
structure RunEnded (u t : State) : Prop where
  raised : LatchedWhereRouted .frameLimit u t
  alerts : AlertsGrow u t
  state : t.trc.state = .threaded
  spliceQueue : t.trc.spliceQueue = []
  holds : t.trc.holds = { u.trc.holds with operator := false }
  capstan : t.trc.capstan = 0
  holdLight : t.trc.holdLight = some (u.setting Setting.holdLightLimit * 1000)
  light : t.trc.light = if u.trc.gateHot then 0 else u.setting Setting.lightHold
  pru : t.pru = { u.pru with expect := none, linesOver := true }
  same : Kept [.trc, .pru, .alt, .out] u t

theorem runEnded (h : u.pru.commitPending = false) : RunEnded u (afterReport 65535 (frameLimit 65535 u)) := by
  obtain ⟨w, hw⟩ : ∃ w, w = clearSplices (u.setTrc { u.trc with holds := u.trc.holds.put .operator false }) := ⟨_, rfl⟩
  have hhalt : Halted w (stopRun u) := by
    rw [hw]
    exact halted_enterThreaded _
  have ht : afterReport 65535 (frameLimit 65535 u) = endLines (raise .frameLimit (stopRun u)) := rfl
  obtain ⟨hpru, halt⟩ := hhalt.idle (by simp [hw, h])
  have hgrow : AlertsGrow u (stopRun u) := .of_eq (halt.trans (by simp [hw]))
  rw [ht]
  refine ⟨?_, ?_, hhalt.state, ?_, ?_, hhalt.capstan, ?_, ?_, ?_, by simp [endLines]⟩
  · exact (latched_raise fun q => route_of_cfg (by simp) q).mono (.of_eq rfl)
  · exact (hgrow.raise _).trans (.of_eq rfl)
  · exact hhalt.spliceQueue.trans (by simp [hw, clearSplices])
  · exact hhalt.holds.trans (by simp [hw, clearSplices, HoldSet.put])
  · exact hhalt.holdLight.trans (by simp [hw])
  · exact hhalt.light.trans (by simp [hw])
  · simp [endLines, hpru, hw]

theorem capturedIn_of_opened {pos e : Int}
    (h : t.fcu.ctx.get c = some (openedFor s k pos e (decide (t.pru.lock = .locked)))) :
    CapturedIn c k (some e) false t := ⟨_, h, rfl, rfl, rfl, rfl⟩

theorem afterReport_stopped {u : State} (hk : k < 65535) (h : u.trc.state ≠ .scanning) :
    (afterReport k u).pru.expect = none := by
  rw [afterReport, if_neg (by simp only [Config.lastFrame]; omega), if_neg fun hs => h hs.1]
  rfl

/-! ### A plain line, way by way (R72 to R74, R34, R46) -/

/-- The context of another line of the frame has closed INCOMPLETE, as O22 says it. -/
def ClosedOther (s : State) (y : Ctx) (t : State) : Prop :=
  (∃ r : FrameRecord, t.fcu.queue = s.fcu.queue ++ [r] ∧ IncompleteRecord s y r ∧ RecordGraded s t r) ∧
    ListedIncomplete s y t

theorem ClosedIncomplete.closedOther {r : FrameRecord} {c' : CtxId} (h : ClosedIncomplete s c' y r a)
    (hreg : t.reg = a.reg) (hpool : t.sht.pool = a.sht.pool) (hqueue : t.fcu.queue = a.fcu.queue) : ClosedOther s y t :=
  ⟨⟨r, by rw [hqueue, h.fcu], h.record, (recordGraded_of_same rfl rfl hpool).mpr h.graded⟩,
    (listedIncomplete_of_same rfl hreg).mpr h.listed⟩

section
variable (h : AtReport s v x p pk k)
include h

/-- R73, R86, R125: the line is captured. -/
theorem plainLine_captured (hn : s.fcu.nextFrame ≤ k) (hfresh : ∀ c y, s.fcu.ctx.get c = some y → y.frame ≠ k)
    (hc : LowestFree s c) : let t := afterReport k (lineTaken x v)
    t.fcu = { s.fcu with
      ctx := s.fcu.ctx.set c (some (openedFor s k p (p - pk) (decide (t.pru.lock = .locked))))
      newest := c, nextFrame := k + 1, skips := 0 } ∧
    t.dsu = s.dsu.set c ⟨[], s.setting Setting.irThreshold, roundDiv (p - pk) (s.pru.live.pInt / 24), [], 0, false⟩ ∧
    t.sht = { s.sht with acc := s.sht.acc.set c ⟨0, 0⟩ } ∧ t.out = ⟨[.capture k (p - pk)], []⟩ ∧
    Kept [.trc, .pru, .fcu, .dsu, .sht, .alt, .out] s t := by
  intro t
  have ht : t = afterReport k (openCtx c x v) := by rw [← h.lineTaken_opened hn hc hfresh]
  have hkept : Kept [.trc, .pru, .fcu, .dsu, .sht, .alt, .out] s v := h.kept.mono (by simp)
  rw [ht]
  refine ⟨?_, ?_, ?_, ?_, by simpa using hkept⟩
  · rw [afterReport_fcu, h.opened rfl (by rw [h.fcu]), h.fcu, afterReport_lock, openCtx_pru]
  · rw [afterReport_dsu, openCtx_dsu, h.offset, h.kept .dsu (by simp), State.setting, h.cfg, State.setting]
  · rw [afterReport_sht, openCtx_sht, h.kept .sht (by simp)]
  · simp [openCtx_out, h.out, h.frame, h.error]

/-- R74: both contexts are OPEN, and the frame is skipped. -/
theorem plainLine_skipped (hn : s.fcu.nextFrame ≤ k) (hopen : ∀ c, s.fcu.ctx.get c ≠ none) :
    let t := afterReport k (lineTaken x v)
    t.fcu = { s.fcu with nextFrame := k + 1, skips := min 255 (s.fcu.skips + 1) } ∧
    t.rpq = { s.rpq with prev := [], prevFrom := none } ∧ t.out = ⟨[], []⟩ ∧ LatchedWhereRouted .frameSkipped s t ∧
    (∀ j r, s.trc.handle = some j → s.reel j = some r →
      t.reel j = some { r with rescan := addRange r.rescan ⟨k, k⟩ }) ∧
    Kept [.reg, .trc, .pru, .fcu, .rpq, .sht, .alt, .out] s t := by
  intro t
  have ht : t = afterReport k (skipLine k v) := by rw [← h.lineTaken_full hn (freeCtx_of_open hopen)]
  have hkept : Kept [.reg, .trc, .pru, .fcu, .rpq, .sht, .alt, .out] s v := h.kept.mono (by simp)
  rw [ht]
  refine ⟨?_, ?_, ?_, ?_, fun j r hj hr => ?_, by simpa using hkept⟩
  · rw [afterReport_fcu, skipLine_fcu, h.fcu]
  · rw [afterReport_rpq, skipLine_rpq, h.kept .rpq (by simp)]
  · simp [h.out]
  · exact (latchedWhereRouted_of_cfg h.cfg).mp ((latched_skipLine k v).mono (.of_eq (by simp)))
  · rw [afterReport_reel, skipLine_reel]
    refine rescanThreaded_reel (by rw [h.trc]; exact hj) ?_ _
    rwa [State.reel, h.kept .reg (by simp)]

section
variable (hn : s.fcu.nextFrame ≤ k) (hc : LowestFree s c) (hy : s.fcu.ctx.get c.other = some y) (hyk : y.frame = k)
include hn hc hy hyk

/-- R73: the other context closes first. -/
theorem plainLine_reopened (hlen : s.fcu.queue.length + 1 < 30) : let t := afterReport k (lineTaken x v)
    t.fcu.ctx.get c = some (openedFor s k p (p - pk) (decide (t.pru.lock = .locked))) ∧ t.fcu.ctx.get c.other = none ∧
    t.fcu.newest = c ∧ t.fcu.nextFrame = k + 1 ∧ t.fcu.skips = 0 ∧ ClosedOther s y t ∧
    t.out = ⟨[.capture k (p - pk)], []⟩ ∧ t.trc.state = .scanning ∧ Kept lineBlocks s t := by
  intro t
  obtain ⟨r, a, hline, hr, htrc, hpru, hout, hk⟩ := h.lineTaken_reopened hn hc hy hyk (.inl hlen)
  have ht : t = afterReport k (openCtx c x a) := by rw [← hline]
  have hctx : a.fcu.ctx = s.fcu.ctx.set c.other none := by rw [hr.fcu]
  have hopened := h.opened (c := c) htrc (by rw [hr.fcu])
  have hkept := h.wide.trans hk
  rw [ht]
  refine ⟨?_, ?_, ?_, ?_, ?_, hr.closedOther (by simp) (by simp [openCtx_sht]) (by simp [hopened]), ?_, ?_,
    by simpa using hkept⟩
  · simp [hopened, hpru]
  · simp [hopened, Two.get_set, hctx]
  · simp [hopened]
  · simp [hopened]
  · simp [hopened]
  · simp [openCtx_out, hout, h.out, h.frame, h.error]
  · simp [htrc, h.scanning]

/-- R73, R34: the close brings the queue to 30 records. -/
theorem plainLine_held (hk : k < 65535) (hlen : 30 ≤ s.fcu.queue.length + 1) (hp : s.trc.holds.backpressure = false) :
    let t := afterReport k (lineTaken x v)
    ClosedOther s y t ∧ t.fcu.ctx = ⟨none, none⟩ ∧ t.fcu.nextFrame = s.fcu.nextFrame ∧ t.trc.state = .hold ∧
    t.trc.holds = { s.trc.holds with backpressure := true } ∧ t.trc.capstan = 0 ∧ t.pru.expect = none ∧
    LatchedWhereRouted .holdEntered s t ∧ Kept lineBlocks s t := by
  intro t
  obtain ⟨r, hr, hctx, hst, hholds, hcapstan, hentered⟩ := h.lineTaken_held hn hc hy hyk hlen hp
  have hkept := h.wide.trans (lineKept_lineTaken x v).kept
  refine ⟨hr.closedOther (by simp [t]) (by simp [t]) (by simp [t]), ?_, ?_, ?_, ?_, ?_, ?_, ?_, by simpa [t] using hkept⟩
  · rw [afterReport_fcu, hctx]
  · rw [afterReport_fcu, hr.fcu]
  · rw [afterReport_trc, hst]
  · rw [afterReport_trc, hholds]
  · rw [afterReport_trc, hcapstan]
  · exact afterReport_stopped hk (by simp [hst])
  · exact hentered.mono (.of_eq (by simp [t]))

end

end

section
variable (h : AtReport s v x p pk 65535)
include h

/-- R46, R76: FCU has taken the line of frame 65535, and the run ends. -/
theorem plainLine_ends (hpending : s.pru.commitPending = false) : ∃ t,
    afterReport 65535 (frameLimit 65535 (lineTaken x v)) = t ∧ RunEnded (lineTaken x v) t ∧ t.pru.lock = v.pru.lock := by
  have hpru := (lineKept_lineTaken x v).pru
  have hend : RunEnded (lineTaken x v) _ := runEnded (by rw [hpru, h.pru]; exact hpending)
  exact ⟨_, rfl, hend, by rw [hend.pru, hpru]⟩

/-- R76, R46, R32: what the end of the run leaves of the transport and of PRU. -/
theorem plainLine_threaded (hend : RunEnded (lineTaken x v) t) : LatchedWhereRouted .frameLimit s t ∧
    t.trc.state = .threaded ∧ t.trc.spliceQueue = [] ∧ t.trc.holds.operator = false ∧
    t.trc.holds.gateHot = s.trc.holds.gateHot ∧ t.trc.capstan = 0 ∧
    t.trc.holdLight = some (s.setting Setting.holdLightLimit * 1000) ∧
    t.trc.light = (if s.trc.gateHot then 0 else s.setting Setting.lightHold) ∧ t.pru.expect = none ∧
    t.pru.linesOver = true ∧ t.pru.lastLine = some ⟨65535, p, true⟩ ∧ LockStepped (p - pk) s t := by
  have hline := lineKept_lineTaken x v
  have hcfg : (lineTaken x v).cfg = s.cfg := (hline.kept .cfg (by simp)).trans h.cfg
  have hset : ∀ i, (lineTaken x v).setting i = s.setting i := fun i => by rw [State.setting, hcfg, State.setting]
  refine ⟨(latchedWhereRouted_of_cfg hcfg).mp hend.raised, hend.state, hend.spliceQueue, by rw [hend.holds], ?_,
    hend.capstan, ?_, ?_, by rw [hend.pru], by rw [hend.pru], ?_, ?_⟩
  · rw [hend.holds, ← h.holds]
    exact hline.gateHold
  · rw [hend.holdLight, hset]
  · rw [hend.light, hset, hline.gateHot, h.trc]
  · rw [hend.pru, hline.pru, h.pru]
  · refine lockStepped_of_measured (k := 65535) ?_ ?_ <;> rw [← h.measured_eq]
    · rw [hend.pru, hline.pru]
    · exact hline.alerts.trans hend.alerts

section
variable (hend : RunEnded (lineTaken x v) t)
include hend

/-- R72: frame 65535 had been taken before. -/
theorem lastFrame_passed (hn : 65535 < s.fcu.nextFrame) :
    t.fcu = s.fcu ∧ t.trc.holds = { s.trc.holds with operator := false } := by
  rw [hend.same .fcu (by simp), hend.holds, h.lineTaken_below hn, h.fcu, h.holds]
  exact ⟨rfl, rfl⟩

variable (hn : s.fcu.nextFrame ≤ 65535)
include hn

/-- R73, R74: frame 65535 is captured or skipped, and closes no context. -/
theorem lastFrame_taken (hlock : t.pru.lock = v.pru.lock)
    (hfresh : (∀ c y, s.fcu.ctx.get c = some y → y.frame ≠ 65535) ∨ ∀ c, s.fcu.ctx.get c ≠ none) :
    t.fcu.nextFrame = 65536 ∧ t.trc.holds = { s.trc.holds with operator := false } ∧
      ∀ c, LowestFree s c → CapturedIn c 65535 (some (p - pk)) false t := by
  have hfcu : t.fcu = (lineTaken x v).fcu := hend.same .fcu (by simp)
  rw [hend.holds]
  cases hfree : s.fcu.freeCtx with
  | none =>
    rw [h.lineTaken_full hn hfree] at hfcu ⊢
    refine ⟨by rw [hfcu, skipLine_fcu], by rw [skipLine_trc, h.holds], fun c hc => ?_⟩
    exact absurd (freeCtx_of_lowestFree hc) (by simp [hfree])
  | some c =>
    have hc := lowestFree_of_freeCtx hfree
    rw [h.lineTaken_opened hn hc (hfresh.resolve_right fun hopen => hopen c hc.1)] at hfcu ⊢
    rw [h.opened rfl (by rw [h.fcu])] at hfcu
    refine ⟨by rw [hfcu], by rw [openCtx_trc, h.holds], fun c' hc' => ?_⟩
    obtain rfl : c = c' := by simpa [hfree] using freeCtx_of_lowestFree hc'
    exact capturedIn_of_opened (s := s) (pos := p) (by simp [hfcu, hlock])

section
variable (hc : LowestFree s c) (hy : s.fcu.ctx.get c.other = some y) (hyk : y.frame = 65535)
include hc hy hyk

/-- R73: the context still open for frame 65535 closes, and the line opens one. -/
theorem lastFrame_reopened (hlock : t.pru.lock = v.pru.lock)
    (hcalm : s.fcu.queue.length + 1 < 30 ∨ s.trc.holds.backpressure = true) :
    ClosedOther s y t ∧ t.fcu.ctx.get c.other = none ∧ t.fcu.nextFrame = 65536 ∧
      CapturedIn c 65535 (some (p - pk)) false t ∧ t.trc.holds = { s.trc.holds with operator := false } := by
  obtain ⟨r, a, hline, hr, htrc, -, -, -⟩ := h.lineTaken_reopened hn hc hy hyk hcalm
  have hreg : t.reg = (lineTaken x v).reg := hend.same .reg (by simp)
  have hsht : t.sht = (lineTaken x v).sht := hend.same .sht (by simp)
  have hfcu : t.fcu = (lineTaken x v).fcu := hend.same .fcu (by simp)
  have hctx : a.fcu.ctx = s.fcu.ctx.set c.other none := by rw [hr.fcu]
  rw [hend.holds]
  rw [hline] at hreg hsht hfcu ⊢
  rw [h.opened htrc (by rw [hr.fcu])] at hfcu
  refine ⟨hr.closedOther (by simp [hreg]) (by simp [hsht, openCtx_sht]) (by rw [hfcu]), ?_, by rw [hfcu], ?_, ?_⟩
  · simp [hfcu, Two.get_set, hctx]
  · exact capturedIn_of_opened (s := s) (pos := p) (by simp [hfcu, hlock])
  · rw [openCtx_trc, htrc, h.holds]

/-- R73, R34: the close has brought the queue to 30 records, and no context opens. -/
theorem lastFrame_held (hlen : 30 ≤ s.fcu.queue.length + 1) (hp : s.trc.holds.backpressure = false) :
    ClosedOther s y t ∧ t.fcu.ctx = ⟨none, none⟩ ∧ t.fcu.nextFrame = s.fcu.nextFrame ∧
      LatchedWhereRouted .holdEntered s t ∧ t.trc.holds = { s.trc.holds with backpressure := true, operator := false } := by
  obtain ⟨r, hr, hctx, -, hholds, -, hentered⟩ := h.lineTaken_held hn hc hy hyk hlen hp
  have hfcu : t.fcu = (lineTaken x v).fcu := hend.same .fcu (by simp)
  refine ⟨hr.closedOther (hend.same .reg (by simp)) (by rw [hend.same .sht (by simp)]) (by rw [hfcu]),
    by rw [hfcu, hctx], ?_, hentered.mono hend.alerts, by rw [hend.holds, hholds]⟩
  rw [hfcu, hr.fcu]

end

end

end

/-- Settles O22: `exec_plainReport` leads to `lineTaken`, and `plainLine_ends` adds the end of the run at frame 65535. -/
theorem expectedLineIsCaptured : Obligations.ExpectedLineIsCaptured := by
  intro s p pk k hplain hw hlink e opened closedOther
  obtain ⟨v, x, h, hexec⟩ := exec_plainReport hplain hw hlink
  have hbelow : k < 65535 → exec (.frameLine p) s = .next (afterReport k (lineTaken x v)) := fun hk => by
    rw [hexec, frameLimit_below hk]
  refine ⟨fun hk hn hfresh c hc => ⟨_, hbelow hk, plainLine_captured h hn hfresh hc⟩,
    fun hk hn hopen => ⟨_, hbelow hk, plainLine_skipped h hn hopen⟩,
    fun hk hn => ⟨_, hbelow hk, ?_⟩,
    fun hk hn hlen c y hc hy hyk => ⟨_, hbelow hk, plainLine_reopened h hn hc hy hyk hlen⟩,
    fun hk hn hlen hp c y hc hy hyk => ⟨_, hbelow hk, plainLine_held h hn hc hy hyk hk hlen hp⟩, fun hk => ?_⟩
  · rw [h.lineTaken_below hn]
    exact ⟨by simp [h.out], by simpa using h.kept⟩
  · subst hk
    obtain ⟨t, ht, hend, hlock⟩ := plainLine_ends h hplain.2.2.1
    rw [ht] at hexec
    obtain ⟨h1, h2, h3, h4, h5, h6, h7, h8, h9, h10, h11, h12⟩ := plainLine_threaded h hend
    refine ⟨t, hexec, h1, h2, h3, h4, h5, h6, h7, h8, h9, h10, h11, h12, lastFrame_passed h hend,
      fun hn => lastFrame_taken h hend hn hlock, fun hn c y hc hy hyk => ?_,
      (h.wide.trans (lineKept_lineTaken x v).kept).trans (hend.same.mono (by simp))⟩
    by_cases hheld : 30 ≤ s.fcu.queue.length + 1 ∧ s.trc.holds.backpressure = false
    · obtain ⟨hlen, hp⟩ := hheld
      obtain ⟨hclosed, hctx, hnext, hentered, hholds⟩ := lastFrame_held h hend hn hc hy hyk hlen hp
      have hnone : ∀ c' : CtxId, t.fcu.ctx.get c' = none := fun c' => by rw [hctx]; cases c' <;> rfl
      exact ⟨hclosed, hnone _, fun hlt => absurd hlt (by omega), fun _ _ => ⟨hnone c, hnext, hentered, hholds⟩⟩
    · have hcalm : s.fcu.queue.length + 1 < 30 ∨ s.trc.holds.backpressure = true := by
        rw [← Bool.not_eq_false, ← Nat.not_le]
        exact not_and_or.mp hheld
      obtain ⟨hclosed, hother, hrest⟩ := lastFrame_reopened h hend hn hc hy hyk hlock hcalm
      exact ⟨hclosed, hother, fun _ => hrest, fun hlen hp => absurd ⟨hlen, hp⟩ hheld⟩

end Sys2Proof.Machine
end

section
/-! SUPPORT. SHT at the close of a complete frame: density, cut, shot and flicker gain, one after the other (R126 to R134). -/

namespace Sys2Proof.Machine

variable {s t u v : State} {c : CtxId} {h k n f : Nat} {y : Shot} {new splice : Bool} {d : Density}

/-! ### What SHT decides for a complete frame (R126, R129, R130, R134) -/

/-- The density of the frame in context c. -/
def completeDensity (c : CtxId) (s : State) : Density := densityOf true (s.sht.acc.get c) s.sht.previousM

/-- The frame is a cut: a candidate that MIN_SHOT does not suppress (R129, R130). -/
def isCutAt (c : CtxId) (h k : Nat) (new splice : Bool) (s : State) : Bool :=
  s.cutCandidate k new splice (completeDensity c s) && !s.cutSuppressed h k

/-- The flicker reference after the frame (R133). -/
def completeRef (c : CtxId) (h k : Nat) (new splice : Bool) (s : State) : Nat :=
  nextRef s.sht (s.setting Setting.flickerShift) (completeDensity c s) (isCutAt c h k new splice s)

/-- The gain of the frame in a shot with flicker correction on or off (R134). -/
def completeGain (c : CtxId) (h k : Nat) (new splice on : Bool) (s : State) : Nat :=
  flickerGain (completeRef c h k new splice s) (s.setting Setting.flickerMin) (s.setting Setting.flickerMax)
    s.sht.previousF (completeDensity c s) on

/-- R129: a candidate, of a density that is not held. -/
theorem cutCandidate_iff (hd : d.held = false) : s.cutCandidate k new splice d = true ↔
    new = true ∧ 0 < k ∧ s.sht.lastFrame = some (k - 1) ∧
      ∃ m, s.sht.previousM = some m ∧ s.cutThreshold splice ≤ ((d.m : Int) - m).natAbs := by
  unfold State.cutCandidate
  cases s.sht.previousM <;> simp [hd, and_assoc]

/-- R130: the reel's last shot is old enough. -/
theorem cutSuppressed_iff (hy : s.lastShot h = some (n, y)) :
    s.cutSuppressed h k = false ↔ s.setting Setting.minShot ≤ k - y.first := by
  simp [State.cutSuppressed, hy]

/-- The shots once the cut has been taken (R131, R132). -/
def afterCut (c : CtxId) (h k : Nat) (new splice : Bool) (s : State) : State :=
  if isCutAt c h k new splice s then
    match s.freeShot with
    | some f => s.putShot f (detectedShot h k)
    | none => raise .shotsFull s
  else s

theorem afterCut_uncut (hcut : isCutAt c h k new splice s = false) : afterCut c h k new splice s = s := by
  rw [afterCut, if_neg (by simp [hcut])]

theorem afterCut_made (hcut : isCutAt c h k new splice s = true) (hf : s.freeShot = some f) :
    afterCut c h k new splice s = s.putShot f (detectedShot h k) := by
  rw [afterCut, if_pos hcut, hf]

theorem afterCut_lost (hcut : isCutAt c h k new splice s = true) (hf : s.freeShot = none) :
    afterCut c h k new splice s = raise .shotsFull s := by
  rw [afterCut, if_pos hcut, hf]

/-- A cut changes the shots and the alerts alone. -/
theorem afterCut_same (c : CtxId) (h k : Nat) (new splice : Bool) (s : State) :
    (afterCut c h k new splice s).sht = { s.sht with pool := (afterCut c h k new splice s).sht.pool } ∧
      ∀ i, (afterCut c h k new splice s).setting i = s.setting i := by
  unfold afterCut
  split
  · split
    · exact ⟨rfl, fun _ => rfl⟩
    · exact ⟨by simp, fun _ => by simp⟩
  · exact ⟨rfl, fun _ => rfl⟩

/-- R126 to R134, one after the other; o is the shot the frame is assigned to (R128). -/
theorem takeFrame_eq {o : Option (Nat × Shot)} (ho : (afterCut c h k new splice s).shotAt h k = o) :
    takeFrame c h k true new splice s =
      (let t := afterCut c h k new splice s
      let gain := completeGain c h k new splice (o.all (·.2.flicker)) s
      ({ density := completeDensity c s, cut := isCutAt c h k new splice s && s.freeShot.isSome
         cutLost := isCutAt c h k new splice s && s.freeShot.isNone, gain, shot := (o.map (·.1)).getD 0 },
       t.setSht { t.sht with
        previousM := some (completeDensity c s).m, lastFrame := some k
        firstPending := s.sht.firstPending && (completeDensity c s).held, ref16 := completeRef c h k new splice s
        previousF := gain })) := by
  obtain ⟨hsht, hset⟩ := afterCut_same c h k new splice s
  have hnext : ∀ d cut, nextRef (afterCut c h k new splice s).sht (s.setting Setting.flickerShift) d cut =
      nextRef s.sht (s.setting Setting.flickerShift) d cut := fun d cut => by rw [hsht]; rfl
  have hfirst : (afterCut c h k new splice s).sht.firstPending = s.sht.firstPending := by rw [hsht]
  have hprev : (afterCut c h k new splice s).sht.previousF = s.sht.previousF := by rw [hsht]
  rw [completeGain, completeRef, ← hnext, ← hfirst, ← hprev, ← hset, ← hset, ← hset]
  have htaken : takeFrame c h k true new splice s =
      (let t := afterCut c h k new splice s
      let gain := flickerGain
        (nextRef t.sht (t.setting Setting.flickerShift) (completeDensity c s) (isCutAt c h k new splice s))
        (t.setting Setting.flickerMin) (t.setting Setting.flickerMax) t.sht.previousF (completeDensity c s)
        (match t.shotAt h k with
          | some y => y.2.flicker
          | none => true)
      ({ density := completeDensity c s, cut := isCutAt c h k new splice s && s.freeShot.isSome
         cutLost := isCutAt c h k new splice s && s.freeShot.isNone, gain
         shot := match t.shotAt h k with
          | some y => y.1
          | none => 0 },
       t.setSht { t.sht with
        previousM := some (completeDensity c s).m, lastFrame := some k
        firstPending := t.sht.firstPending && (completeDensity c s).held
        ref16 := nextRef t.sht (t.setting Setting.flickerShift) (completeDensity c s) (isCutAt c h k new splice s)
        previousF := gain })) := rfl
  rw [htaken]
  dsimp only
  rw [ho]
  cases o <;> rfl

section
variable (c : CtxId) (h k : Nat) (new splice : Bool) (s : State)

/-- R126, R133: what the frame leaves of SHT, the shots apart. -/
theorem takeFrame_sht : let p := takeFrame c h k true new splice s
    p.1.density = completeDensity c s ∧ p.2.sht = { s.sht with
      pool := p.2.sht.pool, previousM := some (completeDensity c s).m, lastFrame := some k
      firstPending := s.sht.firstPending && (completeDensity c s).held, ref16 := completeRef c h k new splice s
      previousF := p.1.gain } := by
  obtain ⟨hsht, -⟩ := afterCut_same c h k new splice s
  rw [takeFrame_eq rfl]
  refine ⟨rfl, ?_⟩
  dsimp only
  rw [State.setSht_sht, hsht]

/-- R126, R130, R133, R134: a held density makes no cut and keeps the reference and the gain. -/
theorem takeFrame_held (hd : (completeDensity c s).held = true) : let p := takeFrame c h k true new splice s
    p.1.cut = false ∧ p.1.cutLost = false ∧ p.1.gain = s.sht.previousF ∧ completeRef c h k new splice s = s.sht.ref16 ∧
      ∀ n y, s.shotAt h k = some (n, y) → p.1.shot = n := by
  have hcut : isCutAt c h k new splice s = false := by simp [isCutAt, State.cutCandidate, hd]
  rw [takeFrame_eq rfl, afterCut_uncut hcut]
  refine ⟨by simp [hcut], by simp [hcut], by simp [completeGain, flickerGain, hd], by simp [completeRef, nextRef, hd],
    fun n y hy => by simp [hy]⟩

end

/-- R128: no cut. -/
theorem takeFrame_uncut (hcut : isCutAt c h k new splice s = false) (hy : s.shotAt h k = some (n, y)) :
    let p := takeFrame c h k true new splice s
    p.1.cut = false ∧ p.1.cutLost = false ∧ p.1.shot = n ∧ p.1.gain = completeGain c h k new splice y.flicker s ∧
      p.2.sht.pool = s.sht.pool := by
  rw [takeFrame_eq rfl, afterCut_uncut hcut]
  simp [hcut, hy]

/-- R131: the cut's shot takes the lowest-numbered free record and has the frame. -/
theorem takeFrame_made (hcut : isCutAt c h k new splice s = true) (hf : s.freeShot = some f)
    (hy : (s.putShot f (detectedShot h k)).shotAt h k = some (f, detectedShot h k)) :
    let p := takeFrame c h k true new splice s
    p.1.cut = true ∧ p.1.cutLost = false ∧ p.1.shot = f ∧ p.1.gain = completeGain c h k new splice true s ∧
      p.2.sht.pool = s.sht.pool.write f (detectedShot h k) := by
  rw [takeFrame_eq rfl, afterCut_made hcut hf]
  exact ⟨by simp [hcut, hf], by simp [hf], by simp [hy], by simp [hy, show (detectedShot h k).flicker = true from rfl],
    by simp [State.putShot]⟩

/-- R132: no record is free. -/
theorem takeFrame_lost (hcut : isCutAt c h k new splice s = true) (hf : s.freeShot = none)
    (hy : s.shotAt h k = some (n, y)) : let p := takeFrame c h k true new splice s
    p.1.cut = false ∧ p.1.cutLost = true ∧ p.1.shot = n ∧ p.1.gain = completeGain c h k new splice y.flicker s ∧
      LatchedWhereRouted .shotsFull s p.2 := by
  have hraised : (raise .shotsFull s).shotAt h k = some (n, y) := (shotAt_of_same (by simp) (by simp) h k).trans hy
  rw [takeFrame_eq rfl, afterCut_lost hcut hf]
  refine ⟨by simp [hf], by simp [hcut, hf], by simp [hraised], by simp [hraised], ?_⟩
  exact (latched_raise fun _ => rfl).mono (.of_eq rfl)

/-! ### The shot of a cut (R128, R131) -/

/-- R127: the last of a reel's shots by first frame. -/
theorem lastShot_eq_of_above (hw : s.sht.pool.wf = true) (hy : s.sht.pool.read n = some y) (hh : y.handle = h)
    (habove : ∀ m z, s.sht.pool.read m = some z → z.handle = h → m ≠ n → z.first < y.first) :
    s.lastShot h = some (n, y) := by
  have hmem : (n, y) ∈ s.shotsOf h := mem_shotsOf.mpr ⟨Table.mem_of_read hy, hh⟩
  cases hl : s.lastShot h with
  | none =>
    rw [State.lastShot, List.getLast?_eq_none_iff] at hl
    rw [hl] at hmem
    exact absurd hmem (by simp)
  | some e =>
    obtain ⟨m, z⟩ := e
    obtain ⟨hm, hz, hmax⟩ := lastShot_spec hl
    have hread := Table.read_of_mem hw hm
    by_cases hmn : m = n
    · subst hmn
      rw [hread] at hy
      cases hy
      rfl
    · exact absurd (habove m z hread hz hmn) (Nat.not_lt.mpr (hmax _ hmem))

/-- R131, R128: a cut above every shot of its reel becomes the last shot, and the frame is its own. -/
theorem shotAt_putShot (hw : s.sht.pool.wf = true) (hnew : s.frontier h ≤ k) (hlast : s.lastShot h = some (n, y))
    (hy : y.first < k) :
    (s.putShot f (detectedShot h k)).shotAt h k = some (f, detectedShot h k) := by
  have hfront : (s.putShot f (detectedShot h k)).frontier h = s.frontier h := rfl
  obtain ⟨-, -, hmax⟩ := lastShot_spec hlast
  rw [State.shotAt, hfront, if_pos hnew]
  refine lastShot_eq_of_above (Table.wf_write hw _ _) (by simp [State.putShot]) rfl fun m z hm hz hne => ?_
  have hread : s.sht.pool.read m = some z := by simpa [State.putShot, Table.read_write, hne] using hm
  exact Nat.lt_of_le_of_lt (hmax (m, z) (mem_shotsOf.mpr ⟨Table.mem_of_read hread, hz⟩)) hy

end Sys2Proof.Machine
end

section
/-! SUPPORT. The last row closes its context complete (R77, R80 to R82, R96 to R100, R105 to R116). -/

namespace Sys2Proof.Machine

variable {s t u v s3 s4 s5 : State} {c : CtxId} {x : Ctx} {r : FrameRecord} {d : ShotResult} {fd : FrameDamage}
  {frame : BitVec 16} {ir visible : List (BitVec 16)} {h k n f : Nat} {y : Shot}

/-! ### The state SHT finds (R77, R80, step 2) -/

/-- The last row has been handed on, and DSU has closed and handed over its regions. -/
def surveyed (c : CtxId) (x : Ctx) (ir visible : List (BitVec 16)) (s : State) : State :=
  surveyDone c x.handle true (rowHanded c x 23 ir visible (headReport (quiet s)))

/-- The accumulator of context c with the last row's clean cells (R125). -/
def closingAccumulator (c : CtxId) (ir visible : List (BitVec 16)) (s : State) : Accumulator :=
  let clean := (List.range 32).filter (fun j => (s.dsu.get c).threshold ≤ cellAt ir j)
  ⟨(s.sht.acc.get c).sum + (clean.map (cellAt visible)).sum, (s.sht.acc.get c).count + clean.length⟩

theorem kept_surveyed : Kept [.reg, .trc, .fcu, .dsu, .sht, .out] s (surveyed c x ir visible s) := by
  simp [surveyed, rowHanded, State.setCtx]

theorem surveyed_cfg : (surveyed c x ir visible s).cfg = s.cfg := kept_surveyed .cfg (by simp)

theorem surveyed_setting (i : Nat) : (surveyed c x ir visible s).setting i = s.setting i := by
  rw [State.setting, surveyed_cfg, State.setting]

theorem surveyed_sht : (surveyed c x ir visible s).sht =
    { s.sht with acc := s.sht.acc.set c (closingAccumulator c ir visible s) } := by
  have hacc := accumulate_takeRow 23 (s.dsu.get c) ir visible (s.sht.acc.get c)
  simp [surveyed, rowHanded, State.setCtx, closingAccumulator, ← hacc]

theorem surveyed_frontier (n : Nat) : (surveyed c x ir visible s).frontier n = s.frontier n := by
  have hlost : ∀ (a : Nat) (u : State), (addLostArea x.handle a u).frontier n = u.frontier n := fun a u => by
    simp only [addLostArea, State.frontier, State.reel, State.modReel, State.setReg_reg, Table.read_modify]
    by_cases hn : n = x.handle
    · subst hn
      cases u.reg.reels.read x.handle <;> simp
    · simp [hn]
  have hreg : ∀ u : State, u.reg = s.reg → u.frontier n = s.frontier n := fun u hu => frontier_of_reg hu n
  unfold surveyed surveyDone
  rw [if_pos rfl]
  dsimp only
  split
  · rw [hlost]
    exact hreg _ (by simp [rowHanded, State.setCtx])
  · exact hreg _ (by simp [rowHanded, State.setCtx])

theorem surveyed_pool : (surveyed c x ir visible s).sht.pool = s.sht.pool := by rw [surveyed_sht]

theorem surveyed_shotAt (k : Nat) : (surveyed c x ir visible s).shotAt x.handle k = s.shotAt x.handle k :=
  shotAt_of_frontier (surveyed_frontier _) surveyed_pool k

theorem surveyed_density : completeDensity c (surveyed c x ir visible s) =
    densityOf true (closingAccumulator c ir visible s) s.sht.previousM := by
  rw [completeDensity, surveyed_sht]
  simp

/-! ### The close of the last row's frame (R80) -/

/-- What the close at row 23 does, step by step: SHT's result d and state s3, REG's state s4, RPQ's result fd and state s5,
the record r and the state t it leaves. -/
structure FrameClosed (s : State) (frame : BitVec 16) (ir visible : List (BitVec 16)) (c : CtxId) (x : Ctx) (d : ShotResult)
    (s3 s4 : State) (fd : FrameDamage) (s5 : State) (r : FrameRecord) (t : State) : Prop where
  exec : exec (.row frame 23 ir visible) s = .next t
  shots : takeFrame c x.handle x.frame true (!decide (x.frame < s.frontier x.handle)) x.splice
    (surveyed c x ir visible s) = (d, s3)
  damage : recordDamage x.handle x.frame (decide (x.frame < s.frontier x.handle)) x.reanch
    (foundRegions (takeRow 23 ir (s.dsu.get c))) s4 = (fd, s5)
  recorded : r.recorded = fd.recorded
  suppressed : r.suppressed = fd.suppressed
  damageLost : r.damageLost = fd.lost
  rpq : t.rpq = s5.rpq
  reg : t.reg = s5.reg
  sht : t.sht = s5.sht
  alerts : AlertsGrow s5 t
  cut : r.cut = d.cut
  cutLost : r.cutLost = d.cutLost
  shot : r.shot = d.shot
  flicker : r.flicker = d.gain
  density : r.density = d.density.m
  densityHeld : r.densityHeld = d.density.held
  rpq4 : s4.rpq = s.rpq
  cfg3 : s3.cfg = s.cfg
  cfg4 : s4.cfg = s.cfg
  alerts3 : AlertsGrow s s3
  alerts4 : AlertsGrow s3 s4
  pool3 : d.cut = false → s3.sht.pool = s.sht.pool
  sht4 : s4.sht = { s3.sht with pool := s4.sht.pool }
  wf4 : s3.sht.pool.wf = true → s4.sht.pool.wf = true
  free4 : ∀ n, s3.sht.pool.read n = none → s4.sht.pool.read n = none
  shots4 : ∀ n y, s3.sht.pool.read n = some y → s4.sht.pool.read n = some y ∨
    (s4.sht.pool.read n = some { y with state := .editable } ∧
      (y.state = .approved → LatchedWhereRouted .shotReopened s3 s4))
  reel4 : ∀ j, s4.reel j = if j = x.handle then (s.reel j).map (fun r =>
      { r with
        lostArea := if (takeRow 23 ir (s.dsu.get c)).lostArea = 0 then r.lostArea
          else min 65535 (r.lostArea + (takeRow 23 ir (s.dsu.get c)).lostArea)
        frontier := max r.frontier (x.frame + 1), rescan := trimFrame r.rescan x.frame })
    else s.reel j
  fields : r.handle = x.handle ∧ r.frame = x.frame ∧ r.incomplete = false ∧ r.locked = x.locked ∧
    r.lineMissing = x.error.isNone ∧ r.splice = x.splice ∧ r.skipped = x.skipped ∧
    r.error = clampInt (-32767) 32767 (x.error.getD 0) ∧ r.rescan = decide (x.frame < s.frontier x.handle)
  graded : RecordGraded s t r
  regionsFull : r.regionsFull = (takeRow 23 ir (s.dsu.get c)).full
  fcu : t.fcu = { s.fcu with ctx := s.fcu.ctx.set c none, queue := s.fcu.queue ++ [r] }
  dsu : t.dsu = s.dsu.set c (closeRegions (takeRow 23 ir (s.dsu.get c)))
  waiting : s.fcu.queue = [] → LatchedWhereRouted .framesWaiting s t
  kept : Kept lineBlocks s t

theorem frameClosed (h : LastRow s frame ir visible c x) :
    ∃ d s3 s4 fd s5 r t, FrameClosed s frame ir visible c x d s3 s4 fd s5 r t := by
  obtain ⟨t, r, d, s3, s4, fd, s5, hexec, -, hshots, hdamage, ⟨hrec, hsup, hlost, hrpq, hreg, hsht, hal⟩, hcut, hcutLost,
    hshot, hfl, hrpq4, hcfg4, hal3, hal4, hcfg3, hpool3, hsht4, hwf4, hfree4, hshots4, hreel4,
    ⟨h1, h2, h3, h4, h5, h6, h7, h8, h9, hdens, hheld, hgraded, hfull⟩, hfcu, hdsu, hwait⟩ := lastRow_closes h
  have ht := Host.Outcome.next.inj (hexec.symm.trans (exec_lastRow h))
  refine ⟨d, s3, s4, fd, s5, r, t, hexec, hshots, hdamage, hrec, hsup, hlost, hrpq, hreg, hsht, hal, hcut, hcutLost, hshot,
    hfl, hdens, hheld, hrpq4, hcfg3, hcfg4, hal3, hal4, hpool3, hsht4, hwf4, hfree4, hshots4, hreel4,
    ⟨h1, h2, h4, h5, h6, h7, h8, h9, h3⟩, hgraded, hfull, hfcu, hdsu, hwait, ?_⟩
  rw [ht]
  simp [rowHanded, State.setCtx]

namespace FrameClosed

variable (hc : FrameClosed s frame ir visible c x d s3 s4 fd s5 r t)
include hc

/-! ### The record and the reel (R20, R80, R96, R126) -/

theorem queue : t.fcu.queue = s.fcu.queue ++ [r] := by rw [hc.fcu]

/-- R107, R151: after SHT's step the shots change by reopening alone. -/
theorem reopens5 : Reopens s4 s5 := by
  have h := recordDamage_reopens (s := s4) x.handle x.frame (decide (x.frame < s.frontier x.handle)) x.reanch
    (foundRegions (takeRow 23 ir (s.dsu.get c)))
  rwa [hc.damage] at h

/-- R126, R133, R134: SHT after the frame, the shots apart. -/
theorem sht_after : d.density = densityOf true (closingAccumulator c ir visible s) s.sht.previousM ∧ t.sht = { s.sht with
    acc := s.sht.acc.set c (closingAccumulator c ir visible s), pool := t.sht.pool, previousM := some d.density.m
    lastFrame := some x.frame, firstPending := s.sht.firstPending && d.density.held
    ref16 := completeRef c x.handle x.frame (!decide (x.frame < s.frontier x.handle)) x.splice (surveyed c x ir visible s)
    previousF := d.gain } := by
  obtain ⟨hdens, hsht⟩ := takeFrame_sht c x.handle x.frame (!decide (x.frame < s.frontier x.handle)) x.splice
    (surveyed c x ir visible s)
  rw [hc.shots] at hdens hsht
  dsimp only at hdens hsht
  refine ⟨hdens.trans surveyed_density, ?_⟩
  rw [hc.sht, hc.reopens5.2.1, hc.sht4, hsht, ← hdens, surveyed_sht]

/-- R20: the frontier and the rescan list of the frame's reel. -/
theorem reel_scanned {r0 : Reel} (h0 : s.reel x.handle = some r0) : ∃ r', t.reel x.handle = some r' ∧
    r'.frontier = max r0.frontier (x.frame + 1) ∧ r'.rescan = trimFrame r0.rescan x.frame := by
  have hscan := recordDamage_rescan x.handle x.frame (decide (x.frame < s.frontier x.handle)) x.reanch
    (foundRegions (takeRow 23 ir (s.dsu.get c))) s4 x.handle
  rw [hc.damage, hc.reel4, if_pos rfl, h0] at hscan
  obtain ⟨r', hr', he⟩ := Option.map_eq_some_iff.mp hscan
  simp only [reelScan, Prod.mk.injEq] at he
  obtain ⟨hfrontier, hrescan, -⟩ := he
  exact ⟨r', by rw [State.reel, hc.reg]; exact hr', hfrontier, hrescan⟩

/-- R108: the previous-frame region list has been built from the frame. -/
theorem prevFrom : t.rpq.prevFrom = some ⟨x.handle, x.frame⟩ := by
  have h : (recordDamage x.handle x.frame (decide (x.frame < s.frontier x.handle)) x.reanch
      (foundRegions (takeRow 23 ir (s.dsu.get c))) s4).2.rpq.prevFrom = some ⟨x.handle, x.frame⟩ := by
    simp [recordDamage]
  rwa [hc.damage, ← hc.rpq] at h

/-- R126: the frame's own density. -/
theorem dense (h : 384 ≤ (closingAccumulator c ir visible s).count) : d.density =
    ⟨(closingAccumulator c ir visible s).sum / (closingAccumulator c ir visible s).count, false⟩ := by
  rw [hc.sht_after.1, densityOf, if_pos ⟨rfl, h⟩]

/-- R126, R134: a held density. -/
theorem sparse (h : (closingAccumulator c ir visible s).count < 384) :
    r.density = s.sht.previousM.getD 512 ∧ r.densityHeld = true ∧ r.flicker = s.sht.previousF ∧ r.cut = false ∧
      r.cutLost = false ∧ t.sht.ref16 = s.sht.ref16 ∧ t.sht.firstPending = s.sht.firstPending ∧
      ∀ n y, s.shotAt x.handle x.frame = some (n, y) → r.shot = n := by
  obtain ⟨hdens, hsht⟩ := hc.sht_after
  have hd : d.density = ⟨s.sht.previousM.getD 512, true⟩ := by rw [hdens, densityOf, if_neg (by omega)]
  have hheld : (completeDensity c (surveyed c x ir visible s)).held = true := by rw [surveyed_density, ← hdens, hd]
  obtain ⟨hcut, hcutLost, hgain, href, hshot⟩ := takeFrame_held c x.handle x.frame
    (!decide (x.frame < s.frontier x.handle)) x.splice (surveyed c x ir visible s) hheld
  rw [hc.shots] at hcut hcutLost hgain hshot
  rw [surveyed_sht] at hgain
  refine ⟨by rw [hc.density, hd], by rw [hc.densityHeld, hd], by rw [hc.flicker]; exact hgain, by rw [hc.cut]; exact hcut,
    by rw [hc.cutLost]; exact hcutLost, ?_, by rw [hsht, hd]; simp, fun n y hy => ?_⟩
  · rw [hsht, href, surveyed_sht]
  · rw [hc.shot]
    exact hshot n y ((surveyed_shotAt _).trans hy)

/-- R132: what can be said of a reopened or untouched shot once RPQ has taken the frame. -/
theorem pool_read {z : Shot} (h : s3.sht.pool.read f = some z) :
    t.sht.pool.read f = some z ∨ t.sht.pool.read f = some { z with state := .editable } := by
  have h4 : s4.sht.pool.read f = some z ∨ s4.sht.pool.read f = some { z with state := .editable } :=
    (hc.shots4 f z h).imp id And.left
  rw [hc.sht]
  rcases hc.reopens5.2.2 f with e | e <;> rw [e] <;> rcases h4 with h4 | h4 <;> simp [h4]

theorem pool_free_iff (f : Nat) : t.sht.pool.read f = none ↔ s3.sht.pool.read f = none := by
  cases h : s3.sht.pool.read f with
  | none =>
    have h4 := hc.free4 f h
    rw [hc.sht]
    rcases hc.reopens5.2.2 f with e | e <;> simp [e, h4]
  | some z => rcases hc.pool_read h with e | e <;> simp [e]

end FrameClosed

/-! ### The cut of a frame with its own density (R129 to R132) -/

/-- The cut conditions as O29 says them. -/
def CutsAt (s : State) (x : Ctx) (y : Shot) (m : Nat) : Prop :=
  (s.frontier x.handle ≤ x.frame ∧ 0 < x.frame ∧ s.sht.lastFrame = some (x.frame - 1) ∧
    ∃ m', s.sht.previousM = some m' ∧
      (if x.splice then s.setting Setting.cutThreshold / 2 else s.setting Setting.cutThreshold) ≤ ((m : Int) - m').natAbs) ∧
    s.setting Setting.minShot ≤ x.frame - y.first

theorem isCutAt_surveyed_iff {m : Nat} (hd : densityOf true (closingAccumulator c ir visible s) s.sht.previousM = ⟨m, false⟩)
    (hy : s.shotAt x.handle x.frame = some (n, y)) : isCutAt c x.handle x.frame (!decide (x.frame < s.frontier x.handle))
      x.splice (surveyed c x ir visible s) = true ↔ CutsAt s x y m := by
  have hthreshold : (surveyed c x ir visible s).cutThreshold x.splice =
      if x.splice then s.setting Setting.cutThreshold / 2 else s.setting Setting.cutThreshold := by
    simp only [State.cutThreshold, surveyed_setting]
  rw [isCutAt, surveyed_density.trans hd, Bool.and_eq_true, cutCandidate_iff rfl, hthreshold, surveyed_sht]
  by_cases hnew : s.frontier x.handle ≤ x.frame
  · have hlast : (surveyed c x ir visible s).lastShot x.handle = some (n, y) := by
      rw [lastShot_of_pool surveyed_pool]
      rwa [State.shotAt, if_pos hnew] at hy
    simp [cutSuppressed_iff hlast, surveyed_setting, CutsAt, hnew]
  · simp [CutsAt, hnew]

namespace FrameClosed

variable (hc : FrameClosed s frame ir visible c x d s3 s4 fd s5 r t)
include hc

/-- The gain of O29: of a frame of density m under reference `ref` in a shot with flicker correction on or off. -/
theorem gain_eq {m : Nat} (hd : d.density = ⟨m, false⟩) (on : Bool) :
    completeGain c x.handle x.frame (!decide (x.frame < s.frontier x.handle)) x.splice on (surveyed c x ir visible s) =
      if on = false ∨ m < 16 then 4096
      else clampNat (s.setting Setting.flickerMin) (s.setting Setting.flickerMax) ((t.sht.ref16 * 32 + m) / (2 * m)) := by
  obtain ⟨hdens, hsht⟩ := hc.sht_after
  rw [hsht]
  simp only [completeGain, surveyed_density, ← hdens, hd, surveyed_setting, flickerGain, Bool.false_eq_true, if_false]

/-- R133: the reference. -/
theorem ref_eq {m : Nat} (hd : d.density = ⟨m, false⟩) (hy : s.shotAt x.handle x.frame = some (n, y)) :
    (CutsAt s x y m → t.sht.ref16 = m * 256) ∧ (¬CutsAt s x y m → t.sht.ref16 = if s.sht.firstPending then m * 256
      else ((s.sht.ref16 : Int) + (((m * 256 : Nat) : Int) - s.sht.ref16) / 2 ^ s.setting Setting.flickerShift).toNat) := by
  obtain ⟨hdens, hsht⟩ := hc.sht_after
  have hiff := isCutAt_surveyed_iff (c := c) (ir := ir) (visible := visible) (hdens ▸ hd) hy
  rw [hsht]
  have href : ∀ cut, nextRef (surveyed c x ir visible s).sht (s.setting Setting.flickerShift) ⟨m, false⟩ cut =
      if s.sht.firstPending = true ∨ cut = true then m * 256
      else ((s.sht.ref16 : Int) + (((m * 256 : Nat) : Int) - s.sht.ref16) / 2 ^ s.setting Setting.flickerShift).toNat := by
    intro cut
    rw [surveyed_sht]
    rfl
  rw [completeRef, surveyed_density.trans (hdens.symm.trans hd), surveyed_setting, href]
  refine ⟨fun hcut => if_pos (.inr (hiff.mpr hcut)), fun hcut => ?_⟩
  rw [← hiff, Bool.not_eq_true] at hcut
  simp only [hcut, Bool.false_eq_true, or_false]

/-- R128: no cut, and the frame is in its shot. -/
theorem uncut {m : Nat} (hd : d.density = ⟨m, false⟩) (hy : s.shotAt x.handle x.frame = some (n, y))
    (hno : ¬CutsAt s x y m) : r.cut = false ∧ r.cutLost = false ∧ r.shot = n ∧
      r.flicker = (if y.flicker = false ∨ m < 16 then 4096
        else clampNat (s.setting Setting.flickerMin) (s.setting Setting.flickerMax) ((t.sht.ref16 * 32 + m) / (2 * m))) ∧
      ∀ j, t.sht.pool.read j = none ↔ s.sht.pool.read j = none := by
  have hcut := (isCutAt_surveyed_iff (ir := ir) (visible := visible) (c := c) (hc.sht_after.1 ▸ hd) hy).not.mpr hno
  rw [Bool.not_eq_true] at hcut
  obtain ⟨h1, h2, h3, h4, h5⟩ := takeFrame_uncut hcut ((surveyed_shotAt _).trans hy)
  rw [hc.shots] at h1 h2 h3 h4 h5
  rw [hc.cut, hc.cutLost, hc.shot, hc.flicker, ← hc.gain_eq hd]
  refine ⟨h1, h2, h3, h4, fun j => ?_⟩
  rw [hc.pool_free_iff, show s3.sht.pool = _ from h5, surveyed_pool]

/-- R131: the cut's shot. -/
theorem cut_made {m : Nat} (hd : d.density = ⟨m, false⟩) (hy : s.shotAt x.handle x.frame = some (n, y))
    (hcut : CutsAt s x y m) (hw : s.sht.pool.wf = true) (hfirst : y.first < x.frame) (hf : f < 512)
    (hfree : s.sht.pool.read f = none) (hlowest : ∀ j, j < f → s.sht.pool.read j ≠ none) :
    r.cut = true ∧ r.cutLost = false ∧ r.shot = f ∧
      r.flicker = (if true = false ∨ m < 16 then 4096
        else clampNat (s.setting Setting.flickerMin) (s.setting Setting.flickerMax) ((m * 256 * 32 + m) / (2 * m))) ∧
      t.sht.pool.read f = some ⟨x.handle, x.frame, .editable, true, .detected, []⟩ := by
  have hlast : s.lastShot x.handle = some (n, y) := by rwa [State.shotAt, if_pos hcut.1.1] at hy
  have hiscut := (isCutAt_surveyed_iff (ir := ir) (visible := visible) (c := c) (hc.sht_after.1 ▸ hd) hy).mpr hcut
  have hput := shotAt_putShot (s := surveyed c x ir visible s) (f := f) (by rw [surveyed_pool]; exact hw)
    (by rw [surveyed_frontier]; exact hcut.1.1) ((lastShot_of_pool surveyed_pool _).trans hlast) hfirst
  have hfreeShot : (surveyed c x ir visible s).freeShot = some f := by
    rw [State.freeShot, surveyed_pool]
    exact Table.firstFree_eq hf hfree hlowest
  obtain ⟨h1, h2, h3, h4, h5⟩ := takeFrame_made hiscut hfreeShot hput
  rw [hc.shots] at h1 h2 h3 h4 h5
  rw [hc.cut, hc.cutLost, hc.shot, hc.flicker, ← (hc.ref_eq hd hy).1 hcut, ← hc.gain_eq hd]
  refine ⟨h1, h2, h3, h4, ?_⟩
  have hread : s3.sht.pool.read f = some (detectedShot x.handle x.frame) := by
    rw [show s3.sht.pool = _ from h5]
    simp
  exact (hc.pool_read hread).elim id id

/-- R132: no shot record is free, and the cut is lost. -/
theorem cut_lost {m : Nat} (hd : d.density = ⟨m, false⟩) (hy : s.shotAt x.handle x.frame = some (n, y))
    (hcut : CutsAt s x y m) (hfull : ∀ f, f < 512 → s.sht.pool.read f ≠ none) :
    r.cut = false ∧ r.cutLost = true ∧ r.shot = n ∧
      r.flicker = (if y.flicker = false ∨ m < 16 then 4096
        else clampNat (s.setting Setting.flickerMin) (s.setting Setting.flickerMax) ((m * 256 * 32 + m) / (2 * m))) ∧
      LatchedWhereRouted .shotsFull s t := by
  have hiscut := (isCutAt_surveyed_iff (ir := ir) (visible := visible) (c := c) (hc.sht_after.1 ▸ hd) hy).mpr hcut
  have hfreeShot : (surveyed c x ir visible s).freeShot = none := by
    rw [State.freeShot, surveyed_pool]
    exact Table.firstFree_full hfull
  obtain ⟨h1, h2, h3, h4, h5⟩ := takeFrame_lost hiscut hfreeShot ((surveyed_shotAt _).trans hy)
  rw [hc.shots] at h1 h2 h3 h4 h5
  rw [hc.cut, hc.cutLost, hc.shot, hc.flicker, ← (hc.ref_eq hd hy).1 hcut, ← hc.gain_eq hd]
  exact ⟨h1, h2, h3, h4, ((latchedWhereRouted_of_cfg surveyed_cfg).mp h5).mono
    ((hc.alerts4.trans hc.reopens5.1).trans hc.alerts)⟩

end FrameClosed

end Sys2Proof.Machine
end

section
/-! SUPPORT. RPQ at the close of a complete frame: no region, or one of a new frame (R97 to R100, R105 to R116). -/

namespace Sys2Proof.Machine

variable {s t u v w s3 s4 s5 : State} {c : CtxId} {x : Ctx} {r : FrameRecord} {d : ShotResult} {fd acc : FrameDamage}
  {frame : BitVec 16} {ir visible : List (BitVec 16)} {h k n f i : Nat} {y : Shot} {r0 : Reel} {g : Region}
  {cls : DamageClass} {severity : Severity} {film : Box} {e : Found} {work : List PrevRegion}

/-! ### A frame without regions (R108, R109, R116) -/

namespace FrameClosed

variable (hc : FrameClosed s frame ir visible c x d s3 s4 fd s5 r t)
include hc

theorem setting4 (i : Nat) : s4.setting i = s.setting i := by rw [State.setting, hc.cfg4, State.setting]

theorem reel4_own (h0 : s.reel x.handle = some r0) : s4.reel x.handle = some { r0 with
    lostArea := if (takeRow 23 ir (s.dsu.get c)).lostArea = 0 then r0.lostArea
      else min 65535 (r0.lostArea + (takeRow 23 ir (s.dsu.get c)).lostArea)
    frontier := max r0.frontier (x.frame + 1), rescan := trimFrame r0.rescan x.frame } := by
  rw [hc.reel4, if_pos rfl, h0]
  rfl

theorem no_regions (hw : s.rpq.damage.wf = true) (h0 : s.reel x.handle = some r0)
    (hv : (takeRow 23 ir (s.dsu.get c)).regions = []) : r.recorded = 0 ∧ r.suppressed = 0 ∧ r.damageLost = false ∧
      t.rpq.gate = agedGate (s.setting Setting.gateAbsent) s.rpq.gate ∧ t.rpq.prev = [] ∧
      t.rpq.counter = s.rpq.counter ∧ t.rpq.claims = s.rpq.claims ∧
      (∃ r', t.reel x.handle = some r' ∧ r'.lostArea = if (takeRow 23 ir (s.dsu.get c)).lostArea = 0 then r0.lostArea
        else min 65535 (r0.lostArea + (takeRow 23 ir (s.dsu.get c)).lostArea)) ∧
      (s.frontier x.handle ≤ x.frame → t.rpq.damage = s.rpq.damage ∧ t.rpq.closedList = s.rpq.closedList) ∧
      (x.frame < s.frontier x.handle → (∀ i, t.rpq.damage.read i = (s.rpq.damage.read i).map (fun d =>
          if d.handle = x.handle ∧ d.frame = x.frame then d.rescanned else d)) ∧
        ∃ q, t.rpq.closedList = s.rpq.closedList ++ q ∧ q.Nodup ∧ ∀ i, i ∈ q ↔
          ∃ d, s.rpq.damage.read i = some d ∧ d.isQueued = true ∧ d.handle = x.handle ∧ d.frame = x.frame) := by
  obtain ⟨p, hp, hrec, hsup, hlost, htwo⟩ := recordDamage_none (s := s4) x.handle x.frame
    (decide (x.frame < s.frontier x.handle)) x.reanch
  have hfound : foundRegions (takeRow 23 ir (s.dsu.get c)) = [] := by simp [foundRegions, hv]
  have hdamage := hc.damage
  rw [hfound, hp] at hdamage
  rw [hdamage] at hrec hsup hlost htwo
  have hown := hc.reel4_own h0
  have hsame : t.reel x.handle = s5.reel x.handle := by rw [State.reel, hc.reg, State.reel]
  rw [hc.recorded, hc.suppressed, hc.damageLost, hsame, hc.rpq]
  by_cases hre : x.frame < s.frontier x.handle
  · obtain ⟨q, hq, hnodup, hmem, hread⟩ := supersede_rpq (s := s4) (by rw [hc.rpq4]; exact hw) x.handle x.frame
    have harea := supersede_lostArea (s := s4) x.handle x.frame x.handle
    rw [hown] at harea
    simp only [hre, decide_true, if_true, hc.setting4] at htwo
    rw [hc.rpq4] at hq hread hmem
    have hkept : (supersede x.handle x.frame s4).rpq.gate = s.rpq.gate ∧
        (supersede x.handle x.frame s4).rpq.counter = s.rpq.counter ∧
        (supersede x.handle x.frame s4).rpq.claims = s.rpq.claims ∧
        (supersede x.handle x.frame s4).rpq.closedList = s.rpq.closedList ++ q := by
      rw [hq]
      exact ⟨rfl, rfl, rfl, rfl⟩
    obtain ⟨hgate, hcounter, hclaims, hclosed⟩ := hkept
    rw [htwo]
    refine ⟨hrec, hsup, hlost, by simp [hgate], by simp, hcounter, hclaims, ?_, fun hno => absurd hre (by omega),
      fun _ => ⟨hread, q, hclosed, hnodup, hmem⟩⟩
    obtain ⟨r', hr', he⟩ := Option.map_eq_some_iff.mp harea
    exact ⟨r', hr', he⟩
  · simp only [hre, decide_false, Bool.false_eq_true, if_false, hc.setting4] at htwo
    rw [htwo]
    exact ⟨hrec, hsup, hlost, by simp [hc.rpq4], by simp, by simp [hc.rpq4], by simp [hc.rpq4], ⟨_, hown, rfl⟩,
      fun _ => by simp [hc.rpq4], fun hno => absurd hno hre⟩

end FrameClosed

/-! ### A new frame with one region (R97 to R99, R105, R108 to R116) -/

/-- RPQ has taken region e in state s4, which left the counts `acc` and state w; t is what the frame's close leaves. -/
structure RegionTaken (s s4 : State) (x : Ctx) (e : Found) (work : List PrevRegion) (acc : FrameDamage) (w : State)
    (r : FrameRecord) (t : State) : Prop where
  rpq4 : s4.rpq = s.rpq
  cfg4 : s4.cfg = s.cfg
  taken : takeRegion x.handle x.frame (frameStart work, s4) e = (acc, w)
  chain : ∀ len refs, TakesChain s x e.cls e.box len refs → ∃ rest, chainOf e work = (len, refs, rest)
  recorded : r.recorded = acc.recorded
  suppressed : r.suppressed = acc.suppressed
  lost : r.damageLost = acc.lost
  rpq : t.rpq = { w.rpq with
    gate := agedGate (s.setting Setting.gateAbsent) w.rpq.gate, prev := acc.next, prevFrom := some ⟨x.handle, x.frame⟩ }
  reg : t.reg = w.reg
  sht : t.sht = w.sht
  alerts : AlertsGrow w t
  damageLost : acc.lost = true → LatchedWhereRouted .damageLost w t
  gateListFull : acc.refused = true → LatchedWhereRouted .gateListFull w t

theorem latched_raiseIf {a : Event} {b : Bool} (hb : b = true) : LatchedWhereRouted a s (raiseIf b a s) := by
  rw [hb]
  exact latched_raise fun _ => rfl

/-- The region DSU hands over (R97 to R100). -/
theorem foundRegions_one {z : Survey} (hz : z.regions = [(i, g)])
    (hmark : MarkOf g z.offset cls severity film) : ∃ e, foundRegions z = [e] ∧ e.box = g.box ∧ e.area = g.area ∧
      e.depth = g.depth ∧ e.cls = cls ∧ e.severity = severity ∧ e.film = film := by
  obtain ⟨rfl, rfl, rfl⟩ := markOf_eq hmark
  exact ⟨_, by rw [foundRegions, hz]; rfl, rfl, rfl, rfl, rfl, rfl, rfl⟩

theorem FrameClosed.regionTaken (hc : FrameClosed s frame ir visible c x d s3 s4 fd s5 r t)
    (hnew : s.frontier x.handle ≤ x.frame) (he : foundRegions (takeRow 23 ir (s.dsu.get c)) = [e]) :
    ∃ work acc w, RegionTaken s s4 x e work acc w r t := by
  obtain ⟨work, hwork⟩ : ∃ work, work = if (!x.reanch && s4.rpq.prevFrom ==
    (if x.frame = 0 then none else some ⟨x.handle, x.frame - 1⟩) && s4.rpq.prevFrom.isSome) then s4.rpq.prev
    else [] := ⟨_, rfl⟩
  obtain ⟨⟨acc, w⟩, htaken⟩ : ∃ p, takeRegion x.handle x.frame (frameStart work, s4) e = p := ⟨_, rfl⟩
  have hone := recordDamage_one (s := s4) x.handle x.frame x.reanch e
  dsimp only at hone
  rw [← hwork, htaken, hc.setting4] at hone
  have hdamage := hc.damage
  rw [he, decide_eq_false (by omega), hone] at hdamage
  obtain ⟨rfl, hs5⟩ := Prod.mk.inj hdamage
  dsimp only at hs5
  obtain ⟨a, ha⟩ : ∃ a, a = w.setRpq { w.rpq with
      gate := agedGate (s.setting Setting.gateAbsent) w.rpq.gate, prev := acc.next, prevFrom := some ⟨x.handle, x.frame⟩ } :=
    ⟨_, rfl⟩
  rw [← ha] at hs5
  have hcfg : a.cfg = w.cfg := by simp [ha]
  have hgrow : AlertsGrow w a := .of_eq (by simp [ha])
  have hlostGrow : AlertsGrow w (raiseIf acc.lost .damageLost a) := hgrow.raiseIf _ _
  refine ⟨work, acc, w, hc.rpq4, hc.cfg4, htaken, fun len refs hch => ?_, hc.recorded, hc.suppressed, hc.damageLost,
    ?_, ?_, ?_, ?_,
    fun hlost => ?_, fun href => ?_⟩
  · have hchain := takesChain_eq hch
    rw [hwork, hc.rpq4]
    exact hchain
  · rw [hc.rpq, ← hs5]; simp [ha]
  · rw [hc.reg, ← hs5]; simp [ha]
  · rw [hc.sht, ← hs5]; simp [ha]
  · exact (hlostGrow.raiseIf acc.refused .gateListFull).trans (hs5 ▸ hc.alerts)
  · have hraised : LatchedWhereRouted .damageLost w (raiseIf acc.lost .damageLost a) :=
      (latchedWhereRouted_of_cfg hcfg).mp (latched_raiseIf hlost)
    exact (hraised.mono (.raiseIf (.refl _) acc.refused .gateListFull)).mono (hs5 ▸ hc.alerts)
  · have hcfg' : (raiseIf acc.lost .damageLost a).cfg = w.cfg := by simp [hcfg]
    exact ((latchedWhereRouted_of_cfg hcfg').mp (latched_raiseIf href)).mono (hs5 ▸ hc.alerts)

/-- The entry of the next previous-frame list for a recorded or lost region (R108, R113). -/
def nextRegion (e : Found) (len : Nat) (refs : List DamageRef) : List PrevRegion :=
  if e.cls = .scratch then [] else [⟨e.box, e.cls, len, refs⟩]

namespace RegionTaken

variable {older rest : List GateEntry} {a : GateEntry} {len j : Nat} {refs : List DamageRef} {closed : List Nat}
  (hr : RegionTaken s s4 x e work acc w r t)
include hr

theorem setting4 (i : Nat) : s4.setting i = s.setting i := by rw [State.setting, hr.cfg4, State.setting]

/-- R112: the region is suppressed by the first gate-dirt entry it matches. -/
theorem of_hit (hg : s.rpq.gate = older ++ a :: rest) (ho : ∀ b ∈ older, ¬SamePlace e.cls e.box b.cls b.box)
    (ha : SamePlace e.cls e.box a.cls a.box) : r.recorded = 0 ∧ r.suppressed = 1 ∧ r.damageLost = false ∧
      t.rpq = { s.rpq with
        gate := agedGate (s.setting Setting.gateAbsent) (older ++ { a with hit := true } :: rest), prev := []
        prevFrom := some ⟨x.handle, x.frame⟩ } := by
  have htaken := hr.taken.symm.trans (takeRegion_hit work (by rw [hr.rpq4]; exact hg) ho ha)
  obtain ⟨hacc, hw⟩ := Prod.mk.inj htaken
  refine ⟨by rw [hr.recorded, hacc]; rfl, by rw [hr.suppressed, hacc], by rw [hr.lost, hacc]; rfl, ?_⟩
  rw [hr.rpq, hacc, hw, hr.rpq4]
  rfl

/-- R114: the region's chain becomes gate dirt. -/
theorem of_promoted (hcls : e.cls ≠ .scratch) (hg : ∀ b ∈ s.rpq.gate, ¬SamePlace e.cls e.box b.cls b.box)
    (hch : TakesChain s x e.cls e.box len refs) (hp : s.setting Setting.gatePersist ≤ len) (hn : s.rpq.gate.length < 8) :
    r.recorded = 0 ∧ r.suppressed = 1 ∧ r.damageLost = false ∧ LatchedWhereRouted .gateDirt s t ∧
      t.rpq.gate = agedGate (s.setting Setting.gateAbsent) (s.rpq.gate ++ [⟨e.box, e.cls, 0, true⟩]) ∧ t.rpq.prev = [] ∧
      t.rpq.counter = s.rpq.counter ∧
      (∀ j, t.rpq.damage.read j = (s.rpq.damage.read j).map (fun d =>
        if (⟨j, d.seq⟩ : DamageRef) ∈ refs then d.withdrawn else d)) ∧
      ((refs.map (·.index)).Nodup → t.rpq.closedList = s.rpq.closedList ++ (refs.filter (fun a =>
        (s.rpq.damage.read a.index).any (fun d => d.seq == a.seq && d.isQueued))).map (·.index)) := by
  obtain ⟨left, hchain⟩ := hr.chain len refs hch
  have htaken := hr.taken.symm.trans (takeRegion_promoted (s := s4) hcls (by rw [hr.rpq4]; exact hg) hchain
    (by rw [hr.setting4]; exact hp) (by rw [hr.rpq4]; exact hn))
  obtain ⟨hacc, hw⟩ := Prod.mk.inj htaken
  obtain ⟨hrpq, hread, hclosed⟩ := promote_rpq (s := s4) e refs
  rw [← hw, hr.rpq4] at hrpq hread hclosed
  have hkept : w.rpq.gate = s.rpq.gate ++ [⟨e.box, e.cls, 0, true⟩] ∧ w.rpq.counter = s.rpq.counter := by
    rw [hrpq]
    exact ⟨rfl, rfl⟩
  obtain ⟨hgate, hcounter⟩ := hkept
  have hlatched : LatchedWhereRouted .gateDirt s w := (latchedWhereRouted_of_cfg hr.cfg4).mp (hw ▸ promote_latched e refs)
  refine ⟨by rw [hr.recorded, hacc]; rfl, by rw [hr.suppressed, hacc], by rw [hr.lost, hacc]; rfl, hlatched.mono hr.alerts,
    ?_, ?_, ?_, fun j => ?_, fun hnodup => ?_⟩ <;> rw [hr.rpq]
  · rw [hgate]
  · rw [hacc]
    rfl
  · exact hcounter
  · exact hread j
  · exact hclosed hnodup

/-- R115: the region is recorded, or lost: what RPQ makes of the attempt. -/
theorem of_recorded (hg : ∀ b ∈ s.rpq.gate, ¬SamePlace e.cls e.box b.cls b.box)
    (hch : TakesChain s x e.cls e.box len refs)
    (hp : e.cls = .scratch ∨ len < s.setting Setting.gatePersist ∨ 8 ≤ s.rpq.gate.length) : ∃ ref,
      createDamage x.handle x.frame e s4 = (w, ref) ∧ r.recorded = (if ref.isSome then 1 else 0) ∧ r.suppressed = 0 ∧
      r.damageLost = ref.isNone ∧ acc.next = nextRegion e len (ref.elim refs fun a => keepRefs (refs ++ [a])) ∧
      (ref.isNone = true → LatchedWhereRouted .damageLost w t) ∧
      (e.cls ≠ .scratch → s.setting Setting.gatePersist ≤ len → LatchedWhereRouted .gateListFull w t) := by
  obtain ⟨left, hchain⟩ := hr.chain len refs hch
  obtain ⟨work', htaken⟩ := takeRegion_recorded (s := s4) (h := x.handle) (k := x.frame) (by rw [hr.rpq4]; exact hg) hchain
    (by rw [hr.setting4, hr.rpq4]; exact hp)
  have htaken := hr.taken.symm.trans htaken
  obtain ⟨⟨u, ref⟩, hcreate⟩ : ∃ p, createDamage x.handle x.frame e s4 = p := ⟨_, rfl⟩
  simp only [recordRegion, hcreate, frameStart] at htaken
  obtain ⟨hacc, hw⟩ := Prod.mk.inj htaken
  refine ⟨ref, by rw [hw, hcreate], ?_, ?_, ?_, ?_, ?_, ?_⟩
  · rw [hr.recorded, hacc]
    simp
  · rw [hr.suppressed, hacc]
  · rw [hr.lost, hacc]
    simp
  · rw [hacc]
    by_cases hs : e.cls = .scratch
    · simp [nextRegion, hs]
    · cases ref <;> simp [nextRegion, hs]
  · intro hn
    exact hr.damageLost (by rw [hacc]; simpa using hn)
  · intro hs hl
    exact hr.gateListFull (by rw [hacc, hr.setting4]; simpa using ⟨hs, hl⟩)

/-- R105: the region takes an entry and becomes its record. -/
theorem of_made (hg : ∀ b ∈ s.rpq.gate, ¬SamePlace e.cls e.box b.cls b.box)
    (hch : TakesChain s x e.cls e.box len refs)
    (hp : e.cls = .scratch ∨ len < s.setting Setting.gatePersist ∨ 8 ≤ s.rpq.gate.length) (ha : Allocates s j closed) :
    r.recorded = 1 ∧ r.suppressed = 0 ∧ r.damageLost = false ∧
      t.rpq.damage.read j = some (damageOf s x.handle x.frame e) ∧
      (∀ j', j' ≠ j → t.rpq.damage.read j' = s.rpq.damage.read j') ∧ t.rpq.counter = s.rpq.counter + 1 ∧
      t.rpq.closedList = closed ∧ t.rpq.claims = s.rpq.claims ∧
      t.rpq.gate = agedGate (s.setting Setting.gateAbsent) s.rpq.gate ∧
      t.rpq.prev = nextRegion e len (keepRefs (refs ++ [⟨j, s.rpq.counter⟩])) ∧
      (∀ r0, s4.reel x.handle = some r0 → ∃ r', t.reel x.handle = some r' ∧ r'.queued = r0.queued + 1) ∧
      (∀ d o r1, s.rpq.damage.read j = some d → d.state = .closed o → s4.reel d.handle = some r1 →
        ∃ r', t.reel d.handle = some r' ∧ r'.closed = r1.closed - 1) ∧
      (s.repairWaiting = false → LatchedWhereRouted .repairWaiting s t) ∧
      (e.cls ≠ .scratch → s.setting Setting.gatePersist ≤ len → LatchedWhereRouted .gateListFull s t) ∧
      ∃ u, Kept [.reg, .rpq, .alt] s4 u ∧ AlertsGrow s4 u ∧
        (∀ r0, s4.reel x.handle = some r0 → u.frontier x.handle = r0.frontier) ∧
        (e.severity = .major → w = reopenWhere x.handle (fun y => u.shotHas y x.frame) u) := by
  obtain ⟨ref, hcreate, hrec, hsup, hlost, hnext, -, hfull⟩ := hr.of_recorded hg hch hp
  have ha4 : Allocates s4 j closed := by simpa only [Allocates, hr.rpq4] using ha
  obtain ⟨u, hmade, hrpq, hwaiting, hgrow, hkept, hqueued, hclosed⟩ :=
    createDamage_made (s := s4) (h := x.handle) (k := x.frame) (x := e) ha4
  obtain ⟨hw, rfl⟩ := Prod.mk.inj (hcreate.symm.trans hmade)
  have hwu : Kept [.sht, .alt] u w := by
    rw [hw]
    split <;> simp
  have hgrowU : AlertsGrow u w := by
    rw [hw]
    split
    · exact (reopens_reopenWhere ..).1
    · exact .refl _
  have hcfg : w.cfg = s.cfg := ((hwu .cfg (by simp)).trans (hkept .cfg (by simp))).trans hr.cfg4
  have hwrpq : w.rpq = { s.rpq with
      damage := s.rpq.damage.write j (damageOf s x.handle x.frame e), closedList := closed
      counter := s.rpq.counter + 1 } := by
    rw [hwu .rpq (by simp), hrpq]
    simp [hr.rpq4, damageOf]
  have hreel : ∀ n, t.reel n = u.reel n := fun n => by rw [State.reel, hr.reg, hwu .reg (by simp), State.reel]
  have hrepair : s4.repairWaiting = s.repairWaiting := by rw [State.repairWaiting, hr.rpq4, State.repairWaiting]
  refine ⟨by rw [hrec]; rfl, hsup, by rw [hlost]; rfl, ?_, fun j' hj => ?_, ?_, ?_, ?_, ?_, ?_, fun r0 h0 => ?_,
    fun d o r1 hd ho h1 => ?_, fun hno => ?_, fun hs hl => ?_, u, hkept, hgrow, fun r0 h0 => ?_, fun hmajor => ?_⟩
  · rw [hr.rpq, hwrpq]
    simp
  · rw [hr.rpq, hwrpq]
    simp [Table.read_write, hj]
  · rw [hr.rpq, hwrpq]
  · rw [hr.rpq, hwrpq]
  · rw [hr.rpq, hwrpq]
  · rw [hr.rpq, hwrpq]
  · rw [hr.rpq, ← hr.rpq4]
    exact hnext
  · obtain ⟨r', hr', hq, -⟩ := hqueued r0 h0
    exact ⟨r', (hreel _).trans hr', hq⟩
  · obtain ⟨r', hr', hcl⟩ := hclosed d o r1 (by rw [hr.rpq4]; exact hd) ho h1
    exact ⟨r', (hreel _).trans hr', hcl⟩
  · exact ((latchedWhereRouted_of_cfg hr.cfg4).mp (hwaiting (hrepair.trans hno))).mono (hgrowU.trans hr.alerts)
  · exact (latchedWhereRouted_of_cfg hcfg).mp (hfull hs hl)
  · obtain ⟨r', hr', -, hf⟩ := hqueued r0 h0
    rw [State.frontier, hr']
    exact hf
  · rw [hw, if_pos hmajor]

/-- R105: without an entry the region is lost. -/
theorem of_lost (hg : ∀ b ∈ s.rpq.gate, ¬SamePlace e.cls e.box b.cls b.box)
    (hch : TakesChain s x e.cls e.box len refs)
    (hp : e.cls = .scratch ∨ len < s.setting Setting.gatePersist ∨ 8 ≤ s.rpq.gate.length)
    (hfull : ∀ j, j < 1024 → s.rpq.damage.read j ≠ none) (hclosed : s.rpq.closedList = []) :
    r.recorded = 0 ∧ r.suppressed = 0 ∧ r.damageLost = true ∧ LatchedWhereRouted .damageLost s t ∧
      t.rpq.damage = s.rpq.damage ∧ t.rpq.closedList = [] ∧ t.rpq.counter = s.rpq.counter ∧
      t.rpq.gate = agedGate (s.setting Setting.gateAbsent) s.rpq.gate ∧ t.rpq.prev = nextRegion e len refs ∧
      (∀ r0, s4.reel x.handle = some r0 → ∃ r', t.reel x.handle = some r' ∧ r'.lostArea = min 65535 (r0.lostArea + e.area)) ∧
      (e.cls ≠ .scratch → s.setting Setting.gatePersist ≤ len → LatchedWhereRouted .gateListFull s t) := by
  obtain ⟨ref, hcreate, hrec, hsup, hlost, hnext, hraised, hgate⟩ := hr.of_recorded hg hch hp
  rw [createDamage_lost (by rw [hr.rpq4]; exact hfull) (by rw [hr.rpq4]; exact hclosed)] at hcreate
  obtain ⟨hw, rfl⟩ := Prod.mk.inj hcreate
  have hwrpq : w.rpq = s.rpq := by rw [← hw, ← hr.rpq4]; simp [addLostArea]
  have hcfg : w.cfg = s.cfg := by rw [← hw, ← hr.cfg4]; simp [addLostArea]
  refine ⟨hrec, hsup, hlost, (latchedWhereRouted_of_cfg hcfg).mp (hraised rfl), ?_, ?_, ?_, ?_, ?_, fun r0 h0 => ?_,
    fun hs hl => (latchedWhereRouted_of_cfg hcfg).mp (hgate hs hl)⟩
  · rw [hr.rpq, hwrpq]
  · rw [hr.rpq, hwrpq, ← hclosed]
  · rw [hr.rpq, hwrpq]
  · rw [hr.rpq, hwrpq]
  · rw [hr.rpq]
    exact hnext
  · refine ⟨{ r0 with lostArea := min 65535 (r0.lostArea + e.area) }, ?_, rfl⟩
    rw [State.reel, hr.reg, ← hw]
    simp only [addLostArea, State.modReel, State.setReg_reg, Table.read_modify_same]
    exact congrArg _ h0

end RegionTaken

/-! ### A MAJOR record reopens the shot of its frame (R107, R151) -/

namespace FrameClosed

variable (hc : FrameClosed s frame ir visible c x d s3 s4 fd s5 r t)
include hc

/-- R20, R127: without a cut the reel's last shot is the last one still, and no shot starts above it. -/
theorem last_kept (hw : s.sht.pool.wf = true) (hcut : r.cut = false) (hl : s.lastShot h = some (n, y)) :
    s3.sht.pool.read n = some y ∧ ∀ e ∈ s4.shotsOf h, e.2.first ≤ y.first := by
  obtain ⟨hmem, -, hmax⟩ := lastShot_spec hl
  have hpool := hc.pool3 (hc.cut ▸ hcut)
  refine ⟨by rw [hpool]; exact Table.read_of_mem hw hmem, fun e he => ?_⟩
  obtain ⟨he4, hhandle⟩ := mem_shotsOf.mp he
  have hread4 := Table.read_of_mem (hc.wf4 (by rw [hpool]; exact hw)) he4
  cases hread : s3.sht.pool.read e.1 with
  | none =>
    rw [hc.free4 _ hread] at hread4
    cases hread4
  | some z =>
    have hsame : z.handle = e.2.handle ∧ z.first = e.2.first := by
      rcases hc.shots4 _ _ hread with h4 | ⟨h4, -⟩ <;> rw [Option.some.inj (hread4.symm.trans h4)] <;> exact ⟨rfl, rfl⟩
    obtain ⟨hz, hfirst⟩ := hsame
    rw [hpool] at hread
    exact hfirst ▸ hmax (e.1, z) (mem_shotsOf.mpr ⟨Table.mem_of_read hread, hz.trans hhandle⟩)

/-- R107: the APPROVED shot of a MAJOR record's frame is OPEN after the close; REG may have reopened it before. -/
theorem major_reopens (hw : s.sht.pool.wf = true) (hcut : r.cut = false) (hl : s.lastShot x.handle = some (n, y))
    (hy : y.state = .approved) (hle : y.first ≤ x.frame) (hku : Kept [.reg, .rpq, .alt] s4 u) (hgrow : AlertsGrow s4 u)
    (hfrontier : x.frame < u.frontier x.handle) (hwu : w = reopenWhere x.handle (fun y => u.shotHas y x.frame) u)
    (hsht : t.sht = w.sht) (hal : AlertsGrow w t) :
    t.sht.pool.read n = some { y with state := .editable } ∧ LatchedWhereRouted .shotReopened s t := by
  obtain ⟨hread3, hmax⟩ := hc.last_kept hw hcut hl
  obtain ⟨-, hhandle, -⟩ := lastShot_spec hl
  have hpool : u.sht.pool = s4.sht.pool := by rw [hku .sht (by simp)]
  obtain ⟨-, hgrowW, hreads, hraises⟩ := reopenWhere_spec (s := u) x.handle (fun y => u.shotHas y x.frame)
  rw [← hwu] at hgrowW hreads hraises
  obtain ⟨z, hz, hz4⟩ : ∃ z, (z = y ∨ z = { y with state := .editable } ∧ LatchedWhereRouted .shotReopened s3 s4) ∧
      s4.sht.pool.read n = some z := by
    rcases hc.shots4 n y hread3 with h4 | ⟨h4, hraised⟩
    · exact ⟨y, .inl rfl, h4⟩
    · exact ⟨_, .inr ⟨rfl, hraised hy⟩, h4⟩
  have hsame : z.handle = x.handle ∧ z.first = y.first ∧
      ({ z with state := .editable } : Shot) = { y with state := .editable } := by
    rcases hz with rfl | ⟨rfl, -⟩ <;> exact ⟨hhandle, rfl, rfl⟩
  obtain ⟨hzh, hzf, hze⟩ := hsame
  have hmem : (n, z) ∈ u.shotsOf x.handle := mem_shotsOf.mpr ⟨Table.mem_of_read (by rw [hpool]; exact hz4), hzh⟩
  have hhas : u.shotHas z x.frame = true := by
    have hstop : u.shotStop z = u.frontier x.handle := by
      rw [shotStop_last, hzh]
      rw [hzh, shotsOf_of_pool hpool, hzf]
      exact hmax
    simp [State.shotHas, hstop, hfrontier, hzf, hle]
  have hany : ((u.shotsOf x.handle).any fun e => e.1 == n && u.shotHas e.2 x.frame) = true :=
    List.any_eq_true.mpr ⟨(n, z), hmem, by simp [hhas]⟩
  refine ⟨?_, ?_⟩
  · rw [hsht, hreads, hpool, hz4, Option.map_some, if_pos hany, hze]
  · rcases hz with rfl | ⟨-, hraised⟩
    · have hcfg : u.cfg = s.cfg := (hku .cfg (by simp)).trans hc.cfg4
      exact ((latchedWhereRouted_of_cfg hcfg).mp (hraises n z z (by rw [hpool]; exact hz4) hy hmem hhas)).mono hal
    · exact ((latchedWhereRouted_of_cfg hc.cfg3).mp hraised).mono (hgrow.trans (hgrowW.trans hal))

end FrameClosed

/-! ### The region of a new frame, step by step (R97 to R100, R105, R112, R114) -/

namespace FrameClosed

variable (hc : FrameClosed s frame ir visible c x d s3 s4 fd s5 r t)
include hc

theorem reel4_closed {r1 : Reel} (h1 : s.reel n = some r1) : ∃ r', s4.reel n = some r' ∧ r'.closed = r1.closed := by
  rw [hc.reel4]
  by_cases hn : n = x.handle
  · rw [if_pos hn, h1]
    exact ⟨_, rfl, rfl⟩
  · rw [if_neg hn]
    exact ⟨r1, h1, rfl⟩

/-- R97 to R100: DSU hands the region over with its class, its severity and its film box. -/
theorem one_region (hz : (takeRow 23 ir (s.dsu.get c)).regions = [(i, g)]) (hnew : s.frontier x.handle ≤ x.frame)
    (hmark : MarkOf g (s.dsu.get c).offset cls severity film) : ∃ e work acc w, RegionTaken s s4 x e work acc w r t ∧
      e.box = g.box ∧ e.area = g.area ∧ e.depth = g.depth ∧ e.cls = cls ∧ e.severity = severity ∧ e.film = film := by
  obtain ⟨e, he, hfields⟩ := foundRegions_one hz (offset_takeRow 23 ir (s.dsu.get c) ▸ hmark)
  obtain ⟨work, acc, w, hr⟩ := hc.regionTaken hnew he
  exact ⟨e, work, acc, w, hr, hfields⟩

/-- R105, R107: the record of the region, in the entry j that it takes. -/
theorem region_made {j len : Nat} {closed : List Nat} {refs : List DamageRef} (hpool : s.sht.pool.wf = true)
    (h0 : s.reel x.handle = some r0) (hz : (takeRow 23 ir (s.dsu.get c)).regions = [(i, g)])
    (hnew : s.frontier x.handle ≤ x.frame) (hmark : MarkOf g (s.dsu.get c).offset cls severity film)
    (hg : ∀ a ∈ s.rpq.gate, ¬SamePlace cls g.box a.cls a.box) (hch : TakesChain s x cls g.box len refs)
    (hp : cls = .scratch ∨ len < s.setting Setting.gatePersist ∨ 8 ≤ s.rpq.gate.length) (ha : Allocates s j closed) :
    ((Machine.exec (.row frame 23 ir visible) s = .next t ∧ t.fcu.queue = s.fcu.queue ++ [r]) ∧
      r.recorded = 1 ∧ r.suppressed = 0) ∧
      r.damageLost = false ∧ t.rpq.damage.read j = some (newDamage s x g cls severity film) ∧
      (∀ j', j' ≠ j → t.rpq.damage.read j' = s.rpq.damage.read j') ∧ t.rpq.counter = s.rpq.counter + 1 ∧
      t.rpq.closedList = closed ∧ t.rpq.claims = s.rpq.claims ∧
      t.rpq.gate = agedGate (s.setting Setting.gateAbsent) s.rpq.gate ∧
      t.rpq.prev = (if cls = .scratch then [] else [PrevRegion.mk g.box cls len (keepRefs (refs ++ [⟨j, s.rpq.counter⟩]))]) ∧
      (∃ r', t.reel x.handle = some r' ∧ r'.queued = r0.queued + 1) ∧
      (∀ d o r1, s.rpq.damage.read j = some d → d.state = .closed o → s.reel d.handle = some r1 →
        ∃ r', t.reel d.handle = some r' ∧ r'.closed = r1.closed - 1) ∧
      (s.repairWaiting = false → LatchedWhereRouted .repairWaiting s t) ∧
      (cls ≠ .scratch → s.setting Setting.gatePersist ≤ len → LatchedWhereRouted .gateListFull s t) ∧
      (severity = .major → r.cut = false → ∀ n y, s.lastShot x.handle = some (n, y) → y.state = .approved →
        y.first ≤ x.frame →
        t.sht.pool.read n = some { y with state := .editable } ∧ LatchedWhereRouted .shotReopened s t) := by
  obtain ⟨e, work, acc, w, hr, hbox, harea, hdepth, rfl, rfl, rfl⟩ := hc.one_region hz hnew hmark
  rw [← hbox] at hg hch
  obtain ⟨hrec, hsup, hlost, hread, hothers, hcounter, hclosed, hclaims, hgate, hprev, hqueued, hcount, hwaiting, hfull,
    u, hku, hgrow, hfrontier, hmajor⟩ := hr.of_made hg hch hp ha
  refine ⟨⟨⟨hc.exec, hc.queue⟩, hrec, hsup⟩, hlost, ?_, hothers, hcounter, hclosed, hclaims, hgate, ?_, ?_,
    fun d o r1 hd ho h1 => ?_, hwaiting, hfull, fun hsev hcut n y hl hy hle => ?_⟩
  · rw [hread, damageOf, newDamage, harea, hdepth]
  · rw [hprev, nextRegion, hbox]
  · obtain ⟨r', hr', hone⟩ := hqueued _ (hc.reel4_own h0)
    exact ⟨r', hr', hone⟩
  · obtain ⟨r4, h4, hsame⟩ := hc.reel4_closed h1
    rw [← hsame]
    exact hcount d o r4 hd ho h4
  · have habove : x.frame < u.frontier x.handle := by
      rw [hfrontier _ (hc.reel4_own h0)]
      exact Nat.lt_of_lt_of_le (Nat.lt_succ_self _) (Nat.le_max_right ..)
    exact hc.major_reopens hpool hcut hl hy hle hku hgrow habove (hmajor hsev) hr.sht hr.alerts

/-- R105: the region finds no entry, and its cells count for the reel. -/
theorem region_lost {len : Nat} {refs : List DamageRef} (h0 : s.reel x.handle = some r0)
    (hz : (takeRow 23 ir (s.dsu.get c)).regions = [(i, g)]) (hv : (takeRow 23 ir (s.dsu.get c)).lostArea = 0)
    (hnew : s.frontier x.handle ≤ x.frame) (hmark : MarkOf g (s.dsu.get c).offset cls severity film)
    (hg : ∀ a ∈ s.rpq.gate, ¬SamePlace cls g.box a.cls a.box) (hch : TakesChain s x cls g.box len refs)
    (hp : cls = .scratch ∨ len < s.setting Setting.gatePersist ∨ 8 ≤ s.rpq.gate.length)
    (hfull : ∀ j, j < 1024 → s.rpq.damage.read j ≠ none) (hclosed : s.rpq.closedList = []) :
    ((Machine.exec (.row frame 23 ir visible) s = .next t ∧ t.fcu.queue = s.fcu.queue ++ [r]) ∧
      r.recorded = 0 ∧ r.suppressed = 0) ∧
      r.damageLost = true ∧ LatchedWhereRouted .damageLost s t ∧ t.rpq.damage = s.rpq.damage ∧ t.rpq.closedList = [] ∧
      t.rpq.counter = s.rpq.counter ∧ t.rpq.gate = agedGate (s.setting Setting.gateAbsent) s.rpq.gate ∧
      t.rpq.prev = (if cls = .scratch then [] else [⟨g.box, cls, len, refs⟩]) ∧
      (∃ r', t.reel x.handle = some r' ∧ r'.lostArea = min 65535 (r0.lostArea + g.area)) ∧
      (cls ≠ .scratch → s.setting Setting.gatePersist ≤ len → LatchedWhereRouted .gateListFull s t) := by
  obtain ⟨e, work, acc, w, hr, hbox, harea, -, rfl, rfl, rfl⟩ := hc.one_region hz hnew hmark
  rw [← hbox] at hg hch
  obtain ⟨hrec, hsup, hlost, hraised, hdamage, hlist, hcounter, hgate, hprev, hcells, hgateFull⟩ :=
    hr.of_lost hg hch hp hfull hclosed
  obtain ⟨r', hr', hl⟩ := hcells _ (hc.reel4_own h0)
  refine ⟨⟨⟨hc.exec, hc.queue⟩, hrec, hsup⟩, hlost, hraised, hdamage, hlist, hcounter, hgate, ?_, ⟨r', hr', ?_⟩, hgateFull⟩
  · rw [hprev, nextRegion, hbox]
  · rw [hl, ← harea]
    simp only [hv, if_true]

end FrameClosed

/-- Settles O29: `frameClosed` gives the close step by step. Its record, reel and survey are read off first; then the cut of
a frame with its own density (`uncut`, `cut_made`, `cut_lost`); then what RPQ makes of no region (`no_regions`) and of one,
which is gate dirt (`of_hit`, `of_promoted`), a record (`region_made`) or lost (`region_lost`). -/
theorem completeFrameIsRecorded : Obligations.CompleteFrameIsRecorded := by
  intro s frame ir visible c x hrow h k clean sum count closes
  obtain ⟨d, s3, s4, fd, s5, r, t, hc⟩ := frameClosed hrow
  have hcloses : closes t r := ⟨hc.exec, hc.queue⟩
  refine ⟨⟨t, r, hcloses, ?_⟩, fun n y hcanon hdense hy => ?_, fun hcanon r0 h0 => ⟨fun hz => ?_, ?_⟩⟩
  · obtain ⟨hhandle, hframe, hcomplete, hlocked, hmissing, hsplice, hskipped, herror, hrescan⟩ := hc.fields
    obtain ⟨-, hsht⟩ := hc.sht_after
    refine ⟨by rw [hc.fcu], hhandle, hframe, hcomplete, hlocked, hmissing, hsplice, hskipped, herror, hrescan,
      fun hdense => ?_, hc.sparse, hc.graded, ?_, ?_, ?_, hc.waiting, hc.prevFrom, fun r0 h0 => ?_, fun hwf => ?_, hc.kept⟩
    · rw [hc.density, hc.densityHeld, hc.dense hdense]
      exact ⟨rfl, rfl⟩
    · rw [hsht, hc.density]
    · rw [hsht]
    · rw [hsht, hc.flicker]
    · obtain ⟨r', hr', hfrontier, htrim⟩ := hc.reel_scanned h0
      exact ⟨r', hr', hfrontier, htrim, htrim ▸ trimFrame_trimmed r0.rescan k⟩
    · refine ⟨_, (takeRow_surveyed 23 ir hwf).1, hc.regionsFull, ?_⟩
      rw [hc.dsu, Two.get_set_same]
      rfl
  · have hd := hc.dense hdense
    obtain ⟨hcutRef, huncutRef⟩ := hc.ref_eq hd hy
    refine ⟨t, r, hcloses, ?_, fun hno => ?_, hcutRef,
      fun hcut hfirst f hf hfree hlowest => hc.cut_made hd hy hcut hcanon.2.2.1 hfirst hf hfree hlowest,
      fun hcut hfull => hc.cut_lost hd hy hcut hfull⟩
    · rw [hc.sht_after.2, hd, Bool.and_false]
    · obtain ⟨hcut, hcutLost, hshot, hgain, hfree⟩ := hc.uncut hd hy hno
      exact ⟨hcut, hcutLost, hshot, hgain, huncutRef hno, hfree⟩
  · obtain ⟨hrec, hsup, hrest⟩ := hc.no_regions hcanon.2.1 h0 hz
    exact ⟨t, r, ⟨hcloses, hrec, hsup⟩, hrest⟩
  · intro i g cls severity film hz hv hnew hmark
    refine ⟨fun older a rest hg ho ha => ?_, fun len refs hg hch => ⟨fun hcls hp hn => ?_, fun hp =>
      ⟨fun j hj hfree hlowest => ⟨t, r, ?_⟩, fun j rest d o hfull hlist hd ho => ⟨t, r, ?_⟩,
        fun hfull hclosed => ⟨t, r, ?_⟩⟩⟩⟩
    · obtain ⟨e, work, acc, w, hr, hbox, -, -, rfl, -, -⟩ := hc.one_region hz hnew hmark
      rw [← hbox] at ho ha
      obtain ⟨hrec, hsup, hrest⟩ := hr.of_hit hg ho ha
      exact ⟨t, r, ⟨hcloses, hrec, hsup⟩, hrest⟩
    · obtain ⟨e, work, acc, w, hr, hbox, -, -, rfl, -, -⟩ := hc.one_region hz hnew hmark
      rw [← hbox] at hg hch ⊢
      obtain ⟨hrec, hsup, hrest⟩ := hr.of_promoted hcls hg hch hp hn
      exact ⟨t, r, ⟨hcloses, hrec, hsup⟩, hrest⟩
    · exact hc.region_made hcanon.2.2.1 h0 hz hnew hmark hg hch hp (.inl ⟨hj, hfree, hlowest, rfl⟩)
    · exact hc.region_made hcanon.2.2.1 h0 hz hnew hmark hg hch hp (.inr ⟨hfull, hlist, d, o, hd, ho⟩)
    · exact hc.region_lost h0 hz hv hnew hmark hg hch hp hfull hclosed

end Sys2Proof.Machine
end

section
/-! SUPPORT. Claims handed out and back, one record at a time (R118 to R121): the first record of the repair queue, a record
that passes between the port and the queue or closes, and the counts that follow it (R104, R21, R106). -/

namespace Sys2Proof.Machine

variable {s t u v : State}

/-! ### The first of an ordered list -/

section
variable {α : Type} {before : α → α → Bool} {x z : α} {l acc : List α}

/-- What is inserted leaves the first element first, and the first element itself goes to the front. -/
theorem insertBy_eq_cons (hirrefl : before x x = false)
    (hfirst : ∀ y ∈ z :: acc, y ≠ x → before x y = true ∧ before y x = false) (hx : z = x ∨ ∃ rest, acc = x :: rest) :
    ∃ rest, insertBy before z acc = x :: rest := by
  by_cases hz : z = x
  · subst hz
    cases acc with
    | nil => exact ⟨[], rfl⟩
    | cons y acc =>
      by_cases hy : y = z
      · subst hy; exact ⟨insertBy before y acc, by simp [insertBy, hirrefl]⟩
      · exact ⟨y :: acc, by simp [insertBy, (hfirst y (by simp) hy).1]⟩
  · obtain ⟨rest, rfl⟩ := hx.resolve_left hz
    exact ⟨insertBy before z rest, by simp [insertBy, (hfirst z (by simp) hz).2]⟩

theorem foldl_insertBy_eq_cons (hirrefl : before x x = false)
    (hfirst : ∀ y ∈ l ++ acc, y ≠ x → before x y = true ∧ before y x = false) (hx : x ∈ l ∨ ∃ rest, acc = x :: rest) :
    ∃ rest, l.foldl (fun acc z => insertBy before z acc) acc = x :: rest := by
  induction l generalizing acc with
  | nil => exact hx.resolve_left (by simp)
  | cons z l ih =>
    refine ih (fun y hy => hfirst y ?_) ?_
    · simp only [List.mem_append, mem_insertBy, List.mem_cons] at hy ⊢
      tauto
    · by_cases hl : x ∈ l
      · exact .inl hl
      · refine .inr (insertBy_eq_cons hirrefl (fun y hy => hfirst y ?_) ?_)
        · simp only [List.mem_append, List.mem_cons] at hy ⊢
          tauto
        · exact hx.imp_left fun h => ((List.mem_cons.mp h).resolve_right hl).symm

/-- An element that comes before every other one stands first in the ordered list. -/
theorem sortBy_eq_cons (hirrefl : before x x = false)
    (hfirst : ∀ y ∈ l, y ≠ x → before x y = true ∧ before y x = false) (hx : x ∈ l) :
    ∃ rest, sortBy before l = x :: rest :=
  foldl_insertBy_eq_cons hirrefl (by simpa using hfirst) (.inl hx)

end

/-- R118: the QUEUED record that is more severe or older than every other one heads the queue. -/
theorem queueOrder_eq_cons {cond : Damage → Bool} {i : Nat} {d : Damage} (hw : s.rpq.damage.wf = true)
    (hmem : (i, d) ∈ s.rpq.damage) (hq : d.isQueued = true) (hc : cond d = true)
    (hfirst : ∀ j d', (j, d') ∈ s.rpq.damage → d'.isQueued = true → cond d' = true → j ≠ i →
      d'.severity.code < d.severity.code ∨ d'.severity = d.severity ∧ s.age d' < s.age d) :
    ∃ rest, s.queueOrder cond = (i, d) :: rest := by
  refine sortBy_eq_cons ?_ ?_ (List.mem_filter.mpr ⟨hmem, by simp [hq, hc]⟩)
  · simp [State.beforeInQueue]
  · rintro ⟨j, d'⟩ hy hne
    obtain ⟨hy, hcond⟩ := List.mem_filter.mp hy
    obtain ⟨hq', hc'⟩ := Bool.and_eq_true_iff.mp hcond
    have hji : j ≠ i := fun hji => hne (by
      subst hji
      exact congrArg (Prod.mk j) (Option.some.inj ((Table.read_of_mem hw hy).symm.trans (Table.read_of_mem hw hmem))))
    rcases hfirst j d' hy hq' hc' hji with hlt | ⟨hsev, hage⟩
    · have hsev : d'.severity ≠ d.severity := fun h => by rw [h] at hlt; omega
      simp [State.beforeInQueue, hlt, hsev, hlt.le]
    · simp [State.beforeInQueue, hsev, hage, hage.le]

/-! ### One record and its counts (R104, R21, R106) -/

/-- The records of `t` are those of `s` but for entry `i`, which holds `d` now, and the claim counts are those of `s` but for
port `p`, which holds `n` claims now. -/
def OnlyRecord (p : Port) (i : Nat) (d : Damage) (n : Nat) (s t : State) : Prop :=
  t.rpq.damage.read i = some d ∧ (∀ j, j ≠ i → t.rpq.damage.read j = s.rpq.damage.read j) ∧
    t.rpq.claims = s.rpq.claims.set p n

/-- `OnlyRecord` speaks of RPQ alone. -/
theorem OnlyRecord.of_rpq {p : Port} {i n : Nat} {d : Damage} (h : OnlyRecord p i d n s t) (hu : u.rpq = s.rpq)
    (hv : v.rpq = t.rpq) : OnlyRecord p i d n u v := by
  simpa only [OnlyRecord, hu, hv] using h

/-- A record passes to another state, and the counts go with it. -/
theorem moveDamage_spec {i n : Nat} {d : Damage} {r : Reel} {p : Port} {st : DamageState}
    (hd : s.rpq.damage.read i = some d) (hr : s.reel d.handle = some r)
    (hn : claimsUp (claimsDown s.rpq.claims d.state) st = s.rpq.claims.set p n) :
    let t := moveDamage i st s
    OnlyRecord p i { d with state := st } n s t ∧ t.rpq.closedList = s.rpq.closedList ∧
      OnlyReel d.handle ((r.subCount d.state).addCount st) s t := by
  intro t
  have ht : t = (s.setRpq { s.rpq with
      damage := s.rpq.damage.write i { d with state := st }, claims := s.rpq.claims.set p n }).modReel d.handle
      (fun r => (r.subCount d.state).addCount st) := by
    simp only [t, moveDamage, hd, hn]
  rw [ht]
  refine ⟨⟨?_, fun j hj => ?_, rfl⟩, rfl, (OnlyReel.refl hr).modReel _⟩
  · simp
  · simp [Table.read_write, hj]

/-- REG's list takes the range in; the shots it reopens are SHT's (R18, R19). -/
theorem rescanAdd_onlyReel {j : Nat} {r : Reel} (hr : s.reel j = some r) (x : FrameRange) :
    OnlyReel j { r with rescan := addRange r.rescan x } s (rescanAdd j x s) := by
  by_cases hsame : addRange r.rescan x = r.rescan
  · have ht : rescanAdd j x s = s := by simp only [rescanAdd, hr, if_pos hsame]
    rw [ht, hsame]
    exact .refl hr
  · refine (onlyReel_modReel hr fun y => { y with rescan := addRange r.rescan x }).of_reg ?_
    simp only [rescanAdd, hr, if_neg hsame, reopenWhere_reg, raise_reg]

/-- R120: the record closes and joins the closed list; NEEDS_RESCAN lists its frame for a rescan (R19). -/
theorem completeRecord_spec {i : Nat} {d : Damage} {r : Reel} {p : Port} (hd : s.rpq.damage.read i = some d)
    (hp : d.state = .claimed p) (hr : s.reel d.handle = some r) (o : DamageOutcome) :
    let t := completeRecord i d o s
    OnlyRecord p i { d with state := .closed o } (s.rpq.claims.get p - 1) s t ∧
      t.rpq.closedList = s.rpq.closedList ++ [i] ∧
      OnlyReel d.handle { r with
        claimed := r.claimed - 1, closed := r.closed + 1
        rescan := if o = .needsRescan then addRange r.rescan ⟨d.frame, d.frame⟩ else r.rescan } s t ∧
      (o ≠ .needsRescan → t.sht = s.sht ∧ t.alt = s.alt) := by
  intro t
  obtain ⟨hrecord, hclosed, hreel⟩ := moveDamage_spec (st := .closed o) (p := p) (n := s.rpq.claims.get p - 1) hd hr
    (by rw [hp]; rfl)
  rw [hp] at hreel
  have hcloseRpq : (closeDamage o s i).rpq = { (moveDamage i (.closed o) s).rpq with
      closedList := s.rpq.closedList ++ [i] } := by rw [closeDamage, State.setRpq_rpq, hclosed]
  have hcloseReel : OnlyReel d.handle { r with claimed := r.claimed - 1, closed := r.closed + 1 } s (closeDamage o s i) :=
    hreel.of_reg rfl
  have htrpq : t.rpq = (closeDamage o s i).rpq := by simp only [t, completeRecord]; split <;> simp
  refine ⟨?_, by rw [htrpq, hcloseRpq], ?_, fun hno => ?_⟩
  · simpa only [OnlyRecord, htrpq, hcloseRpq] using hrecord
  · by_cases ho : o = .needsRescan
    · simp only [t, completeRecord, if_pos ho]
      exact hcloseReel.trans (rescanAdd_onlyReel hcloseReel.1 _)
    · simp only [t, completeRecord, if_neg ho]
      exact hcloseReel
  · simp [t, completeRecord, hno]

/-! ### CLAIM_NEXT (R119) -/

theorem claimFirst_full {p : Port} (cond : Damage → Bool) (h : 16 ≤ s.rpq.claims.get p) :
    claimFirst p cond s = (s, .only .full) := if_pos h

theorem claimFirst_empty {p : Port} {cond : Damage → Bool} (h : s.rpq.claims.get p < 16)
    (hno : ∀ i d, (i, d) ∈ s.rpq.damage → d.isQueued = true → cond d ≠ true) :
    claimFirst p cond s = (s, .only .none) := by
  have hqueue : s.queueOrder cond = [] := List.eq_nil_iff_forall_not_mem.mpr fun ⟨i, d⟩ hm => by
    obtain ⟨hmem, hcond⟩ := List.mem_filter.mp ((mem_sortBy ..).mp hm)
    obtain ⟨hq, hc⟩ := Bool.and_eq_true_iff.mp hcond
    exact hno i d hmem hq hc
  rw [claimFirst, if_neg (Nat.not_le.mpr h), hqueue]

/-- R119: the head of the queue passes to the port. -/
theorem claimFirst_takes {p : Port} {cond : Damage → Bool} {i : Nat} {d : Damage} {r : Reel}
    {rest : List (Nat × Damage)} (h : s.rpq.claims.get p < 16) (hqueue : s.queueOrder cond = (i, d) :: rest)
    (hd : s.rpq.damage.read i = some d) (hq : d.isQueued = true) (hr : s.reel d.handle = some r) :
    ∃ t, claimFirst p cond s = (t, .ok (Damage.bytes i { d with state := .claimed p })) ∧
      OnlyRecord p i { d with state := .claimed p } (s.rpq.claims.get p + 1) s t ∧
      t.rpq.closedList = s.rpq.closedList ∧
      OnlyReel d.handle { r with queued := r.queued - 1, claimed := r.claimed + 1 } s t ∧ Kept [.reg, .rpq] s t := by
  have hst : d.state = .queued := by simpa [Damage.isQueued] using hq
  obtain ⟨hrecord, hclosed, hreel⟩ := moveDamage_spec (st := .claimed p) (p := p) (n := s.rpq.claims.get p + 1) hd hr
    (by rw [hst]; rfl)
  rw [hst] at hreel
  exact ⟨_, by rw [claimFirst, if_neg (Nat.not_le.mpr h), hqueue], hrecord, hclosed, hreel, by simp⟩

theorem toNat_eq_255 {h : Byte} : h.toNat = 255 ↔ h = 255 :=
  ⟨fun hh => BitVec.eq_of_toNat_eq hh, fun hh => by rw [hh]; rfl⟩

/-- R119, check 1. -/
theorem claimNextBody_denied {p : Port} (hrole : s.role p ≠ .repair) (h : Byte) :
    claimNextBody p h s = (raiseFor p .accessDenied s, .only .denied) := if_pos hrole

/-- R119, check 2. -/
theorem claimNextBody_badArg {p : Port} {h : Byte} (hrole : s.role p = .repair)
    (hno : ¬(h = 255 ∨ h.toNat < 96 ∧ s.reel h.toNat ≠ none)) : claimNextBody p h s = (s, .only .badArg) := by
  obtain ⟨hall, hreel⟩ := not_or.mp hno
  rw [claimNextBody, if_neg (not_not.mpr hrole), if_neg (mt toNat_eq_255.mp hall), withReel]
  by_cases hh : h.toNat < 96
  · rw [if_neg (Nat.not_le.mpr hh), not_not.mp fun hr => hreel ⟨hh, hr⟩]
  · exact if_pos (Nat.not_lt.mp hh)

/-- Past its first two checks CLAIM_NEXT looks among the records of the reel it names, or of all reels. -/
theorem claimNextBody_named {p : Port} {h : Byte} (hrole : s.role p = .repair)
    (hnamed : h = 255 ∨ h.toNat < 96 ∧ s.reel h.toNat ≠ none) :
    ∃ cond : Damage → Bool, claimNextBody p h s = claimFirst p cond s ∧
      ∀ d, cond d = true ↔ h = 255 ∨ d.handle = h.toNat := by
  by_cases hall : h = 255
  · refine ⟨fun _ => true, ?_, by simp [hall]⟩
    rw [claimNextBody, if_neg (not_not.mpr hrole), if_pos (toNat_eq_255.mpr hall)]
  · obtain ⟨hh, hr⟩ := hnamed.resolve_left hall
    obtain ⟨r, hr⟩ := Option.ne_none_iff_exists'.mp hr
    refine ⟨fun d => d.handle == h.toNat, ?_, fun d => by rw [beq_iff_eq, or_iff_right hall]⟩
    rw [claimNextBody, if_neg (not_not.mpr hrole), if_neg (mt toNat_eq_255.mp hall), withReel_reel hh hr]

/-! ### COMPLETE, RELEASE_CLAIM, RELEASE_ALL (R120, R121) -/

theorem claimedRecord_eq_some {p : Port} {i : Nat} {d : Damage} {seq : BitVec 32} (hd : s.rpq.damage.read i = some d)
    (hseq : d.seq = seq) (hp : d.state = .claimed p) : s.claimedRecord p i seq = some d := by
  simp [State.claimedRecord, Damage.claimedBy, hd, hseq, hp]

theorem claimedRecord_eq_none {p : Port} {i : Nat} {seq : BitVec 32}
    (hno : ∀ d, s.rpq.damage.read i = some d → d.seq = seq → d.state ≠ .claimed p) : s.claimedRecord p i seq = none := by
  unfold State.claimedRecord
  split
  · next d hd => exact if_neg fun ⟨hseq, hp⟩ => hno d hd hseq (by simpa [Damage.claimedBy] using hp)
  · rfl

theorem completeBody_of_claimed {p : Port} {a : CompleteArgs} {o : DamageOutcome} {d : Damage}
    (ho : DamageOutcome.ofCode a.outcome.toNat = some o) (hi : a.index.toNat < 1024)
    (hc : s.claimedRecord p a.index.toNat a.seq = some d) :
    completeBody p a s = (completeRecord a.index.toNat d o s, .ok []) := by
  simp [completeBody, ho, hc, Config.damage, hi]

theorem completeBody_refused {p : Port} {a : CompleteArgs} {o : DamageOutcome}
    (ho : DamageOutcome.ofCode a.outcome.toNat = some o) (hi : a.index.toNat < 1024)
    (hc : s.claimedRecord p a.index.toNat a.seq = none) : completeBody p a s = (s, .only .state) := by
  simp [completeBody, ho, hc, Config.damage, hi]

theorem releaseClaimBody_of_claimed {p : Port} {a : ClaimArgs} {d : Damage} (hi : a.index.toNat < 1024)
    (hc : s.claimedRecord p a.index.toNat a.seq = some d) : releaseClaimBody p a s =
      (raiseIf (!s.repairWaiting) .repairWaiting (moveDamage a.index.toNat .queued s), .ok []) := by
  simp [releaseClaimBody, hc, Config.damage, hi]

theorem releaseClaimBody_refused {p : Port} {a : ClaimArgs} (hi : a.index.toNat < 1024)
    (hc : s.claimedRecord p a.index.toNat a.seq = none) : releaseClaimBody p a s = (s, .only .state) := by
  simp [releaseClaimBody, hc, Config.damage, hi]

theorem repairWaiting_of_rpq (h : t.rpq = s.rpq) : t.repairWaiting = s.repairWaiting := by
  rw [State.repairWaiting, h, State.repairWaiting]

/-- R121: the record is QUEUED again, and REPAIR_WAITING is raised when none was (R108). -/
theorem releaseClaim_spec {i : Nat} {d : Damage} {r : Reel} {p : Port} (hd : s.rpq.damage.read i = some d)
    (hp : d.state = .claimed p) (hr : s.reel d.handle = some r) :
    let t := raiseIf (!s.repairWaiting) .repairWaiting (moveDamage i .queued s)
    OnlyRecord p i { d with state := .queued } (s.rpq.claims.get p - 1) s t ∧ t.rpq.closedList = s.rpq.closedList ∧
      OnlyReel d.handle { r with claimed := r.claimed - 1, queued := r.queued + 1 } s t ∧
      Latches (if s.repairWaiting then [] else [.repairWaiting]) s t := by
  intro t
  obtain ⟨hrecord, hclosed, hreel⟩ := moveDamage_spec (st := .queued) (p := p) (n := s.rpq.claims.get p - 1) hd hr
    (by rw [hp]; rfl)
  rw [hp] at hreel
  have hrpq : t.rpq = (moveDamage i .queued s).rpq := raiseIf_rpq ..
  have hlatches : Latches (if !s.repairWaiting then [.repairWaiting] else []) s t :=
    (Latches.nil (moveDamage_alt ..)).trans (.raiseIf _ _) (moveDamage_cfg ..)
  refine ⟨hrecord.of_rpq rfl hrpq, hrpq ▸ hclosed, hreel.of_reg (raiseIf_reg ..), ?_⟩
  cases hw : s.repairWaiting <;> simpa [hw] using hlatches

theorem length_damageBySeq_eq (cond : Damage → Bool) (s : State) :
    (s.damageBySeq cond).length = (s.rpq.damage.filter (fun e => cond e.2)).length := by
  rw [State.damageBySeq, List.length_map, (perm_sortBy _ _).length_eq]

/-- `ClaimsReleased` speaks of RPQ and of REG's reels alone. -/
theorem ClaimsReleased.of_same {p : Port} {a b : State} (h : ClaimsReleased p s t) (ha : a.rpq = s.rpq)
    (har : ∀ j, a.reel j = s.reel j) (hb : b.rpq = t.rpq) (hbr : ∀ j, b.reel j = t.reel j) : ClaimsReleased p a b := by
  simpa only [ClaimsReleased, ha, har, hb, hbr] using h

/-- R121: RELEASE_ALL gives every claim of the port back, and the count of them is its answer. -/
theorem releaseAllBody_spec (p : Port) (hw : s.rpq.damage.wf = true) :
    ∃ t, releaseAllBody p s = (t, .ok (u8 (s.rpq.damage.filter (fun e => e.2.claimedBy p)).length)) ∧
      ClaimsReleased p s t ∧ t.reg.confirm = s.reg.confirm ∧
      Latches (if releaseRaises p s then [.repairWaiting] else []) s t ∧ Kept [.reg, .rpq, .alt] s t := by
  obtain ⟨v, hv, hreleased, halt, hcfg, hconfirm⟩ := releaseClaims_spec p hw
  have hreg : (releaseClaims p s).reg = v.reg := by rw [hv, raiseIf_reg]
  refine ⟨releaseClaims p s, by rw [releaseAllBody, length_damageBySeq_eq],
    hreleased.of_same rfl (fun _ => rfl) (by rw [hv, raiseIf_rpq]) (fun j => by rw [State.reel, hreg, State.reel]),
    hreg ▸ hconfirm, ?_, by simp⟩
  rw [hv]
  exact (Latches.nil halt).trans (.raiseIf _ _) hcfg

/-- Settles O51: each body on the state that arrives, which has the records, the reels and the roles of `s`. -/
theorem claimsAreHandedOutAndBack : Obligations.ClaimsAreHandedOutAndBack := by
  intro rq s hserved hcanonical u refused held onlyRecord
  have hw : s.rpq.damage.wf = true := hcanonical.2.1
  have hrpq : u.rpq = s.rpq := arrive_rpq _
  have hreel : ∀ {j r}, s.reel j = some r → u.reel j = some r := fun h => (arrive_reel ..).trans h
  have hread : ∀ {i d}, s.rpq.damage.read i = some d → u.rpq.damage.read i = some d := fun h => by rw [hrpq, h]
  have hrole : u.role rq.port = s.role rq.port := by simp [u, State.role]
  have hrecord : ∀ {i d n t}, OnlyRecord rq.port i d n u t → onlyRecord i d n t := fun h => h.of_rpq hrpq.symm rfl
  have hunheld : ∀ {i seq}, (∀ d, s.rpq.damage.read i = some d → d.seq = seq → d.state ≠ .claimed rq.port) →
      u.claimedRecord rq.port i seq = none := fun hno => claimedRecord_eq_none (by rw [hrpq]; exact hno)
  refine ⟨fun h => ?_, fun a o ho hi => ?_, fun a hi => ?_, ?_⟩
  · intro c named offered
    have hnamed : named ↔ h = 255 ∨ h.toNat < 96 ∧ u.reel h.toNat ≠ none := by simp [named, u]
    have hbody := fun (hr : s.role rq.port = .repair) (hn : named) =>
      claimNextBody_named (s := u) (hrole.trans hr) (hnamed.mp hn)
    refine ⟨fun hr => ?_, fun hr hno => ?_, fun hr hn hfull => ?_, fun hr hn hlt hno => ?_,
      fun hr hn hlt i d r ⟨hmem, hq, hof⟩ hd hfirst => ?_⟩
    · exact exec_of_body rfl hserved (claimNextBody_denied (hrole ▸ hr) h) (by simp) (by simp) rfl
    · exact exec_of_same rfl hserved (claimNextBody_badArg (hrole.trans hr) (mt hnamed.mpr hno))
    · obtain ⟨cond, hcond, -⟩ := hbody hr hn
      exact exec_of_same rfl hserved (hcond.trans (claimFirst_full cond (hrpq ▸ hfull)))
    · obtain ⟨cond, hcond, hiff⟩ := hbody hr hn
      refine exec_of_same rfl hserved (hcond.trans (claimFirst_empty (hrpq ▸ hlt) fun i d hm hq hc => ?_))
      exact hno i d ⟨hrpq ▸ hm, hq, (hiff d).mp hc⟩
    · obtain ⟨cond, hcond, hiff⟩ := hbody hr hn
      obtain ⟨rest, hqueue⟩ := queueOrder_eq_cons (s := u) (hrpq ▸ hw) (hrpq ▸ hmem) hq ((hiff d).mpr hof)
        fun j d' hm' hq' hc' hji => by
          simpa only [State.age, hrpq] using hfirst j d' ⟨hrpq ▸ hm', hq', (hiff d').mp hc'⟩ hji
      obtain ⟨v, hv, hclaimed, hclosed, hcounts, hkept⟩ := claimFirst_takes (p := rq.port) (hrpq ▸ hlt) hqueue
        (hread (Table.read_of_mem hw hmem)) hq (hreel hd)
      rw [hrpq] at hclaimed hclosed
      exact exec_of_body rfl hserved (hcond.trans hv) (by simp) hkept ⟨hrecord hclaimed, hclosed, hcounts⟩
  · intro i
    refine ⟨fun hno => exec_of_same rfl hserved (completeBody_refused ho hi (hunheld hno)),
      fun d r hd hseq hp hr => ?_⟩
    obtain ⟨hclosed, hlist, hcounts, hsame⟩ := completeRecord_spec (hread hd) hp (hreel hr) o
    rw [hrpq] at hclosed hlist
    exact exec_of_body rfl hserved (completeBody_of_claimed ho hi (claimedRecord_eq_some (hread hd) hseq hp)) (by simp)
      (by simp) ⟨hrecord hclosed, hlist, hcounts, fun hno => (hsame hno).imp_left (·.trans (arrive_sht _))⟩
  · intro i
    refine ⟨fun hno => exec_of_same rfl hserved (releaseClaimBody_refused hi (hunheld hno)),
      fun d r hd hseq hp hr => ?_⟩
    obtain ⟨hqueued, hlist, hcounts, hlatches⟩ := releaseClaim_spec (hread hd) hp (hreel hr)
    rw [hrpq] at hqueued hlist
    refine exec_of_body rfl hserved (releaseClaimBody_of_claimed hi (claimedRecord_eq_some (hread hd) hseq hp)) (by simp)
      (by simp) ⟨hrecord hqueued, hlist, hcounts, ?_⟩
    exact repairWaiting_of_rpq hrpq ▸ hlatches
  · intro mine
    obtain ⟨v, hv, hreleased, hconfirm, hlatches, hkept⟩ := releaseAllBody_spec rq.port (s := u) (hrpq ▸ hw)
    have hall : ClaimsReleased rq.port s v :=
      hreleased.of_same hrpq.symm (fun j => (arrive_reel ..).symm) rfl (fun _ => rfl)
    have hraises : releaseRaises rq.port u = releaseRaises rq.port s := by
      rw [releaseRaises, repairWaiting_of_rpq hrpq, hrpq, releaseRaises]
    rw [hraises] at hlatches
    rw [hrpq] at hv
    have ⟨_, htable, hcounts⟩ := hall
    have hlist := congrArg Rpq.closedList htable
    exact exec_of_body rfl hserved hv (by simp) hkept ⟨hall, hlist, hconfirm,
      fun h hh => (hcounts h).trans (by rw [hh]; rfl), fun h r hh => (hcounts h).trans (by rw [hh]; rfl), hlatches⟩

end Sys2Proof.Machine
end

section
/-! SUPPORT. The shot that follows a shot in its reel's list, and the end of a shot's range (R127, R147). -/

namespace Sys2Proof.Machine

variable {s t : State} {x y : Shot}

/-- A shot of the reel starts at the frame. -/
def State.StartsShot (s : State) (h a : Nat) : Prop := ∃ n y, (n, y) ∈ s.sht.pool ∧ y.handle = h ∧ y.first = a

theorem nextShot_eq_none :
    s.nextShot x = none ↔ ∀ m y, (m, y) ∈ s.sht.pool → y.handle = x.handle → y.first ≤ x.first := by
  simp [State.nextShot, mem_shotsOf]

/-- R127: the following shot is one of the reel that starts above, and none of the reel starts between the two. -/
theorem nextShot_spec {m : Nat} (h : s.nextShot x = some (m, y)) :
    ((m, y) ∈ s.sht.pool ∧ y.handle = x.handle) ∧ x.first < y.first ∧
      ∀ a, s.StartsShot x.handle a → x.first < a → y.first ≤ a := by
  obtain ⟨hlt, before, after, hlist, hbefore⟩ := List.find?_eq_some_iff_append.mp h
  have hsorted : (before ++ (m, y) :: after).Pairwise (fun a b => a.2.first ≤ b.2.first) :=
    hlist ▸ sorted_sortBy (fun e : Nat × Shot => e.2.first) _
  have hmem : (m, y) ∈ s.shotsOf x.handle := hlist ▸ List.mem_append_cons_self
  refine ⟨mem_shotsOf.mp hmem, of_decide_eq_true hlt, ?_⟩
  rintro _ ⟨k, z, hz, hhandle, rfl⟩ habove
  have hin : (k, z) ∈ before ++ (m, y) :: after := hlist ▸ mem_shotsOf.mpr ⟨hz, hhandle⟩
  rcases List.mem_append.mp hin with hk | hk
  · simpa [habove] using hbefore _ hk
  · rcases List.mem_cons.mp hk with heq | hk
    · exact (congrArg (·.2.first) heq).ge
    · exact (List.pairwise_cons.mp (List.pairwise_append.mp hsorted).2.1).1 _ hk

/-- R147: the one shot that starts above and before every other one that does so is the following shot. -/
theorem nextShot_eq_some {m : Nat} (hw : s.sht.pool.wf = true) (hmem : (m, y) ∈ s.sht.pool)
    (hhandle : y.handle = x.handle) (habove : x.first < y.first)
    (hfirst : ∀ k z, (k, z) ∈ s.sht.pool → z.handle = x.handle → x.first < z.first → k ≠ m → y.first < z.first) :
    s.nextShot x = some (m, y) := by
  cases hnext : s.nextShot x with
  | none => exact absurd (nextShot_eq_none.mp hnext m y hmem hhandle) (Nat.not_le.mpr habove)
  | some e =>
    obtain ⟨k, z⟩ := e
    obtain ⟨⟨hz, hzh⟩, hzabove, hzfirst⟩ := nextShot_spec hnext
    have hle : z.first ≤ y.first := hzfirst _ ⟨m, y, hmem, hhandle, rfl⟩ habove
    obtain rfl : k = m := by
      by_contra hne
      exact absurd (hfirst k z hz hzh hzabove hne) (Nat.not_lt.mpr hle)
    have hzy : z = y := Option.some.inj ((Table.read_of_mem hw hz).symm.trans (Table.read_of_mem hw hmem))
    rw [hzy]

/-- A range ends by where the reel's shots start and by its frontier. -/
theorem shotStop_of_starts (hf : t.frontier x.handle = s.frontier x.handle)
    (h : ∀ a, t.StartsShot x.handle a ↔ s.StartsShot x.handle a) : t.shotStop x = s.shotStop x := by
  have hnone : ∀ {v : State}, v.nextShot x = none → ∀ a, v.StartsShot x.handle a → a ≤ x.first := by
    rintro v hv _ ⟨m, y, hy, hh, rfl⟩
    exact nextShot_eq_none.mp hv m y hy hh
  unfold State.shotStop
  cases ht : t.nextShot x with
  | none =>
    cases hs : s.nextShot x with
    | none => exact hf
    | some e =>
      obtain ⟨⟨hmem, hh⟩, habove, -⟩ := nextShot_spec hs
      exact absurd (hnone ht _ ((h _).mpr ⟨_, _, hmem, hh, rfl⟩)) (Nat.not_le.mpr habove)
  | some d =>
    obtain ⟨⟨hd, hdh⟩, hdabove, hdfirst⟩ := nextShot_spec ht
    have hdstart := (h _).mp ⟨_, _, hd, hdh, rfl⟩
    cases hs : s.nextShot x with
    | none => exact absurd (hnone hs _ hdstart) (Nat.not_le.mpr hdabove)
    | some e =>
      obtain ⟨⟨he, heh⟩, heabove, hefirst⟩ := nextShot_spec hs
      exact Nat.le_antisymm (hdfirst _ ((h _).mpr ⟨_, _, he, heh, rfl⟩) heabove) (hefirst _ hdstart hdabove)

/-- An edit that keeps handles and first frames moves the end of no range. -/
theorem shotStop_modShot (hw : s.sht.pool.wf = true) (n : Nat) {f : Shot → Shot} (hh : ∀ y, (f y).handle = y.handle)
    (hfirst : ∀ y, (f y).first = y.first) (x : Shot) : (s.modShot n f).shotStop x = s.shotStop x := by
  refine shotStop_of_starts rfl fun a => ?_
  have hpool : ∀ m, (s.modShot n f).sht.pool.read m = if m = n then (s.sht.pool.read n).map f else s.sht.pool.read m :=
    fun m => Table.read_modify _ _ _ _
  constructor
  · rintro ⟨m, z, hz, hzh, hza⟩
    have hread := (hpool m).symm.trans (Table.read_of_mem (Table.wf_modify hw n f) hz)
    by_cases hm : m = n
    · rw [if_pos hm] at hread
      obtain ⟨y, hy, rfl⟩ := Option.map_eq_some_iff.mp hread
      exact ⟨n, y, Table.mem_of_read hy, (hh y).symm.trans hzh, (hfirst y).symm.trans hza⟩
    · rw [if_neg hm] at hread
      exact ⟨m, z, Table.mem_of_read hread, hzh, hza⟩
  · rintro ⟨m, y, hy, hyh, hya⟩
    have hread := Table.read_of_mem hw hy
    by_cases hm : m = n
    · subst hm
      exact ⟨m, f y, Table.mem_of_read (by simp [hpool, hread]), (hh y).trans hyh, (hfirst y).trans hya⟩
    · exact ⟨m, y, Table.mem_of_read ((hpool m).trans ((if_neg hm).trans hread)), hyh, hya⟩

end Sys2Proof.Machine
end

section
/-! SUPPORT. The checks and the edits that GRADE's commands share (R140). -/

namespace Sys2Proof.Machine

variable {s : State} {x : Shot} {n : Nat} {body : Shot → Body}

/-! ### The checks of a shot (R140) -/

theorem withShot_shot (hn : n < 512) (hx : s.sht.pool.read n = some x) : withShot n body s = body x s := by
  simp [withShot, hx, Nat.not_le.mpr hn]

theorem withOpenShot_approved (hn : n < 512) (hx : s.sht.pool.read n = some x) (h : x.state = .approved) :
    withOpenShot n body s = (s, .only .state) := by
  rw [withOpenShot, withShot_shot hn hx, if_pos h, refuse]

theorem withOpenShot_open (hn : n < 512) (hx : s.sht.pool.read n = some x) (h : x.state = .editable) :
    withOpenShot n body s = body x s := by
  rw [withOpenShot, withShot_shot hn hx, if_neg (by simp [h])]

/-! ### One shot record changed -/

theorem onlyShot_modShot (hx : s.sht.pool.read n = some x) (f : Shot → Shot) : OnlyShot n (f x) s (s.modShot n f) := by
  refine ⟨?_, fun j hj => ?_, rfl⟩
  · rw [State.modShot, State.setSht_sht, Table.read_modify_same, hx]; rfl
  · rw [State.modShot, State.setSht_sht, Table.read_modify, if_neg hj]

theorem onlyShot_putShot (n : Nat) (x : Shot) : OnlyShot n x s (s.putShot n x) :=
  ⟨Table.read_write_same .., fun _ hj => (Table.read_write ..).trans (if_neg hj), rfl⟩

theorem OnlyShot.answer {t : State} (h : OnlyShot n x s t) (rq : Rq) (r : Reply) : OnlyShot n x s (answer rq r t) := h

/-- A request whose body edits one shot record and answers. -/
theorem exec_of_modShot {c : Instr} {rq : Rq} {need : Need} {body : Body} {st : Status} {results : List Byte}
    {f : Shot → Shot} (hc : exec c s = .next (serve rq need body s)) (h : Served rq need s)
    (hx : s.sht.pool.read n = some x)
    (hb : body (arrive rq.port s) = ((arrive rq.port s).modShot n f, ⟨st, results⟩)) :
    ∃ t, exec c s = .next t ∧ Answered rq st results [.sht] (arrive rq.port s) t ∧
      OnlyShot n (f x) (arrive rq.port s) t :=
  exec_of_body hc h hb (by simp) (by simp) ((onlyShot_modShot (by rwa [arrive_sht]) f).answer rq _)

end Sys2Proof.Machine
end

section
/-! SUPPORT. SET_BASE, the layers of a shot and its flicker flag (R142 to R145). -/

namespace Sys2Proof.Machine

variable {s : State} {n : BitVec 16} {x : Shot} {l : LayerArgs} {e : Byte} {a : SetLayerArgs}

/-! ### SET_BASE (R142) -/

theorem anyApproved_iff (h : Nat) : (s.shotsOf h).any (fun y => y.2.state == .approved) = true ↔
    ∃ n x, (n, x) ∈ s.sht.pool ∧ x.handle = h ∧ x.state = .approved := by
  simp [mem_shotsOf, and_assoc]

/-- R142, past the checks of the handle. -/
theorem setBaseBody_reel {a : BaseArgs} {r : Reel} (hh : a.handle.toNat < 96) (hr : s.reel a.handle.toNat = some r) :
    setBaseBody a s = if (s.shotsOf a.handle.toNat).any (fun y => y.2.state == .approved) then (s, .only .state)
      else (s.modReel a.handle.toNat (fun r => { r with base := layerOf a.layer }),
        .clamped (layerClamped a.layer) []) :=
  withReel_reel hh hr

/-! ### Operands out of their range, before the shot is looked at (R140, R144, R145) -/

theorem setFlickerBody_badArg (he : 1 < e.toNat) : setFlickerBody ⟨n, e⟩ s = (s, .only .badArg) := by
  rw [setFlickerBody, if_pos he, refuse]

theorem setFlickerBody_shot (he : e.toNat ≤ 1) : setFlickerBody ⟨n, e⟩ = withOpenShot n.toNat fun _ s =>
    (s.modShot n.toNat (fun y => { y with flicker := e.toNat == 1 }), .ok []) :=
  if_neg (Nat.not_lt.mpr he)

theorem setLayerBody_badLevel (hlevel : 6 < a.level.toNat) : setLayerBody a s = (s, .only .badArg) := by
  rw [setLayerBody, if_pos (show Config.layers ≤ a.level.toNat from hlevel), refuse]

theorem setLayerBody_shot (hlevel : a.level.toNat ≤ 6) : setLayerBody a = withOpenShot a.shot.toNat fun x s =>
    if x.stack.length ≤ a.level.toNat then (s, .only .badArg)
    else (s.modShot a.shot.toNat (fun y => { y with stack := y.stack.set a.level.toNat (layerOf a.layer) }),
      .clamped (layerClamped a.layer) []) :=
  if_neg (Nat.not_le.mpr (Nat.lt_succ_of_le hlevel))

/-! ### An OPEN shot's stack and flicker flag (R143, R145) -/

section
variable (hn : n.toNat < 512) (hx : s.sht.pool.read n.toNat = some x) (hopen : x.state = .editable)
include hn hx hopen

theorem pushLayerBody_full (h : 7 ≤ x.stack.length) : pushLayerBody ⟨n, l⟩ s = (s, .only .full) :=
  (withOpenShot_open hn hx hopen).trans (if_pos h)

theorem pushLayerBody_room (h : x.stack.length < 7) : pushLayerBody ⟨n, l⟩ s =
    (s.modShot n.toNat (fun y => { y with stack := y.stack ++ [layerOf l] }),
      .clamped (layerClamped l) (u8 (x.stack.length + 1))) :=
  (withOpenShot_open hn hx hopen).trans (if_neg (Nat.not_le.mpr h))

theorem popLayerBody_empty (h : x.stack = []) : popLayerBody n s = (s, .only .state) :=
  (withOpenShot_open hn hx hopen).trans (if_pos (List.isEmpty_iff.mpr h))

theorem popLayerBody_layer (h : x.stack ≠ []) : popLayerBody n s =
    (s.modShot n.toNat (fun y => { y with stack := y.stack.dropLast }), .ok (u8 (x.stack.length - 1))) :=
  (withOpenShot_open hn hx hopen).trans (if_neg (mt List.isEmpty_iff.mp h))

theorem setFlickerBody_flag (he : e.toNat ≤ 1) : setFlickerBody ⟨n, e⟩ s =
    (s.modShot n.toNat (fun y => { y with flicker := decide (e = 1) }), .ok []) := by
  have hflag : (e.toNat == 1) = decide (e = 1) := by
    rw [Bool.eq_iff_iff, beq_iff_eq, decide_eq_true_iff, ← BitVec.toNat_inj]; rfl
  rw [setFlickerBody_shot he, withOpenShot_open hn hx hopen, hflag]

end

/-- Settles O53: SET_BASE is one reel's record, the others are one shot's record past the STATE check. -/
theorem layerEditsActOnOpenShots : Obligations.LayerEditsActOnOpenShots := by
  unfold Obligations.LayerEditsActOnOpenShots
  intro rq s hserved u refused good
  refine ⟨fun a r hh hr => ?_, fun n x hn hx => ⟨fun happ => ?_, fun hopen => ?_, fun e he => ?_⟩⟩
  · intro locked
    have hru : u.reel a.handle.toNat = some r := (arrive_reel ..).trans hr
    have hbody := setBaseBody_reel hh hru
    have hlocked : (u.shotsOf a.handle.toNat).any (fun y => y.2.state == .approved) = true ↔ locked := by
      rw [arrive_shotsOf]; exact anyApproved_iff _
    exact ⟨fun h => exec_of_same rfl hserved (hbody.trans (if_pos (hlocked.mpr h))),
      fun h => exec_of_body rfl hserved (hbody.trans (if_neg (mt hlocked.mp h))) (by simp) (by simp [u])
        ((onlyReel_modReel hru _).answer rq _)⟩
  all_goals have hxu : u.sht.pool.read n.toNat = some x := by rw [arrive_sht, hx]
  · refine ⟨fun l => exec_of_same rfl hserved (withOpenShot_approved hn hxu happ),
      exec_of_same rfl hserved (withOpenShot_approved hn hxu happ), fun e he => exec_of_same rfl hserved ?_⟩
    exact (congrFun (setFlickerBody_shot he) u).trans (withOpenShot_approved hn hxu happ)
  · exact ⟨fun l h => exec_of_same rfl hserved (pushLayerBody_full hn hxu hopen h),
      fun l h => exec_of_modShot rfl hserved hx (pushLayerBody_room hn hxu hopen h),
      fun h => exec_of_same rfl hserved (popLayerBody_empty hn hxu hopen h),
      fun h => exec_of_modShot rfl hserved hx (popLayerBody_layer hn hxu hopen h),
      fun e he => exec_of_modShot rfl hserved hx (setFlickerBody_flag hn hxu hopen he)⟩
  · exact exec_of_same rfl hserved (setFlickerBody_badArg he)

/-- Settles O54: the level's range is checked before the shot, the level's existence after the STATE check. -/
theorem setLayerOverwritesALevel : Obligations.SetLayerOverwritesALevel := by
  unfold Obligations.SetLayerOverwritesALevel
  intro rq s a x hserved hn hx u c level
  have hxu : u.sht.pool.read a.shot.toNat = some x := by rw [arrive_sht, hx]
  have hbody (h : level ≤ 6) := congrFun (setLayerBody_shot h) u
  refine ⟨fun h => exec_of_same rfl hserved (setLayerBody_badLevel h),
    fun h happ => exec_of_same rfl hserved ((hbody h).trans (withOpenShot_approved hn hxu happ)),
    fun h hopen hlen => exec_of_same rfl hserved
      ((hbody h).trans ((withOpenShot_open hn hxu hopen).trans (if_pos hlen))),
    fun h hopen hlen => ?_⟩
  · obtain ⟨t, ht, hanswer, hshot⟩ := exec_of_modShot (c := c) rfl hserved hx ((hbody h).trans
      ((withOpenShot_open hn hxu hopen).trans (if_neg (Nat.not_le.mpr hlen))))
    exact ⟨t, ht, hanswer, _, hshot, List.length_set, List.getElem?_set_self hlen,
      fun k hk => List.getElem?_set_ne (Ne.symm hk)⟩

end Sys2Proof.Machine
end

section
/-! SUPPORT. SPLIT and MERGE (R146, R147). -/

namespace Sys2Proof.Machine

variable {s : State} {n f : BitVec 16} {x y : Shot}

@[simp] theorem arrive_nextShot (p : Port) (s : State) (x : Shot) : (arrive p s).nextShot x = s.nextShot x := by
  simp [State.nextShot]

/-! ### An OPEN shot split, or merged with the following one (R146, R147) -/

section
variable (hn : n.toNat < 512) (hx : s.sht.pool.read n.toNat = some x) (hopen : x.state = .editable)
include hn hx hopen

theorem splitBody_outside (h : f.toNat ≤ x.first ∨ s.shotStop x ≤ f.toNat) : splitBody ⟨n, f⟩ s = (s, .only .badArg) :=
  (withOpenShot_open hn hx hopen).trans (if_pos h)

theorem splitBody_full (h : x.first < f.toNat ∧ f.toNat < s.shotStop x) (hfull : s.freeShot = none) :
    splitBody ⟨n, f⟩ s = (s, .only .full) := by
  rw [splitBody, withOpenShot_open hn hx hopen, if_neg (by simp only; omega), hfull]

theorem splitBody_free (h : x.first < f.toNat ∧ f.toNat < s.shotStop x) {m : Nat} (hfree : s.freeShot = some m) :
    splitBody ⟨n, f⟩ s = (s.putShot m (splitShot x f.toNat), .ok (u16 m)) := by
  rw [splitBody, withOpenShot_open hn hx hopen, if_neg (by simp only; omega), hfree]

theorem mergeBody_last (h : s.nextShot x = none) : mergeBody n s = (s, .only .state) := by
  rw [mergeBody, withOpenShot_open hn hx hopen, h]

theorem mergeBody_approved {m : Nat} (h : s.nextShot x = some (m, y)) (hy : y.state = .approved) :
    mergeBody n s = (s, .only .state) := by
  rw [mergeBody, withOpenShot_open hn hx hopen, h]
  exact if_pos hy

theorem mergeBody_open {m : Nat} (h : s.nextShot x = some (m, y)) (hy : y.state = .editable) :
    mergeBody n s = (mergeShots n.toNat m s, .ok []) := by
  rw [mergeBody, withOpenShot_open hn hx hopen, h]
  exact if_neg (by simp [hy])

end

/-- R147: the shot is EDITED, the record of the one taken in is free, every other record is as it was. -/
theorem mergeShots_spec {n m : Nat} (hx : s.sht.pool.read n = some x) (hne : n ≠ m) : let t := mergeShots n m s
    t.sht = { s.sht with pool := t.sht.pool } ∧ t.sht.pool.read n = some { x with origin := .edited } ∧
      t.sht.pool.read m = none ∧ ∀ k, k ≠ n → k ≠ m → t.sht.pool.read k = s.sht.pool.read k := by
  intro t
  have hread : ∀ k, t.sht.pool.read k = if k = m then none else
      (s.modShot n fun y => { y with origin := .edited }).sht.pool.read k := fun k => Table.read_erase ..
  obtain ⟨hsame, hothers, -⟩ := onlyShot_modShot hx fun y => { y with origin := .edited }
  exact ⟨rfl, by rw [hread, if_neg hne, hsame], by rw [hread, if_pos rfl],
    fun k hkn hkm => by rw [hread, if_neg hkm, hothers k hkn]⟩

/-- Settles O55: SPLIT is `onlyShot_putShot` of the lowest free record, MERGE is `mergeShots_spec` of the shot that
`nextShot_eq_some` finds. -/
theorem splitAndMergeShots : Obligations.SplitAndMergeShots := by
  unfold Obligations.SplitAndMergeShots
  intro rq s n x hserved hn hx hform u refused following
  have hwf : s.sht.pool.wf = true := hform.2.2.1
  have hpool : u.sht = s.sht := arrive_sht _
  have hxu : u.sht.pool.read n.toNat = some x := by rw [hpool, hx]
  have hstop : u.shotStop x = s.shotStop x := arrive_shotStop ..
  have hnext : u.nextShot x = s.nextShot x := arrive_nextShot ..
  have hfreeShot : u.freeShot = s.sht.pool.firstFree 512 := by rw [State.freeShot, hpool]
  refine ⟨fun happ => ⟨fun f => exec_of_same rfl hserved (withOpenShot_approved hn hxu happ),
      exec_of_same rfl hserved (withOpenShot_approved hn hxu happ)⟩,
    fun hopen => ⟨fun f hf => exec_of_same rfl hserved (splitBody_outside hn hxu hopen (hstop ▸ hf)),
      fun f hlo hhi => ⟨fun hfull => exec_of_same rfl hserved ?_, fun m hm hfree hlow => ?_⟩,
      fun hlast => exec_of_same rfl hserved (mergeBody_last hn hxu hopen (hnext.trans (nextShot_eq_none.mpr hlast))),
      fun m y ⟨hy, hhandle, habove, hfirst⟩ => ?_⟩⟩
  · exact splitBody_full hn hxu hopen ⟨hlo, hstop ▸ hhi⟩ (hfreeShot.trans (Table.firstFree_full hfull))
  · exact exec_of_body rfl hserved
      (splitBody_free hn hxu hopen ⟨hlo, hstop ▸ hhi⟩ (hfreeShot.trans (Table.firstFree_eq hm hfree hlow)))
      (by simp) (by simp [u]) ((onlyShot_putShot m (splitShot x f.toNat)).answer rq _)
  · have hnexty : u.nextShot x = some (m, y) := hnext.trans (nextShot_eq_some hwf hy hhandle habove hfirst)
    refine ⟨fun happ => exec_of_same rfl hserved (mergeBody_approved hn hxu hopen hnexty happ), fun hyopen => ?_⟩
    have hne : n.toNat ≠ m := by
      rintro rfl
      have hxy : x = y := Option.some.inj (hx.symm.trans (Table.read_of_mem hwf hy))
      exact absurd habove (hxy ▸ Nat.lt_irrefl _)
    have hmerged := mergeShots_spec hxu hne
    rw [hpool] at hmerged
    exact exec_of_body rfl hserved (mergeBody_open hn hxu hopen hnexty hyopen) (by simp) (by simp [u]) hmerged

end Sys2Proof.Machine
end

section
/-! SUPPORT. APPROVE and REOPEN (R149, R150). -/

namespace Sys2Proof.Machine

variable {s : State} {n : BitVec 16} {x : Shot}

/-! ### Work in the way of an approval (R149) -/

/-- A list of ranges meets the frames from `lo` to below `stop` when one of them is in the list. -/
theorem rangesMeet_iff (l : List FrameRange) (lo stop : Nat) :
    rangesMeet l lo stop = true ↔ ∃ f, lo ≤ f ∧ f < stop ∧ inRanges l f = true := by
  simp only [rangesMeet, List.any_eq_true, Bool.and_eq_true, decide_eq_true_eq, inRanges_iff]
  constructor
  · rintro ⟨y, hy, hlast, hstop⟩
    exact ⟨max y.first lo, le_max_right .., hstop, y, hy, le_max_left .., hlast⟩
  · rintro ⟨f, hlo, hstop, y, hy, hfirst, hlast⟩
    exact ⟨y, hy, by omega, by omega⟩

theorem openMajor_iff (d : Damage) :
    d.openMajor = true ↔ d.severity = .major ∧ (d.isQueued = true ∨ d.isClaimed = true) := by
  simp [Damage.openMajor]

theorem shotHas_iff (x : Shot) (f : Nat) : s.shotHas x f = true ↔ x.first ≤ f ∧ f < s.shotStop x := by
  simp [State.shotHas]

/-- R149: open MAJOR work or a listed frame in the shot's range. -/
theorem pendingWork_iff {r : Reel} (hr : s.reel x.handle = some r) : s.pendingWork x = true ↔
    (∃ i d, (i, d) ∈ s.rpq.damage ∧ d.handle = x.handle ∧ d.severity = .major ∧
      (d.isQueued = true ∨ d.isClaimed = true) ∧ x.first ≤ d.frame ∧ d.frame < s.shotStop x) ∨
    ∃ f, x.first ≤ f ∧ f < s.shotStop x ∧ inRanges r.rescan f = true := by
  simp only [State.pendingWork, hr, Bool.or_eq_true, rangesMeet_iff, List.any_eq_true, Bool.and_eq_true, beq_iff_eq,
    openMajor_iff, shotHas_iff, Prod.exists, and_assoc]

@[simp] theorem arrive_pendingWork (p : Port) (s : State) (x : Shot) :
    (arrive p s).pendingWork x = s.pendingWork x := by
  simp [State.pendingWork, State.shotHas]

/-- R149, past the checks of the shot. -/
theorem approveBody_shot (hn : n.toNat < 512) (hx : s.sht.pool.read n.toNat = some x) : approveBody n s =
    if x.state = .approved then (s, .only .state) else if s.pendingWork x then (s, .only .pendingWork)
      else (s.modShot n.toNat (fun y => { y with state := .approved }), .ok []) :=
  withShot_shot hn hx

/-- Settles O56: the three branches of APPROVE; `pendingWork_iff` says which work stands in the way. -/
theorem approveNeedsAClearRange : Obligations.ApproveNeedsAClearRange := by
  unfold Obligations.ApproveNeedsAClearRange
  intro rq s n x r hserved hn hx hr u c major listed
  have hxu : u.sht.pool.read n.toNat = some x := by rw [arrive_sht, hx]
  have hbody := approveBody_shot hn hxu
  have hopen : x.state = .editable → x.state ≠ .approved := fun h => by simp [h]
  have hwork : u.pendingWork x = true ↔ major ∨ listed := by rw [arrive_pendingWork]; exact pendingWork_iff hr
  exact ⟨fun h => exec_of_same rfl hserved (hbody.trans (if_pos h)),
    fun h hw => exec_of_same rfl hserved (hbody.trans ((if_neg (hopen h)).trans (if_pos (hwork.mpr hw)))),
    fun h hmajor hlisted => exec_of_modShot rfl hserved hx
      (hbody.trans ((if_neg (hopen h)).trans (if_neg (mt hwork.mp (not_or.mpr ⟨hmajor, hlisted⟩)))))⟩

/-! ### REOPEN (R150) -/

/-- R150, past the checks of the shot. -/
theorem reopenBody_shot (hn : n.toNat < 512) (hx : s.sht.pool.read n.toNat = some x) : reopenBody n s =
    if x.state = .approved then (s.modShot n.toNat (fun y => { y with state := .editable }), .ok [])
      else (s, .only .state) :=
  withShot_shot hn hx

/-- Settles O57: the two branches of REOPEN; the edit moves no range's end by `shotStop_modShot`. -/
theorem reopenReturnsAShotToOpen : Obligations.ReopenReturnsAShotToOpen := by
  unfold Obligations.ReopenReturnsAShotToOpen
  intro rq s n x hserved hn hx hform
  have hxu : (arrive rq.port s).sht.pool.read n.toNat = some x := by rw [arrive_sht, hx]
  have hwu : (arrive rq.port s).sht.pool.wf = true := by rw [arrive_sht]; exact hform.2.2.1
  have hbody := reopenBody_shot hn hxu
  refine ⟨fun h => exec_of_same rfl hserved (hbody.trans (if_neg (by simp [h]))), fun h => ?_⟩
  have hstop : ((arrive rq.port s).modShot n.toNat fun y => { y with state := .editable }).shotStop x = s.shotStop x :=
    (shotStop_modShot hwu _ (by simp) (by simp) x).trans (arrive_shotStop ..)
  exact exec_of_body rfl hserved (hbody.trans (if_pos h)) (by simp) (by simp)
    ⟨(onlyShot_modShot hxu _).answer rq _, hstop⟩

end Sys2Proof.Machine
end

section
/-! SUPPORT. What CAB's two conditions rest on (R160, R161): the moves and the positions, and where each reel is homed and of
which class it is. What the reports, the expiries, the settings and the stations of the other groups do leaves all of it. -/

namespace Sys2Proof.Machine

variable {s t u : State}

/-! ### What the two conditions rest on -/

/-- What of a reel's record decides which slots it may be shelved in: the home slot and the class (R159, R161). -/
def Reel.filing (r : Reel) : Nat × Nat := (r.home, r.acidity)

/-- What of CAB the two conditions rest on, and the conditions themselves: no timer, no mark, no climate. -/
def Cab.standing (c : Cab) : Table Occupancy × Table Occupancy × Table Occupancy × List Move × Bool × Bool :=
  (c.slots, c.bays, c.stagings, c.moves, c.eligible, c.isoFull)

/-- Nothing the two conditions rest on is another in `t` than in `s`, nor are the conditions. -/
structure SameFiling (s t : State) : Prop where
  cab : t.cab.standing = s.cab.standing
  reels : ∀ j, (t.reel j).map Reel.filing = (s.reel j).map Reel.filing

/-- R159: the slot of a SHELVE depends on the slots, the home slot and the class alone. -/
theorem shelveSlot_congr {c c' : Cab} {r r' : Reel} (hc : c'.slots = c.slots) (hr : r'.filing = r.filing) :
    shelveSlot c' r' = shelveSlot c r := by
  simp only [Reel.filing, Prod.mk.injEq] at hr
  obtain ⟨hhome, hacidity⟩ := hr
  simp only [shelveSlot, Cab.freeIsolation, Cab.freeStandard, hc, hhome, hacidity]

/-- A reel whose record is filed as in `s` is admitted in both states or in neither. -/
theorem SameFiling.reel_cases (h : SameFiling s t) (j : Nat) :
    (s.reel j = none ∧ t.reel j = none) ∨
      ∃ r r', s.reel j = some r ∧ t.reel j = some r' ∧ r'.filing = r.filing := by
  have hj := h.reels j
  cases hs : s.reel j with
  | none => exact .inl ⟨rfl, by simpa [hs] using hj⟩
  | some r =>
    obtain ⟨r', hr', he⟩ := Option.map_eq_some_iff.mp (hj.trans (by rw [hs]; rfl))
    exact .inr ⟨r, r', rfl, hr', he⟩

namespace SameFiling

theorem cab_fields (h : SameFiling s t) : t.cab.slots = s.cab.slots ∧ t.cab.bays = s.cab.bays ∧
    t.cab.stagings = s.cab.stagings ∧ t.cab.moves = s.cab.moves ∧ t.cab.eligible = s.cab.eligible ∧
    t.cab.isoFull = s.cab.isoFull := by
  simpa only [Cab.standing, Prod.mk.injEq] using h.cab

theorem chooseDest (h : SameFiling s t) (m : Move) : t.chooseDest m = s.chooseDest m := by
  obtain ⟨hslots, hbays, hstagings, -⟩ := h.cab_fields
  cases hk : m.kind with
  | shelve =>
    rcases h.reel_cases m.handle with ⟨hs, ht⟩ | ⟨r, r', hs, ht, he⟩
    · simp only [State.chooseDest, hk, hs, ht]
    · simp only [State.chooseDest, hk, hs, ht, shelveSlot_congr hslots he]
  | fetchOut | toStaging | stageBack | relocate | dispatch =>
    simp only [State.chooseDest, hk, Cab.freeBay, Cab.freeStaging, Cab.freeIsolation, hslots, hbays, hstagings]

theorem needsIsolation (h : SameFiling s t) (m : Move) : t.needsIsolation m = s.needsIsolation m := by
  rcases h.reel_cases m.handle with ⟨hs, ht⟩ | ⟨r, r', hs, ht, he⟩
  · simp only [State.needsIsolation, hs, ht]
  · simp only [Reel.filing, Prod.mk.injEq] at he
    simp only [State.needsIsolation, hs, ht, he.2]

theorem eligibleNow (h : SameFiling s t) : t.eligibleNow = s.eligibleNow := by
  obtain ⟨-, -, -, hmoves, -⟩ := h.cab_fields
  simp only [State.eligibleNow, State.oldestEligible, Cab.moving, hmoves, h.chooseDest]
  rfl

theorem isoFullNow (h : SameFiling s t) : t.isoFullNow = s.isoFullNow := by
  obtain ⟨hslots, -, -, hmoves, -⟩ := h.cab_fields
  simp only [State.isoFullNow, Cab.freeIsolation, hmoves, hslots, funext h.needsIsolation]

/-- R160, R161: the conditions stay what they were, and so does what makes them. -/
theorem cabCurrent (h : SameFiling s t) (hs : CabCurrent s) : CabCurrent t := by
  obtain ⟨-, -, -, -, heligible, hfull⟩ := h.cab_fields
  exact ⟨by rw [heligible, hs.1, h.eligibleNow], by rw [hfull, hs.2, h.isoFullNow]⟩

/-! ### Keeping it -/

theorem refl (s : State) : SameFiling s s := ⟨rfl, fun _ => rfl⟩

theorem trans (h : SameFiling s t) (k : SameFiling t u) : SameFiling s u :=
  ⟨k.cab.trans h.cab, fun j => (k.reels j).trans (h.reels j)⟩

theorem ite {c : Prop} [Decidable c] (ht : SameFiling s t) (hu : SameFiling s u) : SameFiling s (if c then t else u) := by
  split
  · exact ht
  · exact hu

theorem foldl {α : Type} {f : State → α → State} (l : List α) (hf : ∀ u a, SameFiling s u → SameFiling s (f u a))
    (h : SameFiling s t) : SameFiling s (l.foldl f t) := by
  induction l generalizing t with
  | nil => exact h
  | cons a r ih => exact ih (hf t a h)

/-- The blocks with no part in the two conditions. -/
abbrev otherBlocks : List Block := [.trc, .pru, .fcu, .dsu, .rpq, .sht, .spt, .alt, .cfg, .tmb, .out, .pending]

/-- Any change of those blocks. -/
theorem free (h : SameFiling s t) (k : Kept otherBlocks t u) : SameFiling s u := by
  have hcab : u.cab = t.cab := k .cab (by simp)
  have hreg : u.reg = t.reg := k .reg (by simp)
  exact h.trans ⟨by rw [hcab], fun j => by rw [State.reel, hreg, State.reel]⟩

theorem setConfirm (h : SameFiling s t) (c : PerPort (Option Confirmation)) :
    SameFiling s (t.setReg { t.reg with confirm := c }) := ⟨h.cab, h.reels⟩

/-- A change of CAB's timers, marks, gripper or climate. -/
theorem setCab (h : SameFiling s t) {x : Cab} (hx : x.standing = t.cab.standing := by rfl) :
    SameFiling s (t.setCab x) := ⟨hx.trans h.cab, h.reels⟩

/-- A change of a record that leaves home slot and class. -/
theorem modReel (h : SameFiling s t) (n : Nat) {f : Reel → Reel}
    (hf : ∀ r, (f r).filing = r.filing := by exact fun _ => rfl) : SameFiling s (t.modReel n f) := by
  refine h.trans ⟨rfl, fun j => ?_⟩
  rw [State.reel, State.modReel_reg, Table.read_modify]
  split
  · next hj =>
    subst hj
    rw [Option.map_map, ← State.reel]
    exact congrArg (Option.map · (t.reel j)) (funext hf)
  · rfl

end SameFiling
end Sys2Proof.Machine
end

section
/-! SUPPORT. Damage, surveys, contexts, frame lines and reports leave what CAB's conditions rest on (chapters 2 to 7). -/

namespace Sys2Proof.Machine

variable {s t u : State}

theorem Reel.filing_subCount (a : DamageState) (r : Reel) : (r.subCount a).filing = r.filing := by cases a <;> rfl

theorem Reel.filing_addCount (a : DamageState) (r : Reel) : (r.addCount a).filing = r.filing := by cases a <;> rfl

namespace SameFiling

/-! ### Rescan lists (R18 to R20) -/

theorem rescanAdd (h : SameFiling s t) (j : Nat) (x : FrameRange) : SameFiling s (rescanAdd j x t) := by
  unfold Machine.rescanAdd
  split
  · exact h
  · next r _ =>
    have hlist := h.modReel j (f := fun y => { y with rescan := addRange r.rescan x })
    exact ite h (hlist.free (by simp))

theorem rescanThreaded (h : SameFiling s t) (x : FrameRange) : SameFiling s (rescanThreaded x t) := by
  unfold Machine.rescanThreaded
  split
  · exact h.rescanAdd ..
  · exact h

theorem frameRecorded (h : SameFiling s t) (j f : Nat) (complete : Bool) : SameFiling s (frameRecorded j f complete t) := by
  unfold Machine.frameRecorded
  extract_lets rose risen listed
  have hrisen : SameFiling s risen := ite (h.modReel j) h
  have hlisted : SameFiling s listed := ite (hrisen.modReel j) (hrisen.rescanAdd ..)
  split
  · split
    · exact ite (hlisted.free (by simp)) hlisted
    · exact hlisted
  · exact hlisted

theorem addLostArea (h : SameFiling s t) (j a : Nat) : SameFiling s (addLostArea j a t) := h.modReel j

/-! ### Damage records (chapter 6) -/

theorem moveDamage (h : SameFiling s t) (i : Nat) (st : DamageState) : SameFiling s (moveDamage i st t) := by
  unfold Machine.moveDamage
  split
  · exact h
  · exact modReel (h.free (by simp)) _ fun r => (Reel.filing_addCount ..).trans (Reel.filing_subCount ..)

theorem closeDamage (h : SameFiling s t) (o : DamageOutcome) (i : Nat) : SameFiling s (closeDamage o t i) :=
  (h.moveDamage i (.closed o)).free (by simp [Machine.closeDamage])

theorem releaseClaims (h : SameFiling s t) (p : Port) : SameFiling s (releaseClaims p t) := by
  have hqueued := foldl (t.damageBySeq (·.claimedBy p)) (fun _ i hu => hu.moveDamage i .queued) h
  exact hqueued.free (by simp [Machine.releaseClaims])

theorem withdrawRef (h : SameFiling s t) (r : DamageRef) : SameFiling s (withdrawRef t r) := by
  unfold Machine.withdrawRef
  split
  · exact h
  · split
    · exact h
    · split
      · exact h.closeDamage ..
      · exact h.free (by simp)
      · exact h

theorem promote (h : SameFiling s t) (x : Found) (refs : List DamageRef) : SameFiling s (promote x refs t) :=
  foldl _ (fun _ _ hu => hu.withdrawRef _) (h.free (by simp))

theorem supersede (h : SameFiling s t) (j k : Nat) : SameFiling s (supersede j k t) :=
  foldl _ (fun _ _ hu => hu.free (by simp)) (foldl _ (fun _ _ hu => hu.closeDamage ..) h)

/-- R105: the record that gives its entry up leaves its reel's counts. -/
theorem allocDamage {i : Nat} (h : SameFiling s t) (hu : allocDamage t = some (i, u)) : SameFiling s u := by
  unfold Machine.allocDamage at hu
  split at hu
  · cases hu; exact h
  · split at hu
    · cases hu
    · dsimp only at hu
      split at hu <;> cases hu
      · exact modReel (h.free (by simp)) _ fun r => Reel.filing_subCount ..
      · exact h.free (by simp)

theorem createDamage (h : SameFiling s t) (j k : Nat) (x : Found) : SameFiling s (createDamage j k x t).1 := by
  unfold Machine.createDamage
  split
  · exact h.addLostArea ..
  · next i u hu =>
    extract_lets a _ recorded raised reopened
    have hrecorded : SameFiling s recorded :=
      modReel ((h.allocDamage hu).free (by simp)) j fun r => Reel.filing_addCount .queued r
    have hraised : SameFiling s raised := hrecorded.free (by simp [raised])
    exact ite (hraised.free (by simp)) hraised

theorem takeRegion {acc : FrameDamage × State} (h : SameFiling s acc.2) (j k : Nat) (x : Found) :
    SameFiling s (takeRegion j k acc x).2 := by
  unfold Machine.takeRegion
  split
  · exact h.createDamage ..
  · split
    · exact h.free (by simp)
    · dsimp only
      split
      · exact h.createDamage ..
      · split
        · exact h.promote ..
        · exact h.createDamage ..

theorem takeRegions (j k : Nat) : ∀ (found : List Found) {acc : FrameDamage × State}, SameFiling s acc.2 →
    SameFiling s (found.foldl (Machine.takeRegion j k) acc).2
  | [], _, h => h
  | x :: found, _, h => takeRegions j k found (h.takeRegion j k x)

theorem recordDamage (h : SameFiling s t) (j k : Nat) (rescan reanch : Bool) (found : List Found) :
    SameFiling s (recordDamage j k rescan reanch found t).2 := by
  unfold Machine.recordDamage
  extract_lets old fits work taken _ aged
  have hold : SameFiling s old := ite (h.supersede j k) h
  have htaken : SameFiling s taken.2 := takeRegions j k found hold
  exact htaken.free (by simp [aged])

/-! ### Contexts (chapter 4) -/

theorem surveyDone (h : SameFiling s t) (c : CtxId) (j : Nat) (complete : Bool) :
    SameFiling s (surveyDone c j complete t) := by
  unfold Machine.surveyDone
  exact ite (ite (addLostArea (h.free (by simp)) ..) (h.free (by simp))) h

theorem damageDone (h : SameFiling s t) (x : Ctx) (complete rescan : Bool) (found : List Found) :
    SameFiling s (damageDone x complete rescan found t).2 := by
  unfold Machine.damageDone
  split
  · exact h.recordDamage ..
  · exact h.free (by simp)

theorem closeCtx (h : SameFiling s t) (c : CtxId) (complete : Bool) : SameFiling s (closeCtx c complete t) := by
  unfold Machine.closeCtx
  split
  · exact h
  · next x _ =>
    have hgraded := (h.surveyDone c x.handle complete).free (u := (takeFrame c x.handle x.frame complete
      (!decide (x.frame < t.frontier x.handle)) x.splice (Machine.surveyDone c x.handle complete t)).2) (by simp)
    have hdone := (hgraded.frameRecorded x.handle x.frame complete).damageDone x complete
      (decide (x.frame < t.frontier x.handle)) (foundRegions ((Machine.surveyDone c x.handle complete t).dsu.get c))
    exact hdone.free (by simp)

theorem captureLine (h : SameFiling s t) (c : CtxId) (x : LineReport) : SameFiling s (captureLine c x t) := by
  have hclosed : ∀ same : Bool, SameFiling s (if same then Machine.closeCtx c.other false t else t) :=
    fun _ => ite (h.closeCtx ..) h
  unfold Machine.captureLine
  extract_lets same u
  have hu : SameFiling s u := hclosed same
  exact ite (hu.free (by simp)) hu

theorem seekingGap (h : SameFiling s t) (x : LineReport) : SameFiling s (seekingGap x t) := by
  unfold Machine.seekingGap
  split
  · exact h
  · exact ite (h.rescanThreaded _) h

theorem frameLimit (h : SameFiling s t) (k : Nat) : SameFiling s (frameLimit k t) := h.free (by simp)

theorem takeLine (h : SameFiling s t) (x : LineReport) : SameFiling s (takeLine x t) := by
  have hgap := h.seekingGap x
  have hthreaded := h.rescanThreaded ⟨x.frame, x.frame⟩
  have hskipped := hgap.rescanThreaded ⟨x.frame, x.frame⟩
  unfold Machine.takeLine
  refine frameLimit (ite (ite (hthreaded.free (by simp)) h) (ite hgap ?_)) _
  split
  · exact hgap.captureLine ..
  · exact hskipped.free (by simp [skipLine])

theorem rowInOrder (h : SameFiling s t) (c : CtxId) (x : Ctx) (row : Nat) (ir visible : List (BitVec 16)) :
    SameFiling s (rowInOrder c x row ir visible t) := by
  unfold Machine.rowInOrder
  extract_lets v a _ b d
  have hd : SameFiling s d := h.free (by simp [d, b, a])
  exact ite (hd.closeCtx ..) hd

theorem takeRowMessage (h : SameFiling s t) (k row : Nat) (ir visible : List (BitVec 16)) :
    SameFiling s (takeRowMessage k row ir visible t) := by
  unfold Machine.takeRowMessage
  split
  · exact h.free (by simp)
  · next c _ =>
    extract_lets d
    have hd : SameFiling s d := ite (h.closeCtx ..) h
    split
    · exact hd
    · exact ite (hd.rowInOrder ..) (hd.closeCtx ..)

theorem abandonCtx (h : SameFiling s t) (c : CtxId) : SameFiling s (abandonCtx c t) := by
  unfold Machine.abandonCtx
  split
  · exact h
  · next x _ => exact (h.rescanAdd x.handle ⟨x.frame, x.frame⟩).free (by simp)

theorem enterFault (h : SameFiling s t) (cause : FaultCause) : SameFiling s (enterFault cause t) := by
  unfold Machine.enterFault
  extract_lets _ marked entered closed
  have hentered : SameFiling s entered := h.free (by simp [entered, marked])
  have hclosed : SameFiling s closed := (hentered.abandonCtx _).abandonCtx _
  exact ite h (hclosed.free (by simp))

/-! ### Frame lines (chapter 3) -/

theorem reportLine (h : SameFiling s t) (m : Mark) (e : Option Int) (r : Bool) (f : Option Nat) :
    SameFiling s (reportLine m e r f t) := h.takeLine _

theorem completeLine (h : SameFiling s t) (k : Nat) (pk : Int) (edge : Option Int) :
    SameFiling s (completeLine k pk edge t) := by
  unfold Machine.completeLine
  extract_lets m e re _ a b d c
  have hc : SameFiling s c.2 := h.free (by
    simp only [c, d, b, a]
    clear_value e
    split
    · simp
    · split <;> simp)
  exact (hc.reportLine m e (re || c.1) none).free (by simp)

theorem seekingEdge (h : SameFiling s t) (edge : Int) : SameFiling s (seekingEdge edge t) := by
  unfold Machine.seekingEdge
  extract_lets from_ m _ a c
  have hc : SameFiling s c.2 := h.free (by simp [c, a])
  exact (hc.reportLine m (some 0) true (some from_)).free (by simp)

theorem declareMissing (p : Int) : ∀ (n : Nat) {t : State}, SameFiling s t → SameFiling s (declareMissing n p t)
  | 0, _, h => h
  | n + 1, t, h => by
    unfold Machine.declareMissing
    split
    · exact h
    · exact ite (declareMissing p n (h.completeLine ..)) h

theorem takeEdge (h : SameFiling s t) (p : Int) : SameFiling s (takeEdge p t) := by
  unfold Machine.takeEdge
  refine ite h (ite (h.seekingEdge p) ?_)
  split
  · exact h.free (by simp)
  · exact ite (h.free (by simp)) (h.completeLine ..)

theorem splicePassage (h : SameFiling s t) : SameFiling s (splicePassage t) := h.free (by simp)

theorem onePassage (h : SameFiling s t) : SameFiling s (onePassage t) := by
  refine SameFiling.splicePassage ?_
  split
  · exact h.modReel _
  · exact h

theorem testZones (h : SameFiling s t) : SameFiling s (testZones t) := h.free (by simp)

theorem takePassages (h : SameFiling s t) : SameFiling s (takePassages t) :=
  ite h (ite h (testZones (foldl _ (fun _ _ hu => hu.onePassage) (h.free (by simp)))))

theorem takePosition (h : SameFiling s t) (p : Int) : SameFiling s (takePosition p t) := by
  unfold Machine.takePosition
  extract_lets _ a
  have ha : SameFiling s a := h.free (by simp [a])
  split
  · exact ite (ha.free (by simp)) ha
  · split
    · exact ite (ha.free (by simp)) ha
    · exact ha
  · exact takePassages (declareMissing p _ (ha.free (by simp)))
  · exact ha

theorem takeFrameLine (h : SameFiling s t) (p : Int) : SameFiling s (takeFrameLine p t) := by
  unfold Machine.takeFrameLine
  extract_lets _ a
  have ha : SameFiling s a := ite h (h.free (by simp))
  exact ite ((declareMissing p _ ha).takeEdge p) ha

end SameFiling
end Sys2Proof.Machine
end

section
/-! SUPPORT. Every command ends with CAB's conditions current (R160, R161): it leaves what they rest on, or CAB re-evaluates
them at its end. -/

namespace Sys2Proof.Machine

variable {s t u : State}

namespace SameFiling

/-! ### Settings, ticks, tension, claims -/

theorem roleChanged (h : SameFiling s t) (p : Port) (old : Role) : SameFiling s (roleChanged p old t) := by
  have hclaims := ite (c := t.role p = .repair) h (h.releaseClaims p)
  exact ite (hclaims.setConfirm _) hclaims

theorem storeSetting (h : SameFiling s t) (i v : Nat) : SameFiling s (storeSetting i v t) := by
  have hput : SameFiling s (t.putSetting i v) := h.free (by simp)
  unfold Machine.storeSetting
  dsimp only
  split
  · exact hput.roleChanged ..
  · exact ite (hput.free (by simp)) hput

theorem takePreloadValue (h : SameFiling s t) (offset index v : Nat) :
    SameFiling s (takePreloadValue offset index v t) := by
  have hoffset : SameFiling s (t.setCfg { t.cfg with offset := offset + 2 }) := h.free (by simp)
  refine ite h (ite (h.free (by simp)) ?_)
  split
  · next row _ => exact ite ((hoffset.storeSetting row.index 0).free (by simp)) (hoffset.storeSetting ..)
  · exact hoffset

theorem passMillis (h : SameFiling s t) (n : Nat) : SameFiling s (passMillis n t) := setConfirm (h.free (by simp)) _

theorem minuteTick (h : SameFiling s t) : SameFiling s (minuteTick t) := by
  have hzero : SameFiling s (t.setTmb ⟨0, 0, 0⟩) := h.free (by simp)
  exact ite hzero hzero.setCab

theorem secondTick (h : SameFiling s t) : SameFiling s (secondTick t) := ite (h.free (by simp)) h.minuteTick

theorem millisecondTick (h : SameFiling s t) : SameFiling s (millisecondTick t) :=
  ite ((h.passMillis 1).free (by simp)) (h.passMillis 1).secondTick

theorem takeTension (h : SameFiling s t) (gf : Nat) : SameFiling s (takeTension gf t) :=
  ite (h.enterFault _) (ite (h.enterFault _) (h.free (by simp)))

theorem arrive (h : SameFiling s t) (p : Port) : SameFiling s (arrive p t) := setConfirm (h.free (by simp)) _

end SameFiling

/-! ### Commands that keep the conditions current -/

/-- CAB's conditions are current in `t` if they were in `s`. -/
def KeepsCurrent (s t : State) : Prop := CabCurrent s → CabCurrent t

/-- R160, R161: CAB re-evaluates both conditions at the end of an event, whatever came before. -/
theorem cabCurrent_refreshCab (s : State) : CabCurrent (refreshCab s) := by
  obtain ⟨heligible, hfull⟩ := refreshCab_eligibleNow (s := s)
  rw [CabCurrent, heligible, hfull, refreshCab_cab]
  exact ⟨rfl, rfl⟩

namespace KeepsCurrent

theorem refl (s : State) : KeepsCurrent s s := id

theorem refreshed (s t : State) : KeepsCurrent s (refreshCab t) := fun _ => cabCurrent_refreshCab t

theorem same (h : SameFiling s t) : KeepsCurrent s t := h.cabCurrent

theorem serve (rq : Rq) (need : Need) {body : Body} (hb : ∀ u, KeepsCurrent u (body u).1) (s : State) :
    KeepsCurrent s (serve rq need body s) := by
  have ha := (SameFiling.refl s).arrive rq.port
  unfold Machine.serve
  dsimp only
  split
  · exact same (ha.free (by simp))
  · split
    · exact same (ha.free (by simp))
    · exact fun hs => SameFiling.cabCurrent (.free (.refl _) (by simp)) (hb _ (ha.cabCurrent hs))

/-- A body that leaves every block with a part in the conditions alone. -/
theorem serve_free (rq : Rq) (need : Need) {body : Body} (hb : ∀ u, Kept SameFiling.otherBlocks u (body u).1) (s : State) :
    KeepsCurrent s (Machine.serve rq need body s) := serve rq need (fun u => same (.free (.refl u) (hb u))) s

/-- A request with operands. -/
theorem serveOperands {α : Type} (rq : Rq) (need : Need) {args : Option α} {body : α → Body}
    (hb : ∀ a u, KeepsCurrent u (body a u).1) (s : State) :
    KeepsCurrent s (Machine.serve rq need (withOperands args body) s) := by
  refine serve rq need (fun u => ?_) s
  cases args with
  | some a => exact hb a u
  | none => exact refl u

theorem serveOperands_free {α : Type} (rq : Rq) (need : Need) {args : Option α} {body : α → Body}
    (hb : ∀ a u, Kept SameFiling.otherBlocks u (body a u).1) (s : State) :
    KeepsCurrent s (Machine.serve rq need (withOperands args body) s) :=
  serveOperands rq need (fun a u => same (.free (.refl u) (hb a u))) s

theorem withReel {j : Nat} {free : Status} {body : Reel → Body} (hb : ∀ r, KeepsCurrent s (body r s).1) :
    KeepsCurrent s (withReel j free body s).1 := by
  unfold Machine.withReel
  split
  · exact refl s
  · split
    · exact hb _
    · exact refl s

theorem withMove {a : MoveArgs} {body : Move → Body} (hb : ∀ m, KeepsCurrent s (body m s).1) :
    KeepsCurrent s (withMove a body s).1 := by
  unfold Machine.withMove
  split
  · exact refl s
  · split
    · split
      · exact hb _
      · exact refl s
    · exact refl s

/-- A check that refuses. -/
theorem checked {c : Prop} [Decidable c] {r : Reply} {x : State × Reply} (h : KeepsCurrent s x.1) :
    KeepsCurrent s (if c then (s, r) else x).1 := by
  split
  · exact refl s
  · exact h

/-- A check that lets through. -/
theorem admitted {c : Prop} [Decidable c] {r : Reply} {x : State × Reply} (h : KeepsCurrent s x.1) :
    KeepsCurrent s (if c then x else (s, r)).1 := by
  split
  · exact h
  · exact refl s

/-! ### Requests of the other groups that change a reel's record -/

theorem setSettingBody (a : SettingArgs) (s : State) : KeepsCurrent s (setSettingBody a s).1 := by
  unfold Machine.setSettingBody
  split
  · exact refl s
  · exact checked (same (.storeSetting (.refl s) _ _))

theorem portResetBody (p : Port) (s : State) : KeepsCurrent s (portResetBody p s).1 :=
  same (.releaseClaims (.setConfirm (.free (.refl s) (by simp)) _) p)

theorem claimFirst (p : Port) (cond : Damage → Bool) (s : State) : KeepsCurrent s (claimFirst p cond s).1 := by
  refine checked ?_
  split
  · exact refl s
  · exact same (.moveDamage (.refl s) ..)

theorem claimNextBody (p : Port) (h : Byte) (s : State) : KeepsCurrent s (claimNextBody p h s).1 := by
  unfold Machine.claimNextBody
  split
  · exact same (.free (.refl s) (by simp))
  · split
    · exact claimFirst _ _ s
    · exact withReel fun _ => claimFirst _ _ s

theorem completeBody (p : Port) (a : CompleteArgs) (s : State) : KeepsCurrent s (completeBody p a s).1 := by
  unfold Machine.completeBody
  split
  · exact refl s
  · refine checked ?_
    split
    · exact same (.ite (.rescanAdd (.closeDamage (.refl s) ..) ..) (.closeDamage (.refl s) ..))
    · exact refl s

theorem releaseClaimBody (p : Port) (a : ClaimArgs) (s : State) : KeepsCurrent s (releaseClaimBody p a s).1 := by
  refine checked ?_
  split
  · exact same (.free (.moveDamage (.refl s) a.index.toNat .queued) (by simp))
  · exact refl s

theorem rescanAddBody (a : RescanArgs) (s : State) : KeepsCurrent s (rescanAddBody a s).1 :=
  withReel fun _ => checked (checked (same (.rescanAdd (.refl s) ..)))

theorem setBaseBody (a : BaseArgs) (s : State) : KeepsCurrent s (setBaseBody a s).1 :=
  withReel fun _ => checked (same (.modReel (.refl s) _))

/-! ### Requests that move reels (R9 to R16, R26, R27) -/

theorem admitBody (a : AdmitArgs) (s : State) : KeepsCurrent s (admitBody a s).1 := by
  unfold Machine.admitBody
  split
  · exact refl s
  · refine checked (checked ?_)
    split
    · exact refl s
    · exact refl s
    · refine checked ?_
      split
      · exact refreshed s _
      · exact refl s

theorem setConditionBody (a : ConditionArgs) (s : State) : KeepsCurrent s (setConditionBody a s).1 :=
  withReel fun _ => checked (refreshed s _)

theorem requestBody (h : Byte) (s : State) : KeepsCurrent s (requestBody h s).1 := by
  refine withReel fun _ => checked ?_
  split
  · exact checked (refreshed s _)
  · exact checked (refreshed s _)

theorem cancelBody (h : Byte) (s : State) : KeepsCurrent s (cancelBody h s).1 := by
  refine withReel fun _ => ?_
  split
  · exact admitted (refreshed s _)
  · exact refl s

theorem returnBody (h : Byte) (s : State) : KeepsCurrent s (returnBody h s).1 :=
  withReel fun _ => checked (checked (refreshed s _))

theorem plainRelease (h : Nat) (s : State) : KeepsCurrent s (plainRelease h s).1 :=
  withReel fun _ => checked (checked (checked (checked (refreshed s _))))

/-- The first of the two requests of a RELEASE FORCE only opens a confirmation (R15). -/
theorem forceRelease (p : Port) (c : Option Confirmation) (h : Nat) (s : State) :
    KeepsCurrent s (forceRelease p c h s).1 := by
  refine withReel fun _ => checked (checked ?_)
  split
  · exact checked (refreshed s _)
  · exact same (.setConfirm (.refl s) _)

theorem releaseBody (p : Port) (c : Option Confirmation) (a : ReleaseArgs) (s : State) :
    KeepsCurrent s (releaseBody p c a s).1 := by
  unfold Machine.releaseBody
  split
  · exact refl s
  · split
    · exact forceRelease _ _ _ s
    · exact plainRelease _ s

theorem threadBody (h : Byte) (s : State) : KeepsCurrent s (threadBody h s).1 :=
  withReel fun _ => checked (checked (checked (refreshed s _)))

theorem unthreadBody (s : State) : KeepsCurrent s (unthreadBody s).1 := by
  refine checked (checked ?_)
  split
  · exact refl s
  · exact refreshed s _

/-! ### VAULT -/

theorem takeMoveBody (s : State) : KeepsCurrent s (takeMoveBody s).1 := by
  refine checked ?_
  split
  · exact refl s
  · split
    · exact refl s
    · exact refreshed s _

theorem moveDoneBody (s : State) : KeepsCurrent s (moveDoneBody s).1 := by
  unfold Machine.moveDoneBody
  split
  · exact refl s
  · exact refreshed s _

theorem moveFailedBody (s : State) : KeepsCurrent s (moveFailedBody s).1 := by
  unfold Machine.moveFailedBody
  split
  · exact refl s
  · exact refreshed s _

theorem retryBody (a : MoveArgs) (s : State) : KeepsCurrent s (retryBody a s).1 :=
  withMove fun _ => admitted (refreshed s _)

theorem cancelMoveBody (a : MoveArgs) (s : State) : KeepsCurrent s (cancelMoveBody a s).1 :=
  withMove fun _ => checked (refreshed s _)

theorem bayClimateBody (v : Byte) (s : State) : KeepsCurrent s (bayClimateBody v s).1 :=
  checked (same (.setCab (.refl s)))

end KeepsCurrent

/-! ### Every command -/

theorem exec_keepsCurrent (c : Instr) (s : State) : ∃ t, exec c s = .next t ∧ KeepsCurrent s t := by
  have hq : SameFiling s (quiet s) := .free (.refl s) (by simp)
  have hr : SameFiling s (headReport (quiet s)) := hq.free (by simp)
  cases c
  case row =>
    simp only [exec, execRow]
    split
    · exact ⟨_, rfl, .same (hr.takeRowMessage ..)⟩
    · exact ⟨_, rfl, .same hq⟩
  all_goals refine ⟨_, rfl, ?_⟩
  case reset => exact fun _ => ⟨rfl, rfl⟩
  case preloadValue => exact .same (hq.takePreloadValue ..)
  case preloadEnd => exact .same (.ite (hq.free (by simp)) hq)
  case estopAsserted => exact .same (.ite hq (.enterFault (hq.free (by simp)) _))
  case estopReleased => exact .same (hq.free (by simp))
  case millisecondTick => exact .same hq.millisecondTick
  case secondTick => exact .same (hq.passMillis _).secondTick
  case minuteTick => exact .same (hq.passMillis _).minuteTick
  case position => exact .same (hr.takePosition _)
  case frameLine => exact .same (hr.takeFrameLine _)
  case spliceEdge => exact .same (.ite (hr.free (by simp)) (.ite (hr.free (by simp)) hr))
  case tension => exact .same (hr.takeTension _)
  case gateTemp => exact .same (hr.free (by simp))
  case headMessageDiscarded | reportAgeExpiry | frameIgnored => exact .same hq
  case tensionHighExpiry | tensionLowExpiry => exact .same (.ite (.enterFault (hq.free (by simp)) _) hq)
  case headSilenceExpiry => exact .same (.ite (hq.enterFault _) hq)
  case gateDelayExpiry | holdLightExpiry => exact .same (.ite (hq.free (by simp)) hq)
  case contextAgeExpiry => exact .same (.ite (hq.closeCtx ..) (.ite (hq.closeCtx ..) hq))
  case confirmationExpiry =>
    split
    · exact .same (.ite (hq.setConfirm _) hq)
    · exact .same hq
  case bayTimerExpiry =>
    split
    · exact .refreshed s _
    · exact .same hq
  case responseRead => exact .same (.free (.refl s) (by dsimp only; (repeat' split) <;> simp))
  case requestMalformed | unknownCommand | readAlerts | transportStatus | moveList | readPitch | setOrigin | pause | resume
      | stop | clearFault | commit | clearGate => exact .serve_free _ _ (by simp) s
  case ackAlerts | setAlertMask | getSetting | reelQuery | reelFind | stagePitch | stageReg | damageList | shotList
      | gradeQuery | positions | inch | shuttle | scan | readFrames | pushLayer | popLayer | setLayer | setFlicker | split
      | merge | approve | reopen => exact .serveOperands_free _ _ (by simp) s
  case setSetting => exact .serveOperands _ _ KeepsCurrent.setSettingBody s
  case portReset => exact .serve _ _ (KeepsCurrent.portResetBody _) s
  case claimNext => exact .serveOperands _ _ (KeepsCurrent.claimNextBody _) s
  case complete => exact .serveOperands _ _ (KeepsCurrent.completeBody _) s
  case releaseClaim => exact .serveOperands _ _ (KeepsCurrent.releaseClaimBody _) s
  case releaseAll => exact .serve _ _ (fun u => .same (.releaseClaims (.refl u) _)) s
  case rescanAdd => exact .serveOperands _ _ KeepsCurrent.rescanAddBody s
  case setBase => exact .serveOperands _ _ KeepsCurrent.setBaseBody s
  case admitReel => exact .serveOperands _ _ KeepsCurrent.admitBody s
  case setCondition => exact .serveOperands _ _ KeepsCurrent.setConditionBody s
  case request => exact .serveOperands _ _ KeepsCurrent.requestBody s
  case cancel => exact .serveOperands _ _ KeepsCurrent.cancelBody s
  case returnReel => exact .serveOperands _ _ KeepsCurrent.returnBody s
  case release => exact .serveOperands _ _ (KeepsCurrent.releaseBody _ _) s
  case releaseForce => exact .serve _ _ (KeepsCurrent.forceRelease _ _ _) s
  case thread => exact .serveOperands _ _ KeepsCurrent.threadBody s
  case unthread => exact .serve _ _ KeepsCurrent.unthreadBody s
  case takeMove => exact .serve _ _ KeepsCurrent.takeMoveBody s
  case moveDone => exact .serve _ _ KeepsCurrent.moveDoneBody s
  case moveFailed => exact .serve _ _ KeepsCurrent.moveFailedBody s
  case retry => exact .serveOperands _ _ KeepsCurrent.retryBody s
  case cancelMove => exact .serveOperands _ _ KeepsCurrent.cancelMoveBody s
  case bayClimate => exact .serveOperands _ _ KeepsCurrent.bayClimateBody s

/-- Settles O12: a command leaves what CAB's conditions rest on, or ends with `refreshCab` (`exec_keepsCurrent`). -/
theorem cabConditionsStayCurrent : Obligations.CabConditionsStayCurrent := by
  intro s t hs h
  unfold step at h
  split at h
  · cases h; exact hs
  · next c rest _ =>
    obtain ⟨u, hu, hk⟩ := exec_keepsCurrent c { s with pending := rest }
    obtain rfl : u = t := by simpa using hu.symm.trans h
    exact hk hs

end Sys2Proof.Machine
end

section
/-! SUPPORT. Positions, moves and destinations: what a change of one of them leaves, and which move and which position is
found (R155 to R162). -/

namespace Sys2Proof.Machine

variable {s t : State} {c c' : Cab} {older rest : List Move} {m : Move}

/-! ### Positions (R155) -/

theorem read_setEntry (l : Table Occupancy) (n : Nat) (o : Option Occupancy) (k : Nat) :
    (setEntry l n o).read k = if k = n then o else l.read k := by
  cases o with
  | some o => exact Table.read_write ..
  | none => exact Table.read_erase ..

/-- A position set is as it was set, and no other is another. -/
theorem Cab.occupancy_occupy (c : Cab) (q : Place) (o : Option Occupancy) {p : Place} (hp : p.isPosition = true) :
    (c.occupy q o).occupancy p = if p = q then o else c.occupancy p := by
  cases p with
  | slot n | bay n | staging n => cases q <;> simp [Cab.occupy, Cab.occupancy, read_setEntry]
  | transport | gripper | exit => cases hp

theorem Cab.occupancy_congr (hslots : c'.slots = c.slots) (hbays : c'.bays = c.bays) (hstagings : c'.stagings = c.stagings)
    (p : Place) : c'.occupancy p = c.occupancy p := by
  simp only [Cab.occupancy, hslots, hbays, hstagings]

/-- A position set leaves all of CAB but the positions. -/
theorem Cab.occupy_eq (c : Cab) (p : Place) (o : Option Occupancy) : c.occupy p o =
    { c with slots := (c.occupy p o).slots, bays := (c.occupy p o).bays, stagings := (c.occupy p o).stagings } := by
  cases p <;> rfl

/-- CAB's end of an event leaves the positions. -/
@[simp] theorem refreshCab_occupancy (p : Place) : (refreshCab s).cab.occupancy p = s.cab.occupancy p := by
  rw [refreshCab_cab]; exact Cab.occupancy_congr rfl rfl rfl p

/-! ### The move in an entry (R157) -/

theorem entry_ne_of_nodup (h : ((older ++ m :: rest).map (·.entry)).Nodup) :
    (∀ x ∈ older, x.entry ≠ m.entry) ∧ ∀ x ∈ rest, x.entry ≠ m.entry := by
  rw [List.map_append, List.map_cons, List.nodup_middle, List.nodup_cons, List.mem_append] at h
  obtain ⟨holder, hrest⟩ := not_or.mp h.1
  exact ⟨fun x hx he => holder (he ▸ List.mem_map_of_mem hx), fun x hx he => hrest (he ▸ List.mem_map_of_mem hx)⟩

theorem Cab.modMove_eq (hc : c.moves = older ++ m :: rest) (h : (c.moves.map (·.entry)).Nodup) (f : Move → Move) :
    c.modMove m.entry f = { c with moves := older ++ f m :: rest } := by
  obtain ⟨holder, hrest⟩ := entry_ne_of_nodup (hc ▸ h)
  have hsame : ∀ {l : List Move}, (∀ x ∈ l, x.entry ≠ m.entry) →
      l.map (fun x => if x.entry = m.entry then f x else x) = l :=
    fun hl => (List.map_congr_left fun x hx => if_neg (hl x hx)).trans (List.map_id _)
  simp only [Cab.modMove, hc, List.map_append, List.map_cons, hsame holder, hsame hrest, if_true]

theorem Cab.removeMove_eq (hc : c.moves = older ++ m :: rest) (h : (c.moves.map (·.entry)).Nodup) :
    c.removeMove m.entry = { c with moves := older ++ rest } := by
  obtain ⟨holder, hrest⟩ := entry_ne_of_nodup (hc ▸ h)
  have hkeep : ∀ {l : List Move}, (∀ x ∈ l, x.entry ≠ m.entry) → l.filter (fun x => x.entry != m.entry) = l :=
    fun hl => List.filter_eq_self.mpr fun x hx => by simpa using hl x hx
  simp [Cab.removeMove, hc, List.filter_append, hkeep holder, hkeep hrest]

theorem find_entry (hc : c.moves = older ++ m :: rest) (h : (c.moves.map (·.entry)).Nodup) :
    c.moves.find? (fun x => x.entry == m.entry) = some m := by
  obtain ⟨holder, -⟩ := entry_ne_of_nodup (hc ▸ h)
  exact List.find?_eq_some_iff_append.mpr ⟨by simp, older, rest, hc, fun x hx => by simpa using holder x hx⟩

/-! ### The move in flight and the oldest eligible one (R159, R160, R162) -/

theorem Cab.moving_eq_none (h : ∀ x ∈ c.moves, x.state ≠ .moving) : c.moving = none :=
  List.find?_eq_none.mpr fun x hx => by simpa using h x hx

theorem Cab.moving_isSome (hm : m ∈ c.moves) (h : m.state = .moving) : c.moving.isSome = true :=
  List.find?_isSome.mpr ⟨m, hm, by simp [h]⟩

theorem Cab.moving_eq_some (hc : c.moves = older ++ m :: rest) (holder : ∀ x ∈ older, x.state ≠ .moving)
    (h : m.state = .moving) : c.moving = some m :=
  List.find?_eq_some_iff_append.mpr ⟨by simp [h], older, rest, hc, fun x hx => by simpa using holder x hx⟩

/-- R160: with a move in flight none is eligible. -/
theorem eligibleNow_of_moving (hm : m ∈ s.cab.moves) (h : m.state = .moving) : s.eligibleNow = false := by
  simp [State.eligibleNow, State.oldestEligible, Cab.moving_isSome hm h]

theorem oldestEligible_eq_none (hidle : ∀ x ∈ s.cab.moves, x.state ≠ .moving)
    (h : ∀ x ∈ s.cab.moves, ¬(x.state = .queued ∧ s.chooseDest x ≠ none)) : s.oldestEligible = none := by
  rw [State.oldestEligible, Cab.moving_eq_none hidle]
  exact List.find?_eq_none.mpr fun x hx => by simpa [Option.isSome_iff_ne_none] using h x hx

theorem oldestEligible_eq_some (hidle : ∀ x ∈ s.cab.moves, x.state ≠ .moving) (hc : s.cab.moves = older ++ m :: rest)
    (holder : ∀ x ∈ older, ¬(x.state = .queued ∧ s.chooseDest x ≠ none)) (hqueued : m.state = .queued)
    (hdest : s.chooseDest m ≠ none) : s.oldestEligible = some m := by
  rw [State.oldestEligible, Cab.moving_eq_none hidle]
  refine List.find?_eq_some_iff_append.mpr ⟨?_, older, rest, hc, fun x hx => ?_⟩
  · simpa [hqueued, Option.isSome_iff_ne_none] using hdest
  · simpa [Option.isSome_iff_ne_none, or_iff_not_imp_left] using holder x hx

/-! ### Destinations (R159) -/

/-- The lowest-numbered free entry from an entry on. -/
theorem Table.firstFreeFrom_eq {α : Type} {l : Table α} {count lo n : Nat} (hlo : lo ≤ n) (hn : n < lo + count)
    (h : l.read n = none) (hlow : ∀ k, lo ≤ k → k < n → l.read k ≠ none) : l.firstFreeFrom count lo = some n := by
  cases hk : l.firstFreeFrom count lo with
  | none => exact absurd h (Table.firstFreeFrom_none hk n hlo hn)
  | some k =>
    obtain ⟨hlok, -, hfree, hbelow⟩ := Table.firstFreeFrom_spec hk
    rcases Nat.lt_trichotomy n k with hlt | rfl | hgt
    · exact absurd h (hbelow n hlo hlt)
    · rfl
    · exact absurd hfree (hlow k hlok hgt)

/-- The lowest-numbered free position of a range. -/
def Table.LowestFree (l : Table Occupancy) (lo hi n : Nat) : Prop :=
  lo ≤ n ∧ n < hi ∧ l.read n = none ∧ ∀ k, lo ≤ k → k < n → l.read k ≠ none

theorem Table.LowestFree.firstFreeFrom {l : Table Occupancy} {lo hi n : Nat} (h : Table.LowestFree l lo hi n) :
    l.firstFreeFrom (hi - lo) lo = some n := by
  obtain ⟨hlo, hhi, hfree, hlow⟩ := h
  exact Table.firstFreeFrom_eq hlo (by omega) hfree hlow

theorem chooseDest_bay {n : Nat} (hk : m.kind = .fetchOut ∨ m.kind = .stageBack) (h : Table.LowestFree s.cab.bays 0 8 n) :
    s.chooseDest m = some (.bay n) := by
  have hfree : s.cab.freeBay = some n := h.firstFreeFrom
  rcases hk with hk | hk <;> simp [State.chooseDest, hk, hfree]

theorem chooseDest_staging {n : Nat} (hk : m.kind = .toStaging) (h : Table.LowestFree s.cab.stagings 0 8 n) :
    s.chooseDest m = some (.staging n) := by
  have hfree : s.cab.freeStaging = some n := h.firstFreeFrom
  simp [State.chooseDest, hk, hfree]

theorem chooseDest_relocate {n : Nat} (hk : m.kind = .relocate) (h : Table.LowestFree s.cab.slots 64 80 n) :
    s.chooseDest m = some (.slot n) := by
  have hfree : s.cab.freeIsolation = some n := h.firstFreeFrom
  simp [State.chooseDest, hk, hfree]

theorem chooseDest_shelve {r : Reel} (hk : m.kind = .shelve) (hr : s.reel m.handle = some r) :
    s.chooseDest m = (shelveSlot s.cab r).map .slot := by
  simp [State.chooseDest, hk, hr]

/-- The home slot takes the reel back: it is free, and of the zone the class asks for. -/
def Cab.homeFits (c : Cab) (r : Reel) : Prop := c.slots.read r.home = none ∧ (64 ≤ r.home ∨ r.acidity < 2)

theorem shelveSlot_home {r : Reel} (h : c.homeFits r) : shelveSlot c r = some r.home :=
  if_pos (by simpa [isolationSlot, Config.isolation, Cab.homeFits] using h)

theorem shelveSlot_free {r : Reel} (h : ¬c.homeFits r) :
    shelveSlot c r = if 2 ≤ r.acidity then c.freeIsolation else c.freeStandard :=
  if_neg (by simpa [isolationSlot, Config.isolation, Cab.homeFits] using h)

end Sys2Proof.Machine
end

section
/-! SUPPORT. TAKE_MOVE hands a move out (R162). -/

namespace Sys2Proof.Machine

variable {s : State} {older rest : List Move} {m : Move}

/-- R162: the reel, the positions, and CAB with the move in flight. -/
theorem handOut_spec (hc : s.cab.moves = older ++ m :: rest) (hn : (s.cab.moves.map (·.entry)).Nodup) (d : Place) :
    let m' : Move := { m with dest := some d, state := .moving }
    let t := handOut m d s
    (∀ r, s.reel m.handle = some r → OnlyReel m.handle { r with location := .gripper } s t) ∧
      (∀ p, Place.isPosition p = true → t.cab.occupancy p =
        if p = m.source then some (.held m.entry) else if p = d then some (.reserved m.entry) else s.cab.occupancy p) ∧
      CabSettled { s.cab with
        slots := t.cab.slots, bays := t.cab.bays, stagings := t.cab.stagings, moves := older ++ m' :: rest
        gripper := some ⟨m.handle, m.entry⟩ } [] s t ∧ t.cab.eligible = false := by
  intro m' t
  obtain ⟨c, hcab⟩ : ∃ c, c = ((s.cab.modMove m.entry fun x => { x with dest := some d, state := .moving }).occupy d
    (some (.reserved m.entry))).occupy m.source (some (.held m.entry)) := ⟨_, rfl⟩
  obtain ⟨v, hv⟩ : ∃ v, v = (s.setCab { c with gripper := some ⟨m.handle, m.entry⟩ }).modReel m.handle
    fun r => { r with location := .gripper } := ⟨_, rfl⟩
  have ht : t = refreshCab v := by rw [hv, hcab]; rfl
  have hvcab : v.cab = { s.cab with
      slots := v.cab.slots, bays := v.cab.bays, stagings := v.cab.stagings, moves := older ++ m' :: rest
      gripper := some ⟨m.handle, m.entry⟩ } := by
    rw [hv, State.modReel_cab, State.setCab_cab, hcab, Cab.occupy_eq _ m.source, Cab.occupy_eq _ d,
      Cab.modMove_eq hc hn]
  rw [ht]
  refine ⟨fun r hr => ?_, fun p hp => ?_, ?_, ?_⟩
  · have hreel : OnlyReel m.handle { r with location := .gripper } s v := by rw [hv]; exact onlyReel_modReel hr _
    exact hreel.of_reg (by simp)
  · have hvocc : v.cab.occupancy p = c.occupancy p := by rw [hv]; exact Cab.occupancy_congr rfl rfl rfl p
    rw [refreshCab_occupancy, hvocc, hcab, Cab.occupancy_occupy _ _ _ hp, Cab.occupancy_occupy _ _ _ hp]
    rfl
  · exact cabSettled_refreshCab (hvcab.trans (by rw [refreshCab_cab])) rfl rfl (.nil (by rw [hv]; rfl)) (by rw [hv]; rfl)
  · rw [refreshCab_cab]
    exact eligibleNow_of_moving (m := m') (by rw [hvcab]; simp) rfl

theorem takeMoveBody_none (hmoving : s.cab.moving = none) (hold : s.oldestEligible = none) :
    takeMoveBody s = (s, .only .none) := by
  simp [takeMoveBody, hmoving, hold]

theorem takeMoveBody_some {d : Place} (hmoving : s.cab.moving = none) (hold : s.oldestEligible = some m)
    (hd : s.chooseDest m = some d) : takeMoveBody s =
      (handOut m d s, .ok (moveBytes s { m with dest := some d, state := .moving })) := by
  simp [takeMoveBody, hmoving, hold, hd]

/-- Settles O58: `handOut_spec` gives the effect of a hand-out, `oldestEligible` which move it is; the destinations of each
kind are the lowest free positions. -/
theorem takeMoveHandsOutTheOldestEligible : Obligations.TakeMoveHandsOutTheOldestEligible := by
  unfold Obligations.TakeMoveHandsOutTheOldestEligible
  intro rq s hserved u c ready free
  have hu : u.cab = s.cab := arrive_cab _
  have hdest : ∀ m, u.chooseDest m = s.chooseDest m := (SameFiling.arrive (.refl s) rq.port).chooseDest
  refine ⟨fun m hm hmoving => ?_, fun hnone => ?_, fun hidle hn older m rest d hc holder hqueued hd => ?_,
    fun m n => ⟨chooseDest_bay, chooseDest_staging, chooseDest_relocate, fun hk => ?_, fun hk r hr => ?_⟩⟩
  · exact exec_of_same rfl hserved (if_pos (Cab.moving_isSome (hu ▸ hm) hmoving))
  · have hmoving : u.cab.moving = none := Cab.moving_eq_none fun x hx => (hnone x (hu ▸ hx)).1
    have hold : u.oldestEligible = none := oldestEligible_eq_none (fun x hx => (hnone x (hu ▸ hx)).1) fun x hx => by
      rw [hdest]; exact (hnone x (hu ▸ hx)).2
    exact exec_of_same rfl hserved (takeMoveBody_none hmoving hold)
  · have hmoving : u.cab.moving = none := Cab.moving_eq_none fun x hx => hidle x (hu ▸ hx)
    have hold : u.oldestEligible = some m := oldestEligible_eq_some (fun x hx => hidle x (hu ▸ hx)) (hu ▸ hc)
      (fun x hx => by rw [hdest]; exact holder x hx) hqueued (by rw [hdest, hd]; simp)
    obtain ⟨hreel, hocc, hcab, heligible⟩ := handOut_spec (s := u) (hu ▸ hc) (hu ▸ hn) d
    have hbody := takeMoveBody_some hmoving hold ((hdest m).trans hd)
    rw [arrive_moveBytes] at hbody
    refine exec_of_body (v := handOut m d u) rfl hserved hbody (by simp) (by simp [u])
      ⟨fun r hr => (hreel r ((arrive_reel ..).trans hr)).answer _ _, fun p hp => ?_, ?_, heligible⟩
    · rw [answer_cab, hocc p hp, hu]
    · rw [← hu]; exact hcab.answer _ _
  · simp [State.chooseDest, hk]
  · intro homeFits
    rw [chooseDest_shelve hk hr]
    refine ⟨fun hfits => ?_, fun hno hacid hfree => ?_, fun hno hacid hfree => ?_⟩
    · rw [shelveSlot_home hfits]; rfl
    · rw [shelveSlot_free hno, if_pos hacid, Cab.freeIsolation,
        show Config.slots - Config.isolation = 80 - 64 from rfl]
      exact congrArg _ (Table.LowestFree.firstFreeFrom hfree)
    · rw [shelveSlot_free hno, if_neg (by omega)]
      exact congrArg _ (Table.LowestFree.firstFreeFrom hfree)

end Sys2Proof.Machine
end

section
/-! SUPPORT. MOVE_FAILED, RETRY, CANCEL_MOVE and BAY_CLIMATE (R164 to R166, R171). -/

namespace Sys2Proof.Machine

variable {s : State} {older rest : List Move} {m : Move}

@[simp] theorem Cab.occupy_moves (c : Cab) (p : Place) (o : Option Occupancy) : (c.occupy p o).moves = c.moves := by
  rw [Cab.occupy_eq]

/-- R164: the reel is back at the source, and the move is BLOCKED. -/
theorem failMove_spec {d : Place} {r : Reel} (hc : s.cab.moves = older ++ m :: rest)
    (hn : (s.cab.moves.map (·.entry)).Nodup) (hd : m.dest = some d) (hr : s.reel m.handle = some r) :
    let t := failMove m s
    OnlyReel m.handle { r with location := m.source } s t ∧
      (∀ p, Place.isPosition p = true → t.cab.occupancy p =
        if p = m.source then some (.holding m.handle) else if p = d then none else s.cab.occupancy p) ∧
      CabSettled { s.cab with
        slots := t.cab.slots, bays := t.cab.bays, stagings := t.cab.stagings, gripper := none
        moves := older ++ { m with dest := none, state := .blocked } :: rest } [.moveFailed] s t := by
  intro t
  obtain ⟨c, hcab⟩ : ∃ c, c = (s.cab.occupy d none).occupy m.source (some (.holding m.handle)) := ⟨_, rfl⟩
  obtain ⟨w, hw⟩ : ∃ w, w = (s.setCab { c.modMove m.entry (fun x => { x with dest := none, state := .blocked }) with
    gripper := none }).locate m.handle m.source := ⟨_, rfl⟩
  have ht : t = refreshCab (raise .moveFailed w) := by
    simp only [t, failMove, hd, freeDest]; rw [hw, hcab]; rfl
  have hmod := Cab.modMove_eq (c := c) (m := m) (older := older) (rest := rest) (by rw [hcab]; simpa using hc)
    (by rw [hcab]; simpa using hn) fun x => { x with dest := none, state := .blocked }
  have hwcab : w.cab = { s.cab with
      slots := w.cab.slots, bays := w.cab.bays, stagings := w.cab.stagings, gripper := none
      moves := older ++ { m with dest := none, state := .blocked } :: rest } := by
    rw [hw, State.locate, State.modReel_cab, State.setCab_cab, hmod, hcab, Cab.occupy_eq _ m.source, Cab.occupy_eq _ d]
  rw [ht]
  refine ⟨?_, fun p hp => ?_, ?_⟩
  · have hreel : OnlyReel m.handle { r with location := m.source } s w := by rw [hw]; exact onlyReel_modReel hr _
    exact hreel.of_reg (by simp)
  · have hwocc : w.cab.occupancy p = c.occupancy p := by rw [hw]; exact Cab.occupancy_congr rfl rfl rfl p
    rw [refreshCab_occupancy, raise_cab, hwocc, hcab, Cab.occupancy_occupy _ _ _ hp, Cab.occupancy_occupy _ _ _ hp]
  · have hraised : Latches [.moveFailed] s (raise .moveFailed w) :=
      (Latches.nil (by rw [hw]; rfl)).raise (fun _ => by rw [hw]; rfl) _
    exact cabSettled_refreshCab ((raise_cab _).trans (hwcab.trans (by rw [refreshCab_cab, raise_cab]))) rfl rfl hraised
      (by rw [hw]; rfl)

theorem moveFailedBody_none (h : s.cab.moving = none) : moveFailedBody s = (s, .only .state) := by
  simp [moveFailedBody, h]

theorem moveFailedBody_some (h : s.cab.moving = some m) : moveFailedBody s = (failMove m s, .ok (u8 m.entry)) := by
  simp [moveFailedBody, h]

/-! ### The checks that RETRY and CANCEL_MOVE share (R165, R166) -/

section Checks

variable {a : MoveArgs} {body : Move → Body}

theorem withMove_found (hc : s.cab.moves = older ++ m :: rest) (hn : (s.cab.moves.map (·.entry)).Nodup)
    (he : m.entry = a.entry.toNat) (ha : a.entry.toNat < 16) (hh : a.handle.toNat < 96) :
    withMove a body s = if m.handle = a.handle.toNat then body m s else (s, .only .state) := by
  have hfind : s.cab.moves.find? (fun x => x.entry == a.entry.toNat) = some m := he ▸ find_entry hc hn
  have hin : ¬(16 ≤ a.entry.toNat ∨ 96 ≤ a.handle.toNat) := by omega
  simp [withMove, Config.moves, Config.reels, hin, hfind]

theorem retryBody_found (hc : s.cab.moves = older ++ m :: rest) (hn : (s.cab.moves.map (·.entry)).Nodup)
    (he : m.entry = a.entry.toNat) (ha : a.entry.toNat < 16) (hh : a.handle.toNat < 96) : retryBody a s =
      if m.handle = a.handle.toNat then
        if m.state = .blocked then
          (refreshCab (s.setCab { s.cab with moves := older ++ { m with state := .queued } :: rest }), .ok [])
        else (s, .only .state)
      else (s, .only .state) := by
  rw [retryBody, withMove_found hc hn he ha hh, Cab.modMove_eq hc hn]

theorem cancelMoveBody_found (hc : s.cab.moves = older ++ m :: rest) (hn : (s.cab.moves.map (·.entry)).Nodup)
    (he : m.entry = a.entry.toNat) (ha : a.entry.toNat < 16) (hh : a.handle.toNat < 96) : cancelMoveBody a s =
      if m.handle = a.handle.toNat then
        if m.state = .moving ∨ m.kind.cancellable = false then (s, .only .state) else (cancelMove m s, .ok [])
      else (s, .only .state) := withMove_found hc hn he ha hh

theorem withMove_absent (h : ∀ x ∈ s.cab.moves, x.entry ≠ a.entry.toNat) (ha : a.entry.toNat < 16)
    (hh : a.handle.toNat < 96) : withMove a body s = (s, .only .state) := by
  have hfind : s.cab.moves.find? (fun x => x.entry == a.entry.toNat) = none :=
    List.find?_eq_none.mpr fun x hx => by simpa using h x hx
  have hin : ¬(16 ≤ a.entry.toNat ∨ 96 ≤ a.handle.toNat) := by omega
  simp [withMove, Config.moves, Config.reels, hin, hfind]

theorem withMove_badArg (h : 16 ≤ a.entry.toNat ∨ 96 ≤ a.handle.toNat) : withMove a body s = (s, .only .badArg) :=
  if_pos h

end Checks

/-! ### RETRY and CANCEL_MOVE (R165, R166) -/

/-- R166: the record, and CAB where one mark is all that drains. -/
theorem cancelMove_spec {r : Reel} (hr : s.reel m.handle = some r) :
    let c := s.cab.removeMove m.entry
    let back : Reel := if m.kind = .relocate then { r with relocation := false } else { r with circulation := .shelved }
    let asked := decide (m.kind ≠ .relocate) && back.mustRelocate
    let t := cancelMove m s
    OnlyReel m.handle { back with relocation := back.relocation || asked } s t ∧
      (c.drainedByOne s →
        CabSettled (if asked then (c.drainOne s).ask m.handle .relocate r.location else c.drainOne s)
          (relocationEvents c.moves.length t.cab) s t) := by
  intro c back asked t
  obtain ⟨heligible, hfull⟩ := drainOne_flags c s
  by_cases hk : m.kind = .relocate
  · have hback : back = { r with relocation := false } := if_pos hk
    have hasked : asked = false := by simp [asked, hk]
    have ht : t = refreshCab ((drain (s.setCab c)).modReel m.handle fun r => { r with relocation := false }) :=
      congrArg refreshCab (if_pos hk)
    rw [hasked, hback, ht, Bool.or_false, if_neg (by simp), relocationEvents_refreshCab]
    have hreel : OnlyReel m.handle r s (drain (s.setCab c)) := (OnlyReel.refl hr).of_reg (by simp)
    refine ⟨(hreel.modReel fun r => { r with relocation := false }).of_reg (by simp), fun hone => ?_⟩
    obtain ⟨hcab, hl⟩ := drain_spec (s := s.setCab c) hone
    exact cabSettled_refreshCab hcab heligible hfull hl (by simp)
  · have hback : back = { r with circulation := .shelved } := if_neg hk
    have hasked : asked = back.mustRelocate := by simp [asked, hk]
    have ht : t = refreshCab (backToShelved m.handle (drain (s.setCab c))) := congrArg refreshCab (if_neg hk)
    obtain ⟨hreel, hone⟩ := backToShelved_drain_spec hr c
    rw [← hback] at hreel hone
    rw [hasked, ht, relocationEvents_refreshCab]
    refine ⟨OnlyReel.of_reg (t := backToShelved m.handle (drain (s.setCab c))) (by simpa [hback] using hreel) (by simp),
      fun hd => ?_⟩
    obtain ⟨hcab, hl⟩ := hone hd
    exact cabSettled_refreshCab hcab (by rw [apply_ite Cab.eligible, Cab.ask_eligible, ite_self]; exact heligible)
      (by rw [apply_ite Cab.isoFull, Cab.ask_isoFull, ite_self]; exact hfull) hl (by simp)

theorem cancellable_eq_false : m.kind.cancellable = false ↔
    m.kind = .toStaging ∨ m.kind = .stageBack ∨ m.kind = .shelve := by
  cases m.kind <;> simp [MoveKind.cancellable]

/-- Settles O60: `failMove_spec` and `cancelMove_spec` give the effects, the lemmas about `withMove` the shared checks. -/
theorem failedRetriedAndCancelledMoves : Obligations.FailedRetriedAndCancelledMoves := by
  unfold Obligations.FailedRetriedAndCancelledMoves
  intro rq s hserved hn u refused
  have hu : u.cab = s.cab := arrive_cab _
  have hreels : ∀ j, u.reel j = s.reel j := arrive_reel rq.port s
  have hun : (u.cab.moves.map (·.entry)).Nodup := hu ▸ hn
  refine ⟨fun hidle => ?_, fun older m rest d r hc holder hm hd hr => ?_, fun older m rest a hc he ha hh => ?_,
    fun a ha hh hno => ?_, fun a hbad => ?_, fun v => ⟨fun hv => ?_, fun hv => ?_⟩⟩
  · exact exec_of_same rfl hserved (moveFailedBody_none (Cab.moving_eq_none fun x hx => hidle x (hu ▸ hx)))
  · have hmoving : u.cab.moving = some m := Cab.moving_eq_some (hu ▸ hc) holder hm
    obtain ⟨hreel, hocc, hcab⟩ := failMove_spec (s := u) (hu ▸ hc) hun hd ((hreels _).trans hr)
    rw [hu] at hocc hcab
    exact exec_of_body (v := failMove m u) rfl hserved (moveFailedBody_some hmoving) (by simp) (by simp [u])
      ⟨hreel.answer _ _, hocc, hcab.answer _ _⟩
  · have hretry := retryBody_found (hu ▸ hc) hun he ha hh
    have hcancel := cancelMoveBody_found (hu ▸ hc) hun he ha hh
    refine ⟨fun hj => ⟨?_, ?_⟩, fun hj => ⟨fun hb => ?_, fun hb => ?_, fun hno => ?_, fun hm hk r hr => ?_⟩⟩
    · exact exec_of_same rfl hserved (hretry.trans (if_neg hj))
    · exact exec_of_same rfl hserved (hcancel.trans (if_neg hj))
    · exact exec_of_same rfl hserved ((hretry.trans (if_pos hj)).trans (if_neg hb))
    · refine exec_of_body rfl hserved ((hretry.trans (if_pos hj)).trans (if_pos hb)) (by simp) (by simp [u])
        (CabSettled.answer ?_ _ _)
      exact cabSettled_refreshCab (by rw [← hu]; rfl) (by rw [hu]) (by rw [hu]) (.nil rfl) rfl
    · have hstate : m.state = .moving ∨ m.kind.cancellable = false := hno.imp_right cancellable_eq_false.mpr
      exact exec_of_same rfl hserved ((hcancel.trans (if_pos hj)).trans (if_pos hstate))
    · intro c back asked
      have hstate : ¬(m.state = .moving ∨ m.kind.cancellable = false) := by
        rw [cancellable_eq_false]; rcases hk with hk | hk | hk <;> simp [hm, hk]
      have hremove : u.cab.removeMove m.entry = c := (Cab.removeMove_eq (hu ▸ hc) hun).trans (by rw [hu])
      obtain ⟨hreel, hone⟩ := cancelMove_spec (s := u) (m := m) ((hreels _).trans hr)
      rw [hremove, drainedByOne_congr hreels, drainOne_congr c hreels] at hone
      exact exec_of_body (v := cancelMove m u) rfl hserved ((hcancel.trans (if_pos hj)).trans (if_neg hstate)) (by simp)
        (by simp [u]) ⟨hreel.answer _ _, fun hd => (hone hd).answer _ _⟩
  · have hno : ∀ x ∈ u.cab.moves, x.entry ≠ a.entry.toNat := hu ▸ hno
    have hretry : retryBody a u = (u, .only .state) := withMove_absent hno ha hh
    have hcancel : cancelMoveBody a u = (u, .only .state) := withMove_absent hno ha hh
    exact ⟨exec_of_same rfl hserved hretry, exec_of_same rfl hserved hcancel⟩
  · have hretry : retryBody a u = (u, .only .badArg) := withMove_badArg hbad
    have hcancel : cancelMoveBody a u = (u, .only .badArg) := withMove_badArg hbad
    exact ⟨exec_of_same rfl hserved hretry, exec_of_same rfl hserved hcancel⟩
  · exact exec_of_same rfl hserved (if_pos hv)
  · have hone : (v.toNat == 1) = decide (v = 1) := by
      rw [Bool.eq_iff_iff]; simp [BitVec.toNat_eq]
    refine exec_of_body rfl hserved (if_neg (Nat.not_lt.mpr hv)) (by simp) (by simp) ?_
    rw [answer_cab, State.setCab_cab, hu, hone]

end Sys2Proof.Machine
end

section
/-! SUPPORT. What of CAB a drain, a move asked for and the timers leave, and on what they depend (R157, R158, R169). -/

namespace Sys2Proof.Machine

variable {s t : State} {c c' : Cab}

/-! ### CAB without its queue, and the queue (R157, R158) -/

/-- CAB without the moves and the leg-due list. -/
def Cab.fixtures (c : Cab) : Cab := { c with moves := [], legDue := [] }

/-- The moves and the leg-due list. -/
def Cab.queue (c : Cab) : List Move × List LegDue := (c.moves, c.legDue)

theorem Cab.queue_iff : c'.queue = c.queue ↔ c'.moves = c.moves ∧ c'.legDue = c.legDue := by
  simp [Cab.queue]

/-- CAB without the queue, the bay timers and the two conditions. -/
def Cab.places (c : Cab) : Cab := { c.fixtures with bayTimers := [], isoFull := false, eligible := false }

theorem Cab.places_of_fixtures (h : c'.fixtures = c.fixtures) : c'.places = c.places := by rw [Cab.places, h]; rfl

theorem Cab.bayTimers_of_fixtures (h : c'.fixtures = c.fixtures) : c'.bayTimers = c.bayTimers := by
  simpa [Cab.fixtures] using congrArg Cab.bayTimers h

theorem Cab.occupancy_of_places (h : c'.places = c.places) (p : Place) : c'.occupancy p = c.occupancy p :=
  Cab.occupancy_congr (congrArg Cab.slots h) (congrArg Cab.bays h) (congrArg Cab.stagings h) p

theorem Cab.rest_of_places (h : c'.places = c.places) : c'.gripper = c.gripper ∧ c'.climateOut = c.climateOut :=
  ⟨by simpa [Cab.places, Cab.fixtures] using congrArg Cab.gripper h,
    by simpa [Cab.places, Cab.fixtures] using congrArg Cab.climateOut h⟩

theorem Cab.fixtures_ask (c : Cab) (h : Nat) (kind : MoveKind) (source : Place) :
    (c.ask h kind source).fixtures = c.fixtures := by
  unfold Cab.ask
  split <;> rfl

@[simp] theorem autoMove_fixtures (h : Nat) (kind : MoveKind) : (autoMove h kind s).cab.fixtures = s.cab.fixtures := by
  rw [autoMove_cab]; rfl

theorem enterAuto_fixtures (h : Nat) (kind : MoveKind) : (enterAuto h kind s).cab.fixtures = s.cab.fixtures := by
  unfold enterAuto createMove createMoveIn
  (repeat' split) <;> simp [Cab.fixtures]

theorem drainMarks_fixtures (l : List LegDue) : ∀ s : State, (drainMarks l s).cab.fixtures = s.cab.fixtures := by
  induction l with
  | nil => exact fun _ => rfl
  | cons d rest ih =>
    intro s
    unfold drainMarks
    split
    · exact (ih _).trans (enterAuto_fixtures ..)
    · rfl

@[simp] theorem drain_fixtures : (drain s).cab.fixtures = s.cab.fixtures := drainMarks_fixtures _ s

@[simp] theorem relocationCheck_fixtures (h : Nat) : (relocationCheck h s).cab.fixtures = s.cab.fixtures := by
  unfold relocationCheck
  split
  · split
    · split
      · exact autoMove_fixtures ..
      · rfl
    · rfl
  · rfl

theorem Cab.freeEntry_congr (h : c'.moves = c.moves) : c'.freeEntry = c.freeEntry := by rw [Cab.freeEntry, h]; rfl

/-- A move asked for depends on the queue alone. -/
theorem Cab.ask_queue (hq : c'.queue = c.queue) (h : Nat) (kind : MoveKind) (source : Place) :
    (c'.ask h kind source).queue = (c.ask h kind source).queue := by
  obtain ⟨hmoves, hdue⟩ := Cab.queue_iff.mp hq
  unfold Cab.ask
  rw [Cab.freeEntry_congr hmoves]
  split <;> simp [Cab.queue, hmoves, hdue]

/-- What one drained mark leaves of the queue depends on the queue alone. -/
theorem Cab.drainOne_queue (hq : c'.queue = c.queue) (s : State) : (c'.drainOne s).queue = (c.drainOne s).queue := by
  obtain ⟨hmoves, hdue⟩ := Cab.queue_iff.mp hq
  unfold Cab.drainOne
  rw [hdue]
  split
  · exact hq
  · next d rest _ =>
    split
    · exact Cab.ask_queue (c' := { c' with legDue := rest }) (c := { c with legDue := rest })
        (Cab.queue_iff.mpr ⟨hmoves, rfl⟩) ..
    · exact hq

theorem Cab.drainedByOne_queue (hq : c'.queue = c.queue) (s : State) : c'.drainedByOne s ↔ c.drainedByOne s := by
  obtain ⟨hmoves, hdue⟩ := Cab.queue_iff.mp hq
  have hone := Cab.freeEntry_congr (Cab.queue_iff.mp (Cab.drainOne_queue hq s)).1
  unfold Cab.drainedByOne
  rw [hdue, Cab.freeEntry_congr hmoves, hone]

/-! ### Bay timers (R155, R169) -/

theorem bayTimer_setBayTimer (hlen : s.cab.bayTimers.length = 8) {n : Nat} (hn : n < 8) (k : Nat) (x : BayTimer) :
    (s.setBayTimer k x).cab.bayTimer n = if n = k then x else s.cab.bayTimer n := by
  have hn : n < s.cab.bayTimers.length := hlen ▸ hn
  simp only [State.setBayTimer, State.setCab_cab, Cab.bayTimer, List.getD_eq_getElem?_getD, List.getElem?_set]
  split
  · next hk => subst hk; rw [if_pos rfl]; simp [hn]
  · next hk => rw [if_neg (Ne.symm hk)]

theorem bayTimer_idleBay (hlen : s.cab.bayTimers.length = 8) {n : Nat} (hn : n < 8) (p : Place) :
    (idleBay p s).cab.bayTimer n = if p = .bay n then ⟨.idle, (s.cab.bayTimer n).direction, 0⟩ else s.cab.bayTimer n := by
  cases p with
  | bay k =>
    rw [idleBay, bayTimer_setBayTimer hlen hn]
    by_cases hk : n = k
    · subst hk; rw [if_pos rfl, if_pos rfl]
    · rw [if_neg hk, if_neg fun h => hk (Place.bay.inj h).symm]
  | _ => rfl

/-- A timer made IDLE leaves the queue and the positions. -/
theorem idleBay_queue (p : Place) : (idleBay p s).cab.queue = s.cab.queue := by cases p <;> rfl

theorem idleBay_places (p : Place) : (idleBay p s).cab.places = s.cab.places := by cases p <;> rfl

/-! ### Tables filtered by what they hold -/

theorem Table.read_eq_some_iff {α : Type} {l : Table α} (h : l.wf = true) {n : Nat} {x : α} :
    l.read n = some x ↔ (n, x) ∈ l := ⟨Table.mem_of_read, fun hx => Table.read_of_mem h hx⟩

theorem Table.read_filter_value {α : Type} {l : Table α} (h : l.wf = true) (p : α → Bool) (n : Nat) :
    Table.read (l.filter fun e => p e.2) n = (l.read n).filter p := by
  ext x
  rw [Table.read_eq_some_iff (Table.wf_filter h _), List.mem_filter, Option.filter_eq_some_iff, Table.read_eq_some_iff h]

/-- The numbers of the entries with a value of a kind. -/
theorem Table.contains_keys_filter {α : Type} {l : Table α} (h : l.wf = true) (p : α → Bool) (n : Nat) :
    ((l.filter fun e => p e.2).map (·.1)).contains n = (l.read n).any p := by
  rw [Bool.eq_iff_iff, List.contains_iff_mem, List.mem_map, Option.any_eq_true]
  constructor
  · rintro ⟨⟨k, x⟩, hx, rfl⟩
    obtain ⟨hx, hp⟩ := List.mem_filter.mp hx
    exact ⟨x, Table.read_of_mem h hx, hp⟩
  · rintro ⟨x, hx, hp⟩
    exact ⟨(n, x), List.mem_filter.mpr ⟨Table.mem_of_read hx, hp⟩, rfl⟩

end Sys2Proof.Machine
end

section
/-! SUPPORT. MOVE_DONE: the reel at the destination, the queue drained, the record updated by the kind (R163, Table 1-3). -/

namespace Sys2Proof.Machine

variable {s : State} {m : Move} {d : Place} {r : Reel}

/-! ### The positions and the queue (R163, steps 1 and 2) -/

/-- CAB with the reel placed and the move out of the queue. -/
def Cab.taken (c : Cab) (m : Move) (d : Place) : Cab :=
  { ((c.occupy d (some (.holding m.handle))).occupy m.source none).removeMove m.entry with gripper := none }

/-- The state with the leg-due list drained after that. -/
def moveTaken (m : Move) (d : Place) (s : State) : State := drain (s.setCab (s.cab.taken m d))

theorem finishMove_eq : finishMove m d s = refreshCab (followUp m d (moveTaken m d s)) := rfl

theorem Cab.taken_eq (c : Cab) : c.taken m d = { c.removeMove m.entry with
    slots := (c.taken m d).slots, bays := (c.taken m d).bays, stagings := (c.taken m d).stagings, gripper := none } := by
  rw [Cab.taken, Cab.occupy_eq _ m.source, Cab.occupy_eq _ d]; rfl

theorem Cab.taken_occupancy (c : Cab) {p : Place} (hp : p.isPosition = true) : (c.taken m d).occupancy p =
    if p = m.source then none else if p = d then some (.holding m.handle) else c.occupancy p := by
  rw [← Cab.occupancy_occupy _ _ _ hp, ← Cab.occupancy_occupy _ _ _ hp]
  exact Cab.occupancy_congr rfl rfl rfl p

theorem moveTaken_same : (moveTaken m d s).reg = s.reg ∧ (moveTaken m d s).rpq = s.rpq ∧
    (moveTaken m d s).sht = s.sht ∧ (moveTaken m d s).cfg = s.cfg := by
  simp [moveTaken]

theorem moveTaken_fixtures : (moveTaken m d s).cab.fixtures = (s.cab.taken m d).fixtures := drain_fixtures

theorem moveTaken_bayTimers : (moveTaken m d s).cab.bayTimers = s.cab.bayTimers :=
  (Cab.bayTimers_of_fixtures moveTaken_fixtures).trans (by rw [Cab.taken_eq]; rfl)

/-- R158: the queue, where one mark is all that drains. -/
theorem moveTaken_queue (h : (s.cab.removeMove m.entry).drainedByOne s) :
    (moveTaken m d s).cab.queue = ((s.cab.removeMove m.entry).drainOne s).queue := by
  have hq : (s.cab.taken m d).queue = (s.cab.removeMove m.entry).queue := by rw [Cab.taken_eq]; rfl
  have hone : (s.setCab (s.cab.taken m d)).cab.drainedByOne (s.setCab (s.cab.taken m d)) :=
    (drainedByOne_congr (s := s) fun _ => rfl).mpr ((Cab.drainedByOne_queue hq s).mpr h)
  rw [moveTaken, (drain_spec hone).1, drainOne_congr (s := s) _ fun _ => rfl]
  exact Cab.drainOne_queue hq s

/-! ### The record and the follow-up of each kind (R163, steps 3 and 4) -/

/-- No kind changes a position, the gripper or the climate. -/
theorem followUp_places : (followUp m d s).cab.places = s.cab.places := by
  cases hk : m.kind with
  | fetchOut => simp only [followUp, hk, startOut]; split <;> rfl
  | toStaging => simp only [followUp, hk, raise_cab, idleBay_places]; rfl
  | stageBack => simp only [followUp, hk]; cases d <;> rfl
  | shelve =>
    simp only [followUp, hk]
    rw [Cab.places_of_fixtures (relocationCheck_fixtures _), idleBay_places]
    cases d <;> rfl
  | relocate => simp only [followUp, hk]; cases d <;> rfl
  | dispatch => simp only [followUp, hk]; rfl

theorem followUp_fetchOut {n : Nat} (hk : m.kind = .fetchOut) (hd : d = .bay n) (hr : s.reel m.handle = some r) :
    OnlyReel m.handle { r with location := d } s (followUp m d s) ∧
      (followUp m d s).cab = (s.setBayTimer n ⟨.running, .outward, s.outMinutes r⟩).cab := by
  subst hd
  have hreel : OnlyReel m.handle { r with location := .bay n } s (s.locate m.handle (.bay n)) := onlyReel_modReel hr _
  have hf : followUp m (.bay n) s = (s.locate m.handle (.bay n)).setBayTimer n ⟨.running, .outward, s.outMinutes r⟩ := by
    simp only [followUp, hk, startOut, hreel.1]; rfl
  rw [hf]
  exact ⟨hreel.of_reg rfl, rfl⟩

theorem followUp_stageBack {n : Nat} (hk : m.kind = .stageBack) (hd : d = .bay n) (hr : s.reel m.handle = some r) :
    OnlyReel m.handle { r with location := d } s (followUp m d s) ∧
      (followUp m d s).cab = (s.setBayTimer n ⟨.running, .inward, s.setting Setting.acclimIn⟩).cab := by
  subst hd
  have hf : followUp m (.bay n) s = (s.locate m.handle (.bay n)).setBayTimer n
      ⟨.running, .inward, s.setting Setting.acclimIn⟩ := by
    simp only [followUp, hk]; rfl
  rw [hf]
  exact ⟨(onlyReel_modReel hr fun x => { x with location := .bay n }).of_reg rfl, rfl⟩

theorem followUp_toStaging (hk : m.kind = .toStaging) (hr : s.reel m.handle = some r) :
    OnlyReel m.handle { r with location := d, circulation := .ready } s (followUp m d s) ∧
      (followUp m d s).cab = (idleBay m.source s).cab ∧ LatchedWhereRouted .reelReady s (followUp m d s) := by
  obtain ⟨v, hv⟩ : ∃ v, v = (s.locate m.handle d).circulate m.handle .ready := ⟨_, rfl⟩
  have hreel : OnlyReel m.handle { r with location := d, circulation := .ready } s v := by
    rw [hv]; exact (onlyReel_modReel hr fun x => { x with location := d }).modReel _
  have hf : followUp m d s = raise .reelReady (idleBay m.source v) := by rw [hv]; simp only [followUp, hk]
  have hcab : (idleBay m.source v).cab = (idleBay m.source s).cab := by rw [hv]; cases m.source <;> rfl
  rw [hf]
  refine ⟨hreel.of_reg (by simp), by rw [raise_cab, hcab], latched_raise (route_of_cfg ?_)⟩
  rw [hv]; simp [State.circulate, State.locate]

theorem followUp_shelve {n : Nat} (hk : m.kind = .shelve) (hd : d = .slot n) (hr : s.reel m.handle = some r) :
    let r' : Reel := { r with location := d, home := n, circulation := .shelved }
    OnlyReel m.handle { r' with relocation := r.relocation || r'.mustRelocate } s (followUp m d s) ∧
      (followUp m d s).cab = if r'.mustRelocate then (idleBay m.source s).cab.ask m.handle .relocate d
        else (idleBay m.source s).cab := by
  subst hd
  intro r'
  obtain ⟨v, hv⟩ : ∃ v, v = (s.home m.handle (.slot n)).circulate m.handle .shelved := ⟨_, rfl⟩
  have hreel : OnlyReel m.handle r' s (idleBay m.source v) := by
    refine OnlyReel.of_reg (t := v) ?_ (by simp)
    rw [hv]; exact (onlyReel_modReel hr fun x => { x with location := .slot n, home := n }).modReel _
  have hf : followUp m (.slot n) s = relocationCheck m.handle (idleBay m.source v) := by
    rw [hv]; simp only [followUp, hk]
  have hcab : (idleBay m.source v).cab = (idleBay m.source s).cab := by rw [hv]; cases m.source <;> rfl
  obtain ⟨hchecked, hasked, -⟩ := relocationCheck_spec hreel.1
  rw [hf]
  exact ⟨hreel.trans hchecked, by rw [hasked, hcab]⟩

theorem followUp_relocate {n : Nat} (hk : m.kind = .relocate) (hd : d = .slot n) (hr : s.reel m.handle = some r) :
    OnlyReel m.handle { r with location := d, home := n, relocation := false } s (followUp m d s) ∧
      (followUp m d s).cab = s.cab := by
  subst hd
  simp only [followUp, hk]
  exact ⟨(onlyReel_modReel hr fun x => { x with location := .slot n, home := n }).modReel _, rfl⟩

/-- R17: no record, shot, damage record, reference and confirmation of the reel is left. -/
theorem freeReel_spec (h : Nat) (hpool : s.sht.pool.wf = true) (hdamage : s.rpq.damage.wf = true) :
    let t := freeReel h s
    t.reel h = none ∧ (∀ j, j ≠ h → t.reel j = s.reel j) ∧
      (∀ n, t.sht.pool.read n = (s.sht.pool.read n).filter (fun x => x.handle != h)) ∧
      (∀ i, t.rpq.damage.read i = (s.rpq.damage.read i).filter (fun x => x.handle != h)) ∧
      t.rpq.closedList = s.rpq.closedList.filter (fun i => !(s.rpq.damage.read i).any (fun x => x.handle == h)) ∧
      ∀ p x, t.reg.confirm.get p = some x → x.handle ≠ h := by
  intro t
  have hreels : t.reg.reels = s.reg.reels.erase h := rfl
  refine ⟨?_, fun j hj => ?_, fun n => ?_, fun i => ?_, ?_, fun p x hx => ?_⟩
  · rw [State.reel, hreels, Table.read_erase, if_pos rfl]
  · rw [State.reel, hreels, Table.read_erase, if_neg hj, State.reel]
  · exact Table.read_filter_value hpool (fun x => x.handle != h) n
  · exact Table.read_filter_value hdamage (fun x => x.handle != h) i
  · exact congrArg (List.filter · s.rpq.closedList)
      (funext fun i => congrArg (!·) (Table.contains_keys_filter hdamage (fun x => x.handle == h) i))
  · have hget : t.reg.confirm.get p = (fun c => if c.any (fun x => x.handle == h) then none else c)
        (s.reg.confirm.get p) := PerPort.get_map ..
    rw [hget] at hx
    dsimp only at hx
    split at hx
    · cases hx
    · next hno =>
      rw [hx] at hno
      simpa using hno

theorem followUp_dispatch (hk : m.kind = .dispatch) : followUp m d s = freeReel m.handle s := by
  simp only [followUp, hk]

end Sys2Proof.Machine
end

section
/-! SUPPORT. MOVE_DONE for each kind of move, from the parts of R163. -/

namespace Sys2Proof.Machine

variable {s : State} {m : Move} {d : Place} {r : Reel}

/-! ### What the end of the event leaves -/

theorem refreshCab_bayTimer (n : Nat) : (refreshCab s).cab.bayTimer n = s.cab.bayTimer n := by rw [refreshCab_cab]; rfl

theorem finishMove_queue : (finishMove m d s).cab.queue = (followUp m d (moveTaken m d s)).cab.queue := by
  rw [finishMove_eq, refreshCab_cab]; rfl

/-- A record changed after the drain is the one that the event has changed. -/
theorem onlyReel_finish {j : Nat} {x : Reel} (h : OnlyReel j x (moveTaken m d s) (followUp m d (moveTaken m d s))) :
    OnlyReel j x s (finishMove m d s) := by
  obtain ⟨hreg, -⟩ := moveTaken_same (m := m) (d := d) (s := s)
  have hs : OnlyReel j x s (followUp m d (moveTaken m d s)) := by simpa only [OnlyReel, State.reel, hreg] using h
  exact hs.of_reg (by simp [finishMove_eq])

/-- The timer of the bay position k is as given, the others as they were. -/
def Started (k : Nat) (x : BayTimer) (c : Cab) (t : State) : Prop :=
  ∀ n, n < 8 → t.cab.bayTimer n = if n = k then x else c.bayTimer n

/-- The timer of the place is IDLE, if it is a bay position, the others as they were. -/
def Idled (p : Place) (c : Cab) (t : State) : Prop :=
  ∀ n, n < 8 → t.cab.bayTimer n = if p = .bay n then ⟨.idle, (c.bayTimer n).direction, 0⟩ else c.bayTimer n

/-- The queue is as one drained mark leaves it, where that is all that drains. -/
def Drained (c : Cab) (s t : State) : Prop :=
  c.drainedByOne s → t.cab.moves = (c.drainOne s).moves ∧ t.cab.legDue = (c.drainOne s).legDue

theorem moveTaken_bayTimer (n : Nat) : (moveTaken m d s).cab.bayTimer n = s.cab.bayTimer n := by
  rw [Cab.bayTimer, moveTaken_bayTimers, ← Cab.bayTimer]

theorem started_finish {k : Nat} {x : BayTimer} (hlen : s.cab.bayTimers.length = 8)
    (h : (followUp m d (moveTaken m d s)).cab = ((moveTaken m d s).setBayTimer k x).cab) :
    Started k x s.cab (finishMove m d s) := fun n hn => by
  rw [finishMove_eq, refreshCab_bayTimer, h, bayTimer_setBayTimer (by rw [moveTaken_bayTimers, hlen]) hn,
    moveTaken_bayTimer]

theorem idled_finish {p : Place} (hlen : s.cab.bayTimers.length = 8)
    (h : (followUp m d (moveTaken m d s)).cab.bayTimers = (idleBay p (moveTaken m d s)).cab.bayTimers) :
    Idled p s.cab (finishMove m d s) := fun n hn => by
  rw [finishMove_eq, refreshCab_bayTimer, Cab.bayTimer, h, ← Cab.bayTimer,
    bayTimer_idleBay (by rw [moveTaken_bayTimers, hlen]) hn, moveTaken_bayTimer]

theorem drained_finish (h : (followUp m d (moveTaken m d s)).cab.queue = (moveTaken m d s).cab.queue) :
    Drained (s.cab.removeMove m.entry) s (finishMove m d s) := fun hone =>
  Cab.queue_iff.mp ((finishMove_queue.trans h).trans (moveTaken_queue hone))

/-- R163: the positions, the gripper and the conditions, for every kind. -/
theorem finishMove_positions : (∀ p, Place.isPosition p = true → (finishMove m d s).cab.occupancy p =
      if p = m.source then none else if p = d then some (.holding m.handle) else s.cab.occupancy p) ∧
    (finishMove m d s).cab.gripper = none ∧ (finishMove m d s).cab.climateOut = s.cab.climateOut ∧
    CabCurrent (finishMove m d s) := by
  have hend : (finishMove m d s).cab.places = (followUp m d (moveTaken m d s)).cab.places := by
    rw [finishMove_eq, refreshCab_cab]; rfl
  have hplaces := (hend.trans followUp_places).trans (Cab.places_of_fixtures moveTaken_fixtures)
  obtain ⟨hgripper, hclimate⟩ := Cab.rest_of_places hplaces
  refine ⟨fun p hp => ?_, hgripper, hclimate.trans (by rw [Cab.taken_eq]; rfl), cabCurrent_refreshCab _⟩
  rw [Cab.occupancy_of_places hplaces, Cab.taken_occupancy _ hp]

/-! ### Each kind (R163, Table 1-3) -/

theorem moveTaken_reel (j : Nat) : (moveTaken m d s).reel j = s.reel j := by
  rw [State.reel, moveTaken_same.1, ← State.reel]

theorem moveTaken_setting (i : Nat) : (moveTaken m d s).setting i = s.setting i := by
  rw [State.setting, moveTaken_same.2.2.2, ← State.setting]

theorem finishMove_fetchOut {n : Nat} (hk : m.kind = .fetchOut) (hd : d = .bay n) (hr : s.reel m.handle = some r)
    (hlen : s.cab.bayTimers.length = 8) :
    OnlyReel m.handle { r with location := d } s (finishMove m d s) ∧
      Started n ⟨.running, .outward, s.outMinutes r⟩ s.cab (finishMove m d s) ∧
      Drained (s.cab.removeMove m.entry) s (finishMove m d s) := by
  obtain ⟨hreel, hcab⟩ := followUp_fetchOut hk hd ((moveTaken_reel m.handle).trans hr)
  rw [show (moveTaken m d s).outMinutes r = s.outMinutes r by simp only [State.outMinutes, moveTaken_setting]] at hcab
  exact ⟨onlyReel_finish hreel, started_finish hlen hcab, drained_finish (by rw [hcab]; rfl)⟩

theorem finishMove_stageBack {n : Nat} (hk : m.kind = .stageBack) (hd : d = .bay n) (hr : s.reel m.handle = some r)
    (hlen : s.cab.bayTimers.length = 8) :
    OnlyReel m.handle { r with location := d } s (finishMove m d s) ∧
      Started n ⟨.running, .inward, s.setting Setting.acclimIn⟩ s.cab (finishMove m d s) ∧
      Drained (s.cab.removeMove m.entry) s (finishMove m d s) := by
  obtain ⟨hreel, hcab⟩ := followUp_stageBack hk hd ((moveTaken_reel m.handle).trans hr)
  rw [moveTaken_setting] at hcab
  exact ⟨onlyReel_finish hreel, started_finish hlen hcab, drained_finish (by rw [hcab]; rfl)⟩

theorem finishMove_toStaging (hk : m.kind = .toStaging) (hr : s.reel m.handle = some r)
    (hlen : s.cab.bayTimers.length = 8) :
    OnlyReel m.handle { r with location := d, circulation := .ready } s (finishMove m d s) ∧
      Idled m.source s.cab (finishMove m d s) ∧ LatchedWhereRouted .reelReady s (finishMove m d s) ∧
      Drained (s.cab.removeMove m.entry) s (finishMove m d s) := by
  obtain ⟨hreel, hcab, hready⟩ := followUp_toStaging (d := d) hk ((moveTaken_reel m.handle).trans hr)
  have hroute : ∀ p, (moveTaken m d s).route p = s.route p := route_of_cfg moveTaken_same.2.2.2
  have hraised : LatchedWhereRouted .reelReady s (followUp m d (moveTaken m d s)) := fun p hp =>
    hready p (by rw [hroute]; exact hp)
  exact ⟨onlyReel_finish hreel, idled_finish hlen (congrArg Cab.bayTimers hcab),
    hraised.mono (alertsGrow_refreshCab _), drained_finish (by rw [hcab, idleBay_queue])⟩

theorem finishMove_shelve {n : Nat} (hk : m.kind = .shelve) (hd : d = .slot n) (hr : s.reel m.handle = some r)
    (hlen : s.cab.bayTimers.length = 8) :
    let c := s.cab.removeMove m.entry
    let r' : Reel := { r with location := d, home := n, circulation := .shelved }
    let t := finishMove m d s
    OnlyReel m.handle { r' with relocation := r.relocation || r'.mustRelocate } s t ∧ Idled m.source s.cab t ∧
      (c.drainedByOne s →
        let k := if r'.mustRelocate then (c.drainOne s).ask m.handle .relocate d else c.drainOne s
        t.cab.moves = k.moves ∧ t.cab.legDue = k.legDue) := by
  intro c r' t
  obtain ⟨hreel, hcab⟩ := followUp_shelve hk hd ((moveTaken_reel m.handle).trans hr)
  refine ⟨onlyReel_finish hreel, idled_finish hlen ?_, fun hone => Cab.queue_iff.mp (finishMove_queue.trans ?_)⟩
  · rw [hcab]
    split
    · exact Cab.bayTimers_of_fixtures (Cab.fixtures_ask ..)
    · rfl
  · have hqueue := (idleBay_queue m.source).trans (moveTaken_queue (d := d) hone)
    rw [hcab]
    split
    · exact Cab.ask_queue hqueue ..
    · exact hqueue

theorem finishMove_relocate {n : Nat} (hk : m.kind = .relocate) (hd : d = .slot n) (hr : s.reel m.handle = some r) :
    OnlyReel m.handle { r with location := d, home := n, relocation := false } s (finishMove m d s) ∧
      Drained (s.cab.removeMove m.entry) s (finishMove m d s) := by
  obtain ⟨hreel, hcab⟩ := followUp_relocate hk hd ((moveTaken_reel m.handle).trans hr)
  exact ⟨onlyReel_finish hreel, drained_finish (by rw [hcab])⟩

theorem finishMove_dispatch (hk : m.kind = .dispatch) (hform : TablesCanonical s) :
    let t := finishMove m d s
    (t.reel m.handle = none ∧ (∀ j, j ≠ m.handle → t.reel j = s.reel j) ∧
      (∀ n, t.sht.pool.read n = (s.sht.pool.read n).filter (fun x => x.handle != m.handle)) ∧
      (∀ i, t.rpq.damage.read i = (s.rpq.damage.read i).filter (fun x => x.handle != m.handle)) ∧
      t.rpq.closedList = s.rpq.closedList.filter (fun i =>
        !(s.rpq.damage.read i).any (fun x => x.handle == m.handle)) ∧
      (∀ p x, t.reg.confirm.get p = some x → x.handle ≠ m.handle)) ∧
      Drained (s.cab.removeMove m.entry) s t := by
  intro t
  obtain ⟨-, hdamage, hpool, -⟩ := hform
  obtain ⟨hreg, hrpq, hsht, -⟩ := moveTaken_same (m := m) (d := d) (s := s)
  have ht : t = refreshCab (freeReel m.handle (moveTaken m d s)) := by
    rw [← followUp_dispatch (d := d) hk, ← finishMove_eq]
  have hfreed := freeReel_spec (s := moveTaken m d s) m.handle (hsht ▸ hpool) (hrpq ▸ hdamage)
  refine ⟨?_, drained_finish (by rw [followUp_dispatch hk]; rfl)⟩
  · simpa only [ht, refreshCab_reg, refreshCab_reel, refreshCab_sht, refreshCab_rpq, moveTaken_reel, hsht, hrpq]
      using hfreed

theorem moveDoneBody_none (h : s.cab.moving = none) : moveDoneBody s = (s, .only .state) := by simp [moveDoneBody, h]

theorem moveDoneBody_some (h : s.cab.moving = some m) (hd : m.dest = some d) :
    moveDoneBody s = (finishMove m d s, .ok (u8 m.entry ++ d.bytes)) := by
  simp [moveDoneBody, h, hd, destBytes]

/-- Settles O59: the theorems about `finishMove` of each kind. -/
theorem moveDoneUpdatesByKind : Obligations.MoveDoneUpdatesByKind := by
  unfold Obligations.MoveDoneUpdatesByKind
  intro rq s hserved u
  have hu : u.cab = s.cab := arrive_cab _
  have hreels : ∀ j, u.reel j = s.reel j := arrive_reel rq.port s
  refine ⟨fun hidle => ?_, fun m d r hm hd hr hlen => ?_⟩
  · exact exec_of_same rfl hserved (moveDoneBody_none (Cab.moving_eq_none fun x hx => hidle x (hu ▸ hx)))
  · obtain ⟨hocc, hgripper, hclimate, heligible, hfull⟩ := finishMove_positions (s := u) (m := m) (d := d)
    rw [hu] at hocc hclimate
    have hur : u.reel m.handle = some r := (hreels _).trans hr
    have hulen : u.cab.bayTimers.length = 8 := hu ▸ hlen
    have hone : ∀ {t}, Drained (u.cab.removeMove m.entry) u t → Drained (s.cab.removeMove m.entry) s t := by
      rw [hu]; simp only [Drained, drainedByOne_congr hreels, drainOne_congr _ hreels]; exact fun h => h
    intro c idled started drained
    refine exec_of_body (v := finishMove m d u) rfl hserved (moveDoneBody_some (hu ▸ hm) hd) (by simp) (by simp [u])
      ⟨hocc, hgripper, hclimate, heligible, hfull, fun n hn hk hbay => ?_, fun hk => ?_, fun n hn hk hbay => ?_,
        fun n hk hslot => ?_, fun n hk hslot => ?_, fun hk hform => ?_⟩
    · obtain ⟨hreel, hstarted, hdrained⟩ := finishMove_fetchOut hk hbay hur hulen
      rw [hu, show u.outMinutes r = s.outMinutes r by simp [State.outMinutes, u]] at hstarted
      exact ⟨hreel, hstarted, hone hdrained⟩
    · obtain ⟨hreel, hidled, hready, hdrained⟩ := finishMove_toStaging (d := d) hk hur hulen
      rw [hu] at hidled
      exact ⟨hreel, hidled, fun p hp => hready p (by simpa [u, State.route] using hp), hone hdrained⟩
    · obtain ⟨hreel, hstarted, hdrained⟩ := finishMove_stageBack hk hbay hur hulen
      rw [hu, show u.setting Setting.acclimIn = s.setting Setting.acclimIn by simp [u]] at hstarted
      exact ⟨hreel, hstarted, hone hdrained⟩
    · intro r'
      obtain ⟨hreel, hidled, hqueue⟩ := finishMove_shelve hk hslot hur hulen
      rw [hu] at hidled hqueue
      rw [drainedByOne_congr hreels, drainOne_congr _ hreels] at hqueue
      exact ⟨hreel, hidled, hqueue⟩
    · obtain ⟨hreel, hdrained⟩ := finishMove_relocate hk hslot hur
      exact ⟨hreel, hone hdrained⟩
    · have huform : TablesCanonical u := by simpa [TablesCanonical, u] using hform
      obtain ⟨⟨hgone, hothers, hshots, hdamage, hclosed, hconfirm⟩, hdrained⟩ := finishMove_dispatch (d := d) hk huform
      simp only [hreels, arrive_sht, arrive_rpq, u] at hothers hshots hdamage hclosed
      exact ⟨hgone, hothers, hshots, hdamage, hclosed, hconfirm, hone hdrained⟩

end Sys2Proof.Machine
end

section
/-! SUPPORT. A step and the queue; every request as `serve` of the command's own body; what each command can change
(R175, R185, 'What each step holds'). -/

namespace Sys2Proof.Machine

variable {s t u : State} {c : Instr} {rq : Rq} {need : Need}

/-- Settles O1, by what `step` does with the queue. -/
theorem stepTakesTheFrontCommand : Obligations.StepTakesTheFrontCommand :=
  ⟨fun c rest s h => by rw [step, h], fun s h => by rw [step, h]⟩

/-! ### Requests (R175) -/

/-- What a request's command does once the request is carried out. A RELEASE FORCE looks at the confirmation that the
request found in `s` (R15); a command that is no request has no body. -/
def bodyOf (s : State) : Instr → Body
  | .requestMalformed _ _ => refuse .badArg
  | .unknownCommand _ _ => refuse .unknown
  | .readAlerts rq => readAlertsBody rq.port
  | .ackAlerts rq kinds => withOperands kinds (ackAlertsBody rq.port)
  | .setAlertMask rq kinds => withOperands kinds (setAlertMaskBody rq.port)
  | .getSetting _ index => withOperands index getSettingBody
  | .setSetting _ args => withOperands args setSettingBody
  | .portReset rq => portResetBody rq.port
  | .reelQuery _ handle => withOperands handle reelQueryBody
  | .reelFind _ catalogue => withOperands catalogue reelFindBody
  | .admitReel _ args => withOperands args admitBody
  | .setCondition _ args => withOperands args setConditionBody
  | .request _ handle => withOperands handle requestBody
  | .cancel _ handle => withOperands handle cancelBody
  | .returnReel _ handle => withOperands handle returnBody
  | .release rq args => withOperands args (releaseBody rq.port (s.reg.confirm.get rq.port))
  | .releaseForce rq handle => forceRelease rq.port (s.reg.confirm.get rq.port) handle.toNat
  | .thread _ handle => withOperands handle threadBody
  | .unthread _ => unthreadBody
  | .setOrigin _ => setOriginBody
  | .inch _ distance => withOperands distance inchBody
  | .shuttle _ args => withOperands args shuttleBody
  | .scan _ speed => withOperands speed scanBody
  | .pause _ => pauseBody
  | .resume _ => resumeBody
  | .stop _ => stopBody
  | .clearFault _ => clearFaultBody
  | .stagePitch _ args => withOperands args stagePitchBody
  | .stageReg _ args => withOperands args stageRegBody
  | .commit _ => commitBody
  | .readPitch _ => readPitchBody
  | .readFrames _ count => withOperands count readFramesBody
  | .clearGate _ => clearGateBody
  | .transportStatus _ => transportStatusBody
  | .claimNext rq handle => withOperands handle (claimNextBody rq.port)
  | .complete rq args => withOperands args (completeBody rq.port)
  | .releaseClaim rq args => withOperands args (releaseClaimBody rq.port)
  | .releaseAll rq => releaseAllBody rq.port
  | .damageList _ args => withOperands args damageListBody
  | .rescanAdd _ args => withOperands args rescanAddBody
  | .shotList _ args => withOperands args shotListBody
  | .setBase _ args => withOperands args setBaseBody
  | .pushLayer _ args => withOperands args pushLayerBody
  | .popLayer _ shot => withOperands shot popLayerBody
  | .setLayer _ args => withOperands args setLayerBody
  | .setFlicker _ args => withOperands args setFlickerBody
  | .split _ args => withOperands args splitBody
  | .merge _ shot => withOperands shot mergeBody
  | .approve _ shot => withOperands shot approveBody
  | .reopen _ shot => withOperands shot reopenBody
  | .gradeQuery _ args => withOperands args gradeQueryBody
  | .takeMove _ => takeMoveBody
  | .moveDone _ => moveDoneBody
  | .moveFailed _ => moveFailedBody
  | .retry _ args => withOperands args retryBody
  | .cancelMove _ args => withOperands args cancelMoveBody
  | .bayClimate _ climate => withOperands climate bayClimateBody
  | .positions _ args => withOperands args positionsBody
  | .moveList _ => moveListBody
  | _ => refuse .ok

/-- Every request is `serve` of its command's body. -/
theorem exec_request (h : requestOf c = some (rq, need)) (s : State) :
    exec c s = .next (serve rq need (bodyOf s c) s) := by
  cases c <;> cases h <;> rfl

/-! ### What each command can change -/

/-- PORT_RESET is the one command whose body writes SPT (R183); a body writes no other block than its command can
change. -/
theorem kept_bodyOf (hc : ∀ q, c ≠ .portReset q) (s u : State) :
    Kept ((mayChange c).filter (· != .spt)) u (bodyOf s c u).1 := by
  cases c
  case portReset rq => exact absurd rfl (hc rq)
  all_goals simp [bodyOf, mayChange]

theorem kept_request (h : requestOf c = some (rq, need)) (s : State) :
    Kept (mayChange c) s (serve rq need (bodyOf s c) s) := by
  have hblocks : requestBlocks ⊆ mayChange c := by cases c <;> cases h <;> simp [mayChange]
  have hbody : ∀ u, Kept (mayChange c) u (bodyOf s c u).1 := by
    by_cases hc : ∃ q, c = .portReset q
    · obtain ⟨q, rfl⟩ := hc
      simp [bodyOf, mayChange]
    · exact fun u => (kept_bodyOf (fun q hq => hc ⟨q, hq⟩) s u).mono (List.filter_subset_self _)
  exact (kept_serve (hblocks (by simp)) (hblocks (by simp)) (hblocks (by simp)) (hblocks (by simp)) rq need _ hbody).mpr
    (.refl _ s)

/-- One of two states, each of which keeps the other blocks. -/
theorem Kept.ite {l : List Block} {b : Prop} [Decidable b] (ht : Kept l s t) (hu : Kept l s u) :
    Kept l s (if b then t else u) := by
  split
  · exact ht
  · exact hu

/-- What comes about without a request. -/
theorem kept_event (h : requestOf c = none) (s : State) : ∃ t, exec c s = .next t ∧ Kept (mayChange c) s t := by
  have hq {l : List Block} (hl : Block.out ∈ l) : Kept l s (quiet s) := (kept_quiet hl).mpr (.refl l s)
  cases c <;> cases h
  case row.refl =>
    simp only [exec, execRow]
    split
    · exact ⟨_, rfl, by simp [mayChange]⟩
    · exact ⟨_, rfl, by simp [mayChange]⟩
  all_goals refine ⟨_, rfl, ?_⟩
  case reset.refl =>
    intro b hb
    cases b
    case pending => rfl
    all_goals exact absurd (by simp [mayChange]) hb
  case preloadValue.refl | estopReleased.refl | minuteTick.refl | position.refl | frameLine.refl | tension.refl
      | gateTemp.refl => simp [mayChange]
  case millisecondTick.refl => simp [mayChange, kept_millisecondTick]
  case secondTick.refl => simp [mayChange, kept_secondTick]
  case headMessageDiscarded.refl | reportAgeExpiry.refl | frameIgnored.refl => exact hq (by simp [mayChange])
  case preloadEnd.refl | tensionHighExpiry.refl | tensionLowExpiry.refl | headSilenceExpiry.refl | gateDelayExpiry.refl
      | holdLightExpiry.refl => exact .ite (by simp [mayChange]) (hq (by simp [mayChange]))
  case estopAsserted.refl => exact .ite (hq (by simp [mayChange])) (by simp [mayChange])
  case spliceEdge.refl => exact .ite (by simp [mayChange]) (.ite (by simp [mayChange]) (by simp [mayChange]))
  case contextAgeExpiry.refl =>
    exact .ite (by simp [mayChange]) (.ite (by simp [mayChange]) (hq (by simp [mayChange])))
  case confirmationExpiry.refl =>
    split
    · exact .ite (by simp [mayChange]) (hq (by simp [mayChange]))
    · exact hq (by simp [mayChange])
  case bayTimerExpiry.refl =>
    split
    · simp [mayChange]
    · exact hq (by simp [mayChange])
  case responseRead.refl =>
    dsimp only
    split
    · exact .ite (by simp [mayChange]) (by simp [mayChange])
    · simp [mayChange]

/-- Settles O2: a request changes what `kept_request` says; the other commands are taken one by one. -/
theorem everyCommandKeepsToItsBlocks : Obligations.EveryCommandKeepsToItsBlocks := by
  intro c s
  cases hr : requestOf c with
  | some r => exact ⟨_, exec_request hr s, kept_request hr s⟩
  | none => exact kept_event hr s

end Sys2Proof.Machine
end

section
/-! SUPPORT. What a response read frame shifts out, and when the response is read (R176). -/

namespace Sys2Proof.Machine

/-- The header of a response (Table 10-1), then its results. -/
theorem responseBytes_eq (r : Response) (overrun : Bool) : responseBytes r overrun =
    [r.tag, r.status, (if overrun then 1 else 0), BitVec.ofNat 8 (r.results.length % 256),
      BitVec.ofNat 8 (r.results.length / 256 % 256)] ++ r.results := by
  cases overrun <;> rfl

theorem length_responseBytes (r : Response) (overrun : Bool) :
    (responseBytes r overrun).length = 5 + r.results.length := by
  rw [responseBytes_eq, List.length_append]; rfl

/-- A response is pending: header and results go out, and the response is read when none of them is left (R176). -/
theorem execResponseRead_some {s : State} {p : Port} {r : Response} (h : (s.spt.get p).response = some r) (n : Nat) :
    exec (.responseRead p n) s = .next
      (let t := (quiet s).setOut ⟨[], shiftOut n (responseBytes r (s.spt.get p).overrun)⟩
      if 5 + r.results.length ≤ n then t.setPort p ⟨none, false⟩ else t) := by
  have hq : ((quiet s).spt.get p).response = some r := h
  simp only [exec, execResponseRead, hq, length_responseBytes]
  rfl

/-- No response is pending: the header says NONE (R176). -/
theorem execResponseRead_none {s : State} {p : Port} (h : (s.spt.get p).response = none) (n : Nat) :
    exec (.responseRead p n) s = .next ((quiet s).setOut ⟨[], shiftOut n (responseBytes noResponse false)⟩) := by
  have hq : ((quiet s).spt.get p).response = none := h
  simp only [exec, execResponseRead, hq]
  rfl

/-- Settles O34, by whether a response is pending and whether all of it was clocked out. -/
theorem responseReadDelivers : Obligations.ResponseReadDelivers := by
  intro s p n
  constructor
  · intro r hr header
    refine ⟨_, execResponseRead_some hr n, ?_, fun hall => ?_, fun hpart => ?_, .ite (by simp) (by simp)⟩
    · rw [responseBytes_eq]
      dsimp only
      split <;> rfl
    · simp [hall]
    · simp [Nat.not_le.mpr hpart]
  · exact fun hnone => ⟨_, execResponseRead_none hnone n, rfl, by simp⟩

end Sys2Proof.Machine
end

section
/-! SUPPORT. The checks of a request in order, and the operands each command refuses before anything else (R175, R178,
R181, R184; R7, R18, R26, R29, R30, R83, R120 to R122, R140, R141, R165 to R167, R171, R189). -/

namespace Sys2Proof.Machine

variable {s u : State} {c : Instr} {rq : Rq} {need : Need} {body : Body}

/-! ### The checks that every request makes -/

/-- R184. -/
theorem serve_of_running (h : s.cfg.running = true) :
    serve rq need body s = answer rq (.only .notReady) (arrive rq.port s) := by
  simp [serve, h]

/-- R181. -/
theorem serve_of_denied {r : Role} (h : s.cfg.running = false) (hcheck : s.setting Setting.accessCheck ≠ 0)
    (hrole : s.role rq.port ≠ r) : serve rq (.role r) body s =
      answer rq (.only .denied) (raiseFor rq.port .accessDenied (arrive rq.port s)) := by
  have hdenied : denied (.role r) rq.port (arrive rq.port s) = true := by
    simpa [denied, State.role] using ⟨hcheck, hrole⟩
  simp [serve, h, hdenied]

/-! ### The checks of operands -/

/-- A command on a reel refuses a handle that names none (R7), and its operands when its own body does. -/
theorem withReel_badArg {b : Byte} {f : Reel → Body}
    (h : ¬NamesNoReel b u → ∀ r, u.reel b.toNat = some r → f r u = (u, .only .badArg)) :
    withReel b.toNat .badArg f u = (u, .only .badArg) := by
  unfold withReel
  split
  · rfl
  · next hb =>
    split
    · next r hr => exact h (fun hn => by simp [NamesNoReel, hr, hb] at hn) r hr
    · rfl

theorem withReel_of_beyond {b : Byte} {free : Status} {f : Reel → Body} (h : 96 ≤ b.toNat) :
    withReel b.toNat free f u = (u, .only .badArg) := if_pos h

/-- R140. -/
theorem withShot_of_namesNoShot {n : BitVec 16} {f : Shot → Body} (h : NamesNoShot n u) :
    withShot n.toNat f u = (u, .only .badArg) := by
  unfold withShot
  split
  · next x hx =>
    rcases h with h | h
    · exact if_pos h
    · cases hx.symm.trans h
  · rfl

theorem withOpenShot_of_namesNoShot {n : BitVec 16} {f : Shot → Body} (h : NamesNoShot n u) :
    withOpenShot n.toNat f u = (u, .only .badArg) := withShot_of_namesNoShot h

theorem Gauge.ofCode_eq_none {n : Nat} (h : 2 < n) : Gauge.ofCode n = none := by
  obtain ⟨k, rfl⟩ := Nat.exists_eq_add_of_le' h
  rfl

theorem DamageOutcome.ofCode_eq_none {n : Nat} (h : 2 < n) : DamageOutcome.ofCode n = none := by
  obtain ⟨k, rfl⟩ := Nat.exists_eq_add_of_le' h
  rfl

theorem withOperands_badArg {α : Type} {args : Option α} {f : α → Body}
    (h : ∀ a, args = some a → f a u = (u, .only .badArg)) : withOperands args f u = (u, .only .badArg) := by
  cases args with
  | none => rfl
  | some a => exact h a rfl

/-- R178, check 3: a request with short operands has no more body than its refusal. -/
theorem bodyOf_of_short (h : ShortOperands c = true) : bodyOf s c = refuse .badArg := by
  unfold ShortOperands at h
  split at h
  all_goals cases h
  all_goals rfl

/-! ### The operands each command refuses -/

/-- R9, check 1. -/
theorem admitBody_badArg {a : AdmitArgs}
    (h : a.catalogue = 0 ∨ 2 < a.gauge.toNat ∨ 3 < a.acidity.toNat ∨ 80 ≤ a.slot.toNat) :
    admitBody a u = (u, .only .badArg) := by
  unfold admitBody
  split
  · rfl
  · next g hg =>
    have hgauge : ¬2 < a.gauge.toNat := fun hbig => by cases hg.symm.trans (Gauge.ofCode_eq_none hbig)
    exact if_pos (h.imp (congrArg BitVec.toNat) fun h => h.resolve_left hgauge)

/-- R7: the force flag, then the handle. -/
theorem releaseBody_badArg {p : Port} {found : Option Confirmation} {a : ReleaseArgs}
    (h : NamesNoReel a.handle u ∨ 1 < a.force.toNat) : releaseBody p found a u = (u, .only .badArg) := by
  unfold releaseBody
  split
  · rfl
  · next hforce =>
    have hreel := h.resolve_right hforce
    split
    · exact withReel_badArg fun hn => absurd hreel hn
    · exact withReel_badArg fun hn => absurd hreel hn

/-- R120. -/
theorem completeBody_badArg {p : Port} {a : CompleteArgs} (h : 1023 < a.index.toNat ∨ 2 < a.outcome.toNat) :
    completeBody p a u = (u, .only .badArg) := by
  unfold completeBody
  split
  · rfl
  · next o ho =>
    exact if_pos (h.resolve_right fun hbig => by cases ho.symm.trans (DamageOutcome.ofCode_eq_none hbig))

/-- R144. -/
theorem setLayerBody_refuses {a : SetLayerArgs} (h : NamesNoShot a.shot u ∨ 6 < a.level.toNat) :
    setLayerBody a u = (u, .only .badArg) := by
  unfold setLayerBody
  split
  · rfl
  · next hlevel => exact withOpenShot_of_namesNoShot (h.resolve_right hlevel)

/-- R145. -/
theorem setFlickerBody_refuses {a : FlickerArgs} (h : NamesNoShot a.shot u ∨ 1 < a.enable.toNat) :
    setFlickerBody a u = (u, .only .badArg) := by
  unfold setFlickerBody
  split
  · rfl
  · next henable => exact withOpenShot_of_namesNoShot (h.resolve_right henable)

/-- R167. -/
theorem positionsBody_badArg {a : PositionsArgs} (h : 2 < a.kind.toNat ∨
    (if a.kind = 0 then 79 else 7) < a.first.toNat ∨ a.count = 0 ∨ 16 < a.count.toNat) :
    positionsBody a u = (u, .only .badArg) := by
  have hlast : lastPosition a.kind.toNat = if a.kind = 0 then 79 else 7 := by
    simp [lastPosition, ← BitVec.toNat_inj]
  exact if_pos (by rwa [hlast, show a.count.toNat = 0 ↔ a.count = 0 from (BitVec.toNat_inj (y := 0))])

/-- A command's own body refuses the operands that its rule refuses before it looks at anything else. -/
theorem bodyOf_of_bad (h : BadOperands u c) : bodyOf s c u = (u, .only .badArg) := by
  have hzero {w : Nat} {x : BitVec w} (hx : x = 0) : x.toNat = 0 := by simp [hx]
  cases c
  case releaseForce =>
    rw [bodyOf, forceRelease]
    exact withReel_badArg fun hn => absurd h hn
  case getSetting =>
    exact withOperands_badArg (by rintro i rfl; simp only [getSettingBody, show settingRow i.toNat = none from h])
  case setSetting =>
    exact withOperands_badArg (by rintro a rfl; simp only [setSettingBody, show settingRow a.index.toNat = none from h])
  case reelQuery => exact withOperands_badArg (by rintro a rfl; exact withReel_of_beyond h)
  case reelFind => exact withOperands_badArg (by rintro a rfl; exact if_pos (hzero h))
  case admitReel => exact withOperands_badArg (by rintro a rfl; exact admitBody_badArg h)
  case setCondition =>
    exact withOperands_badArg (by rintro a rfl; exact withReel_badArg fun hn _ _ => if_pos (h.resolve_left hn))
  case request | cancel | returnReel | thread | setBase | gradeQuery =>
    exact withOperands_badArg (by rintro a rfl; exact withReel_badArg fun hn => absurd h hn)
  case release => exact withOperands_badArg (by rintro a rfl; exact releaseBody_badArg h)
  case inch | shuttle | releaseClaim | bayClimate => exact withOperands_badArg (by rintro a rfl; exact if_pos h)
  case readFrames => exact withOperands_badArg (by rintro a rfl; exact if_pos (h.imp_left hzero))
  case claimNext =>
    refine withOperands_badArg ?_
    rintro b rfl
    obtain ⟨hrole, hall, hnone⟩ := h
    refine claimNextBody_badArg hrole ?_
    rintro (hb | ⟨hlt, hreel⟩)
    · exact hall hb
    · exact hnone.elim (Nat.not_le.mpr hlt) hreel
  case complete => exact withOperands_badArg (by rintro a rfl; exact completeBody_badArg h)
  case damageList =>
    refine withOperands_badArg ?_
    rintro a rfl
    exact withReel_badArg fun hn _ _ => if_pos ((h.resolve_left hn).imp_right (Or.imp_left hzero))
  case rescanAdd =>
    refine withOperands_badArg ?_
    rintro a rfl
    refine withReel_badArg fun hn r hr => if_pos ((h.resolve_left hn).imp_right ?_)
    rintro ⟨x, hx, hle⟩
    cases hr.symm.trans hx
    exact hle
  case shotList =>
    refine withOperands_badArg ?_
    rintro a rfl
    exact withReel_badArg fun hn _ _ => if_pos ((h.resolve_left hn).imp_left hzero)
  case pushLayer | split | popLayer | merge =>
    exact withOperands_badArg (by rintro a rfl; exact withOpenShot_of_namesNoShot h)
  case approve | reopen => exact withOperands_badArg (by rintro a rfl; exact withShot_of_namesNoShot h)
  case setLayer => exact withOperands_badArg (by rintro a rfl; exact setLayerBody_refuses h)
  case setFlicker => exact withOperands_badArg (by rintro a rfl; exact setFlickerBody_refuses h)
  case retry | cancelMove => exact withOperands_badArg (by rintro a rfl; exact withMove_badArg h)
  case positions => exact withOperands_badArg (by rintro a rfl; exact positionsBody_badArg h)
  all_goals exact h.elim

/-- What BAD_ARG looks at is as the request found it. -/
theorem badOperands_arrive (p : Port) (c : Instr) (s : State) : BadOperands (arrive p s) c = BadOperands s c := by
  unfold BadOperands
  simp only [NamesNoReel, NamesNoShot, arrive_reel, arrive_sht, State.role, arrive_setting]

/-- Settles O33: `serve` makes its checks in order, and short or bad operands are the body's own first refusal. -/
theorem requestsAreCheckedInOrder : Obligations.RequestsAreCheckedInOrder := by
  intro c s rq need hc
  have hexec := exec_request hc s
  refine ⟨fun hrun => ⟨_, hexec, ?_⟩, fun hrun => ⟨?_, ?_, ?_, ?_⟩⟩
  · rw [serve_of_running hrun]
    exact answered_of_kept (by simp) (.refl _ _)
  · rintro ⟨q, code, rfl⟩
    cases hc
    exact exec_of_same hexec ⟨hrun, trivial⟩ rfl
  · rintro ⟨p, tag, rfl⟩
    cases hc
    exact exec_of_same hexec ⟨hrun, trivial⟩ rfl
  · rintro r rfl hcheck hrole
    rw [serve_of_denied hrun hcheck hrole] at hexec
    exact ⟨_, hexec, answered_of_kept (by simp) (by simp), rfl⟩
  · rintro hserved (hshort | hbad)
    · exact exec_of_same hexec hserved (by rw [bodyOf_of_short hshort]; rfl)
    · exact exec_of_same hexec hserved (bodyOf_of_bad (by rwa [badOperands_arrive]))

end Sys2Proof.Machine
end

section
/-! SUPPORT. A request's body takes no latched alert away and opens no force confirmation, but for ACK_ALERTS and
PORT_RESET, which unlatch, and a RELEASE FORCE, which may open one (R15, R183, R185, R187). -/

namespace Sys2Proof.Machine

variable {s t u : State}

/-- What is latched stays latched, at every port, and a confirmation that is absent stays absent. -/
structure KeepsPorts (s t : State) : Prop where
  latched : ∀ (p : Port) (e : Event), AlertSet.has (s.alt.get p).latched e = true →
    AlertSet.has (t.alt.get p).latched e = true
  closed : ∀ p : Port, s.reg.confirm.get p = none → t.reg.confirm.get p = none

namespace KeepsPorts

/-! ### Keeping it -/

theorem refl (s : State) : KeepsPorts s s := ⟨fun _ _ h => h, fun _ h => h⟩

theorem trans (h : KeepsPorts s t) (k : KeepsPorts t u) : KeepsPorts s u :=
  ⟨fun p e x => k.latched p e (h.latched p e x), fun p x => k.closed p (h.closed p x)⟩

theorem ite {c : Prop} [Decidable c] (ht : KeepsPorts s t) (hu : KeepsPorts s u) : KeepsPorts s (if c then t else u) := by
  split
  · exact ht
  · exact hu

theorem foldl {α : Type} {f : State → α → State} (l : List α) (hf : ∀ u a, KeepsPorts s u → KeepsPorts s (f u a))
    (h : KeepsPorts s t) : KeepsPorts s (l.foldl f t) := by
  induction l generalizing t with
  | nil => exact h
  | cons a r ih => exact ih (hf t a h)

/-- The blocks that hold no alert and no confirmation. -/
abbrev otherBlocks : List Block := [.trc, .pru, .fcu, .dsu, .rpq, .sht, .cab, .spt, .cfg, .tmb, .out, .pending]

/-- Any change of those blocks. -/
theorem free (h : KeepsPorts s t) (k : Kept otherBlocks t u) : KeepsPorts s u := by
  have halt : u.alt = t.alt := k .alt (by simp)
  have hreg : u.reg = t.reg := k .reg (by simp)
  exact ⟨by rw [halt]; exact h.latched, by rw [hreg]; exact h.closed⟩

/-- Alerts raised. -/
theorem grow (h : KeepsPorts s t) (k : AlertsGrow t u) (hreg : u.reg = t.reg) : KeepsPorts s u :=
  h.trans ⟨fun p => (k p).2, by rw [hreg]; exact fun _ => id⟩

theorem raise (h : KeepsPorts s t) (e : Event) : KeepsPorts s (raise e t) :=
  h.grow (.raise (.refl t) e) (by simp)

theorem raiseIf (h : KeepsPorts s t) (c : Bool) (e : Event) : KeepsPorts s (raiseIf c e t) :=
  h.grow (.raiseIf (.refl t) c e) (by simp)

theorem raiseFor (h : KeepsPorts s t) (p : Port) (e : Event) : KeepsPorts s (raiseFor p e t) :=
  h.grow (alertsGrow_raiseFor p e t) rfl

theorem modReel (h : KeepsPorts s t) (j : Nat) (f : Reel → Reel) : KeepsPorts s (t.modReel j f) := ⟨h.latched, h.closed⟩

/-- A confirmation becomes absent. -/
theorem dropConfirmation (h : KeepsPorts s t) (p : Port) : KeepsPorts s (dropConfirmation p t) := by
  refine ⟨h.latched, fun q hq => ?_⟩
  rw [Machine.dropConfirmation, State.setReg_reg, PerPort.get_set]
  split
  · rfl
  · exact h.closed q hq

/-! ### Rescan lists and shots (R19, R151) -/

theorem reopenShot (h : KeepsPorts s t) (r : Nat) : KeepsPorts s (reopenShot r t) :=
  h.grow (.reopenShot (.refl t) r) (by simp)

theorem reopenWhere (h : KeepsPorts s t) (j : Nat) (cond : Shot → Bool) : KeepsPorts s (reopenWhere j cond t) :=
  foldl _ (fun _ _ hu => ite (hu.reopenShot _) hu) h

theorem rescanAdd (h : KeepsPorts s t) (j : Nat) (x : FrameRange) : KeepsPorts s (rescanAdd j x t) := by
  unfold Machine.rescanAdd
  split
  · exact h
  · exact ite h (((h.modReel ..).raise _).reopenWhere ..)

/-! ### Damage records and claims (chapter 6) -/

theorem moveDamage (h : KeepsPorts s t) (i : Nat) (st : DamageState) : KeepsPorts s (moveDamage i st t) := by
  unfold Machine.moveDamage
  split
  · exact h
  · exact modReel (h.free (by simp)) ..

theorem closeDamage (h : KeepsPorts s t) (o : DamageOutcome) (i : Nat) : KeepsPorts s (closeDamage o t i) :=
  (h.moveDamage i (.closed o)).free (by simp [Machine.closeDamage])

theorem releaseClaims (h : KeepsPorts s t) (p : Port) : KeepsPorts s (releaseClaims p t) :=
  raiseIf (foldl _ (fun _ _ hu => hu.moveDamage ..) h) ..

theorem voidClaim (h : KeepsPorts s t) (i : Nat) : KeepsPorts s (voidClaim t i) := by
  unfold Machine.voidClaim
  split
  · split
    · exact (h.closeDamage ..).raiseFor ..
    · exact h
  · exact h

theorem withdrawWork (h : KeepsPorts s t) (j : Nat) : KeepsPorts s (withdrawWork j t) :=
  foldl _ (fun _ _ hu => hu.voidClaim _) (foldl _ (fun _ _ hu => hu.closeDamage ..) (h.modReel ..))

/-! ### Pitch, lock and transport (chapters 2 and 3) -/

theorem makeLive (h : KeepsPorts s t) (p : Pitch) : KeepsPorts s (makeLive p t) :=
  h.grow (.of_latches (latches_makeLive p t)) (by simp)

theorem unlock (h : KeepsPorts s t) : KeepsPorts s (unlock t) := h.grow (.of_latches (latches_unlock t)) (by simp)

theorem reanchorAt (h : KeepsPorts s t) (m : Mark) : KeepsPorts s (reanchorAt m t) :=
  h.grow (.of_latches (latches_reanchorAt m t)) (by simp)

theorem setOriginAt (h : KeepsPorts s t) (e : Int) : KeepsPorts s (setOriginAt e t) :=
  h.grow (.of_latches (latches_setOriginAt e t)) (by simp)

theorem applyCommit (h : KeepsPorts s t) (place : Option Mark) : KeepsPorts s (applyCommit place t) := by
  have hcommitted : KeepsPorts s (committed t) := (h.makeLive t.pru.staged).free (by simp [committed])
  by_cases hpitch : clampPitch t.pru.gauge t.pru.staged = t.pru.live
  · rwa [applyCommit_unchanged hpitch]
  · rw [applyCommit_changed hpitch]
    cases place with
    | some m => exact (hcommitted.reanchorAt m).free (by simp)
    | none => exact hcommitted.unlock.free (by simp)

theorem enterThreaded (h : KeepsPorts s t) : KeepsPorts s (enterThreaded t) :=
  have hentered := h.free (u := enter .threaded t) (by simp)
  ite (hentered.applyCommit _) hentered

theorem addHold (h : KeepsPorts s t) (c : HoldCause) : KeepsPorts s (addHold c t) :=
  h.grow (.addHold (.refl t) c) (by simp)

/-! ### Moves (chapter 9) -/

theorem refreshCab (h : KeepsPorts s t) : KeepsPorts s (refreshCab t) := h.grow (alertsGrow_refreshCab t) (by simp)

theorem autoMove (h : KeepsPorts s t) (j : Nat) (kind : MoveKind) : KeepsPorts s (autoMove j kind t) :=
  h.grow (alertsGrow_autoMove j kind t) (by simp)

theorem drainMarks : ∀ (l : List LegDue) {t : State}, KeepsPorts s t → KeepsPorts s (drainMarks l t)
  | [], _, h => h
  | m :: l, _, h => ite (drainMarks l (raiseIf (h.free (by simp)) ..)) h

theorem drain (h : KeepsPorts s t) : KeepsPorts s (drain t) := drainMarks _ h

theorem relocationCheck (h : KeepsPorts s t) (j : Nat) : KeepsPorts s (relocationCheck j t) := by
  unfold Machine.relocationCheck
  split
  · split
    · exact ite (autoMove (h.modReel ..) ..) h
    · exact h
  · exact h

theorem backToShelved (h : KeepsPorts s t) (j : Nat) : KeepsPorts s (backToShelved j t) :=
  relocationCheck (h.modReel ..) j

theorem dispatchReel (h : KeepsPorts s t) (j : Nat) : KeepsPorts s (dispatchReel j t) :=
  refreshCab (modReel (h.free (by simp)) ..)

theorem admitReel (h : KeepsPorts s t) (j r catalogue : Nat) (g : Gauge) (acidity slot : Nat) :
    KeepsPorts s (admitReel j r catalogue g acidity slot t) := by
  unfold Machine.admitReel
  extract_lets _ entered
  have hentered : KeepsPorts s entered := ⟨h.latched, h.closed⟩
  exact refreshCab (hentered.free (by simp))

theorem withdrawRelocation (h : KeepsPorts s t) (j : Nat) : KeepsPorts s (withdrawRelocation j t) := by
  unfold Machine.withdrawRelocation
  refine modReel ?_ ..
  split
  · exact h.free (by simp)
  · exact h.free (by simp)

theorem requestReel (h : KeepsPorts s t) (j : Nat) : KeepsPorts s (requestReel j t) := by
  refine refreshCab (modReel ?_ ..)
  unfold createFetchOut
  split
  · exact (h.withdrawRelocation j).free (by simp)
  · exact (h.withdrawRelocation j).free (by simp)

theorem freeReel (h : KeepsPorts s t) (j : Nat) : KeepsPorts s (freeReel j t) := by
  refine ⟨by simpa using h.latched, fun p hp => ?_⟩
  simp [Machine.freeReel, h.closed p hp]

theorem locate (h : KeepsPorts s t) (j : Nat) (d : Place) : KeepsPorts s (t.locate j d) := h.modReel ..

theorem home (h : KeepsPorts s t) (j : Nat) (d : Place) : KeepsPorts s (t.home j d) := by
  unfold State.home
  split
  · exact h.modReel ..
  · exact h.locate ..

theorem circulate (h : KeepsPorts s t) (j : Nat) (c : Circulation) : KeepsPorts s (t.circulate j c) := h.modReel ..

theorem followUp (h : KeepsPorts s t) (m : Move) (d : Place) : KeepsPorts s (followUp m d t) := by
  have hlocated := h.locate m.handle d
  have hhome := h.home m.handle d
  unfold Machine.followUp
  split
  · exact hlocated.free (by simp)
  · exact raise ((hlocated.circulate m.handle .ready).free (by simp)) _
  · exact hlocated.free (by simp)
  · exact relocationCheck ((hhome.circulate m.handle .shelved).free (by simp)) _
  · exact hhome.modReel ..
  · exact h.freeReel _

theorem finishMove (h : KeepsPorts s t) (m : Move) (d : Place) : KeepsPorts s (finishMove m d t) :=
  refreshCab (followUp (drain (h.free (by simp))) m d)

theorem failMove (h : KeepsPorts s t) (m : Move) : KeepsPorts s (failMove m t) :=
  refreshCab (raise (locate (h.free (by simp)) ..) _)

theorem cancelMove (h : KeepsPorts s t) (m : Move) : KeepsPorts s (cancelMove m t) :=
  have hdrained := drain (h.free (u := t.setCab (t.cab.removeMove m.entry)) (by simp))
  refreshCab (ite (hdrained.modReel ..) (hdrained.backToShelved _))

/-! ### The transport takes and leaves a reel (R26, R27) -/

theorem threadPru (h : KeepsPorts s t) (r : Reel) : KeepsPorts s (threadPru r t) := makeLive (h.free (by simp)) _

theorem threadReel (h : KeepsPorts s t) (j : Nat) (r : Reel) : KeepsPorts s (threadReel j r t) := by
  have hmoved : KeepsPorts s (reelToTransport j r t) := modReel (h.free (by simp)) ..
  unfold Machine.threadReel
  extract_lets moved _ loaded prepared _ ready
  have hloaded : KeepsPorts s loaded := free (t := moved) hmoved (by simp [loaded])
  have hprepared : KeepsPorts s prepared := (hloaded.threadPru r).free (by simp [prepared])
  have hready : KeepsPorts s ready := hprepared.free (by simp [ready])
  exact refreshCab (hready.free (by simp))

theorem unthreadReel (h : KeepsPorts s t) (n : Nat) : KeepsPorts s (unthreadReel n t) := by
  unfold Machine.unthreadReel
  extract_lets staged _ unloaded cut
  have hstaged : KeepsPorts s staged := by
    dsimp only [staged]
    split
    · exact modReel (h.free (by simp)) ..
    · exact h
  have hunloaded : KeepsPorts s unloaded := hstaged.free (by simp [unloaded])
  exact refreshCab (hunloaded.free (by simp [cut]))

/-! ### Settings (R180) -/

theorem storeSetting (h : KeepsPorts s t) (i v : Nat) : KeepsPorts s (storeSetting i v t) := by
  have hput : KeepsPorts s (t.putSetting i v) := h.free (by simp)
  unfold Machine.storeSetting
  split
  · next p _ =>
    have hreleased := ite (c := (t.putSetting i v).role p = .repair) hput (hput.releaseClaims p)
    exact ite (hreleased.dropConfirmation p) hreleased
  · exact ite (hput.free (by simp)) hput

/-! ### Requests -/

/-- A command on a reel refuses and leaves the state as it is, or does what its body does with the record. -/
theorem withReel {j : Nat} {free : Status} {f : Reel → Body} (hf : ∀ r, KeepsPorts s (f r s).1) :
    KeepsPorts s (withReel j free f s).1 := by
  unfold Machine.withReel
  split
  · exact refl s
  · split
    · exact hf _
    · exact refl s

theorem withMove {a : MoveArgs} {f : Move → Body} (hf : ∀ m, KeepsPorts s (f m s).1) :
    KeepsPorts s (withMove a f s).1 := by
  unfold Machine.withMove
  split
  · exact refl s
  · split
    · split
      · exact hf _
      · exact refl s
    · exact refl s

theorem withOperands {α : Type} {args : Option α} {f : α → Body} (hf : ∀ a, KeepsPorts s (f a s).1) :
    KeepsPorts s (withOperands args f s).1 := by
  cases args with
  | none => exact refl s
  | some a => exact hf a

/-- A check that refuses. -/
theorem checked {c : Prop} [Decidable c] {r : Reply} {x : State × Reply} (h : KeepsPorts s x.1) :
    KeepsPorts s (if c then (s, r) else x).1 := by
  split
  · exact refl s
  · exact h

/-- A check that lets through. -/
theorem admitted {c : Prop} [Decidable c] {r : Reply} {x : State × Reply} (h : KeepsPorts s x.1) :
    KeepsPorts s (if c then x else (s, r)).1 := by
  split
  · exact h
  · exact refl s

theorem setAlertMaskBody (p : Port) (kinds : BitVec 32) (s : State) : KeepsPorts s (setAlertMaskBody p kinds s).1 := by
  refine ⟨fun q e he => ?_, fun _ h => h⟩
  rw [Machine.setAlertMaskBody, State.setAlert, State.setAlt_alt, PerPort.get_set]
  split
  · next hq => exact hq ▸ he
  · exact he

theorem setSettingBody (a : SettingArgs) (s : State) : KeepsPorts s (setSettingBody a s).1 := by
  unfold Machine.setSettingBody
  split
  · exact refl s
  · exact checked ((refl s).storeSetting ..)

theorem admitBody (a : AdmitArgs) (s : State) : KeepsPorts s (admitBody a s).1 := by
  unfold Machine.admitBody
  split
  · exact refl s
  · refine checked (checked ?_)
    split
    · exact refl s
    · exact refl s
    · refine checked ?_
      split
      · next j r _ _ => exact (refl s).admitReel ..
      · exact refl s

theorem setConditionBody (a : ConditionArgs) (s : State) : KeepsPorts s (setConditionBody a s).1 :=
  have hset := (refl s).modReel a.handle.toNat (fun x => x.withAcidity a.acidity.toNat)
  withReel fun _ => checked (refreshCab (ite (hset.relocationCheck _) hset))

theorem requestBody (b : Byte) (s : State) : KeepsPorts s (requestBody b s).1 := by
  refine withReel fun _ => checked ?_
  split
  · exact checked ((refl s).requestReel _)
  · exact checked ((refl s).requestReel _)

theorem cancelBody (b : Byte) (s : State) : KeepsPorts s (cancelBody b s).1 := by
  refine withReel fun _ => ?_
  split
  · exact admitted (refreshCab (backToShelved (drain ((refl s).free (by simp))) _))
  · exact refl s

theorem returnBody (b : Byte) (s : State) : KeepsPorts s (returnBody b s).1 :=
  withReel fun _ => checked (checked (refreshCab (modReel ((refl s).free (by simp)) ..)))

theorem plainRelease (j : Nat) (s : State) : KeepsPorts s (plainRelease j s).1 :=
  withReel fun _ => checked (checked (checked (checked ((refl s).dispatchReel j))))

theorem threadBody (b : Byte) (s : State) : KeepsPorts s (threadBody b s).1 :=
  withReel fun r => checked (checked (checked ((refl s).threadReel _ r)))

theorem unthreadBody (s : State) : KeepsPorts s (unthreadBody s).1 := by
  refine checked (checked ?_)
  split
  · exact refl s
  · exact (refl s).unthreadReel _

theorem setOriginBody (s : State) : KeepsPorts s (setOriginBody s).1 := by
  refine checked ?_
  split
  · exact refl s
  · exact checked ((refl s).setOriginAt _)

theorem stopBody (s : State) : KeepsPorts s (stopBody s).1 := by
  have hstopped : KeepsPorts s (stopRun s) := enterThreaded ((refl s).free (by simp))
  cases hstate : s.trc.state
  all_goals simp only [Machine.stopBody, hstate]
  case inching | shuttle | scanning | hold | backup => exact hstopped
  case threaded | unthreaded | fault => exact refl s

theorem commitBody (s : State) : KeepsPorts s (commitBody s).1 :=
  checked (by
    split
    · exact (refl s).applyCommit _
    · exact (refl s).free (by simp))

theorem claimFirst (p : Port) (cond : Damage → Bool) (s : State) : KeepsPorts s (claimFirst p cond s).1 := by
  refine checked ?_
  split
  · exact refl s
  · exact (refl s).moveDamage ..

theorem claimNextBody (p : Port) (b : Byte) (s : State) : KeepsPorts s (claimNextBody p b s).1 := by
  unfold Machine.claimNextBody
  split
  · exact (refl s).raiseFor ..
  · split
    · exact claimFirst _ _ s
    · exact withReel fun _ => claimFirst _ _ s

theorem completeBody (p : Port) (a : CompleteArgs) (s : State) : KeepsPorts s (completeBody p a s).1 := by
  unfold Machine.completeBody
  split
  · exact refl s
  · next o _ =>
    have hclosed := (refl s).closeDamage o a.index.toNat
    refine checked ?_
    split
    · exact ite (hclosed.rescanAdd ..) hclosed
    · exact refl s

theorem releaseClaimBody (p : Port) (a : ClaimArgs) (s : State) : KeepsPorts s (releaseClaimBody p a s).1 := by
  refine checked ?_
  split
  · exact raiseIf ((refl s).moveDamage ..) ..
  · exact refl s

theorem rescanAddBody (a : RescanArgs) (s : State) : KeepsPorts s (rescanAddBody a s).1 :=
  withReel fun _ => checked (checked ((refl s).rescanAdd ..))

theorem setBaseBody (a : BaseArgs) (s : State) : KeepsPorts s (setBaseBody a s).1 :=
  withReel fun _ => checked ((refl s).modReel ..)

theorem takeMoveBody (s : State) : KeepsPorts s (takeMoveBody s).1 := by
  refine checked ?_
  split
  · exact refl s
  · split
    · exact refl s
    · exact refreshCab (modReel ((refl s).free (by simp)) ..)

theorem moveDoneBody (s : State) : KeepsPorts s (moveDoneBody s).1 := by
  unfold Machine.moveDoneBody
  split
  · exact refl s
  · exact (refl s).finishMove ..

theorem moveFailedBody (s : State) : KeepsPorts s (moveFailedBody s).1 := by
  unfold Machine.moveFailedBody
  split
  · exact refl s
  · exact (refl s).failMove _

theorem retryBody (a : MoveArgs) (s : State) : KeepsPorts s (retryBody a s).1 :=
  withMove fun _ => admitted (refreshCab ((refl s).free (by simp)))

theorem cancelMoveBody (a : MoveArgs) (s : State) : KeepsPorts s (cancelMoveBody a s).1 :=
  withMove fun m => checked ((refl s).cancelMove m)

end KeepsPorts

/-! ### Every body -/

/-- Every body but those of ACK_ALERTS, PORT_RESET and RELEASE FORCE. -/
theorem keepsPorts_bodyOf {c : Instr} (hreset : ∀ q, c ≠ .portReset q) (hack : ∀ q k, c ≠ .ackAlerts q k)
    (hforce : ∀ q h, c ≠ .releaseForce q h) (hflag : ∀ q h, c ≠ .release q (some ⟨h, 1⟩)) (s u : State) :
    KeepsPorts u (bodyOf s c u).1 := by
  cases c
  case portReset q => exact absurd rfl (hreset q)
  case ackAlerts q k => exact absurd rfl (hack q k)
  case releaseForce q h => exact absurd rfl (hforce q h)
  case release q args =>
    cases args with
    | none => exact .refl u
    | some a =>
      have hplain : a.force.toNat ≠ 1 := fun h =>
        hflag q a.handle (by rw [show (1 : Byte) = a.force from (BitVec.eq_of_toNat_eq h).symm])
      simp only [bodyOf, withOperands, releaseBody, if_neg hplain]
      split
      · exact .refl u
      · exact .plainRelease _ u
  case setAlertMask => exact .withOperands fun k => .setAlertMaskBody _ k u
  case setSetting => exact .withOperands fun a => .setSettingBody a u
  case admitReel => exact .withOperands fun a => .admitBody a u
  case setCondition => exact .withOperands fun a => .setConditionBody a u
  case request => exact .withOperands fun b => .requestBody b u
  case cancel => exact .withOperands fun b => .cancelBody b u
  case returnReel => exact .withOperands fun b => .returnBody b u
  case thread => exact .withOperands fun b => .threadBody b u
  case unthread => exact .unthreadBody u
  case setOrigin => exact .setOriginBody u
  case pause => exact .admitted (.addHold (.refl u) _)
  case stop => exact .stopBody u
  case clearFault => exact .admitted (.enterThreaded (.free (.refl u) (by simp)))
  case commit => exact .commitBody u
  case claimNext => exact .withOperands fun b => .claimNextBody _ b u
  case complete => exact .withOperands fun a => .completeBody _ a u
  case releaseClaim => exact .withOperands fun a => .releaseClaimBody _ a u
  case releaseAll => exact .releaseClaims (.refl u) _
  case rescanAdd => exact .withOperands fun a => .rescanAddBody a u
  case setBase => exact .withOperands fun a => .setBaseBody a u
  case takeMove => exact .takeMoveBody u
  case moveDone => exact .moveDoneBody u
  case moveFailed => exact .moveFailedBody u
  case retry => exact .withOperands fun a => .retryBody a u
  case cancelMove => exact .withOperands fun a => .cancelMoveBody a u
  all_goals exact .free (.refl u) (by simp [bodyOf])

/-- The withdrawal and the dispatch only raise events (R16); the opening request leaves ALT as it is (R15). -/
theorem latched_forceRelease (q : Port) (found : Option Confirmation) (h : Nat) {u : State} {p : Port} {e : Event}
    (he : AlertSet.has (u.alt.get p).latched e = true) :
    AlertSet.has ((forceRelease q found h u).1.alt.get p).latched e = true := by
  have hdispatched := (((KeepsPorts.refl u).withdrawWork h).dispatchReel h).latched p e he
  unfold forceRelease withReel
  split
  · exact he
  · split
    · dsimp only
      split_ifs
      · exact he
      · exact he
      · exact he
      · exact hdispatched
      · exact he
    · exact he

/-- No body but those of ACK_ALERTS and PORT_RESET takes a latched alert away. -/
theorem latched_bodyOf {c : Instr} (hreset : ∀ q, c ≠ .portReset q) (hack : ∀ q k, c ≠ .ackAlerts q k) (s : State)
    {u : State} {p : Port} {e : Event} (he : AlertSet.has (u.alt.get p).latched e = true) :
    AlertSet.has ((bodyOf s c u).1.alt.get p).latched e = true := by
  by_cases hforce : ∃ q h, c = .releaseForce q h
  · obtain ⟨q, h, rfl⟩ := hforce
    exact latched_forceRelease _ _ _ he
  · by_cases hflag : ∃ q h, c = .release q (some ⟨h, 1⟩)
    · obtain ⟨q, h, rfl⟩ := hflag
      exact latched_forceRelease _ _ _ he
    · exact (keepsPorts_bodyOf hreset hack (fun q h hc => hforce ⟨q, h, hc⟩) (fun q h hc => hflag ⟨q, h, hc⟩) s
        u).latched p e he

/-- No body but that of a RELEASE FORCE opens a confirmation. -/
theorem closed_bodyOf {c : Instr} (hforce : ∀ q h, c ≠ .releaseForce q h) (hflag : ∀ q h, c ≠ .release q (some ⟨h, 1⟩))
    (s : State) {u : State} {p : Port} (hp : u.reg.confirm.get p = none) :
    (bodyOf s c u).1.reg.confirm.get p = none := by
  by_cases hreset : ∃ q, c = .portReset q
  · obtain ⟨q, rfl⟩ := hreset
    exact (((KeepsPorts.refl ((u.setAlert q.port .reset).setPort q.port ⟨none, false⟩)).dropConfirmation
      q.port).releaseClaims q.port).closed p hp
  · by_cases hack : ∃ q k, c = .ackAlerts q k
    · obtain ⟨q, k, rfl⟩ := hack
      cases k <;> exact hp
    · exact (keepsPorts_bodyOf (fun q hc => hreset ⟨q, hc⟩) (fun q k hc => hack ⟨q, k, hc⟩) hforce hflag s u).closed p hp

end Sys2Proof.Machine
end

section
/-! SUPPORT. What arrives of a request at its port, and how every request is answered (R175, R179, R182, R15). -/

namespace Sys2Proof.Machine

variable {s t u : State} {rq : Rq} {need : Need} {c : Instr}

/-- R179: an unread response is discarded, and the overrun flag tells of it. -/
theorem arrive_spt (p : Port) (s : State) : (arrive p s).spt =
    s.spt.set p ⟨none, (s.spt.get p).overrun || (s.spt.get p).response.isSome⟩ := by
  cases hr : (s.spt.get p).response with
  | some r => simp [arrive, displace, dropConfirmation, hr]
  | none =>
    have hport : s.spt.get p = ⟨none, (s.spt.get p).overrun⟩ := by rw [← hr]
    simp [arrive, displace, dropConfirmation, hr, ← hport]

/-- R179: PORT_OVERRUN for the port whose response was unread. -/
theorem has_portOverrun_arrive {p : Port} (h : (s.spt.get p).response ≠ none) :
    AlertSet.has ((arrive p s).alt.get p).latched .portOverrun = true := by
  obtain ⟨r, hr⟩ := Option.ne_none_iff_exists'.mp h
  have hq : ((quiet s).spt.get p).response = some r := hr
  simp only [arrive, displace, hq]
  exact has_raiseFor ..

/-- A request ends with its answer: on what arrived, on that with ACCESS_DENIED raised, or on what its body made. -/
theorem serve_cases (rq : Rq) (need : Need) (body : Body) (s : State) : ∃ v r, serve rq need body s = answer rq r v ∧
    (v = arrive rq.port s ∨ v = raiseFor rq.port .accessDenied (arrive rq.port s) ∨
      v = (body (arrive rq.port s)).1) := by
  unfold serve
  extract_lets a r
  split
  · exact ⟨_, _, rfl, .inl rfl⟩
  · split
    · exact ⟨_, _, rfl, .inr (.inl rfl)⟩
    · exact ⟨_, _, rfl, .inr (.inr rfl)⟩

/-- PORT_RESET writes SPT for its own port alone (R183), the other bodies not at all. -/
theorem bodyOf_spt_other (h : requestOf c = some (rq, need)) (s u : State) {p : Port} (hp : p ≠ rq.port) :
    (bodyOf s c u).1.spt.get p = u.spt.get p := by
  by_cases hc : ∃ q, c = .portReset q
  · obtain ⟨q, rfl⟩ := hc
    cases h
    simp [bodyOf, portResetBody, PerPort.get_set, hp]
  · rw [kept_bodyOf (fun q hq => hc ⟨q, hq⟩) s u .spt (by simp)]

/-- Settles O32: `serve_cases`, with what each of the three states has of the ports. -/
theorem everyRequestIsAnswered : Obligations.EveryRequestIsAnswered := by
  intro c s rq need hc
  obtain ⟨v, r, hserve, hv⟩ := serve_cases rq need (bodyOf s c) s
  have hexec := hserve ▸ exec_request hc s
  refine ⟨answer rq r v, r.status, r.results, hexec, by simp [Responds, answer], fun p hp => ?_, fun hreset => ?_,
    fun hreset hack hunread => ?_, fun hforce hflag => ?_⟩
  · have hother : v.spt.get p = (arrive rq.port s).spt.get p := by
      rcases hv with rfl | rfl | rfl
      · rfl
      · rfl
      · exact bodyOf_spt_other hc s _ hp
    simp [answer, PerPort.get_set, hp, hother, arrive_spt]
  · have hspt : v.spt = (arrive rq.port s).spt := by
      rcases hv with rfl | rfl | rfl
      · rfl
      · rfl
      · exact kept_bodyOf hreset s _ .spt (by simp)
    simp [answer, hspt, arrive_spt]
  · have harrived := has_portOverrun_arrive hunread
    rcases hv with rfl | rfl | rfl
    · exact harrived
    · exact (alertsGrow_raiseFor _ _ _ _).2 _ harrived
    · exact latched_bodyOf hreset hack s harrived
  · have harrived : (arrive rq.port s).reg.confirm.get rq.port = none := by simp
    rcases hv with rfl | rfl | rfl
    · exact harrived
    · exact harrived
    · exact closed_bodyOf hforce hflag s harrived

end Sys2Proof.Machine
end

section
/-! SUPPORT. Roles and the writes that change them (R180, R189): at most one port holds SCAN and at most one VAULT. -/

namespace Sys2Proof.Machine

variable {s t : State} {c : Instr}

/-! ### Role settings -/

@[simp] theorem rolePort_roleIndex (p : Port) : rolePort (roleIndex p) = some p := by cases p <;> rfl

theorem roleIndex_inj {p q : Port} (h : roleIndex p = roleIndex q) : p = q :=
  Option.some.inj ((rolePort_roleIndex p).symm.trans ((congrArg rolePort h).trans (rolePort_roleIndex q)))

theorem Role.ofCode_eq_scan {n : Nat} : Role.ofCode n = .scan ↔ n = 1 := by
  unfold Role.ofCode
  split <;> simp_all

theorem Role.ofCode_eq_vault {n : Nat} : Role.ofCode n = .vault ↔ n = 4 := by
  unfold Role.ofCode
  split <;> simp_all

/-- Two codes of one exclusive role are one code, and one that a second port may not be given (R180). -/
theorem Role.ofCode_exclusive {m n : Nat} (h : Role.ofCode m = Role.ofCode n)
    (hx : Role.ofCode m = .scan ∨ Role.ofCode m = .vault) : m = n ∧ (n = 1 ∨ n = 4) := by
  rcases hx with hm | hm
  · have hn := Role.ofCode_eq_scan.mp (h ▸ hm)
    exact ⟨(Role.ofCode_eq_scan.mp hm).trans hn.symm, .inl hn⟩
  · have hn := Role.ofCode_eq_vault.mp (h ▸ hm)
    exact ⟨(Role.ofCode_eq_vault.mp hm).trans hn.symm, .inr hn⟩

/-! ### Writing a setting -/

theorem putSetting_setting (s : State) (i v j : Nat) : (s.putSetting i v).setting j = if j = i then v else s.setting j := by
  simp only [State.setting, State.putSetting, State.setCfg_cfg, Table.read_write]
  split <;> rfl

/-- A write replaces its own setting and no other, whatever comes of it elsewhere (R189). -/
theorem storeSetting_setting (s : State) (i v j : Nat) :
    (storeSetting i v s).setting j = if j = i then v else s.setting j := by
  rw [← putSetting_setting]
  unfold storeSetting
  split
  · simp
  · split <;> simp

theorem storeSetting_role (s : State) (i v : Nat) (p : Port) :
    (storeSetting i v s).role p = if roleIndex p = i then Role.ofCode v else s.role p := by
  rw [State.role, storeSetting_setting, apply_ite Role.ofCode, State.role]

/-- No second port: a write that duplicates no role gives a port a code that no other port has, if the code is that of
an exclusive role (R180). -/
theorem setting_ne_of_not_duplicate {p q : Port} {v : Nat} (h : duplicateWrite (roleIndex p) v s = false)
    (hv : v = 1 ∨ v = 4) (hq : q ≠ p) : s.setting (roleIndex q) ≠ v := by
  intro hcode
  have hall : q ∈ Port.all := by cases q <;> simp [Port.all]
  have hdup : duplicateRole p v s = true := by
    simpa [duplicateRole, hv] using ⟨q, hall, hq, hcode⟩
  rw [duplicateWrite, rolePort_roleIndex] at h
  exact Bool.false_ne_true (h.symm.trans hdup)

theorem rolesExclusive_of_settings (h : t.cfg.settings = s.cfg.settings) (hs : RolesExclusive s) : RolesExclusive t := by
  have hrole (p : Port) : t.role p = s.role p := by rw [State.role, State.setting, h, State.role, State.setting]
  intro p q
  rw [hrole, hrole]
  exact hs p q

/-- R180, at the write of any setting. -/
theorem rolesExclusive_storeSetting {i v : Nat} (hs : RolesExclusive s) (h : duplicateWrite i v s = false) :
    RolesExclusive (storeSetting i v s) := by
  intro p q heq hx
  simp only [storeSetting_role] at heq hx
  split_ifs at heq hx with hp hq hq
  · exact roleIndex_inj (hp.trans hq.symm)
  · obtain ⟨hcode, hv⟩ := Role.ofCode_exclusive heq hx
    subst hp
    by_contra hne
    exact setting_ne_of_not_duplicate h (hcode ▸ hv) (Ne.symm hne) hcode.symm
  · obtain ⟨hcode, hv⟩ := Role.ofCode_exclusive heq hx
    subst hq
    by_contra hne
    exact setting_ne_of_not_duplicate h hv hne hcode
  · exact hs p q heq hx

/-! ### What can write a role -/

theorem rolesExclusive_reset : RolesExclusive State.reset := by
  intro p q
  cases p <;> cases q <;> decide

theorem duplicateWrite_none (i : Nat) (s : State) : duplicateWrite i 0 s = false := by
  unfold duplicateWrite
  split <;> rfl

theorem endPreload_settings (error : Bool) (s : State) : (endPreload error s).cfg.settings = s.cfg.settings := by
  cases error <;> rfl

/-- R192: a duplicate role is stored as NONE. -/
theorem rolesExclusive_takePreloadValue (hs : RolesExclusive s) (offset index v : Nat) :
    RolesExclusive (takePreloadValue offset index v s) := by
  unfold takePreloadValue
  split
  · exact hs
  · split
    · exact rolesExclusive_of_settings (endPreload_settings true s) hs
    · extract_lets _ u
      have hu : RolesExclusive u := rolesExclusive_of_settings (s := s) rfl hs
      split
      · next row _ =>
        unfold preloadStore
        split
        · exact rolesExclusive_of_settings (s := storeSetting row.index 0 u) (by simp)
            (rolesExclusive_storeSetting hu (duplicateWrite_none _ u))
        · next h => exact rolesExclusive_storeSetting hu (Bool.eq_false_iff.mpr h)
      · exact hu

/-- R180: SET_SETTING is refused when it would duplicate a role. -/
theorem rolesExclusive_setSettingBody (hs : RolesExclusive s) (a : SettingArgs) :
    RolesExclusive (setSettingBody a s).1 := by
  unfold setSettingBody
  split
  · exact hs
  · next row _ =>
    dsimp only
    split
    · exact hs
    · next h => exact rolesExclusive_storeSetting hs (Bool.eq_false_iff.mpr h)

theorem rolesExclusive_setSetting (hs : RolesExclusive s) (rq : Rq) (args : Option SettingArgs) :
    RolesExclusive (serve rq .any (withOperands args setSettingBody) s) := by
  have harrived : RolesExclusive (arrive rq.port s) := rolesExclusive_of_settings (by simp) hs
  obtain ⟨v, r, hserve, hv⟩ := serve_cases rq .any (withOperands args setSettingBody) s
  rw [hserve]
  refine rolesExclusive_of_settings (s := v) rfl ?_
  rcases hv with rfl | rfl | rfl
  · exact harrived
  · exact rolesExclusive_of_settings (s := arrive rq.port s) rfl harrived
  · cases args with
    | none => exact harrived
    | some a => exact rolesExclusive_setSettingBody harrived a

theorem exec_rolesExclusive (hs : RolesExclusive s) (h : exec c s = .next t) : RolesExclusive t := by
  obtain ⟨u, hu, hkept⟩ := everyCommandKeepsToItsBlocks c s
  obtain rfl : t = u := by simpa using h.symm.trans hu
  by_cases hc : Block.cfg ∈ mayChange c
  · cases c
    case reset => cases h; exact rolesExclusive_of_settings (s := .reset) rfl rolesExclusive_reset
    case preloadValue =>
      cases h
      exact rolesExclusive_takePreloadValue (s := quiet s) (rolesExclusive_of_settings rfl hs) _ _ _
    case preloadEnd =>
      cases h
      refine rolesExclusive_of_settings (s := s) ?_ hs
      split
      · exact endPreload_settings _ _
      · rfl
    case setSetting => cases h; exact rolesExclusive_setSetting hs _ _
    all_goals simp [mayChange] at hc
  · exact rolesExclusive_of_settings (congrArg Cfg.settings (hkept .cfg hc)) hs

/-- Settles O6: a step that changes CFG writes a role only where no other port holds it (`exec_rolesExclusive`). -/
theorem rolesStayExclusive : Obligations.RolesStayExclusive := by
  intro s t hs h
  cases hp : s.pending with
  | nil =>
    rw [stepTakesTheFrontCommand.2 s hp] at h
    cases h
    exact hs
  | cons c rest =>
    rw [stepTakesTheFrontCommand.1 c rest s hp] at h
    exact exec_rolesExclusive (s := { s with pending := rest }) hs h

end Sys2Proof.Machine
end

section
/-! SUPPORT. What a role change and PORT_RESET let go of: the port's claims and its force confirmation (R15, R123, R180),
and with PORT_RESET its latched alerts (R183). -/

namespace Sys2Proof.Machine

variable {s t u : State} {p : Port}

/-! ### The event of a release of claims, in every state (R121, R123) -/

/-- The port's records QUEUED again, before the event is raised. -/
def unclaim (p : Port) (s : State) : State :=
  (s.damageBySeq (·.claimedBy p)).foldl (fun u i => moveDamage i .queued u) s

theorem releaseClaims_unclaim (p : Port) (s : State) :
    releaseClaims p s = raiseIf (!s.repairWaiting && (unclaim p s).repairWaiting) .repairWaiting (unclaim p s) := rfl

theorem unclaim_alt (p : Port) (s : State) : (unclaim p s).alt = s.alt :=
  foldl_keeps (g := State.alt) (fun _ _ => by simp) _ _

theorem unclaim_cfg (p : Port) (s : State) : (unclaim p s).cfg = s.cfg :=
  foldl_keeps (g := State.cfg) (fun _ _ => by simp) _ _

theorem releaseClaims_confirm (p : Port) (s : State) : (releaseClaims p s).reg.confirm = s.reg.confirm := by
  rw [releaseClaims_unclaim, raiseIf_reg]
  exact foldl_keeps (g := fun u => u.reg.confirm) (fun _ _ => moveDamage_confirm ..) _ _

theorem Table.read_isSome_of_mem {α : Type} {l : Table α} {e : Nat × α} (h : e ∈ l) : (l.read e.1).isSome = true := by
  induction l with
  | nil => cases h
  | cons a rest ih =>
    obtain ⟨k, v⟩ := a
    simp only [Table.read]
    split
    · rfl
    · next hne =>
      rcases List.mem_cons.mp h with rfl | h
      · exact absurd rfl hne
      · exact ih h

theorem read_moveDamage_isSome (i j : Nat) (st : DamageState) (s : State) :
    ((moveDamage i st s).rpq.damage.read j).isSome = (s.rpq.damage.read j).isSome := by
  unfold moveDamage
  split
  · rfl
  · next d hd =>
    simp only [State.modReel_rpq, State.setRpq_rpq, Table.read_write]
    split
    · next hj => rw [hj, hd]; rfl
    · rfl

theorem repairWaiting_moveDamage {i : Nat} (h : (s.rpq.damage.read i).isSome = true) :
    (moveDamage i .queued s).repairWaiting = true := by
  obtain ⟨d, hd⟩ := Option.isSome_iff_exists.mp h
  have hread : (moveDamage i .queued s).rpq.damage.read i = some { d with state := .queued } := by
    simp [moveDamage, hd]
  exact List.any_eq_true.mpr ⟨_, Table.mem_of_read hread, rfl⟩

/-- A port that held a claim leaves a QUEUED record: the last of those released. -/
theorem repairWaiting_unclaim (h : s.rpq.damage.any (fun e => e.2.claimedBy p) = true) :
    (unclaim p s).repairWaiting = true := by
  obtain ⟨e, he, hclaimed⟩ := List.any_eq_true.mp h
  have hall : ∀ i ∈ s.damageBySeq (·.claimedBy p), (s.rpq.damage.read i).isSome = true := by
    intro i hi
    obtain ⟨x, hx, rfl⟩ := List.mem_map.mp hi
    exact Table.read_isSome_of_mem (List.mem_of_mem_filter ((mem_sortBy _ _ _).mp hx))
  have hne : s.damageBySeq (·.claimedBy p) ≠ [] := by
    refine List.ne_nil_of_mem (a := e.1) (List.mem_map.mpr ⟨e, (mem_sortBy _ _ _).mpr ?_, rfl⟩)
    exact List.mem_filter.mpr ⟨he, hclaimed⟩
  obtain ⟨l, i, hl⟩ := (List.eq_nil_or_concat _).resolve_left hne
  rw [unclaim, hl, List.concat_eq_append, List.foldl_concat]
  refine repairWaiting_moveDamage ?_
  rw [foldl_keeps (g := fun u => (u.rpq.damage.read i).isSome) (fun _ _ => read_moveDamage_isSome ..)]
  exact hall i (by simp [hl])

/-- No claim, no change. -/
theorem unclaim_none (h : s.rpq.damage.any (fun e => e.2.claimedBy p) = false) : unclaim p s = s := by
  have hnil : s.rpq.damage.filter (fun e => e.2.claimedBy p) = [] := by
    simpa [List.filter_eq_nil_iff] using List.any_eq_false.mp h
  rw [unclaim, State.damageBySeq, hnil]
  rfl

/-- REPAIR_WAITING is raised as `releaseRaises` says. -/
theorem releaseClaims_eq (p : Port) (s : State) :
    releaseClaims p s = raiseIf (releaseRaises p s) .repairWaiting (unclaim p s) := by
  rw [releaseClaims_unclaim, releaseRaises]
  congr 1
  cases h : s.rpq.damage.any (fun e => e.2.claimedBy p) with
  | true => rw [repairWaiting_unclaim h]
  | false => rw [unclaim_none h, Bool.not_and_self, Bool.and_false]

theorem latches_releaseClaims (p : Port) (s : State) :
    Latches (if releaseRaises p s then [.repairWaiting] else []) s (releaseClaims p s) := by
  rw [releaseClaims_eq]
  exact (Latches.nil (unclaim_alt p s)).trans (.raiseIf _ _) (unclaim_cfg p s)

/-! ### The claims released (R121, R123) -/

theorem claimsReleased_releaseClaims (p : Port) (hw : s.rpq.damage.wf = true) : ClaimsReleased p s (releaseClaims p s) := by
  obtain ⟨v, hv, hreleased, -⟩ := releaseAllBody_spec p hw
  obtain rfl : releaseClaims p s = v := congrArg Prod.fst hv
  exact hreleased

theorem ClaimsReleased.not_claimed (h : ClaimsReleased p s t) {i : Nat} {d : Damage}
    (hd : t.rpq.damage.read i = some d) : d.claimedBy p = false := by
  obtain ⟨hread, -⟩ := h
  rw [hread] at hd
  obtain ⟨x, -, rfl⟩ := Option.map_eq_some_iff.mp hd
  split
  · rfl
  · next hx => exact Bool.eq_false_iff.mpr hx

/-! ### A role changes (R180) -/

theorem Role.ofCode_eq_repair {n : Nat} : Role.ofCode n = .repair ↔ n = 2 := by
  unfold Role.ofCode
  split <;> simp_all

theorem roleChanged_repair {old : Role} (h : s.role p = .repair) : (roleChanged p old s).rpq = s.rpq := by
  rw [roleChanged, if_pos h]
  split <;> simp

/-- R123. -/
theorem claimsReleased_roleChanged {old : Role} (h : s.role p ≠ .repair) (hw : s.rpq.damage.wf = true) :
    ClaimsReleased p s (roleChanged p old s) := by
  have hreleased := claimsReleased_releaseClaims p hw
  rw [roleChanged, if_neg h]
  split
  · exact hreleased.of_same rfl (fun _ => rfl) (by simp) (fun _ => rfl)
  · exact hreleased

/-- R15. -/
theorem roleChanged_confirm (p : Port) (old : Role) (s : State) : (roleChanged p old s).reg.confirm =
    if old = .vault ∧ s.role p ≠ .vault then s.reg.confirm.set p none else s.reg.confirm := by
  have hreleased : (if s.role p = .repair then s else releaseClaims p s).reg.confirm = s.reg.confirm := by
    split
    · rfl
    · exact releaseClaims_confirm p s
  unfold roleChanged
  extract_lets released
  split
  · exact congrArg (·.set p none) hreleased
  · exact hreleased

theorem storeSetting_roleIndex (p : Port) (v : Nat) (s : State) :
    storeSetting (roleIndex p) v s = roleChanged p (s.role p) (s.putSetting (roleIndex p) v) := by
  rw [storeSetting, rolePort_roleIndex]

theorem settingRow_role (p : Port) : ∃ row, settingRow p.number = some row ∧ row.index = roleIndex p ∧
    row.range = .span 0 4 := by
  cases p <;> exact ⟨_, rfl, rfl, rfl⟩

/-- R189: a role code in its range is stored as it is. -/
theorem setSettingBody_role {role : BitVec 16} (hrole : role.toNat ≤ 4) (h : duplicateWrite p.number role.toNat s = false) :
    setSettingBody ⟨BitVec.ofNat 8 p.number, role⟩ s = (storeSetting (roleIndex p) role.toNat s, .ok []) := by
  obtain ⟨row, hrow, hindex, hrange⟩ := settingRow_role p
  have hport : (BitVec.ofNat 8 p.number).toNat = p.number := by cases p <;> rfl
  have hstored : row.range.store role.toNat = role.toNat := by
    rw [hrange]; simp only [SettingRange.store, clampNat]; split_ifs <;> omega
  have hplace : roleIndex p = p.number := Nat.zero_add _
  simp [setSettingBody, hport, hrow, hstored, hindex, hplace, h, Reply.clamped, Reply.ok]

theorem duplicateWrite_congr (h : ∀ j, t.setting j = s.setting j) (i v : Nat) :
    duplicateWrite i v t = duplicateWrite i v s := by
  unfold duplicateWrite duplicateRole
  simp only [h]

/-- R180, R123, R15: what a write of a port's role lets go of. -/
theorem storeRole_letsGo (p : Port) (v : Nat) (s : State) : let t := storeSetting (roleIndex p) v s
    t.role p = Role.ofCode v ∧ (∀ q, q ≠ p → t.role q = s.role q) ∧
      (v ≠ 2 → s.rpq.damage.wf = true → ClaimsReleased p s t) ∧ (v = 2 → t.rpq = s.rpq) ∧
      (s.role p = .vault → v ≠ 4 → t.reg.confirm.get p = none) ∧
      ∀ q, q ≠ p → t.reg.confirm.get q = s.reg.confirm.get q := by
  intro t
  have hrole : (s.putSetting (roleIndex p) v).role p = Role.ofCode v := by
    rw [State.role, putSetting_setting, if_pos rfl]
  have ht : t = roleChanged p (s.role p) (s.putSetting (roleIndex p) v) := storeSetting_roleIndex p v s
  have hconfirm := roleChanged_confirm p (s.role p) (s.putSetting (roleIndex p) v)
  rw [← ht, hrole] at hconfirm
  refine ⟨?_, fun q hq => ?_, fun hv hw => ?_, fun hv => ?_, fun hold hv => ?_, fun q hq => ?_⟩
  · rw [storeSetting_role, if_pos rfl]
  · rw [storeSetting_role, if_neg fun h => hq (roleIndex_inj h)]
  · have hreleased := claimsReleased_roleChanged (old := s.role p) (s := s.putSetting (roleIndex p) v)
      (by rwa [hrole, ne_eq, Role.ofCode_eq_repair]) hw
    rw [ht]
    exact hreleased.of_same rfl (fun _ => rfl) rfl (fun _ => rfl)
  · rw [ht, roleChanged_repair (by rw [hrole, hv]; rfl)]
    rfl
  · rw [hconfirm, if_pos ⟨hold, fun h => hv (Role.ofCode_eq_vault.mp h)⟩, PerPort.get_set_same]
  · rw [hconfirm]
    split
    · rw [PerPort.get_set, if_neg hq]; rfl
    · rfl

/-! ### PORT_RESET (R183) -/

/-- The port let go of, but for its claims: alerts and mask as after RESET, no response, no overrun, no confirmation. -/
def clearPort (p : Port) (s : State) : State := dropConfirmation p ((s.setAlert p .reset).setPort p ⟨none, false⟩)

theorem portResetBody_eq (p : Port) (s : State) : portResetBody p s = (releaseClaims p (clearPort p s), .ok []) := rfl

theorem arrive_alt_other {q : Port} (h : q ≠ p) (s : State) : (arrive p s).alt.get q = s.alt.get q := by
  unfold arrive displace
  split
  · simp [raiseFor, PerPort.get_set, h]
  · simp

theorem releaseRaises_of_rpq (h : t.rpq = s.rpq) (p : Port) : releaseRaises p t = releaseRaises p s := by
  rw [releaseRaises, releaseRaises, repairWaiting_of_rpq h, h]

theorem contains_ite_singleton (b : Bool) (e f : Event) : (if b then [f] else []).contains e = (e == f && b) := by
  cases b with
  | true => simp [beq_eq_decide]
  | false => simp

/-- R183: what PORT_RESET latches for a port in the end. -/
theorem portReset_latches {rq : Rq} {q : Port} {e : Event} :
    let t := releaseClaims rq.port (clearPort rq.port (arrive rq.port s))
    (t.alt.get q).mask = (if q = rq.port then BitVec.allOnes 27 else (s.alt.get q).mask) ∧
      AlertSet.has (t.alt.get q).latched e = ((q != rq.port && AlertSet.has (s.alt.get q).latched e) ||
        (e == .repairWaiting && releaseRaises rq.port s && AlertSet.has (s.route q) e)) := by
  intro t
  obtain ⟨hmask, hlatched⟩ := latches_releaseClaims rq.port (clearPort rq.port (arrive rq.port s)) q
  have hraises : releaseRaises rq.port (clearPort rq.port (arrive rq.port s)) = releaseRaises rq.port s :=
    releaseRaises_of_rpq (by simp [clearPort]) _
  have hroute : (clearPort rq.port (arrive rq.port s)).route q = s.route q := route_of_cfg (by simp [clearPort]) q
  have halt : (clearPort rq.port (arrive rq.port s)).alt.get q = if q = rq.port then .reset else s.alt.get q := by
    simp only [clearPort, dropConfirmation_alt, State.setPort_alt, State.setAlert, State.setAlt_alt, PerPort.get_set]
    split
    · rfl
    · next hq => exact arrive_alt_other hq s
  rw [hmask, hlatched, hraises, hroute, halt, contains_ite_singleton]
  by_cases hq : q = rq.port
  · simp [hq, AlertState.reset, AlertSet.has]
  · simp [hq, bne_iff_ne.mpr hq]

/-- Settles O38: `storeRole_letsGo` on the state that arrived, and the claims released after `clearPort`. -/
theorem roleChangeAndPortResetLetGo : Obligations.RoleChangeAndPortResetLetGo := by
  refine ⟨fun rq s p role hserved hrole hdup => ?_, fun rq s hserved => ?_⟩
  · have harrivedDup : duplicateWrite p.number role.toNat (arrive rq.port s) = false := by
      rwa [duplicateWrite_congr fun j => arrive_setting ..]
    have harrivedRole (q : Port) : (arrive rq.port s).role q = s.role q := by simp [State.role]
    obtain ⟨hown, hother, hreleased, hkept, hclosed, hconfirm⟩ := storeRole_letsGo p role.toNat (arrive rq.port s)
    refine exec_of_body rfl hserved (setSettingBody_role hrole harrivedDup) (by simp) (by simp)
      ⟨hown, fun q hq => (hother q hq).trans (harrivedRole q), fun hv hform => ?_, fun hv => (hkept hv).trans (arrive_rpq _),
        fun hold hv => hclosed ((harrivedRole p).trans hold) hv, fun q hq hport => ?_⟩
    · have hclaims := hreleased hv (by rw [arrive_rpq]; exact hform.2.1)
      exact ⟨hclaims.of_same (arrive_rpq _).symm (fun j => (arrive_reel ..).symm) rfl (fun _ => rfl),
        fun i d hd => hclaims.not_claimed hd⟩
    · refine (hconfirm q hq).trans ?_
      rw [arrive_reg, PerPort.get_set, if_neg hport]
  · have hexec : exec (.portReset rq) s = .next
        (answer rq (.ok []) (releaseClaims rq.port (clearPort rq.port (arrive rq.port s)))) :=
      congrArg Host.Outcome.next (serve_of_served hserved)
    have hconfirm (q : Port) : (releaseClaims rq.port (clearPort rq.port (arrive rq.port s))).reg.confirm.get q =
        if q = rq.port then none else s.reg.confirm.get q := by
      rw [releaseClaims_confirm]
      simp only [clearPort, dropConfirmation, State.setReg_reg, PerPort.get_set]
      split
      · rfl
      · next hq => simp [PerPort.get_set, hq]
    refine ⟨_, hexec, ?_, ?_, fun e => ?_, fun q hq => ⟨?_, fun e => ?_⟩, ?_, fun q hq => ?_, fun hform => ?_, ?_⟩
    · simp [answer, clearPort, arrive_spt, Reply.ok]
    · exact (portReset_latches (e := .repairWaiting)).1.trans (if_pos rfl)
    · exact (portReset_latches (q := rq.port) (e := e)).2.trans (by simp)
    · exact (portReset_latches (e := .repairWaiting)).1.trans (if_neg hq)
    · exact (portReset_latches (q := q) (e := e)).2.trans (by simp [bne_iff_ne.mpr hq])
    · exact (hconfirm _).trans (if_pos rfl)
    · exact (hconfirm q).trans (if_neg hq)
    · have hclaims := claimsReleased_releaseClaims rq.port (s := clearPort rq.port (arrive rq.port s))
        (by simpa [clearPort] using hform.2.1)
      exact ⟨hclaims.of_same (by simp [clearPort]) (fun j => (arrive_reel rq.port s j).symm) rfl (fun _ => rfl),
        fun i d hd => hclaims.not_claimed hd⟩
    · simp [clearPort]

end Sys2Proof.Machine
end
